-- ==== Sys2Proof/Word.lean ====
section
/-! DEFINITION. The word types of the LP4-768H: 64-bit registers, words and addresses, bytes, and the
128-bit lane masks of a warp (R18, R35, R69). -/

namespace Sys2Proof

/-- A 64-bit register, instruction word, syllable or virtual address (R18, R35). -/
abbrev Word := BitVec 64

/-- One byte of memory. -/
abbrev Byte := BitVec 8

/-- A mask over the lanes of a warp, widths up to 128 (R53, R69). -/
abbrev Mask := BitVec 128

end Sys2Proof
end

