-- ==== Sys2Proof/Syntax.lean ====
section
/-! DEFINITION. The instructions of the LP4-768H as data: the field records of each word format
(R20 to R30) and `Instr`, one constructor for every row of the opcode table: the 190 encoded
instructions, then the 86 device events, which have no word and carry the place they happen at. -/

namespace Sys2Proof

/-- The 4-bit code of a T field or of a register tag (R35). Code 0xF is half-word access as a type and
UND as a tag; code 0xE is byte access and is never a tag. -/
inductive Ty where
  | b64 | i32 | n32 | i64 | n64 | f32 | f64 | f16x4 | bf16x4 | iv32 | f8x8 | e5x8 | f4x16 | lg6x8
  | byte | half
  deriving DecidableEq, Repr

/-- The tag UND, code 0xF (R35). -/
abbrev Ty.und : Ty := .half

/-- A three-valued predicate (R67): F is 0b00, T is 0b01, U is 0b10. -/
inductive Pred where
  | f | t | u
  deriving DecidableEq, Repr

/-- Guard mode GM (R10): no guard, or the predicate must be T, F or U. -/
inductive GuardMode where
  | always | ifT | ifF | ifU
  deriving DecidableEq, Repr

/-- A guard: its mode and the predicate it names (R10). -/
structure Guard where
  gm : GuardMode := .always
  pg : BitVec 3 := 0
  deriving DecidableEq, Repr

/-- The four modes of R38: warp, front end, VLIW context, privileged single-lane. -/
inductive Mode where
  | warp | front | vliw | priv
  deriving DecidableEq, Repr

/-- The shape a decoded instruction came in: a 64-bit word of a warp, front end or handler (R20), or a
VLIW syllable with its cluster and stop bit (R29). -/
inductive Site where
  | word
  | syl (cl : BitVec 5) (stop : Bool)
  deriving DecidableEq, Repr

/-- The arithmetic word (R20) and the VLIW syllable (R29). Register fields are 7 bits; a syllable's are
6 bits, zero-extended. X is 8 bits in a word and 6 in a syllable. -/
structure ArithWord where
  site : Site := .word
  g : Guard := {}
  d : BitVec 7 := 0
  a : BitVec 7 := 0
  b : BitVec 7 := 0
  c : BitVec 7 := 0
  sub : BitVec 5 := 0
  t : Ty := .b64
  rm : BitVec 2 := 0
  mod : BitVec 4 := 0
  x : BitVec 8 := 0
  deriving DecidableEq, Repr

/-- The immediate word (R24) and immediate syllable (R30). `imm` holds IMM32, or IMM20 in its low bits. -/
structure ImmWord where
  site : Site := .word
  g : Guard := {}
  d : BitVec 7 := 0
  a : BitVec 7 := 0
  imm : BitVec 32 := 0
  t : Ty := .b64
  deriving DecidableEq, Repr

/-- The memory word (R25); for FENCE, ACQ and REL also the ordering syllable of R30, whose kind stands
in `d` bits [1:0] here as D[14:13] does in the word. -/
structure MemWord where
  site : Site := .word
  g : Guard := {}
  d : BitVec 7 := 0
  a : BitVec 7 := 0
  b : BitVec 7 := 0
  off : BitVec 20 := 0
  t : Ty := .b64
  sc : BitVec 3 := 0
  ch : BitVec 2 := 0
  deriving DecidableEq, Repr

/-- The atomic word (R26); for SIGNAL and SWAIT also the ordering syllable of R30. -/
structure AtomWord where
  site : Site := .word
  g : Guard := {}
  d : BitVec 7 := 0
  a : BitVec 7 := 0
  b : BitVec 7 := 0
  c : BitVec 7 := 0
  sub : BitVec 5 := 0
  t : Ty := .b64
  sc : BitVec 3 := 0
  ch : BitVec 2 := 0
  deriving DecidableEq, Repr

/-- The branch word (R27) and branch syllable (R30). `joff` is 0 in a syllable. COLLAPSE carries its K
code in bit 0 of `pb`. -/
structure BranchWord where
  site : Site := .word
  g : Guard := {}
  pb : BitVec 3 := 0
  cls : BitVec 3 := 0
  off : BitVec 20 := 0
  joff : BitVec 16 := 0
  deriving DecidableEq, Repr

/-- The address syllable of PUSHA and PUSHS (R30): a global address or a tile element. -/
structure AddrWord where
  cl : BitVec 5 := 0
  stop : Bool := false
  g : Guard := {}
  a : BitVec 7 := 0
  t : Ty := .b64
  tile : Bool := false
  off : BitVec 20 := 0
  h : BitVec 6 := 0
  col : BitVec 7 := 0
  deriving DecidableEq, Repr

/-- EVBIND's two encodings (R321): the branch word of a warp, with slot, kind, handler offset and the X
byte, or a syllable with handler, value and threshold registers. -/
inductive EvBindWord where
  | word (g : Guard) (slot kind : BitVec 3) (off : BitVec 20) (joff : BitVec 16) (b19 : Bool) (x : BitVec 8)
  | syl (w : ArithWord)
  deriving DecidableEq, Repr

/-- How a peer answers a command (R332, R333). -/
inductive PeerStatus where
  | done | remoteFault | linkDown
  deriving DecidableEq, Repr

/-- What the tests of a start find (R365, R369): the cores that fail, and whether the B-store test fails. -/
structure StartTests where
  cores : List Nat := []
  store : Bool := false
  deriving DecidableEq, Repr

/-- The instructions and device events, one constructor for each row of the opcode table. -/
inductive Instr where
  /-- R75: Does nothing, whatever the guard selects. -/
  | nop (w : ArithWord)
  /-- R76: Sends lanes whose tested predicate lies in the class set to the target; the divergent form pushes a divergence-stack entry. -/
  | bra (w : BranchWord)
  /-- R81: Uniform jump to PC + 8·OFF20. -/
  | jmp (w : BranchWord)
  /-- R81: Pushes the return address on the return stack and jumps; ends the region. -/
  | call (w : BranchWord)
  /-- R81: Pops the return stack into the PC; ends the region. -/
  | ret (w : ArithWord)
  /-- R81: Uniform jump to the address held in a register. -/
  | jmpr (w : ArithWord)
  /-- R79: Closes the divergence-stack entry of its BRA, merging or waiting with an optional deadline and flag predicate. -/
  | join (w : ImmWord)
  /-- R82: Ends the selected threads, or retires a context or the front end after the pail commits. -/
  | exit (w : ArithWord)
  /-- R84: Fuses this warp with a partner warp, moving the active lanes and a register range into the lower-numbered warp. -/
  | regroup (w : ArithWord)
  /-- R85: Combines one predicate over the participating lanes into a ballot, count or three-valued all/any. -/
  | vote (w : ArithWord)
  /-- R90: Arrives at a barrier generation and waits for it to complete; ends the region. -/
  | bar (w : ArithWord)
  /-- R90: Arrives at a barrier generation and continues; ends the region. -/
  | bararr (w : ArithWord)
  /-- R110: Turns the executing warp into a VLIW context of K clusters, waiting for a free context and VLIW-side lanes. -/
  | collapse (w : BranchWord)
  /-- R111: Turns the executing VLIW context back into a warp of width 32, waiting for a warp slot. -/
  | expand (w : BranchWord)
  /-- R112: Pushes a loop-stack entry with the count from a register. -/
  | loop (w : ArithWord)
  /-- R112: Decrements the newest loop entry and branches back with a rotated base, or pops it. -/
  | endloop (w : ArithWord)
  /-- R321: Binds an event slot to a token and a handler, setting its pending bit at once if the condition already holds. -/
  | evbind (w : EvBindWord)
  /-- R322: Frees an event slot, discarding its pending bit. -/
  | evunbind (w : ArithWord)
  /-- R323: Dispatches the lowest pending, enabled and chosen event slot to its handler, or parks until one fires. -/
  | waitany (w : ArithWord)
  /-- R322: Sets, clears or loads bits of EVM. -/
  | evmask (w : ArithWord)
  /-- R322: Writes T to a predicate when any masked EVP bit is set. -/
  | evpend (w : ArithWord)
  /-- R322: Clears masked EVP bits. -/
  | evclr (w : ArithWord)
  /-- R325: Posts a 64-bit message to a mailbox of a core of the cell, as a release; ends the region. -/
  | send (w : ArithWord)
  /-- R325: Takes the oldest message of a mailbox of its core, as an acquire, or 0 tagged UND when empty. -/
  | mbread (w : ArithWord)
  /-- R217: Ends the region, commits the pail and makes itself the region entry. -/
  | region (w : ArithWord)
  /-- R326: Parks the unit until CYC reaches a register value, optionally checking a copy tag at the wake. -/
  | sleepuntil (w : ArithWord)
  /-- R92: Makes the split not ready until every other ready split of its quarter has issued once or 16 cycles pass. -/
  | yield (w : ArithWord)
  /-- R93: Reads the next decision-queue entry at the warp's read position, or waits while the front end is live. -/
  | popd (w : ArithWord)
  /-- R94: Front end pushes one 64-bit entry to the decision queue, stalling when it is full. -/
  | pushd (w : ArithWord)
  /-- R335: Asks the cell's dispenser for the next tile index. -/
  | nexttile (w : ArithWord)
  /-- R336: Sends a 64-byte record from eight registers to a stage input queue, waiting when it is full. -/
  | sqpush (w : ArithWord)
  /-- R95: Raises SOFT_TRAP with a code after committing the pail. -/
  | trap (w : ImmWord)
  /-- R123: Integer add, wrapping or saturating. -/
  | iadd (w : ArithWord)
  /-- R123: Integer subtract. -/
  | isub (w : ArithWord)
  /-- R123: Low W bits of the integer product. -/
  | imul (w : ArithWord)
  /-- R123: High W bits of the integer product. -/
  | imulh (w : ArithWord)
  /-- R123: Integer multiply-add, exact before wrapping or clamping. -/
  | imad (w : ArithWord)
  /-- R124: Integer quotient truncated toward zero; zero divisors raise INT_DIVZERO. -/
  | idiv (w : ArithWord)
  /-- R124: Integer remainder with the sign of the dividend. -/
  | irem (w : ArithWord)
  /-- R123: The lesser integer by T. -/
  | imin (w : ArithWord)
  /-- R123: The greater integer by T. -/
  | imax (w : ArithWord)
  /-- R123: Integer absolute value. -/
  | iabs (w : ArithWord)
  /-- R123: Integer negation. -/
  | ineg (w : ArithWord)
  /-- R125: Compares two integers and writes T or F to a predicate. -/
  | icmp (w : ArithWord)
  /-- R123: Counts one bits. -/
  | popc (w : ArithWord)
  /-- R123: Counts leading zero bits. -/
  | clz (w : ArithWord)
  /-- R123: Reverses the bits. -/
  | brev (w : ArithWord)
  /-- R123: Counts trailing zero bits. -/
  | ctz (w : ArithWord)
  /-- R126: Bitwise AND over 64 bits, tagged B64. -/
  | and (w : ArithWord)
  /-- R126: Bitwise OR over 64 bits. -/
  | or (w : ArithWord)
  /-- R126: Bitwise XOR over 64 bits. -/
  | xor (w : ArithWord)
  /-- R126: Bitwise NOT over 64 bits. -/
  | not (w : ArithWord)
  /-- R126: A AND NOT B over 64 bits. -/
  | andn (w : ArithWord)
  /-- R127: Shift left by a count. -/
  | shl (w : ArithWord)
  /-- R127: Logical shift right by a count. -/
  | shr (w : ArithWord)
  /-- R127: Arithmetic shift right by a count. -/
  | sar (w : ArithWord)
  /-- R127: Rotate left by a count modulo W. -/
  | rotl (w : ArithWord)
  /-- R128: Extracts a bit field, sign- or zero-extended by T. -/
  | bfx (w : ArithWord)
  /-- R128: Inserts a bit field from B into A. -/
  | bfi (w : ArithWord)
  /-- R129: Forms A + (B << s) modulo 2^64. -/
  | lea (w : ArithWord)
  /-- R131: Writes an immediate widened by T. -/
  | movi (w : ImmWord)
  /-- R131: Places an immediate in bits [63:32] above A's low word. -/
  | movhi (w : ImmWord)
  /-- R130: Integer add of an immediate. -/
  | iaddi (w : ImmWord)
  /-- R130: Integer multiply by an immediate. -/
  | imuli (w : ImmWord)
  /-- R130: Bitwise AND with an immediate. -/
  | andi (w : ImmWord)
  /-- R130: Bitwise OR with an immediate. -/
  | ori (w : ImmWord)
  /-- R130: Bitwise XOR with an immediate. -/
  | xori (w : ImmWord)
  /-- R130: Shift left by an immediate count. -/
  | shli (w : ImmWord)
  /-- R130: Logical shift right by an immediate count. -/
  | shri (w : ImmWord)
  /-- R130: Arithmetic shift right by an immediate count. -/
  | sari (w : ImmWord)
  /-- R130: Compares an integer with an immediate and writes a predicate. -/
  | icmpi (w : ImmWord)
  /-- R132: Copies 64 bits and the tag of a register. -/
  | mov (w : ArithWord)
  /-- R132: Copies 64 bits and sets the tag to T. -/
  | retag (w : ArithWord)
  /-- R88: Chooses A, B or C by a three-valued predicate. -/
  | sel (w : ArithWord)
  /-- R133: Reads a special register into a register. -/
  | readsr (w : ArithWord)
  /-- R134: Writes a special register from a register. -/
  | writesr (w : ArithWord)
  /-- R136: Copies a register from another participating lane by index, up, down or xor. -/
  | shfl (w : ArithWord)
  /-- R137: Copies one lane's register to every participating lane. -/
  | bcast (w : ArithWord)
  /-- R139: Forms inclusive or exclusive prefixes over the participating lanes in a fixed tree order. -/
  | scan (w : ArithWord)
  /-- R138: Combines a register over the participating lanes in a fixed tree order. -/
  | reduce (w : ArithWord)
  /-- R140: Packs the values of lanes with a true predicate toward the low lanes. -/
  | compact (w : ArithWord)
  /-- R86: Computes a predicate in three-valued logic, or sets a constant. -/
  | prset (w : ArithWord)
  /-- R87: Packs p0–p7 into an integer register. -/
  | prtoi (w : ArithWord)
  /-- R87: Writes masked predicates from an integer register. -/
  | itopr (w : ArithWord)
  /-- R141: Compares a register across participating lanes, giving a match mask or an all-equal predicate. -/
  | matchLanes (w : ArithWord)
  /-- R113: Combines each cluster's register with that of the cluster N places above. -/
  | xmov (w : ArithWord)
  /-- R113: Copies one cluster's register to every cluster. -/
  | xbcast (w : ArithWord)
  /-- R273: Floating-point or interval addition. -/
  | fadd (w : ArithWord)
  /-- R273: Floating-point or interval subtraction. -/
  | fsub (w : ArithWord)
  /-- R273: Floating-point or interval multiplication. -/
  | fmul (w : ArithWord)
  /-- R273: Fused multiply-add rounded once. -/
  | ffma (w : ArithWord)
  /-- R273: The lesser floating-point value. -/
  | fmin (w : ArithWord)
  /-- R273: The greater floating-point value. -/
  | fmax (w : ArithWord)
  /-- R273: Floating-point or interval division. -/
  | fdiv (w : ArithWord)
  /-- R273: Floating-point or interval square root. -/
  | fsqrt (w : ArithWord)
  /-- R276: Correctly rounded reciprocal of an F32. -/
  | frcp (w : ArithWord)
  /-- R276: Correctly rounded reciprocal square root. -/
  | frsq (w : ArithWord)
  /-- R276: Correctly rounded 2^a. -/
  | fexp2 (w : ArithWord)
  /-- R276: Correctly rounded log2 a. -/
  | flog2 (w : ArithWord)
  /-- R276: Correctly rounded sin(πa). -/
  | fsinpi (w : ArithWord)
  /-- R276: Correctly rounded cos(πa). -/
  | fcospi (w : ArithWord)
  /-- R277: Compares floats in two values or intervals in three values. -/
  | fcmp (w : ArithWord)
  /-- R278: Reports the class of a float or interval as a mask. -/
  | fclass (w : ArithWord)
  /-- R279: Rounds to an integral value in the source format. -/
  | frnd (w : ArithWord)
  /-- R280: Adds an exact short dot product of narrow elements to an F32, rounded once. -/
  | fdot (w : ArithWord)
  /-- R281: Converts one value between formats. -/
  | cvt (w : ArithWord)
  /-- R284: Builds an interval from two bounds rounded outward. -/
  | ivmake (w : ArithWord)
  /-- R284: Reads the lower bound of an interval. -/
  | ivlo (w : ArithWord)
  /-- R284: Reads the upper bound of an interval. -/
  | ivhi (w : ArithWord)
  /-- R285: Gives the midpoint of an interval. -/
  | ivmid (w : ArithWord)
  /-- R284: Gives the width of an interval rounded up. -/
  | ivwid (w : ArithWord)
  /-- R284: Gives the hull of two intervals. -/
  | ivhull (w : ArithWord)
  /-- R284: Gives the intersection of two intervals, or the empty interval. -/
  | ivisect (w : ArithWord)
  /-- R247: Bisects intervals of lanes with an undecided predicate, handing upper halves to open free lanes or the den. -/
  | ivsplit (w : ArithWord)
  /-- R247: Hands den entries to retiring lanes and open free lanes. -/
  | ivpop (w : ArithWord)
  /-- R284: Interval square rounded outward. -/
  | ivsqr (w : ArithWord)
  /-- R284: Interval absolute value. -/
  | ivabs (w : ArithWord)
  /-- R286: Decides exactly a containment or disjointness relation of intervals. -/
  | ivcont (w : ArithWord)
  /-- R283: Quantises the F32 values of 32 lanes into the elements and scale of an MX block. -/
  | qnt (w : ArithWord)
  /-- R174: Loads a register from global memory. -/
  | ld (w : MemWord)
  /-- R174: Stores a register to global memory through the pail. -/
  | st (w : MemWord)
  /-- R177: Loads a register pair from 16 bytes of global memory. -/
  | ldp (w : MemWord)
  /-- R177: Stores a register pair to 16 bytes of global memory. -/
  | stp (w : MemWord)
  /-- R182: Applies an atomic operation at the home slice and returns the old value; ends the region. -/
  | atom (w : AtomWord)
  /-- R184: Compares and swaps a word at the home slice. -/
  | cas (w : AtomWord)
  /-- R358: Adds a block of 32 contributions into an MX record indivisibly at its home slice. -/
  | amx (w : AtomWord)
  /-- R179: Requests a line into L1 or its home slice. -/
  | pref (w : MemWord)
  /-- R180: Lowers a line's replacement priority in L1 and at its home slice. -/
  | demote (w : MemWord)
  /-- R186: Orders the unit's own accesses at a scope as acquire, release or both; ends the region. -/
  | fence (w : MemWord)
  /-- R187: Acquires a guard exclusively or shared, waiting at its home slice or in a pinned line. -/
  | acq (w : MemWord)
  /-- R188: Releases a guard after its covered writes reach the scope's commit point. -/
  | rel (w : MemWord)
  /-- R189: Adds an entry to the block's binding table. -/
  | bind (w : ArithWord)
  /-- R189: Removes an entry, or every entry of a guard, from the binding table. -/
  | unbind (w : ArithWord)
  /-- R190: Changes a signal object at its home slice as a release. -/
  | signal (w : AtomWord)
  /-- R191: Waits until a signal relation holds at the home slice, then acquires. -/
  | swait (w : AtomWord)
  /-- R193: Takes a heap block for each selected lane from the cell's free lists. -/
  | alloc (w : ArithWord)
  /-- R194: Returns heap blocks to their owning cells. -/
  | free (w : ArithWord)
  /-- R208: Gives a free tile handle its shape and storage. -/
  | talloc (w : ArithWord)
  /-- R209: Frees a tile handle after its commands and accesses complete. -/
  | tfree (w : ArithWord)
  /-- R210: Reads the shape or place word of a tile-table entry. -/
  | tinfo (w : ArithWord)
  /-- R212: Loads a tile element. -/
  | ldt (w : ArithWord)
  /-- R212: Stores a tile element through the pail. -/
  | stt (w : ArithWord)
  /-- R213: Applies an atomic operation to a tile element and returns the old value. -/
  | atomt (w : ArithWord)
  /-- R214: Writes one value into every element of a handle. -/
  | tfill (w : ArithWord)
  /-- R114: Pushes a load into the context's load queue. -/
  | pusha (w : AddrWord)
  /-- R114: Pushes a store address into the store-address queue. -/
  | pushs (w : AddrWord)
  /-- R115: Writes a snapshot of the context's queues. -/
  | qstat (w : ArithWord)
  /-- R329: Copy-engine command moving a whole handle to or from global memory, returning a promise. -/
  | copy (w : ArithWord)
  /-- R329: Copy-engine command gathering indexed rows into a handle. -/
  | gather (w : ArithWord)
  /-- R329: Copy-engine command scattering handle rows to indexed places. -/
  | scatter (w : ArithWord)
  /-- R331: Sends a contribution to a collective combination. -/
  | coll (w : ArithWord)
  /-- R332: Writes local bytes to a peer device and decrements a remote signal. -/
  | peerwr (w : ArithWord)
  /-- R332: Reads bytes from a peer device into local memory. -/
  | peerrd (w : ArithWord)
  /-- R332: Changes a signal on a peer device after a device-scope release there. -/
  | peersig (w : ArithWord)
  /-- R116: Takes the oldest entry of an engine result queue, or stalls or reports empty. -/
  | rqpop (w : ArithWord)
  /-- R334: Reads the state of an engine command by sequence number or copy tag. -/
  | cmdstat (w : ArithWord)
  /-- R356: Computes C (+)= A × B on whole handles through the sequencer. -/
  | mma (w : ArithWord)
  /-- R346: Enters an A vector into the array whose column sums will replace an accumulator row. -/
  | mbeatPush (w : ArithWord)
  /-- R346: Enters an A vector whose column sums will be added into an accumulator row. -/
  | mbeatAcc (w : ArithWord)
  /-- R346: Advances the array by a vector of zeros that writes no row. -/
  | mbeatShift (w : ArithWord)
  /-- R346: Passes one accumulator row through the drain converter into a tile row. -/
  | mbeatDrain (w : ArithWord)
  /-- R348: Writes the row-edge scale latches, effective from the fourth issue cycle after. -/
  | mscale (w : ArithWord)
  /-- R345: Fills one weight set and its column-edge latches from a B-store handle. -/
  | mloadb (w : ArithWord)
  /-- R343: Sets the operand map from which beats take A. -/
  | mamap (w : ArithWord)
  /-- R355: Engine command draining every accumulator row into a tile handle. -/
  | mdrain (w : ArithWord)
  /-- R355: Engine command applying a scaled Hadamard transform to accumulator rows in place. -/
  | mhad (w : ArithWord)
  /-- R355: Engine command zeroing a B-store or accumulator handle. -/
  | mzero (w : ArithWord)
  /-- R351: Switches intersection skipping on with two bitmap handles, or off. -/
  | mbmap (w : ArithWord)
  /-- R352: Closes a context's reduction once every entered vector has landed. -/
  | mretire (w : ArithWord)
  /-- R386: Raises BREAKPOINT with a code when breakpoints are enabled. -/
  | bkpt (w : ArithWord)
  /-- R386: Sets a counter's event and zeroes and stops it. -/
  | pmcfg (w : ArithWord)
  /-- R386: Reads a counter. -/
  | pmread (w : ArithWord)
  /-- R386: Starts, stops or zeroes the counters of a mask. -/
  | pmctl (w : ArithWord)
  /-- R386: Writes a marker packet to the trace ring. -/
  | trmark (w : ArithWord)
  /-- R386: Reads, or ticks and reads, the core's Lamport clock. -/
  | lclk (w : ArithWord)
  /-- R386: Sets or frees a watchpoint. -/
  | watch (w : ArithWord)
  /-- R117: Sends a service request from a context to a service port. -/
  | syssend (w : ArithWord)
  /-- R117: Waits for and takes the reply to a service request. -/
  | sysrecv (w : ArithWord)
  /-- R222: Ends a handler, continuing the unit at RESUME with RK deciding rerun or continue. -/
  | tret (w : ArithWord)
  /-- R234: Invalidates the core's or every core's instruction cache. -/
  | icinv (w : ArithWord)
  /-- R241: Reads a system register or the handled unit's register, tag or predicates. -/
  | sread (w : ArithWord)
  /-- R241: Writes a system register or the handled unit's register, tag or predicates. -/
  | swrite (w : ArithWord)
  /-- R241: Drops all TLB entries, or those of one page, across the instance. -/
  | tlbinv (w : ArithWord)
  /-- R241: Writes the handled unit's whole state to its record and images. -/
  | ctxsave (w : ArithWord)
  /-- R241: Reloads the handled unit's whole state. -/
  | ctxload (w : ArithWord)
  /-- R242: Stops, saves and re-places the block with a new lane-group division. -/
  | lgdiv (w : ArithWord)
  /-- R244: Pops the oldest error-log record of the die. -/
  | errread (w : ArithWord)
  /-- R243: Delivers or refuses the reply to a service request. -/
  | portreply (w : ArithWord)
  /-- R241: Raises a pre-emption request for the handled unit's block. -/
  | preempt (w : ArithWord)
  /-- R241: Raises a request that saves the block halted with cause DEBUG_HALT. -/
  | halt (w : ArithWord)
  /-- R294: Write to a device register without behaviour of its own, ignored where the register is locked. -/
  | registerWrite (off : Nat) (val : Word)
  /-- R299: Device reads a slot's SEQ with a system-scope acquire once the tail rises above the consumed index. -/
  | seqRead (ins q : Nat)
  /-- R299: Rereads a mismatched SEQ every 512 cycles while the tail lies above it. -/
  | seqReread (ins q : Nat)
  /-- R299: A queue head's wait signal reaches its value, making the head eligible. -/
  | headWaitSatisfied (ins q : Nat)
  /-- R300: Grid dispatcher chooses a queue head, validates it and consumes or refuses it. -/
  | launchStart (ins : Nat)
  /-- R301: Dispatcher places one pending gang on the cell with the most free cores. -/
  | gangPlace (ins : Nat)
  /-- R301: A gang passed over 64 times blocks all later gangs until it is placed. -/
  | gangPassedOver (ins : Nat)
  /-- R303: Dispatcher pre-empts a gang waiting in SQPUSH to make room for the stage gang it blocks. -/
  | stageDeadlockBreak (ins : Nat)
  /-- R207: A core's tile memory, B store and accumulators finish clearing after 6,144 cycles. -/
  | coreClearComplete (core : Nat)
  /-- R304: Range unit hands a guided chunk of tile indices to a dispenser. -/
  | rangeChunkAnswer (ins launch cell : Nat)
  /-- R305: A dispenser's answer lands in the requesting register 48 cycles after issue. -/
  | nexttileAnswer (core unit : Nat)
  /-- R306: A split ready for 1,024 cycles without issuing rises to priority class 2. -/
  | starvationPromote (core unit split : Nat)
  /-- R92: A yielding split becomes ready again after 16 cycles. -/
  | yieldTimeout (core unit split : Nat)
  /-- R71: Deferred split starts once no other split holding its lanes is ready, ending the region. -/
  | deferredSplitStart (core unit entry : Nat)
  /-- R79: At a join's deadline the waiting lanes continue alone with the flag set and the entry detached. -/
  | joinDeadline (core unit entry : Nat)
  /-- R102: Memory places a load's data, or its fault, into its load-queue entry in push order. -/
  | loadAnswer (core unit entry : Nat)
  /-- R173: A missing line arrives from L2 or HBM and completes the waiting load. -/
  | l1Fill (core line : Nat)
  /-- R146: A committed store's acknowledgement returns from its home slice. -/
  | storeAck (core n : Nat)
  /-- R183: A home slice performs an atomic or signal change on a line and returns the old value. -/
  | sliceAtomic (core unit split : Nat)
  /-- R359: A home slice decodes, sums, rescales and rewrites an MX record. -/
  | sliceAmx (core unit split : Nat)
  /-- R155: A waiting acquire finds its guard free or its count reached, and invalidates bound lines. -/
  | guardAcquired (core unit split : Nat)
  /-- R157: Once covered writes are acknowledged, REL increments COUNT and clears HELD at the home slice. -/
  | guardRelease (core unit split : Nat)
  /-- R161: A pin ends 65,536 cycles after its first refusal and records PIN_BREAK. -/
  | pinBreak (core pin : Nat)
  /-- R194: Exchange returns a freed block to its owning cell's free list. -/
  | heapExchangeReturn (ins launch n : Nat)
  /-- R234: ICINV.dev completes when every core has acknowledged. -/
  | icinvDevComplete (core unit split : Nat)
  /-- R241: TLBINV completes when every TLB and walker has acknowledged. -/
  | tlbinvComplete (core unit split : Nat)
  /-- R325: A sent message enters its mailbox and fires bound .mbox tokens. -/
  | mailboxDeliver (core n : Nat)
  /-- R318: CYC reaches a timer binding's value and its slot's EVP bit is set. -/
  | timerTokenFire (core unit slot : Nat)
  /-- R330: A copy command's last write lands; it releases, changes its signal, fires its token and places its result. -/
  | copyComplete (core : Nat)
  /-- R331: A contribution reaches the collective engine and is combined; the last one writes the result to all. -/
  | collArrival (core : Nat)
  /-- R342: The head of the matrix command queue starts once no reduction is open. -/
  | matrixCommandStart (core : Nat)
  /-- R345: A weight-set load finishes after 128 cycles. -/
  | mloadbComplete (core : Nat)
  /-- R354: A drained row's tile writes commit 8 cycles after the beat. -/
  | drainCommit (core : Nat)
  /-- R218: A faulting unit stops, its trap frame is written and the handler starts in privileged single-lane mode. -/
  | trapEntry (core : Nat)
  /-- R221: A handler reaching 2^20 cycles stops and saves its block halted. -/
  | handlerWatchdog (core : Nat)
  /-- R230: Once every unit and the array have stopped, the block is saved incrementally to its slot. -/
  | blockSave (core : Nat)
  /-- R355: An MMA, MDRAIN, MHAD or MZERO finishes; it releases, decrements its signal, places its sequence number in the matrix result queue and lets the next queued command start. -/
  | matrixCommandComplete (core : Nat)
  /-- R369: Power-on start: boot, clock bring-up, stack training, scrub, B-store and core tests, reaching full service. It names the
  stacks that are trained and what the tests find. -/
  | coldStart (full : Bool) (trained : BitVec 12) (tests : StartTests)
  /-- R369: Moves from reduced to full service once no launch runs, re-interleaving memory. -/
  | fullService (trained : BitVec 12) (tests : StartTests)
  /-- R375: Host link resets while power is held; firmware stops queues, pre-empts blocks and marks host ranges gone. -/
  | hostLinkReset
  /-- R375: Clears RST when every block is saved and reports the restart complete. -/
  | hostRestartComplete
  /-- R366: Management command returning the device hash. -/
  | identify
  /-- R371: Management command that checks a signed patch block and replaces parts of the firmware. -/
  | patch
  /-- R372: Management command that splits or joins instances and performs a warm start with scrub. -/
  | partition
  /-- R370: Management command resetting the device under power, optionally scrubbing memory. -/
  | warmstart
  /-- R373: Management command giving the device its place and the system rectangle. -/
  | setrect
  /-- R375: Management command restoring or discarding the blocks saved by a host warm restart. -/
  | ctxresume
  /-- R368: Management command writing a system register or counter programme on every core of an instance. -/
  | setsys
  /-- R368: Management command halting a named block with cause DEBUG_HALT. -/
  | blockctlHalt
  /-- R368: Management command restoring a halted block and its gang, optionally at a named place. -/
  | blockctlResume
  /-- R368: Management command discarding a block, its gang and its launch. -/
  | blockctlDiscard
  /-- R388: Management command starting another pass of a completed replay-capable launch after restoring memory. -/
  | replay
  /-- R366: A management command ends: GO clears, the result code is written and MSI-X vector 0 is raised. -/
  | commandEnd
  /-- R365: Driver advances the event-ring tail, freeing room for records. -/
  | evtailWrite (val : Word)
  /-- R295: Setting EN resets the queue indices and checks the descriptor. -/
  | queueEnable (ins q : Nat) (val : Word)
  /-- R299: Raises the queue tail when the written value is larger. -/
  | qdoorbell (ins q : Nat) (val : Word)
  /-- R296: Writing STOP = 1 stops the queue with code 0x00. -/
  | queueStop (ins q : Nat)
  /-- R296: Writing STOP = 0 clears the stop and rereads the slot or repeats the QCVA copy. -/
  | queueClearStop (ins q : Nat)
  /-- R296: Writing SKIP with STOP = 0 moves a stopped queue past its slot. -/
  | queueSkip (ins q : Nat)
  /-- R150: After 1,024 instructions since the region entry, the next instruction becomes a region entry. -/
  | regionCountClose (core unit split : Nat)
  /-- R395: A home slice fills a missing line from HBM, replacing and writing back a victim. -/
  | l2MissFill (line : Nat) (victim : Option Nat)
  /-- R191: A signal change satisfies a waiting SWAIT, which acquires and resumes. -/
  | swaitResume (core unit split : Nat)
  /-- R159: An access refused by a pinned line is repeated every 256 cycles. -/
  | pinRetry (core unit split : Nat)
  /-- R204: A SIMT or front-end tile request waiting 16 cycles is promoted to top bank priority. -/
  | bankPromote (core unit : Nat)
  /-- R309: A request waiting 16 cycles for an L1 port gains first rank. -/
  | l1PortPromote (core unit : Nat)
  /-- R310: A request waiting 128 cycles at an L2 slice goes first. -/
  | sliceAgePromote (core unit : Nat)
  /-- R311: An HBM request older than 256 cycles goes first. -/
  | hbmAgePromote (core unit : Nat)
  /-- R311: Refresh takes a pseudo-channel in the cycles the stacks require. -/
  | hbmRefresh (channel : Nat)
  /-- R376: Background patrol reads each HBM line once every 24 hours. At or above the device's memory it names a core, in whose
  state without poison an uncorrectable error is found (R223). -/
  | patrolRead (line : Nat) (badWords : List Nat) (corrected : Bool)
  /-- R240: A page walk finishes, filling the TLBs or giving a translation fault. -/
  | pageWalkComplete (core : Nat) (va : Word)
  /-- R233: An instruction-cache miss is filled from the line's home slice. -/
  | ifetchFill (core line : Nat) (poisoned : Bool)
  /-- R323: A parked WAITANY resumes and dispatches to the handler of the fired slot. -/
  | waitanyWake (core unit split : Nat)
  /-- R326: A sleeping unit wakes at its cycle, raising COPY_LATE when the named copy is incomplete. -/
  | sleepWake (core unit split : Nat)
  /-- R169: The receiving peer port writes a payload, releases at device scope and changes the named signal. -/
  | peerReceive (die : Nat) (va : Word) (payload : List Byte) (signal : Option Word) (op : BitVec 2) (amount : Word)
  /-- R333: A peer command completes when the peer acknowledges. -/
  | peerAck (core : Nat) (seq : Nat) (status : PeerStatus) (payload : List Byte)
  /-- R373: A flit failing its CRC is replayed by the link. -/
  | linkFlitReplay (port : Nat)
  /-- R373: A connection with no route or no progress for 1 ms raises LINK_DOWN. -/
  | linkDown (core : Nat) (seq : Nat)
  /-- R348: A pending MSCALE value takes effect at the context's fourth issue cycle after it. -/
  | mscaleEffect (core unit : Nat)
  /-- R221: A handler holding a request for 65,536 cycles is saved with its bank and PC. -/
  | forcedSave (core : Nat)
  /-- R227: Firmware, the driver or Malter raise a pre-emption request for a block, which is then saved with cause PREEMPT at its stopping points. -/
  | preemptionRequest (core : Nat)
  /-- R2: Firmware lowers or restores the core clock to hold module power at or below 3,300 W over any 1 ms window. -/
  | powerClockReduction (slow : Bool)
  /-- R332: A PEERRD request from another device arrives, and this device reads LEN bytes at its home slices and sends them back. -/
  | peerReadRequest (die : Nat) (va : Word) (len : Nat)
  /-- R373: An intermediate device forwards the flits of a peer command toward its destination by the x-then-y routing rule, with no unit taking part. -/
  | peerFlitForward (dx dy : Int) (flit : List Byte)
  /-- R373: A peer port's link goes up or down, changing which ports routing may use. -/
  | peerLinkChange (port : Nat) (up : Bool)
  /-- R375: A far end receives the reason HOST_RESTART closing a connection, so later commands on it raise LINK_DOWN. -/
  | peerConnectionClose (dx dy : Int)
  /-- R364: A host load or store over CXL.mem reaches a device line's home slice and takes its place in the coherence order. -/
  | hostMemoryRequest (pa : Nat) (store : Option (List Byte))
  deriving DecidableEq, Repr

/-- Whether a constructor is a device event, which has no instruction word. -/
def Instr.isEvent : Instr → Bool
  | .nop _ => false
  | .bra _ => false
  | .jmp _ => false
  | .call _ => false
  | .ret _ => false
  | .jmpr _ => false
  | .join _ => false
  | .exit _ => false
  | .regroup _ => false
  | .vote _ => false
  | .bar _ => false
  | .bararr _ => false
  | .collapse _ => false
  | .expand _ => false
  | .loop _ => false
  | .endloop _ => false
  | .evbind _ => false
  | .evunbind _ => false
  | .waitany _ => false
  | .evmask _ => false
  | .evpend _ => false
  | .evclr _ => false
  | .send _ => false
  | .mbread _ => false
  | .region _ => false
  | .sleepuntil _ => false
  | .yield _ => false
  | .popd _ => false
  | .pushd _ => false
  | .nexttile _ => false
  | .sqpush _ => false
  | .trap _ => false
  | .iadd _ => false
  | .isub _ => false
  | .imul _ => false
  | .imulh _ => false
  | .imad _ => false
  | .idiv _ => false
  | .irem _ => false
  | .imin _ => false
  | .imax _ => false
  | .iabs _ => false
  | .ineg _ => false
  | .icmp _ => false
  | .popc _ => false
  | .clz _ => false
  | .brev _ => false
  | .ctz _ => false
  | .and _ => false
  | .or _ => false
  | .xor _ => false
  | .not _ => false
  | .andn _ => false
  | .shl _ => false
  | .shr _ => false
  | .sar _ => false
  | .rotl _ => false
  | .bfx _ => false
  | .bfi _ => false
  | .lea _ => false
  | .movi _ => false
  | .movhi _ => false
  | .iaddi _ => false
  | .imuli _ => false
  | .andi _ => false
  | .ori _ => false
  | .xori _ => false
  | .shli _ => false
  | .shri _ => false
  | .sari _ => false
  | .icmpi _ => false
  | .mov _ => false
  | .retag _ => false
  | .sel _ => false
  | .readsr _ => false
  | .writesr _ => false
  | .shfl _ => false
  | .bcast _ => false
  | .scan _ => false
  | .reduce _ => false
  | .compact _ => false
  | .prset _ => false
  | .prtoi _ => false
  | .itopr _ => false
  | .matchLanes _ => false
  | .xmov _ => false
  | .xbcast _ => false
  | .fadd _ => false
  | .fsub _ => false
  | .fmul _ => false
  | .ffma _ => false
  | .fmin _ => false
  | .fmax _ => false
  | .fdiv _ => false
  | .fsqrt _ => false
  | .frcp _ => false
  | .frsq _ => false
  | .fexp2 _ => false
  | .flog2 _ => false
  | .fsinpi _ => false
  | .fcospi _ => false
  | .fcmp _ => false
  | .fclass _ => false
  | .frnd _ => false
  | .fdot _ => false
  | .cvt _ => false
  | .ivmake _ => false
  | .ivlo _ => false
  | .ivhi _ => false
  | .ivmid _ => false
  | .ivwid _ => false
  | .ivhull _ => false
  | .ivisect _ => false
  | .ivsplit _ => false
  | .ivpop _ => false
  | .ivsqr _ => false
  | .ivabs _ => false
  | .ivcont _ => false
  | .qnt _ => false
  | .ld _ => false
  | .st _ => false
  | .ldp _ => false
  | .stp _ => false
  | .atom _ => false
  | .cas _ => false
  | .amx _ => false
  | .pref _ => false
  | .demote _ => false
  | .fence _ => false
  | .acq _ => false
  | .rel _ => false
  | .bind _ => false
  | .unbind _ => false
  | .signal _ => false
  | .swait _ => false
  | .alloc _ => false
  | .free _ => false
  | .talloc _ => false
  | .tfree _ => false
  | .tinfo _ => false
  | .ldt _ => false
  | .stt _ => false
  | .atomt _ => false
  | .tfill _ => false
  | .pusha _ => false
  | .pushs _ => false
  | .qstat _ => false
  | .copy _ => false
  | .gather _ => false
  | .scatter _ => false
  | .coll _ => false
  | .peerwr _ => false
  | .peerrd _ => false
  | .peersig _ => false
  | .rqpop _ => false
  | .cmdstat _ => false
  | .mma _ => false
  | .mbeatPush _ => false
  | .mbeatAcc _ => false
  | .mbeatShift _ => false
  | .mbeatDrain _ => false
  | .mscale _ => false
  | .mloadb _ => false
  | .mamap _ => false
  | .mdrain _ => false
  | .mhad _ => false
  | .mzero _ => false
  | .mbmap _ => false
  | .mretire _ => false
  | .bkpt _ => false
  | .pmcfg _ => false
  | .pmread _ => false
  | .pmctl _ => false
  | .trmark _ => false
  | .lclk _ => false
  | .watch _ => false
  | .syssend _ => false
  | .sysrecv _ => false
  | .tret _ => false
  | .icinv _ => false
  | .sread _ => false
  | .swrite _ => false
  | .tlbinv _ => false
  | .ctxsave _ => false
  | .ctxload _ => false
  | .lgdiv _ => false
  | .errread _ => false
  | .portreply _ => false
  | .preempt _ => false
  | .halt _ => false
  | .coldStart _ _ _ => true
  | .fullService _ _ => true
  | .hostLinkReset => true
  | .hostRestartComplete => true
  | .identify => true
  | .patch => true
  | .partition => true
  | .warmstart => true
  | .setrect => true
  | .ctxresume => true
  | .setsys => true
  | .blockctlHalt => true
  | .blockctlResume => true
  | .blockctlDiscard => true
  | .replay => true
  | .commandEnd => true
  | .evtailWrite _ => true
  | .registerWrite _ _ => true
  | .queueEnable _ _ _ => true
  | .qdoorbell _ _ _ => true
  | .queueStop _ _ => true
  | .queueClearStop _ _ => true
  | .queueSkip _ _ => true
  | .seqRead _ _ => true
  | .seqReread _ _ => true
  | .headWaitSatisfied _ _ => true
  | .launchStart _ => true
  | .gangPlace _ => true
  | .gangPassedOver _ => true
  | .stageDeadlockBreak _ => true
  | .coreClearComplete _ => true
  | .rangeChunkAnswer _ _ _ => true
  | .nexttileAnswer _ _ => true
  | .starvationPromote _ _ _ => true
  | .yieldTimeout _ _ _ => true
  | .deferredSplitStart _ _ _ => true
  | .joinDeadline _ _ _ => true
  | .regionCountClose _ _ _ => true
  | .loadAnswer _ _ _ => true
  | .l1Fill _ _ => true
  | .l2MissFill _ _ => true
  | .storeAck _ _ => true
  | .sliceAtomic _ _ _ => true
  | .sliceAmx _ _ _ => true
  | .guardAcquired _ _ _ => true
  | .guardRelease _ _ _ => true
  | .swaitResume _ _ _ => true
  | .pinRetry _ _ _ => true
  | .pinBreak _ _ => true
  | .heapExchangeReturn _ _ _ => true
  | .bankPromote _ _ => true
  | .l1PortPromote _ _ => true
  | .sliceAgePromote _ _ => true
  | .hbmAgePromote _ _ => true
  | .hbmRefresh _ => true
  | .patrolRead _ _ _ => true
  | .pageWalkComplete _ _ => true
  | .ifetchFill _ _ _ => true
  | .icinvDevComplete _ _ _ => true
  | .tlbinvComplete _ _ _ => true
  | .mailboxDeliver _ _ => true
  | .timerTokenFire _ _ _ => true
  | .waitanyWake _ _ _ => true
  | .sleepWake _ _ _ => true
  | .copyComplete _ => true
  | .collArrival _ => true
  | .peerReceive _ _ _ _ _ _ => true
  | .peerAck _ _ _ _ => true
  | .linkFlitReplay _ => true
  | .linkDown _ _ => true
  | .matrixCommandStart _ => true
  | .mloadbComplete _ => true
  | .mscaleEffect _ _ => true
  | .drainCommit _ => true
  | .trapEntry _ => true
  | .forcedSave _ => true
  | .handlerWatchdog _ => true
  | .blockSave _ => true
  | .preemptionRequest _ => true
  | .powerClockReduction _ => true
  | .matrixCommandComplete _ => true
  | .peerReadRequest _ _ _ => true
  | .peerFlitForward _ _ _ => true
  | .peerLinkChange _ _ => true
  | .peerConnectionClose _ _ => true
  | .hostMemoryRequest _ _ => true

end Sys2Proof
end

