-- ==== Sys2Proof/Machine/Check.lean ====
section
/-! DEFINITION. The cause codes (R223) and the decoder's checks 5 to 10 of R43 on a decoded instruction:
undefined SUB, kind or condition; reserved bits; registers; T; scope; privilege (R42, R393).
`Instr.check` answers the first cause that fails. -/

namespace Sys2Proof

/-- The 64 cause codes (R223), in ascending code. -/
inductive Cause where
  | none | illegalOp | reservedBits | badRegister | tagMismatch | privileged | wrongMode | badGroup
  | badScope | misaligned | mxAlign | mxFormat | pageAbsent | pageProtect | walkError | hostGone
  | poisonData | poisonCode | emptyInterval | badInterval | splitFull | nestOver | nestUnder | loopOver
  | regionExposed | queueOrder | copyLate | engineFault | tileHandle | tileBounds | tileSpace
  | decisionEmpty | intDivzero | fpInvalid | fpDivzero | fpOverflow | fpUnderflow | fpInexact
  | breakpoint | singleStep | watchpoint | softTrap | serviceRefused | preempt | handlerWatchdog
  | barrierMisuse | regroupMisuse | collapseMisuse | heapEmpty | heapBadFree | callDepth | pinBreak
  | eventOverrun | linkDown | peerFault | signalRange | replayMismatch | stageQueue | nexttileMisuse
  | deferredError | hostRestart | forcedSave | debugHalt | machineCheck
  deriving DecidableEq, Repr

/-- The cause code of R223: the position in the table, 0x00 to 0x3F. -/
def Cause.code (c : Cause) : Nat := c.ctorIdx

/-- What the decoder knows of the executing unit: its mode, the registers per thread of a warp (R19) and
the warp's width (R85, R135). -/
structure DecEnv where
  mode : Mode
  lim : Nat := 64
  width : Nat := 32
  deriving DecidableEq, Repr

/-- How an entry uses a register field (R19): not at all, as one register, as a run of n registers, as a
predicate in the form of R21, or as a number with the bits of a mask. -/
inductive Use where
  | zero | reg | span (n : Nat) | pred | bits (m : BitVec 7)
  deriving DecidableEq, Repr

/-- How an entry uses SUB: not at all, or it defines the value or it does not (R42). (DEDUCED, log 23: unsafe.) -/
inductive SubUse where
  | zero | ok (b : Bool)
  deriving DecidableEq, Repr

/-- How an entry uses T: not at all (reserved), or it accepts the value or it does not. -/
inductive TyUse where
  | zero | ok (b : Bool)
  deriving DecidableEq, Repr

/-- What an entry makes of one word: the checks of R43 steps 5 to 10, already applied to its fields. -/
structure Shape where
  d : Use := .zero
  a : Use := .zero
  b : Use := .zero
  c : Use := .zero
  sub : SubUse := .zero
  ty : TyUse := .zero
  /-- a further condition of step 5 (R393) -/
  legal : Bool := true
  /-- a further condition of step 6 -/
  clean : Bool := true
  mod : BitVec 4 := 0
  rm : Bool := false
  x : BitVec 8 := 0
  scope : Bool := true
  priv : Bool := false
  deriving DecidableEq, Repr

/-- The zero columns of a register field (R19, R21). -/
def Use.clean (u : Use) (r : BitVec 7) : Bool :=
  match u with
  | .zero => r == 0
  | .reg | .span _ => true
  | .pred => r.toNat < 8
  | .bits m => r &&& ~~~m == 0

/-- The register check of R19 for a field: below the allocation in a warp, bit 6 zero in the front end
and in privileged mode, and in VLIW code only SQPUSH's run is limited (R336). -/
def Use.inRange (u : Use) (e : DecEnv) (r : BitVec 7) : Bool :=
  let top : Nat → Bool := fun n =>
    match e.mode with
    | .warp => r.toNat + n ≤ e.lim
    | .front | .priv => r.toNat + n ≤ 64
    | .vliw => if n = 8 then r.toNat + n ≤ 62 else true
  match u with
  | .reg => top 1
  | .span n => top n
  | .zero | .pred | .bits _ => true

/-- The checks of R43, steps 5 to 10, in their order, over the four register fields and the rest. -/
def Shape.check (s : Shape) (e : DecEnv) (d a b c : BitVec 7) (sub : BitVec 5) (t : Ty) (rm : BitVec 2)
    (mod : BitVec 4) (x : BitVec 8) : Option Cause :=
  if !(match s.sub with | .zero => true | .ok k => k) || !s.legal then some .illegalOp
  else if !(s.d.clean d && s.a.clean a && s.b.clean b && s.c.clean c && s.clean
      && (match s.sub with | .zero => sub == 0 | .ok _ => true)
      && (match s.ty with | .zero => t == .b64 | .ok _ => true)
      && (s.rm || rm == 0) && mod &&& ~~~s.mod == 0 && x &&& ~~~s.x == 0) then some .reservedBits
  else if !(s.d.inRange e d && s.a.inRange e a && s.b.inRange e b && s.c.inRange e c) then some .badRegister
  else if !(match s.ty with | .zero => true | .ok k => k) then some .tagMismatch
  else if !s.scope then some .badScope
  else if s.priv && e.mode != .priv then some .privileged
  else none

/-- I32, N32, I64 or N64 (R120). -/
def Ty.isInt : Ty → Bool
  | .i32 | .n32 | .i64 | .n64 => true
  | _ => false

/-- The T of the logic group (R126) and of READSR (R133): B64 or an integer type. -/
def Ty.isBits (t : Ty) : Bool := t == .b64 || t.isInt

/-- Width W of an integer T (R121); other types count as 64. -/
def Ty.width : Ty → Nat
  | .i32 | .n32 => 32
  | _ => 64

/-- F32 or F64. -/
def Ty.isScalarFloat (t : Ty) : Bool := t == .f32 || t == .f64

/-- The T of FADD (R272). -/
def Ty.isArith (t : Ty) : Bool := t.isScalarFloat || t == .f16x4 || t == .bf16x4 || t == .iv32

/-- The six formats of the matrix array (R343). -/
def Ty.isMatrix (t : Ty) : Bool :=
  t == .f16x4 || t == .bf16x4 || t == .f8x8 || t == .e5x8 || t == .f4x16 || t == .lg6x8

/-- The output formats of the drain converter (R354). -/
def Ty.isDrain (t : Ty) : Bool := t == .f32 || t.isMatrix

/-- 8-byte memory types (R174). -/
def Ty.isEight : Ty → Bool
  | .i32 | .n32 | .f32 | .byte | .half => false
  | _ => true

/-- The T of the additive lane operations (R113, R138). -/
def Ty.isSum (t : Ty) : Bool := t.isInt || t.isScalarFloat

/-- The T that an operation of ATOM accepts (R182). -/
def atomTyOk (op : Nat) (t : Ty) : Bool :=
  if op = 0 then t.isSum || t == .f16x4 || t == .bf16x4
  else if op ≤ 2 then t.isSum
  else t.isBits

/-- Elements held in one register of a packed type (R250); 1 for the others. -/
def Ty.elems : Ty → Nat
  | .f16x4 | .bf16x4 => 4
  | .f8x8 | .e5x8 | .lg6x8 => 8
  | .f4x16 => 16
  | _ => 1

/-- T codes 0x0 to 0xD. -/
def Ty.isTag (t : Ty) : Bool := t != .byte && t != .half

/-- The code of a type (R35). -/
def Ty.code (t : Ty) : Nat := t.ctorIdx

/-- The type of a 4-bit code (R35). -/
def Ty.ofCode (n : Nat) : Ty :=
  match n with
  | 0 => .b64 | 1 => .i32 | 2 => .n32 | 3 => .i64 | 4 => .n64 | 5 => .f32 | 6 => .f64 | 7 => .f16x4
  | 8 => .bf16x4 | 9 => .iv32 | 10 => .f8x8 | 11 => .e5x8 | 12 => .f4x16 | 13 => .lg6x8 | 14 => .byte
  | _ => .half

/-- Scope codes 0b000 to 0b101 (R36). -/
def scopeOk (sc : Nat) : Bool := sc ≤ 5

/-- Scope of the once-per-unit instructions: relaxed is refused too (R185). -/
def scopeTight (sc : Nat) : Bool := 1 ≤ sc && sc ≤ 5

/-- Where an 8-bit mask stands: X in a word; X6 and C[38:37] in a syllable (R322). -/
def ArithWord.mask8Use (w : ArithWord) : Use :=
  match w.site with
  | .word => .zero
  | .syl _ _ => .bits 3

/-- Engine flags of R327 in SUB: scope in [2:0], acquire [3], release [4]. -/
def flagsClean (sub : BitVec 5) : Bool := sub.getLsbD 3 || sub.getLsbD 4 || (sub.toNat % 8 == 0)

/-- R327: a flag with relaxed scope, or an undefined scope, raises BAD_SCOPE. -/
def flagsScope (sub : BitVec 5) : Bool :=
  scopeOk (sub.toNat % 8) && (!(sub.getLsbD 3 || sub.getLsbD 4) || sub.toNat % 8 != 0)

/-- Result mask in D, or D and D + 1 at width 128 (R85, R135). -/
def maskUse (e : DecEnv) : Use := if e.width = 128 then .span 2 else .reg

/-- Special-register numbers that WRITESR may write in a mode (R40, R41). -/
def srWritable (m : Mode) (n : Nat) : Bool :=
  n == 0x0E || n == 0x12 || n == 0x13 || ((n == 0x0D || n == 0x14) && m == .priv)

/-- System registers that SWRITE may write (R220, R381). -/
def sysWritable (n : Nat) : Bool := n == 0 || n == 1 || n == 5 || n == 7 || n == 8

/-- The pairs that CVT accepts, with T the destination, s the source code and k the element (R281). -/
def cvtLegal (t s : Ty) (k : Nat) : Bool :=
  let scalar : Ty → Bool := fun y => y.isInt || y.isScalarFloat
  if scalar t && scalar s then k == 0
  else if s == .f32 && t.isMatrix then k < t.elems
  else if t == .f32 && s.isMatrix then k < s.elems
  else false

/-- Whether CVT's row for a pair rounds by RM (R281). -/
def cvtRounds (t s : Ty) : Bool :=
  if t.isInt && s.isInt then false
  else if s.isMatrix then false
  else if t == .lg6x8 then false
  else true

/-- FRONT restriction of R268: only F32 and F64 there. -/
def frontFloat (e : DecEnv) (t : Ty) (k : Bool) : Bool :=
  match e.mode with
  | .front | .priv => t.isScalarFloat
  | _ => k

/-- Shape of the two-source arithmetic float group (R272). -/
def arithFloatShape (e : DecEnv) (w : ArithWord) (ok : Bool) (two three rounds : Bool) : Shape :=
  { d := .reg, a := .reg, b := if two then .reg else .zero, c := if three then .reg else .zero,
    sub := .ok (w.sub == 0 || (w.sub == 1 && w.t == .iv32)), ty := .ok (frontFloat e w.t ok),
    mod := if w.t == .iv32 then (if two then 0b0011 else 0b0001) else (if two then 0b1111 else 0b1101),
    rm := rounds || w.t == .iv32 }

/-- Shape of an integer-group entry (R123). -/
def intShape (w : ArithWord) (b c sat : Bool) : Shape :=
  { d := .reg, a := .reg, b := if b then .reg else .zero, c := if c then .reg else .zero,
    sub := .ok (w.sub == 0), ty := .ok w.t.isInt, mod := if sat then 0b1000 else 0 }

/-- The check of an arithmetic word against its entry's shape. -/
def ArithWord.checkWith (w : ArithWord) (e : DecEnv) (s : Shape) : Option Cause :=
  s.check e w.d w.a w.b w.c w.sub w.t w.rm w.mod w.x

/-- The check of an immediate word: `cond` says whether D[18:16] holds ICMPI's condition (R21). -/
def ImmWord.checkWith (w : ImmWord) (e : DecEnv) (s : Shape) : Option Cause :=
  s.check e w.d w.a 0 0 0 w.t 0 0 0

/-- The check of a memory word; OFF20 and CH are checked by `clean` where the entry has none. -/
def MemWord.checkWith (w : MemWord) (e : DecEnv) (s : Shape) : Option Cause :=
  s.check e w.d w.a w.b 0 0 w.t 0 0 0

/-- The check of an atomic word. -/
def AtomWord.checkWith (w : AtomWord) (e : DecEnv) (s : Shape) : Option Cause :=
  s.check e w.d w.a w.b w.c w.sub w.t 0 0 0

/-- The check of a branch word: CLS of BRA (R27), and the fields an opcode does not use. -/
def BranchWord.checkWith (_w : BranchWord) (legal clean : Bool) : Option Cause :=
  if !legal then some .illegalOp else if !clean then some .reservedBits else none

/-- CL of a syllable, 0 in a word. -/
def Site.cluster : Site → Nat
  | .word => 0
  | .syl cl _ => cl.toNat

/-- The SIG and MX operand registers of MMA (R356). -/
def mmaUse (w : ArithWord) : Use :=
  if w.x.getLsbD 2 then .span 3 else if w.x.getLsbD 1 then .reg else .zero

/-- EVBIND's checks (R321). -/
def EvBindWord.check (e : DecEnv) : EvBindWord → Option Cause
  | .word _ _ kind _ joff b19 x =>
    if kind.toNat > 4 || (kind == 0 && x.toNat > 31) || ((kind == 1 || kind == 2) && x.toNat > 63) then some .illegalOp
    else if b19 || joff != 0 || (kind.toNat ≥ 3 && x.getLsbD 7) then some .reservedBits
    else if kind.toNat ≥ 3 && !((if kind == 3 then Use.span 2 else Use.reg).inRange e (x.setWidth 7)) then some .badRegister
    else none
  | .syl w => w.checkWith e
      { a := .reg, b := .reg, c := .reg, sub := .ok (w.sub.toNat < 8), legal := w.x.toNat % 8 ≤ 4, x := 7 }

/-- The decode checks of R43, steps 5 to 10, for every instruction; a device event has none. -/
def Instr.check (e : DecEnv) : Instr → Option Cause
  | .nop w | .ret w | .exit w | .yield w | .region w | .tret w | .halt w | .preempt w
  | .ctxsave w | .ctxload w => w.checkWith e {}
  | .bra w => w.checkWith (w.cls != 0) (e.mode == .warp || w.joff == 0)
  | .jmp w | .call w => w.checkWith true (w.pb == 0 && w.cls == 0 && w.joff == 0)
  | .collapse w => w.checkWith true (w.pb.toNat < 2 && w.cls == 0 && w.joff == 0)
  | .expand w => w.checkWith true (w.pb == 0 && w.cls == 0 && w.joff == 0 && w.site.cluster == 0)
  | .jmpr w | .pushd w | .trmark w | .free w => w.checkWith e { a := .reg }
  | .join w => w.checkWith e { a := .bits 0x0F, ty := .ok (w.t == .b64) }
  | .trap w => w.checkWith e { ty := .ok (w.t == .b64) }
  | .regroup w => w.checkWith e { d := .pred, a := .reg, b := .reg, x := 0xFF }
  | .vote w => w.checkWith e
      { d := if w.sub.toNat < 3 then maskUse e else if w.sub.toNat = 3 then .reg else .pred, a := .pred,
        sub := .ok (w.sub.toNat ≤ 5), ty := .ok (w.t == .b64) }
  | .bar w | .bararr w => w.checkWith e { sub := .ok true, x := 0xFF }
  | .loop w => w.checkWith e { a := .reg, ty := .ok (w.t == .n32) }
  | .endloop w => w.checkWith e { clean := w.site.cluster == 0 }
  | .evbind w => w.check e
  | .evunbind w => w.checkWith e { x := 7 }
  | .waitany w => w.checkWith e { d := .reg, x := 0xFF, c := w.mask8Use }
  | .evmask w => w.checkWith e { sub := .ok (w.sub.toNat ≤ 2), x := 0xFF, c := w.mask8Use }
  | .evpend w => w.checkWith e { d := .pred, x := 0xFF, c := w.mask8Use }
  | .evclr w => w.checkWith e { x := 0xFF, c := w.mask8Use }
  | .send w => w.checkWith e { a := .reg, sub := .ok true, x := 0x3F }
  | .mbread w => w.checkWith e { d := .reg, x := 0x3F }
  | .sleepuntil w => w.checkWith e { a := .reg, sub := .ok (w.sub.toNat ≤ 1), x := if w.sub == 1 then 0x3F else 0 }
  | .popd w => w.checkWith e { d := .reg, ty := .ok w.t.isTag }
  | .nexttile w | .prtoi w | .qstat w | .sysrecv w => w.checkWith e { d := .reg }
  | .sqpush w => w.checkWith e { a := .span 8, x := 7 }
  | .iadd w | .isub w | .imul w | .idiv w => w.checkWith e (intShape w true false true)
  | .imulh w | .irem w | .imin w | .imax w => w.checkWith e (intShape w true false false)
  | .imad w => w.checkWith e (intShape w true true true)
  | .iabs w | .ineg w => w.checkWith e (intShape w false false true)
  | .icmp w => w.checkWith e
      { d := .pred, a := .reg, b := .reg, sub := .ok (w.sub.toNat ≤ 5), ty := .ok w.t.isInt }
  | .popc w | .clz w | .brev w | .ctz w => w.checkWith e (intShape w false false false)
  | .and w | .or w | .xor w | .andn w => w.checkWith e { d := .reg, a := .reg, b := .reg, ty := .ok w.t.isBits }
  | .not w => w.checkWith e { d := .reg, a := .reg, ty := .ok w.t.isBits }
  | .shl w | .shr w | .sar w | .rotl w => w.checkWith e { d := .reg, a := .reg, b := .reg, ty := .ok w.t.isInt }
  | .bfx w => w.checkWith e
      { d := .reg, a := .reg, c := .bits 0x3F, x := 0x3F, ty := .ok w.t.isInt,
        legal := w.x.toNat % 64 + w.c.toNat % 64 + 1 ≤ w.t.width }
  | .bfi w => w.checkWith e
      { d := .reg, a := .reg, b := .reg, c := .bits 0x3F, x := 0x3F, ty := .ok w.t.isInt,
        legal := w.x.toNat % 64 + w.c.toNat % 64 + 1 ≤ w.t.width }
  | .lea w => w.checkWith e { d := .reg, a := .reg, b := .reg, x := 7, ty := .ok (w.t == .i64 || w.t == .n64) }
  | .movi w => w.checkWith e { d := .reg, ty := .ok (w.t.isBits || w.t.isScalarFloat) }
  | .movhi w => w.checkWith e
      { d := .reg, a := .reg, ty := .ok (w.t == .b64 || w.t == .i64 || w.t == .n64 || w.t == .f64) }
  | .iaddi w | .imuli w | .shli w | .shri w | .sari w => w.checkWith e { d := .reg, a := .reg, ty := .ok w.t.isInt }
  | .andi w | .ori w | .xori w => w.checkWith e { d := .reg, a := .reg, ty := .ok w.t.isBits }
  | .icmpi w => w.checkWith e
      { d := .bits 0x3F, a := .reg, ty := .ok w.t.isInt, legal := w.d.toNat / 8 % 8 ≤ 5 }
  | .mov w | .xbcast w | .alloc w | .lgdiv w => w.checkWith e { d := .reg, a := .reg }
  | .retag w => w.checkWith e { d := .reg, a := .reg, ty := .ok w.t.isTag }
  | .sel w => w.checkWith e { d := .reg, a := .reg, b := .reg, c := .reg, sub := .ok (w.sub.toNat < 8) }
  | .readsr w => w.checkWith e { d := .reg, a := .bits 0x7F, ty := .ok w.t.isBits }
  | .writesr w =>
    match w.checkWith e { d := .bits 0x7F, a := .reg } with
    | some c => some c
    | none => if srWritable e.mode w.d.toNat then none else some .privileged
  | .shfl w => w.checkWith e
      { d := .reg, a := .reg, b := if w.sub.getLsbD 2 then .zero else .reg, sub := .ok (w.sub.toNat < 8),
        ty := .ok (w.t == .b64), x := if w.sub.getLsbD 2 then 0x7F else 0 }
  | .bcast w => w.checkWith e
      { d := .reg, a := .reg, b := if w.sub == 1 then .reg else .zero, sub := .ok (w.sub.toNat ≤ 2),
        ty := .ok (w.t == .b64), x := if w.sub == 0 then 0x7F else 0 }
  | .scan w => w.checkWith e
      { d := .reg, a := .reg, sub := .ok (w.sub.toNat < 16 && w.sub.toNat % 8 ≤ 5),
        ty := .ok (if w.sub.toNat % 8 ≤ 2 then w.t.isSum else w.t == .b64),
        rm := w.sub.toNat % 8 == 0 && w.t.isScalarFloat }
  | .reduce w => w.checkWith e
      { d := .reg, a := .reg, sub := .ok (w.sub.toNat ≤ 5),
        ty := .ok (if w.sub.toNat ≤ 2 then w.t.isSum else w.t == .b64), rm := w.sub == 0 && w.t.isScalarFloat }
  | .compact w => w.checkWith e { d := .reg, a := .reg, sub := .ok (w.sub.toNat < 8), ty := .ok (w.t == .b64) }
  | .matchLanes w => w.checkWith e
      { d := if w.sub == 0 then maskUse e else .pred, a := .reg, sub := .ok (w.sub.toNat ≤ 1), ty := .ok (w.t == .b64) }
  | .prset w => w.checkWith e
      { d := .pred, a := if w.sub == 0 then .bits 3 else .pred,
        b := if w.sub == 1 || w.sub == 2 || w.sub == 4 then .pred else .zero, sub := .ok (w.sub.toNat ≤ 8) }
  | .itopr w => w.checkWith e { a := .reg, x := 0xFF, c := w.mask8Use }
  | .xmov w => w.checkWith e
      { d := .reg, a := .reg, sub := .ok (w.sub.toNat ≤ 6),
        ty := .ok (if 1 ≤ w.sub.toNat && w.sub.toNat ≤ 3 then w.t.isSum else w.t == .b64),
        rm := w.sub == 1 && w.t.isScalarFloat }
  | .fadd w | .fsub w | .fmul w => w.checkWith e (arithFloatShape e w w.t.isArith true false true)
  | .ffma w => w.checkWith e (arithFloatShape e w w.t.isArith true true true)
  | .fmin w | .fmax w => w.checkWith e (arithFloatShape e w w.t.isArith true false false)
  | .fdiv w => w.checkWith e (arithFloatShape e w (w.t.isScalarFloat || w.t == .iv32) true false true)
  | .fsqrt w => w.checkWith e (arithFloatShape e w (w.t.isScalarFloat || w.t == .iv32) false false true)
  | .frcp w | .frsq w | .fexp2 w | .flog2 w | .fsinpi w | .fcospi w => w.checkWith e
      { d := .reg, a := .reg, ty := .ok (w.t == .f32), mod := 0b1101, rm := true }
  | .fcmp w => w.checkWith e
      { d := .pred, a := .reg, b := .reg, sub := .ok (w.sub.toNat ≤ 7),
        ty := .ok (frontFloat e w.t (w.t.isScalarFloat || w.t == .iv32)), mod := if w.t == .iv32 then 0b0011 else 0b0111 }
  | .fclass w => w.checkWith e { d := .reg, a := .reg, ty := .ok (w.t.isScalarFloat || w.t == .iv32) }
  | .frnd w => w.checkWith e
      { d := .reg, a := .reg, sub := .ok (w.sub.toNat ≤ 1), ty := .ok (w.t.isArith && w.t != .iv32), mod := 0b1101, rm := true }
  | .fdot w => w.checkWith e
      { d := .reg, a := .reg, b := .reg, c := .reg,
        ty := .ok (w.t == .f16x4 || w.t == .bf16x4 || w.t == .f8x8 || w.t == .e5x8), mod := 0b1111, rm := true }
  | .cvt w =>
    let s := Ty.ofCode (w.sub.toNat % 16)
    w.checkWith e
      { d := .reg, a := .reg, sub := .ok (w.sub.toNat < 16), legal := cvtLegal w.t s (w.x.toNat % 16), ty := .ok true,
        x := 0x0F, mod := if w.t.isInt && s.isInt then 0b1000 else 0, rm := cvtRounds w.t s }
  | .ivmake w => w.checkWith e
      { d := .reg, a := .reg, b := .reg, sub := .ok (w.sub.toNat ≤ 1), ty := .ok w.t.isScalarFloat, rm := true }
  | .ivlo w | .ivhi w | .ivmid w | .ivwid w => w.checkWith e { d := .reg, a := .reg, ty := .ok (w.t == .iv32), rm := true }
  | .ivhull w | .ivisect w => w.checkWith e
      { d := .reg, a := .reg, b := .reg, sub := .ok (w.sub == 0 || (w.sub == 1 && w.t == .iv32)), ty := .ok (w.t == .iv32), rm := true, mod := 0b0011 }
  | .ivsqr w | .ivabs w => w.checkWith e
      { d := .reg, a := .reg, sub := .ok (w.sub == 0 || (w.sub == 1 && w.t == .iv32)), ty := .ok (w.t == .iv32), rm := true }
  | .ivcont w => w.checkWith e
      { d := .pred, a := .reg, b := .reg, sub := .ok (w.sub.toNat ≤ 3), ty := .ok (w.t == .iv32), rm := true, mod := 0b0011 }
  | .ivsplit w => w.checkWith e
      { d := .reg, b := maskUse e, sub := .ok (w.sub.toNat < 8), ty := .ok (w.t == .iv32) }
  | .ivpop w => w.checkWith e { b := maskUse e, sub := .ok (w.sub.toNat < 8) }
  | .qnt w => w.checkWith e
      { d := .reg, a := .reg, ty := .ok (w.t == .f8x8 || w.t == .e5x8 || w.t == .f4x16), rm := true }
  | .ld w => w.checkWith e { d := .reg, a := .reg, ty := .ok true, scope := scopeOk w.sc.toNat }
  | .st w => w.checkWith e { a := .reg, b := .reg, ty := .ok true, clean := w.sc == 0 }
  | .ldp w => w.checkWith e { d := .span 2, a := .reg, ty := .ok w.t.isEight, scope := scopeOk w.sc.toNat }
  | .stp w => w.checkWith e { a := .reg, b := .span 2, ty := .ok w.t.isEight, clean := w.sc == 0 }
  | .pref w => w.checkWith e { a := .reg, clean := w.sc == 0 }
  | .demote w => w.checkWith e { a := .reg, clean := w.sc == 0, legal := w.ch.toNat ≤ 1 }
  | .fence w => w.checkWith e
      { d := .bits 3, legal := w.d.toNat % 4 != 0, clean := w.off == 0 && w.ch == 0, scope := scopeOk w.sc.toNat }
  | .acq w => w.checkWith e
      { d := .bits 3, a := .reg, b := if w.d.toNat % 4 = 1 then .reg else .zero, legal := w.d.toNat % 4 ≤ 1,
        clean := w.ch == 0, scope := scopeTight w.sc.toNat }
  | .rel w => w.checkWith e
      { d := .bits 3, a := .reg, legal := w.d.toNat % 4 == 0, clean := w.ch == 0, scope := scopeTight w.sc.toNat }
  | .atom w => w.checkWith e
      { d := .reg, a := .reg, b := .reg, sub := .ok (w.sub.toNat ≤ 6), ty := .ok (atomTyOk w.sub.toNat w.t),
        scope := scopeOk w.sc.toNat }
  | .cas w => w.checkWith e
      { d := .reg, a := .reg, b := .reg, c := .reg, ty := .ok w.t.isBits, scope := scopeOk w.sc.toNat }
  | .amx w => w.checkWith e
      { d := .reg, a := .reg, b := .reg, sub := .ok (w.sub.toNat ≤ 1),
        ty := .ok (w.t == .f32 || w.t == .f8x8 || w.t == .e5x8 || w.t == .f4x16), scope := scopeOk w.sc.toNat }
  | .signal w => w.checkWith e
      { d := .reg, a := .reg, b := .reg, sub := .ok (w.sub.toNat ≤ 2), ty := .ok (w.t == .i64 || w.t == .n64),
        scope := scopeTight w.sc.toNat }
  | .swait w => w.checkWith e
      { a := .reg, c := .reg, sub := .ok (w.sub.toNat ≤ 3), ty := .ok (w.t == .i64 || w.t == .n64),
        scope := scopeTight w.sc.toNat }
  | .bind w => w.checkWith e { d := .pred, a := .reg, b := .reg, c := .reg, sub := .ok (w.sub == 0) }
  | .unbind w => w.checkWith e
      { d := .pred, a := .reg, b := if w.sub == 0 then .reg else .zero, c := if w.sub == 0 then .reg else .zero,
        sub := .ok (w.sub.toNat ≤ 1) }
  | .talloc w => w.checkWith e
      { a := .reg, b := .reg, x := 0x3F, ty := .ok (w.sub.toNat / 4 % 4 != 3 || w.t == .f32),
        sub := .ok (w.sub.toNat < 16 && w.sub.toNat % 4 != 3 && !(w.sub.toNat / 4 % 4 ≥ 2 && w.sub.toNat % 4 != 0)) }
  | .tfree w => w.checkWith e { x := 0x3F }
  | .tinfo w => w.checkWith e { d := .reg, x := 0x3F, sub := .ok (w.sub.toNat ≤ 1) }
  | .ldt w => w.checkWith e { d := .reg, a := .reg, b := .reg, x := 0x3F, ty := .ok true }
  | .stt w => w.checkWith e { a := .reg, b := .reg, c := .reg, x := 0x3F, ty := .ok true }
  | .atomt w => w.checkWith e
      { d := .reg, a := .reg, b := .reg, c := .reg, x := 0x3F, sub := .ok (w.sub.toNat ≤ 6),
        ty := .ok (atomTyOk w.sub.toNat w.t) }
  | .tfill w => w.checkWith e { c := .reg, x := 0x3F, ty := .ok true }
  | .pusha _ | .pushs _ => none
  | .copy w => w.checkWith e
      { d := .reg, a := .reg, b := if w.t.code / 2 % 2 = 1 then .reg else .zero, c := .bits 0x3F, x := 0x3F,
        sub := .ok true, legal := !(w.t.code / 2 % 2 = 1 && !w.sub.getLsbD 4), clean := flagsClean w.sub,
        ty := .ok (w.t.code < 4), scope := flagsScope w.sub }
  | .gather w | .scatter w => w.checkWith e
      { d := .reg, a := .span 2, b := if w.t.code / 2 % 2 = 1 then .reg else .zero, c := .bits 0x3F, x := 0x3F,
        sub := .ok true, legal := !(w.t.code / 2 % 2 = 1 && !w.sub.getLsbD 4), clean := flagsClean w.sub,
        ty := .ok (w.t.code == 0 || w.t.code == 2), scope := flagsScope w.sub }
  | .coll w => w.checkWith e
      { d := .reg, a := .reg, b := if w.t.code = 2 then .span 2 else .reg, c := .reg, sub := .ok true,
        clean := flagsClean w.sub, ty := .ok (w.t.code == 0 || w.t.code == 2), scope := flagsScope w.sub }
  | .peerwr w | .peerrd w => w.checkWith e
      { d := .reg, a := .reg, b := if w.t.code = 2 then .span 2 else .reg, c := .reg,
        ty := .ok (w.t.code == 0 || w.t.code == 2) }
  | .peersig w => w.checkWith e
      { d := .reg, a := .reg, b := .reg, c := .reg, sub := .ok (w.sub.toNat ≤ 2), ty := .ok (w.t == .b64) }
  | .rqpop w => w.checkWith e { d := .reg, sub := .ok (w.sub.toNat % 4 != 3 && w.sub.toNat / 4 % 4 == 0) }
  | .cmdstat w => w.checkWith e
      { d := .reg, a := if w.sub == 0 then .reg else .zero, x := if w.sub == 1 then 0x3F else 0, sub := .ok (w.sub.toNat ≤ 1) }
  | .mma w => w.checkWith e
      { d := .bits 0x3F, a := .bits 0x3F, b := .bits 0x3F, c := mmaUse w, x := 7, sub := .ok true,
        legal := !(w.x.getLsbD 2 && (w.t == .lg6x8 || w.t == .f16x4 || w.t == .bf16x4)),
        clean := flagsClean w.sub, ty := .ok w.t.isMatrix, scope := flagsScope w.sub }
  | .mbeatPush w => w.checkWith e { a := .reg, b := .reg, x := 0x3F, sub := .ok (w.sub == 0 || w.sub == 4) }
  | .mbeatAcc w => w.checkWith e { a := .reg, b := .reg, x := 0x3F, sub := .ok (w.sub == 1 || w.sub == 5) }
  | .mbeatShift w => w.checkWith e { sub := .ok (w.sub == 2) }
  | .mbeatDrain w => w.checkWith e
      { a := .reg, b := .reg, c := .bits 0x3F, x := 0x3F, sub := .ok (w.sub == 3), ty := .ok w.t.isDrain,
        rm := w.t != .lg6x8 }
  | .mscale w => w.checkWith e { a := .reg, b := .reg, sub := .ok (w.sub == 0) }
  | .mloadb w => w.checkWith e
      { d := if w.sub.getLsbD 1 then .bits 0x3F else .zero, a := .bits 0x3F, b := .reg, sub := .ok (w.sub.toNat < 4),
        legal := !(w.sub.getLsbD 1 && (w.t == .lg6x8 || w.t == .f16x4 || w.t == .bf16x4)), ty := .ok w.t.isMatrix }
  | .mamap w => w.checkWith e { a := .reg, x := 0x3F, ty := .ok w.t.isMatrix }
  | .mdrain w => w.checkWith e
      { d := .bits 0x3F, a := .bits 0x3F, c := if w.x.getLsbD 1 then .reg else .zero, x := 2, sub := .ok true,
        clean := flagsClean w.sub, ty := .ok w.t.isDrain, scope := flagsScope w.sub, rm := w.t != .lg6x8 }
  | .mhad w => w.checkWith e
      { a := .bits 0x3F, c := if w.x.getLsbD 1 then .reg else .zero, x := 3, sub := .ok true, clean := flagsClean w.sub,
        scope := flagsScope w.sub }
  | .mzero w => w.checkWith e
      { a := .bits 0x3F, c := if w.x.getLsbD 1 then .reg else .zero, x := 2, sub := .ok true, clean := flagsClean w.sub,
        scope := flagsScope w.sub }
  | .mbmap w => w.checkWith e
      { b := if w.sub == 0 then .bits 0x3F else .zero, x := if w.sub == 0 then 0x3F else 0, sub := .ok (w.sub.toNat ≤ 1) }
  | .mretire w => w.checkWith e { x := 0x3F }
  | .bkpt w => w.checkWith e { x := 0xFF, c := w.mask8Use }
  | .pmcfg w => w.checkWith e { x := 3, a := .reg }
  | .pmread w => w.checkWith e { x := 3, d := .reg }
  | .pmctl w => w.checkWith e { x := 0x0F, sub := .ok (w.sub.toNat ≤ 2) }
  | .lclk w => w.checkWith e { d := .reg, sub := .ok (w.sub.toNat ≤ 1) }
  | .watch w => w.checkWith e { x := 3, a := .reg, b := .reg }
  | .syssend w => w.checkWith e { a := .reg, b := .reg, sub := .ok true }
  | .icinv w => w.checkWith e { sub := .ok (w.sub.toNat ≤ 1), priv := w.sub == 1 }
  | .sread w => w.checkWith e
      { d := .reg, a := if w.sub == 1 || w.sub == 2 then .bits 0x7F else .zero, b := if w.sub == 0 then .zero else .reg,
        x := if w.sub == 0 then 0xFF else 0, sub := .ok (w.sub.toNat ≤ 3) }
  | .swrite w =>
    match w.checkWith e
      { d := if w.sub == 1 || w.sub == 2 then .bits 0x7F else .zero, a := .reg, b := if w.sub == 0 then .zero else .reg,
        x := if w.sub == 0 then 0xFF else 0, sub := .ok (w.sub.toNat ≤ 3) } with
    | some c => some c
    | none => if w.sub != 0 || sysWritable w.x.toNat then none else some .privileged
  | .tlbinv w => w.checkWith e { a := if w.sub == 1 then .reg else .zero, sub := .ok (w.sub.toNat ≤ 1) }
  | .errread w => w.checkWith e { d := .span 2 }
  | .portreply w => w.checkWith e { a := if w.sub == 0 then .reg else .zero, sub := .ok (w.sub.toNat ≤ 1) }
  | .coldStart _ _ _ | .fullService _ _ | .hostLinkReset | .hostRestartComplete | .identify
  | .patch | .partition | .warmstart | .setrect | .ctxresume
  | .setsys | .blockctlHalt | .blockctlResume | .blockctlDiscard | .replay
  | .commandEnd | .evtailWrite _ | .registerWrite _ _ | .queueEnable _ _ _ | .qdoorbell _ _ _
  | .queueStop _ _ | .queueClearStop _ _ | .queueSkip _ _ | .seqRead _ _ | .seqReread _ _
  | .headWaitSatisfied _ _ | .launchStart _ | .gangPlace _ | .gangPassedOver _ | .stageDeadlockBreak _
  | .coreClearComplete _ | .rangeChunkAnswer _ _ _ | .nexttileAnswer _ _ | .starvationPromote _ _ _ | .yieldTimeout _ _ _
  | .deferredSplitStart _ _ _ | .joinDeadline _ _ _ | .regionCountClose _ _ _ | .loadAnswer _ _ _ | .l1Fill _ _
  | .l2MissFill _ _ | .storeAck _ _ | .sliceAtomic _ _ _ | .sliceAmx _ _ _ | .guardAcquired _ _ _
  | .guardRelease _ _ _ | .swaitResume _ _ _ | .pinRetry _ _ _ | .pinBreak _ _ | .heapExchangeReturn _ _ _
  | .bankPromote _ _ | .l1PortPromote _ _ | .sliceAgePromote _ _ | .hbmAgePromote _ _ | .hbmRefresh _
  | .patrolRead _ _ _ | .pageWalkComplete _ _ | .ifetchFill _ _ _ | .icinvDevComplete _ _ _ | .tlbinvComplete _ _ _
  | .mailboxDeliver _ _ | .timerTokenFire _ _ _ | .waitanyWake _ _ _ | .sleepWake _ _ _ | .copyComplete _
  | .collArrival _ | .peerReceive _ _ _ _ _ _ | .peerAck _ _ _ _ | .linkFlitReplay _ | .linkDown _ _
  | .matrixCommandStart _ | .mloadbComplete _ | .mscaleEffect _ _ | .drainCommit _ | .trapEntry _
  | .forcedSave _ | .handlerWatchdog _ | .blockSave _ | .preemptionRequest _ | .powerClockReduction _
  | .matrixCommandComplete _ | .peerReadRequest _ _ _ | .peerFlitForward _ _ _ | .peerLinkChange _ _ | .peerConnectionClose _ _
  | .hostMemoryRequest _ _ => none

/-- Whether an opcode is marked for a mode (R38, R39): privileged single-lane mode executes every opcode
marked F or P. A device event has no mode. -/
def Instr.allowed (m : Mode) : Instr → Bool
  | .nop _ | .bra _ | .jmp _ | .call _ | .ret _ | .exit _ | .bar _ | .bararr _ | .send _ | .sleepuntil _
  | .nexttile _ | .sqpush _ | .trap _ | .iadd _ | .isub _ | .imul _ | .imulh _ | .imad _ | .idiv _ | .irem _
  | .imin _ | .imax _ | .iabs _ | .ineg _ | .icmp _ | .popc _ | .clz _ | .brev _ | .ctz _ | .and _ | .or _
  | .xor _ | .not _ | .andn _ | .shl _ | .shr _ | .sar _ | .rotl _ | .bfx _ | .bfi _ | .lea _ | .movi _
  | .movhi _ | .iaddi _ | .imuli _ | .andi _ | .ori _ | .xori _ | .shli _ | .shri _ | .sari _ | .icmpi _
  | .mov _ | .retag _ | .sel _ | .readsr _ | .prset _ | .prtoi _ | .itopr _ | .fadd _ | .fmul _ | .fcmp _
  | .fence _ | .acq _ | .rel _ | .signal _ | .swait _ | .tinfo _ | .copy _ | .gather _ | .scatter _
  | .peersig _ | .cmdstat _ | .mloadb _ | .mamap _ | .mdrain _ | .mhad _ | .mzero _ | .mbmap _ | .bkpt _
  | .pmread _ | .pmctl _ | .trmark _ | .lclk _ => true
  | .writesr _ | .icinv _ => true
  | .jmpr _ | .ld _ | .st _ | .ldp _ | .stp _ | .atom _ | .cas _ | .amx _ | .pref _ | .demote _ | .bind _
  | .unbind _ | .alloc _ | .free _ | .talloc _ | .tfree _ | .tfill _ | .peerwr _ | .peerrd _ | .mma _ => m != .vliw
  | .join _ | .regroup _ | .vote _ | .collapse _ | .popd _ | .shfl _ | .bcast _ | .scan _ | .reduce _
  | .compact _ | .matchLanes _ | .ivsplit _ | .ivpop _ | .qnt _ | .ldt _ | .stt _ => m == .warp
  | .expand _ | .loop _ | .endloop _ | .xmov _ | .xbcast _ | .pusha _ | .pushs _ | .qstat _ | .rqpop _
  | .mbeatPush _ | .mbeatAcc _ | .mbeatShift _ | .mbeatDrain _ | .mscale _ | .mretire _ | .syssend _
  | .sysrecv _ => m == .vliw
  | .evbind _ | .evunbind _ | .waitany _ | .evmask _ | .evpend _ | .evclr _ | .mbread _ | .region _ | .yield _
  | .fsub _ | .ffma _ | .fmin _ | .fmax _ | .fdiv _ | .fsqrt _ | .frcp _ | .frsq _ | .fexp2 _ | .flog2 _
  | .fclass _ | .frnd _ | .fdot _ | .cvt _ | .ivmake _ | .ivlo _ | .ivhi _ | .ivmid _ | .ivwid _ | .ivhull _
  | .ivisect _ | .ivsqr _ | .ivabs _ | .ivcont _ | .fsinpi _ | .fcospi _ | .atomt _ => m == .warp || m == .vliw
  | .pushd _ | .coll _ => m == .front || m == .priv
  | .pmcfg _ | .watch _ | .tret _ | .sread _ | .swrite _ | .tlbinv _ | .ctxsave _ | .ctxload _ | .lgdiv _
  | .errread _ | .portreply _ | .preempt _ | .halt _ => m == .priv
  | .coldStart _ _ _ | .fullService _ _ | .hostLinkReset | .hostRestartComplete | .identify | .patch
  | .partition | .warmstart | .setrect | .ctxresume | .setsys | .blockctlHalt | .blockctlResume
  | .blockctlDiscard | .replay | .commandEnd | .evtailWrite _ | .registerWrite _ _ | .queueEnable _ _ _
  | .qdoorbell _ _ _ | .queueStop _ _ | .queueClearStop _ _ | .queueSkip _ _ | .seqRead _ _ | .seqReread _ _
  | .headWaitSatisfied _ _ | .launchStart _ | .gangPlace _ | .gangPassedOver _ | .stageDeadlockBreak _
  | .coreClearComplete _ | .rangeChunkAnswer _ _ _ | .nexttileAnswer _ _ | .starvationPromote _ _ _
  | .yieldTimeout _ _ _ | .deferredSplitStart _ _ _ | .joinDeadline _ _ _ | .regionCountClose _ _ _
  | .loadAnswer _ _ _ | .l1Fill _ _ | .l2MissFill _ _ | .storeAck _ _ | .sliceAtomic _ _ _ | .sliceAmx _ _ _
  | .guardAcquired _ _ _ | .guardRelease _ _ _ | .swaitResume _ _ _ | .pinRetry _ _ _ | .pinBreak _ _
  | .heapExchangeReturn _ _ _ | .bankPromote _ _ | .l1PortPromote _ _ | .sliceAgePromote _ _
  | .hbmAgePromote _ _ | .hbmRefresh _ | .patrolRead _ _ _ | .pageWalkComplete _ _ | .ifetchFill _ _ _
  | .icinvDevComplete _ _ _ | .tlbinvComplete _ _ _ | .mailboxDeliver _ _ | .timerTokenFire _ _ _
  | .waitanyWake _ _ _ | .sleepWake _ _ _ | .copyComplete _ | .collArrival _ | .peerReceive _ _ _ _ _ _
  | .peerAck _ _ _ _ | .linkFlitReplay _ | .linkDown _ _ | .matrixCommandStart _ | .mloadbComplete _
  | .mscaleEffect _ _ | .drainCommit _ | .trapEntry _ | .forcedSave _ | .handlerWatchdog _ | .blockSave _
  | .preemptionRequest _ | .powerClockReduction _ | .matrixCommandComplete _ | .peerReadRequest _ _ _
  | .peerFlitForward _ _ _ | .peerLinkChange _ _ | .peerConnectionClose _ _ | .hostMemoryRequest _ _ => true

end Sys2Proof
end

