-- ==== Sys2Proof/WellFormed.lean ====
section
/-! DEFINITION. Well-formedness of an instruction for an executing unit: none of the decoder's checks 5 to
10 (R43) fails. The checks themselves stand in Machine/Check.lean. -/

namespace Sys2Proof

/-- An instruction passes the decoder's checks 5 to 10 for a unit (R43). -/
def Instr.WellFormed (e : DecEnv) (i : Instr) : Prop := i.check e = none

end Sys2Proof
end

