-- ==== Sys2Proof/Decode.lean ====
section
/-! DEFINITION. Decoding (R18 to R30, R38, R42, R43) and the encoder. `decode` is total on the 64 bits of a
word or syllable and rejects by cause; `encode` writes the word of an instruction from the same tables. -/

namespace Sys2Proof

/-- Bits [hi:lo] of a word. -/
def bits (w hi lo : Nat) : Nat := w / 2 ^ lo % 2 ^ (hi - lo + 1)

/-- A value placed at bit lo. -/
def put (lo v : Nat) : Nat := v * 2 ^ lo

/-- Bytes as one number, the first least significant (R5). -/
def leNat : List Byte → Nat
  | [] => 0
  | b :: bs => b.toNat + 256 * leNat bs

/-- The n low bytes of a number, least significant first (R5). -/
def leBytes : Nat → Nat → List Byte
  | 0, _ => []
  | n + 1, v => BitVec.ofNat 8 v :: leBytes n (v / 256)

/-- The sign-extended value of the low n bits of a number. -/
def signed (n v : Nat) : Int := if v % 2 ^ n < 2 ^ (n - 1) then (v % 2 ^ n : Nat) else (v % 2 ^ n : Nat) - (2 : Int) ^ n

/-- Guard mode codes (R10). -/
def GuardMode.ofCode : Nat → GuardMode
  | 0 => .always
  | 1 => .ifT
  | 2 => .ifF
  | _ => .ifU

/-- The code of a guard mode (R10). -/
def GuardMode.code : GuardMode → Nat
  | .always => 0
  | .ifT => 1
  | .ifF => 2
  | .ifU => 3

/-- The guard of a word, GM [12:11] and PG [10:8] (R20), or of a syllable, GM [18:17] and PG [16:14] (R29). -/
def guardOf (m : Mode) (w : Nat) : Guard :=
  match m with
  | .vliw => { gm := .ofCode (bits w 18 17), pg := .ofNat 3 (bits w 16 14) }
  | _ => { gm := .ofCode (bits w 12 11), pg := .ofNat 3 (bits w 10 8) }

/-- The site of a decoded instruction: CL [13:9] and S [8] of a syllable (R29). -/
def siteOf (m : Mode) (w : Nat) : Site :=
  match m with
  | .vliw => .syl (.ofNat 5 (bits w 13 9)) (bits w 8 8 == 1)
  | _ => .word

/-- The arithmetic word (R20) and the syllable (R29). -/
def arithOf (m : Mode) (w : Nat) : ArithWord :=
  match m with
  | .vliw =>
    { site := siteOf m w, g := guardOf m w, d := .ofNat 7 (bits w 24 19), a := .ofNat 7 (bits w 30 25)
      b := .ofNat 7 (bits w 36 31), c := .ofNat 7 (bits w 42 37), sub := .ofNat 5 (bits w 47 43)
      t := .ofCode (bits w 51 48), rm := .ofNat 2 (bits w 53 52), mod := .ofNat 4 (bits w 57 54)
      x := .ofNat 8 (bits w 63 58) }
  | _ =>
    { site := siteOf m w, g := guardOf m w, d := .ofNat 7 (bits w 19 13), a := .ofNat 7 (bits w 26 20)
      b := .ofNat 7 (bits w 33 27), c := .ofNat 7 (bits w 40 34), sub := .ofNat 5 (bits w 45 41)
      t := .ofCode (bits w 49 46), rm := .ofNat 2 (bits w 51 50), mod := .ofNat 4 (bits w 55 52)
      x := .ofNat 8 (bits w 63 56) }

/-- The immediate word (R24) and immediate syllable (R30). -/
def immOf (m : Mode) (w : Nat) : ImmWord :=
  match m with
  | .vliw =>
    { site := siteOf m w, g := guardOf m w, d := .ofNat 7 (bits w 24 19), a := .ofNat 7 (bits w 30 25)
      imm := .ofNat 32 (bits w 50 31), t := .ofCode (bits w 54 51) }
  | _ =>
    { site := siteOf m w, g := guardOf m w, d := .ofNat 7 (bits w 19 13), a := .ofNat 7 (bits w 26 20)
      imm := .ofNat 32 (bits w 58 27), t := .ofCode (bits w 62 59) }

/-- The memory word (R25); in VLIW code the ordering syllable of R30, SUB[2:0] the scope and SUB[4:3] the
kind. -/
def memOf (m : Mode) (w : Nat) : MemWord :=
  match m with
  | .vliw =>
    { site := siteOf m w, g := guardOf m w, d := .ofNat 7 (bits w 47 46), a := .ofNat 7 (bits w 30 25)
      b := .ofNat 7 (bits w 36 31), t := .ofCode (bits w 51 48), sc := .ofNat 3 (bits w 45 43) }
  | _ =>
    { site := siteOf m w, g := guardOf m w, d := .ofNat 7 (bits w 19 13), a := .ofNat 7 (bits w 26 20)
      b := .ofNat 7 (bits w 33 27), off := .ofNat 20 (bits w 53 34), t := .ofCode (bits w 57 54)
      sc := .ofNat 3 (bits w 60 58), ch := .ofNat 2 (bits w 62 61) }

/-- The atomic word (R26); in VLIW code the ordering syllable of R30. -/
def atomOf (m : Mode) (w : Nat) : AtomWord :=
  match m with
  | .vliw =>
    { site := siteOf m w, g := guardOf m w, d := .ofNat 7 (bits w 24 19), a := .ofNat 7 (bits w 30 25)
      b := .ofNat 7 (bits w 36 31), c := .ofNat 7 (bits w 42 37), sub := .ofNat 5 (bits w 47 46)
      t := .ofCode (bits w 51 48), sc := .ofNat 3 (bits w 45 43) }
  | _ =>
    { site := siteOf m w, g := guardOf m w, d := .ofNat 7 (bits w 19 13), a := .ofNat 7 (bits w 26 20)
      b := .ofNat 7 (bits w 33 27), c := .ofNat 7 (bits w 40 34), sub := .ofNat 5 (bits w 45 41)
      t := .ofCode (bits w 49 46), sc := .ofNat 3 (bits w 52 50), ch := .ofNat 2 (bits w 54 53) }

/-- The branch word (R27) and branch syllable (R30). -/
def branchOf (m : Mode) (w : Nat) : BranchWord :=
  match m with
  | .vliw =>
    { site := siteOf m w, g := guardOf m w, pb := .ofNat 3 (bits w 21 19), cls := .ofNat 3 (bits w 24 22)
      off := .ofNat 20 (bits w 50 31) }
  | _ =>
    { site := siteOf m w, g := guardOf m w, pb := .ofNat 3 (bits w 15 13), cls := .ofNat 3 (bits w 18 16)
      off := .ofNat 20 (bits w 39 20), joff := .ofNat 16 (bits w 55 40) }

/-- The address syllable (R30). -/
def addrOf (m : Mode) (w : Nat) : AddrWord :=
  let tile := bits w 55 55 == 1
  { cl := .ofNat 5 (bits w 13 9), stop := bits w 8 8 == 1, g := guardOf m w, a := .ofNat 7 (bits w 30 25)
    t := .ofCode (bits w 54 51), tile := tile
    off := if tile then 0 else .ofNat 20 (bits w 50 31)
    h := if tile then .ofNat 6 (bits w 62 57) else 0
    col := if tile then .ofNat 7 (bits w 36 31) else 0 }

/-- EVBIND: the branch word with PB, CLS, bit 19 and [63:56] of R321, or a syllable. -/
def evBindOf (m : Mode) (w : Nat) : EvBindWord :=
  match m with
  | .vliw => .syl (arithOf m w)
  | _ => .word (guardOf m w) (.ofNat 3 (bits w 15 13)) (.ofNat 3 (bits w 18 16)) (.ofNat 20 (bits w 39 20))
      (.ofNat 16 (bits w 55 40)) (bits w 19 19 == 1) (.ofNat 8 (bits w 63 56))

/-- The guard's bits (R20, R29). -/
def putGuard (s : Site) (g : Guard) : Nat :=
  match s with
  | .word => put 8 g.pg.toNat + put 11 g.gm.code
  | .syl cl stop => put 8 stop.toNat + put 9 cl.toNat + put 14 g.pg.toNat + put 17 g.gm.code

/-- The fields of the arithmetic word or syllable above the opcode. -/
def putArith (w : ArithWord) : Nat :=
  putGuard w.site w.g + match w.site with
    | .word => put 13 w.d.toNat + put 20 w.a.toNat + put 27 w.b.toNat + put 34 w.c.toNat + put 41 w.sub.toNat
        + put 46 w.t.code + put 50 w.rm.toNat + put 52 w.mod.toNat + put 56 w.x.toNat
    | .syl _ _ => put 19 w.d.toNat + put 25 w.a.toNat + put 31 w.b.toNat + put 37 w.c.toNat + put 43 w.sub.toNat
        + put 48 w.t.code + put 52 w.rm.toNat + put 54 w.mod.toNat + put 58 w.x.toNat

/-- The fields of the immediate word or syllable. -/
def putImm (w : ImmWord) : Nat :=
  putGuard w.site w.g + match w.site with
    | .word => put 13 w.d.toNat + put 20 w.a.toNat + put 27 w.imm.toNat + put 59 w.t.code
    | .syl _ _ => put 19 w.d.toNat + put 25 w.a.toNat + put 31 w.imm.toNat + put 51 w.t.code

/-- The fields of the memory word or ordering syllable. -/
def putMem (w : MemWord) : Nat :=
  putGuard w.site w.g + match w.site with
    | .word => put 13 w.d.toNat + put 20 w.a.toNat + put 27 w.b.toNat + put 34 w.off.toNat + put 54 w.t.code
        + put 58 w.sc.toNat + put 61 w.ch.toNat
    | .syl _ _ => put 25 w.a.toNat + put 31 w.b.toNat + put 43 w.sc.toNat + put 46 w.d.toNat + put 48 w.t.code

/-- The fields of the atomic word or ordering syllable. -/
def putAtom (w : AtomWord) : Nat :=
  putGuard w.site w.g + match w.site with
    | .word => put 13 w.d.toNat + put 20 w.a.toNat + put 27 w.b.toNat + put 34 w.c.toNat + put 41 w.sub.toNat
        + put 46 w.t.code + put 50 w.sc.toNat + put 53 w.ch.toNat
    | .syl _ _ => put 19 w.d.toNat + put 25 w.a.toNat + put 31 w.b.toNat + put 37 w.c.toNat + put 43 w.sc.toNat
        + put 46 w.sub.toNat + put 48 w.t.code

/-- The fields of the branch word or syllable. -/
def putBranch (w : BranchWord) : Nat :=
  putGuard w.site w.g + match w.site with
    | .word => put 13 w.pb.toNat + put 16 w.cls.toNat + put 20 w.off.toNat + put 40 w.joff.toNat
    | .syl _ _ => put 19 w.pb.toNat + put 22 w.cls.toNat + put 31 w.off.toNat

/-- The fields of the address syllable. -/
def putAddr (w : AddrWord) : Nat :=
  putGuard (.syl w.cl w.stop) w.g + put 25 w.a.toNat + put 51 w.t.code +
    (if w.tile then put 31 w.col.toNat + put 55 1 + put 57 w.h.toNat else put 31 w.off.toNat)

/-- The fields of EVBIND's word (R321). -/
def putEvBind (g : Guard) (slot kind : BitVec 3) (off : BitVec 20) (joff : BitVec 16) (b19 : Bool) (x : BitVec 8) : Nat :=
  putGuard .word g + put 13 slot.toNat + put 16 kind.toNat + put 19 b19.toNat + put 20 off.toNat + put 40 joff.toNat
    + put 56 x.toNat

/-- Zero columns of the branch word or syllable (R27, R30). -/
def branchZero (m : Mode) (w : Nat) : Bool :=
  match m with
  | .vliw => bits w 63 51 == 0 && bits w 30 25 == 0
  | _ => bits w 63 56 == 0 && bits w 19 19 == 0

/-- Zero columns of the immediate word or syllable (R24, R30). -/
def immZero (m : Mode) (w : Nat) : Bool :=
  match m with
  | .vliw => bits w 63 55 == 0
  | _ => bits w 63 63 == 0

/-- Zero columns of the memory word or ordering syllable (R25, R30). -/
def memZero (m : Mode) (w : Nat) : Bool :=
  match m with
  | .vliw => bits w 63 52 == 0 && bits w 42 37 == 0 && bits w 24 19 == 0
  | _ => bits w 63 63 == 0

/-- Zero columns of the atomic word or ordering syllable (R26, R30). -/
def atomZero (m : Mode) (w : Nat) : Bool :=
  match m with
  | .vliw => bits w 63 52 == 0
  | _ => bits w 63 55 == 0

/-- Zero columns of the address syllable (R30). -/
def addrZero (w : Nat) : Bool :=
  bits w 63 63 == 0 && bits w 56 56 == 0 && bits w 24 19 == 0 &&
    (if bits w 55 55 == 1 then bits w 50 37 == 0 else bits w 62 57 == 0)

/-- The columns that the format of an opcode keeps zero and that no field record carries (R42). -/
def zeroColumns (m : Mode) (w : Nat) : Bool :=
  let op := w % 256
  if op == 0x01 || op == 0x02 || op == 0x03 || op == 0x0C || op == 0x0D then branchZero m w
  else if op == 0x06 || op == 0x1F || (0x40 ≤ op && op ≤ 0x4A) then immZero m w
  else if (0x80 ≤ op && op ≤ 0x83) || (0x87 ≤ op && op ≤ 0x8B) then memZero m w
  else if (0x84 ≤ op && op ≤ 0x86) || op == 0x8E || op == 0x8F then atomZero m w
  else if op == 0x99 || op == 0x9A then addrZero w
  else true

/-- A syllable's register and X fields are 6 bits (R29). -/
def sixBits (r : BitVec n) : Bool := r.toNat < 64

/-- The record fits the mode's format. -/
def ArithWord.fits (w : ArithWord) (m : Mode) : Bool :=
  match w.site with
  | .word => m != .vliw
  | .syl _ _ => m == .vliw && sixBits w.d && sixBits w.a && sixBits w.b && sixBits w.c && sixBits w.x

/-- The record fits the mode's format; a syllable has IMM20. -/
def ImmWord.fits (w : ImmWord) (m : Mode) : Bool :=
  match w.site with
  | .word => m != .vliw
  | .syl _ _ => m == .vliw && sixBits w.d && sixBits w.a && w.imm.toNat < 2 ^ 20

/-- The record fits the mode's format; an ordering syllable carries the kind in two bits, no offset and no
hint. -/
def MemWord.fits (w : MemWord) (m : Mode) : Bool :=
  match w.site with
  | .word => m != .vliw
  | .syl _ _ => m == .vliw && w.d.toNat < 4 && sixBits w.a && sixBits w.b && w.off == 0 && w.ch == 0

/-- The record fits the mode's format; an ordering syllable carries two bits of SUB and no hint. -/
def AtomWord.fits (w : AtomWord) (m : Mode) : Bool :=
  match w.site with
  | .word => m != .vliw
  | .syl _ _ => m == .vliw && sixBits w.d && sixBits w.a && sixBits w.b && sixBits w.c && w.sub.toNat < 4 && w.ch == 0

/-- The record fits the mode's format; a branch syllable has no join offset. -/
def BranchWord.fits (w : BranchWord) (m : Mode) : Bool :=
  match w.site with
  | .word => m != .vliw
  | .syl _ _ => m == .vliw && w.joff == 0

/-- The address syllable's fields: the other form's are zero. -/
def AddrWord.fits (w : AddrWord) : Bool :=
  sixBits w.a && (if w.tile then w.off == 0 && sixBits w.col else w.h == 0 && w.col == 0)

/-- Opcode map (R38): the instruction that the bits stand for in a mode, with the fields of its format;
none for a reserved opcode. MBEAT's entry is chosen by SUB, and an undefined SUB is left to step 5. (DEDUCED, log 24: unsafe.) -/
def parse (m : Mode) (w : Nat) : Option Instr :=
  match w % 256 with
  | 0x00 => some (.nop (arithOf m w))
  | 0x01 => some (.bra (branchOf m w))
  | 0x02 => some (.jmp (branchOf m w))
  | 0x03 => some (.call (branchOf m w))
  | 0x04 => some (.ret (arithOf m w))
  | 0x05 => some (.jmpr (arithOf m w))
  | 0x06 => some (.join (immOf m w))
  | 0x07 => some (.exit (arithOf m w))
  | 0x08 => some (.regroup (arithOf m w))
  | 0x09 => some (.vote (arithOf m w))
  | 0x0A => some (.bar (arithOf m w))
  | 0x0B => some (.bararr (arithOf m w))
  | 0x0C => some (.collapse (branchOf m w))
  | 0x0D => some (.expand (branchOf m w))
  | 0x0E => some (.loop (arithOf m w))
  | 0x0F => some (.endloop (arithOf m w))
  | 0x10 => some (.evbind (evBindOf m w))
  | 0x11 => some (.evunbind (arithOf m w))
  | 0x12 => some (.waitany (arithOf m w))
  | 0x13 => some (.evmask (arithOf m w))
  | 0x14 => some (.evpend (arithOf m w))
  | 0x15 => some (.evclr (arithOf m w))
  | 0x16 => some (.send (arithOf m w))
  | 0x17 => some (.mbread (arithOf m w))
  | 0x18 => some (.region (arithOf m w))
  | 0x19 => some (.sleepuntil (arithOf m w))
  | 0x1A => some (.yield (arithOf m w))
  | 0x1B => some (.popd (arithOf m w))
  | 0x1C => some (.pushd (arithOf m w))
  | 0x1D => some (.nexttile (arithOf m w))
  | 0x1E => some (.sqpush (arithOf m w))
  | 0x1F => some (.trap (immOf m w))
  | 0x20 => some (.iadd (arithOf m w))
  | 0x21 => some (.isub (arithOf m w))
  | 0x22 => some (.imul (arithOf m w))
  | 0x23 => some (.imulh (arithOf m w))
  | 0x24 => some (.imad (arithOf m w))
  | 0x25 => some (.idiv (arithOf m w))
  | 0x26 => some (.irem (arithOf m w))
  | 0x27 => some (.imin (arithOf m w))
  | 0x28 => some (.imax (arithOf m w))
  | 0x29 => some (.iabs (arithOf m w))
  | 0x2A => some (.ineg (arithOf m w))
  | 0x2B => some (.icmp (arithOf m w))
  | 0x2C => some (.popc (arithOf m w))
  | 0x2D => some (.clz (arithOf m w))
  | 0x2E => some (.brev (arithOf m w))
  | 0x2F => some (.ctz (arithOf m w))
  | 0x30 => some (.and (arithOf m w))
  | 0x31 => some (.or (arithOf m w))
  | 0x32 => some (.xor (arithOf m w))
  | 0x33 => some (.not (arithOf m w))
  | 0x34 => some (.andn (arithOf m w))
  | 0x35 => some (.shl (arithOf m w))
  | 0x36 => some (.shr (arithOf m w))
  | 0x37 => some (.sar (arithOf m w))
  | 0x38 => some (.rotl (arithOf m w))
  | 0x39 => some (.bfx (arithOf m w))
  | 0x3A => some (.bfi (arithOf m w))
  | 0x3B => some (.lea (arithOf m w))
  | 0x40 => some (.movi (immOf m w))
  | 0x41 => some (.movhi (immOf m w))
  | 0x42 => some (.iaddi (immOf m w))
  | 0x43 => some (.imuli (immOf m w))
  | 0x44 => some (.andi (immOf m w))
  | 0x45 => some (.ori (immOf m w))
  | 0x46 => some (.xori (immOf m w))
  | 0x47 => some (.shli (immOf m w))
  | 0x48 => some (.shri (immOf m w))
  | 0x49 => some (.sari (immOf m w))
  | 0x4A => some (.icmpi (immOf m w))
  | 0x4B => some (.mov (arithOf m w))
  | 0x4C => some (.retag (arithOf m w))
  | 0x4D => some (.sel (arithOf m w))
  | 0x4E => some (.readsr (arithOf m w))
  | 0x4F => some (.writesr (arithOf m w))
  | 0x50 => some (.shfl (arithOf m w))
  | 0x51 => some (.bcast (arithOf m w))
  | 0x52 => some (.scan (arithOf m w))
  | 0x53 => some (.reduce (arithOf m w))
  | 0x54 => some (.compact (arithOf m w))
  | 0x55 => some (.prset (arithOf m w))
  | 0x56 => some (.prtoi (arithOf m w))
  | 0x57 => some (.itopr (arithOf m w))
  | 0x58 => some (.matchLanes (arithOf m w))
  | 0x59 => some (.xmov (arithOf m w))
  | 0x5A => some (.xbcast (arithOf m w))
  | 0x60 => some (.fadd (arithOf m w))
  | 0x61 => some (.fsub (arithOf m w))
  | 0x62 => some (.fmul (arithOf m w))
  | 0x63 => some (.ffma (arithOf m w))
  | 0x64 => some (.fmin (arithOf m w))
  | 0x65 => some (.fmax (arithOf m w))
  | 0x66 => some (.fdiv (arithOf m w))
  | 0x67 => some (.fsqrt (arithOf m w))
  | 0x68 => some (.frcp (arithOf m w))
  | 0x69 => some (.frsq (arithOf m w))
  | 0x6A => some (.fexp2 (arithOf m w))
  | 0x6B => some (.flog2 (arithOf m w))
  | 0x6C => some (.fcmp (arithOf m w))
  | 0x6D => some (.fclass (arithOf m w))
  | 0x6E => some (.frnd (arithOf m w))
  | 0x6F => some (.fdot (arithOf m w))
  | 0x70 => some (.cvt (arithOf m w))
  | 0x71 => some (.ivmake (arithOf m w))
  | 0x72 => some (.ivlo (arithOf m w))
  | 0x73 => some (.ivhi (arithOf m w))
  | 0x74 => some (.ivmid (arithOf m w))
  | 0x75 => some (.ivwid (arithOf m w))
  | 0x76 => some (.ivhull (arithOf m w))
  | 0x77 => some (.ivisect (arithOf m w))
  | 0x78 => some (.ivsplit (arithOf m w))
  | 0x79 => some (.ivpop (arithOf m w))
  | 0x7A => some (.ivsqr (arithOf m w))
  | 0x7B => some (.ivabs (arithOf m w))
  | 0x7C => some (.ivcont (arithOf m w))
  | 0x7D => some (.fsinpi (arithOf m w))
  | 0x7E => some (.fcospi (arithOf m w))
  | 0x7F => some (.qnt (arithOf m w))
  | 0x80 => some (.ld (memOf m w))
  | 0x81 => some (.st (memOf m w))
  | 0x82 => some (.ldp (memOf m w))
  | 0x83 => some (.stp (memOf m w))
  | 0x84 => some (.atom (atomOf m w))
  | 0x85 => some (.cas (atomOf m w))
  | 0x86 => some (.amx (atomOf m w))
  | 0x87 => some (.pref (memOf m w))
  | 0x88 => some (.demote (memOf m w))
  | 0x89 => some (.fence (memOf m w))
  | 0x8A => some (.acq (memOf m w))
  | 0x8B => some (.rel (memOf m w))
  | 0x8C => some (.bind (arithOf m w))
  | 0x8D => some (.unbind (arithOf m w))
  | 0x8E => some (.signal (atomOf m w))
  | 0x8F => some (.swait (atomOf m w))
  | 0x90 => some (.alloc (arithOf m w))
  | 0x91 => some (.free (arithOf m w))
  | 0x92 => some (.talloc (arithOf m w))
  | 0x93 => some (.tfree (arithOf m w))
  | 0x94 => some (.tinfo (arithOf m w))
  | 0x95 => some (.ldt (arithOf m w))
  | 0x96 => some (.stt (arithOf m w))
  | 0x97 => some (.atomt (arithOf m w))
  | 0x98 => some (.tfill (arithOf m w))
  | 0x99 => some (.pusha (addrOf m w))
  | 0x9A => some (.pushs (addrOf m w))
  | 0x9B => some (.qstat (arithOf m w))
  | 0xA0 => some (.copy (arithOf m w))
  | 0xA1 => some (.gather (arithOf m w))
  | 0xA2 => some (.scatter (arithOf m w))
  | 0xA3 => some (.coll (arithOf m w))
  | 0xA4 => some (.peerwr (arithOf m w))
  | 0xA5 => some (.peerrd (arithOf m w))
  | 0xA6 => some (.peersig (arithOf m w))
  | 0xA7 => some (.rqpop (arithOf m w))
  | 0xA8 => some (.cmdstat (arithOf m w))
  | 0xB0 => some (.mma (arithOf m w))
  | 0xB1 =>
    let a := arithOf m w
    some (if a.sub.toNat % 4 = 1 then .mbeatAcc a else if a.sub.toNat % 4 = 2 then .mbeatShift a
      else if a.sub.toNat % 4 = 3 then .mbeatDrain a else .mbeatPush a)
  | 0xB2 => some (.mscale (arithOf m w))
  | 0xB3 => some (.mloadb (arithOf m w))
  | 0xB4 => some (.mamap (arithOf m w))
  | 0xB5 => some (.mdrain (arithOf m w))
  | 0xB6 => some (.mhad (arithOf m w))
  | 0xB7 => some (.mzero (arithOf m w))
  | 0xB8 => some (.mbmap (arithOf m w))
  | 0xB9 => some (.mretire (arithOf m w))
  | 0xC0 => some (.bkpt (arithOf m w))
  | 0xC1 => some (.pmcfg (arithOf m w))
  | 0xC2 => some (.pmread (arithOf m w))
  | 0xC3 => some (.pmctl (arithOf m w))
  | 0xC4 => some (.trmark (arithOf m w))
  | 0xC5 => some (.lclk (arithOf m w))
  | 0xC6 => some (.watch (arithOf m w))
  | 0xD0 => some (.syssend (arithOf m w))
  | 0xD1 => some (.sysrecv (arithOf m w))
  | 0xD2 => some (.tret (arithOf m w))
  | 0xD3 => some (.icinv (arithOf m w))
  | 0xE0 => some (.sread (arithOf m w))
  | 0xE1 => some (.swrite (arithOf m w))
  | 0xE2 => some (.tlbinv (arithOf m w))
  | 0xE3 => some (.ctxsave (arithOf m w))
  | 0xE4 => some (.ctxload (arithOf m w))
  | 0xE5 => some (.lgdiv (arithOf m w))
  | 0xE6 => some (.errread (arithOf m w))
  | 0xE7 => some (.portreply (arithOf m w))
  | 0xE8 => some (.preempt (arithOf m w))
  | 0xE9 => some (.halt (arithOf m w))
  | _ => none

/-- The opcode byte of an instruction (R38); 0xFF, a reserved opcode, for a device event, which has none. -/
def Instr.opcode : Instr → Nat
  | .nop _ => 0x00
  | .bra _ => 0x01
  | .jmp _ => 0x02
  | .call _ => 0x03
  | .ret _ => 0x04
  | .jmpr _ => 0x05
  | .join _ => 0x06
  | .exit _ => 0x07
  | .regroup _ => 0x08
  | .vote _ => 0x09
  | .bar _ => 0x0A
  | .bararr _ => 0x0B
  | .collapse _ => 0x0C
  | .expand _ => 0x0D
  | .loop _ => 0x0E
  | .endloop _ => 0x0F
  | .evbind _ => 0x10
  | .evunbind _ => 0x11
  | .waitany _ => 0x12
  | .evmask _ => 0x13
  | .evpend _ => 0x14
  | .evclr _ => 0x15
  | .send _ => 0x16
  | .mbread _ => 0x17
  | .region _ => 0x18
  | .sleepuntil _ => 0x19
  | .yield _ => 0x1A
  | .popd _ => 0x1B
  | .pushd _ => 0x1C
  | .nexttile _ => 0x1D
  | .sqpush _ => 0x1E
  | .trap _ => 0x1F
  | .iadd _ => 0x20
  | .isub _ => 0x21
  | .imul _ => 0x22
  | .imulh _ => 0x23
  | .imad _ => 0x24
  | .idiv _ => 0x25
  | .irem _ => 0x26
  | .imin _ => 0x27
  | .imax _ => 0x28
  | .iabs _ => 0x29
  | .ineg _ => 0x2A
  | .icmp _ => 0x2B
  | .popc _ => 0x2C
  | .clz _ => 0x2D
  | .brev _ => 0x2E
  | .ctz _ => 0x2F
  | .and _ => 0x30
  | .or _ => 0x31
  | .xor _ => 0x32
  | .not _ => 0x33
  | .andn _ => 0x34
  | .shl _ => 0x35
  | .shr _ => 0x36
  | .sar _ => 0x37
  | .rotl _ => 0x38
  | .bfx _ => 0x39
  | .bfi _ => 0x3A
  | .lea _ => 0x3B
  | .movi _ => 0x40
  | .movhi _ => 0x41
  | .iaddi _ => 0x42
  | .imuli _ => 0x43
  | .andi _ => 0x44
  | .ori _ => 0x45
  | .xori _ => 0x46
  | .shli _ => 0x47
  | .shri _ => 0x48
  | .sari _ => 0x49
  | .icmpi _ => 0x4A
  | .mov _ => 0x4B
  | .retag _ => 0x4C
  | .sel _ => 0x4D
  | .readsr _ => 0x4E
  | .writesr _ => 0x4F
  | .shfl _ => 0x50
  | .bcast _ => 0x51
  | .scan _ => 0x52
  | .reduce _ => 0x53
  | .compact _ => 0x54
  | .prset _ => 0x55
  | .prtoi _ => 0x56
  | .itopr _ => 0x57
  | .matchLanes _ => 0x58
  | .xmov _ => 0x59
  | .xbcast _ => 0x5A
  | .fadd _ => 0x60
  | .fsub _ => 0x61
  | .fmul _ => 0x62
  | .ffma _ => 0x63
  | .fmin _ => 0x64
  | .fmax _ => 0x65
  | .fdiv _ => 0x66
  | .fsqrt _ => 0x67
  | .frcp _ => 0x68
  | .frsq _ => 0x69
  | .fexp2 _ => 0x6A
  | .flog2 _ => 0x6B
  | .fcmp _ => 0x6C
  | .fclass _ => 0x6D
  | .frnd _ => 0x6E
  | .fdot _ => 0x6F
  | .cvt _ => 0x70
  | .ivmake _ => 0x71
  | .ivlo _ => 0x72
  | .ivhi _ => 0x73
  | .ivmid _ => 0x74
  | .ivwid _ => 0x75
  | .ivhull _ => 0x76
  | .ivisect _ => 0x77
  | .ivsplit _ => 0x78
  | .ivpop _ => 0x79
  | .ivsqr _ => 0x7A
  | .ivabs _ => 0x7B
  | .ivcont _ => 0x7C
  | .fsinpi _ => 0x7D
  | .fcospi _ => 0x7E
  | .qnt _ => 0x7F
  | .ld _ => 0x80
  | .st _ => 0x81
  | .ldp _ => 0x82
  | .stp _ => 0x83
  | .atom _ => 0x84
  | .cas _ => 0x85
  | .amx _ => 0x86
  | .pref _ => 0x87
  | .demote _ => 0x88
  | .fence _ => 0x89
  | .acq _ => 0x8A
  | .rel _ => 0x8B
  | .bind _ => 0x8C
  | .unbind _ => 0x8D
  | .signal _ => 0x8E
  | .swait _ => 0x8F
  | .alloc _ => 0x90
  | .free _ => 0x91
  | .talloc _ => 0x92
  | .tfree _ => 0x93
  | .tinfo _ => 0x94
  | .ldt _ => 0x95
  | .stt _ => 0x96
  | .atomt _ => 0x97
  | .tfill _ => 0x98
  | .pusha _ => 0x99
  | .pushs _ => 0x9A
  | .qstat _ => 0x9B
  | .copy _ => 0xA0
  | .gather _ => 0xA1
  | .scatter _ => 0xA2
  | .coll _ => 0xA3
  | .peerwr _ => 0xA4
  | .peerrd _ => 0xA5
  | .peersig _ => 0xA6
  | .rqpop _ => 0xA7
  | .cmdstat _ => 0xA8
  | .mma _ => 0xB0
  | .mbeatPush _ | .mbeatAcc _ | .mbeatShift _ | .mbeatDrain _ => 0xB1
  | .mscale _ => 0xB2
  | .mloadb _ => 0xB3
  | .mamap _ => 0xB4
  | .mdrain _ => 0xB5
  | .mhad _ => 0xB6
  | .mzero _ => 0xB7
  | .mbmap _ => 0xB8
  | .mretire _ => 0xB9
  | .bkpt _ => 0xC0
  | .pmcfg _ => 0xC1
  | .pmread _ => 0xC2
  | .pmctl _ => 0xC3
  | .trmark _ => 0xC4
  | .lclk _ => 0xC5
  | .watch _ => 0xC6
  | .syssend _ => 0xD0
  | .sysrecv _ => 0xD1
  | .tret _ => 0xD2
  | .icinv _ => 0xD3
  | .sread _ => 0xE0
  | .swrite _ => 0xE1
  | .tlbinv _ => 0xE2
  | .ctxsave _ => 0xE3
  | .ctxload _ => 0xE4
  | .lgdiv _ => 0xE5
  | .errread _ => 0xE6
  | .portreply _ => 0xE7
  | .preempt _ => 0xE8
  | .halt _ => 0xE9
  | .coldStart _ _ _ | .fullService _ _ | .hostLinkReset | .hostRestartComplete | .identify | .patch
  | .partition | .warmstart | .setrect | .ctxresume | .setsys | .blockctlHalt | .blockctlResume
  | .blockctlDiscard | .replay | .commandEnd | .evtailWrite _ | .registerWrite _ _ | .queueEnable _ _ _
  | .qdoorbell _ _ _ | .queueStop _ _ | .queueClearStop _ _ | .queueSkip _ _ | .seqRead _ _ | .seqReread _ _
  | .headWaitSatisfied _ _ | .launchStart _ | .gangPlace _ | .gangPassedOver _ | .stageDeadlockBreak _
  | .coreClearComplete _ | .rangeChunkAnswer _ _ _ | .nexttileAnswer _ _ | .starvationPromote _ _ _
  | .yieldTimeout _ _ _ | .deferredSplitStart _ _ _ | .joinDeadline _ _ _ | .regionCountClose _ _ _
  | .loadAnswer _ _ _ | .l1Fill _ _ | .l2MissFill _ _ | .storeAck _ _ | .sliceAtomic _ _ _ | .sliceAmx _ _ _
  | .guardAcquired _ _ _ | .guardRelease _ _ _ | .swaitResume _ _ _ | .pinRetry _ _ _ | .pinBreak _ _
  | .heapExchangeReturn _ _ _ | .bankPromote _ _ | .l1PortPromote _ _ | .sliceAgePromote _ _
  | .hbmAgePromote _ _ | .hbmRefresh _ | .patrolRead _ _ _ | .pageWalkComplete _ _ | .ifetchFill _ _ _
  | .icinvDevComplete _ _ _ | .tlbinvComplete _ _ _ | .mailboxDeliver _ _ | .timerTokenFire _ _ _
  | .waitanyWake _ _ _ | .sleepWake _ _ _ | .copyComplete _ | .collArrival _ | .peerReceive _ _ _ _ _ _
  | .peerAck _ _ _ _ | .linkFlitReplay _ | .linkDown _ _ | .matrixCommandStart _ | .mloadbComplete _
  | .mscaleEffect _ _ | .drainCommit _ | .trapEntry _ | .forcedSave _ | .handlerWatchdog _ | .blockSave _
  | .preemptionRequest _ | .powerClockReduction _ | .matrixCommandComplete _ | .peerReadRequest _ _ _
  | .peerFlitForward _ _ _ | .peerLinkChange _ _ | .peerConnectionClose _ _ | .hostMemoryRequest _ _ => 0xFF

/-- The word or syllable of an instruction, from the encoding tables of R20 to R30; the fields above the
opcode come from the format the opcode map names. A device event encodes as the undefined opcode alone. -/
def encode (i : Instr) : Nat :=
  i.opcode + match i with
  | .join w | .trap w | .movi w | .movhi w | .iaddi w | .imuli w | .andi w | .ori w | .xori w | .shli w
  | .shri w | .sari w | .icmpi w => putImm w
  | .ld w | .st w | .ldp w | .stp w | .pref w | .demote w | .fence w | .acq w | .rel w => putMem w
  | .atom w | .cas w | .amx w | .signal w | .swait w => putAtom w
  | .bra w | .jmp w | .call w | .collapse w | .expand w => putBranch w
  | .pusha w | .pushs w => putAddr w
  | .evbind (.syl w) => putArith w
  | .evbind (.word g slot kind off joff b19 x) => putEvBind g slot kind off joff b19 x
  | .nop w | .ret w | .jmpr w | .exit w | .regroup w | .vote w | .bar w | .bararr w | .loop w | .endloop w
  | .evunbind w | .waitany w | .evmask w | .evpend w | .evclr w | .send w | .mbread w | .region w
  | .sleepuntil w | .yield w | .popd w | .pushd w | .nexttile w | .sqpush w | .iadd w | .isub w | .imul w
  | .imulh w | .imad w | .idiv w | .irem w | .imin w | .imax w | .iabs w | .ineg w | .icmp w | .popc w
  | .clz w | .brev w | .ctz w | .and w | .or w | .xor w | .not w | .andn w | .shl w | .shr w | .sar w
  | .rotl w | .bfx w | .bfi w | .lea w | .mov w | .retag w | .sel w | .readsr w | .writesr w | .shfl w
  | .bcast w | .scan w | .reduce w | .compact w | .prset w | .prtoi w | .itopr w | .matchLanes w | .xmov w
  | .xbcast w | .fadd w | .fsub w | .fmul w | .ffma w | .fmin w | .fmax w | .fdiv w | .fsqrt w | .frcp w
  | .frsq w | .fexp2 w | .flog2 w | .fcmp w | .fclass w | .frnd w | .fdot w | .cvt w | .ivmake w | .ivlo w
  | .ivhi w | .ivmid w | .ivwid w | .ivhull w | .ivisect w | .ivsplit w | .ivpop w | .ivsqr w | .ivabs w
  | .ivcont w | .fsinpi w | .fcospi w | .qnt w | .bind w | .unbind w | .alloc w | .free w | .talloc w
  | .tfree w | .tinfo w | .ldt w | .stt w | .atomt w | .tfill w | .qstat w | .copy w | .gather w | .scatter w
  | .coll w | .peerwr w | .peerrd w | .peersig w | .rqpop w | .cmdstat w | .mma w | .mbeatPush w | .mbeatAcc w
  | .mbeatShift w | .mbeatDrain w | .mscale w | .mloadb w | .mamap w | .mdrain w | .mhad w | .mzero w
  | .mbmap w | .mretire w | .bkpt w | .pmcfg w | .pmread w | .pmctl w | .trmark w | .lclk w | .watch w
  | .syssend w | .sysrecv w | .tret w | .icinv w | .sread w | .swrite w | .tlbinv w | .ctxsave w | .ctxload w
  | .lgdiv w | .errread w | .portreply w | .preempt w | .halt w => putArith w
  | .coldStart _ _ _ | .fullService _ _ | .hostLinkReset | .hostRestartComplete | .identify | .patch
  | .partition | .warmstart | .setrect | .ctxresume | .setsys | .blockctlHalt | .blockctlResume
  | .blockctlDiscard | .replay | .commandEnd | .evtailWrite _ | .registerWrite _ _ | .queueEnable _ _ _
  | .qdoorbell _ _ _ | .queueStop _ _ | .queueClearStop _ _ | .queueSkip _ _ | .seqRead _ _ | .seqReread _ _
  | .headWaitSatisfied _ _ | .launchStart _ | .gangPlace _ | .gangPassedOver _ | .stageDeadlockBreak _
  | .coreClearComplete _ | .rangeChunkAnswer _ _ _ | .nexttileAnswer _ _ | .starvationPromote _ _ _
  | .yieldTimeout _ _ _ | .deferredSplitStart _ _ _ | .joinDeadline _ _ _ | .regionCountClose _ _ _
  | .loadAnswer _ _ _ | .l1Fill _ _ | .l2MissFill _ _ | .storeAck _ _ | .sliceAtomic _ _ _ | .sliceAmx _ _ _
  | .guardAcquired _ _ _ | .guardRelease _ _ _ | .swaitResume _ _ _ | .pinRetry _ _ _ | .pinBreak _ _
  | .heapExchangeReturn _ _ _ | .bankPromote _ _ | .l1PortPromote _ _ | .sliceAgePromote _ _
  | .hbmAgePromote _ _ | .hbmRefresh _ | .patrolRead _ _ _ | .pageWalkComplete _ _ | .ifetchFill _ _ _
  | .icinvDevComplete _ _ _ | .tlbinvComplete _ _ _ | .mailboxDeliver _ _ | .timerTokenFire _ _ _
  | .waitanyWake _ _ _ | .sleepWake _ _ _ | .copyComplete _ | .collArrival _ | .peerReceive _ _ _ _ _ _
  | .peerAck _ _ _ _ | .linkFlitReplay _ | .linkDown _ _ | .matrixCommandStart _ | .mloadbComplete _
  | .mscaleEffect _ _ | .drainCommit _ | .trapEntry _ | .forcedSave _ | .handlerWatchdog _ | .blockSave _
  | .preemptionRequest _ | .powerClockReduction _ | .matrixCommandComplete _ | .peerReadRequest _ _ _
  | .peerFlitForward _ _ _ | .peerLinkChange _ _ | .peerConnectionClose _ _ | .hostMemoryRequest _ _ => 0

/-- The format a decoded instruction came in fits its mode: syllables in VLIW code, words elsewhere, and a
syllable's fields within a syllable (R29, R30). -/
def Instr.fits (m : Mode) : Instr → Bool
  | .join w | .trap w | .movi w | .movhi w | .iaddi w | .imuli w | .andi w | .ori w | .xori w | .shli w
  | .shri w | .sari w | .icmpi w => w.fits m
  | .ld w | .st w | .ldp w | .stp w | .pref w | .demote w | .fence w | .acq w | .rel w => w.fits m
  | .atom w | .cas w | .amx w | .signal w | .swait w => w.fits m
  | .bra w | .jmp w | .call w | .collapse w | .expand w => w.fits m
  | .pusha w | .pushs w => w.fits && m == .vliw
  | .evbind (.word ..) => m != .vliw
  | .evbind (.syl w) => w.fits m && m == .vliw
  | .nop w | .ret w | .jmpr w | .exit w | .regroup w | .vote w | .bar w | .bararr w | .loop w | .endloop w
  | .evunbind w | .waitany w | .evmask w | .evpend w | .evclr w | .send w | .mbread w | .region w
  | .sleepuntil w | .yield w | .popd w | .pushd w | .nexttile w | .sqpush w | .iadd w | .isub w | .imul w
  | .imulh w | .imad w | .idiv w | .irem w | .imin w | .imax w | .iabs w | .ineg w | .icmp w | .popc w
  | .clz w | .brev w | .ctz w | .and w | .or w | .xor w | .not w | .andn w | .shl w | .shr w | .sar w
  | .rotl w | .bfx w | .bfi w | .lea w | .mov w | .retag w | .sel w | .readsr w | .writesr w | .shfl w
  | .bcast w | .scan w | .reduce w | .compact w | .prset w | .prtoi w | .itopr w | .matchLanes w | .xmov w
  | .xbcast w | .fadd w | .fsub w | .fmul w | .ffma w | .fmin w | .fmax w | .fdiv w | .fsqrt w | .frcp w
  | .frsq w | .fexp2 w | .flog2 w | .fcmp w | .fclass w | .frnd w | .fdot w | .cvt w | .ivmake w | .ivlo w
  | .ivhi w | .ivmid w | .ivwid w | .ivhull w | .ivisect w | .ivsplit w | .ivpop w | .ivsqr w | .ivabs w
  | .ivcont w | .fsinpi w | .fcospi w | .qnt w | .bind w | .unbind w | .alloc w | .free w | .talloc w
  | .tfree w | .tinfo w | .ldt w | .stt w | .atomt w | .tfill w | .qstat w | .copy w | .gather w | .scatter w
  | .coll w | .peerwr w | .peerrd w | .peersig w | .rqpop w | .cmdstat w | .mma w | .mbeatPush w | .mbeatAcc w
  | .mbeatShift w | .mbeatDrain w | .mscale w | .mloadb w | .mamap w | .mdrain w | .mhad w | .mzero w
  | .mbmap w | .mretire w | .bkpt w | .pmcfg w | .pmread w | .pmctl w | .trmark w | .lclk w | .watch w
  | .syssend w | .sysrecv w | .tret w | .icinv w | .sread w | .swrite w | .tlbinv w | .ctxsave w | .ctxload w
  | .lgdiv w | .errread w | .portreply w | .preempt w | .halt w => w.fits m
  | .coldStart _ _ _ | .fullService _ _ | .hostLinkReset | .hostRestartComplete | .identify | .patch
  | .partition | .warmstart | .setrect | .ctxresume | .setsys | .blockctlHalt | .blockctlResume
  | .blockctlDiscard | .replay | .commandEnd | .evtailWrite _ | .registerWrite _ _ | .queueEnable _ _ _
  | .qdoorbell _ _ _ | .queueStop _ _ | .queueClearStop _ _ | .queueSkip _ _ | .seqRead _ _ | .seqReread _ _
  | .headWaitSatisfied _ _ | .launchStart _ | .gangPlace _ | .gangPassedOver _ | .stageDeadlockBreak _
  | .coreClearComplete _ | .rangeChunkAnswer _ _ _ | .nexttileAnswer _ _ | .starvationPromote _ _ _
  | .yieldTimeout _ _ _ | .deferredSplitStart _ _ _ | .joinDeadline _ _ _ | .regionCountClose _ _ _
  | .loadAnswer _ _ _ | .l1Fill _ _ | .l2MissFill _ _ | .storeAck _ _ | .sliceAtomic _ _ _ | .sliceAmx _ _ _
  | .guardAcquired _ _ _ | .guardRelease _ _ _ | .swaitResume _ _ _ | .pinRetry _ _ _ | .pinBreak _ _
  | .heapExchangeReturn _ _ _ | .bankPromote _ _ | .l1PortPromote _ _ | .sliceAgePromote _ _
  | .hbmAgePromote _ _ | .hbmRefresh _ | .patrolRead _ _ _ | .pageWalkComplete _ _ | .ifetchFill _ _ _
  | .icinvDevComplete _ _ _ | .tlbinvComplete _ _ _ | .mailboxDeliver _ _ | .timerTokenFire _ _ _
  | .waitanyWake _ _ _ | .sleepWake _ _ _ | .copyComplete _ | .collArrival _ | .peerReceive _ _ _ _ _ _
  | .peerAck _ _ _ _ | .linkFlitReplay _ | .linkDown _ _ | .matrixCommandStart _ | .mloadbComplete _
  | .mscaleEffect _ _ | .drainCommit _ | .trapEntry _ | .forcedSave _ | .handlerWatchdog _ | .blockSave _
  | .preemptionRequest _ | .powerClockReduction _ | .matrixCommandComplete _ | .peerReadRequest _ _ _
  | .peerFlitForward _ _ _ | .peerLinkChange _ _ | .peerConnectionClose _ _ | .hostMemoryRequest _ _ => false

/-- The decoder (R43): step 3, a reserved opcode; step 4, the mode; then, where no SUB, kind or condition is
undefined (step 5), the zero columns of the format (step 6). The rest of steps 5 to 10 is `Instr.check`, which
every meaning applies. -/
def decode (m : Mode) (w : Word) : Except Cause Instr :=
  match parse m w.toNat with
  | none => .error .illegalOp
  | some i =>
    if !i.allowed m then .error .wrongMode
    else if !zeroColumns m w.toNat then
      .error (if i.check { mode := m } == some .illegalOp then .illegalOp else .reservedBits)
    else .ok i

/-- The word that an instruction encodes to. -/
def encodeWord (i : Instr) : Word := .ofNat 64 (encode i)

/-- The mode in which the model places an opcode that it is asked to run alone: a warp where the opcode is
marked S, else the front end, else a VLIW context, else privileged single-lane mode (R38). -/
def homeMode (w : Nat) : Mode :=
  match parse .warp w with
  | none => .warp
  | some i =>
    if i.allowed .warp then .warp else if i.allowed .front then .front else if i.allowed .vliw then .vliw else .priv

/-- The instruction that the decoder reads from a table word: 8 bytes, little-endian (R18), the bits above
nbits zero, in the opcode's home mode, where it passes every check of R43. -/
def decodeTableWord (nbits w : Nat) : Option Instr :=
  let v := w % 2 ^ nbits % 2 ^ 64
  let m := homeMode v
  match decode m (.ofNat 64 v) with
  | .error _ => none
  | .ok i => if (i.check { mode := m }).isSome then none else some i

end Sys2Proof
end

