-- ==== Sys2Proof/Config.lean ====
section
/-! DEFINITION. What the implementation fixes and what the manual leaves open: the fixed figures of the
module (R1, R45) and the free values, which are opaque constants that no proof can evaluate. -/

namespace Sys2Proof.Config

/-- 192 cores, 48 per die, 8 per cell (R1). -/
abbrev numCores : Nat := 192

/-- 24 cells, 6 per die (R1). -/
abbrev numCells : Nat := 24

/-- Four compute dies (R1). -/
abbrev numDies : Nat := 4

/-- First physical address beyond device memory (R238: device memory occupies 0 to 0xBF_FFFF_FFFF). -/
abbrev deviceTop : Nat := 0xC000000000

/-- Where the model numbers host physical addresses: host address h is byte 2^52 + h of the one memory
list, above every output address of a page-table entry (R238: 52 bits). -/
abbrev hostBase : Nat := 0x10000000000000

/-- The device hash that IDENTIFY returns and launch records carry (R377): the first 8 bytes, read
little-endian (R5), of SHA-256 over the code-identity string. (DEDUCED, log 61: unsafe.) -/
abbrev deviceHash : BitVec 64 := 0xC86CB92464B12C76#64

/-- FREE VALUE (DESIGN CHOICE, log 1): how many cycles beyond one the n-th step takes. -/
opaque extraCycles : Nat → Nat

/-- FREE VALUE (DESIGN CHOICE, log 30): how many lines beyond its 3 MiB a slice of L2 holds compressed in a cycle (R1: up to as many
again). -/
opaque compressedLines : Nat → Nat → Nat

/-- FREE VALUE (DESIGN CHOICE, log 2): which of several agents that could move next moves, when the agenda names none. -/
opaque choose : Nat → Nat

/-- FREE VALUE (DESIGN CHOICE, log 1): whether the sources of the next instruction of a split, numbered 65,536 · core + 256 · unit +
split, have completed at the n-th step (R307: the latencies of R314 are not modelled). -/
opaque sourcesReady : Nat → Nat → Bool

/-- FREE VALUE (DESIGN CHOICE, log 13): whether an engine's write of the byte at this address landed before the fault
that stopped its command (R328: which bytes those writes cover is not promised). -/
opaque faultedByteLanded : Nat → Nat → Bool

/-- FREE VALUE (DESIGN CHOICE, log 14): whether firmware's check of a patch block's signature succeeds (R371: the fused
public key is not in the manual). -/
opaque patchSignatureHolds : List (BitVec 8) → Bool

/-- FREE VALUE (DESIGN CHOICE, log 14): the ROM version that a patch block must name (R371). -/
opaque romVersion : BitVec 32

/-- FREE VALUE (DESIGN CHOICE, log 10): bytes of a save slot whose layout the manual does not give (R229). -/
opaque slotByte : Nat → Nat → BitVec 8

/-- FREE VALUE (DESIGN CHOICE, log 17): how the 64-bit digest of a block takes in a branch outcome or a trap cause (R388). -/
opaque digest : BitVec 64 → BitVec 64 → BitVec 64

/-- FREE VALUE (DESIGN CHOICE, log 19): a column sum of a vector whose format is not the one its weight set was loaded with. -/
opaque mixedSum : Nat → Nat → BitVec 32

/-- FREE VALUE (DESIGN CHOICE, log 18): the step in (x, y) to the device at the far end of a peer port (R373: learned at start). -/
opaque portFar : Nat → Int × Int

/-- FREE VALUE (DESIGN CHOICE, log 18): the Lamport stamp that a message of another device carries, by the step that receives it (R383). -/
opaque peerStamp : Nat → BitVec 48

/-- FREE VALUE (DESIGN CHOICE, log 11): bytes of trace packets and samples that the manual does not fix: the lane group, the cycles waited. -/
opaque traceByte : Nat → Nat → BitVec 8

/-- FREE VALUE (DESIGN CHOICE, log 12): what a running counter, numbered 4 · core + counter, has added for an event to which
the manual gives no meaning (R387), by the step that looks at it. -/
opaque unnamedCount : Nat → Nat → BitVec 64

/-- FREE VALUE (DESIGN CHOICE, log 66): which stacks a warm start trains among those that reduced service had not trained
(R370). -/
opaque lateStacks : Nat → BitVec 12

/-- FREE VALUE (DESIGN CHOICE, log 66): which stacks fail a warm start's check of their stored values and the training that follows
(R370). -/
opaque lostStacks : Nat → BitVec 12

/-- FREE VALUE (DESIGN CHOICE, log 21): a byte of memory written in reduced service, by the cycle of the move to full service and its
address (R369: such contents are not kept). -/
opaque lostByte : Nat → Nat → BitVec 8

end Sys2Proof.Config
end

