-- ==== Sys2Proof/Machine/State.lean ====
section
/-! DEFINITION. The state of the machine as plain data: the units of a core, blocks, cores, launches,
instances and the module, with the state right after reset; and the reasons a step can stop. -/

namespace Sys2Proof.Machine

open Host (Cell)

/-- Why the machine stops outside the traps the manual describes. -/
inductive Fault where
  /-- Raised by an instruction of Instr when the place it names holds no unit that could issue it: no such
  instruction issues on the hardware. Safe. -/
  | noUnit
  /-- Raised by an access to a physical address that R238 says does not exist (device addresses at or above
  0xC0_0000_0000), a table walk included. Safe. -/
  | noMemory
  /-- Raised by a device event that names a core, cell, die, queue, instance of the device or unit number
  that the module does not have. Safe. -/
  | badPlace
  deriving DecidableEq, Repr

/-- Why the model refuses an instruction. -/
inductive Refusal where
  /-- Raised by Dispatch for an instruction that has no meaning in the model, by its mnemonic. Safe. -/
  | notModelled (mnemonic : String)
  deriving DecidableEq, Repr

/-- A register: its 64 bits, its tag (R35) and its dirty bit (R230). -/
structure Reg where
  v : Word := 0
  tag : Ty := .und
  dirty : Bool := true
  deriving DecidableEq, Repr

/-- One lane of a warp, one cluster of a context, or the one lane of the front end and handler: its
registers, predicates p0 to p6 (p7 reads T, R67) and nesting counter (R70). -/
structure Lane where
  regs : List Reg := []
  preds : List Pred := List.replicate 7 .f
  nest : Nat := 0
  deriving DecidableEq, Repr

/-- What a parked split or stalled unit waits for (R71, R100). -/
inductive WaitKind where
  | barrier | guard | signal | decision | decisionFull | stageFull | sleep | event | yield | partner
  | context | warpSlot | load | fill | engine | queueFull | reply | slice | pinned | invalidate | tile
  | handler | release | mail | nextTile | array | late
  deriving DecidableEq, Repr

/-- One lane's request to a home slice: the physical address, the VA that named it, B and C. -/
structure SliceItem where
  lane : Nat
  pa : Nat
  va : Word := 0
  b : Word := 0
  c : Word := 0
  /-- the 32 contributions of an AMX block (R358) -/
  parts : List Word := []
  deriving DecidableEq, Repr

/-- A request that a home slice performs (R183, R359): operation, type and lanes in order. -/
structure SliceReq where
  op : Nat
  t : Ty := .b64
  sub : Nat := 0
  items : List SliceItem := []
  /-- the Lamport stamp of a SIGNAL (R383) -/
  stamp : Nat := 0
  deriving DecidableEq, Repr

/-- Where an access falls: bytes of physical memory, of the tile memory of a core, or of its B store, whose
slice j begins at byte 196,608·j (R148, R198, R206). -/
inductive Place where
  | phys (pa : Nat)
  | tile (core : Nat) (addr : Nat)
  | bst (core : Nat) (addr : Nat)
  deriving DecidableEq, Repr

/-- One lane's part of a store. -/
structure StoreItem where
  lane : Nat
  place : Place
  bytes : List Byte
  deriving DecidableEq, Repr

/-- A store instruction held in a pail (R148). -/
structure HeldStore where
  items : List StoreItem
  ch : BitVec 2 := 0
  /-- the number of the pair in a context's push order; 0 in a warp (R103) -/
  pair : Nat := 0
  /-- the PC of the store and what names each of its requests, for the samples of R385 -/
  pc : Word := 0
  names : List Word := []
  deriving DecidableEq, Repr

/-- A wait: its kind, the cycle it began, and numbers whose meaning the kind gives (a barrier's id,
generation and count, a wake cycle, an address). -/
structure Wait where
  kind : WaitKind
  since : Nat := 0
  a : Nat := 0
  b : Nat := 0
  n : Nat := 0
  /-- an event has completed the part that another agent performs; the retry finds its result in `res` -/
  done : Bool := false
  res : List Word := []
  req : Option SliceReq := none
  /-- the registers that a waiting load took at its issue, by lane (R74) -/
  vals : List (Nat × List Reg) := []
  /-- the cycle in which the instruction that waits first issued (R66, R74) -/
  first : Nat := 0
  /-- an access that has not been performed: its spans of memory, address and bytes, and what the pail held as it issued (R74) -/
  spans : List (Nat × Nat) := []
  pail : List HeldStore := []
  deriving DecidableEq, Repr

/-- A split of a warp (R69): its lanes, PC, region entry PC (R216), wait, whether it waits at a join, and
what the issue rule needs (R92, R306). A context, the front end and the handler have exactly one. -/
structure Split where
  mask : Mask
  pc : Word
  rpc : Word
  waits : List Wait := []
  joined : Bool := false
  /-- cycle of the last issue, and since when the split is ready -/
  last : Nat := 0
  ready : Nat := 0
  /-- risen to priority class 2 (R306) -/
  promoted : Bool := false
  /-- it has issued since its region entry: it does not stand there (R216, R225) -/
  moved : Bool := false
  /-- the instruction at which it waits has ended the region already (R100, R148) -/
  closed : Bool := false
  deriving DecidableEq, Repr

/-- A divergence-stack entry (R69). -/
structure DivEntry where
  dpc : Word
  dmask : Mask
  jpc : Word
  owed : Mask
  arrived : Mask := 0
  /-- lanes that left the join on its deadline (R79): they still count for the order of R72 -/
  left : Mask := 0
  started : Bool := false
  detached : Bool := false
  deadline : Option Nat := none
  /-- the flag predicate that its JOIN names, once a split waits there (R79) -/
  flag : Option Nat := none
  deriving DecidableEq, Repr

/-- An address pushed by PUSHA or PUSHS (R114). -/
inductive PushAddr where
  | va (a : Word)
  | elem (h : Nat) (row col : Int)
  deriving DecidableEq, Repr

/-- A load entry's answer (R102): not yet there, the loaded register, or a fault with INFO1 and INFO2. -/
inductive LoadAnswer where
  | pending
  | data (r : Reg)
  | fault (c : Cause) (info1 info2 : Word)
  deriving DecidableEq, Repr

/-- An entry of the load queue (R101, R102, R106). -/
structure LoadEntry where
  addr : PushAddr
  t : Ty
  /-- how many PUSHS of the context precede the PUSHA (R104) -/
  after : Nat
  /-- the address of the PUSHA's bundle, for the samples of R385 -/
  pc : Word := 0
  ans : LoadAnswer := .pending
  popped : Bool := false
  deriving DecidableEq, Repr

/-- An unpaired store address (R103). -/
structure StoreAddr where
  addr : PushAddr
  t : Ty
  pc : Word := 0
  deriving DecidableEq, Repr

/-- The queue checkpoint of R106: numbers of entries since the context began. -/
structure QueueMark where
  pop : Nat := 0
  push : Nat := 0
  addrs : Nat := 0
  datas : Nat := 0
  pairs : Nat := 0
  deriving DecidableEq, Repr

/-- The access queues of a context (R101): the load entries held, oldest first, with the number of the
first; unpaired addresses and data; push counts; pairs completed since the checkpoint; the checkpoint. -/
structure AccessQueues where
  loads : List LoadEntry := []
  base : Nat := 0
  addrs : List StoreAddr := []
  datas : List Reg := []
  nAddrs : Nat := 0
  nDatas : Nat := 0
  nPairs : Nat := 0
  since : List (StoreAddr × Reg) := []
  mark : QueueMark := {}
  deriving DecidableEq, Repr

/-- A loop-stack entry (R109). -/
structure LoopEntry where
  start : Word
  count : Nat
  base : Nat := 0
  deriving DecidableEq, Repr

/-- The token kinds of an event slot (R317). -/
inductive Token where
  | barrier | signal | mbox | timer | copy
  deriving DecidableEq, Repr

/-- A bound event slot (R317). -/
structure EventSlot where
  kind : Token
  /-- number of the barrier, mailbox or copy tag, or the signal's VA -/
  num : Word := 0
  handler : Word
  thresh : Word := 0
  /-- the physical address of a signal (R321) -/
  gen : Nat := 0
  /-- the signal's value when it was last looked at -/
  seen : Word := 0
  /-- a timer that has fired -/
  fired : Bool := false
  /-- of the copy commands whose firings are pending: the lines that they wrote, the widest scope of their releases (0 none) and the
  greatest of their stamps (R167, R318, R383) -/
  lines : List Nat := []
  scope : Nat := 0
  stamp : Nat := 0
  deriving DecidableEq, Repr

/-- A service request of a context (R117, R243). -/
structure Service where
  port : Nat
  a : Word
  b : Word
  /-- none while unanswered; `some none` refused -/
  reply : Option (Option Word) := none
  deriving DecidableEq, Repr

/-- A trap frame (R219). -/
structure Frame where
  cause : Cause
  kind : Nat := 0
  unit : Nat := 0
  slot : Nat := 0xFF
  rk : Nat := 0
  pc : Word := 0
  rpc : Word := 0
  rcnt : Word := 0
  resume : Word := 0
  mask : Mask := 0
  info1 : Word := 0
  info2 : Word := 0
  cmdpc : Word := 0
  cmdseq : Word := 0
  /-- its place in the save slot was pinned when it was to be written (R159) -/
  unwritten : Bool := false
  deriving DecidableEq, Repr

/-- The four kinds of programmed unit (R45, R218). -/
inductive UnitKind where
  | warp | context | front | handler
  deriving DecidableEq, Repr

/-- The decoder mode of a unit (R39). -/
def UnitKind.mode : UnitKind → Mode
  | .warp => .warp
  | .context => .vliw
  | .front => .front
  | .handler => .priv

/-- A programmed unit: a warp, a VLIW context, the front end or the handler. -/
structure ProgUnit where
  kind : UnitKind
  lanes : List Lane
  splits : List Split
  /-- newest entry first -/
  div : List DivEntry := []
  /-- newest address first -/
  rets : List Word := []
  /-- oldest store first -/
  pail : List HeldStore := []
  rcnt : Word := 0
  /-- instructions issued since the region entry (R150) -/
  since : Nat := 0
  evp : BitVec 8 := 0
  evm : BitVec 8 := 0
  fpctl : BitVec 5 := 0
  fpflags : BitVec 5 := 0
  slots : List (Option EventSlot) := List.replicate 8 none
  /-- decision-queue read position; none for a unit that reads none (R57) -/
  dqPos : Option Nat := none
  den : Nat := 0
  /-- bytes of code issued (R308) -/
  fox : Nat := 0
  quarter : Nat := 0
  qlanes : Nat := 32
  /-- the cycle in which the unit last issued, a new warp's being its start (R306) -/
  issued : Nat := 0
  /-- stopped with a trap that waits for, or is in, the handler (R218); the frame as the device wrote it -/
  trap : Option Frame := none
  /-- which split trapped -/
  trapSplit : Nat := 0
  /-- asynchronous traps recorded against the unit, and whether it has taken one at this region entry (R224) -/
  asyncs : List Frame := []
  asyncHere : Bool := false
  /-- clusters of a context (R110) -/
  k : Nat := 0
  q : AccessQueues := {}
  /-- copy, matrix and collective result queues (R108) -/
  results : List (List Reg) := [[], [], []]
  /-- newest entry first -/
  loops : List LoopEntry := []
  svc : Option Service := none
  /-- row-edge scale latches E8M0 of the context and their value at the region entry (R347, R349) -/
  latch : List Byte := List.replicate 16 127
  latchEntry : List Byte := List.replicate 16 127
  /-- MSCALE values not yet in effect: the issue count at which they take effect, and the latches (R348) -/
  pending : List (Nat × List Byte) := []
  /-- bundles issued by the context, its matrix syllables, and their count at the region entry (R348, R350) -/
  issues : Nat := 0
  beats : Nat := 0
  beatsEntry : Nat := 0
  /-- matrix syllables still suppressed on a rerun (R350) -/
  suppress : Nat := 0
  /-- NEXTTILE answers of a context in flight, each with the cycle it lands (R305) -/
  nextTile : List (Word × Nat) := []
  /-- request marks of the arbitration rules (R204, R309 to R311): bank, L1 port, slice, HBM -/
  aged : List Bool := [false, false, false, false]
  /-- single-step: stop after one more instruction (R386) -/
  stepped : Bool := false
  deriving DecidableEq, Repr

/-- A barrier: generation, count of its first arrival, arrived units (R89 to R91). -/
structure Barrier where
  gen : Nat := 0
  count : Option Nat := none
  arrived : List (Nat × Nat) := []
  /-- the greatest Lamport stamp of an arrival (R383) -/
  stamp : Nat := 0
  deriving DecidableEq, Repr

/-- An entry of the binding table (R154). -/
structure Binding where
  guard : Word
  base : Word
  len : Word
  deriving DecidableEq, Repr

/-- Levels of a tile handle (R199). -/
inductive Level where
  | block | cell | bstore | acc
  deriving DecidableEq, Repr

/-- A tile-table entry (R199). -/
structure TileEntry where
  level : Level
  layout : BitVec 2
  t : Ty
  rows : Nat
  cols : Nat
  pitch : Nat
  base : Nat
  /-- BIDX of the owning block -/
  owner : Nat
  deriving DecidableEq, Repr

/-- The engines that take commands (R327). -/
inductive Engine where
  | copy | matrix | coll | peer
  deriving DecidableEq, Repr

/-- State of a command (R334). -/
inductive CmdState where
  | waiting | running | done | faulted
  deriving DecidableEq, Repr

/-- An engine command (R327): its sequence number, issuing unit and PC, the word, and the operand values
read at issue. -/
structure Cmd where
  seq : Nat
  unit : Nat
  pc : Word
  engine : Engine
  op : Nat
  w : ArithWord
  ops : List Word := []
  /-- handles named, in the order of the entry -/
  handles : List TileEntry := []
  tag : Option Nat := none
  promise : Nat := 0
  state : CmdState := .waiting
  /-- Lamport stamp of its release (R383) -/
  stamp : Nat := 0
  /-- lines of global memory that it wrote (R167) -/
  lines : List Nat := []
  /-- its unit has retired -/
  orphan : Bool := false
  deriving DecidableEq, Repr

/-- What a bundle sends, made when it closes: after its receives, and after its MBREADs (R338, R389): a message with the
frame of its EVENT_OVERRUN, a signal's change, an arrival at a barrier. -/
inductive Later where
  | send (dest box : Nat) (value : Word) (far : Bool) (full : Frame)
  | signal (pa : Nat) (value : Word)
  | barrier (id : Nat)
  deriving DecidableEq, Repr

/-- A request to stop a block (R227): its save cause, and the state it is saved in (R229): 2 saved, 3 halted, 0 where it
is discarded instead (R368). `held` marks a save that waits for CTXRESUME (R375). -/
structure StopReq where
  cause : Cause
  state : Nat
  held : Bool := false
  deriving DecidableEq, Repr

/-- A block on a core, or saved (R45). -/
structure Block where
  inst : Nat
  launch : Nat
  index : Nat
  gidx : Nat
  bidx : Nat
  stage : Nat
  /-- the number of its gang in its launch: a stage may have several gangs of one index (R49) -/
  gang : Nat := 0
  vgroups : Nat
  /-- units 0 to 20, and 21 the handler while it runs -/
  units : List (Option ProgUnit)
  dq : List Word := []
  dqBase : Nat := 0
  feStarted : Bool := false
  feExited : Bool := false
  /-- barriers 0 to 15 -/
  bars : List Barrier := List.replicate 16 {}
  binds : List (Option Binding) := List.replicate 32 none
  /-- physical addresses of the guards that the block holds exclusively (R155, R157) -/
  held : List Nat := []
  tiles : List (Option TileEntry) := List.replicate 64 none
  seq : Nat := 0
  /-- the last 256 commands, newest first (R334) -/
  cmds : List Cmd := []
  /-- operand map: handle, column, type (R343) -/
  map : Option (Nat × Nat × Ty) := none
  /-- MAMAPs and MBMAPs of warps and the front end, and commands, in the matrix command queue (R342, R343) -/
  mqueue : List Cmd := []
  /-- bitmap handles while intersection skipping is on (R351) -/
  bitmaps : Option (Nat × Nat) := none
  /-- the context that runs on the VLIW side (R59) and the fox (R308) -/
  ctxNow : Nat := 0
  fox : Option Nat := none
  stop : Option StopReq := none
  gen : Nat := 0
  /-- the register image of the last checkpoint: units, lanes and registers in their order (R229, R230) -/
  image : List (Nat × Nat × Nat) := []
  /-- units as CTXSAVE or a save last wrote them to the slot, for the parts whose layout there is open (R229, R241) -/
  records : List (Nat × ProgUnit) := []
  digest : Word := 0
  deriving DecidableEq, Repr

/-- A line held by an L1 (R145, R178). -/
structure L1Line where
  addr : Nat
  data : List Byte
  prio : BitVec 2 := 0
  poisoned : List Nat := []
  /-- a load of the core has read a later value of the line at its home slice (R145) -/
  stale : Bool := false
  deriving DecidableEq, Repr

/-- A line of an instruction cache (R233, R236). -/
structure CodeLine where
  addr : Nat
  data : List Byte
  poisoned : Bool := false
  deriving DecidableEq, Repr

/-- A translation held by a TLB (R240): the page's first VA, its size in bytes, output base and permissions. -/
structure TlbEntry where
  va : Nat
  size : Nat
  pa : Nat
  host : Bool := false
  /-- where its leaf stands in memory (R375) -/
  slot : Nat := 0
  rd : Bool := false
  wr : Bool := false
  ex : Bool := false
  deriving DecidableEq, Repr

/-- A pinned guard line (R158 to R162). -/
structure Pin where
  line : Nat
  unit : Nat
  guardVa : Word
  pa : Nat := 0
  refusedAt : Option Nat := none
  deriving DecidableEq, Repr

/-- A watchpoint (R386). -/
structure Watchpoint where
  va : Word := 0
  ctl : Word := 0
  deriving DecidableEq, Repr

/-- A counter (R387). -/
structure Counter where
  event : Nat := 0
  count : Word := 0
  running : Bool := false
  deriving DecidableEq, Repr

/-- The running handler (R220, R221). -/
structure Handler where
  unit : Nat
  cause : Nat
  svc : Bool := false
  fs : Bool := false
  m : Bool := true
  start : Nat := 0
  replied : Bool := false
  /-- the context whose request it serves has exited: its reply is discarded (R117) -/
  gone : Bool := false
  frameVa : Word := 0
  /-- the frame that it handles, as the device wrote it -/
  frame : Frame
  deriving DecidableEq, Repr

/-- A vector in flight in the array (R340, R346): the beat at which it entered, its weight set, whether it replaces, the
accumulator row, and the column sums that it will land. -/
structure Vec where
  at0 : Nat
  set : Nat
  replace : Bool
  row : Nat
  /-- 128 columns, or for LG6 the 128 columns of row ρ and then those of row ρ + 1 (R341) -/
  sums : List Word
  deriving DecidableEq, Repr

/-- A drained row on its way to tile memory (R354). -/
structure Drained where
  due : Nat
  items : List StoreItem
  deriving DecidableEq, Repr

/-- The matrix array of a core (R339, R340, R347). (DEDUCED, log 8: unsafe.) -/
structure MatArray where
  /-- two weight sets: for each column the values of its PEs from row 0 down, 0 where unlisted -/
  weights : List (List (List Nat)) := [[], []]
  /-- the format of each set; none while it holds zeros that no MLOADB loaded -/
  wtype : List (Option Ty) := [none, none]
  /-- the first value index K0 of each set, and in sparse mode the B-store handle that MLOADB recorded (R351) -/
  wbase : List Nat := [0, 0]
  wsparse : List (Option TileEntry) := [none, none]
  /-- column-edge latches of each set: for each column 16 codes, 127 where unlisted -/
  clatch : List (List (List Nat)) := [[], []]
  vecs : List Vec := []
  drained : List Drained := []
  /-- beats that the array has received -/
  beat : Nat := 0
  /-- the contexts with an open reduction (R342) -/
  opened : List Nat := []
  /-- sequence number of the queue's command that runs -/
  running : Option Nat := none
  deriving DecidableEq, Repr

/-- A store committed by a unit of a core and still travelling to its home slice (R146, R186). -/
structure Travel where
  pa : Nat
  unit : Nat := 0
  bytes : List Byte
  ch : BitVec 2 := 0
  deriving DecidableEq, Repr

/-- A message in a mailbox (R325): its value, whether it came from another core (so that the SEND acted at cell
scope), and its Lamport stamp (R383). -/
structure Msg where
  value : Word
  far : Bool := false
  stamp : Nat := 0
  deriving DecidableEq, Repr

/-- A message travelling to a mailbox (R325): the core, the mailbox, and the unit and split of the sender. -/
structure Mail where
  dest : Nat
  box : Nat
  unit : Nat
  split : Nat
  msg : Msg
  deriving DecidableEq, Repr

/-- A core (R45, R52). -/
structure Core where
  on : Bool := true
  groups : BitVec 8 := 0xFF
  clearing : Bool := false
  clearDue : Nat := 0
  blk : Option Block := none
  l1 : List L1Line := []
  /-- lines requested and not yet filled, each with its hint (R173) -/
  fills : List (Nat × BitVec 2) := []
  icache : List CodeLine := []
  tlb : List TlbEntry := []
  travel : List Travel := []
  tile : List Cell := []
  /-- poisoned pairs of tile words, by the byte address of the first (R328) -/
  tilePoison : List Nat := []
  bst : List Cell := []
  acc : List Cell := []
  /-- dirty 4 KiB granules of that storage, numbered by their place in the save slot (R229, R230) -/
  granules : List Nat := []
  mail : List (List Msg) := List.replicate 64 []
  sent : List Mail := []
  pins : List Pin := []
  lclk : Nat := 0
  /-- Lamport clocks of the copy engine and the matrix engine (R383) -/
  elclk : List Nat := [0, 0]
  ctrs : List Counter := List.replicate 4 {}
  watch : List Watchpoint := List.replicate 4 {}
  discarded : Nat := 0
  /-- global and tile requests since sampling last took one (R385) -/
  requests : Nat := 0
  hbank : List Reg := List.replicate 64 { v := 0, tag := .b64 }
  hnd : Option Handler := none
  /-- frames of traps and service requests that wait for the handler, in trap order (R218) -/
  trapQ : List Frame := []
  arr : MatArray := {}
  horizon : Nat := 0
  deriving DecidableEq, Repr

/-- A free tile range of a core or cell is what no tile-table entry covers; a cell keeps its TLB (R240). -/
structure CellState where
  tlb : List TlbEntry := []
  deriving DecidableEq, Repr

/-- A die: its error log and overflow mark (R244). -/
structure Die where
  log : List (Word × Word) := []
  overflow : Bool := false
  /-- Lamport clocks of the collective engine and the peer port (R383) -/
  elclk : List Nat := [0, 0]
  deriving DecidableEq, Repr

/-- The fields of a launch record (R377), by the names of R16. -/
structure LaunchRec where
  ident : Word := 0
  code : Word := 0
  wEntry : Nat := 0
  fEntry : Nat := 0
  vEntry : Nat := 0
  flags : Nat := 0
  gx : Nat := 1
  gy : Nat := 1
  gz : Nat := 1
  gang : Nat := 1
  warps : Nat := 0
  width : Nat := 32
  regs : Nat := 16
  vgroups : Nat := 0
  vclusters : Nat := 0
  tileKiB : Nat := 0
  prio : Nat := 0
  stages : Nat := 1
  depth : Nat := 0
  arg : Word := 0
  signal : Word := 0
  stageTab : Word := 0
  trapArea : Word := 0
  heap : Word := 0
  heapSize : Word := 0
  /-- range total, minimum chunk, tile shape (R304, R305) -/
  range : Nat := 0
  chunk : Nat := 0
  shape : Nat := 0
  hash : Word := 0
  raw : List Byte := []
  deriving DecidableEq, Repr

/-- A stage of a pipeline launch (R48) and its input queue. (DEDUCED, log 40: unsafe.) -/
structure Stage where
  cap : Nat := 0
  succ : BitVec 8 := 0
  qva : Word := 0
  /-- records pushed so far, or taken in at the start: the place of the next in the buffer (R48, R336) -/
  pushed : Nat := 0
  /-- each time that gangs of the stage have been passed over (R301): the first GIDX of stage 0, or the first record, that did not
  stand in the dispatcher's order -/
  passes : List Nat := []
  recs : List (List Word × Nat) := []
  deriving DecidableEq, Repr

/-- A gang of a launch, from its placing to its last block's retirement: on its cores, or saved (R47, R64, R301). -/
structure Gang where
  gidx : Nat
  /-- its number in its launch -/
  id : Nat := 0
  stage : Nat := 0
  /-- how often it has been passed over while it waited to be restored (R301) -/
  passed : Nat := 0
  /-- linear indices of its blocks that have retired -/
  retired : List Nat := []
  /-- barriers 16 to 31 -/
  bars : List Barrier := List.replicate 16 {}
  /-- the stage whose gang must be placed first (R303) -/
  behind : Option Nat := none
  deriving DecidableEq, Repr

/-- A saved block (R229): state 2 saved or 3 halted, its cause, the cycle, the block, and the core's items that travel with
it beside memory: mailboxes, counters, Lamport clock, the frames that wait, and a forced save's handler and bank. -/
structure Saved where
  state : Nat
  cause : Cause
  blk : Block
  cyc : Nat := 0
  held : Bool := false
  mail : List (List Msg) := []
  ctrs : List Counter := []
  lclk : Nat := 0
  trapQ : List Frame := []
  hnd : Option Handler := none
  hbank : List Reg := []
  deriving DecidableEq, Repr

/-- The heap of a launch in one cell: free blocks and allocated blocks that it owns, each an address with its size
class 4 to 20 (R192). -/
structure HeapCell where
  free : List (Nat × Nat) := []
  used : List (Nat × Nat) := []
  deriving DecidableEq, Repr

/-- A tile dispenser's window of indices of a launch in one cell (R304, R305). -/
structure Dispenser where
  cell : Nat
  lo : Nat := 0
  hi : Nat := 0
  /-- units waiting: core, unit -/
  waiting : List (Nat × Nat) := []
  deriving DecidableEq, Repr

/-- A launch in progress or complete (R45 to R63). -/
structure Launch where
  rcd : LaunchRec
  queue : Nat := 0
  order : Nat := 0
  stages : List Stage := []
  /-- next GIDX of stage 0 to release -/
  nextG : Nat := 0
  gangs : List Gang := []
  /-- gangs placed so far: the number of the next -/
  nGangs : Nat := 0
  /-- linear indices retired but not yet reported, and the count reported (R63) -/
  retired : List Nat := []
  reported : Nat := 0
  saved : List Saved := []
  /-- tile indices handed out by the range unit (R304) -/
  range : Nat := 0
  disp : List Dispenser := []
  heaps : List (Nat × HeapCell) := []
  /-- heap blocks on the exchange: owning cell, address, size class (R194) -/
  exchange : List (Nat × Nat × Nat) := []
  complete : Bool := false
  started : Nat := 0
  /-- its index in its queue -/
  index : Nat := 0
  /-- discarded: none of its blocks is placed any more (R368) -/
  abandoned : Bool := false
  /-- kernel replay (R388): digests of the first pass by stage and block, the passes begun after it, the completion
  signal's first value, the physical pages saved in this pass, and whether the pass is flagged -/
  digests : List (Nat × Nat × Word) := []
  pass : Nat := 0
  sig0 : Word := 0
  pages : List Nat := []
  flagged : Bool := false
  /-- a later launch of its queue has started: REPLAY does not take it any more (R388) -/
  later : Bool := false
  deriving DecidableEq, Repr

/-- A launch queue (R294 to R299). -/
structure Queue where
  qbase : Word := 0
  qseq : Word := 0
  qcva : Word := 0
  doorbell : Nat := 0
  consumed : Nat := 0
  irq : Bool := false
  en : Bool := false
  pri : Nat := 0
  logs : Nat := 0
  slot : BitVec 32 := 0
  stop : Bool := false
  code : BitVec 8 := 0
  /-- the head: header and record once SEQ matched; whether its wait is satisfied -/
  head : Option (List Byte × List Byte) := none
  satisfied : Bool := false
  /-- cycle of the next SEQ read -/
  reread : Nat := 0
  copyFault : Bool := false
  /-- a pinned line refused the last copy to QCVA: it is tried again (R159) -/
  owed : Bool := false
  deriving DecidableEq, Repr

/-- An instance of the device (R4, R372). -/
structure Inst where
  queues : List Queue := List.replicate 64 {}
  /-- the queue last chosen, and the cycles from which the dispatcher may start and place again (R300, R301) -/
  lastQ : Nat := 63
  nextStart : Nat := 0
  nextPlace : Nat := 0
  launches : List Launch := []
  nStarted : Nat := 0
  trapbase : Word := 0
  troot : Word := 0
  svcen : Word := 0
  dbgctl : Word := 0
  trbase : Word := 0
  /-- packets of this step that are still to be written to the trace ring, and the next byte of the ring (R382) -/
  trace : List (List Byte) := []
  trpos : Nat := 0
  /-- outcomes of uniform branches that no packet holds yet, oldest first, by 32 · core + unit (R382) -/
  branches : List (Nat × List Bool) := []
  /-- launches that completed, kept for REPLAY (R388) -/
  completed : List Launch := []
  deriving DecidableEq, Repr

/-- The management registers and what firmware keeps (R365 to R375). -/
structure Dev where
  err : BitVec 8 := 0
  dies : BitVec 4 := 0
  hbm : BitVec 12 := 0
  rst : Bool := false
  warm : Bool := false
  part : BitVec 2 := 0
  level : BitVec 2 := 0
  cmd : BitVec 8 := 0
  go : Bool := false
  result : BitVec 8 := 0
  fwarg0 : Word := 0
  fwarg1 : Word := 0
  fwres : Word := 0
  evbase : Word := 0
  evhead : Nat := 0
  evtail : Nat := 0
  lost : Nat := 0
  /-- records that a pinned line of the ring has refused, oldest first (R159) -/
  unsent : List (List Byte) := []
  msix : List Nat := []
  /-- the result of the running command, once firmware has it -/
  cmdDone : Option (BitVec 8) := none
  x : Nat := 0
  y : Nat := 0
  rectW : Nat := 1
  rectH : Nat := 1
  hostGone : Bool := false
  patched : Bool := false
  slowClock : Bool := false
  /-- where the page tables find the device's register space (DESIGN CHOICE, log 6) -/
  regWin : Option Nat := some Config.deviceTop
  deriving DecidableEq, Repr

/-- A line of an L2 slice: its priority and dirty bit (R178, R395). -/
structure L2Line where
  line : Nat
  prio : BitVec 2 := 0
  dirty : Bool := false
  /-- the instance by whose count a host line finds its slice (R394) -/
  ins : Nat := 0
  deriving DecidableEq, Repr

/-- A collective in progress at a die's engine (R331). -/
structure Coll where
  inst : Nat
  launch : Nat
  id : Word
  /-- contributors in arrival order: core and command -/
  parts : List (Nat × Cmd) := []
  /-- the combination so far -/
  acc : List Word := []
  deriving DecidableEq, Repr

/-- A peer port (R373). -/
structure Port where
  up : Bool := false
  flits : List (List Byte) := []
  replays : Nat := 0
  deriving DecidableEq, Repr

/-- A message that has left for a peer (R332). -/
structure PeerMsg where
  die : Nat
  core : Nat
  seq : Nat
  words : List Word
  payload : List Byte
  deriving DecidableEq, Repr

/-- Who moves next: a unit's split issues, with its memory requests answered in the same step or not
(`slow`), or a device event happens (DESIGN CHOICE, log 2). -/
inductive Turn where
  | issue (core unit split : Nat) (slow : Bool)
  | happen (i : Instr)
  deriving DecidableEq, Repr

/-- The unit that issues. -/
structure Cur where
  core : Nat := 0
  unit : Nat := 0
  split : Nat := 0
  deriving DecidableEq, Repr

/-- A bundle whose syllables are executing: the context and block as they stood before it (all reads),
its address and the address after it, the lowest faulting slot, the waits, a trap after it, a branch target
and the slot of the syllable at hand (R31, R107). -/
structure Bundle where
  pre : ProgUnit
  addr : Word
  next : Word
  fault : Option Frame := none
  /-- the region end of the faulting syllable stays made (R149) -/
  committed : Bool := false
  waits : List Wait := []
  after : Option Frame := none
  target : Option Word := none
  slot : Nat := 0
  /-- a syllable ended the region: the next bundle is the region entry; the slot that ended it -/
  ended : Bool := false
  endSlot : Nat := 0
  /-- the operand map, the bitmaps and the next sequence number before the bundle (R343, R345) -/
  preMap : Option (Nat × Nat × Ty) := none
  preBits : Option (Nat × Nat) := none
  preSeq : Nat := 0
  /-- the core's counters before the bundle (R389) -/
  preCtrs : List Counter := []
  /-- the core's Lamport clock before the bundle (R31, R133) -/
  preLclk : Nat := 0
  /-- the commands of the block and how many messages each mailbox held before the bundle (R31, R392) -/
  preCmds : List Cmd := []
  preMail : List Nat := []
  /-- the words of global memory that the bundle has changed at their home slices, as they stood before it (R31, R392) -/
  preWords : List (Nat × Word) := []
  /-- the slots of the context in which a token has fired in this cycle, and those bound or freed in it (R338) -/
  fired : BitVec 8 := 0
  rebound : BitVec 8 := 0
  /-- what the bundle sends at its close, in slot order (R338, R389) -/
  later : List Later := []
  /-- the waits of the BARs that have arrived in this bundle (R100) -/
  arrivals : List Wait := []
  /-- load entries that the bundle's selected cluster operations pop (R107) -/
  pops : Nat := 0
  /-- the number of the warp that the context becomes by EXPAND (R111) -/
  became : Option Nat := none
  /-- a held store would commit before an older load that still waits: the bundle waits (R104) -/
  late : Bool := false
  /-- its REGION is an entry at which the context takes a trap or stops (R224, R225): the bundle does not issue yet -/
  stays : Bool := false
  /-- REGION made this bundle the region entry -/
  entered : Bool := false
  /-- the region closes before the bundle, which then issues again (R105, R150) -/
  again : Bool := false
  deriving DecidableEq, Repr

/-- The machine. -/
structure State where
  cyc : Nat := 0
  mem : List Cell := []
  poison : List Nat := []
  stamps : List (Nat × Nat) := []
  /-- the lines that the L2 slices hold, the most recently used first (R178, R395) -/
  l2 : List L2Line := []
  dev : Dev := {}
  insts : List Inst := List.replicate 4 {}
  cells : List CellState := List.replicate Config.numCells {}
  dies : List Die := List.replicate Config.numDies {}
  cores : List Core := List.replicate Config.numCores {}
  colls : List Coll := []
  ports : List Port := List.replicate 16 {}
  closed : List (Int × Int) := []
  peerOut : List PeerMsg := []
  agenda : List Turn := []
  cur : Cur := {}
  bundle : Option Bundle := none
  slow : Bool := false
  fresh : Nat := 0
  /-- leaves of host pages that a host warm restart has marked gone and that have not been written since (R375) -/
  gone : List Nat := []
  deriving DecidableEq, Repr

/-- The machine right after reset: every register at the value its rule or its log entry gives. (DESIGN CHOICE, log 4: unsafe.) (DESIGN CHOICE, log 5: unsafe.) (DESIGN CHOICE, log 7: unsafe.) -/
def State.reset : State := {}

end Sys2Proof.Machine
end

