-- ==== Sys2Proof/Machine/Mem.lean ====
section
/-! DEFINITION. Memory: the canonical cell list, places of cores and units in the state, translation (R237 to
R240), home slices with poison (R144, R181, R395), L1 copies (R145, R178), committed stores on their way
(R146) and pins (R158 to R162). -/

namespace Sys2Proof.Machine

open Host (Cell)

/-! ## The canonical cell list -/

/-- The byte at an address: an unlisted address reads 0 (DESIGN CHOICE, log 3). -/
def cellGet : List Cell → Nat → Byte
  | [], _ => 0
  | (a, b) :: m, x => if x = a then b else cellGet m x

/-- The list with one byte written; a written 0 removes the entry. -/
def cellSet : List Cell → Nat → Byte → List Cell
  | [], x, v => if v = 0 then [] else [(x, v)]
  | (a, b) :: m, x, v =>
    if x < a then (if v = 0 then (a, b) :: m else (x, v) :: (a, b) :: m)
    else if x = a then (if v = 0 then m else (x, v) :: m)
    else (a, b) :: cellSet m x v

/-- The canonical form: addresses strictly rising and no entry equal to 0. -/
def Memory.wf : List Cell → Bool
  | [] => true
  | [(_, b)] => b != 0
  | (a, b) :: (a', b') :: m => b != 0 && decide (a < a') && Memory.wf ((a', b') :: m)

/-- n bytes from an address up. -/
def cellRead (m : List Cell) (a : Nat) : Nat → List Byte
  | 0 => []
  | n + 1 => cellGet m a :: cellRead m (a + 1) n

/-- Bytes written from an address up. -/
def cellWrite (m : List Cell) (a : Nat) : List Byte → List Cell
  | [] => m
  | b :: bs => cellWrite (cellSet m a b) (a + 1) bs

/-- The list without the bytes in [lo, hi). -/
def cellClear (m : List Cell) (lo hi : Nat) : List Cell := m.filter fun c => c.1 < lo || hi ≤ c.1

/-! ## Places in the state -/

/-- Core c of the module. -/
def State.core (s : State) (c : Nat) : Core := s.cores[c]?.getD {}

/-- The state with core c replaced. -/
def State.setCore (s : State) (c : Nat) (k : Core) : State := { s with cores := s.cores.set c k }

/-- The block that core c holds. -/
def State.blk (s : State) (c : Nat) : Option Block := (s.core c).blk

/-- The state with the block of core c replaced. -/
def State.setBlk (s : State) (c : Nat) (b : Block) : State := s.setCore c { s.core c with blk := some b }

/-- Unit u of a block. -/
def Block.unit (b : Block) (u : Nat) : Option ProgUnit := b.units[u]?.join

/-- The block with unit u replaced. -/
def Block.setUnit (b : Block) (u : Nat) (p : ProgUnit) : Block := { b with units := b.units.set u (some p) }

/-- Unit u of core c. -/
def State.unit (s : State) (c u : Nat) : Option ProgUnit := (s.blk c).bind (·.unit u)

/-- The state with unit u of core c replaced, where the core holds a block. -/
def State.setUnit (s : State) (c u : Nat) (p : ProgUnit) : State :=
  match s.blk c with
  | none => s
  | some b => s.setBlk c (b.setUnit u p)

/-- The state with unit u of core c changed by f, where there is one. -/
def State.modUnit (s : State) (c u : Nat) (f : ProgUnit → ProgUnit) : State :=
  match s.unit c u with
  | none => s
  | some p => s.setUnit c u (f p)

/-- The state with the block of core c changed by f, where it holds one. -/
def State.modBlk (s : State) (c : Nat) (f : Block → Block) : State :=
  match s.blk c with
  | none => s
  | some b => s.setBlk c (f b)

/-- The state with core c changed by f. -/
def State.modCore (s : State) (c : Nat) (f : Core → Core) : State := s.setCore c (f (s.core c))

/-- Instance i of the device. -/
def State.inst (s : State) (i : Nat) : Inst := s.insts[i]?.getD {}

/-- The state with instance i changed by f. -/
def State.modInst (s : State) (i : Nat) (f : Inst → Inst) : State := { s with insts := s.insts.set i (f (s.inst i)) }

/-- The launch numbered n of instance i. -/
def State.launch (s : State) (i n : Nat) : Option Launch := (s.inst i).launches.find? (·.order == n)

/-- The state with launch n of instance i changed by f. -/
def State.modLaunch (s : State) (i n : Nat) (f : Launch → Launch) : State :=
  s.modInst i fun k => { k with launches := k.launches.map fun l => if l.order == n then f l else l }

/-- The launch record of a block. -/
def State.rcd (s : State) (b : Block) : LaunchRec := ((s.launch b.inst b.launch).map (·.rcd)).getD {}

/-- Whether two blocks belong to one gang of one launch (R47, R49). -/
def Block.mates (b o : Block) : Bool := o.inst == b.inst && o.launch == b.launch && o.gang == b.gang

/-- The cores that hold the blocks of a block's gang (R205). -/
def State.gangCores (s : State) (b : Block) : List Nat :=
  (List.range s.cores.length).filter fun k => ((s.blk k).map b.mates).getD false

/-- Gang g of launch n of instance i changed by f, where it is in progress. -/
def State.modGang (s : State) (i n g : Nat) (f : Gang → Gang) : State :=
  s.modLaunch i n fun l => { l with gangs := l.gangs.map fun x => if x.id == g then f x else x }

/-- The gang of a block. -/
def State.gangOf (s : State) (b : Block) : Option Gang := (s.launch b.inst b.launch).bind fun l => l.gangs.find? (·.id == b.gang)

/-- The cell of a core: cores of a cell are numbered consecutively (R47). -/
def cellOf (c : Nat) : Nat := c / 8

/-- The die of a core (R1). -/
def dieOf (c : Nat) : Nat := c / 48

/-- The instance that a core belongs to: the whole module, or its die's partition (R4, R372). -/
def State.instOf (s : State) (c : Nat) : Nat := if s.dev.part = 0 then 0 else dieOf c

/-- The cores of an instance. -/
def State.coresOf (s : State) (i : Nat) : List Nat :=
  (List.range Config.numCores).filter fun c => s.instOf c = i

/-- Events counted by a core's running counters (R387). -/
def State.count (s : State) (c ev n : Nat) : State :=
  s.modCore c fun k => { k with ctrs := k.ctrs.map fun t =>
    if t.running && t.event == ev then { t with count := t.count + .ofNat 64 n } else t }

/-! ## Lamport clocks and trace -/

/-- A send advances the core's Lamport clock (R383). -/
def State.tickSend (s : State) (c : Nat) : State := s.modCore c fun k => { k with lclk := (k.lclk + 1) % 2 ^ 48 }

/-- A receive takes the greater of the clock and the stamp, plus one (R383). -/
def State.tickRecv (s : State) (c stamp : Nat) : State :=
  s.modCore c fun k => { k with lclk := (max k.lclk stamp + 1) % 2 ^ 48 }

/-- The two-level name of a place in a block's run (R380): the PC and number of its last engine command. -/
def Block.name (b : Block) : Word × Word :=
  match b.cmds.head? with
  | some k => (k.pc, .ofNat 64 k.seq)
  | none => (0, 0xFFFFFFFFFFFFFFFF)

/-- The two-level name at a core (R380). -/
def State.nameAt (s : State) (c : Nat) : Word × Word := ((s.blk c).map Block.name).getD (0, 0xFFFFFFFFFFFFFFFF)

/-- The first byte of a packet of core c: the type, and a lane group that the manual does not name (DESIGN CHOICE, log 11). -/
def State.packetHead (s : State) (c ty : Nat) : Byte := .ofNat 8 (ty * 16 + (Config.traceByte s.cyc c).toNat % 8)

/-- Words of a packet, 8 bytes each (DESIGN CHOICE, log 11). -/
def wordBytes (ws : List Word) : List Byte := ws.flatMap fun w => leBytes 8 w.toNat

/-- The 16 bytes of a mask as words (R382). -/
def maskWords (m : Mask) : List Word := [m.setWidth 64, (m >>> 64).setWidth 64]

/-- Where a record of unit u of core c stands (R380): the two-level name, and for a warp or context the unit and its PC. -/
def State.placeBytes (s : State) (c u : Nat) (pc : Word) : List Byte :=
  wordBytes [(s.nameAt c).1, (s.nameAt c).2] ++ (if u < 20 then wordBytes [.ofNat 64 u, pc] else [])

/-- A packet of a unit (R382): the type, its payload, where it stands (R380), and the stamp of the core's clock (R384). -/
def State.putPacket (s : State) (c u : Nat) (pc : Word) (ty : Nat) (body : List Byte) : State :=
  let bytes := s.packetHead c ty :: body ++ s.placeBytes c u pc ++ leBytes 6 (s.core c).lclk
  s.modInst (s.instOf c) fun k => { k with trace := k.trace ++ [bytes] }

/-- Whether trace is on at a core (R381). -/
def State.tracing (s : State) (c : Nat) : Bool := (s.inst (s.instOf c)).dbgctl.getLsbD 2

/-- The outcomes of uniform branches of a unit that no packet holds yet. -/
def State.branchesOf (s : State) (c u : Nat) : List Bool := ((s.inst (s.instOf c)).branches.lookup (32 * c + u)).getD []

/-- The outcomes that a unit's next branch map will hold. -/
def State.setBranches (s : State) (c u : Nat) (l : List Bool) : State :=
  s.modInst (s.instOf c) fun k => { k with
    branches := (if l.isEmpty then [] else [(32 * c + u, l)]) ++ k.branches.filter (·.1 != 32 * c + u) }

/-- The branch map of a unit, up to 31 outcomes with their count, written out (R382). -/
def State.flushMap (s : State) (c u : Nat) (pc : Word) : State :=
  match s.branchesOf c u with
  | [] => s
  | l =>
    let bits := l.foldr (fun b n => 2 * n + (if b then 1 else 0)) 0
    (s.putPacket c u pc 1 (wordBytes [.ofNat 64 bits, .ofNat 64 l.length])).setBranches c u []

/-- A trace packet, with TREN = 1 (R382); a branch map that is open comes before it (DESIGN CHOICE, log 11). -/
def State.trace (s : State) (c u : Nat) (pc : Word) (ty : Nat) (ws : List Word) : State :=
  if s.tracing c then (s.flushMap c u pc).putPacket c u pc ty (if ty = 9 then (wordBytes ws).take 4 else wordBytes ws) else s

/-- A uniform branch of a unit enters its branch map, with TREN = 1 (R382). -/
def State.branched (s : State) (c u : Nat) (pc : Word) (taken : Bool) : State :=
  if s.tracing c then
    let l := s.branchesOf c u ++ [taken]
    let s1 := s.setBranches c u l
    if 31 ≤ l.length then s1.flushMap c u pc else s1
  else s

/-- A request of a core counts toward sampling (R385): with SMPEN = 1 one in every 2^SP leaves a record of 64 bytes as it completes,
the cycles waited being open (DESIGN CHOICE, log 11). -/
def State.sample (s : State) (c unit : Nat) (pc : Word) (info : Word) : State :=
  let i := s.instOf c
  let dbg := (s.inst i).dbgctl
  if !dbg.getLsbD 3 then s
  else
    let n := (s.core c).requests + 1
    if n < 2 ^ (dbg.toNat / 2 ^ 8 % 2 ^ 8) then s.modCore c fun k => { k with requests := n }
    else
      let bytes := s.packetHead c 0xB :: leBytes 1 unit ++ leBytes 6 (s.core c).lclk ++ leBytes 8 pc.toNat
        ++ wordBytes [(s.nameAt c).1, (s.nameAt c).2] ++ ((List.range 16).map fun k => Config.traceByte s.cyc (1000 + k))
        ++ leBytes 8 info.toNat ++ leBytes 8 0
      (s.modCore c fun k => { k with requests := 0 }).modInst i fun k => { k with trace := k.trace ++ [bytes] }

/-- The requests of an instruction at a PC, each with what names it. -/
def State.samples (s : State) (c unit : Nat) (pc : Word) (names : List Word) : State := names.foldl (State.sample · c unit pc) s

/-! ## Translation -/

/-- What an access does to a page (R239). -/
inductive Access where
  | load | store | fetch
  deriving DecidableEq, Repr

/-- Why an access cannot be made: a cause, a retry response of a pinned line (R159), or an address that
does not exist. -/
inductive MemErr where
  | cause (c : Cause)
  | pinned (core : Nat) (line : Nat)
  | fault (f : Fault)
  deriving DecidableEq, Repr

/-- The canonical form of a VA: bits [63:55] copy bit 54 (R171, R237). -/
def canonical (va : Word) : Bool := (va.setWidth 55).signExtend 64 == va

/-- Whether a physical address exists: device memory, or host memory above `hostBase` (R238). -/
def paExists (pa : Nat) : Bool := pa < Config.deviceTop || Config.hostBase ≤ pa

/-- Whether a word of memory is poisoned (R181). -/
def State.poisonedAt (s : State) (pa : Nat) : Bool := s.poison.contains (pa / 8 * 8)

/-- Whether a physical address is served while the module gives reduced service (R369): by stack 0 of die 0 alone. -/
def State.served (s : State) (pa : Nat) : Bool := s.dev.level != 1 || decide (pa < 0x1000000000) || decide (Config.hostBase ≤ pa)

/-- Whether any byte of [pa, pa + n) reads as poisoned at its home slice (R181, R369). -/
def State.poisonedIn (s : State) (pa n : Nat) : Bool :=
  !s.served pa || s.poison.any fun w => w < pa + n && pa < w + 8

/-! ## Bytes of tile memory -/

/-- Bytes that a run of tile memory is numbered in: above it stands how the row of a run is laid over the banks. -/
abbrev tileSpan : Nat := 2 ^ 24

/-- The bank of word w of row i in a layout (R202). -/
def bankOf (layout : BitVec 2) (w i : Nat) : Nat :=
  match layout.toNat with
  | 0 => w % 64
  | 1 => w % 64 ^^^ i % 64
  | _ => (w + i) % 64

/-- How the row of a run is laid over the banks, as runs carry it: 0 linear, else the layout and the row modulo 64 (R202). -/
def rowLay (layout : BitVec 2) (i : Nat) : Nat := if layout = 0 then 0 else layout.toNat * 64 + i % 64

/-- The byte of tile memory, 4·(64·slot + bank) and the byte in its word, at an address of a run (R201, R202). -/
def tileByte (a : Nat) : Nat :=
  let z := a / tileSpan
  let l := a % tileSpan
  if z = 0 then a else 4 * (l / 256 * 64 + bankOf (.ofNat 2 (z / 64)) (l / 4) (z % 64)) + l % 4

/-- n bytes of tile memory from an address of a run up. -/
def tileRead (m : List Cell) (a n : Nat) : List Byte := (List.range n).map fun j => cellGet m (tileByte (a + j))

/-- Bytes of tile memory written from an address of a run up. -/
def tileWrite (m : List Cell) (a : Nat) : List Byte → List Cell
  | [] => m
  | b :: bs => tileWrite (cellSet m (tileByte a) b) (a + 1) bs

/-- Which byte of a run of n bytes lies at a byte of tile memory. -/
def runByte (a n x : Nat) : Option Nat :=
  if a < tileSpan then (if a ≤ x ∧ x < a + n then some (x - a) else none)
  else (List.range n).find? fun j => tileByte (a + j) == x

/-- Whether any byte of a run of n bytes of a core's tile memory is poisoned: poison lies on aligned pairs of words (R328). -/
def Core.tilePoisoned (k : Core) (a n : Nat) : Bool :=
  k.tilePoison.any fun w => (List.range 8).any fun j => (runByte a n (w + j)).isSome

/-- Poison of tile memory after a write of a run: a pair written whole is clean. -/
def tileClean (p : List Nat) (a n : Nat) : List Nat := p.filter fun w => !(List.range 8).all fun j => (runByte a n (w + j)).isSome

/-- The core that pins the line of an address, other than c (R159). -/
def State.pinHolder (s : State) (c pa : Nat) : Option Nat :=
  (List.range s.cores.length).find? fun k =>
    k != c && ((s.core k).pins.any fun p => p.line == pa / 128 * 128)

/-- One page-table entry read at its home slice for core `who`: a line that another core pins refuses the walk (R159), and
poison is a WALK_ERROR. -/
def State.pte (s : State) (who pa : Nat) : Except MemErr Nat :=
  match s.pinHolder who pa with
  | some k => .error (.pinned k (pa / 128 * 128))
  | none => if s.poisonedIn pa 8 then .error (.cause .walkError) else .ok (leNat (cellRead s.mem pa 8))

/-- A leaf's translation (R238). -/
def leafEntry (e lvl va : Nat) : TlbEntry :=
  let size := 2 ^ (16 + 13 * (2 - lvl))
  let host := bits e 5 5 == 1
  { va := va / size * size, size := size,
    pa := (if host then Config.hostBase else 0) + bits e 51 16 * 2 ^ 16
    host := host, rd := bits e 2 2 == 1, wr := bits e 3 3 == 1, ex := bits e 4 4 == 1 }

/-- The faults of one entry at a level (R238): absent, malformed, a leaf, or the next table. -/
def walkEntry (e lvl va : Nat) : Except Cause (Nat ⊕ TlbEntry) :=
  if bits e 0 0 = 0 then .error .pageAbsent
  else if bits e 63 52 ≠ 0 ∨ bits e 15 6 ≠ 0 then .error .walkError
  else if bits e 1 1 = 1 then
    if lvl = 0 ∧ bits e 41 16 ≠ 0 ∨ lvl = 1 ∧ bits e 28 16 ≠ 0 then .error .walkError
    else .ok (.inr (leafEntry e lvl va))
  else if lvl = 2 ∨ bits e 5 2 ≠ 0 then .error .walkError
  else .ok (.inl (bits e 51 16 * 2 ^ 16))

/-- The address of the entry of a table that a walk reads at a level (R237). -/
def walkSlot (va lvl table : Nat) : Nat := table + 8 * (va / 2 ^ (42 - 13 * lvl) % 8192)

/-- The walk from a table at a level, `fuel` levels deep (R237), for core `who`; va is its low 55 bits. -/
def State.walkFrom (s : State) (who va : Nat) : Nat → Nat → Nat → Except MemErr TlbEntry
  | 0, _, _ => .error (.cause .walkError)
  | fuel + 1, lvl, table =>
    let slot := walkSlot va lvl table
    if !paExists slot then .error (.fault .noMemory)
    else match s.pte who slot with
      | .error e => .error e
      | .ok e =>
        match walkEntry e lvl va with
        | .error c => .error (.cause c)
        | .ok (.inr t) => .ok { t with slot := slot }
        | .ok (.inl next) => s.walkFrom who va fuel (lvl + 1) next

/-- The walk of a VA from the instance's TROOT (R220, R237), for core `who`; a number that is no core's walks for the device. -/
def State.walk (s : State) (i : Nat) (va : Word) (who : Nat := Config.numCores) : Except MemErr TlbEntry :=
  if !canonical va then .error (.cause .pageAbsent)
  else s.walkFrom who (va.toNat % 2 ^ 55) 3 0 (s.inst i).troot.toNat

/-- The addresses that a walk from a table at a level reads. -/
def State.walkSlots (s : State) (va : Nat) : Nat → Nat → Nat → List Nat
  | 0, _, _ => []
  | fuel + 1, lvl, table =>
    let slot := walkSlot va lvl table
    if !paExists slot then []
    else slot :: (match walkEntry (leNat (cellRead s.mem slot 8)) lvl va with
      | .ok (.inl next) => s.walkSlots va fuel (lvl + 1) next
      | _ => [])

/-- Whether a TLB entry maps a VA. -/
def TlbEntry.maps (e : TlbEntry) (va : Word) : Bool :=
  let a := va.toNat % 2 ^ 55
  decide (e.va ≤ a) && decide (a < e.va + e.size)

/-- The translation of a VA for a core: its TLB, its cell's TLB, else a walk (R240). -/
def State.findPage (s : State) (c : Nat) (va : Word) : Except MemErr TlbEntry :=
  if !canonical va then .error (.cause .pageAbsent)
  else match (s.core c).tlb.find? (·.maps va) with
    | some e => .ok e
    | none =>
      match ((s.cells[cellOf c]?.getD {}).tlb).find? (·.maps va) with
      | some e => .ok e
      | none => s.walk (s.instOf c) va c

/-- The offset of a physical address in the device's register space, where the page tables map it (R294, log 6). -/
def State.window (s : State) (pa : Nat) : Option Nat :=
  match s.dev.regWin with
  | some w => if w ≤ pa ∧ pa < w + 0x1000000 then some (pa - w) else none
  | none => none

/-- A launch-queue register as it reads (R294 to R296). -/
def Queue.regWord (q : Queue) (r : Nat) : Word :=
  match r with
  | 0x00 => q.qbase
  | 0x08 => q.qseq
  | 0x10 => .ofNat 64 ((if q.irq then 2 ^ 16 else 0) + (if q.en then 2 ^ 15 else 0) + q.pri * 2 ^ 8 + q.logs)
  | 0x18 => q.qcva
  | 0x20 => .ofNat 64 q.doorbell
  | 0x28 => .ofNat 64 q.consumed
  | 0x30 => .ofNat 64 (q.slot.toNat * 2 ^ 16 + (if q.stop then 2 ^ 8 else 0) + q.code.toNat)
  | _ => 0

/-- DEVSTAT (R365). -/
def Dev.stat (d : Dev) : Word :=
  .ofNat 64 (d.err.toNat * 2 ^ 24 + d.dies.toNat * 2 ^ 20 + d.hbm.toNat * 2 ^ 8 + (if d.rst then 2 ^ 7 else 0)
    + (if d.warm then 2 ^ 6 else 0) + d.part.toNat * 2 ^ 4 + d.level.toNat)

/-- A register of the device's register space as it reads (R294, R365, R372). -/
def State.regWord (s : State) (off : Nat) : Word :=
  let d := s.dev
  if 0x100000 ≤ off then
    (((s.inst ((off - 0x100000) / 0x1000)).queues[(off - 0x100000) % 0x1000 / 0x40]?).getD {}).regWord (off % 0x40)
  else match off with
    | 0x00 => d.stat
    | 0x08 => .ofNat 64 (d.cmd.toNat + (if d.go then 2 ^ 8 else 0) + d.result.toNat * 2 ^ 16)
    | 0x10 => d.fwarg0
    | 0x18 => d.fwarg1
    | 0x20 => d.fwres
    | 0x28 => d.evbase
    | 0x30 => .ofNat 64 d.evhead
    | 0x38 => .ofNat 64 d.evtail
    | _ => 0

/-- n bytes of the register space, an access lying in one register. -/
def State.regBytes (s : State) (off n : Nat) : List Byte :=
  ((leBytes 8 (s.regWord (off / 8 * 8)).toNat).drop (off % 8)).take n

/-- The permission and host checks of a translation (R239, items 3 and 4): a page marked gone does not translate until it is mapped
anew and CTXRESUME has cleared the mark (R375). -/
def State.permit (s : State) (e : TlbEntry) (k : Access) (va : Word) : Except MemErr Nat :=
  if e.host && (s.dev.hostGone || s.gone.contains e.slot) then .error (.cause .hostGone)
  else if !(match k with | .load => e.rd | .store => e.wr | .fetch => e.ex) then .error (.cause .pageProtect)
  else
    let pa := e.pa + (va.toNat % 2 ^ 55 - e.va)
    if paExists pa || (s.window pa).isSome then .ok pa
    else .error (.fault .noMemory)

/-- The physical address of an access by a core (R239). -/
def State.translate (s : State) (c : Nat) (k : Access) (va : Word) : Except MemErr Nat :=
  match s.findPage c va with
  | .error e => .error e
  | .ok e => s.permit e k va

/-- A TLB list with an entry made most recent, of a capacity. -/
def tlbTouch (cap : Nat) (l : List TlbEntry) (e : TlbEntry) : List TlbEntry := (e :: l.filter (· != e)).take cap

/-- The 8-way cell TLB with an entry made most recent in its set (R240). Which bits choose the set and which entry a full set gives
up are open: the model takes the page number modulo 512, and the entry used longest ago. (DESIGN CHOICE, log 98: unsafe.) -/
def cellTlbTouch (l : List TlbEntry) (e : TlbEntry) : List TlbEntry :=
  let set : TlbEntry → Nat := fun t => t.va / t.size % 512
  let others := l.filter (· != e)
  let same := (others.filter (set · == set e)).take 7
  e :: (same ++ others.filter (set · != set e))

/-! ## Home slices -/

/-- Priority of a line after an access with a hint (R178): absent, then present. -/
def hintFill (ch : BitVec 2) : BitVec 2 := if ch = 3 then 1 else ch

/-- Priority of a present line after an access with a hint (R178). -/
def hintHit (ch prio : BitVec 2) : BitVec 2 :=
  if prio = 2 then 2 else if ch = 1 then 1 else if ch = 2 then 2 else prio

/-- The victim of a set held in order of use, the latest first (R178): the least recently used of the lowest priority class
present, evict-first before normal before evict-last. -/
def pickVictim (prio : α → BitVec 2) (set : List α) : Option α :=
  ((set.filter (prio · == 1)).getLast?).orElse fun _ => ((set.filter (prio · == 0)).getLast?).orElse fun _ => set.getLast?

/-- The instance by whose count a line finds its home slice (R394): only a host line of a partitioned module depends on it. -/
def State.homeIns (s : State) (pa ins : Nat) : Nat := if s.dev.part = 0 || decide (pa < Config.hostBase) then 0 else ins

/-- The pseudo-channels that serve an address for an instance, ascending (R394): those of trained stacks, in a partitioned
module those of the instance's die alone, in reduced service those of stack 0 of die 0. -/
def State.channels (s : State) (pa : Nat) (ins : Nat := 0) : List Nat :=
  let die := if pa < Config.hostBase then pa / 0x3000000000 else ins
  (List.range 768).filter fun q => s.dev.hbm.getLsbD (q / 64) && (s.dev.level != 1 || decide (q < 64))
    && (s.dev.part = 0 || q / 192 == die)

/-- The pseudo-channel of a physical address (R394). -/
def State.channelOf (s : State) (pa : Nat) (ins : Nat := 0) : Nat :=
  let n := pa % 2 ^ 52 / 128
  let h := n ^^^ (n >>> 13) ^^^ (n >>> 26) ^^^ (n >>> 39)
  let cs := s.channels pa ins
  cs[h % cs.length]?.getD 0

/-- The die that an address's home slice stands on (R394). -/
def State.homeDie (s : State) (pa : Nat) (ins : Nat := 0) : Nat := s.channelOf pa ins / 192

/-- The home slice of an address, numbered 32 · die + slice (R1, R394). -/
def State.homeSlice (s : State) (pa : Nat) (ins : Nat := 0) : Nat :=
  32 * s.homeDie pa ins + s.channelOf pa ins % 192 / 6

/-- The HBM stack behind an address, numbered 3 · die + stack (R394). -/
def State.homeStack (s : State) (pa : Nat) (ins : Nat := 0) : Nat :=
  3 * s.homeDie pa ins + s.channelOf pa ins % 192 / 64

/-- Lines that an L2 slice of 3 MiB holds (R1). -/
abbrev sliceLines : Nat := 24576

/-- Lines that a slice can hold in a cycle (R1): with compression up to twice those of its 3 MiB. How far they compress is open.
(DESIGN CHOICE, log 30: unsafe.) -/
def sliceRoom (cyc slice : Nat) : Nat := sliceLines + Config.compressedLines cyc slice % (sliceLines + 1)

/-- The lines of L2 with room for one more in the slice of an address (R178, R395): a full slice gives up a victim. The set
organisation of a slice is open: the model takes the slice for one set. (DESIGN CHOICE, log 30: unsafe.) -/
def State.roomL2 (s : State) (pa ins : Nat) : List L2Line :=
  if s.l2.length < sliceLines then s.l2
  else
    let same := s.l2.filter fun l => s.homeSlice l.line l.ins == s.homeSlice pa ins
    if same.length < sliceRoom s.cyc (s.homeSlice pa ins) then s.l2
    else match pickVictim L2Line.prio same with
      | none => s.l2
      | some v => s.l2.filter (· != v)

/-- The line of an address in its home slice, for an instance. -/
def State.l2Line (s : State) (pa : Nat) (ins : Nat := 0) : Option L2Line :=
  s.l2.find? fun l => l.line == pa / 128 * 128 && l.ins == s.homeIns pa ins

/-- The home slice after an access of an instance (R178, R395): a hit makes the line the latest used; a miss fills it, at the
request's priority, in the place of a victim where the slice is full. -/
def State.touchL2 (s : State) (pa : Nat) (ch : BitVec 2) (write : Bool) (ins : Nat := 0) : State :=
  match s.l2Line pa ins with
  | some l => { s with l2 := { l with prio := hintHit ch l.prio, dirty := l.dirty || write } :: s.l2.filter (· != l) }
  | none => { s with l2 :=
      { line := pa / 128 * 128, prio := hintFill ch, dirty := write, ins := s.homeIns pa ins } :: s.roomL2 pa ins }

/-- The lines of n bytes at their home slices after an access of an instance. -/
def State.touchSpan (s : State) (pa n : Nat) (write : Bool) (ins : Nat := 0) : State :=
  (List.range ((pa % 128 + n + 127) / 128)).foldl (fun s k => s.touchL2 (pa / 128 * 128 + 128 * k) 0 write ins) s

/-- A core's request at a home slice counts as an L2 hit or miss (R387: 0x40, 0x41). -/
def State.requestL2 (s : State) (c pa : Nat) (ch : BitVec 2) (write : Bool) : State :=
  (s.touchL2 pa ch write (s.instOf c)).count c (if (s.l2Line pa (s.instOf c)).isSome then 0x40 else 0x41) 1

/-- An engine's request at a home slice: one of a core's engines counts there too (R387); a number that is no core's is the device's. -/
def State.engTouch (s : State) (i pa : Nat) (who : Nat := Config.numCores) : State :=
  (s.touchL2 pa 0 false i).count who (if (s.l2Line pa i).isSome then 0x40 else 0x41) 1

/-- The entries that the walk of a VA reads for core `who` fill their lines at the home slices (R395), up to one that a pin refuses. -/
def State.touchWalk (s : State) (i : Nat) (va : Word) (who : Nat := Config.numCores) : State :=
  if !canonical va then s
  else ((s.walkSlots (va.toNat % 2 ^ 55) 3 0 (s.inst i).troot.toNat).takeWhile fun a => (s.pinHolder who a).isNone).foldl
    (fun s a => s.touchL2 a 0 false i) s

/-- Whether a TLB that serves a core holds the translation of a VA (R240). -/
def State.tlbHolds (s : State) (c : Nat) (va : Word) : Bool :=
  (s.core c).tlb.any (·.maps va) || (s.cells[cellOf c]?.getD {}).tlb.any (·.maps va)

/-- The TLBs after a translation (R240: a walk that faults caches nothing), and the home slices that its walk has read, a walk that
faults too (R395). -/
def State.fillTlb (s : State) (c : Nat) (va : Word) : State :=
  match s.findPage c va with
  | .error _ => s.touchWalk (s.instOf c) va c
  | .ok e =>
    let s0 := if s.tlbHolds c va then s else s.touchWalk (s.instOf c) va c
    let s1 := s0.modCore c fun k => { k with tlb := tlbTouch 128 k.tlb e }
    { s1 with cells := s1.cells.modify (cellOf c) fun t => { t with tlb := cellTlbTouch t.tlb e } }

/-- The TLBs after the translations of several lanes (R240). -/
def State.fillTlbs (s : State) (c : Nat) (vas : List Word) : State := vas.foldl (State.fillTlb · c) s

/-- A record appended to a die's error log; a full log drops it and marks the next (R244). (DEDUCED, log 59: unsafe.) -/
def State.logError (s : State) (die source cause severity : Nat) (addr : Nat) : State :=
  { s with dies := s.dies.modify die fun d =>
      if d.log.length ≥ 256 then { d with overflow := true }
      else
        let src := if d.overflow then 0x7F else source
        { d with
          log := d.log ++ [(.ofNat 64 (2 ^ 63 + src * 2 ^ 56 + cause * 2 ^ 50 + severity * 2 ^ 48 + s.cyc % 2 ^ 48),
            .ofNat 64 addr)]
          overflow := false } }

/-- Poison after a write of [pa, pa + n) (R181): a word written whole is clean. -/
def poisonAfter (p : List Nat) (pa n : Nat) : List Nat := p.filter fun w => !(pa ≤ w && w + 8 ≤ pa + n)

/-- Whether a write leaves part of a poisoned word (R181). -/
def mergesPoison (p : List Nat) (pa n : Nat) : Bool :=
  p.any fun w => w < pa + n && pa < w + 8 && !(pa ≤ w && w + 8 ≤ pa + n)

/-- A write at the home slice for an instance: memory, poison, the deferred error of a merge, and the line. -/
def State.homeWrite (s : State) (pa : Nat) (bs : List Byte) (ch : BitVec 2 := 0) (ins : Nat := 0) : State :=
  let s1 := if mergesPoison s.poison pa bs.length
    then s.logError (s.homeDie pa ins) 2 Cause.deferredError.code 1 (pa / 8 * 8) else s
  ({ s1 with
    mem := cellWrite s1.mem pa bs, poison := poisonAfter s1.poison pa bs.length
    gone := s1.gone.filter fun w => !(w < pa + bs.length && pa < w + 8) }).touchL2 pa ch true ins

/-- The bytes at the home slice. -/
def State.homeRead (s : State) (pa n : Nat) : List Byte := cellRead s.mem pa n

/-- The refusal clock of the pin that refused an access starts at its first refusal (R161). -/
def State.markRefused (s : State) (k pa : Nat) : State :=
  s.modCore k fun t => { t with pins := t.pins.map fun p =>
    if p.line == pa / 128 * 128 && p.refusedAt.isNone then { p with refusedAt := some s.cyc } else p }

/-! ## Committed stores and L1 copies -/

/-- A request that reaches the home slice of an address for a core counts as an L2 hit or miss (R387: 0x40, 0x41). -/
def State.countL2 (s : State) (c pa : Nat) : State := s.count c (if (s.l2Line pa (s.instOf c)).isSome then 0x40 else 0x41) 1

/-- A travelling store of core c lands at its home slice (R146). -/
def State.land (s : State) (c : Nat) (t : Travel) : State := (s.countL2 c t.pa).homeWrite t.pa t.bytes t.ch (s.instOf c)

/-- Whether a travelling store touches the line of an address. -/
def Travel.touches (t : Travel) (pa : Nat) : Bool :=
  decide (t.pa / 128 ≤ pa / 128) && decide (pa / 128 ≤ (t.pa + t.bytes.length - 1) / 128)

/-- A pinned line of another core refuses a store that would land (R159). -/
def State.stuck (s : State) (c : Nat) (t : Travel) : Bool := (s.pinHolder c t.pa).isSome

/-- The pin that refuses a travelling store notes its first refusal (R161). -/
def State.refuse (s : State) (c : Nat) (t : Travel) : State :=
  match s.pinHolder c t.pa with
  | some k => s.markRefused k t.pa
  | none => s

/-- The stores of a core that f picks land, in commit order, but not on a line that another core pins: that line's pin refuses
them, and they are retried (R159, R161). -/
def State.landSome (s : State) (c : Nat) (f : Travel → Bool) : State :=
  let all := (s.core c).travel
  let s1 := (all.filter fun t => f t && !s.stuck c t).foldl (State.land · c) s
  let s2 := (all.filter fun t => f t && s.stuck c t).foldl (State.refuse · c) s1
  s2.modCore c fun k => { k with travel := k.travel.filter fun t => !f t || s.stuck c t }

/-- The stores of a core to one line land (R146: a miss waits for them). -/
def State.landLine (s : State) (c pa : Nat) : State := s.landSome c (·.touches pa)

/-- Every store of a core lands (R147: the commit point of a release beyond the block). -/
def State.landAll (s : State) (c : Nat) : State := s.landSome c fun _ => true

/-- An L1 line with bytes of a store written into it; whole words written lose their poison. -/
def L1Line.store (l : L1Line) (pa : Nat) (bs : List Byte) (ch : BitVec 2) : L1Line :=
  { l with
    data := l.data.mapIdx fun i b =>
      let a := l.addr + i
      if pa ≤ a && a < pa + bs.length then bs[a - pa]?.getD b else b
    poisoned := poisonAfter l.poisoned pa bs.length
    prio := hintHit ch l.prio }

/-- Every L1 copy of the core that a store touches is updated (R146); that is no use of the line (R178). (DESIGN CHOICE, log 77: unsafe.) -/
def Core.storeL1 (k : Core) (pa : Nat) (bs : List Byte) (ch : BitVec 2) : Core :=
  { k with l1 := k.l1.map fun l =>
      if decide (l.addr < pa + bs.length) && decide (pa < l.addr + 128) then l.store pa bs ch else l }

/-- A unit's store to one register of the register space: the write of the whole register happens next, bytes not stored
keeping their value (DESIGN CHOICE, log 6). -/
def State.storeReg (s : State) (off : Nat) (bs : List Byte) : State :=
  let old := leBytes 8 (s.regWord (off / 8 * 8)).toNat
  let new := old.take (off % 8) ++ bs ++ old.drop (off % 8 + bs.length)
  { s with agenda := s.agenda ++ [.happen (.registerWrite (off / 8 * 8) (.ofNat 64 (leNat new)))] }

/-- A store of at most 16 bytes to the register space: one register after another (R177, R294). -/
def State.storeRegs (s : State) (off : Nat) (bs : List Byte) : State :=
  let room := 8 - off % 8
  let s1 := s.storeReg off (bs.take room)
  if bs.length ≤ room then s1 else s1.storeReg (off + room) (bs.drop room)

/-- A committed global store of unit u (R146): the L1 copy, then on its way to the home slice. -/
def State.commitGlobal (s : State) (c u pa : Nat) (bs : List Byte) (ch : BitVec 2) : State :=
  match s.window pa with
  | some off => s.storeRegs off bs
  | none => s.modCore c fun k => { k.storeL1 pa bs ch with travel := k.travel ++ [{ pa := pa, unit := u, bytes := bs, ch := ch }] }

/-- The granules that n bytes at an address of a storage touch (R230); `base` is the granule of the storage's first byte
in the save slot: 0x600 tile memory, 0x700 accumulators, 0x800 B store. -/
def spanGranules (base addr n : Nat) : List Nat :=
  if n = 0 then [] else (List.range ((addr + n - 1) / 4096 - addr / 4096 + 1)).map (base + addr / 4096 + ·)

/-- Granules marked dirty. -/
def Core.soilAll (k : Core) (gs : List Nat) : Core :=
  { k with granules := k.granules ++ gs.filter fun g => !k.granules.contains g }

/-- The granules of n bytes at an address marked dirty. -/
def Core.soil (k : Core) (base addr n : Nat) : Core := k.soilAll (spanGranules base addr n)

/-- A committed tile store: the one copy in the tile memory of a core (R166). -/
def State.commitTile (s : State) (c addr : Nat) (bs : List Byte) : State :=
  s.modCore c fun k => { k.soil 0x600 (addr % tileSpan) bs.length with
    tile := tileWrite k.tile addr bs, tilePoison := tileClean k.tilePoison addr bs.length }

/-- A committed store to the B store (TFILL at level 2). -/
def State.commitBst (s : State) (c addr : Nat) (bs : List Byte) : State :=
  s.modCore c fun k => { k.soil 0x800 addr bs.length with bst := cellWrite k.bst addr bs }

/-- An accumulator written: row, column, F32 pattern. -/
def Core.setAcc (k : Core) (row col x : Nat) : Core :=
  { k.soil 0x700 (512 * row + 4 * col) 4 with acc := cellWrite k.acc (512 * row + 4 * col) (leBytes 4 x) }

/-- An accumulator read. -/
def Core.getAcc (k : Core) (row col : Nat) : Nat := leNat (cellRead k.acc (512 * row + 4 * col) 4)

/-- One lane's store of unit u commits. -/
def State.commitItem (s : State) (c u : Nat) (ch : BitVec 2) (i : StoreItem) : State :=
  match i.place with
  | .phys pa => s.commitGlobal c u pa i.bytes ch
  | .tile k addr => s.commitTile k addr i.bytes
  | .bst k addr => s.commitBst k addr i.bytes

/-- A store instruction commits: lanes in ascending order, so the highest lane's byte stays (R176). Its requests are made, and
sampled (R385). -/
def State.commitStore (s : State) (c u : Nat) (h : HeldStore) : State :=
  (h.items.foldl (State.commitItem · c u h.ch) s).samples c u h.pc h.names

/-- A pail commits in program order (R148). -/
def State.commitPail (s : State) (c u : Nat) : State :=
  match s.unit c u with
  | none => s
  | some p => (p.pail.foldl (State.commitStore · c u) s).modUnit c u fun p => { p with pail := [] }

/-- The lines of an L1 with room for one more in the set of an address (R178): a set of eight lines gives up a victim. -/
def l1Evict (l : List L1Line) (addr : Nat) : List L1Line :=
  let same := l.filter fun x => x.addr / 128 % 256 == addr / 128 % 256
  if same.length < 8 then l
  else match pickVictim L1Line.prio same with
    | none => l
    | some v => l.filter (·.addr != v.addr)

/-- The line of an address brought into the L1 of a core at the priority of the request's hint, which its home slice sees
too (R145, R173, R178, R395). -/
def State.fillL1 (s : State) (c pa : Nat) (prio : BitVec 2) : State :=
  let line := pa / 128 * 128
  let s1 := ((s.landLine c pa).requestL2 c pa prio false).count c 0x31 1
  let l : L1Line :=
    { addr := line, data := cellRead s1.mem line 128, prio := prio
      poisoned := s1.poison.filter fun w => line ≤ w && w < line + 128 }
  s1.modCore c fun k => { k with l1 := l :: l1Evict (k.l1.filter (·.addr != line)) line }

/-- The copy of a line in a core's L1 that a load may use: one that a load of the core has overtaken is replaced first (R145).
(DEDUCED, log 69: unsafe.) -/
def State.l1Line (s : State) (c pa : Nat) : Option L1Line := (s.core c).l1.find? fun l => l.addr == pa / 128 * 128 && !l.stale

/-- A load of a core has read n bytes at their home slice: a copy with other bytes there is older than what the core has seen, and
no later load uses it (R145). The copy itself stays as it is (R175). -/
def State.overtake (s : State) (c pa n : Nat) : State :=
  s.modCore c fun k => { k with l1 := k.l1.map fun l =>
    if l.addr == pa / 128 * 128 && (l.data.drop (pa - l.addr)).take n != s.homeRead pa n then { l with stale := true } else l }

/-- A hit moves the line to the most recent place and applies the hint (R178). -/
def State.hitL1 (s : State) (c pa : Nat) (ch : BitVec 2) : State :=
  match s.l1Line c pa with
  | none => s
  | some l => s.modCore c fun k =>
      { k with l1 := { l with prio := if ch = 3 then l.prio else hintHit ch l.prio } :: k.l1.filter (·.addr != l.addr) }

/-- The L1 of a core without any line (acquires at cell scope or wider, R147). -/
def State.dropL1 (s : State) (c : Nat) : State := s.modCore c fun k => { k with l1 := [] }

/-- The bytes of an access that lies in one line, from an L1 line. -/
def L1Line.read (l : L1Line) (pa n : Nat) : List Byte := (l.data.drop (pa - l.addr)).take n

/-- The request of a line that a load makes (R145, R173, R175): at cell scope or wider it goes to the home slice and leaves L1
as it is; else a hit uses the copy and a miss fills it, but with hint no-allocate. The core's own travelling stores to the
line land before it. -/
def State.requestLine (s : State) (c pa sc : Nat) (ch : BitVec 2) : State :=
  if (s.window pa).isSome then s
  else if 3 ≤ sc then (s.landLine c pa).requestL2 c pa ch false
  else match s.l1Line c pa with
    | some _ => s.hitL1 c pa ch
    | none => if ch = 3 then ((s.landLine c pa).requestL2 c pa ch false).count c 0x31 1 else s.fillL1 c pa (hintFill ch)

/-- The bytes and the poison that a load reads once its line has been requested. An access lies in one line, being aligned
(R172). -/
def State.readLine (s : State) (c pa n sc : Nat) : List Byte × Bool :=
  match s.window pa with
  | some off => (s.regBytes off n, false)
  | none => match (if 3 ≤ sc then none else s.l1Line c pa) with
    | some l => (l.read pa n, l.poisoned.any fun w => w < pa + n && pa < w + 8)
    | none => (s.homeRead pa n, s.poisonedIn pa n)

/-- Bytes overlaid by the stores of a pail, oldest first (R74, R104): `at0` tells which byte of an item, if any, lies where
byte j is read. -/
def overlay (at0 : StoreItem → Nat → Option Nat) (pail : List HeldStore) (bs : List Byte) : List Byte :=
  pail.foldl (fun bs h => h.items.foldl (fun bs i =>
    bs.mapIdx fun j b => ((at0 i j).bind fun n => i.bytes[n]?).getD b) bs) bs

/-- The pail's bytes over global memory. -/
def overlayPhys (pail : List HeldStore) (pa : Nat) (bs : List Byte) : List Byte :=
  overlay (fun i j => match i.place with
    | .phys a => if a ≤ pa + j then some (pa + j - a) else none
    | _ => none) pail bs

/-- The pail's bytes over a run of the tile memory of core c. -/
def overlayTile (pail : List HeldStore) (c addr : Nat) (bs : List Byte) : List Byte :=
  overlay (fun i j => match i.place with
    | .tile k a => if k = c then runByte a i.bytes.length (tileByte (addr + j)) else none
    | _ => none) pail bs

/-- A word of global memory read at the home slice as the machine's own agents read it (R167). -/
def State.homeWord (s : State) (pa : Nat) : Word := .ofNat 64 (leNat (s.homeRead pa 8))

/-- The word of an address as an open bundle reads it: as it stood before the bundle (R31, R392). -/
def State.preWord (s : State) (pa : Nat) : Word := (s.bundle.bind fun b => b.preWords.lookup (pa / 8 * 8)).getD (s.homeWord (pa / 8 * 8))

/-- An open bundle keeps the word of an address as it stood before the bundle. -/
def State.keepWord (s : State) (pa : Nat) : State :=
  { s with bundle := s.bundle.map fun b => { b with preWords := (pa / 8 * 8, s.preWord pa) :: b.preWords } }

/-- A change of a word at the home slice, with the copy in the L1 of the core that made it (R165). -/
def State.sliceWrite (s : State) (c pa : Nat) (bs : List Byte) (ch : BitVec 2) : State :=
  ((s.keepWord pa).homeWrite pa bs ch (s.instOf c)).modCore c fun k => k.storeL1 pa bs 0

/-- A change of the word of a guard in its pinned line (R158): no home slice takes part. The model keeps the word in memory.
(DEDUCED, log 36: unsafe.) -/
def State.pinWrite (s : State) (c pa : Nat) (bs : List Byte) : State :=
  let s1 := s.keepWord pa
  { s1 with mem := cellWrite s1.mem pa bs, poison := poisonAfter s1.poison pa bs.length }.modCore c fun k => k.storeL1 pa bs 0

/-! ## Pins -/

/-- The pin of a guard word's line in a core. -/
def Core.pinOf (k : Core) (pa : Nat) : Option Pin := k.pins.find? (·.line == pa / 128 * 128)

/-- Whether the page that holds VA p maps [lo, hi) of that page onto a line. -/
def State.pageTouches (s : State) (c : Nat) (p lo hi line : Nat) : Bool :=
  match s.findPage c (.ofNat 64 p) with
  | .error _ => false
  | .ok e =>
    let base := e.pa + (p % 2 ^ 55 - e.va)
    decide (base + lo < line + 128) && decide (line < base + hi)

/-- Whether a line lies in the region that an entry of the binding table binds (R154): page by page, a smallest page
being 64 KiB. -/
def Binding.covers (b : Binding) (s : State) (c line : Nat) : Bool :=
  let base := b.base.toNat
  let top := base + b.len.toNat
  b.len != 0 && (List.range (b.len.toNat / 0x10000 + 2)).any fun k =>
    let p := base / 0x10000 * 0x10000 + 0x10000 * k
    decide (p < top) && s.pageTouches c p (base - p) (min top (p + 0x10000) - p) line

/-- Whether a block binds a line to a guard. -/
def Block.bound (b : Block) (s : State) (c : Nat) (guard : Word) (line : Nat) : Bool :=
  b.binds.any fun e => match e with
    | some x => x.guard == guard && x.covers s c line
    | none => false

/-- Whether a store of the core still travels to a line that the block binds to a guard (R157). -/
def State.boundTravels (s : State) (c : Nat) (b : Block) (guard : Word) : Bool :=
  (s.core c).travel.any fun t => b.bound s c guard (t.pa / 128 * 128)

/-- Whether a pin of a core cannot end yet (R160): a committed store to a line bound to its guard is refused by another core's
pin. -/
def State.pinHeld (s : State) (c : Nat) (p : Pin) : Bool := ((s.blk c).map fun b => s.boundTravels c b p.guardVa).getD false

/-- The stores of a core to lines that a block binds to a guard land (R157, R160). -/
def State.landBound (s : State) (c : Nat) (b : Block) (guard : Word) : State :=
  s.landSome c fun t => b.bound s c guard (t.pa / 128 * 128)

/-- The stores that the end of a pin writes home land: those to lines that the core's block binds to its guard (R160). -/
def State.landPin (s : State) (c : Nat) (p : Pin) : State :=
  match s.blk c with
  | some b => s.landBound c b p.guardVa
  | none => s

/-- A pin ends (R160): the core's committed writes to bound lines land and the line is unpinned, but not before every such store
has landed. The model keeps the pinned line's COUNT and HELD at its place in memory, which no other party reaches while the
pin lasts (R159). -/
def State.endPin (s : State) (c : Nat) (p : Pin) : State :=
  let s1 := s.landPin c p
  if s1.pinHeld c p then s1 else s1.modCore c fun k => { k with pins := k.pins.filter (·.line != p.line) }

/-- Whether a pin of a core could not end now (R160). -/
def State.pinStuck (s : State) (c : Nat) (p : Pin) : Bool := (s.landPin c p).pinHeld c p

/-- Every pin of a core ends. -/
def State.endPins (s : State) (c : Nat) : State := (s.core c).pins.foldl (State.endPin · c) s

end Sys2Proof.Machine
end

