-- ==== Sys2Proof/Machine/Access.lean ====
section
/-! DEFINITION. Accesses of units: tag compatibility (R260), the value a load extends and a store writes (R174,
R200), tile elements (R201, R205, R206), and the load queue's answers (R102, R104). -/

namespace Sys2Proof

/-- Access size of a memory type in bytes (R174, R200). -/
def Ty.bytes : Ty → Nat
  | .byte => 1
  | .half => 2
  | .i32 | .n32 | .f32 => 4
  | _ => 8

/-- The tag that a load gives (R174). -/
def Ty.loadTag : Ty → Ty
  | .byte | .half => .n32
  | t => t

end Sys2Proof

namespace Sys2Proof.Machine

/-! ## Tags and values -/

/-- Whether a source tag matches a type (R260). R256's check of a B64 source is made by the entries. -/
def tagMatches (t tag : Ty) : Bool :=
  match t with
  | .b64 => true
  | .i32 | .n32 => tag == .i32 || tag == .n32 || tag == .b64
  | .i64 | .n64 => tag == .i64 || tag == .n64 || tag == .b64
  | .byte | .half => tag.isInt || tag == .b64
  | t => tag == t || tag == .b64

/-- A count operand's tag: any integer tag or B64 (R120). -/
def countTag (tag : Ty) : Bool := tag.isBits

/-- A base address's tag: B64, I64 or N64 (R171). -/
def baseTag (tag : Ty) : Bool := tag == .b64 || tag == .i64 || tag == .n64

/-- Row and column registers: I32, N32, I64 or N64 (R211). -/
def coordTag (tag : Ty) : Bool := tag.isInt

/-- Extend: the register that a load of n bytes gives (R174, R264). -/
def extendLoad (bs : List Byte) (t : Ty) : Reg :=
  let raw := leNat bs
  let v : Word := match t with
    | .i32 => (BitVec.ofNat 32 raw).signExtend 64
    | _ => .ofNat 64 raw
  { v := v, tag := t.loadTag, dirty := true }

/-- The bytes that a store of type t writes. -/
def storeBytes (t : Ty) (v : Word) : List Byte := leBytes t.bytes v.toNat

/-- Whether a 32-bit pattern is an F32 NaN. -/
def isNaN32 (x : Nat) : Bool := x / 2 ^ 23 % 256 == 255 && x % 2 ^ 23 != 0

/-- An order of F32 patterns other than NaN as integers: −0 equals +0. -/
def ordF32 (x : Nat) : Int := if x < 2 ^ 31 then (x : Int) else -((x - 2 ^ 31 : Nat) : Int)

/-- A valid IV32 pattern: no NaN bound and lower ≤ upper, or the empty pattern (R132, R256). -/
def ivValid (v : Word) : Bool :=
  let lo := v.toNat % 2 ^ 32
  let hi := v.toNat / 2 ^ 32
  !isNaN32 lo && !isNaN32 hi && (decide (ordF32 lo ≤ ordF32 hi) || v == 0xFF8000007F800000#64)

/-- Whether data that matches a type holds no valid interval where the type is IV32 (R256, R260). -/
def badInterval (t : Ty) (v : Word) : Bool := t == .iv32 && !ivValid v

/-! ## Tile elements -/

/-- The core that holds the block of a gang with a BIDX (R205). -/
def State.coreOfBidx (s : State) (c : Nat) (b : Block) (bidx : Nat) : Nat :=
  if bidx = b.bidx then c
  else ((List.range s.cores.length).find? fun k => ((s.blk k).map fun o => b.mates o && o.bidx == bidx).getD false).getD c

/-- Pitch of a level-0 or level-1 handle in words (R201). -/
def tilePitch (layout cols size : Nat) : Nat :=
  if layout = 0 then (cols * size + 3) / 4 else 64 * ((cols * size + 255) / 256)

/-- The run of element (i, j) of a level-0 or level-1 handle in its owner's tile memory (R201, R202). -/
def TileEntry.offset (e : TileEntry) (i j : Nat) : Nat :=
  tileSpan * rowLay e.layout i + (4 * (e.base + i * e.pitch + j * e.t.bytes / 4) + j * e.t.bytes % 4)

/-- Byte offset of element (i, j) of a level-2 handle in the B store (R206). -/
def TileEntry.sliceOffset (e : TileEntry) (i j : Nat) : Nat := 196608 * j + e.base + i * e.t.bytes

/-- Where an element of a handle lies, seen from the block of core c. -/
def State.elemPlace (s : State) (c : Nat) (b : Block) (e : TileEntry) (i j : Nat) : Place :=
  match e.level with
  | .bstore => .bst c (e.sliceOffset i j)
  | .cell => .tile (s.coreOfBidx c b e.owner) (e.offset i j)
  | _ => .tile c (e.offset i j)

/-- A coordinate register's value: signed for I32 and I64, unsigned otherwise (R211). -/
def coordVal (r : Reg) : Int :=
  match r.tag with
  | .i32 | .i64 => r.v.toInt
  | _ => (r.v.toNat : Int)

/-- Whether element (i, j) exists (R211). -/
def TileEntry.has (e : TileEntry) (i j : Int) : Bool :=
  decide (0 ≤ i) && decide (i < e.rows) && decide (0 ≤ j) && decide (j < e.cols)

/-- INFO2 of a tile fault (R219): the handle in [61:56], the row in [55:28] and the column in [27:0]. -/
def tileInfo (h : Nat) (i j : Int) : Word :=
  .ofNat 64 (h * 2 ^ 56 + (i % 2 ^ 28).toNat * 2 ^ 28 + (j % 2 ^ 28).toNat)

/-- What names a pushed address: its VA, or its handle, row and column (R219, R385). -/
def PushAddr.info : PushAddr → Word
  | .va a => a
  | .elem h i j => tileInfo h i j

/-- The handle named by LDT, STT, ATOMT and the tile pushes: allocated and of level 0 or 1 (R198). -/
def Block.tileHandle (b : Block) (h : Nat) : Option TileEntry :=
  match b.tiles[h]?.join with
  | some e => match e.level with
    | .block | .cell => some e
    | _ => none
  | none => none

/-- The bytes of tile memory as a unit of core c sees them, its own held stores over them (R74, R166). -/
def State.loadTile (s : State) (pail : List HeldStore) (k addr n : Nat) : List Byte :=
  overlayTile pail k addr (tileRead (s.core k).tile addr n)

/-- Whether a unit that reads a run of tile memory reads a poisoned pair that no store of its pail covers whole (R328, log 78). -/
def State.seesTilePoison (s : State) (pail : List HeldStore) (k a n : Nat) : Bool :=
  (s.core k).tilePoison.any fun w => ((List.range 8).any fun j => (runByte a n (w + j)).isSome)
    && !(pail.any fun h => h.items.any fun i => match i.place with
      | .tile c b => c == k && (List.range 8).all fun j => (runByte b i.bytes.length (w + j)).isSome
      | _ => false)

/-- The register that a unit reads from an element at a run, or its cause: an invalid interval, poison (R256, R328). -/
def State.loadElem (s : State) (pail : List HeldStore) (k a : Nat) (t : Ty) : Except Cause Reg :=
  let x := extendLoad (s.loadTile pail k a t.bytes) t
  if badInterval t x.v then .error .badInterval
  else if s.seesTilePoison pail k a t.bytes then .error .poisonData
  else .ok x

/-! ## Global accesses of a unit -/

/-- A load's register or fault, with the state after it: alignment, translation, interval and poison (R172). -/
inductive LoadRes where
  | ok (r : Reg)
  | bad (c : Cause)
  | wait (core : Nat)
  | stop (f : Fault)
  deriving DecidableEq, Repr

/-- What a load of n bytes reads at a physical address once its line has been requested, the pail's bytes over it. The flag
says that a byte read from memory was poisoned and no held store covers its word. (DEDUCED, log 78: unsafe.) -/
def State.seePhys (s : State) (c : Nat) (pail : List HeldStore) (pa n : Nat) (sc : Nat) : List Byte × Bool :=
  let r := s.readLine c pa n sc
  let covered := pail.any fun h => h.items.any fun i => match i.place with
    | .phys a => decide (a ≤ pa / 8 * 8) && decide (pa / 8 * 8 + 8 ≤ a + i.bytes.length)
    | _ => false
  (overlayPhys pail pa r.1, r.2 && !covered)

/-- The register of a load of type t at a physical address, or its BAD_INTERVAL, or its POISON_DATA (R172, items 4 and 5). -/
def State.loadPhys (s : State) (c : Nat) (pail : List HeldStore) (pa : Nat) (t : Ty) (sc : Nat) : LoadRes :=
  let r := s.seePhys c pail pa t.bytes sc
  let x := extendLoad r.1 t
  if badInterval t x.v then .bad .badInterval
  else if r.2 then .bad .poisonData
  else .ok x

/-- One whole load of type t at a VA by a unit of core c with a pail (R172 to R175). -/
def State.loadVa (s : State) (c : Nat) (pail : List HeldStore) (va : Word) (t : Ty) (sc : Nat) (ch : BitVec 2) :
    State × LoadRes :=
  if va.toNat % t.bytes ≠ 0 then (s, .bad .misaligned)
  else match s.translate c .load va with
    | .error (.cause e) => (s.fillTlb c va, .bad e)
    | .error (.fault f) => (s, .stop f)
    | .error (.pinned k l) => (s.markRefused k l, .wait k)
    | .ok pa =>
      match s.pinHolder c pa with
      | some k => (s.markRefused k pa, .wait k)
      | none =>
        let s1 := (s.fillTlb c va).requestLine c pa sc ch
        (s1, s1.loadPhys c pail pa t sc)

/-! ## The load queue's answers -/

/-- Places of an access of the queues: its first byte and length, or none where it has no place. -/
def State.pushPlace (s : State) (c : Nat) (b : Block) (a : PushAddr) (k : Access) : Option Place :=
  match a with
  | .va va => match s.translate c k va with
    | .ok pa => some (.phys pa)
    | .error _ => none
  | .elem h i j => match b.tileHandle h with
    | some e => if e.has i j then some (s.elemPlace c b e i.toNat j.toNat) else none
    | none => none

/-- Whether a load place depends on a store place (R104): bytes for global memory, 4-byte words for tiles. -/
def dependsOn (l : Place) (ln : Nat) (w : Place) (wn : Nat) : Bool :=
  match l, w with
  | .phys a, .phys b => decide (a < b + wn) && decide (b < a + ln)
  | .tile k a, .tile j b => k == j && (List.range ln).any fun x => (List.range wn).any fun y =>
      tileByte (a + x) / 4 == tileByte (b + y) / 4
  | _, _ => false

/-- Whether a load entry waits for an earlier store that is still unpaired (R104). -/
def State.loadBlocked (s : State) (c : Nat) (b : Block) (q : AccessQueues) (e : LoadEntry) : Bool :=
  match s.pushPlace c b e.addr .load with
  | none => false
  | some l => (q.addrs.zipIdx).any fun (a, k) =>
      decide (q.nPairs + k < e.after) && (match s.pushPlace c b a.addr .store with
        | some w => dependsOn l e.t.bytes w a.t.bytes
        | none => false)

/-- The answer of memory to a load entry (R102): the stores pushed before it, and no later one, are over it. -/
def State.answer (s : State) (c : Nat) (b : Block) (p : ProgUnit) (num : Nat) (e : LoadEntry) : State × LoadAnswer :=
  let pail := p.pail.filter fun h => h.pair < e.after
  match e.addr with
  | .va va =>
    match s.loadVa c pail va e.t 0 0 with
    | (s1, .ok r) => (s1, .data r)
    | (s1, .bad cause) => (s1, .fault cause va (.ofNat 64 num))
    | (s1, _) => (s1, .pending)
  | .elem h i j =>
    match b.tileHandle h with
    | none => (s, .fault .tileHandle 0 (tileInfo h i j))
    | some t =>
      if t.t != e.t then (s, .fault .tagMismatch 0 (tileInfo h i j))
      else if !t.has i j then (s, .fault .tileBounds 0 (tileInfo h i j))
      else match s.elemPlace c b t i.toNat j.toNat with
        | .tile k a => match s.loadElem pail k a e.t with
          | .error x => (s, .fault x 0 (tileInfo h i j))
          | .ok x => (s, .data x)
        | _ => (s, .fault .tileHandle 0 (tileInfo h i j))

/-- Memory answers entry n of the load queue of unit u, if it is pending, waits for no store, and every entry before it has
its data: data is placed in entry order (R102). -/
def State.answerEntry (s : State) (c u n : Nat) : State :=
  match s.blk c, s.unit c u with
  | some b, some p =>
    match p.q.loads[n - p.q.base]? with
    | some e =>
      if n < p.q.base || e.ans != .pending || ((p.q.loads.take (n - p.q.base)).any fun x => x.ans == .pending)
          || s.loadBlocked c b p.q e then s
      else
        let r := s.answer c b p n e
        let s1 := match r.2 with
          | .data _ => r.1.sample c u e.pc e.addr.info
          | _ => r.1
        s1.modUnit c u fun p => { p with q := { p.q with
          loads := p.q.loads.modify (n - p.q.base) fun e => { e with ans := r.2 } } }
    | none => s
  | _, _ => s

/-- Memory answers every entry of a unit that it can, in push order. -/
def State.answerAll (s : State) (c u : Nat) : State :=
  match s.unit c u with
  | none => s
  | some p => (List.range p.q.loads.length).foldl (fun s k => s.answerEntry c u (p.q.base + k)) s

/-- Whether a store that a unit holds writes bytes of a load that its context pushed earlier and memory has not answered: the
store may not commit before (R104). -/
def State.lateLoad (s : State) (c u : Nat) : Bool :=
  match s.blk c, s.unit c u with
  | some b, some p => p.q.loads.any fun e => e.ans == .pending && (match s.pushPlace c b e.addr .load with
    | none => false
    | some l => p.pail.any fun h => decide (e.after ≤ h.pair)
        && h.items.any fun i => dependsOn l e.t.bytes i.place i.bytes.length)
  | _, _ => false

end Sys2Proof.Machine
end

