-- ==== Sys2Proof/Machine/Tokens.lean ====
section
/-! DEFINITION. Tokens, barriers and mailboxes: what fires an event slot (R318, R320, R338), the arrivals and completion of
barriers (R89 to R91), and a message entering a mailbox (R324, R325). -/

namespace Sys2Proof.Machine

/-! ## Units -/

/-- Whether a unit is live in a block, the handler apart. -/
def Block.liveUnits (b : Block) : List Nat := (List.range 21).filter fun u => (b.unit u).isSome

/-- Units not yet retired of a gang, on cores or saved: pairs of BIDX and unit (R89). -/
def State.gangUnits (s : State) (b : Block) : List (Nat × Nat) :=
  let here := s.cores.filterMap (·.blk)
  let saved := ((s.launch b.inst b.launch).map fun l => l.saved.map (·.blk)).getD []
  ((here ++ saved).filter b.mates).flatMap fun o => o.liveUnits.map (o.bidx, ·)

/-- The warps and contexts of a core's block. -/
def State.eventUnits (s : State) (c : Nat) : List (Nat × Nat) :=
  ((List.range 20).filter fun u => (s.unit c u).isSome).map (c, ·)

/-! ## Tokens -/

/-- Events discarded by a core are counted (R320, R387). (DEDUCED, log 38: unsafe.) -/
def State.discardEvents (s : State) (c n : Nat) : State :=
  (s.modCore c fun k => { k with discarded := k.discarded + n }).count c 0x5F n

/-- The bits of a unit's slots that name a token. -/
def ProgUnit.slotsFor (u : ProgUnit) (hit : EventSlot → Bool) : BitVec 8 :=
  (List.range 8).foldl (fun m n => match u.slots[n]?.join with
    | some e => if hit e then m ||| BitVec.twoPow 8 n else m
    | none => m) 0

/-- The open bundle of a unit: what fires in it is seen from the next cycle on (R318, R338). -/
def State.bundleOf (s : State) (c u : Nat) : Option Bundle :=
  if s.cur.core == c && s.cur.unit == u then s.bundle else none

/-- A token fires in one unit (R318): each slot bound to it sets its EVP bit, against the bindings as they stood at the start
of the cycle (R338). A firing that finds no slot bound to it is discarded and counted (R320). -/
def State.fireAt (s : State) (hit : EventSlot → Bool) (x : Nat × Nat) : State :=
  match s.unit x.1 x.2, s.bundleOf x.1 x.2 with
  | none, _ => s
  | some _, some b =>
    if b.pre.slotsFor hit = 0 then s.discardEvents x.1 1
    else { s with bundle := some { b with fired := b.fired ||| b.pre.slotsFor hit } }
  | some p, none =>
    if p.slotsFor hit = 0 then s.discardEvents x.1 1
    else s.setUnit x.1 x.2 { p with evp := p.evp ||| p.slotsFor hit }

/-- A token fires in units of cores (R318). -/
def State.fireToken (s : State) (units : List (Nat × Nat)) (hit : EventSlot → Bool) : State :=
  units.foldl (State.fireAt · hit) s

/-! ## Release and acquire -/

/-- The release part of an operation at a scope (R147, R164): beyond the block, the core's stores land, those of its other units
with them. (DESIGN CHOICE, log 99: unsafe.) -/
def State.release (s : State) (c sc : Nat) : State := if 3 ≤ sc then s.landAll c else s

/-- Whether a release of unit u at a scope has to wait (R147, R186): for a store of the core that another core's pin refuses
(R159), since releases are cumulative (R151) and every unit of the core sees it (R146); and at system scope for a peer write of the
unit that has not been acknowledged (R333). -/
def State.unreleased (s : State) (c u sc : Nat) : Bool :=
  decide (3 ≤ sc) && !(s.core c).travel.isEmpty
    || sc == 5 && ((s.blk c).map fun b => b.cmds.any fun k =>
      k.engine == .peer && k.unit == u && !k.orphan && (k.state == .waiting || k.state == .running)).getD false

/-- The acquire part at a scope: at cell scope or wider the core's L1 is invalidated (R147). -/
def State.acquire (s : State) (c sc : Nat) : State := if 3 ≤ sc then s.dropL1 c else s

/-! ## Barriers -/

/-- A unit arrives at a barrier of its block or gang, once in a generation (R89, R90). -/
def Barrier.arrive (b : Barrier) (who : Nat × Nat) (count : Nat) : Barrier :=
  if b.arrived.contains who then b
  else { b with arrived := b.arrived ++ [who], count := some (b.count.getD count) }

/-- The barrier numbered id as a unit of a block sees it: 0 to 15 the block's, 16 to 31 its gang's (R89). -/
def State.barrier (s : State) (b : Block) (id : Nat) : Barrier :=
  if id < 16 then b.bars[id]?.getD {}
  else ((s.gangOf b).bind fun g => g.bars[id - 16]?).getD {}

/-- The state with a barrier of a core's block or gang changed. -/
def State.modBarrier (s : State) (c : Nat) (id : Nat) (f : Barrier → Barrier) : State :=
  match s.blk c with
  | none => s
  | some b =>
    if id < 16 then s.setBlk c { b with bars := b.bars.modify id f }
    else s.modGang b.inst b.launch b.gang fun g => { g with bars := g.bars.modify (id - 16) f }

/-- A barrier completes when its count, or with count 0 every unit not yet retired, has arrived (R90). -/
def Barrier.settled (b : Barrier) (units : List (Nat × Nat)) : Barrier :=
  let done := match b.count with
    | none => false
    | some 0 => units.all b.arrived.contains
    | some n => decide (n ≤ b.arrived.length)
  if done then { b with gen := (b.gen + 1) % 2 ^ 32, count := none, arrived := [] } else b

/-- Barrier id of the block of core c completes if it can, and its token then fires (R318). -/
def State.settleBarrier (s : State) (c id : Nat) : State :=
  match s.blk c with
  | none => s
  | some b =>
    let units := if id < 16 then b.liveUnits.map (b.bidx, ·) else s.gangUnits b
    let s1 := s.modBarrier c id (·.settled units)
    if (s1.barrier ((s1.blk c).getD b) id).gen = (s.barrier b id).gen then s1
    else
      let cores := if id < 16 then [c] else s1.gangCores b
      s1.fireToken (cores.flatMap s1.eventUnits) fun e => e.kind == .barrier && e.num == .ofNat 64 id

/-- Every barrier of a block and its gang completes if it can: a retirement completes a generation that waits
only for it (R90). -/
def State.settleBarriers (s : State) (c : Nat) : State := (List.range 32).foldl (State.settleBarrier · c) s

/-- The core sends: in an open bundle the send is made at its close, after the bundle's receives (R389). -/
def State.sendNow (s : State) (c : Nat) (x : Later) : State :=
  match s.bundle with
  | none => s.tickSend c
  | some b => { s with bundle := some { b with later := b.later ++ [x] } }

/-- A unit arrives at a barrier, once in a generation: a release at the barrier's scope, a Lamport send, and the completion of
the generation where this is its last arrival (R90, R91, R383). -/
def State.arriveAt (s : State) (c u id count : Nat) : State :=
  match s.blk c with
  | none => s
  | some b =>
    if (s.barrier b id).arrived.contains (b.bidx, u) then s
    else
      let s1 := (if 16 ≤ id then s.landAll c else s).sendNow c (.barrier id)
      let stamp := if s1.bundle.isSome then 0 else (s1.core c).lclk
      let s2 := s1.modBarrier c id fun x => { x.arrive (b.bidx, u) count with stamp := max x.stamp stamp }
      s2.settleBarrier c id

/-! ## Mailboxes -/

/-- A message enters a mailbox and the tokens bound to it fire (R318, R325). -/
def State.post (s : State) (c box : Nat) (m : Msg) : State :=
  (s.modCore c fun k => { k with mail := k.mail.modify box (· ++ [m]) }).fireToken (s.eventUnits c)
    fun e => e.kind == .mbox && e.num == .ofNat 64 box

/-- Messages in a mailbox. -/
def State.mailCount (s : State) (c box : Nat) : Nat := ((s.core c).mail[box]?.getD []).length

/-- Whether a mailbox holds four messages (R324). -/
def State.mailFull (s : State) (c box : Nat) : Bool := decide (4 ≤ s.mailCount c box)

/-! ## What a bundle sends at its close -/

/-- The frame of the first SEND, in slot order, that finds its mailbox full (R325, R338): the bundle's MBREADs have been
applied, and the SENDs before it. A message for no core of the gang is named to none, and is discarded. -/
def State.firstFull (s : State) : List Later → List (Nat × Nat) → Option Frame
  | [], _ => none
  | .send dest box _ _ full :: rest, sent =>
    if dest < Config.numCores ∧ 4 ≤ s.mailCount dest box + (sent.filter (· == (dest, box))).length then some full
    else s.firstFull rest ((dest, box) :: sent)
  | _ :: rest, sent => s.firstFull rest sent

/-- The greatest Lamport stamp that a change of a signal has carried: a value contains the changes before it (R168, R383, R384). -/
def State.stampOf (s : State) (pa : Nat) : Nat := (s.stamps.lookup pa).getD 0

/-- A signal's change carries a stamp. -/
def State.setStamp (s : State) (pa stamp : Nat) : State :=
  { s with stamps := (pa, max stamp (s.stampOf pa)) :: s.stamps.filter fun x => x.1 != pa }

/-- The relations of SWAIT on words (R191): 0 .le, 1 .ge, 2 .eq, 3 .ne, signed or not. -/
def relHolds (rel : Nat) (signed : Bool) (x c : Word) : Bool :=
  match rel with
  | 0 => if signed then decide (x.toInt ≤ c.toInt) else decide (x.toNat ≤ c.toNat)
  | 1 => if signed then decide (c.toInt ≤ x.toInt) else decide (c.toNat ≤ x.toNat)
  | 2 => x == c
  | _ => x != c

/-- Whether a wait is a SWAIT on a place that a value satisfies (R191). -/
def Wait.met (w : Wait) (pa : Nat) (x : Word) : Bool :=
  w.kind == .signal && !w.done && w.a == pa && relHolds (w.n % 4) (w.n / 4 == 1) x (.ofNat 64 w.b)

/-- A SWAIT that a value has satisfied: it has read that value, with the stamp that its changes carry (R196, R383). -/
def Wait.meet (w : Wait) (pa : Nat) (x : Word) (stamp : Nat) : Wait :=
  if w.met pa x then { w with done := true, res := [.ofNat 64 stamp] } else w

/-- The bound signals of a unit whose word has changed (R318): a value at or below the threshold fires. -/
def ProgUnit.noteSignals (u : ProgUnit) (word : Nat → Word) : ProgUnit :=
  if u.slots.all fun e => e.all fun e => e.kind != .signal then u
  else
    let hit := u.slotsFor fun e => e.kind == .signal && word e.gen != e.seen && decide ((word e.gen).toInt ≤ e.thresh.toInt)
    { u with
      evp := u.evp ||| hit
      slots := u.slots.map fun e => e.map fun e => if e.kind == .signal then { e with seen := word e.gen } else e }

/-- A unit whose waiting SWAITs on a place a value may have satisfied. -/
def ProgUnit.meet (p : ProgUnit) (pa : Nat) (x : Word) (stamp : Nat) : ProgUnit :=
  if p.splits.any fun t => t.waits.any (·.met pa x) then
    { p with splits := p.splits.map fun t => { t with waits := t.waits.map (·.meet pa x stamp) } }
  else p

/-- A signal takes a value (R168, R191, R196): each core is told of it; a SWAIT that it satisfies has read it, and a token that it
fires has fired (R318), whatever value follows. A core whose access to the line a pin refuses is not told (R159). -/
def State.noteValue (s : State) (pa : Nat) (x : Word) : State :=
  let word := fun a => if a = pa then x else s.homeWord a
  { s with cores := s.cores.mapIdx fun c k => if (s.pinHolder c pa).isSome then k else
      { k with blk := k.blk.map fun b => { b with units := b.units.map fun u => u.map fun p =>
          (p.meet pa x (s.stampOf pa)).noteSignals word } } }

/-- A change of a signal by another than an open bundle's SIGNAL: its stamp, and the value it gives (R168, R383). -/
def State.signalled (s : State) (pa stamp : Nat) (x : Word) : State := (s.setStamp pa stamp).noteValue pa x

/-- One send of a bundle of core c, with its stamp (R383, R389). -/
def State.sendLater (s : State) (c : Nat) (x : Later) : State :=
  let s1 := s.tickSend c
  let stamp := (s1.core c).lclk
  match x with
  | .send dest box value far _ =>
    if Config.numCores ≤ dest then s1.discardEvents c 1 else s1.post dest box { value := value, far := far, stamp := stamp }
  | .signal pa x => s1.signalled pa stamp x
  | .barrier id => s1.modBarrier c id fun b => { b with stamp := max b.stamp stamp }

end Sys2Proof.Machine
end

