-- ==== Sys2Proof/Machine/Ops.lean ====
section
/-! DEFINITION. The shared operations of programmed units: lane masks and views, registers and predicates,
region ends (R148 to R150, R216), the queues' rewind (R106), taking a trap (R218, R219) and returning from it
(R222), and the issue of one instruction or syllable (R10, R39, R43, R100, R107). -/

namespace Sys2Proof.Machine

/-! ## How an instruction can end -/

/-- A trap that an instruction asks for: the cause, the lanes it names and the frame's information. -/
structure TrapReq where
  cause : Cause
  lanes : Mask
  kind : Nat := 0
  info1 : Word := 0
  info2 : Word := 0
  /-- RESUME where it departs from R219's rule -/
  resume : Option Word := none
  /-- the port of a service request -/
  port : Nat := 0xFF
  deriving DecidableEq, Repr

/-- Why an instruction's effect does not complete in the ordinary way. `raise` undoes it (R17); `raiseAt` traps
from the state given; `park` waits in the state given and repeats the instruction; `trapped` has taken its traps. -/
inductive Stop where
  | raise (t : TrapReq)
  | raiseAt (t : TrapReq) (s : State)
  | park (w : Wait) (s : State)
  | trapped (s : State)
  | fault (f : Fault)
  | refuse (r : Refusal)

/-- The effect of an instruction. -/
abbrev Eff := Except Stop State

/-! ## Masks -/

/-- The mask of the lanes below n that satisfy f. -/
def maskOf : Nat → (Nat → Bool) → Mask
  | 0, _ => 0
  | n + 1, f => maskOf n f ||| (if f n then BitVec.twoPow 128 n else 0)

/-- The lanes of a mask in ascending order. -/
def lanesOf (m : Mask) : List Nat := (List.range 128).filter m.getLsbD

/-- The mask of a list of lanes. -/
def maskOfList (l : List Nat) : Mask := l.foldr (fun i m => m ||| BitVec.twoPow 128 i) 0

/-! ## Registers and predicates -/

/-- A register as an instruction writes it: dirty (R230). -/
def mkReg (v : Word) (t : Ty) : Reg := { v := v, tag := t, dirty := true }

/-- Predicate n of a lane; p7 reads T (R67). -/
def Lane.pred (l : Lane) (n : Nat) : Pred := if n = 7 then .t else l.preds[n]?.getD .f

/-- Predicate n written; a write of p7 is discarded (R67). -/
def Lane.setPred (l : Lane) (n : Nat) (p : Pred) : Lane := { l with preds := l.preds.set n p }

/-- Register n of a lane. -/
def Lane.reg (l : Lane) (n : Nat) : Reg := l.regs[n]?.getD {}

/-- Register n of a lane written. -/
def Lane.setReg (l : Lane) (n : Nat) (r : Reg) : Lane := { l with regs := l.regs.set n r }

/-- Lane i of a unit. -/
def ProgUnit.lane (u : ProgUnit) (i : Nat) : Lane := u.lanes[i]?.getD {}

/-- Lanes of a unit changed by f where sel holds. -/
def ProgUnit.mapLanes (u : ProgUnit) (sel : Mask) (f : Nat → Lane → Lane) : ProgUnit :=
  { u with lanes := u.lanes.mapIdx fun i l => if sel.getLsbD i then f i l else l }

/-- The rotation base in force (R109). -/
def ProgUnit.base (u : ProgUnit) : Nat := (u.loops.head?.map (·.base)).getD 0

/-- The physical number of k-register n (R109). -/
def rotated (base n : Nat) : Nat := if 48 ≤ n ∧ n ≤ 59 then 48 + (n - 48 + base) % 12 else n

/-- A register as a unit's instruction reads it: k62 reads 0 tagged B64 (R98), k-registers rotate (R109),
s-registers carry no tags and read as B64 (R120). -/
def ProgUnit.read (u : ProgUnit) (i n : Nat) : Reg :=
  match u.kind with
  | .warp => (u.lane i).reg n
  | .context => if n = 62 then { v := 0, tag := .b64 } else (u.lane i).reg (rotated u.base n)
  | .front | .handler => { (u.lane i).reg n with tag := .b64 }

/-- Whether a predicate satisfies a guard mode (R10). -/
def guardHolds : GuardMode → Pred → Bool
  | .always, _ => true
  | .ifT, p => p == .t
  | .ifF, p => p == .f
  | .ifU, p => p == .u

/-! ## The view of an issuing instruction -/

/-- What an issuing instruction sees: where it issues, the unit as its sources read it, the active lanes and
those the guard selects, its cluster and slot, its address and the address after it. -/
structure View where
  core : Nat
  unit : Nat
  split : Nat
  u : ProgUnit
  sp : Split
  act : Mask
  sel : Mask
  cl : Nat
  slot : Nat
  addr : Word
  next : Word
  /-- its entry has the lanes checked pass by pass; else an instruction's first cause names every lane that meets it -/
  passes : Bool := false

/-- The selected lanes in ascending order. -/
def View.lanes (v : View) : List Nat := (List.range v.u.lanes.length).filter v.sel.getLsbD

/-- The active lanes in ascending order. -/
def View.actives (v : View) : List Nat := (List.range v.u.lanes.length).filter v.act.getLsbD

/-- Lanes grouped by pass (R53, R55); a context and the front end have one. -/
def View.byPass (v : View) (l : List Nat) : List (List Nat) :=
  match v.u.kind with
  | .warp => (List.range (v.u.lanes.length / v.u.qlanes + 1)).filterMap fun p =>
      let g := l.filter fun i => i / v.u.qlanes == p
      if g.isEmpty then none else some g
  | _ => if l.isEmpty then [] else [l]

/-- The groups of selected lanes that an instruction checks one after another (R17, R172, R271): all at once (R120, R124), or a
pass at a time where its chapter says so. -/
def View.groups (v : View) : List (List Nat) :=
  if v.passes then v.byPass v.lanes else if v.lanes.isEmpty then [] else [v.lanes]

/-- The split of a unit. -/
def ProgUnit.split (u : ProgUnit) (k : Nat) : Split := u.splits[k]?.getD { mask := 0, pc := 0, rpc := 0 }

/-- The unit with split k changed by f. -/
def ProgUnit.modSplit (u : ProgUnit) (k : Nat) (f : Split → Split) : ProgUnit :=
  { u with splits := u.splits.modify k f }

/-- The unit that issues, changed by f. -/
def State.modU (s : State) (v : View) (f : ProgUnit → ProgUnit) : State := s.modUnit v.core v.unit f

/-- The issuing split's PC set; in an open bundle, the bundle's target (R112: a branch of the bundle). -/
def State.jump (s : State) (v : View) (pc : Word) : State :=
  match v.u.kind with
  | .context => { s with bundle := s.bundle.map fun b => { b with target := some pc } }
  | _ => s.modU v fun u => u.modSplit v.split fun p => { p with pc := pc }

/-- The unit that issues, as it stands now (in a bundle, with the earlier slots' writes). -/
def State.me (s : State) (v : View) : ProgUnit := (s.unit v.core v.unit).getD v.u

/-- The block of the issuing unit. -/
def State.myBlk (s : State) (v : View) : Block :=
  (s.blk v.core).getD { inst := 0, launch := 0, index := 0, gidx := 0, bidx := 0, stage := 0, vgroups := 0, units := [] }

/-! ## Where a unit stops -/

/-- Waits in which a warp's split may be stopped (R71, R225). -/
def WaitKind.long : WaitKind → Bool
  | .barrier | .guard | .signal | .decision | .decisionFull | .stageFull | .sleep | .event | .partner | .context | .warpSlot
  | .fill | .engine | .reply | .pinned => true
  | _ => false

/-- Waits in which a context may be stopped: the switch points of R59, the long waits of R100 and the wait of EXPAND (R111). -/
def WaitKind.stops : WaitKind → Bool
  | .load | .engine | .event | .reply | .barrier | .signal | .guard | .sleep | .stageFull | .pinned | .warpSlot => true
  | _ => false

/-- Waits at which the VLIW side switches contexts (R59). -/
def WaitKind.switches : WaitKind → Bool
  | .load | .engine | .event | .reply => true
  | _ => false

/-- Whether a context may be stopped in a wait; a matrix-slot syllable that a request to stop holds back is one (R353, R362). -/
def Wait.stops (w : Wait) : Bool := w.kind.stops || w.kind == .array && w.a == 1

/-- Whether a split stands at its region entry. -/
def Split.atEntry (t : Split) : Bool := !t.moved && t.pc == t.rpc

/-- Whether a unit has stopped at a point of R225. A trapped unit stands still; a context with an answer of NEXTTILE in flight has
not stopped (R305). -/
def ProgUnit.stopped (p : ProgUnit) : Bool :=
  p.nextTile.isEmpty && (p.trap.isSome || match p.kind with
    | .warp => p.splits.all fun t => t.mask == 0 || t.joined || t.atEntry || t.waits.any (·.kind.long)
    | .context => p.splits.all fun t => t.atEntry || t.waits.any Wait.stops
    | _ => true)

/-- Whether a block that is asked to stop lets a unit run on (R225). -/
def Block.lets (b : Block) (p : ProgUnit) : Bool := b.stop.isNone || !p.stopped

/-- Whether the handler has stopped its block's other units for a new division (R242). -/
def Block.dividing (b : Block) : Bool := (b.unit 21).any fun p => p.splits.any fun t => t.waits.any (·.kind == .handler)

/-- Whether a block lets unit u of its core issue (R225, R227, R242): a context with an open reduction runs on to its MRETIRE
(R353). -/
def State.letsIssue (s : State) (c u : Nat) (b : Block) (p : ProgUnit) : Bool :=
  !((b.stop.isSome || b.dividing) && p.stopped) || (p.trap.isNone && (s.core c).arr.opened.contains u)

/-- The asynchronous record that a split at its region entry takes: the lowest cause code, one per region entry (R224). A handler with M = 1 holds
it back (R221), a front-end instruction is always an entry (R216), and an instruction whose wait has ended its region completes
first. (DEDUCED, log 57: unsafe.) -/
def State.asyncDue (s : State) (c : Nat) (p : ProgUnit) (k : Nat) : Option Frame :=
  if (p.kind != .front && !(p.split k).atEntry) || (p.split k).closed || p.asyncHere || p.kind == .handler || (s.core c).hnd.any (·.m) then none
  else (List.range 64).findSome? fun n => p.asyncs.find? fun f => f.cause.code == n

/-- Whether a split that stands at a region entry does not go on from it: it takes an asynchronous trap there (R224), or its
block stops (R225, R242). -/
def State.heldAtEntry (s : State) (c u k : Nat) : Bool :=
  match s.blk c, s.unit c u with
  | some b, some p => (s.asyncDue c p k).isSome || !s.letsIssue c u b p
  | _, _ => false

/-! ## Region ends -/

/-- The checkpoint of R106 and of the matrix latches and counts (R349, R350): entries popped are freed. -/
def ProgUnit.checkpoint (u : ProgUnit) : ProgUnit :=
  let popped := u.q.loads.takeWhile (·.popped)
  let base := u.q.base + popped.length
  let loads := u.q.loads.drop popped.length
  { u with
    q := { u.q with
      loads := loads, base := base, since := []
      mark := { pop := base, push := base + loads.length, addrs := u.q.nAddrs, datas := u.q.nDatas, pairs := u.q.nPairs } }
    latchEntry := u.latch, beatsEntry := u.beats }

/-- The queues rewound to the checkpoint (R106): later entries are discarded, popped entries are unpopped,
faults are asked again, pairs completed since are split again. -/
def AccessQueues.rewind (q : AccessQueues) : AccessQueues :=
  let keep := q.loads.take (q.mark.push - q.base)
  let addrs := (q.since.map (·.1) ++ q.addrs).take (q.mark.addrs - q.mark.pairs)
  let datas := (q.since.map (·.2) ++ q.datas).take (q.mark.datas - q.mark.pairs)
  { q with
    loads := keep.map fun e => { e with
      popped := false, ans := match e.ans with | .fault _ _ _ => .pending | a => a }
    addrs := addrs, datas := datas, nAddrs := q.mark.addrs, nDatas := q.mark.datas, nPairs := q.mark.pairs, since := [] }

/-- The MSCALE values that are due take effect, the newest last (R348). -/
def ProgUnit.settleScales (u : ProgUnit) : ProgUnit :=
  { u with
    latch := ((u.pending.filter (·.1 ≤ u.issues)).getLast?.map (·.2)).getD u.latch
    pending := u.pending.filter fun p => decide (u.issues < p.1) }

/-- A new region of a unit begins (R149, R216): the counter increments, every live split's current PC becomes
its own region entry, and a context takes its checkpoint. -/
def ProgUnit.newRegion (p : ProgUnit) : ProgUnit :=
  let q : ProgUnit := { p with
    rcnt := p.rcnt + 1, since := 0, asyncHere := false, splits := p.splits.map fun t : Split => { t with rpc := t.pc, moved := false } }
  q.checkpoint

/-- An instruction whose wait ended the region completes: the next instruction is the region entry, counted as the wait began. -/
def State.afterWait (s : State) (v : View) : State :=
  s.modU v fun u => { u.modSplit v.split fun p => { p with rpc := p.pc, moved := false, closed := false } with since := u.since - 1 }

/-- The region of the issuing unit ends before the instruction takes effect, its pail committed (R148); the next
instruction is the region entry, the PC having been advanced. In a bundle the entry is made at its close. The
front end commits at issue and only counts (R216). An instruction that has waited ended the region as its wait began. -/
def State.closeRegion (s : State) (v : View) : State :=
  match v.u.kind with
  | .context =>
    let s0 := s.answerAll v.core v.unit
    let s1 := s0.commitPail v.core v.unit
    { s1 with bundle := s1.bundle.map fun b =>
        { b with ended := true, endSlot := v.slot, late := b.late || s0.lateLoad v.core v.unit } }
  | _ =>
    if v.sp.closed then s.afterWait v
    else (s.commitPail v.core v.unit).modU v ProgUnit.newRegion

/-- The instruction or bundle itself becomes the region entry (R100, R149, R150, R217). -/
def State.enterRegion (s : State) (v : View) : State :=
  let s1 := match v.u.kind with
    | .context => s.answerAll v.core v.unit
    | _ => s
  if v.sp.closed && v.u.kind == .warp then s.modU v fun u => u.modSplit v.split fun p => { p with rpc := v.addr, moved := true }
  else (s1.commitPail v.core v.unit).modU v fun u =>
    { (u.newRegion).modSplit v.split fun p => { p with rpc := v.addr, moved := true } with
      since := match u.kind with
        | .context => 0
        | _ => 1 }

/-- The unit stands at the instruction, which has become the region entry and has not issued. -/
def State.standAt (s : State) (v : View) : State :=
  (s.enterRegion v).modU v fun u =>
    { u.modSplit v.split fun p => { p with pc := v.addr, waits := [], moved := false } with since := 0 }

/-- The instruction becomes the region entry (R149, R150) and goes on as f says, but where its unit is to take an asynchronous
trap or to stop for its block: that happens at this entry, before the instruction (R224, R225). -/
def State.entering (s : State) (v : View) (f : State → Eff) : Eff :=
  if (s.standAt v).heldAtEntry v.core v.unit v.split
  then .error (.trapped ((s.standAt v).modU v fun u => { u with fox := u.fox - 8 })) else f (s.enterRegion v)

/-- An instruction that ends the region begins to wait: the region ends before it (R148), the counter increments, and every
split's current PC becomes its own region entry, this one's being the instruction (R216). It ends no second region as it
completes. In a bundle the stall itself ends the region where R100 says so. (DEDUCED, log 33: unsafe.) -/
def State.waitRegion (s : State) (v : View) : State :=
  match v.u.kind with
  | .warp =>
    let s1 := if v.sp.closed then s else (s.commitPail v.core v.unit).modU v ProgUnit.newRegion
    s1.modU v fun u => u.modSplit v.split fun p => { p with rpc := v.addr, closed := true }
  | _ => s

/-- An instruction that ends the region waits. -/
def parkEnd (v : View) (w : Wait) (s : State) : Eff := .error (.park w (s.waitRegion v))

/-! ## Trap frames -/

/-- Start of the save slot of a block (R228). -/
def State.slotVa (s : State) (b : Block) : Word := (s.rcd b).trapArea + .ofNat 64 (0x2000000 * (b.index % 256))

/-- VA of the trap frame of a unit (R229). -/
def State.frameVa (s : State) (b : Block) (u : Nat) : Word := s.slotVa b + .ofNat 64 (0x1000 + 0x100 * u)

/-- The 256 bytes of a trap frame (R219). -/
def Frame.bytes (f : Frame) (s : State) (c : Nat) (p : ProgUnit) : List Byte :=
  let w (x : Word) : List Byte := leBytes 8 x.toNat
  leBytes 1 f.cause.code ++ leBytes 1 f.kind ++ leBytes 1 f.unit ++ leBytes 1 f.slot ++ leBytes 1 f.rk ++ leBytes 3 0
    ++ w f.pc ++ w f.rpc ++ w f.rcnt ++ w f.resume ++ leBytes 8 f.mask.toNat ++ leBytes 8 (f.mask.toNat / 2 ^ 64)
    ++ w f.info1 ++ w f.info2 ++ w f.cmdpc ++ w f.cmdseq ++ leBytes 8 s.cyc ++ leBytes 8 (s.core c).lclk
    ++ leBytes 8 (p.evp.toNat + 256 * p.evm.toNat) ++ leBytes 144 0

/-- Whether a request to stop comes from a failure that lets no handler go on (R221, R228). -/
def StopReq.failed (r : StopReq) : Bool := r.cause == .handlerWatchdog || r.cause == .machineCheck

/-- A request to stop the block of a core, unless one is held (R218, R227); a halt takes over a pre-emption, and a failure
of the handler or the save slot takes over both (R221, R228). -/
def State.stopBlk (s : State) (c : Nat) (r : StopReq) : State :=
  s.modBlk c fun b => { b with stop := match b.stop with
    | none => some r
    | some o => if (o.state = 2 ∧ r.state = 3) ∨ (o.state ≠ 0 ∧ r.failed ∧ !o.failed) then some { r with held := r.held || o.held }
      else some o }

/-- The device's own store of at most 64 KiB for core c at a physical address: the core's committed stores come before it,
and the core's L1 copies follow it (R219). -/
def State.ownWrite (s : State) (c pa : Nat) (bs : List Byte) : State :=
  ((s.landAll c).sliceWrite c pa bs 0).touchSpan pa bs.length true (s.instOf c)

/-- The device's own store of at most 64 KiB at a VA of a save slot, page by page; none where a page does not translate. -/
def State.tryWrite (s : State) (c : Nat) (va : Word) (bs : List Byte) : Option State :=
  let room := 0x10000 - va.toNat % 0x10000
  match s.translate c .store va with
  | .error _ => none
  | .ok pa =>
    let s1 := s.ownWrite c pa (bs.take room)
    if bs.length ≤ room then some s1
    else match s1.translate c .store (va + .ofNat 64 room) with
      | .error _ => none
      | .ok pb => some (s1.ownWrite c pb (bs.drop room))

/-- The device's own store at a VA of a block's save slot: a translation fault there is a MACHINE_CHECK and halts the
block (R228). -/
def State.slotWrite (s : State) (c : Nat) (va : Word) (bs : List Byte) : State :=
  (s.tryWrite c va bs).getD (s.stopBlk c { cause := .machineCheck, state := 3 })

/-- Whether another core pins a line of n bytes at a VA of a save slot, which refuses the device's access (R159). -/
def State.slotPinned (s : State) (c : Nat) (va : Word) (n : Nat) : Option (Nat × Nat) :=
  (List.range ((va.toNat % 128 + n + 127) / 128)).findSome? fun k =>
    match s.translate c .store (.ofNat 64 (va.toNat / 128 * 128 + 128 * k)) with
    | .ok pa => (s.pinHolder c pa).map (·, pa)
    | .error (.pinned j line) => some (j, line)
    | .error _ => none

/-- The device's own load of at most 64 KiB at a VA of a save slot. -/
def State.slotRead (s : State) (c : Nat) (va : Word) (n : Nat) : Option (List Byte) :=
  let room := 0x10000 - va.toNat % 0x10000
  match s.translate c .load va with
  | .error _ => none
  | .ok pa =>
    if n ≤ room then some (s.homeRead pa n)
    else match s.translate c .load (va + .ofNat 64 room) with
      | .error _ => none
      | .ok pb => some (s.homeRead pa room ++ s.homeRead pb (n - room))

/-- The lines of n bytes at a VA of a save slot that the device reads for a core, at their home slices (R395). -/
def State.touchSlot (s : State) (c : Nat) (va : Word) (n : Nat) : State :=
  (List.range ((va.toNat % 128 + n + 127) / 128)).foldl (fun s k =>
    match s.translate c .load (.ofNat 64 (va.toNat / 128 * 128 + 128 * k)) with
    | .ok pa => s.touchL2 pa 0 false (s.instOf c)
    | .error _ => s) s

/-! ## Taking a trap and returning -/

/-- The handler starts on a frame (R218): its bank keeps the last handler's values but for s0 and s1. -/
def State.startHandler (s : State) (c : Nat) (f : Frame) : State :=
  match s.blk c with
  | none => s
  | some b =>
    let va := s.frameVa b f.unit
    let bank := ((s.core c).hbank.set 0 (mkReg va .b64)).set 1 (mkReg (.ofNat 64 f.cause.code) .b64)
    let pc := (s.inst b.inst).trapbase + (if f.kind = 3 then 0x800 else 0)
    let h : Handler := { unit := f.unit, cause := f.cause.code, svc := f.kind == 3, start := s.cyc, frameVa := va, frame := f }
    let p : ProgUnit := { kind := .handler, lanes := [{ regs := bank }], splits := [{ mask := 1, pc := pc, rpc := pc, ready := s.cyc }] }
    ((s.setBlk c (b.setUnit 21 p)).modCore c fun k => { k with hnd := some h }).trace c 21 pc 2 [pc]

/-- The frame of a trap is written to its place in the save slot (R219, R229). -/
def State.putFrame (s : State) (c : Nat) (b : Block) (f : Frame) : State :=
  let p := (b.unit f.unit).getD { kind := .front, lanes := [], splits := [] }
  s.slotWrite c (s.frameVa b f.unit) (f.bytes s c p)

/-- A frame is written and its unit waits for the handler, which starts at once when none runs (R218). With
TRAPBASE 0 no handler runs and the block stops, halted, with cause HANDLER_WATCHDOG. A frame whose line another core pins
waits to be written (R159). A unit has one frame: a trap of a context whose service request waits or is served overwrites that
request's. (DESIGN CHOICE, log 97: unsafe.) -/
def State.deliver (s : State) (c : Nat) (f : Frame) : State :=
  match s.blk c with
  | none => s
  | some b =>
    match s.slotPinned c (s.frameVa b f.unit) 256 with
    | some (k, pa) =>
      let s1 := (s.markRefused k pa).modCore c fun k => { k with trapQ := k.trapQ ++ [{ f with unwritten := true }] }
      if (s.inst b.inst).trapbase = 0 then s1.stopBlk c { cause := .handlerWatchdog, state := 3 } else s1
    | none =>
      let s1 := s.putFrame c b f
      if ((s1.blk c).map fun t => t.stop.any fun r => r.cause == .machineCheck).getD false then
        s1.modCore c fun k => { k with trapQ := k.trapQ ++ [f] }
      else if (s.inst b.inst).trapbase = 0 then
        (s1.modCore c fun k => { k with trapQ := k.trapQ ++ [f] }).stopBlk c { cause := .handlerWatchdog, state := 3 }
      else match (s.core c).hnd, (s.core c).trapQ with
        | none, [] => s1.startHandler c f
        | _, _ => s1.modCore c fun k => { k with trapQ := k.trapQ ++ [f] }

/-- The frames of a core that a pin kept from being written are written, where no pin does so any more (R159, R218). -/
def State.writeFrames (s : State) (c : Nat) : State :=
  (s.core c).trapQ.zipIdx.foldl (fun s (f, n) => match s.blk c with
    | none => s
    | some b =>
      if !f.unwritten then s
      else match s.slotPinned c (s.frameVa b f.unit) 256 with
        | some (k, pa) => s.markRefused k pa
        | none => (s.putFrame c b f).modCore c fun k => { k with trapQ := k.trapQ.set n { f with unwritten := false } }) s

/-- The digest of a core's block takes in a branch outcome or a trap cause (R388, log 17). -/
def State.noteDigest (s : State) (c : Nat) (x : Word) : State :=
  s.modBlk c fun b => { b with digest := Config.digest b.digest x }

/-- The handler ends: its bank is kept for the next one, and its unit is gone. -/
def State.dropHandler (s : State) (c : Nat) : State :=
  let bank := ((s.unit c 21).map fun p => (p.lane 0).regs).getD (s.core c).hbank
  (s.modBlk c fun b => { b with units := b.units.set 21 none }).modCore c fun k => { k with hnd := none, hbank := bank }

/-- HANDLER_WATCHDOG (R221): the handler stops and its block is halted; the frame that it handled waits again. -/
def State.killHandler (s : State) (c : Nat) (cause : Cause := .handlerWatchdog) : State :=
  match (s.core c).hnd with
  | none => s
  | some h => ((s.dropHandler c).modCore c fun k => { k with trapQ := h.frame :: k.trapQ }).stopBlk c
      { cause := cause, state := 3 }

/-- The causes that a translation raises (R238, R239). -/
def translationCause : Cause → Bool
  | .pageAbsent | .pageProtect | .walkError | .hostGone => true
  | _ => false

/-- TAKING A TRAP (R218, R219): the unit stops with its frame. A fault of the handler itself stops its block
(R221). The walk that has met a fault has read its entries (R395). (DEDUCED, log 29: unsafe.) -/
def State.takeTrap (s0 : State) (c u split : Nat) (f : Frame) : State :=
  let s := if f.kind = 0 && translationCause f.cause then s0.fillTlb c f.info1 else s0
  match s.unit c u with
  | none => s
  | some p =>
    if p.kind == .handler then s.killHandler c
    else
      (((s.setUnit c u { p with trap := some f, trapSplit := split }).trace c u f.pc 0xA
        [.ofNat 64 u, .ofNat 64 f.cause.code, .ofNat 64 f.kind]).noteDigest c (.ofNat 64 f.cause.code)).deliver c f

/-- The causes whose report names its place by the two-level name (R380). -/
def reportsPlace : Cause → Bool
  | .breakpoint | .watchpoint | .singleStep => true
  | _ => false

/-- A frame with the two-level name of its place, where it is a breakpoint's report (R380). -/
def Frame.named (f : Frame) (s : State) (c : Nat) : Frame :=
  if reportsPlace f.cause then { f with cmdpc := (s.nameAt c).1, cmdseq := (s.nameAt c).2 } else f

/-- The frame of a trap that an instruction asks for (R219). A front-end instruction is its own region entry. -/
def View.frame (v : View) (s : State) (t : TrapReq) : Frame :=
  let p := s.me v
  let rpc := match v.u.kind with | .front => v.addr | _ => (p.split v.split).rpc
  let resume := t.resume.getD (if t.kind = 0 then rpc else match v.u.kind with
    | .context => v.next
    | _ => (p.split v.split).pc)
  Frame.named (s := s) (c := v.core) {
    cause := t.cause, kind := t.kind, unit := v.unit
    slot := if t.kind = 3 then t.port else match v.u.kind with | .context => v.slot | _ => 0xFF
    rk := if t.kind = 0 then 0 else 1
    pc := v.addr, rpc := rpc, rcnt := p.rcnt, resume := resume, mask := t.lanes, info1 := t.info1, info2 := t.info2 }

/-- The unit runs on from a PC after a trap: what another agent has completed for the instruction there is kept (R335); with RK 0 its held stores are discarded, its queues rewind and
every other live split that has left its region entry returns to it; with RK 1 all are kept (R148, R216, R222). -/
def ProgUnit.resumeAt (p : ProgUnit) (rk : Nat) (pc : Word) (waits : List Wait := []) : ProgUnit :=
  let q : ProgUnit := if rk % 2 = 1 then p else
    { p with
      pail := [], q := p.q.rewind, latch := p.latchEntry, pending := []
      suppress := p.beats + p.suppress - p.beatsEntry, beats := p.beatsEntry
      splits := p.splits.map fun t => if t.joined || t.pc == t.rpc then t else { t with pc := t.rpc, waits := [], closed := false, moved := false } }
  { q with trap := none, splits := q.splits.modify p.trapSplit fun t =>
    { t with pc := pc, waits := waits ++ (if pc == t.pc then t.waits.filter (·.done) else []), closed := false, moved := if rk % 2 = 1 then t.moved else pc != t.rpc } }

/-- Whether a block is asked to stop for a reason that lets no further handler start. -/
def Block.dying (b : Block) : Bool := b.stop.any StopReq.failed

/-- The next frame that waits for the handler is entered (TRAP_ENTRY, R218); with TRAPBASE 0 the block stops. -/
def State.nextHandler (s : State) (c : Nat) : State :=
  match s.blk c, (s.core c).hnd, (s.core c).trapQ with
  | some b, none, f :: rest =>
    if b.dying then s.writeFrames c
    else if (s.inst b.inst).trapbase = 0 then (s.writeFrames c).stopBlk c { cause := .handlerWatchdog, state := 3 }
    else if !f.unwritten then (s.modCore c fun k => { k with trapQ := rest }).startHandler c f
    else match s.slotPinned c (s.frameVa b f.unit) 256 with
      | some (k, pa) => s.markRefused k pa
      | none =>
        let s1 := (s.modCore c fun k => { k with trapQ := { f with unwritten := false } :: rest }).putFrame c b f
        if ((s1.blk c).map Block.dying).getD false then s1
        else (s1.modCore c fun k => { k with trapQ := rest }).startHandler c { f with unwritten := false }
  | _, _, _ => s

/-- RETURNING FROM A TRAP (TRET, R222): none where RESUME is not a multiple of 8, which is a fault of TRET. The
frame's RESUME and RK are read from memory, where the handler may have rewritten them: its own stores land before. -/
def State.returnTrap (s : State) (c : Nat) (h : Handler) : Option State :=
  match s.blk c with
  | none => none
  | some _ =>
    if h.svc then some (s.dropHandler c)
    else
      let s := (s.landAll c).touchSlot c h.frameVa 0x40
      match s.slotRead c h.frameVa 0x40 with
      | none => none
      | some bs =>
        let resume := BitVec.ofNat 64 (leNat ((bs.drop 0x20).take 8))
        let rk := (bs[4]?.getD 0).toNat
        if resume.toNat % 8 ≠ 0 then none
        else
          let p := (s.unit c h.unit).getD { kind := .front, lanes := [], splits := [] }
          let f := p.trap.getD { cause := .none }
          let again := f.cause == .copyLate && resume == f.pc
          let waits : List Wait := if again then [{ kind := .sleep, since := s.cyc, a := leNat ((bs.drop 0x38).take 8), b := if f.slot = 0xFF then 0 else f.slot }] else []
          let s1 := ((s.modUnit c h.unit fun p => { p.resumeAt rk resume waits with stepped := false }).dropHandler c).trace c h.unit resume 2 [resume]
          some (if p.stepped then
            s1.takeTrap c h.unit p.trapSplit (Frame.named (s := s1) (c := c) { f with
              cause := .singleStep, kind := 1, rk := 1, resume := resume, info1 := 0, info2 := 0 }) else s1)

/-! ## Issue -/

/-- What the decoder knows of a unit. -/
def ProgUnit.env (p : ProgUnit) : DecEnv :=
  { mode := p.kind.mode, lim := (p.lane 0).regs.length, width := p.lanes.length }

/-- The guard, cluster and stop bit of an instruction's word. -/
structure Head where
  g : Guard := {}
  cl : Nat := 0
  deriving DecidableEq, Repr

end Sys2Proof.Machine

namespace Sys2Proof

/-- The guard and cluster of an arithmetic word. -/
def ArithWord.head (w : ArithWord) : Machine.Head := { g := w.g, cl := w.site.cluster }

/-- The guard and cluster of an immediate word. -/
def ImmWord.head (w : ImmWord) : Machine.Head := { g := w.g, cl := w.site.cluster }

/-- The guard and cluster of a memory word. -/
def MemWord.head (w : MemWord) : Machine.Head := { g := w.g, cl := w.site.cluster }

/-- The guard and cluster of an atomic word. -/
def AtomWord.head (w : AtomWord) : Machine.Head := { g := w.g, cl := w.site.cluster }

/-- The guard and cluster of a branch word. -/
def BranchWord.head (w : BranchWord) : Machine.Head := { g := w.g, cl := w.site.cluster }

/-- The guard and cluster of an address syllable. -/
def AddrWord.head (w : AddrWord) : Machine.Head := { g := w.g, cl := w.cl.toNat }

/-- Number of one bits among the low n bits. -/
def popCount : Nat → Nat → Nat
  | 0, _ => 0
  | n + 1, v => v % 2 + popCount n (v / 2)

/-- Number of set bits of an event mask. -/
def bits8 (e : BitVec 8) : Nat := popCount 8 e.toNat

/-- Whether an instruction checks its lanes pass by pass: the memory, tile, float and interval entries (R172, R212, R263, R271). -/
def Instr.byPass (i : Instr) : Bool :=
  match i with
  | .ld _ | .st _ | .ldp _ | .stp _ | .pref _ | .demote _ | .atom _ | .cas _ | .alloc _ | .free _ | .amx _ => true
  | .ldt _ | .stt _ | .atomt _ => true
  | .fadd _ | .fsub _ | .fmul _ | .ffma _ | .fmin _ | .fmax _ | .fdiv _ | .fsqrt _ | .frcp _ | .frsq _ | .fexp2 _ | .flog2 _
  | .fsinpi _ | .fcospi _ | .fcmp _ | .fclass _ | .frnd _ | .fdot _ | .cvt _ | .qnt _ => true
  | .ivmake _ | .ivlo _ | .ivhi _ | .ivmid _ | .ivwid _ | .ivhull _ | .ivisect _ | .ivsqr _ | .ivabs _ | .ivcont _ | .ivsplit _
  | .ivpop _ => true
  | _ => false

/-- The source fields of a cluster operation in the order A, B, C (R34); an operation of a special slot names no queue port
(R33). -/
def Instr.sources (i : Instr) : List Nat :=
  match i with
  | .iadd w | .isub w | .imul w | .imulh w | .idiv w | .irem w | .imin w | .imax w | .icmp w | .and w | .or w | .xor w | .andn w
  | .shl w | .shr w | .sar w | .rotl w | .bfi w | .lea w | .fadd w | .fsub w | .fmul w | .fmin w | .fmax w | .fdiv w | .fcmp w
  | .ivmake w | .ivhull w | .ivisect w | .ivcont w | .copy w | .talloc w => [w.a.toNat, w.b.toNat]
  | .gather w | .scatter w => [w.a.toNat, w.a.toNat + 1, w.b.toNat]
  | .coll w | .peerwr w | .peerrd w => [w.a.toNat, w.b.toNat, w.b.toNat + 1, w.c.toNat]
  | .imad w | .sel w | .ffma w | .fdot w | .peersig w | .bind w => [w.a.toNat, w.b.toNat, w.c.toNat]
  | .sqpush w => (List.range 8).map (w.a.toNat + ·)
  | .cmdstat w => if w.sub = 1 then [] else [w.a.toNat]
  | .mdrain w | .mhad w | .mzero w => [w.c.toNat]
  | .atomt w => [w.a.toNat, w.b.toNat, w.c.toNat]
  | .unbind w => if w.sub = 0 then [w.a.toNat, w.b.toNat, w.c.toNat] else [w.a.toNat]
  | .iabs w | .ineg w | .popc w | .clz w | .ctz w | .brev w | .not w | .bfx w | .mov w | .retag w | .writesr w | .fsqrt w | .frcp w
  | .frsq w | .fexp2 w | .flog2 w | .fsinpi w | .fcospi w | .fclass w | .frnd w | .cvt w | .ivlo w | .ivhi w | .ivmid w | .ivwid w
  | .ivsqr w | .ivabs w | .itopr w | .send w | .sleepuntil w | .pmcfg w | .trmark w => [w.a.toNat]
  | .movhi w | .iaddi w | .imuli w | .andi w | .ori w | .xori w | .shli w | .shri w | .sari w | .icmpi w => [w.a.toNat]
  | .evbind (.syl w) => [w.a.toNat, w.b.toNat, w.c.toNat]
  | .signal w => [w.a.toNat, w.b.toNat]
  | .swait w => [w.a.toNat, w.c.toNat]
  | .acq w => if w.d.getLsbD 0 then [w.a.toNat, w.b.toNat] else [w.a.toNat]
  | .rel w => [w.a.toNat]
  | .tfill w => [w.c.toNat]
  | .mamap w => [w.a.toNat]
  | .mloadb w => [w.b.toNat]
  | _ => []

end Sys2Proof

namespace Sys2Proof.Machine

/-- The slot of an opcode in a bundle (R32): the cluster, or the special slot of the opcode. -/
def slotOf (i : Instr) (cl : Nat) : Nat :=
  match i with
  | .pusha _ | .pushs _ | .qstat _ => 32
  | .mbeatPush _ | .mbeatAcc _ | .mbeatShift _ | .mbeatDrain _ | .mretire _ => 33
  | .mscale _ => 34
  | .rqpop _ | .xmov _ | .xbcast _ => 35
  | .bra _ | .jmp _ | .call _ | .ret _ | .loop _ | .endloop _ | .exit _ | .waitany _ | .syssend _ | .sysrecv _ | .expand _ => 37
  | _ => cl

/-- The view of the issuing unit for a word with a head, or none where the place holds no unit, a trapped unit
or a split that waits at a join. -/
def State.view (s : State) (i : Instr) (h : Head) : Option View :=
  match s.unit s.cur.core s.cur.unit with
  | none => none
  | some p =>
    match p.splits[s.cur.split]? with
    | none => none
    | some sp =>
      if p.trap.isSome || sp.joined then none
      else match s.bundle with
        | none =>
          let reads := p
          let act := match p.kind with
            | .warp => sp.mask
            | .context => BitVec.twoPow 128 h.cl
            | _ => 1
          some {
            core := s.cur.core, unit := s.cur.unit, split := s.cur.split, u := reads, sp := sp, act := act
            sel := maskOf reads.lanes.length fun k => act.getLsbD k && guardHolds h.g.gm ((reads.lane k).pred h.g.pg.toNat)
            cl := h.cl, slot := slotOf i h.cl, addr := sp.pc, next := sp.pc + 8, passes := i.byPass }
        | some b =>
          let act := BitVec.twoPow 128 h.cl
          some {
            core := s.cur.core, unit := s.cur.unit, split := s.cur.split, u := b.pre, sp := sp, act := act
            sel := maskOf b.pre.lanes.length fun k => act.getLsbD k && guardHolds h.g.gm ((b.pre.lane k).pred h.g.pg.toNat)
            cl := h.cl, slot := b.slot, addr := b.addr, next := b.next, passes := i.byPass }

/-- The decoder's checks that an instruction meets before it executes (R43, steps 4 to 10). -/
def preCheck (v : View) (i : Instr) : Option Cause :=
  if !Instr.allowed v.u.kind.mode i then some .wrongMode
  else if v.u.kind == .context && decide (v.u.k ≤ v.cl) then some .badGroup
  else i.check v.u.env

/-- The lanes that a decode fault names (R44): every active lane, in a context every cluster. -/
def View.whole (v : View) : Mask :=
  match v.u.kind with
  | .context => maskOf v.u.k fun _ => true
  | _ => v.act

/-- The PC moves past the word, and the instruction counts (R150, R308); its split and its unit issue in this cycle (R306). -/
def State.advance (s : State) (v : View) : State :=
  s.modU v fun u =>
    { u.modSplit v.split fun p => { p with pc := v.next, waits := [], moved := true, closed := false, last := s.cyc, promoted := false } with
      since := u.since + 1, fox := u.fox + 8, issued := s.cyc, asyncHere := u.asyncHere && u.kind != .front }

/-- The cycle in which the instruction of a split first issued, where it waits; else this one (R66, R74). -/
def Split.firstIssue (p : Split) (cyc : Nat) : Nat := (p.waits.head?.map (·.first)).getD cyc

/-- A wait that a repeated instruction begins again has gone on since it first began; a refused access counts anew (R159). -/
def Split.keepSince (p : Split) (cyc : Nat) (w : Wait) : Wait :=
  let first := p.firstIssue cyc
  match p.waits.find? fun x => x.kind == w.kind && x.kind != .pinned && x.a == w.a with
  | some x => { w with since := x.since, first := first }
  | none => { w with first := first }

/-- The waits of the issuing split, whose PC stays at the instruction: the instruction has not been issued to the end, and does not
count (R150, R308). -/
def State.park (s : State) (v : View) (w : Wait) : State :=
  s.modU v fun u =>
    { u.modSplit v.split fun p => { p with pc := v.addr, waits := [v.sp.keepSince s.cyc w], moved := p.moved && v.sp.moved, closed := v.sp.closed || p.closed } with
      since := u.since - 1, fox := u.fox - 8 }

/-- A trap of the issuing instruction from a state. One of kind 1 that follows the instruction leaves SINGLE_STEP due
at TRET where STEP = 1 (R381, R389). -/
def State.trapNow (s : State) (v : View) (t : TrapReq) : State :=
  let step := t.kind == 1 && t.resume.isNone && t.cause != .singleStep && (s.inst (s.instOf v.core)).dbgctl.getLsbD 1
  (s.modU v fun u => { u.modSplit v.split fun p => { p with last := s.cyc, promoted := false } with stepped := step, issued := s.cyc }).takeTrap
    v.core v.unit v.split (v.frame s t)

/-- SINGLE_STEP of a unit after an instruction at an address (R381): with STEP = 1 every instruction outside a handler traps after it,
kind 1. -/
def State.stepUnit (s : State) (c u k : Nat) (addr : Word) (lanes : Mask) : State :=
  match s.unit c u with
  | none => s
  | some p =>
    if !(s.inst (s.instOf c)).dbgctl.getLsbD 1 || p.trap.isSome || p.kind == .handler then s
    else
      let t := p.split k
      s.takeTrap c u k (Frame.named (s := s) (c := c) {
        cause := .singleStep, kind := 1, unit := u, slot := 0xFF, rk := 1, pc := addr
        rpc := (match p.kind with | .front => addr | _ => t.rpc), rcnt := p.rcnt, resume := t.pc, mask := lanes })

/-- Single-step after the instruction or bundle at hand. -/
def State.stepTrap (s : State) (v : View) : State := s.stepUnit v.core v.unit v.split v.addr v.act

/-- The passes of a warp's instruction that has issued, and those that it skips, are counted (R387). -/
def State.countPasses (s : State) (c : Nat) (p : ProgUnit) (passes : Nat) : State :=
  match p.kind with
  | .warp => (s.count c 0x00 passes).count c 0x01 (p.lanes.length / p.qlanes - passes)
  | _ => s

/-- An instruction of a warp, the front end or the handler has been issued to its end: passes counted (R387). -/
def State.accounted (s : State) (v : View) : State :=
  (s.modU v fun u => { u with aged := [false, false, false, false] }).countPasses v.core v.u (v.byPass v.actives).length

/-- An instruction of a warp, the front end or the handler has completed. -/
def State.completed (s : State) (v : View) : State := (s.accounted v).stepTrap v

/-- The wait for a release that is not complete (R147). -/
def releaseWait (s : State) : Wait := { kind := .release, since := s.cyc }

/-- Whether a store that a warp holds has issued after an access of another split than k to bytes of it, and that access has not been
performed: the store may not commit before it (R74). -/
def ProgUnit.lateStore (p : ProgUnit) (k : Option Nat) : Bool :=
  (p.splits.zipIdx).any fun (t, n) => some n != k && t.waits.any fun w => !w.done && !w.spans.isEmpty &&
    (if w.pail.isPrefixOf p.pail then p.pail.drop w.pail.length else p.pail).any fun h => h.items.any fun i => match i.place with
      | .phys a => w.spans.any fun x => decide (a < x.1 + x.2) && decide (x.1 < a + i.bytes.length)
      | _ => false

/-- Whether an instruction of a warp that has led to a state has committed such a store (R74). -/
def State.overtakes (t : State) (v : View) : Bool :=
  v.u.kind == .warp && v.u.lateStore (some v.split) && !v.u.pail.isPrefixOf (t.me v).pail

/-- A word of a warp, the front end or the handler issues; one that would commit a store ahead of an earlier access of its warp waits for
that access (R74). -/
def issueWord (i : Instr) (s : State) (v : View) (body : View → State → Eff) : Host.Outcome State Fault Refusal :=
  match preCheck v i with
  | some c => .next (s.trapNow v { cause := c, lanes := v.whole })
  | none =>
    let ordered (t u : State) : Host.Outcome State Fault Refusal :=
      .next (if t.overtakes v then (s.advance v).park v (releaseWait s) else u)
    match body v (s.advance v) with
    | .ok t => ordered t (t.completed v)
    | .error (.raise r) => .next (s.trapNow v r)
    | .error (.raiseAt r t) => ordered t ((if r.kind = 1 then t.accounted v else t).trapNow v r)
    | .error (.park w t) => ordered t (t.park v w)
    | .error (.trapped t) => ordered t t
    | .error (.fault f) => .fault f
    | .error (.refuse r) => .refused r

/-- The frame of a syllable's fault: its bundle has no effect, so the region entry is the one that stood before it (R107). -/
def View.bundleFrame (v : View) (s : State) (t : TrapReq) : Frame :=
  let rpc := (v.u.split v.split).rpc
  { v.frame s t with rpc := rpc, rcnt := v.u.rcnt, resume := rpc }

/-- The slot that a pending MSCALE value exposes (R349): the region ends so that the next bundle, or by REGION this one,
would be a region entry before the value takes effect. -/
def State.exposed (s : State) (v : View) : Option Nat :=
  let p := s.me v
  match s.bundle with
  | none => none
  | some b =>
    if (b.ended && p.pending.any fun x => decide (p.issues + 1 < x.1))
      || (b.entered && p.pending.any fun x => decide (p.issues < x.1)) then some b.endSlot else none

/-- Whether a wait of a bundle ends the region at its first stall (R100). -/
def WaitKind.endsRegion : WaitKind → Bool
  | .barrier | .signal | .guard | .sleep | .stageFull | .pinned => true
  | _ => false

/-- A bundle with the pops of the load-data queue that one more operation of it makes, its checks passed (R43, R107). -/
def Bundle.withPops (b : Bundle) (i : Instr) (v : View) : Bundle :=
  { b with pops := b.pops + if v.sel = 0 ∨ (preCheck v i).isSome then 0 else (i.sources.filter (· == 63)).length }

/-- A syllable executes in the open bundle; its fault, wait or later trap is recorded for the bundle's close. -/
def issueSyl (i : Instr) (s : State) (v : View) (b : Bundle) (body : View → State → Eff) : Host.Outcome State Fault Refusal :=
  let failed (r : TrapReq) : Host.Outcome State Fault Refusal :=
    .next { s with bundle := some { b with fault := some (b.fault.getD (v.bundleFrame s r)) } }
  let exposed (slot : Nat) : Host.Outcome State Fault Refusal :=
    .next { s with bundle := some { b with
      fault := some (b.fault.getD { v.bundleFrame s { cause := .regionExposed, lanes := v.act } with slot := slot }) } }
  match preCheck v i with
  | some c => failed { cause := c, lanes := v.whole }
  | none =>
    match body v s with
    | .ok t => match t.exposed v with
      | some n => exposed n
      | none => .next t
    | .error (.raise r) => failed r
    | .error (.raiseAt r t) =>
      if (t.exposed v).isSome then exposed v.slot
      else if r.kind = 0 ∨ r.resume.isSome then
        .next { s with bundle := some { b with
          fault := some (b.fault.getD { v.frame t r with rpc := v.addr, resume := v.addr })
          committed := b.committed || (b.fault.isNone && !v.sp.closed) } }
      else .next { t with bundle := t.bundle.map fun b => { b with after := some (b.after.getD (v.frame t r)) } }
    | .error (.park w _) =>
      if w.kind.endsRegion && !v.sp.closed && (s.me v).pending.any fun x => decide ((s.me v).issues < x.1) then exposed v.slot
      else
        let made := if w.kind == .barrier && !v.sp.waits.contains w then [w] else []
        .next { s with bundle := some { b with waits := b.waits ++ [w], arrivals := b.arrivals ++ made } }
    | .error (.trapped t) => .next t
    | .error (.fault f) => .fault f
    | .error (.refuse r) => .refused r

/-- The dispenser of a launch in a cell (R305). -/
def Launch.dispenser (l : Launch) (cell : Nat) : Dispenser := (l.disp.find? (·.cell == cell)).getD { cell := cell }

/-- The launch with a cell's dispenser replaced. -/
def Launch.setDispenser (l : Launch) (d : Dispenser) : Launch := { l with disp := d :: l.disp.filter (·.cell != d.cell) }

/-- How many answers to NEXTTILE a unit still waits for: a trap may have taken a split from its wait (R305). -/
def State.tileAsks (s : State) (x : Nat × Nat) : Nat :=
  ((s.unit x.1 x.2).map fun p => (p.splits.flatMap fun t => t.waits.filter fun w => w.kind == .nextTile && !w.done).length).getD 0

/-- Arrivals at a dispenser without those whose units no longer wait. -/
def liveArrivals (asks : Nat × Nat → Nat) : List (Nat × Nat) → List (Nat × Nat)
  | [] => []
  | x :: xs => if (xs.filter (· == x)).length < asks x then x :: liveArrivals asks xs else liveArrivals asks xs

/-- A NEXTTILE that has to wait arrives at the dispenser of its cell (R305). -/
def State.queueTile (s : State) (c u : Nat) : State :=
  match s.blk c with
  | none => s
  | some b => s.modLaunch b.inst b.launch fun l =>
    let d := l.dispenser (cellOf c)
    l.setDispenser { d with waiting := liveArrivals s.tileAsks d.waiting ++ [(c, u)] }

/-- An acquire at cell scope or wider that has to wait has ended the pin of its guard before (R160). -/
def State.widen (s : State) (c pa sc : Nat) : State :=
  match (s.core c).pinOf pa with
  | some p => if 3 ≤ sc then s.endPin c p else s
  | none => s

/-- An acquire that has to wait: the pin of its guard ends where it is a wide one (R160), and it has read the guard at its home slice,
where no pin of its core serves it (R158, R395). -/
def State.beginAcquire (s : State) (c pa sc : Nat) : State :=
  let s1 := s.widen c pa sc
  if ((s1.core c).pinOf pa).isSome then s1 else s1.requestL2 c pa 0 false

/-- The acquires of a bundle that begin to wait. -/
def State.beginAcquires (s : State) (v : View) (l : List Wait) : State :=
  l.foldl (fun s w =>
    let old := v.sp.waits.any fun x => x.kind == .guard && x.a == w.a
    if w.kind != .guard || old then s
    else match s.translate v.core (if w.n = 1 then .load else .store) (w.res[0]?.getD 0) with
      | .ok pa => s.beginAcquire v.core pa (w.res[1]?.getD 0).toNat
      | .error _ => s) s

/-- A stalled bundle (R100): nothing of it takes effect but the arrivals of its BARs and the clock of a pin that refused it (R161),
and what another agent has completed is kept; at the first stall of a long wait the region ends and the bundle becomes the
region entry. -/
def State.stall (s : State) (v : View) (b : Bundle) : State :=
  let late := (s.answerAll v.core v.unit).lateLoad v.core v.unit
  let first := !v.sp.closed && !late && b.waits.any fun w => w.kind.endsRegion
  let s1 := if first then s.enterRegion v else s
  let s2 := b.arrivals.foldl (fun s w => s.arriveAt v.core v.unit w.a w.n)
    (if b.waits.any (fun w => w.kind == .nextTile) && !(v.sp.waits.any fun w => w.kind == .nextTile) then s1.queueTile v.core v.unit else s1)
  let now := (b.waits ++ b.arrivals.filter fun w => !b.waits.contains w).map (v.sp.keepSince s.cyc)
  let kept := v.sp.waits.filter fun w => (w.done || w.kind == .barrier || w.kind == .nextTile) && !now.any fun x => x.kind == w.kind && x.a == w.a
  let s3 := b.waits.foldl (fun s w => if w.kind == .pinned then s.markRefused w.a w.b else s) (s2.beginAcquires v b.waits)
  s3.modU v fun u => u.modSplit v.split fun p =>
    { p with waits := now ++ kept, moved := !first && p.moved, closed := p.closed || first }

/-- Whether a bundle pops a load entry whose data is not yet there (R105, R107): a pop that meets QUEUE_ORDER does not block. -/
def State.popsPending (s : State) (v : View) (n : Nat) : Bool :=
  ((((s.me v).q.loads.filter fun e => !e.popped).take n).takeWhile fun e => !s.loadBlocked v.core (s.myBlk v) (s.me v).q e).any
    fun e => e.ans == .pending

/-- The wait of a bundle for load data (R59, R105). -/
def loadWait (s : State) (n : Nat) : Wait := { kind := .load, since := s.cyc, n := n }

/-- The wait of an access that a pinned line refuses (R159). -/
def pinWait (s : State) (core line : Nat) : Wait := { kind := .pinned, since := s.cyc, a := core, b := line }

/-- A committed store of a core that another core's pin refuses: the core that pins, and the address. -/
def State.refusedBy (s : State) (c : Nat) : Option (Nat × Nat) :=
  (s.core c).travel.findSome? fun t => (s.pinHolder c t.pa).map (·, t.pa)

/-- The wait of an instruction of R100 for its release: a store that a pin refuses is retried (R159). -/
def heldWait (s : State) (c : Nat) : Wait :=
  match s.refusedBy c with
  | some (k, pa) => pinWait s k pa
  | none => releaseWait s

/-- The wait of a bundle whose region would commit a store ahead of an older load (R104): no switch point of R59. -/
def lateWait (s : State) : Wait := { kind := .late, since := s.cyc }

/-- The effects of a bundle that neither waits nor faults (R107): the PC, what fired in it (R338), its region's end with the
pairs that it completed (R106), and its sends, after its receives (R389). -/
def State.closeEffects (t0 : State) (v : View) (b0 : Bundle) : State :=
  let t := b0.later.foldl (State.sendLater · v.core) t0
  let b := t.bundle.getD b0
  let s1 := ({ t with bundle := none }).modU v fun u => ProgUnit.settleScales
    { u.modSplit v.split fun p => { p with pc := b.target.getD b.next, waits := [], last := t.cyc, moved := true, closed := false } with
      since := u.since + 1, issues := u.issues + 1, fox := u.fox + (b.next - b.addr).toNat, issued := t.cyc
      evp := u.evp ||| (b.fired &&& ~~~b.rebound)
      aged := [false, false, false, false] }
  let lost := bits8 (b.fired &&& b.rebound &&& ~~~b.pre.evp)
  let s2 := if lost = 0 then s1 else s1.discardEvents v.core lost
  let s3 := if b.ended then ((s2.answerAll v.core v.unit).commitPail v.core v.unit).modU v ProgUnit.newRegion else s2
  s3.count v.core 0x05 1

/-- The fault of a bundle: that of the lowest slot (R107), an EVENT_OVERRUN found at its close among them (R338). -/
def Bundle.firstFault (b : Bundle) (t : State) : Option Frame :=
  match b.fault, t.firstFull b.later [] with
  | none, x => x
  | x, none => x
  | some f, some g => if g.slot < f.slot then some g else some f

/-- The close of a bundle (R107): waits before faults, faults before effects; `orig` is the state before it. -/
def closeBundle (orig : State) (v : View) (t : State) : State :=
  match t.bundle with
  | none => t
  | some b0 =>
    let blocked := b0.late || (b0.ended && (t.answerAll v.core v.unit).lateLoad v.core v.unit)
      || (b0.again && (orig.answerAll v.core v.unit).lateLoad v.core v.unit)
    let b1 := if blocked then { b0 with waits := b0.waits ++ [lateWait orig] } else b0
    let b := if orig.popsPending v b0.pops then { b1 with waits := b1.waits ++ [loadWait orig b0.pops] } else b1
    if !b.waits.isEmpty then orig.stall v b
    else if b.again then orig.standAt v
    else match b.firstFault t with
      | some f =>
        let o := if b.committed && b.fault == some f then orig.enterRegion v else orig
        (o.trace v.core v.unit f.pc 8 [f.pc, .ofNat 64 f.slot, .ofNat 64 f.cause.code]).takeTrap v.core v.unit v.split f
      | none =>
        if b.stays then orig.standAt v
        else
          let s1 := t.closeEffects v b
          match b.after with
          | some f =>
            let step := f.cause != .singleStep && (s1.inst (s1.instOf v.core)).dbgctl.getLsbD 1
            (s1.modU v fun u => { u with stepped := step }).takeTrap v.core v.unit v.split
              (Frame.named (s := s1) (c := v.core) { f with resume := (s1.me v |>.split v.split).pc })
          | none => match b.became with
            | some n => s1.stepUnit v.core n 0 v.addr v.act
            | none => s1.stepTrap v

/-- A bundle opened at an address: what its syllables read stands as before it. -/
def State.newBundle (s : State) (v : View) (next : Word) : Bundle :=
  let k := s.myBlk v
  { pre := v.u, addr := v.addr, next := next, slot := v.slot, preMap := k.map, preBits := k.bitmaps, preSeq := k.seq
    preCtrs := (s.core v.core).ctrs, preLclk := (s.core v.core).lclk, preCmds := k.cmds
    preMail := (s.core v.core).mail.map List.length }

/-- The bundle of one syllable, opened where none is open. -/
def openOne (i : Instr) (s : State) (v : View) : State × Bundle :=
  let b := (s.newBundle v v.next).withPops i v
  ({ s with bundle := some b }, b)

/-- The state in which a bundle issues: memory has answered the load queue before it, where answers do not come later by themselves
(R102, R119). -/
def State.answered (s : State) : State :=
  if s.slow then s
  else match s.unit s.cur.core s.cur.unit with
    | some p => if p.kind == .context then s.answerAll s.cur.core s.cur.unit else s
    | none => s

/-- ISSUE: an instruction with its guard's head and its effect. A word of a warp, the front end or the handler
issues by itself; a syllable executes in the open bundle, or as a bundle of its own. -/
def issue (i : Instr) (h : Head) (s : State) (body : View → State → Eff) : Host.Outcome State Fault Refusal :=
  match s.view i h with
  | none => .fault .noUnit
  | some v =>
    match v.u.kind, s.bundle with
    | .context, some b => issueSyl i { s with bundle := some (b.withPops i v) } v (b.withPops i v) body
    | .context, none =>
      match s.answered.view i h with
      | none => .fault .noUnit
      | some v =>
        let o := openOne i s.answered v
        match issueSyl i o.1 v o.2 body with
        | .next t => .next (closeBundle s.answered v t)
        | r => r
    | _, _ => issueWord i s v body

end Sys2Proof.Machine
end

