-- ==== Sys2Proof/Machine/Flags.lean ====
section
/-! DEFINITION. How an instruction's lanes settle: the first cause of the first pass that meets one (R17, R172,
R271), the float exception flags and their traps (R261 to R263), and watchpoints (R386). -/

namespace Sys2Proof.Machine

/-- What one lane meets: its place in the entry's order of checks, the cause, and the frame's information. -/
structure LaneErr where
  rank : Nat
  cause : Cause
  info1 : Word := 0
  info2 : Word := 0
  deriving DecidableEq, Repr

/-- The least rank among the lanes of a pass that meet a cause. -/
def leastRank (errs : List (Nat × LaneErr)) : Nat := errs.foldr (fun e m => min e.2.rank m) 1000

/-- The trap of one pass: its first cause in the order of checks, naming exactly the lanes that meet it. -/
def passErr (g : List Nat) (e : Nat → Option LaneErr) : Option TrapReq :=
  let errs := g.filterMap fun i => (e i).map (i, ·)
  match errs.filter fun x => x.2.rank == leastRank errs with
  | [] => none
  | x :: xs => some {
      cause := x.2.cause, lanes := maskOfList ((x :: xs).map (·.1)), info1 := x.2.info1, info2 := x.2.info2 }

/-- The float cause of a flag bit (R261). -/
def fpCause : Nat → Cause
  | 0 => .fpInvalid
  | 1 => .fpDivzero
  | 2 => .fpOverflow
  | 3 => .fpUnderflow
  | _ => .fpInexact

/-- The conditions met by any lane of a group, in FPFLAGS order. -/
def orFlags (g : List Nat) (fl : Nat → BitVec 5) : BitVec 5 := g.foldr (fun i m => fl i ||| m) 0

/-- The trap of SetFlags (R263): the lowest enabled condition met, naming its lanes; INFO1 holds all met. -/
def flagErr (ctl : BitVec 5) (g : List Nat) (fl : Nat → BitVec 5) : Option TrapReq :=
  match (List.range 5).find? fun n => ctl.getLsbD n && g.any fun i => (fl i).getLsbD n with
  | none => none
  | some n => some {
      cause := fpCause n, lanes := maskOfList (g.filter fun i => (fl i).getLsbD n)
      info1 := (orFlags g fl).setWidth 64 }

/-- The first trap over the groups of lanes: causes of a pass come before its SetFlags. -/
def firstTrap (ctl : BitVec 5) (gs : List (List Nat)) (e : Nat → Option LaneErr) (fl : Nat → BitVec 5) : Option TrapReq :=
  gs.findSome? fun g => (passErr g e).orElse fun _ => flagErr ctl g fl

/-- The lanes settle: a trap, or the sticky flags set. (DEDUCED, log 25: unsafe.) -/
def settle (v : View) (s : State) (gs : List (List Nat)) (e : Nat → Option LaneErr) (fl : Nat → BitVec 5) : Eff :=
  match firstTrap v.u.fpctl gs e fl with
  | some t => .error (.raise t)
  | none =>
    let f := orFlags (gs.flatten) fl
    .ok (if f = 0 then s else s.modU v fun u => { u with fpflags := u.fpflags ||| f })

/-- Lanes that set no flag settle. -/
def settleErr (v : View) (s : State) (e : Nat → Option LaneErr) : Eff :=
  settle v s v.groups e fun _ => 0

/-- A tag check of one lane, as the first check of an entry. -/
def needTag (ok : Bool) : Option LaneErr := if ok then none else some { rank := 0, cause := .tagMismatch }

/-- A watchpoint of a core that an access matches, with BKEN = 1 (R386). (DEDUCED, log 45: unsafe.) -/
def State.watched (s : State) (c : Nat) (store : Bool) (va : Word) (n : Nat) : Bool :=
  (s.inst (s.instOf c)).dbgctl.getLsbD 0 && (s.core c).watch.any fun w =>
    w.ctl != 0 && w.ctl.getLsbD (if store then 1 else 0) &&
      (let k := w.ctl.toNat / 256 % 16
       decide (va.toNat < w.va.toNat + 2 ^ k) && decide (w.va.toNat < va.toNat + n))

/-- The requests of global accesses (R173, R385): in each pass one for each line, named by the first lane's VA. -/
def View.requests (v : View) (acc : List (Nat × Word)) : List Word :=
  (v.byPass (acc.map (·.1))).flatMap fun g =>
    (g.filterMap fun i => acc.lookup i).foldl (fun l a => if l.any fun b => b.toNat / 128 == a.toNat / 128 then l else l ++ [a]) []

/-- The requests of accesses that are complete are sampled (R385). -/
def State.sampleAccesses (s : State) (v : View) (acc : List (Nat × Word)) : State := s.samples v.core v.unit v.addr (v.requests acc)

/-- An access completes and then raises WATCHPOINT where a watchpoint matches: INFO1 the lowest VA matched.
A handler's own accesses match none (DEDUCED, log 16). -/
def watchTrap (v : View) (s : State) (store : Bool) (acc : List (Nat × Word)) (n : Nat) : Eff :=
  match (if v.u.kind == .handler then [] else acc.filter fun a => s.watched v.core store a.2 n) with
  | [] => .ok s
  | h :: hs =>
    let low := hs.foldl (fun (m : Word) a => if a.2.toNat < m.toNat then a.2 else m) h.2
    .error (.raiseAt { cause := .watchpoint, kind := 1, lanes := maskOfList ((h :: hs).map (·.1)), info1 := low } s)

/-- An effect whose accesses, once made, are sampled and meet the watchpoints. -/
def andWatch (v : View) (store : Bool) (acc : List (Nat × Word)) (n : Nat) : Eff → Eff
  | .ok s => watchTrap v (s.sampleAccesses v acc) store acc n
  | e => e

end Sys2Proof.Machine
end

