-- ==== Sys2Proof/Machine/Operands.lean ====
section
/-! DEFINITION. Operand forms: sources with the queue port (R34, R105), destinations (R98, R120), the store
pairing (R103), effective addresses (R171), and the shared shapes of lane instructions. -/

namespace Sys2Proof

/-- T where a condition holds, else F. -/
def Pred.of (b : Bool) : Pred := if b then .t else .f

end Sys2Proof

namespace Sys2Proof.Machine

/-! ## The queue port as a source -/

/-- QUEUE_ORDER at the bundle (R105). -/
def queueOrder (v : View) : Stop := .raise { cause := .queueOrder, lanes := v.act }

/-- One pop of the load-data queue by the issuing cluster operation (R34, R102, R105): entries and pairs stand as they did before the
bundle, but for the pops of its lower slots (R31, R119). -/
def popLoad (v : View) (s : State) : Except Stop (State × Reg) :=
  let q := (s.me v).q
  match q.loads.findIdx? fun e => !e.popped with
  | none => .error (queueOrder v)
  | some k =>
    match v.u.q.loads[k]? with
    | none => .error (queueOrder v)
    | some e =>
      if s.loadBlocked v.core (s.myBlk v) v.u.q e then .error (queueOrder v)
      else match e.ans with
        | .pending => .error (.park (loadWait s 1) s)
        | .fault c i1 i2 => .error (.raise { cause := c, lanes := v.act, info1 := i1, info2 := i2 })
        | .data r =>
          .ok (s.modU v fun u => { u with q := { u.q with loads := u.q.loads.modify k fun e => { e with popped := true } } }, r)

/-- Source fields of an entry, in the order A, B, C: in a context each that names k63 pops (R34), where the guard
selects; the popped registers stand beside them. -/
def fetch (v : View) (s : State) : List Nat → Except Stop (State × List (Option Reg))
  | [] => .ok (s, [])
  | n :: ns =>
    if v.u.kind == .context && n == 63 && v.sel != 0 then
      match popLoad v s with
      | .error e => .error e
      | .ok (s1, r) =>
        match fetch v s1 ns with
        | .error e => .error e
        | .ok (s2, rs) => .ok (s2, some r :: rs)
    else match fetch v s ns with
      | .error e => .error e
      | .ok (s2, rs) => .ok (s2, none :: rs)

/-- A source of lane i: the popped register, or the unit's. -/
def View.src (v : View) (pop : Option Reg) (n i : Nat) : Reg := pop.getD (v.u.read i n)

/-! ## Store pairing -/

/-- The check of a store of type t at a VA: alignment and translation (R172). -/
def State.storePlace (s : State) (c : Nat) (va : Word) (n : Nat) : Except MemErr Nat :=
  if va.toNat % n ≠ 0 then .error (.cause .misaligned) else s.translate c .store va

/-- The VA of a pushed address, for the watchpoints; a tile element has none. -/
def PushAddr.watchVa : PushAddr → List (Nat × Word)
  | .va a => [(0, a)]
  | .elem _ _ _ => []

/-- The oldest store address pairs with the oldest data (R103): its faults are raised at the slot at hand, and
the store enters the pail, where it meets the watchpoints (R386); a full pail closes the region before the bundle (R150), or while an MSCALE value is
pending raises REGION_EXPOSED (R349). -/
def pairUp (v : View) (s : State) : Eff :=
  let p := s.me v
  match p.q.addrs, p.q.datas with
  | a :: as, d :: ds =>
    if !tagMatches a.t d.tag then .error (.raise { cause := .tagMismatch, lanes := v.act })
    else if badInterval a.t d.v then .error (.raise { cause := .badInterval, lanes := v.act })
    else
      let place : Except Stop Place := match a.addr with
        | .va va => match s.storePlace v.core va a.t.bytes with
          | .ok pa => .ok (.phys pa)
          | .error (.cause c) => .error (.raise { cause := c, lanes := v.act, info1 := va })
          | .error (.fault f) => .error (.fault f)
          | .error (.pinned k l) => .error (.park (pinWait s k l) s)
        | .elem h i j => match (s.myBlk v).tileHandle h with
          | none => .error (.raise { cause := .tileHandle, lanes := v.act, info2 := tileInfo h i j })
          | some e =>
            if e.t != a.t then .error (.raise { cause := .tagMismatch, lanes := v.act, info2 := tileInfo h i j })
            else if !e.has i j then .error (.raise { cause := .tileBounds, lanes := v.act, info2 := tileInfo h i j })
            else .ok (s.elemPlace v.core (s.myBlk v) e i.toNat j.toNat)
      match place with
      | .error e => .error e
      | .ok pl =>
        if p.pail.length ≥ 32 then
          if p.pending.isEmpty then .ok { s with bundle := s.bundle.map fun b => { b with again := true } }
          else .error (.raise { cause := .regionExposed, lanes := v.act })
        else
          let s1 := match a.addr with
            | .va va => s.fillTlb v.core va
            | .elem _ _ _ => s
          let h : HeldStore := {
            items := [{ lane := 0, place := pl, bytes := storeBytes a.t d.v }], pair := p.q.nPairs, pc := a.pc, names := [a.addr.info] }
          watchTrap v (s1.modU v fun u => { u with
            pail := u.pail ++ [h]
            q := { u.q with addrs := as, datas := ds, nPairs := u.q.nPairs + 1, since := u.q.since ++ [(a, d)] } })
            true (a.addr.watchVa.map fun x => (v.cl, x.2)) a.t.bytes
  | _, _ => .ok s

/-- A data push by a cluster operation that writes k63 (R103, R105). -/
def pushData (v : View) (s : State) (r : Reg) : Eff :=
  if (s.me v).q.datas.length ≥ 32 then .error (queueOrder v)
  else pairUp v (s.modU v fun u => { u with q := { u.q with datas := u.q.datas ++ [r], nDatas := u.q.nDatas + 1 } })

/-! ## Destinations -/

/-- A register written in every selected lane: k62 discards, k63 pushes the store-data queue, k-registers rotate
with the base the bundle issued with (R98, R109); an s-register keeps no tag (R120). -/
def putReg (v : View) (s : State) (d : Nat) (val : Nat → Reg) : Eff :=
  match v.u.kind with
  | .warp => .ok (s.modU v fun u => u.mapLanes v.sel fun i l => l.setReg d (val i))
  | .context =>
    if d = 62 ∨ v.sel = 0 then .ok s
    else if d = 63 then pushData v s (val v.cl)
    else .ok (s.modU v fun u => u.mapLanes v.sel fun i l => l.setReg (rotated v.u.base d) (val i))
  | .front | .handler =>
    .ok (s.modU v fun u => u.mapLanes v.sel fun i l => l.setReg d { val i with tag := .b64 })

/-- A predicate written in every selected lane; a write of p7 is discarded (R67). -/
def putPred (v : View) (s : State) (d : Nat) (val : Nat → Pred) : State :=
  s.modU v fun u => u.mapLanes v.sel fun i l => l.setPred d (val i)

/-! ## Shapes of lane instructions -/

/-- What one lane computes: a register and the float conditions met, or a cause. -/
abbrev LaneRes := Except LaneErr (Reg × BitVec 5)

/-- The cause of a lane's result. -/
def errOf {α : Type} (r : Except LaneErr α) : Option LaneErr :=
  match r with
  | .error e => some e
  | .ok _ => none

/-- The register of a lane's result. -/
def regOf (r : LaneRes) : Reg :=
  match r with
  | .ok x => x.1
  | .error _ => {}

/-- The conditions of a lane's result. -/
def flagsOf {α : Type} (r : Except LaneErr (α × BitVec 5)) : BitVec 5 :=
  match r with
  | .ok x => x.2
  | .error _ => 0

/-- A register result without flags. -/
def okReg (v : Word) (t : Ty) : LaneRes := .ok (mkReg v t, 0)

/-- A failed tag check. -/
def badTag : LaneRes := .error { rank := 0, cause := .tagMismatch }

/-- Lane results settle and are written. -/
def finishReg (v : View) (s : State) (d : Nat) (res : Nat → LaneRes) : Eff :=
  match settle v s v.groups (fun i => errOf (res i)) (fun i => flagsOf (res i)) with
  | .error e => .error e
  | .ok s1 => putReg v s1 d fun i => regOf (res i)

/-- An instruction that writes D from the sources A, B and C of each selected lane. -/
def lane3 (d a b c : Nat) (f : Nat → Reg → Reg → Reg → LaneRes) (v : View) (s : State) : Eff :=
  match fetch v s [a, b, c] with
  | .error e => .error e
  | .ok (s1, [pa, pb, pc]) => finishReg v s1 d fun i => f i (v.src pa a i) (v.src pb b i) (v.src pc c i)
  | .ok (s1, _) => .ok s1

/-- An instruction that writes D from A and B of each selected lane. -/
def lane2 (d a b : Nat) (f : Nat → Reg → Reg → LaneRes) (v : View) (s : State) : Eff :=
  match fetch v s [a, b] with
  | .error e => .error e
  | .ok (s1, [pa, pb]) => finishReg v s1 d fun i => f i (v.src pa a i) (v.src pb b i)
  | .ok (s1, _) => .ok s1

/-- An instruction that writes D from A of each selected lane. -/
def lane1 (d a : Nat) (f : Nat → Reg → LaneRes) (v : View) (s : State) : Eff :=
  match fetch v s [a] with
  | .error e => .error e
  | .ok (s1, [pa]) => finishReg v s1 d fun i => f i (v.src pa a i)
  | .ok (s1, _) => .ok s1

/-- An instruction that writes D from no source register. -/
def lane0 (d : Nat) (f : Nat → LaneRes) (v : View) (s : State) : Eff := finishReg v s d f

/-- What one lane computes for a predicate. -/
abbrev PredRes := Except LaneErr (Pred × BitVec 5)

/-- The predicate of a lane's result. -/
def predOf (r : PredRes) : Pred :=
  match r with
  | .ok x => x.1
  | .error _ => .f

/-- Predicate results settle and are written. -/
def finishPred (v : View) (s : State) (d : Nat) (res : Nat → PredRes) : Eff :=
  match settle v s v.groups (fun i => errOf (res i)) (fun i => flagsOf (res i)) with
  | .error e => .error e
  | .ok s1 => .ok (putPred v s1 d fun i => predOf (res i))

/-- An instruction that writes a predicate from A and B of each selected lane. -/
def pred2 (d a b : Nat) (f : Nat → Reg → Reg → PredRes) (v : View) (s : State) : Eff :=
  match fetch v s [a, b] with
  | .error e => .error e
  | .ok (s1, [pa, pb]) => finishPred v s1 d fun i => f i (v.src pa a i) (v.src pb b i)
  | .ok (s1, _) => .ok s1

/-- An instruction that writes a predicate from A of each selected lane. -/
def pred1 (d a : Nat) (f : Nat → Reg → PredRes) (v : View) (s : State) : Eff :=
  match fetch v s [a] with
  | .error e => .error e
  | .ok (s1, [pa]) => finishPred v s1 d fun i => f i (v.src pa a i)
  | .ok (s1, _) => .ok s1

/-! ## Operations performed once per unit -/

/-- The lowest selected lane (R185). -/
def View.first (v : View) : Option Nat := v.lanes.head?

/-- An instruction that acts once per unit, on the registers of the lowest selected lane; with no lane selected
it has no effect (R185). -/
def once (fs : List Nat) (f : View → State → Nat → List Reg → Eff) (v : View) (s : State) : Eff :=
  match v.first with
  | none => .ok s
  | some i =>
    match fetch v s fs with
    | .error e => .error e
    | .ok (s1, pops) => f v s1 i ((fs.zip pops).map fun x => v.src x.2 x.1 i)

/-- A trap of an instruction that acts once per unit: it names the selected lanes. (DEDUCED, log 65: unsafe.) -/
def raiseSel (v : View) (c : Cause) (info1 : Word := 0) (info2 : Word := 0) : Stop :=
  .raise { cause := c, lanes := v.sel, info1 := info1, info2 := info2 }

/-- TILE_HANDLE of an instruction that acts once per unit: INFO2 holds the first of its handles that fails (R219). -/
def raiseHandle (v : View) (l : List (Nat × Bool)) : Stop :=
  raiseSel v .tileHandle 0 (tileInfo (((l.find? fun x => !x.2).map (·.1)).getD 0) 0 0)

/-! ## Effective addresses -/

/-- VA of a memory word (R171): A plus the sign-extended offset. -/
def memVa (a : Word) (off : BitVec 20) : Word := a + off.signExtend 64

/-- The target of a branch field counted in units of 8 bytes (R18). -/
def branchTarget (pc : Word) (off : BitVec n) : Word := pc + (off.signExtend 64) * 8

end Sys2Proof.Machine
end

