-- ==== Sys2Proof/Machine/Integer.lean ====
section
/-! DEFINITION. The integer, logic, shift, bit-field, immediate, move and special-register instructions
(R120 to R134, R88, R40, R41). -/

namespace Sys2Proof

/-- Whether an integer type is signed. -/
def Ty.signedInt (t : Ty) : Bool := t == .i32 || t == .i64

/-- Number of leading zeros of an n-bit value. -/
def leadZeros : Nat → Nat → Nat
  | 0, _ => 0
  | n + 1, v => if v / 2 ^ n % 2 = 1 then 0 else leadZeros n v + 1

/-- An FP32 pattern converted exactly to FP64 (R24); a NaN keeps its sign and payload. -/
def f32ToF64Bits (p : Nat) : Nat :=
  let sgn := p / 2 ^ 31 * 2 ^ 63
  let e := p / 2 ^ 23 % 256
  let m := p % 2 ^ 23
  if e = 255 then sgn + 2047 * 2 ^ 52 + m * 2 ^ 29
  else if e ≠ 0 then sgn + (e + 896) * 2 ^ 52 + m * 2 ^ 29
  else if m = 0 then sgn
  else
    let k := leadZeros 23 m + 1
    sgn + (897 - k) * 2 ^ 52 + (m * 2 ^ k - 2 ^ 23) * 2 ^ 29

/-- The suffix `.sat` (R22: MOD bit 55). -/
def ArithWord.sat (w : ArithWord) : Bool := w.mod.getLsbD 3

/-- The immediate as raw 32 bits: IMM32, or IMM20 supplying bits [31:12] (R30). -/
def ImmWord.raw32 (w : ImmWord) : Nat :=
  match w.site with
  | .word => w.imm.toNat
  | .syl _ _ => w.imm.toNat % 2 ^ 20 * 2 ^ 12

/-- The width of the immediate field. -/
def ImmWord.immBits (w : ImmWord) : Nat :=
  match w.site with
  | .word => 32
  | .syl _ _ => 20

/-- The immediate widened by T (R24, R30). (DEDUCED, log 31: unsafe.) -/
def ImmWord.widen (w : ImmWord) : Word :=
  match w.t with
  | .i32 | .i64 => .ofInt 64 (signed (w.immBits) w.imm.toNat)
  | .f32 => .ofNat 64 (w.raw32)
  | .f64 => .ofNat 64 (f32ToF64Bits (w.raw32))
  | _ => .ofNat 64 (w.imm.toNat % 2 ^ w.immBits)

/-- The immediate as a register that matches T. -/
def ImmWord.operand (w : ImmWord) : Machine.Reg := { v := w.widen, tag := .b64 }

end Sys2Proof

namespace Sys2Proof.Machine

/-! ## Integer values -/

/-- The low W bits of a register (R121). -/
def lowBits (t : Ty) (v : Word) : Nat := v.toNat % 2 ^ t.width

/-- The value of a register read at the width and signedness of T (R121). -/
def intVal (t : Ty) (v : Word) : Int :=
  if t.signedInt then signed t.width v.toNat else (lowBits t v : Int)

/-- An integer wrapped to W bits and extended to the register (R121). -/
def wrapInt (t : Ty) (x : Int) : Word :=
  match t with
  | .i32 => (BitVec.ofInt 32 x).signExtend 64
  | .n32 => (BitVec.ofInt 32 x).setWidth 64
  | _ => .ofInt 64 x

/-- The least value of T. -/
def intMin (t : Ty) : Int := if t.signedInt then -(2 : Int) ^ (t.width - 1) else 0

/-- The greatest value of T. -/
def intMax (t : Ty) : Int := if t.signedInt then (2 : Int) ^ (t.width - 1) - 1 else (2 : Int) ^ t.width - 1

/-- An exact result clamped to T (R122). -/
def clampInt (t : Ty) (x : Int) : Int := if x < intMin t then intMin t else if intMax t < x then intMax t else x

/-- An exact result as a register: clamped with `.sat`, then wrapped and extended, tagged T. -/
def intRes (t : Ty) (sat : Bool) (x : Int) : LaneRes := okReg (wrapInt t (if sat then clampInt t x else x)) t

/-- A two-source integer operation on exact values; both sources must match T. -/
def int2 (t : Ty) (sat : Bool) (f : Int → Int → Int) (_ : Nat) (a b : Reg) : LaneRes :=
  if tagMatches t a.tag && tagMatches t b.tag then intRes t sat (f (intVal t a.v) (intVal t b.v)) else badTag

/-- A three-source integer operation on exact values. -/
def int3 (t : Ty) (sat : Bool) (f : Int → Int → Int → Int) (_ : Nat) (a b c : Reg) : LaneRes :=
  if tagMatches t a.tag && tagMatches t b.tag && tagMatches t c.tag
  then intRes t sat (f (intVal t a.v) (intVal t b.v) (intVal t c.v)) else badTag

/-- A one-source integer operation on the exact value. -/
def int1 (t : Ty) (sat : Bool) (f : Int → Int) (_ : Nat) (a : Reg) : LaneRes :=
  if tagMatches t a.tag then intRes t sat (f (intVal t a.v)) else badTag

/-- A one-source operation on the low W bits that gives a count tagged N32. -/
def intCount (t : Ty) (f : Nat → Nat) (_ : Nat) (a : Reg) : LaneRes :=
  if tagMatches t a.tag then okReg (.ofNat 64 (f (lowBits t a.v))) .n32 else badTag

/-- Bits [2W−1:W] of the product (R123). -/
def mulHigh (t : Ty) (a b : Int) : Int := (a * b).fdiv ((2 : Int) ^ t.width)

/-- Quotient truncated toward zero, with the overflowing quotient of R124. -/
def quotient (t : Ty) (sat : Bool) (a b : Int) : Int :=
  if t.signedInt ∧ a = intMin t ∧ b = -1 then (if sat then intMax t else intMin t) else a.tdiv b

/-- Remainder with the sign of the dividend (R124). -/
def remainder (t : Ty) (a b : Int) : Int := if t.signedInt ∧ a = intMin t ∧ b = -1 then 0 else a.tmod b

/-- A division: a zero divisor raises INT_DIVZERO on its lane (R124). -/
def intDiv (t : Ty) (sat : Bool) (f : Int → Int → Int) (_ : Nat) (a b : Reg) : LaneRes :=
  if !(tagMatches t a.tag && tagMatches t b.tag) then badTag
  else if intVal t b.v = 0 then .error { rank := 1, cause := .intDivzero }
  else intRes t sat (f (intVal t a.v) (intVal t b.v))

/-- Number of trailing zeros of an n-bit value. -/
def trailZeros : Nat → Nat → Nat
  | 0, _ => 0
  | n + 1, v => if v % 2 = 1 then 0 else trailZeros n (v / 2) + 1

/-- The n bits of a value reversed. -/
def bitReverse : Nat → Nat → Nat
  | 0, _ => 0
  | n + 1, v => v % 2 * 2 ^ n + bitReverse n (v / 2)

/-- The relation of a condition code (R125). -/
def intCond (cc : Nat) (a b : Int) : Bool :=
  match cc with
  | 0 => decide (a = b)
  | 1 => decide (a ≠ b)
  | 2 => decide (a < b)
  | 3 => decide (a ≤ b)
  | 4 => decide (a > b)
  | _ => decide (a ≥ b)

/-- A comparison of one lane (R125). -/
def intCmp (t : Ty) (cc : Nat) (_ : Nat) (a b : Reg) : PredRes :=
  if tagMatches t a.tag && tagMatches t b.tag then .ok (.of (intCond cc (intVal t a.v) (intVal t b.v)), 0)
  else .error { rank := 0, cause := .tagMismatch }

/-- Two-source bitwise operation over 64 bits, tagged B64 (R126). -/
def bit2 (f : Word → Word → Word) (_ : Nat) (a b : Reg) : LaneRes := okReg (f a.v b.v) .b64

/-- The shifts of R127 on the W bits of a value, by an unsigned count: 0 left, 1 right, 2 arithmetic right,
3 rotate left. -/
def shiftBits (kind : Nat) (t : Ty) (v : Word) (c : Nat) : Nat :=
  let x := lowBits t v
  match kind with
  | 0 => if c < t.width then x * 2 ^ c % 2 ^ t.width else 0
  | 1 => if c < t.width then x / 2 ^ c else 0
  | 2 => ((signed t.width x).fdiv ((2 : Int) ^ (min c t.width)) % (2 : Int) ^ t.width).toNat
  | _ => let k := c % t.width
         (x * 2 ^ k + x / 2 ^ (t.width - k)) % 2 ^ t.width

/-- A shift of one lane: A must match T and B is a count operand (R127). -/
def shiftLane (kind : Nat) (t : Ty) (_ : Nat) (a b : Reg) : LaneRes :=
  if tagMatches t a.tag && countTag b.tag then okReg (wrapInt t (shiftBits kind t a.v b.v.toNat)) t else badTag

/-- BFX of one lane (R128). -/
def bfxLane (t : Ty) (pos len : Nat) (_ : Nat) (a : Reg) : LaneRes :=
  if !tagMatches t a.tag then badTag
  else
    let f := lowBits t a.v / 2 ^ pos % 2 ^ len
    okReg (wrapInt t (if t.signedInt then signed len f else (f : Int))) t

/-- BFI of one lane (R128). -/
def bfiLane (t : Ty) (pos len : Nat) (_ : Nat) (a b : Reg) : LaneRes :=
  if !(tagMatches t a.tag && countTag b.tag) then badTag
  else
    let x := lowBits t a.v
    let high := x / 2 ^ (pos + len) * 2 ^ (pos + len)
    okReg (wrapInt t (high + b.v.toNat % 2 ^ len * 2 ^ pos + x % 2 ^ pos)) t

/-- LEA of one lane (R129). -/
def leaLane (t : Ty) (k : Nat) (_ : Nat) (a b : Reg) : LaneRes :=
  if tagMatches t a.tag && countTag b.tag then okReg (a.v + b.v <<< k) t else badTag

/-! ## Immediates -/

/-- MOVHI of one lane (R131): IMM32 in [63:32], or IMM20 in [63:44] of a syllable. -/
def movhiLane (w : ImmWord) (_ : Nat) (a : Reg) : LaneRes :=
  okReg (.ofNat 64 (w.raw32 * 2 ^ 32 + a.v.toNat % 2 ^ 32)) w.t

/-! ## Meanings: the integer group -/

/-- IADD (R123). -/
def execIadd (w : ArithWord) (s : State) := issue (.iadd w) w.head s
  (lane2 w.d.toNat w.a.toNat w.b.toNat (int2 w.t w.sat (· + ·)))

/-- ISUB (R123). -/
def execIsub (w : ArithWord) (s : State) := issue (.isub w) w.head s
  (lane2 w.d.toNat w.a.toNat w.b.toNat (int2 w.t w.sat (· - ·)))

/-- IMUL (R123). -/
def execImul (w : ArithWord) (s : State) := issue (.imul w) w.head s
  (lane2 w.d.toNat w.a.toNat w.b.toNat (int2 w.t w.sat (· * ·)))

/-- IMULH (R123). -/
def execImulh (w : ArithWord) (s : State) := issue (.imulh w) w.head s
  (lane2 w.d.toNat w.a.toNat w.b.toNat (int2 w.t false (mulHigh w.t)))

/-- IMAD (R123). -/
def execImad (w : ArithWord) (s : State) := issue (.imad w) w.head s
  (lane3 w.d.toNat w.a.toNat w.b.toNat w.c.toNat (int3 w.t w.sat fun a b c => a * b + c))

/-- IDIV (R124). -/
def execIdiv (w : ArithWord) (s : State) := issue (.idiv w) w.head s
  (lane2 w.d.toNat w.a.toNat w.b.toNat (intDiv w.t w.sat (quotient w.t w.sat)))

/-- IREM (R124). -/
def execIrem (w : ArithWord) (s : State) := issue (.irem w) w.head s
  (lane2 w.d.toNat w.a.toNat w.b.toNat (intDiv w.t false (remainder w.t)))

/-- IMIN (R123). -/
def execImin (w : ArithWord) (s : State) := issue (.imin w) w.head s
  (lane2 w.d.toNat w.a.toNat w.b.toNat (int2 w.t false fun a b => if a ≤ b then a else b))

/-- IMAX (R123). -/
def execImax (w : ArithWord) (s : State) := issue (.imax w) w.head s
  (lane2 w.d.toNat w.a.toNat w.b.toNat (int2 w.t false fun a b => if a ≤ b then b else a))

/-- IABS (R123). -/
def execIabs (w : ArithWord) (s : State) := issue (.iabs w) w.head s
  (lane1 w.d.toNat w.a.toNat (int1 w.t w.sat fun a => if a < 0 then -a else a))

/-- INEG (R123). -/
def execIneg (w : ArithWord) (s : State) := issue (.ineg w) w.head s
  (lane1 w.d.toNat w.a.toNat (int1 w.t w.sat fun a => -a))

/-- ICMP (R125). -/
def execIcmp (w : ArithWord) (s : State) := issue (.icmp w) w.head s
  (pred2 w.d.toNat w.a.toNat w.b.toNat (intCmp w.t w.sub.toNat))

/-- POPC (R123). -/
def execPopc (w : ArithWord) (s : State) := issue (.popc w) w.head s
  (lane1 w.d.toNat w.a.toNat (intCount w.t (popCount w.t.width)))

/-- CLZ (R123). -/
def execClz (w : ArithWord) (s : State) := issue (.clz w) w.head s
  (lane1 w.d.toNat w.a.toNat (intCount w.t (leadZeros w.t.width)))

/-- CTZ (R123). -/
def execCtz (w : ArithWord) (s : State) := issue (.ctz w) w.head s
  (lane1 w.d.toNat w.a.toNat (intCount w.t (trailZeros w.t.width)))

/-- BREV (R123). -/
def execBrev (w : ArithWord) (s : State) := issue (.brev w) w.head s
  (lane1 w.d.toNat w.a.toNat fun _ a =>
    if tagMatches w.t a.tag then okReg (wrapInt w.t (bitReverse w.t.width (lowBits w.t a.v))) w.t else badTag)

/-! ## Meanings: logic, shifts and bit fields -/

/-- AND (R126). -/
def execAnd (w : ArithWord) (s : State) := issue (.and w) w.head s
  (lane2 w.d.toNat w.a.toNat w.b.toNat (bit2 fun a b => a &&& b))

/-- OR (R126). -/
def execOr (w : ArithWord) (s : State) := issue (.or w) w.head s
  (lane2 w.d.toNat w.a.toNat w.b.toNat (bit2 fun a b => a ||| b))

/-- XOR (R126). -/
def execXor (w : ArithWord) (s : State) := issue (.xor w) w.head s
  (lane2 w.d.toNat w.a.toNat w.b.toNat (bit2 fun a b => a ^^^ b))

/-- NOT (R126). -/
def execNot (w : ArithWord) (s : State) := issue (.not w) w.head s
  (lane1 w.d.toNat w.a.toNat fun _ a => okReg (~~~a.v) .b64)

/-- ANDN (R126). -/
def execAndn (w : ArithWord) (s : State) := issue (.andn w) w.head s
  (lane2 w.d.toNat w.a.toNat w.b.toNat (bit2 fun a b => a &&& ~~~b))

/-- SHL (R127). -/
def execShl (w : ArithWord) (s : State) := issue (.shl w) w.head s
  (lane2 w.d.toNat w.a.toNat w.b.toNat (shiftLane 0 w.t))

/-- SHR (R127). -/
def execShr (w : ArithWord) (s : State) := issue (.shr w) w.head s
  (lane2 w.d.toNat w.a.toNat w.b.toNat (shiftLane 1 w.t))

/-- SAR (R127). -/
def execSar (w : ArithWord) (s : State) := issue (.sar w) w.head s
  (lane2 w.d.toNat w.a.toNat w.b.toNat (shiftLane 2 w.t))

/-- ROTL (R127). -/
def execRotl (w : ArithWord) (s : State) := issue (.rotl w) w.head s
  (lane2 w.d.toNat w.a.toNat w.b.toNat (shiftLane 3 w.t))

/-- BFX (R128): X holds pos and C len − 1. -/
def execBfx (w : ArithWord) (s : State) := issue (.bfx w) w.head s
  (lane1 w.d.toNat w.a.toNat (bfxLane w.t (w.x.toNat % 64) (w.c.toNat % 64 + 1)))

/-- BFI (R128). -/
def execBfi (w : ArithWord) (s : State) := issue (.bfi w) w.head s
  (lane2 w.d.toNat w.a.toNat w.b.toNat (bfiLane w.t (w.x.toNat % 64) (w.c.toNat % 64 + 1)))

/-- LEA (R129). -/
def execLea (w : ArithWord) (s : State) := issue (.lea w) w.head s
  (lane2 w.d.toNat w.a.toNat w.b.toNat (leaLane w.t (w.x.toNat % 8)))

/-! ## Meanings: immediates and moves -/

/-- MOVI (R131). -/
def execMovi (w : ImmWord) (s : State) := issue (.movi w) w.head s
  (lane0 w.d.toNat fun _ => okReg (w.widen) w.t)

/-- MOVHI (R131). -/
def execMovhi (w : ImmWord) (s : State) := issue (.movhi w) w.head s
  (lane1 w.d.toNat w.a.toNat (movhiLane w))

/-- IADDI (R130). -/
def execIaddi (w : ImmWord) (s : State) := issue (.iaddi w) w.head s
  (lane1 w.d.toNat w.a.toNat fun i a => int2 w.t false (· + ·) i a (w.operand))

/-- IMULI (R130). -/
def execImuli (w : ImmWord) (s : State) := issue (.imuli w) w.head s
  (lane1 w.d.toNat w.a.toNat fun i a => int2 w.t false (· * ·) i a (w.operand))

/-- ANDI (R130). -/
def execAndi (w : ImmWord) (s : State) := issue (.andi w) w.head s
  (lane1 w.d.toNat w.a.toNat fun i a => bit2 (fun a b => a &&& b) i a (w.operand))

/-- ORI (R130). -/
def execOri (w : ImmWord) (s : State) := issue (.ori w) w.head s
  (lane1 w.d.toNat w.a.toNat fun i a => bit2 (fun a b => a ||| b) i a (w.operand))

/-- XORI (R130). -/
def execXori (w : ImmWord) (s : State) := issue (.xori w) w.head s
  (lane1 w.d.toNat w.a.toNat fun i a => bit2 (fun a b => a ^^^ b) i a (w.operand))

/-- SHLI (R130). -/
def execShli (w : ImmWord) (s : State) := issue (.shli w) w.head s
  (lane1 w.d.toNat w.a.toNat fun i a => shiftLane 0 w.t i a (w.operand))

/-- SHRI (R130). -/
def execShri (w : ImmWord) (s : State) := issue (.shri w) w.head s
  (lane1 w.d.toNat w.a.toNat fun i a => shiftLane 1 w.t i a (w.operand))

/-- SARI (R130). -/
def execSari (w : ImmWord) (s : State) := issue (.sari w) w.head s
  (lane1 w.d.toNat w.a.toNat fun i a => shiftLane 2 w.t i a (w.operand))

/-- ICMPI (R125): the condition stands in bits [5:3] of the D field, the predicate in [2:0] (R21, R30). -/
def execIcmpi (w : ImmWord) (s : State) := issue (.icmpi w) w.head s
  (pred1 (w.d.toNat % 8) w.a.toNat fun i a => intCmp w.t (w.d.toNat / 8 % 8) i a (w.operand))

/-- MOV (R132). -/
def execMov (w : ArithWord) (s : State) := issue (.mov w) w.head s
  (lane1 w.d.toNat w.a.toNat fun _ a => okReg a.v a.tag)

/-- RETAG (R132): IV32 needs valid bounds. (DEDUCED, log 76: unsafe.) -/
def execRetag (w : ArithWord) (s : State) := issue (.retag w) w.head s
  (lane1 w.d.toNat w.a.toNat fun _ a =>
    if w.t == .iv32 && !ivValid a.v then .error { rank := 1, cause := .badInterval } else okReg a.v w.t)

/-- SEL (R88): A where pS is T, B where F, C where U, with the chosen source's tag. -/
def execSel (w : ArithWord) (s : State) := issue (.sel w) w.head s fun v =>
  lane3 w.d.toNat w.a.toNat w.b.toNat w.c.toNat (fun i a b c =>
    match (v.u.lane i).pred (w.sub.toNat % 8) with
    | .t => okReg a.v a.tag
    | .f => okReg b.v b.tag
    | .u => okReg c.v c.tag) v

/-! ## Special registers -/

/-- Warps of a block that have not retired (R60). -/
def Block.nwarps (b : Block) : Nat := ((b.units.take 16).filter Option.isSome).length

/-- The unit whose EVP and DEN privileged code reads and writes: the handled one (R40). EVM is the executing unit's own.
(DESIGN CHOICE, log 70: unsafe.) -/
def State.handled (s : State) (v : View) : Nat :=
  match v.u.kind with
  | .handler => ((s.core v.core).hnd.map (·.unit)).getD v.unit
  | _ => v.unit

/-- The slots of a unit that are bound (R317). -/
def ProgUnit.boundSlots (u : ProgUnit) : BitVec 8 := u.slotsFor fun _ => true

/-- The Lamport clock of the issuing unit's core, in a bundle as it stood before the bundle (R31). -/
def State.lclkBefore (s : State) (v : View) : Nat :=
  match s.bundle with
  | some b => b.preLclk
  | none => (s.core v.core).lclk

/-- A special register as lane i reads it (R40); an unlisted number reads zero (R41). In a bundle EVP and LCLK read as before
the bundle (R31, R133, R143). -/
def specialReg (v : View) (s : State) (n i : Nat) : Word :=
  let b := s.myBlk v
  let r := s.rcd b
  let inter := if s.handled v = v.unit then v.u else (s.unit v.core (s.handled v)).getD v.u
  match n with
  | 0x00 => .ofNat 64 s.cyc
  | 0x01 => match v.u.kind with
    | .warp => .ofNat 64 i
    | .context => .ofNat 64 v.cl
    | _ => 0
  | 0x02 => match v.u.kind with
    | .handler => 20
    | _ => .ofNat 64 v.unit
  | 0x03 => match v.u.kind with
    | .warp => .ofNat 64 v.u.lanes.length
    | .context => .ofNat 64 v.u.k
    | _ => 1
  | 0x04 => .ofNat 64 b.nwarps
  | 0x05 => .ofNat 64 b.bidx
  | 0x06 => .ofNat 64 b.gidx
  | 0x07 => .ofNat 64 r.gx
  | 0x08 => .ofNat 64 r.gy
  | 0x09 => .ofNat 64 r.gz
  | 0x0A => .ofNat 64 b.stage
  | 0x0B => match v.u.kind with
    | .warp => v.sp.mask.setWidth 64
    | .context => .ofNat 64 (2 ^ v.u.k - 1)
    | _ => 1
  | 0x0C => match v.u.kind with
    | .warp => if v.u.lanes.length = 128 then (v.sp.mask >>> 64).setWidth 64 else 0
    | _ => 0
  | 0x0D => inter.evp.setWidth 64
  | 0x0E => v.u.evm.setWidth 64
  | 0x0F => .ofNat 64 r.regs
  | 0x10 => .ofNat 64 (s.lclkBefore v)
  | 0x11 => .ofNat 64 r.gang
  | 0x12 => v.u.fpctl.setWidth 64
  | 0x13 => v.u.fpflags.setWidth 64
  | 0x14 => .ofNat 64 inter.den
  | _ => 0

/-- READSR (R133): the value cut and extended by a 32-bit T, tagged T. -/
def execReadsr (w : ArithWord) (s : State) := issue (.readsr w) w.head s fun v s =>
  lane0 w.d.toNat (fun i => okReg (wrapInt w.t (specialReg v s w.a.toNat i).toNat) w.t) v s

/-- A special register written (R40, R41, R134); bits above its width are ignored, and a free slot is never pending (R319). Of a
bundle's writes of one register, and of its flags, that of the higher slot comes later (DESIGN CHOICE, log 93: unsafe.) DEN keeps
7 bits (DESIGN CHOICE, log 94: unsafe.) -/
def writeSpecial (v : View) (s : State) (n : Nat) (x : Word) : State :=
  match n with
  | 0x0D => s.modUnit v.core (s.handled v) fun u => { u with evp := x.setWidth 8 &&& u.boundSlots }
  | 0x0E => s.modU v fun u => { u with evm := x.setWidth 8 }
  | 0x12 => s.modU v fun u => { u with fpctl := x.setWidth 5 }
  | 0x13 => s.modU v fun u => { u with fpflags := x.setWidth 5 }
  | 0x14 => s.modUnit v.core (s.handled v) fun u => { u with den := x.toNat % 128 }
  | _ => s

/-- WRITESR (R134): the lowest selected lane's value. -/
def execWritesr (w : ArithWord) (s : State) := issue (.writesr w) w.head s
  (once [w.a.toNat] fun v s _ rs => .ok (writeSpecial v s w.d.toNat ((rs.head?.map (·.v)).getD 0)))

end Sys2Proof.Machine
end

