-- ==== Sys2Proof/Machine/Control.lean ====
section
/-! DEFINITION. Control of warps, contexts and the front end: branches and the divergence stack (R69 to R81),
EXIT (R82), REGROUP (R84), VOTE and the predicate instructions (R85 to R87), barriers (R89 to R91), POPD, PUSHD,
TRAP (R93 to R95), COLLAPSE, EXPAND, LOOP, ENDLOOP (R110 to R112) and REGION (R217). -/

namespace Sys2Proof

/-- The flag predicate of the JOIN at a join PC: it is that of the instruction word (A[23], A[22:20]). -/
def ImmWord.joinFlag (w : ImmWord) : Option Nat := if w.a.getLsbD 3 then some (w.a.toNat % 8) else none

/-- The 8-bit mask of a word (X) or syllable (X6 and C[38:37]) (R87, R322). -/
def ArithWord.mask8 (w : ArithWord) : Nat :=
  match w.site with
  | .word => w.x.toNat
  | .syl _ _ => w.x.toNat % 64 + w.c.toNat % 4 * 64

end Sys2Proof

namespace Sys2Proof.Machine

/-! ## Threads and retirement -/

/-- Every thread of a warp that has not exited: its live splits and its unstarted deferred splits (R69). -/
def ProgUnit.threads (u : ProgUnit) : Mask :=
  u.splits.foldr (fun p m => p.mask ||| m) (u.div.foldr (fun e m => (if e.started then 0 else e.dmask) ||| m) 0)

/-- Readers of a decision queue: units with a read position (R57). -/
def Block.readers (b : Block) : List Nat := b.units.filterMap fun u => u.bind (·.dqPos)

/-- Entries that every reader has passed are freed (R57). -/
def Block.trimDq (b : Block) : Block :=
  match b.readers with
  | [] => { b with dqBase := b.dqBase + b.dq.length, dq := [] }
  | p :: ps =>
    let low := ps.foldl min p
    { b with dqBase := max b.dqBase low, dq := b.dq.drop (low - b.dqBase) }

/-- Asynchronous traps of a retired unit go to the front end while it is live (R161, R224). A PIN_BREAK record
is otherwise dropped; an engine's fault then halts the block with its frame, the save cause being HANDLER_WATCHDOG, since no handler
will run for it. (DESIGN CHOICE, log 79: unsafe.) -/
def State.passAsyncs (s : State) (c : Nat) (fs : List Frame) : State :=
  match fs with
  | [] => s
  | _ =>
    match s.unit c 20 with
    | some _ => s.modUnit c 20 fun u => { u with asyncs := u.asyncs ++ fs }
    | none =>
      match fs.find? fun f => f.cause != .pinBreak with
      | none => s
      | some f => (match s.blk c with
        | some b => s.slotWrite c (s.frameVa b f.unit) (f.bytes s c { kind := .front, lanes := [], splits := [] })
        | none => s).stopBlk c { cause := .handlerWatchdog, state := 3 }

/-- The pins and the travelling stores of a unit follow it to the number that it takes (R161); 31 is no unit's. -/
def State.renamePins (s : State) (c u n : Nat) : State :=
  s.modCore c fun k => { k with
    pins := k.pins.map fun p : Pin => if p.unit = u then { p with unit := n } else p
    travel := k.travel.map fun t : Travel => if t.unit = u then { t with unit := n } else t }

/-- The waits of a unit for a partner that has gone are over (R84). -/
def ProgUnit.partnerGone (p : ProgUnit) (u : Nat) : ProgUnit :=
  { p with splits := p.splits.map fun t => { t with waits := t.waits.map fun w : Wait =>
      if w.kind == .partner && w.a == u then { w with done := true } else w } }

/-- Warps that wait at REGROUP for unit u learn that it has left its slot (R84). -/
def State.partnerGone (s : State) (c u : Nat) : State :=
  s.modBlk c fun b => { b with units := b.units.map fun x => x.map (·.partnerGone u) }

/-- The service request of a context that goes is answered to no one (R117): its frame no longer waits, and the reply of a
handler that serves it is discarded. -/
def State.dropService (s : State) (c u : Nat) : State :=
  s.modCore c fun k => { k with
    trapQ := k.trapQ.filter fun f => !(f.kind == 3 && f.unit == u)
    hnd := k.hnd.map fun h => if h.svc && h.unit == u then { h with gone := true } else h }

/-- A unit retires (R60): its pail commits, it leaves the block, and what waited for it goes on. -/
def State.retireUnit (s : State) (c u : Nat) : State :=
  match s.unit c u with
  | none => s
  | some p =>
    let s := if s.tracing c then s.flushMap c u (p.split 0).pc else s
    let s1 := ((s.answerAll c u).commitPail c u).modBlk c fun b =>
      { b with
        units := b.units.set u none, feExited := b.feExited || u == 20
        cmds := b.cmds.map fun k : Cmd => if k.unit == u then { k with orphan := true } else k : Block }.trimDq
    let s2 := ((s1.partnerGone c u).dropService c u).renamePins c u 31
    (s2.passAsyncs c p.asyncs).settleBarriers c

/-! ## NOP and the branches -/

/-- NOP (R75). -/
def execNop (w : ArithWord) (s : State) := issue (.nop w) w.head s fun _ s => .ok s

/-- Whether a predicate lies in a class set: bit 0 F, bit 1 T, bit 2 U (R27). -/
def inClass (cls : BitVec 3) : Pred → Bool
  | .f => cls.getLsbD 0
  | .t => cls.getLsbD 1
  | .u => cls.getLsbD 2

/-- Raise naming the lanes of a mask. -/
def raiseLanes (m : Mask) (c : Cause) (info1 : Word := 0) : Stop := .raise { cause := c, lanes := m, info1 := info1 }

/-- The digest of a core's block takes in the lanes that a branch takes (R388, log 17). -/
def State.noteMask (s : State) (c : Nat) (m : Mask) : State := (maskWords m).foldl (State.noteDigest · c) s

/-- BRA in a warp (R76). -/
def braWarp (w : BranchWord) (v : View) (s : State) : Eff :=
  let take := maskOf v.u.lanes.length fun i => v.sel.getLsbD i && inClass w.cls ((v.u.lane i).pred w.pb.toNat)
  let fall := v.act &&& ~~~take
  if w.joff = 0 then
    if take ≠ 0 ∧ fall ≠ 0 then .error (raiseLanes v.act .wrongMode)
    else if take ≠ 0 then .ok (((s.jump v (branchTarget v.addr w.off)).branched v.core v.unit v.addr true).noteMask v.core take)
    else .ok ((s.branched v.core v.unit v.addr false).noteMask v.core 0)
  else
    let finished := maskOf v.u.lanes.length fun i => v.act.getLsbD i && (v.u.lane i).nest == 255
    if finished ≠ 0 then .error (raiseLanes finished .nestOver)
    else if v.u.div.length ≥ 256 then .error (raiseLanes v.act .nestOver)
    else
      let e : DivEntry := {
        dpc := branchTarget v.addr w.off, dmask := if fall ≠ 0 then take else 0
        jpc := branchTarget v.addr w.joff, owed := v.act }
      let s1 := s.modU v fun u =>
        { u.mapLanes v.act fun _ l => { l with nest := l.nest + 1 } with div := e :: u.div }
      let s2 := if fall ≠ 0 then s1.modU v fun u => u.modSplit v.split fun p => { p with mask := fall }
        else s1.jump v (branchTarget v.addr w.off)
      .ok ((if take ≠ 0 ∧ fall ≠ 0 then (s2.count v.core 0x10 1).trace v.core v.unit v.addr 4
        (.ofNat 64 v.unit :: maskWords take ++ maskWords fall ++ [e.jpc])
        else s2.branched v.core v.unit v.addr (fall == 0)).noteMask v.core take)

/-- BRA in the front end, the handler or a context (R77). -/
def braScalar (w : BranchWord) (v : View) (s : State) : Eff :=
  if v.sel ≠ 0 ∧ inClass w.cls ((v.u.lane v.cl).pred w.pb.toNat)
  then .ok (((s.jump v (branchTarget v.addr w.off)).branched v.core v.unit v.addr true).noteDigest v.core 1)
  else .ok ((s.branched v.core v.unit v.addr false).noteDigest v.core 0)

/-- BRA (R76, R77). -/
def execBra (w : BranchWord) (s : State) := issue (.bra w) w.head s fun v s =>
  match v.u.kind with
  | .warp => braWarp w v s
  | _ => braScalar w v s

/-- R80: a transfer acts where the active set is uniform; with no lane selected it has no effect, and any other
case raises WRONG_MODE on all active lanes. -/
def uniformly (v : View) (s : State) (f : State → Eff) : Eff :=
  if v.sel = 0 then .ok s
  else match v.u.kind with
    | .warp => if v.sel = v.act ∧ v.act = v.u.threads then f s else .error (raiseLanes v.act .wrongMode)
    | _ => f s

/-- JMP (R81). -/
def execJmp (w : BranchWord) (s : State) := issue (.jmp w) w.head s fun v s =>
  uniformly v s fun s => .ok (s.jump v (branchTarget v.addr w.off))

/-- CALL (R81): the region ends, and the instruction at the target is the region entry (R149). -/
def execCall (w : BranchWord) (s : State) := issue (.call w) w.head s fun v s =>
  uniformly v s fun s =>
    if (s.me v).rets.length ≥ 32 then .error (raiseLanes v.act .callDepth)
    else .ok (((s.modU v fun u => { u with rets := v.next :: u.rets }).jump v (branchTarget v.addr w.off)).closeRegion v)

/-- RET (R81). -/
def execRet (w : ArithWord) (s : State) := issue (.ret w) w.head s fun v s =>
  uniformly v s fun s =>
    match (s.me v).rets with
    | [] => .error (raiseLanes v.act .callDepth)
    | a :: rest =>
      if a.toNat % 8 ≠ 0 then .error (raiseLanes v.act .misaligned a)
      else .ok ((((s.modU v fun u => { u with rets := rest }).jump v a).closeRegion v).trace v.core v.unit v.addr 2 [a])

/-- JMPR (R81). -/
def execJmpr (w : ArithWord) (s : State) := issue (.jmpr w) w.head s fun v s =>
  uniformly v s fun s =>
    let r := fun i => v.u.read i w.a.toNat
    match settleErr v s fun i => needTag ((r i).tag == .b64 || (r i).tag == .n64) with
    | .error e => .error e
    | .ok s =>
      match v.lanes with
      | [] => .ok s
      | i :: is =>
        if !(is.all fun j => (r j).v == (r i).v) then .error (raiseLanes v.act .wrongMode)
        else if (r i).v.toNat % 8 ≠ 0 then .error (raiseLanes v.act .misaligned (r i).v)
        else .ok ((s.jump v (r i).v).trace v.core v.unit v.addr 2 [(r i).v])

/-! ## JOIN -/

/-- The arrived lanes of entry n leave the join as one split (R79): nesting counters drop, the flag predicate is
written where the JOIN names one, and the waiting splits become one. `keep` is a split index that carries on. -/
def ProgUnit.leave (u : ProgUnit) (e : DivEntry) (keep : Nat) (flag : Option Nat) (late : Bool) : ProgUnit :=
  let u1 := u.mapLanes e.arrived fun _ l =>
    let l1 := { l with nest := l.nest - 1 }
    match flag with
    | some n => l1.setPred n (.of late)
    | none => l1
  { u1 with splits := u1.splits.mapIdx fun k p =>
      if k = keep then { p with mask := e.arrived, pc := e.jpc + 8, joined := false, waits := [] }
      else if p.joined && p.mask &&& ~~~e.arrived == 0 then { p with mask := 0, joined := false }
      else p }

/-- The first split that waits at a join with lanes of a mask. -/
def ProgUnit.joinedIn (u : ProgUnit) (m : Mask) : Nat :=
  (u.splits.findIdx? fun p => p.joined && p.mask &&& m != 0).getD u.splits.length

/-- JOIN (R79), the guard ignored. The region closes where lanes continue from an entry whose deferred split has
started (R150). -/
def execJoin (w : ImmWord) (s : State) := issue (.join w) w.head s fun v s =>
  match v.u.div.findIdx? fun e => v.act &&& ~~~e.owed == 0 with
  | none => .error (raiseLanes v.act .nestUnder)
  | some n =>
    match v.u.div[n]? with
    | none => .error (raiseLanes v.act .nestUnder)
    | some e =>
      if e.jpc ≠ v.addr then .error (raiseLanes v.act .nestUnder)
      else
        let e1 := { e with owed := e.owed &&& ~~~v.act, arrived := e.arrived ||| v.act }
        if e1.owed = 0 then
          let s1 := s.modU v fun u =>
            { u.leave e1 v.split w.joinFlag e.detached with div := u.div.eraseIdx n }
          let s2 := if e.started then s1.closeRegion v else s1
          .ok (s2.trace v.core v.unit v.addr 5 (.ofNat 64 v.unit :: maskWords e1.arrived ++ [if e.detached then 1 else 0]))
        else
          let dl := if e.deadline.isNone && w.imm != 0 then some (s.cyc + 64 * w.imm.toNat) else e.deadline
          .ok (s.modU v fun u =>
            { u.modSplit v.split fun p => { p with pc := v.addr, joined := true } with
              div := u.div.set n { e1 with deadline := dl, flag := w.joinFlag } })

/-! ## EXIT -/

/-- Lanes leave every entry of the divergence stack; an entry that no lane owes lets its arrived lanes go, or is
popped (R73). -/
def ProgUnit.dropLanes (u : ProgUnit) (m : Mask) : ProgUnit :=
  let cut := u.div.map fun e => { e with owed := e.owed &&& ~~~m, arrived := e.arrived &&& ~~~m, left := e.left &&& ~~~m, dmask := e.dmask &&& ~~~m }
  let u1 := cut.foldl (fun u e =>
    if e.owed == 0 && e.arrived != 0 then u.leave e (u.joinedIn e.arrived) e.flag e.detached else u) { u with div := cut }
  { u1 with div := cut.filter fun e => e.owed != 0 }

/-- The entries whose arrived lanes leave the join when lanes of a mask exit (R73). -/
def ProgUnit.freed (u : ProgUnit) (m : Mask) : List DivEntry :=
  u.div.filter fun e => e.owed &&& ~~~m == 0 && e.arrived &&& ~~~m != 0

/-- EXIT (R82). The region closes where lanes continue from a join whose deferred split has started (R150). (DESIGN CHOICE, log 28: unsafe.) -/
def execExit (w : ArithWord) (s : State) := issue (.exit w) w.head s fun v s =>
  match v.u.kind with
  | .warp =>
    let s1 := s.modU v fun u =>
      (u.modSplit v.split fun p => { p with mask := p.mask &&& ~~~v.sel }).dropLanes v.sel
    if (s1.me v).threads = 0 then .ok (s1.retireUnit v.core v.unit)
    else
      let left := v.u.freed v.sel
      let s2 := if left.any (·.started) then s1.closeRegion v else s1
      let s3 := left.foldl (fun s e => s.trace v.core v.unit v.addr 5
        (.ofNat 64 v.unit :: maskWords (e.arrived &&& ~~~v.sel) ++ [if e.detached then 1 else 0])) s2
      .ok (s3.trace v.core v.unit v.addr 3 (.ofNat 64 v.unit :: maskWords ((s3.me v).split v.split).mask))
  | .handler => .ok s
  | _ => .ok (if v.sel = 0 then s else s.retireUnit v.core v.unit)

/-! ## VOTE and the predicate instructions -/

/-- Three-valued AND over predicates (R85 `.all`, R86). -/
def predAll (l : List Pred) : Pred := if l.contains .f then .f else if l.contains .u then .u else .t

/-- Three-valued OR over predicates (R85 `.any`, R86). -/
def predAny (l : List Pred) : Pred := if l.contains .t then .t else if l.contains .u then .u else .f

/-- A mask result in D, and at width 128 its high half in D + 1 (R85, R135). -/
def putMask (v : View) (s : State) (d : Nat) (m : Nat → Mask) (t : Ty) : Eff :=
  match putReg v s d fun i => mkReg ((m i).setWidth 64) t with
  | .error e => .error e
  | .ok s1 => if v.u.lanes.length = 128 then putReg v s1 (d + 1) fun i => mkReg (((m i) >>> 64).setWidth 64) t else .ok s1

/-- VOTE (R85). -/
def execVote (w : ArithWord) (s : State) := issue (.vote w) w.head s fun v s =>
  let p := fun i => (v.u.lane i).pred (w.a.toNat % 8)
  let ballot := fun (q : Pred) => maskOf v.u.lanes.length fun i => v.sel.getLsbD i && p i == q
  match w.sub.toNat with
  | 0 => putMask v s w.d.toNat (fun _ => ballot .t) .b64
  | 1 => putMask v s w.d.toNat (fun _ => ballot .f) .b64
  | 2 => putMask v s w.d.toNat (fun _ => ballot .u) .b64
  | 3 => putReg v s w.d.toNat fun _ => mkReg (.ofNat 64 (v.lanes.filter fun i => p i == .t).length) .n64
  | 4 => .ok (putPred v s w.d.toNat fun _ => predAll (v.lanes.map p))
  | _ => .ok (putPred v s w.d.toNat fun _ => predAny (v.lanes.map p))

/-- A predicate from its two-bit code; 0b11 stores U (R67). -/
def predOfCode (n : Nat) : Pred :=
  match n with
  | 0 => .f
  | 1 => .t
  | _ => .u

/-- The code of a predicate (R67). -/
def predCode : Pred → Nat
  | .f => 0
  | .t => 1
  | .u => 2

/-- PRSET's operations (R86). -/
def prsetOp (op : Nat) (c : Nat) (a b : Pred) : Pred :=
  match op with
  | 0 => predOfCode c
  | 1 => predAll [a, b]
  | 2 => predAny [a, b]
  | 3 => match a with | .t => .f | .f => .t | .u => .u
  | 4 => if a == .u || b == .u then .u else .of (a != b)
  | 5 => .of (a == .t)
  | 6 => .of (a == .f)
  | 7 => .of (a == .u)
  | _ => a

/-- PRSET (R86). -/
def execPrset (w : ArithWord) (s : State) := issue (.prset w) w.head s fun v s =>
  .ok (putPred v s w.d.toNat fun i =>
    prsetOp w.sub.toNat (w.a.toNat % 4) ((v.u.lane i).pred (w.a.toNat % 8)) ((v.u.lane i).pred (w.b.toNat % 8)))

/-- p0 to p7 packed, two bits each, p7 as T (R87). -/
def Lane.predBits (l : Lane) : Nat := (List.range 8).foldr (fun n m => predCode (l.pred n) * 4 ^ n + m) 0

/-- PRTOI (R87). -/
def execPrtoi (w : ArithWord) (s : State) := issue (.prtoi w) w.head s fun v =>
  lane0 w.d.toNat (fun i => okReg (.ofNat 64 (v.u.lane i).predBits) .n32) v

/-- Predicates unpacked from a register under a mask of p0 to p6 (R87). -/
def Lane.unpack (l : Lane) (mask x : Nat) : Lane :=
  (List.range 7).foldl (fun l n => if mask / 2 ^ n % 2 = 1 then l.setPred n (predOfCode (x / 4 ^ n % 4)) else l) l

/-- ITOPR (R87). -/
def execItopr (w : ArithWord) (s : State) := issue (.itopr w) w.head s fun v s =>
  match fetch v s [w.a.toNat] with
  | .error e => .error e
  | .ok (s1, pops) =>
    let pop := pops.head?.getD none
    .ok (s1.modU v fun u => u.mapLanes v.sel fun i l =>
      l.unpack (w.mask8) (v.src pop w.a.toNat i).v.toNat)

/-! ## Barriers -/

/-- The greatest count of a barrier (R91). -/
def State.barLimit (s : State) (b : Block) (id : Nat) : Nat := if id < 16 then 21 else 21 * (s.rcd b).gang

/-- The return of a BAR: acquire at the barrier's scope and a Lamport receive (R91). -/
def State.leaveBar (s : State) (v : View) (id : Nat) : State :=
  let s1 := if 16 ≤ id then s.dropL1 v.core else s
  s1.tickRecv v.core (s1.barrier (s1.myBlk v) id).stamp

/-- BARRIER_MISUSE of an arrival for its count (R91). -/
def State.barMisuse (s : State) (v : View) (id count : Nat) : Bool :=
  let b := s.barrier (s.myBlk v) id
  decide (s.barLimit (s.myBlk v) id < count) || (match b.count with | some n => n != count | none => false)

/-- Whether every live split of the unit, this one apart, waits at a barrier id (R90). (DEDUCED, log 32: unsafe.) -/
def ProgUnit.othersAt (u : ProgUnit) (k id : Nat) : Bool :=
  (u.splits.zipIdx).all fun (p, j) => j == k || p.mask == 0 || p.waits.any fun w => w.kind == .barrier && w.a == id

/-- Whether a split of the unit waits at another barrier id (R91). -/
def ProgUnit.elsewhere (u : ProgUnit) (id : Nat) : Bool :=
  u.splits.any fun p => p.waits.any fun w => w.kind == .barrier && w.a != id

/-- The wait of a BAR: its id, its count, and once the unit has arrived (`res`) the generation in which it did. -/
def barWait (s : State) (id count gen : Nat) (arrived : Bool) : Wait :=
  { kind := .barrier, since := s.cyc, a := id, b := gen, n := count, res := if arrived then [1] else [] }

/-- Whether the unit has arrived in the generation that a BAR waits for. -/
def Wait.arrived (w : Wait) : Bool := !w.res.isEmpty

/-- The unit arrives in a generation: every split of it that waits at the barrier waits for that generation (R90). -/
def ProgUnit.arriveAll (u : ProgUnit) (id gen : Nat) : ProgUnit :=
  { u with splits := u.splits.map fun t => { t with waits := t.waits.map fun w : Wait =>
      if w.kind == .barrier && w.a == id && !w.arrived then { w with b := gen, res := [1] } else w } }

/-- The generation of a barrier as the issuing unit sees it. -/
def State.barGen (s : State) (v : View) (id : Nat) : Nat := (s.barrier (s.myBlk v) id).gen

/-- Whether the issuing unit has arrived in the barrier's generation. -/
def State.hasArrived (s : State) (v : View) (id : Nat) : Bool :=
  (s.barrier (s.myBlk v) id).arrived.contains ((s.myBlk v).bidx, v.unit)

/-- The issuing unit arrives with its stores committed (R91), every split that waits at the barrier with it. -/
def State.arriveUnit (s : State) (v : View) (id count : Nat) : State :=
  let gen := s.barGen v id
  (((s.commitPail v.core v.unit).modU v (·.arriveAll id gen)).arriveAt v.core v.unit id count)

/-- The release of an arrival at a gang barrier waits for stores that another core's pin refuses (R147, R159). -/
def State.barHeld (s : State) (v : View) (id : Nat) : Bool :=
  decide (16 ≤ id) && (((s.commitPail v.core v.unit).landAll v.core).unreleased v.core v.unit 3)

/-- A BAR whose unit arrives now: it returns where its generation completes, and waits else. The count is checked even where the unit
has arrived in this generation. (DESIGN CHOICE, log 92: unsafe.) -/
def barArrive (id count : Nat) (v : View) (s : State) : Eff :=
  if s.barMisuse v id count then .error (raiseLanes v.act .barrierMisuse)
  else if s.barHeld v id then .error (.park (heldWait ((s.commitPail v.core v.unit).landAll v.core) v.core) (s.waitRegion v))
  else
    let gen := s.barGen v id
    let w := barWait s id count gen true
    let s0 := match v.u.kind with | .warp => s.waitRegion v | .context => s.closeRegion v | _ => s
    let s1 := if s.hasArrived v id then s0 else s0.arriveUnit v id count
    let s2 := { s1 with bundle := s1.bundle.map fun b => { b with arrivals := b.arrivals ++ [w] } }
    if s2.barGen v id = gen then .error (.park w s2)
    else
      let s3 := s2.leaveBar v id
      .ok (match v.u.kind with | .warp => s3.afterWait v | _ => s3.closeRegion v)

/-- BAR (R90): the return follows the completion of the generation in which the unit arrived. A split of a diverged warp waits
until every other live split does, and the warp then arrives. In a bundle the arrival of a stalled BAR is made at the bundle's
close (R100). -/
def barBody (id count : Nat) (v : View) (s : State) : Eff :=
  if v.sel = 0 then .ok s
  else match v.sp.waits.find? fun w => w.kind == .barrier && w.a == id with
  | some w =>
    if w.arrived then
      if s.barGen v id = w.b then .error (.park w s) else .ok ((s.leaveBar v id).closeRegion v)
    else if s.hasArrived v id then .error (.park { w with b := s.barGen v id, res := [1] } s)
    else if v.u.othersAt v.split id then barArrive id count v s
    else .error (.park w s)
  | none =>
    if v.u.kind == .warp && v.u.elsewhere id then .error (raiseLanes v.act .barrierMisuse)
    else if s.hasArrived v id || v.u.kind != .warp || v.u.othersAt v.split id then barArrive id count v s
    else if s.barMisuse v id count then .error (raiseLanes v.act .barrierMisuse)
    else .error (.park (barWait s id count 0 false) (s.waitRegion v))

/-- BAR (R89, R90). -/
def execBar (w : ArithWord) (s : State) := issue (.bar w) w.head s (barBody w.sub.toNat w.x.toNat)

/-- BARARR (R89, R90): arrives, a release only, and continues. -/
def execBararr (w : ArithWord) (s : State) := issue (.bararr w) w.head s fun v s =>
  let id := w.sub.toNat
  if v.sel = 0 then .ok s
  else if s.barMisuse v id w.x.toNat then .error (raiseLanes v.act .barrierMisuse)
  else if s.barHeld v id then parkEnd v { kind := .release, since := s.cyc } s
  else
    let s1 := s.closeRegion v
    .ok (if s1.hasArrived v id then s1 else s1.arriveUnit v id w.x.toNat)

/-! ## POPD, PUSHD, TRAP, REGION -/

/-- POPD (R93): an entry that is no valid interval where T is IV32 raises BAD_INTERVAL and is not taken (R256). -/
def execPopd (w : ArithWord) (s : State) := issue (.popd w) w.head s fun v s =>
  if v.sel = 0 then .ok s
  else
    let b := s.myBlk v
    let pos := v.u.dqPos.getD b.dqBase
    match b.dq[pos - b.dqBase]? with
    | some x =>
      if badInterval w.t x then .error (raiseLanes v.sel .badInterval)
      else
      let s1 := s.modU v fun u => { u with dqPos := some (pos + 1) }
      match putReg v ((s1.modBlk v.core Block.trimDq).closeRegion v) w.d.toNat fun _ => mkReg x w.t with
      | .error e => .error e
      | .ok s2 => .ok s2
    | none =>
      if b.feStarted && !b.feExited then parkEnd v { kind := .decision, since := s.cyc } s
      else .error (raiseLanes v.sel .decisionEmpty)

/-- PUSHD (R94, R57). -/
def execPushd (w : ArithWord) (s : State) := issue (.pushd w) w.head s fun v s =>
  if v.sel = 0 then .ok s
  else
    let b := s.myBlk v
    if b.readers.isEmpty then .ok (s.modBlk v.core fun b => { b with dqBase := b.dqBase + 1 })
    else if b.dq.length ≥ 64 then .error (.park { kind := .decisionFull, since := s.cyc } s)
    else .ok (s.modBlk v.core fun b => { b with dq := b.dq ++ [(v.u.read 0 w.a.toNat).v] })

/-- TRAP (R95): the region ends, and SOFT_TRAP follows the instruction, in VLIW code the bundle. -/
def execTrap (w : ImmWord) (s : State) := issue (.trap w) w.head s fun v s =>
  if v.sel = 0 then .ok s
  else .error (.raiseAt
    { cause := .softTrap, lanes := v.sel, kind := 1
      info1 := .ofNat 64 (match w.site with | .word => w.imm.toNat | .syl _ _ => w.imm.toNat % 2 ^ 20) }
    (s.closeRegion v))

/-- REGION (R217): the region ends and REGION itself is the region entry, where the unit may take an asynchronous trap or stop
(R224, R225); while an MSCALE value is pending it raises REGION_EXPOSED. A bundle's REGION has made the entry before the bundle. -/
def execRegion (w : ArithWord) (s : State) := issue (.region w) w.head s fun v s =>
  if v.sel = 0 then .ok s
  else if !v.u.pending.isEmpty then .error (raiseLanes v.act .regionExposed)
  else match s.bundle with
    | some b => if b.entered then .ok s else .ok { s.enterRegion v with bundle := some { b with
        entered := true, endSlot := v.slot, late := b.late || (s.answerAll v.core v.unit).lateLoad v.core v.unit
        stays := (s.standAt v).heldAtEntry v.core v.unit v.split } }
    | none => s.entering v .ok

/-! ## Placement of warps on quarters -/

/-- Lanes of the SIMT side's quarters for a number of SIMT groups (R53). -/
def quarterLanes (groups : Nat) : List Nat := List.replicate (groups / 2) 32 ++ (if groups % 2 = 1 then [16] else [])

/-- Number of enabled lane groups of a core (R52). -/
def Core.nGroups (k : Core) : Nat := ((List.range 8).filter k.groups.getLsbD).length

/-- The quarter that takes a warp of width W with `regs` registers per thread, given the register demand placed
on each quarter: the least demand after, ties to the lower number, at most 512 (R54). -/
def placeOne (lanes demand : List Nat) (regs width : Nat) : Option Nat :=
  let cost := (lanes.zip demand).map fun x => x.2 + regs * width / x.1
  match cost with
  | [] => none
  | c :: cs =>
    let low := cs.foldl min c
    if low > 512 then none else cost.findIdx? (· == low)

/-- Register demand per physical lane of the warps that a block holds on quarter q (R54). -/
def Block.demand (b : Block) (q : Nat) : Nat :=
  (b.units.take 16).foldr (fun u acc => match u with
    | some p => if p.quarter == q then (p.lane 0).regs.length * p.lanes.length / p.qlanes + acc else acc
    | none => acc) 0

/-! ## REGROUP -/

/-- The fused warp of R84: lo's lanes, then hi's, the registers outside the range cleared. -/
def fuse (lo hi : ProgUnit) (ml mh : Mask) (a b d : Nat) : ProgUnit :=
  let width := lo.lanes.length
  let src := (lanesOf ml).map lo.lane ++ (lanesOf mh).map hi.lane
  let n := src.length
  let cleared (l : Lane) : Lane := { l with regs := l.regs.mapIdx fun k r => if a ≤ k && k ≤ b then r else mkReg 0 .und }
  let lanes := (List.range width).map fun j => match src[j]? with
    | some l => cleared ({ l with nest := 0 }.setPred d .t)
    | none => cleared (lo.lane j)
  { lo with lanes := lanes, fpflags := lo.fpflags ||| hi.fpflags, asyncs := lo.asyncs ++ hi.asyncs
            splits := lo.splits.map fun p => { p with mask := maskOf width (decide <| · < n), waits := [] } }

/-- Bytes issued by the slowest warp of a block but those named, where a new warp begins to count (R308). -/
def Block.slowest (b : Block) (new : List Nat) : Nat :=
  match ((b.units.take 16).zipIdx).filterMap fun (u, n) => if new.contains n then none else u.map (·.fox) with
  | [] => 0
  | f :: fs => fs.foldl min f

/-- A warp that REGROUP continues at the word after its own REGROUP, with p[D] written on its active lanes. -/
def ProgUnit.pastRegroup (u : ProgUnit) (d : Nat) (p : Pred) (pc : Word) : ProgUnit :=
  let m := (u.split 0).mask
  (u.mapLanes m fun _ l => l.setPred d p).modSplit 0 fun t => { t with pc := pc, waits := [] }

/-- Two REGROUPs whose ranges differ both raise REGROUP_MISUSE (R84); the lower unit's trap comes first (R218). -/
def regroupMisuse (v : View) (s : State) (o : Nat) (p : ProgUnit) : Eff :=
  let sp := p.split 0
  let own := v.frame s { cause := .regroupMisuse, lanes := v.act }
  let other : Frame := { cause := .regroupMisuse, unit := o, pc := sp.pc, rpc := sp.rpc, rcnt := p.rcnt, resume := sp.rpc, mask := sp.mask }
  let s1 := s.modU v fun u => u.modSplit v.split fun t => { t with pc := v.addr }
  .error (.trapped (if v.unit < o then (s1.takeTrap v.core v.unit v.split own).takeTrap v.core o 0 other
    else (s1.takeTrap v.core o 0 other).takeTrap v.core v.unit v.split own))

/-- Passes that an instruction of a warp takes on the lanes of a mask (R55). -/
def ProgUnit.passesOf (p : ProgUnit) (m : Mask) : Nat :=
  ((List.range (p.lanes.length / p.qlanes + 1)).filter fun n => (lanesOf m).any fun i => i / p.qlanes == n).length

/-- Two REGROUPs that do not fuse are both complete: single-step traps follow both, that of the lower warp first (R218, R381). -/
def State.bothPast (s : State) (v : View) (o : Nat) (sp : Split) : Eff :=
  if !(s.inst (s.instOf v.core)).dbgctl.getLsbD 1 then .ok s
  else if o < v.unit then .ok (s.stepUnit v.core o 0 sp.pc sp.mask)
  else .error (.trapped ((s.completed v).stepUnit v.core o 0 sp.pc sp.mask))

/-- REGROUP (R83, R84). The wait holds the partner's number and the first register, last register and
predicate of the warp that waits. Each warp that does not fuse writes the predicate that its own REGROUP names; the fused warp
takes the lower one's. (DESIGN CHOICE, log 72: unsafe.) The width that limits the fusion is the lower warp's. (DESIGN CHOICE, log 91:
unsafe.) -/
def execRegroup (w : ArithWord) (s : State) := issue (.regroup w) w.head s fun v s =>
  let off := w.x.toInt
  let a := w.a.toNat
  let b := w.b.toNat
  let d := w.d.toNat
  if v.sel = 0 then .ok s
  else if off = 0 || b < a || 1 < v.u.splits.length || !v.u.div.isEmpty || v.sel != v.act
  then .error (raiseLanes v.act .regroupMisuse)
  else
    let other := (v.unit : Int) + off
    let gone := v.sp.waits.any fun x => x.kind == .partner && x.done
    match (if 0 ≤ other ∧ other < 16 ∧ !gone then s.unit v.core other.toNat else none) with
    | none => .ok (putPred v (s.closeRegion v) d fun _ => .f)
    | some p =>
      let o := other.toNat
      match (p.split 0).waits.find? fun x => x.kind == .partner && x.a == v.unit && !x.done with
      | none => parkEnd v { kind := .partner, since := s.cyc, a := o, res := [.ofNat 64 a, .ofNat 64 b, .ofNat 64 d] } s
      | some x =>
        let pa := (x.res[0]?.getD 0).toNat
        let pb := (x.res[1]?.getD 0).toNat
        let pd := (x.res[2]?.getD 0).toNat
        let sp := p.split 0
        if pa ≠ a ∨ pb ≠ b then regroupMisuse v s o p
        else
          -- both regions end; the partner's next instruction is its region entry, and its own REGROUP is complete
          let s1 := (((s.closeRegion v).commitPail v.core o).modUnit v.core o fun u => { u with fox := u.fox + 8 }).countPasses v.core p
            (p.passesOf sp.mask)
          let s2 := s1.modUnit v.core o fun u => u.modSplit 0 fun t => { t with pc := sp.pc + 8, waits := [] }
          let s3 := if sp.closed then s2.modUnit v.core o fun u => u.modSplit 0 fun t => { t with rpc := t.pc, moved := false, closed := false }
            else s2.modUnit v.core o ProgUnit.newRegion
          let lo := min v.unit o
          let hi := max v.unit o
          match s3.unit v.core lo, s3.unit v.core hi with
          | some ul, some uh =>
            let ml := (ul.split 0).mask
            let mh := (uh.split 0).mask
            if (lanesOf ml).length + (lanesOf mh).length > ul.lanes.length then
              let dOf := fun u => if u = v.unit then d else pd
              let s4 := (s3.modUnit v.core lo fun u => u.pastRegroup (dOf lo) .f (u.split 0).pc).modUnit v.core hi
                fun u => u.pastRegroup (dOf hi) .f (u.split 0).pc
              s4.bothPast v o sp
            else
              let dl := if lo = v.unit then d else pd
              let s4 := s3.setUnit v.core lo { fuse ul uh ml mh a b dl with fox := (s3.myBlk v).slowest [lo, hi] }
              let s6 := s4.discardEvents v.core (bits8 uh.evp)
              let s7 := s6.modUnit v.core hi fun u => { u with asyncs := [] }
              let s8 := ((s7.renamePins v.core hi lo).retireUnit v.core hi).trace v.core v.unit v.addr 6
                [.ofNat 64 lo, .ofNat 64 hi, .ofNat 64 ((lanesOf ml).length + (lanesOf mh).length)]
              .ok (if lo = o then s8.stepUnit v.core lo 0 sp.pc sp.mask else s8)
          | _, _ => .ok s3

/-! ## COLLAPSE and EXPAND -/

/-- Commands follow the unit that issued them when its number changes (R110, R111). -/
def Block.renameUnit (b : Block) (u n : Nat) : Block :=
  { b with cmds := b.cmds.map fun k => if k.unit == u && !k.orphan then { k with unit := n } else k }

/-- Whether another unit's COLLAPSE or EXPAND that can be served now has waited longer than one that first issued in a cycle: the first
issued wins, then the lower number (R66). -/
def Block.aheadOf (b : Block) (kind : WaitKind) (u first : Nat) : Nat :=
  ((List.range 20).filter fun o => o != u && (b.unit o).any fun p => p.trap.isNone && p.splits.any fun t => t.waits.any fun w =>
    w.kind == kind && (kind != .context || decide (w.n ≤ 16 * b.vgroups))
      && (decide (w.first < first) || w.first == first && decide (o < u))).length

/-- Contexts free in a block. -/
def Block.freeContexts (b : Block) : Nat := ((List.range 4).filter fun k => (b.unit (16 + k)).isNone).length

/-- The lowest context number free in a block (R58). -/
def Block.freeContext (b : Block) : Option Nat := (List.range 4).find? fun k => (b.unit (16 + k)).isNone

/-- The context that a warp collapses into (R110). Its return stack is empty. (DESIGN CHOICE, log 73: unsafe.) -/
def collapsed (u : ProgUnit) (k regcnt : Nat) (pc : Word) : ProgUnit :=
  let m := min regcnt 62
  let act := lanesOf (u.split 0).mask
  let lanes := (List.range k).map fun j => match act[j]? with
    | some i =>
      let l := u.lane i
      { regs := (List.range 62).map fun n => if n < m then { l.reg n with dirty := true } else mkReg 0 .und
        preds := l.preds : Lane }
    | none => { regs := List.replicate 62 (mkReg 0 .und) }
  { kind := .context, lanes := lanes, k := k
    splits := [{ mask := maskOf k fun _ => true, pc := pc, rpc := pc }]
    rcnt := u.rcnt, evp := u.evp, evm := u.evm, slots := u.slots, fpctl := u.fpctl, fpflags := u.fpflags
    dqPos := u.dqPos, asyncs := u.asyncs }

/-- COLLAPSE (R110): where several wait for a context, R66 says which one takes it. -/
def execCollapse (w : BranchWord) (s : State) := issue (.collapse w) w.head s fun v s =>
  let k := if w.pb.getLsbD 0 then 32 else 16
  let wait : Wait := { kind := .context, since := s.cyc, n := k }
  if v.sel = 0 then .ok s
  else if 1 < v.u.splits.length || !v.u.div.isEmpty || decide (k < v.actives.length) || v.sel != v.act
  then .error (raiseLanes v.act .collapseMisuse)
  else
    let b := s.myBlk v
    match b.freeContext with
    | none => parkEnd v wait s
    | some n =>
      if 16 * b.vgroups < k ∨ b.freeContexts ≤ b.aheadOf .context v.unit (v.sp.firstIssue s.cyc) then parkEnd v wait s
      else
        let s1 := s.closeRegion v
        let c := { collapsed (s1.me v) k (s.rcd b).regs (branchTarget v.addr w.off) with fox := b.slowest [v.unit] }
        let s2 := s1.modBlk v.core fun b => { b.renameUnit v.unit (16 + n) with
          units := (b.units.set v.unit none).set (16 + n) (some c.checkpoint) }
        let s3 := ((s2.partnerGone v.core v.unit).renamePins v.core v.unit (16 + n)).settleBarriers v.core
        .ok ((s3.trace v.core v.unit v.addr 7 [.ofNat 64 v.unit, .ofNat 64 (16 + n), .ofNat 64 k]).stepUnit v.core (16 + n) 0 v.addr v.act)

/-- The lowest warp slot free in a block. -/
def Block.freeWarp (b : Block) : Option Nat := (List.range 16).find? fun k => (b.unit k).isNone

/-- The warp of width 32 that a context expands into in a cycle (R111). The predicates of its inactive lanes are F, and its
return stack is empty. (DESIGN CHOICE, log 74: unsafe.) -/
def expanded (u : ProgUnit) (regcnt quarter qlanes : Nat) (pc : Word) (dq : Option Nat) (cyc : Nat) : ProgUnit :=
  let m := min regcnt 62
  let lanes := (List.range 32).map fun j =>
    if j < u.k then
      let l := u.lane j
      { regs := (List.range regcnt).map fun n => if n < m then { l.reg n with dirty := true } else mkReg 0 .und
        preds := l.preds : Lane }
    else { regs := List.replicate regcnt (mkReg 0 .und) }
  { kind := .warp, lanes := lanes, quarter := quarter, qlanes := qlanes, issued := cyc
    splits := [{ mask := maskOf u.k fun _ => true, pc := pc, rpc := pc, last := cyc, ready := cyc }]
    rcnt := u.rcnt, evp := u.evp, evm := u.evm, slots := u.slots, fpctl := u.fpctl, fpflags := u.fpflags
    dqPos := dq, asyncs := u.asyncs }

/-- EXPAND (R111), in the branch slot, after the bundle's other slots; where several wait for a warp slot, R66 says which one takes it. -/
def execExpand (w : BranchWord) (s : State) := issue (.expand w) w.head s fun v s =>
  if v.sel = 0 then .ok s
  else
    let p := s.me v
    let b := s.myBlk v
    let groups := (s.core v.core).nGroups - b.vgroups
    if !p.loops.isEmpty || p.q.loads.any (fun e => !e.popped) || !p.q.addrs.isEmpty || !p.q.datas.isEmpty
        || p.results.any (fun q => !q.isEmpty) || p.svc.isSome || groups == 0
    then .error (raiseLanes v.act .collapseMisuse)
    else
      let lanes := quarterLanes groups
      match (if b.aheadOf .warpSlot v.unit (v.sp.firstIssue s.cyc) = 0 then b.freeWarp else none),
        placeOne lanes ((List.range lanes.length).map b.demand) (s.rcd b).regs 32 with
      | some n, some q =>
        let s1 := s.closeRegion v
        let dq := match p.dqPos with
          | some x => some x
          | none => some b.dqBase
        let u := { expanded ((s1.me v).newRegion) (s.rcd b).regs q (lanes[q]?.getD 32) (branchTarget v.addr w.off) dq s.cyc with
          fox := b.slowest [n], evp := p.evp ||| (s.bundle.map fun x => x.fired &&& ~~~x.rebound).getD 0 }
        let s2 := s1.modBlk v.core fun b => { b.renameUnit v.unit n with units := (b.units.set v.unit none).set n (some u) }
        let s3 := (s2.renamePins v.core v.unit n).trace v.core v.unit v.addr 7 [.ofNat 64 n, .ofNat 64 v.unit, .ofNat 64 p.k]
        .ok { s3 with bundle := s3.bundle.map fun x => { x with became := some n } }
      | _, _ => .error (.park { kind := .warpSlot, since := s.cyc } s)

/-! ## LOOP and ENDLOOP -/

/-- LOOP (R112). -/
def execLoop (w : ArithWord) (s : State) := issue (.loop w) w.head s
  (once [w.a.toNat] fun v s _ rs =>
    let r := rs.head?.getD {}
    if !tagMatches .n32 r.tag then .error (raiseLanes v.act .tagMismatch)
    else if (s.me v).loops.length ≥ 8 then .error (raiseLanes v.act .loopOver)
    else
      let n := r.v.toNat % 2 ^ 32
      .ok (s.modU v fun u => { u with loops := { start := v.next, count := if n = 0 then 1 else n } :: u.loops }))

/-- ENDLOOP (R112). -/
def execEndloop (w : ArithWord) (s : State) := issue (.endloop w) w.head s fun v s =>
  if v.sel = 0 then .ok s
  else match (s.me v).loops with
    | [] => .error (raiseLanes v.act .loopOver)
    | e :: rest =>
      if e.count - 1 ≠ 0 then
        .ok ((s.modU v fun u => { u with loops := { e with count := e.count - 1, base := (e.base + 1) % 12 } :: rest }).jump v e.start)
      else .ok (s.modU v fun u => { u with loops := rest })

end Sys2Proof.Machine
end

