-- ==== Sys2Proof/Machine/Fp.lean ====
section
/-! DEFINITION. The number formats (R248 to R264) and their exact arithmetic with one rounding: values as exact
dyadics, rounding and its conditions (R257 to R259), NaNs (R251), the arithmetic of R273, the correctly rounded
functions of R276, LG6 (R254, R255, R282) and the sum of the array (R265). -/

namespace Sys2Proof.Machine

/-! ## Formats and values -/

/-- A binary element format (R249): significand bits with the hidden one, bias, width, the pattern of MAX, whether
it has infinities, and whether a conversion into it saturates (R259). -/
structure Fmt where
  p : Nat
  bias : Nat
  w : Nat
  maxP : Nat
  inf : Bool := true
  narrow : Bool := false
  deriving DecidableEq, Repr

/-- FP64. -/
def fmt64 : Fmt := { p := 53, bias := 1023, w := 64, maxP := 0x7FEFFFFFFFFFFFFF }

/-- FP32. -/
def fmt32 : Fmt := { p := 24, bias := 127, w := 32, maxP := 0x7F7FFFFF }

/-- FP16. -/
def fmt16 : Fmt := { p := 11, bias := 15, w := 16, maxP := 0x7BFF }

/-- BF16. -/
def fmtB16 : Fmt := { p := 8, bias := 127, w := 16, maxP := 0x7F7F }

/-- E4M3. -/
def fmtE4 : Fmt := { p := 4, bias := 7, w := 8, maxP := 0x7E, inf := false, narrow := true }

/-- E5M2. -/
def fmtE5 : Fmt := { p := 3, bias := 15, w := 8, maxP := 0x7B, narrow := true }

/-- E2M1. -/
def fmtE2 : Fmt := { p := 2, bias := 1, w := 4, maxP := 7, inf := false, narrow := true }

/-- The element format of a float type (R35, R250); LG6 is no binary format and is read by `lg6Val`. -/
def fmtOf : Ty → Fmt
  | .f64 => fmt64
  | .f16x4 => fmt16
  | .bf16x4 => fmtB16
  | .f8x8 => fmtE4
  | .e5x8 => fmtE5
  | .f4x16 => fmtE2
  | _ => fmt32

/-- Number of elements that an operation of T works on (R250). -/
def elemCount : Ty → Nat
  | .f16x4 | .bf16x4 => 4
  | .f8x8 | .e5x8 | .lg6x8 => 8
  | .f4x16 => 16
  | _ => 1

/-- The value of a pattern: a NaN, an infinity, or (−1)^neg · n · 2^e. -/
inductive Val where
  | nan (quiet : Bool)
  | inf (neg : Bool)
  | fin (neg : Bool) (n : Nat) (e : Int)
  deriving DecidableEq, Repr

/-- The sign bit of a pattern. -/
def Fmt.neg (f : Fmt) (x : Nat) : Bool := x / 2 ^ (f.w - 1) % 2 == 1

/-- A pattern without its sign. -/
def Fmt.mag (f : Fmt) (x : Nat) : Nat := x % 2 ^ (f.w - 1)

/-- A sign put on a magnitude pattern. -/
def Fmt.signed (f : Fmt) (neg : Bool) (x : Nat) : Nat := (if neg then 2 ^ (f.w - 1) else 0) + x

/-- Exponent of the smallest subnormal. -/
def Fmt.qmin (f : Fmt) : Int := 2 - (f.bias : Int) - f.p

/-- Value(x, F) (R249, R264). -/
def Fmt.val (f : Fmt) (x : Nat) : Val :=
  let m := f.mag x
  let e := m / 2 ^ (f.p - 1)
  let frac := m % 2 ^ (f.p - 1)
  if m ≤ f.maxP then
    if e = 0 then .fin (f.neg x) frac f.qmin else .fin (f.neg x) (frac + 2 ^ (f.p - 1)) (f.qmin + (e - 1))
  else if f.inf && m == f.maxP + 1 then .inf (f.neg x)
  else .nan (f.narrow || frac / 2 ^ (f.p - 2) == 1)

/-- The pattern of infinity. -/
def Fmt.infP (f : Fmt) (neg : Bool) : Nat := f.signed neg (f.maxP + 1)

/-- The default NaN (R251). -/
def Fmt.defaultNan (f : Fmt) : Nat := (2 ^ (f.w - f.p) - 1) * 2 ^ (f.p - 1) + 2 ^ (f.p - 2)

/-- IsNaN (R264). -/
def Val.isNan : Val → Bool
  | .nan _ => true
  | _ => false

/-- IsSNaN (R264). -/
def Val.isSnan (v : Val) : Bool := v == .nan false

/-- The sign of a value that is no NaN. -/
def Val.neg : Val → Bool
  | .nan _ => false
  | .inf s => s
  | .fin s _ _ => s

/-- The negative of a value. -/
def Val.flip : Val → Val
  | .nan q => .nan q
  | .inf s => .inf !s
  | .fin s n e => .fin (!s) n e

/-- Whether a value is a zero. -/
def Val.isZero : Val → Bool
  | .fin _ 0 _ => true
  | _ => false

/-! ## Conditions -/

/-- A pattern and the conditions met (R261): INV, DZ, OF, UF, NX from bit 0 up. -/
abbrev FRes := Nat × BitVec 5

/-- Invalid. -/
abbrev fINV : BitVec 5 := 1

/-- Divide by zero. -/
abbrev fDZ : BitVec 5 := 2

/-- Overflow. -/
abbrev fOF : BitVec 5 := 4

/-- Underflow. -/
abbrev fUF : BitVec 5 := 8

/-- Inexact. -/
abbrev fNX : BitVec 5 := 16

/-! ## Rounding -/

/-- Whether a magnitude cut to a multiple of an ulp moves up, given how the rest compares with half an ulp (R257). -/
def roundsUp (rm : Nat) (neg odd exact : Bool) (rest : Ordering) : Bool :=
  match rm with
  | 0 => rest == .gt || (rest == .eq && odd)
  | 1 => false
  | 2 => neg && !exact
  | _ => !neg && !exact

/-- n·2^e, with `st` a little more than that and less than (n + 1)·2^e, rounded to a multiple of 2^q: the count, and
whether it is inexact. -/
def roundTo (rm : Nat) (neg : Bool) (n : Nat) (e : Int) (st : Bool) (q : Int) : Nat × Bool :=
  if q ≤ e then (n * 2 ^ (e - q).toNat, st)
  else
    let k := (q - e).toNat
    let m := n / 2 ^ k
    let r := n % 2 ^ k
    let half := 2 ^ (k - 1)
    let rest : Ordering := if r < half then .lt else if r = half ∧ !st then .eq else .gt
    let exact := r == 0 && !st
    (if roundsUp rm neg (m % 2 == 1) exact rest then m + 1 else m, !exact)

/-- The result of an overflow (R257), or MAX where a conversion saturates (R259). -/
def Fmt.overflow (f : Fmt) (rm : Nat) (neg : Bool) : Nat :=
  let toMax := f.narrow || (match rm with
    | 0 => false
    | 1 => true
    | 2 => !neg
    | _ => neg)
  if toMax then f.signed neg f.maxP else f.infP neg

/-- ROUND: the magnitude n·2^e, a little more with `st` (n then has more than p bits), rounded into the format with
the conditions met (R257 to R259). -/
def Fmt.round (f : Fmt) (rm : Nat) (neg : Bool) (n : Nat) (e : Int) (st : Bool := false) : FRes :=
  if n = 0 ∧ !st then (f.signed neg 0, 0)
  else
    let q : Int := Nat.log2 n + e - (f.p - 1 : Nat)
    let qb := max q f.qmin
    let u := roundTo rm neg n e st q
    let b := roundTo rm neg n e st qb
    let pat := (qb - f.qmin).toNat * 2 ^ (f.p - 1) + b.1
    if f.maxP < pat then (f.overflow rm neg, fOF ||| fNX)
    else
      let tiny := decide (q < f.qmin) && decide (u.1 < 2 ^ (f.p - 1 + (f.qmin - q).toNat))
      (f.signed neg pat, if b.2 then (if tiny then fUF ||| fNX else fNX) else 0)

/-! ## NaNs -/

/-- The NaN that pattern x of format g gives in format f (R251, R259). -/
def Fmt.nanFrom (f g : Fmt) (x : Nat) : Nat :=
  let s := g.neg x
  if f.narrow then (if f.w = 4 then 0 else f.signed s (2 ^ (f.w - 1) - 1))
  else if g.narrow then f.signed s f.defaultNan
  else
    let frac := (x % 2 ^ (g.p - 1)) ||| 2 ^ (g.p - 2)
    let frac := if g.p ≤ f.p then frac * 2 ^ (f.p - g.p) else frac / 2 ^ (g.p - f.p)
    f.signed s ((2 ^ (f.w - f.p) - 1) * 2 ^ (f.p - 1) + frac)

/-- PickNaN (R251): the first NaN among sources of given formats, in format f; INV for a signalling source. -/
def pickNan (f : Fmt) (xs : List (Fmt × Nat)) : Option FRes :=
  match xs.find? fun x => (x.1.val x.2).isNan with
  | none => none
  | some x => some (f.nanFrom x.1 x.2, if xs.any fun y => (y.1.val y.2).isSnan then fINV else 0)

/-- PickNaN among patterns of one format. -/
def pickNan1 (f : Fmt) (xs : List Nat) : Option FRes := pickNan f (xs.map (f, ·))

/-- The default NaN of an invalid operation. -/
def Fmt.invalid (f : Fmt) : FRes := (f.defaultNan, fINV)

/-! ## Exact arithmetic -/

/-- The signed integer of a dyadic. -/
def sgn (neg : Bool) (n : Nat) : Int := if neg then -(n : Int) else n

/-- Sign of an exact zero sum (R257): + but for opposite-signed values in .rd. -/
def zeroSign (rm : Nat) (x y : Bool) : Bool := x != y && rm == 2

/-- An exact signed dyadic rounded; an exact zero takes the sign given. -/
def Fmt.roundInt (f : Fmt) (rm : Nat) (t : Int) (e : Int) (zero : Bool) : FRes :=
  if t = 0 then (f.signed zero 0, 0) else f.round rm (decide (t < 0)) t.natAbs e

/-- The exact sum of two dyadics, over the lesser exponent. -/
def addDyadic (sx : Bool) (nx : Nat) (ex : Int) (sy : Bool) (ny : Nat) (ey : Int) : Int × Int :=
  let e := min ex ey
  (sgn sx nx * 2 ^ (ex - e).toNat + sgn sy ny * 2 ^ (ey - e).toNat, e)

/-- x + y of values that are no NaNs, rounded (R257, R261). -/
def Fmt.addVal (f : Fmt) (rm : Nat) : Val → Val → FRes
  | .inf a, .inf b => if a = b then (f.infP a, 0) else f.invalid
  | .inf a, _ => (f.infP a, 0)
  | _, .inf b => (f.infP b, 0)
  | .fin a nx ex, .fin b ny ey =>
    let t := addDyadic a nx ex b ny ey
    f.roundInt rm t.1 t.2 (zeroSign rm a b)
  | _, _ => f.invalid

/-- The exact product of values that are no NaNs; none for 0 × ∞. -/
def mulVal : Val → Val → Option Val
  | .inf a, .inf b => some (.inf (a != b))
  | .inf a, .fin b n _ => if n = 0 then none else some (.inf (a != b))
  | .fin a n _, .inf b => if n = 0 then none else some (.inf (a != b))
  | .fin a m d, .fin b n e => some (.fin (a != b) (m * n) (d + e))
  | _, _ => none

/-- A value rounded into a format. -/
def Fmt.ofVal (f : Fmt) (rm : Nat) : Val → FRes
  | .nan _ => (f.defaultNan, 0)
  | .inf s => if f.inf then (f.infP s, 0) else (f.signed s f.maxP, fOF ||| fNX)
  | .fin s n e => f.round rm s n e

/-- The quotient of magnitudes, with 120 bits beyond the divisor's: count, exponent, and whether it is cut. -/
def divMag (m : Nat) (d : Int) (n : Nat) (e : Int) : Nat × Int × Bool :=
  (m * 2 ^ 120 / n, d - e - 120, m * 2 ^ 120 % n != 0)

/-- x / y of values that are no NaNs, rounded (R273). -/
def Fmt.divVal (f : Fmt) (rm : Nat) : Val → Val → FRes
  | .inf a, .fin b _ _ => (f.infP (a != b), 0)
  | .fin a _ _, .inf b => (f.signed (a != b) 0, 0)
  | .fin a m d, .fin b n e =>
    if n = 0 then (if m = 0 then f.invalid else (f.infP (a != b), fDZ))
    else
      let q := divMag m d n e
      f.round rm (a != b) q.1 q.2.1 q.2.2
  | _, _ => f.invalid

/-- The integer square root by its bits from 2^k down. -/
def isqrtFrom (n : Nat) : Nat → Nat → Nat
  | 0, r => r
  | k + 1, r => isqrtFrom n k (if (r + 2 ^ k) * (r + 2 ^ k) ≤ n then r + 2 ^ k else r)

/-- The integer square root. -/
def isqrt (n : Nat) : Nat := isqrtFrom n (Nat.log2 n / 2 + 1) 0

/-- The square root of a magnitude: count, exponent, and whether it is cut. -/
def sqrtMag (n : Nat) (e : Int) : Nat × Int × Bool :=
  let n1 := if e % 2 = 0 then n else 2 * n
  let e1 := if e % 2 = 0 then e else e - 1
  let x := n1 * 2 ^ 120
  (isqrt x, e1 / 2 - 60, isqrt x * isqrt x != x)

/-- √x of a value that is no NaN, rounded (R273). -/
def Fmt.sqrtVal (f : Fmt) (rm : Nat) : Val → FRes
  | .fin s n e =>
    if n = 0 then (f.signed s 0, 0)
    else if s then f.invalid
    else
      let q := sqrtMag n e
      f.round rm false q.1 q.2.1 q.2.2
  | .inf false => (f.infP false, 0)
  | _ => f.invalid

/-- The order of finite values and infinities. -/
def Val.cmp (x y : Val) : Ordering :=
  match x, y with
  | .inf a, .inf b => if a = b then .eq else if a then .lt else .gt
  | .inf a, _ => if a then .lt else .gt
  | _, .inf b => if b then .gt else .lt
  | .fin a m d, .fin b n e => compare (addDyadic a m d (!b) n e).1 0
  | _, _ => .eq

/-! ## The members of R273 on patterns -/

/-- A + B. -/
def Fmt.add (f : Fmt) (rm : Nat) (a b : Nat) : FRes :=
  (pickNan1 f [a, b]).getD (f.addVal rm (f.val a) (f.val b))

/-- A − B. -/
def Fmt.sub (f : Fmt) (rm : Nat) (a b : Nat) : FRes :=
  (pickNan1 f [a, b]).getD (f.addVal rm (f.val a) (f.val b).flip)

/-- A × B. -/
def Fmt.mul (f : Fmt) (rm : Nat) (a b : Nat) : FRes :=
  (pickNan1 f [a, b]).getD (match mulVal (f.val a) (f.val b) with
    | none => f.invalid
    | some v => f.ofVal rm v)

/-- A × B + C, rounded once (R257, R261). 0 × ∞ with a quiet NaN as C gives the NaN alone. (DEDUCED, log 26: unsafe.) -/
def Fmt.fma (f : Fmt) (rm : Nat) (a b c : Nat) : FRes :=
  (pickNan1 f [a, b, c]).getD (match mulVal (f.val a) (f.val b) with
    | none => f.invalid
    | some v => f.addVal rm v (f.val c))

/-- A / B. -/
def Fmt.div (f : Fmt) (rm : Nat) (a b : Nat) : FRes :=
  (pickNan1 f [a, b]).getD (f.divVal rm (f.val a) (f.val b))

/-- √A. -/
def Fmt.sqrt (f : Fmt) (rm : Nat) (a : Nat) : FRes :=
  (pickNan1 f [a]).getD (f.sqrtVal rm (f.val a))

/-- Whether A comes before B, −0 below +0 (R273). -/
def Fmt.before (f : Fmt) (a b : Nat) : Bool :=
  match (f.val a).cmp (f.val b) with
  | .lt => true
  | .gt => false
  | .eq => f.neg a && !f.neg b

/-- FMIN and FMAX: no rounding; one quiet NaN gives the other source (R273). -/
def Fmt.minmax (f : Fmt) (greater : Bool) (a b : Nat) : FRes :=
  let x := f.val a
  let y := f.val b
  if x.isSnan || y.isSnan || (x.isNan && y.isNan) then (pickNan1 f [a, b]).getD (a, 0)
  else if x.isNan then (b, 0)
  else if y.isNan then (a, 0)
  else if f.before a b == greater then (b, 0) else (a, 0)

/-- Saturate (R269). -/
def Fmt.clamp (f : Fmt) (x : Nat) : Nat :=
  if (f.val x).isNan || f.neg x then 0
  else if f.bias * 2 ^ (f.p - 1) < x then f.bias * 2 ^ (f.p - 1) else x

/-- Absolute, then negate, of a source (R22, R269). -/
def Fmt.modify (f : Fmt) (neg abs : Bool) (x : Nat) : Nat :=
  let y := if abs then f.mag x else x
  if neg then f.signed (!f.neg y) (f.mag y) else y

/-! ## The functions of R276 -/

/-- Fraction bits of the fixed-point values below: every F32 source is decided by far fewer (DEDUCED, log 15). -/
abbrev fracBits : Nat := 400

/-- The integer part of π·2^400. -/
def piFixed : Nat :=
  0x3243f6a8885a308d313198a2e03707344a4093822299f31d0082efa98ec4e6c89452821e638d01377be5466cf34e90c6cc0ac

/-- The integer part of ln 2·2^400. -/
def ln2Fixed : Nat :=
  0xb17217f7d1cf79abc9e3b39803f2f6af40f343267298b62d8a0d175b8baafa2be7b876206debac98559552fb4afa1b10ed2e

/-- The product of two fixed-point numbers. -/
def fixMul (x y : Nat) : Nat := x * y / 2 ^ fracBits

/-- Σ t·x^k/((i+1)…(i+k)) from a term t numbered i on. -/
def expSum (x : Nat) : Nat → Nat → Nat → Nat
  | 0, _, _ => 0
  | fuel + 1, i, t => t + expSum x fuel (i + 1) (fixMul t x / (i + 1))

/-- 2^f for a fixed-point f in [0, 1). -/
def exp2Fixed (f : Nat) : Nat := expSum (fixMul f ln2Fixed) 120 0 (2 ^ fracBits)

/-- Σ t/(2k+1), the terms t falling by the factor z2. -/
def atanhSum (z2 : Nat) : Nat → Nat → Nat → Nat
  | 0, _, _ => 0
  | fuel + 1, k, t => t / (2 * k + 1) + atanhSum z2 fuel (k + 1) (fixMul t z2)

/-- log2 of m / d for d ≤ m < 2d. -/
def log2Fixed (m d : Nat) : Nat :=
  let z := (m - d) * 2 ^ fracBits / (m + d)
  2 * atanhSum (fixMul z z) 140 0 z * 2 ^ fracBits / ln2Fixed

/-- The alternating sum t − t·x²/((i+1)(i+2)) + … -/
def altSum (x2 : Nat) : Nat → Nat → Nat → Int
  | 0, _, _ => 0
  | fuel + 1, i, t => (t : Int) - altSum x2 fuel (i + 2) (fixMul t x2 / ((i + 1) * (i + 2)))

/-- sin(πr) for a fixed-point r in [0, 1/2]. -/
def sinFixed (r : Nat) : Nat :=
  let t := fixMul r piFixed
  (altSum (fixMul t t) 70 1 t).toNat

/-- cos(πr) for a fixed-point r in [0, 1/2]. -/
def cosFixed (r : Nat) : Nat :=
  let t := fixMul r piFixed
  (altSum (fixMul t t) 70 0 (2 ^ fracBits)).toNat

/-- A fixed-point irrational, rounded. -/
def roundFixed (rm : Nat) (neg : Bool) (x : Nat) (e : Int) : FRes := fmt32.round rm neg x (e - fracBits) true

/-- 1/a. -/
def rcpVal (rm : Nat) (v : Val) : FRes := fmt32.divVal rm (.fin false 1 0) v

/-- 1/√a. -/
def rsqVal (rm : Nat) : Val → FRes
  | .fin s n e =>
    if n = 0 then (fmt32.infP s, fDZ)
    else if s then fmt32.invalid
    else
      let n1 := if e % 2 = 0 then n else 2 * n
      let e1 := if e % 2 = 0 then e else e - 1
      let x := 2 ^ 200 / n1
      let r := isqrt x
      fmt32.round rm false r (-(e1 / 2) - 100) (r * r * n1 != 2 ^ 200)
  | .inf false => (0, 0)
  | _ => fmt32.invalid

/-- 2^a. -/
def exp2Val (rm : Nat) : Val → FRes
  | .inf s => (if s then 0 else fmt32.infP false, 0)
  | .fin s n e =>
    -- beyond 2^10 every magnitude overflows or underflows alike
    if n ≠ 0 ∧ 10 ≤ Nat.log2 n + e then fmt32.round rm false 1 (if s then -1000 else 1000) false
    else
      let t : Int := sgn s n * 2 ^ (e + fracBits).toNat
      let i := t.fdiv (2 ^ fracBits)
      let f := (t.fmod (2 ^ fracBits)).toNat
      if f = 0 then fmt32.round rm false 1 i else roundFixed rm false (exp2Fixed f) i
  | .nan _ => fmt32.invalid

/-- log2 a. -/
def log2Val (rm : Nat) : Val → FRes
  | .inf false => (fmt32.infP false, 0)
  | .fin s n e =>
    if n = 0 then (fmt32.infP true, fDZ)
    else if s then fmt32.invalid
    else
      let l := Nat.log2 n
      let i : Int := l + e
      if n = 2 ^ l then fmt32.roundInt rm i 0 false
      else
        let t : Int := i * 2 ^ fracBits + log2Fixed n (2 ^ l)
        -- a negative value is cut toward zero like a positive one
        if 0 ≤ t then roundFixed rm false t.toNat 0 else roundFixed rm true (-t).toNat 0
  | _ => fmt32.invalid

/-- |a| modulo 2 in fixed point. -/
def halfTurns (n : Nat) (e : Int) : Nat :=
  if 1 ≤ e then 0 else n * 2 ^ (e + fracBits).toNat % 2 ^ (fracBits + 1)

/-- sin or cos of πr for a fixed-point r in (0, 2) that is no multiple of 1/2: sign and magnitude. -/
def trigFixed (r : Nat) (cosine : Bool) : Bool × Nat :=
  let half := 2 ^ (fracBits - 1)
  let k := r / half
  let x := r % half
  match k, cosine with
  | 0, false => (false, sinFixed x)
  | 1, false => (false, cosFixed x)
  | 2, false => (true, sinFixed x)
  | _, false => (true, cosFixed x)
  | 0, true => (false, cosFixed x)
  | 1, true => (true, sinFixed x)
  | 2, true => (true, cosFixed x)
  | _, true => (false, sinFixed x)

/-- sin(πa). -/
def sinpiVal (rm : Nat) : Val → FRes
  | .fin s n e =>
    let r := halfTurns n e
    if r % 2 ^ fracBits = 0 then (fmt32.signed s 0, 0)
    else if r = 2 ^ (fracBits - 1) then fmt32.round rm s 1 0
    else if r = 3 * 2 ^ (fracBits - 1) then fmt32.round rm (!s) 1 0
    else
      let t := trigFixed r false
      roundFixed rm (t.1 != s) t.2 0
  | _ => fmt32.invalid

/-- cos(πa). -/
def cospiVal (rm : Nat) : Val → FRes
  | .fin _ n e =>
    let r := halfTurns n e
    if r % 2 ^ fracBits = 2 ^ (fracBits - 1) then (0, 0)
    else if r = 0 then fmt32.round rm false 1 0
    else if r = 2 ^ fracBits then fmt32.round rm true 1 0
    else
      let t := trigFixed r true
      roundFixed rm t.1 t.2 0
  | _ => fmt32.invalid

/-! ## LG6 -/

/-- The linearisation table (R255). -/
def lin : Nat → Nat
  | 0 => 256
  | 1 => 304
  | 2 => 362
  | _ => 431

/-- L of a code, −16 to 15 (R254). -/
def lg6L (c : Nat) : Int := signed 5 c

/-- LG6Term (R255), in units of 2^−16. -/
def lg6Term (a b : Nat) : Int :=
  if a % 32 = 16 ∨ b % 32 = 16 then 0
  else
    let p := lg6L a + lg6L b
    sgn (a / 32 % 2 != b / 32 % 2) (lin (p % 4).toNat * 2 ^ (p / 4 + 8).toNat)

/-- The value of a code as CVT reads it (R282). -/
def lg6Val (c : Nat) : Val :=
  if c % 32 = 16 then .fin (c / 32 % 2 == 1) 0 0
  else .fin (c / 32 % 2 == 1) (lin (lg6L c % 4).toNat) (lg6L c / 4 - 8)

/-- Magnitude of L in units of 2^−12, L from −15 to 15. -/
def lg6Mag (l : Int) : Nat := lin (l % 4).toNat * 2 ^ (l / 4 + 4).toNat

/-- The candidate nearest to |x| = n·2^e, from the smallest up; a tie keeps the smaller (R282). The comparison is
in units of 2^−149. -/
def lg6Nearest (x : Nat) : List Int → Int → Nat → Int
  | [], best, _ => best
  | l :: ls, best, dist =>
    let m := lg6Mag l * 2 ^ 137
    let d := if x < m then m - x else x - m
    if d < dist then lg6Nearest x ls l d else lg6Nearest x ls best dist

/-- An F32 pattern converted to LG6 (R282). -/
def toLg6 (x : Nat) : FRes :=
  match fmt32.val x with
  | .nan _ => (0x10, fINV)
  | .inf s => ((if s then 32 else 0) + 15, fOF ||| fNX)
  | .fin s n e =>
    let v := n * 2 ^ (e + 149).toNat
    let top := lg6Mag 15 * 2 ^ 137
    if top < v then ((if s then 32 else 0) + 15, fOF ||| fNX)
    else
      let l := lg6Nearest v ((List.range 31).map fun (k : Nat) => (k : Int) - 15) (-16) v
      let got := if l = -16 then 0 else lg6Mag l * 2 ^ 137
      ((if s then 32 else 0) + (l % 32).toNat, if got = v then 0 else fNX)

/-! ## The sum of the array -/

/-- SatAdd (R265) on F32 patterns. -/
def satAdd (x y : Nat) : Nat :=
  let u := fmt32.val x
  let v := fmt32.val y
  if u.isNan then x
  else if v.isNan then fmt32.defaultNan
  else
    let r := (fmt32.addVal 0 u v).1
    match u, v, fmt32.val r with
    | .fin _ _ _, .fin _ _ _, .inf s => fmt32.signed s fmt32.maxP
    | _, _, _ => r

/-- SatAdd of an F32 pattern and an exact value, rounded once. -/
def satAddVal (x : Nat) (v : Val) : Nat :=
  let u := fmt32.val x
  if u.isNan then x
  else if v.isNan then fmt32.defaultNan
  else
    let r := (fmt32.addVal 0 u v).1
    match u, v, fmt32.val r with
    | .fin _ _ _, .fin _ _ _, .inf s => fmt32.signed s fmt32.maxP
    | _, _, _ => r

/-- Scale(e) (R252, R264): none for NaN. -/
def scaleExp (e : Nat) : Option Int := if e % 256 = 255 then none else some ((e % 256 : Nat) - 127 : Int)

end Sys2Proof.Machine
end

