-- ==== Sys2Proof/Machine/Float.lean ====
section
/-! DEFINITION. The floating-point and interval instructions (R268 to R287), IVSPLIT and IVPOP with the den
(R247, R287 to R289). -/

namespace Sys2Proof

/-- Negate A, negate B, absolute (R22: MOD bits 0 to 2). -/
def ArithWord.negA (w : ArithWord) : Bool := w.mod.getLsbD 0

/-- Negate B. -/
def ArithWord.negB (w : ArithWord) : Bool := w.mod.getLsbD 1

/-- Absolute. -/
def ArithWord.abs (w : ArithWord) : Bool := w.mod.getLsbD 2

/-- The faulting form `.x` (R270). -/
def ArithWord.faulting (w : ArithWord) : Bool := w.sub.getLsbD 0

end Sys2Proof

namespace Sys2Proof.Machine

/-! ## Elements of registers -/

/-- Element k of a register of T (R250). -/
def elem (t : Ty) (k : Nat) (v : Word) : Nat :=
  let w := (fmtOf t).w
  v.toNat / 2 ^ (w * k) % 2 ^ w

/-- Elements joined into a register, element 0 lowest. -/
def joinElems (w : Nat) : List Nat → Nat
  | [] => 0
  | x :: xs => x % 2 ^ w + 2 ^ w * joinElems w xs

/-- The OR of the conditions of all elements (R250). -/
def orConds (l : List FRes) : BitVec 5 := l.foldr (fun r m => r.2 ||| m) 0

/-- A result of T from its elements. -/
def joinRes (t : Ty) (l : List FRes) : LaneRes :=
  .ok (mkReg (.ofNat 64 (joinElems (fmtOf t).w (l.map (·.1)))) t, orConds l)

/-- Source m of a word after MOD: negate A, negate B, absolute on A and B (R22, R269). -/
def srcElem (w : ArithWord) (t : Ty) (m k : Nat) (r : Reg) : Nat :=
  let x := elem t k r.v
  match m with
  | 0 => (fmtOf t).modify w.negA w.abs x
  | 1 => (fmtOf t).modify w.negB w.abs x
  | _ => x

/-- A scalar or packed float operation on tagged sources (R273). -/
def floatLane (w : ArithWord) (f : Fmt → List Nat → FRes) (rs : List Reg) : LaneRes :=
  let t := w.t
  if !(rs.all fun r => tagMatches t r.tag) then badTag
  else joinRes t ((List.range (elemCount t)).map fun k =>
    let r := f (fmtOf t) (rs.mapIdx fun m r => srcElem w t m k r)
    (if w.sat then (fmtOf t).clamp r.1 else r.1, r.2))

/-! ## Intervals -/

/-- An interval operand: its bounds as F32 patterns with −0 read as 0, or empty (R256). -/
abbrev Ival := Option (Nat × Nat)

/-- A bound of −0 reads as 0. -/
def zeroPlus (x : Nat) : Nat := if x = 2 ^ 31 then 0 else x

/-- The operand of a valid IV32 pattern. -/
def ivalOf (v : Word) : Ival :=
  let lo := v.toNat % 2 ^ 32
  let hi := v.toNat / 2 ^ 32
  if lo = fmt32.infP false ∨ hi = fmt32.infP true then none else some (zeroPlus lo, zeroPlus hi)

/-- The pattern of an interval result (R256). -/
def ivalWord : Ival → Word
  | none => 0xFF8000007F800000#64
  | some (lo, hi) => .ofNat 64 (zeroPlus lo + 2 ^ 32 * zeroPlus hi)

/-- The negative of an F32 pattern. -/
def neg32 (x : Nat) : Nat := if x < 2 ^ 31 then x + 2 ^ 31 else x - 2 ^ 31

/-- Negate of an interval, exact (R269). -/
def ivalNeg : Ival → Ival
  | none => none
  | some (lo, hi) => some (zeroPlus (neg32 hi), zeroPlus (neg32 lo))

/-- OutwardDown (R264). -/
def outDown (v : Val) : Nat := zeroPlus (fmt32.ofVal 2 v).1

/-- OutwardUp (R264). -/
def outUp (v : Val) : Nat := zeroPlus (fmt32.ofVal 3 v).1

/-- The lesser of two F32 bounds. -/
def minB (x y : Nat) : Nat := if ordF32 y < ordF32 x then y else x

/-- The greater of two F32 bounds. -/
def maxB (x y : Nat) : Nat := if ordF32 x < ordF32 y then y else x

/-- The least of bounds. -/
def leastB : List Nat → Nat
  | [] => 0
  | x :: xs => xs.foldl minB x

/-- The greatest of bounds. -/
def greatestB : List Nat → Nat
  | [] => 0
  | x :: xs => xs.foldl maxB x

/-- A sum of two bounds, one of which may be infinite, rounded outward: downward with rm 2, upward with rm 3. -/
def boundSum (rm : Nat) (x y : Val) : Nat :=
  match x, y with
  | .fin _ _ _, .fin _ _ _ => zeroPlus (fmt32.addVal rm x y).1
  | .fin _ _ _, v | v, .fin _ _ _ => (fmt32.ofVal rm v).1
  -- two infinities: the one that the bound runs toward stays (R274)
  | a, b => if a.neg = b.neg then fmt32.infP a.neg else fmt32.infP (rm == 2)

/-- A product of two bounds, 0 × ±∞ counting as 0 (R274). -/
def boundProd (x y : Val) : Val := (mulVal x y).getD (.fin false 0 0)

/-- A quotient of two bounds, rounded; ∞ / ∞ counts as 0, which the other quotients enclose.
(DEDUCED, log 26: unsafe.) -/
def boundQuot (rm : Nat) (x y : Val) : Nat :=
  match x, y with
  | .inf _, .inf _ => 0
  | _, _ => zeroPlus (fmt32.divVal rm x y).1

/-- The four pairs of bounds of two intervals. -/
def corners (a b : Nat × Nat) : List (Val × Val) :=
  let v := fmt32.val
  [(v a.1, v b.1), (v a.1, v b.2), (v a.2, v b.1), (v a.2, v b.2)]

/-- Interval sum. -/
def ivalAdd (a b : Nat × Nat) : Ival :=
  some (boundSum 2 (fmt32.val a.1) (fmt32.val b.1), boundSum 3 (fmt32.val a.2) (fmt32.val b.2))

/-- Interval difference. -/
def ivalSub (a b : Nat × Nat) : Ival :=
  some (boundSum 2 (fmt32.val a.1) (fmt32.val b.2).flip, boundSum 3 (fmt32.val a.2) (fmt32.val b.1).flip)

/-- Interval product. -/
def ivalMul (a b : Nat × Nat) : Ival :=
  let ps := (corners a b).map fun x => boundProd x.1 x.2
  some (leastB (ps.map outDown), greatestB (ps.map outUp))

/-- Interval product and sum, each bound rounded once. -/
def ivalFma (a b c : Nat × Nat) : Ival :=
  let ps := (corners a b).map fun x => boundProd x.1 x.2
  some (leastB (ps.map fun p => boundSum 2 p (fmt32.val c.1)), greatestB (ps.map fun p => boundSum 3 p (fmt32.val c.2)))

/-- −∞ and +∞ as bounds. -/
abbrev negInf : Nat := 0xFF800000

/-- +∞ as a bound. -/
abbrev posInf : Nat := 0x7F800000

/-- Interval division (R274, R275), the rows of the table in order where 0 ∈ B. -/
def ivalDiv (a b : Nat × Nat) : Ival :=
  let a1 := ordF32 a.1
  let a2 := ordF32 a.2
  let b1 := ordF32 b.1
  let b2 := ordF32 b.2
  let v := fmt32.val
  if 0 < b1 ∨ b2 < 0 then
    some (leastB ((corners a b).map fun x => boundQuot 2 x.1 x.2), greatestB ((corners a b).map fun x => boundQuot 3 x.1 x.2))
  else if b1 = 0 ∧ b2 = 0 then none
  else if a1 = 0 ∧ a2 = 0 then some (0, 0)
  else if b1 < 0 ∧ 0 < b2 then some (negInf, posInf)
  else if a1 < 0 ∧ 0 < a2 then some (negInf, posInf)
  else if a1 = 0 then (if b1 = 0 then some (0, posInf) else some (negInf, 0))
  else if a2 = 0 then (if b1 = 0 then some (negInf, 0) else some (0, posInf))
  else if 0 < a1 then
    (if b1 = 0 then some (boundQuot 2 (v a.1) (v b.2), posInf) else some (negInf, boundQuot 3 (v a.1) (v b.1)))
  else
    (if b1 = 0 then some (negInf, boundQuot 3 (v a.2) (v b.2)) else some (boundQuot 2 (v a.2) (v b.1), posInf))

/-- Interval square root (R274). -/
def ivalSqrt (a : Nat × Nat) : Ival :=
  if ordF32 a.2 < 0 then none
  else
    let lo := if ordF32 a.1 < 0 then 0 else a.1
    some (zeroPlus (fmt32.sqrtVal 2 (fmt32.val lo)).1, zeroPlus (fmt32.sqrtVal 3 (fmt32.val a.2)).1)

/-- Interval square (R284). -/
def ivalSqr (a : Nat × Nat) : Ival :=
  let sq := fun (x : Nat) => boundProd (fmt32.val x) (fmt32.val x)
  let hi := maxB (outUp (sq a.1)) (outUp (sq a.2))
  if ordF32 a.1 ≤ 0 ∧ 0 ≤ ordF32 a.2 then some (0, hi)
  else some (minB (outDown (sq a.1)) (outDown (sq a.2)), hi)

/-- Interval absolute value (R284). -/
def ivalAbs (a : Nat × Nat) : Ival :=
  if 0 ≤ ordF32 a.1 then some a
  else if ordF32 a.2 ≤ 0 then some (zeroPlus (neg32 a.2), zeroPlus (neg32 a.1))
  else some (0, maxB (neg32 a.1) a.2)

/-- Hull, the empty set being the identity (R284). -/
def ivalHull : Ival → Ival → Ival
  | none, b => b
  | a, none => a
  | some a, some b => some (minB a.1 b.1, maxB a.2 b.2)

/-- Intersection (R284). -/
def ivalMeet : Ival → Ival → Ival
  | some a, some b =>
    let lo := maxB a.1 b.1
    let hi := minB a.2 b.2
    if ordF32 hi < ordF32 lo then none else some (lo, hi)
  | _, _ => none

/-- IVMID (R285). -/
def ivalMid : Ival → Nat
  | none => fmt32.defaultNan
  | some (a, b) =>
    if a = negInf ∧ b = posInf then 0
    else if a = negInf then 0xFF7FFFFF
    else if b = posInf then 0x7F7FFFFF
    else match fmt32.val a, fmt32.val b with
      | .fin sa na ea, .fin sb nb eb =>
        let t := addDyadic sa na ea sb nb eb
        let m := (fmt32.roundInt 0 t.1 (t.2 - 1) false).1
        zeroPlus (maxB a (minB b m))
      | _, _ => 0

/-- A source read as IV32: its operand, or none for an invalid pattern. -/
def readIval (w : ArithWord) (m : Nat) (r : Reg) : Option Ival :=
  if ivValid r.v then
    let x := ivalOf r.v
    some (if (m == 0 && w.negA) || (m == 1 && w.negB) then ivalNeg x else x)
  else none

/-- The sources of an interval instruction: tags, then bounds (R271). -/
def ivalSources (w : ArithWord) (rs : List Reg) : Except LaneErr (List Ival) :=
  if !(rs.all fun r => tagMatches .iv32 r.tag) then .error { rank := 0, cause := .tagMismatch }
  else
    let xs := rs.mapIdx fun m r => readIval w m r
    if xs.all Option.isSome then .ok (xs.map (·.getD none)) else .error { rank := 1, cause := .badInterval }

/-- An interval result, raising EMPTY_INTERVAL in the faulting form (R270). -/
def ivalRes (w : ArithWord) (x : Ival) : LaneRes :=
  if w.faulting && x.isNone then .error { rank := 2, cause := .emptyInterval } else okReg (ivalWord x) .iv32

/-- An interval instruction with an interval result. -/
def ivalLane (w : ArithWord) (f : List Ival → Ival) (rs : List Reg) : LaneRes :=
  match ivalSources w rs with
  | .error e => .error e
  | .ok xs => ivalRes w (f xs)

/-- An interval instruction that writes an F32. -/
def ivalBits (w : ArithWord) (f : Ival → Nat) (_ : Nat) (a : Reg) : LaneRes :=
  match ivalSources w [a] with
  | .error e => .error e
  | .ok xs => okReg (.ofNat 64 (f (xs.head?.getD none))) .f32

/-- A two-operand member on sets: an empty source gives the empty result (R274). -/
def onPair (f : Nat × Nat → Nat × Nat → Ival) : List Ival → Ival
  | [some a, some b] => f a b
  | _ => none

/-- A one-operand member on sets. -/
def onOne (f : Nat × Nat → Ival) : List Ival → Ival
  | [some a] => f a
  | _ => none

/-- A two-source member of R272: scalar, packed or interval. -/
def arith2 (w : ArithWord) (f : Fmt → Nat → Nat → Nat → FRes) (g : Nat × Nat → Nat × Nat → Ival) (_ : Nat) (a b : Reg) :
    LaneRes :=
  if w.t == .iv32 then ivalLane w (onPair g) [a, b]
  else floatLane w (fun m xs => match xs with
    | [x, y] => f m w.rm.toNat x y
    | _ => m.invalid) [a, b]

/-- A one-source float function. -/
def arith1 (w : ArithWord) (f : Fmt → Nat → FRes) (a : Reg) : LaneRes :=
  floatLane w (fun m xs => match xs with
    | [x] => f m x
    | _ => m.invalid) [a]

/-- FMIN and FMAX of intervals: both bounds (R274). -/
def ivalMinmax (pick : Nat → Nat → Nat) (a b : Nat × Nat) : Ival := some (pick a.1 b.1, pick a.2 b.2)

/-! ## Meanings: arithmetic -/

/-- FADD (R273, R274). -/
def execFadd (w : ArithWord) (s : State) := issue (.fadd w) w.head s
  (lane2 w.d.toNat w.a.toNat w.b.toNat (arith2 w Fmt.add ivalAdd))

/-- FSUB (R273, R274). -/
def execFsub (w : ArithWord) (s : State) := issue (.fsub w) w.head s
  (lane2 w.d.toNat w.a.toNat w.b.toNat (arith2 w Fmt.sub ivalSub))

/-- FMUL (R273, R274). -/
def execFmul (w : ArithWord) (s : State) := issue (.fmul w) w.head s
  (lane2 w.d.toNat w.a.toNat w.b.toNat (arith2 w Fmt.mul ivalMul))

/-- FFMA (R273, R274). -/
def execFfma (w : ArithWord) (s : State) := issue (.ffma w) w.head s
  (lane3 w.d.toNat w.a.toNat w.b.toNat w.c.toNat fun _ a b c =>
    if w.t == .iv32 then ivalLane w (fun xs => match xs with
      | [some a, some b, some c] => ivalFma a b c
      | _ => none) [a, b, c]
    else floatLane w (fun m xs => match xs with
      | [x, y, z] => m.fma w.rm.toNat x y z
      | _ => m.invalid) [a, b, c])

/-- FMIN (R273, R274). -/
def execFmin (w : ArithWord) (s : State) := issue (.fmin w) w.head s
  (lane2 w.d.toNat w.a.toNat w.b.toNat (arith2 w (fun m _ x y => m.minmax false x y) (ivalMinmax minB)))

/-- FMAX (R273, R274). -/
def execFmax (w : ArithWord) (s : State) := issue (.fmax w) w.head s
  (lane2 w.d.toNat w.a.toNat w.b.toNat (arith2 w (fun m _ x y => m.minmax true x y) (ivalMinmax maxB)))

/-- FDIV (R273 to R275). -/
def execFdiv (w : ArithWord) (s : State) := issue (.fdiv w) w.head s
  (lane2 w.d.toNat w.a.toNat w.b.toNat (arith2 w Fmt.div ivalDiv))

/-- FSQRT (R273, R274). -/
def execFsqrt (w : ArithWord) (s : State) := issue (.fsqrt w) w.head s
  (lane1 w.d.toNat w.a.toNat fun _ a =>
    if w.t == .iv32 then ivalLane w (onOne ivalSqrt) [a] else arith1 w (fun m x => m.sqrt w.rm.toNat x) a)

/-! ## Meanings: functions -/

/-- A function of R276 on an F32 source. -/
def fnLane (w : ArithWord) (f : Nat → Val → FRes) (_ : Nat) (a : Reg) : LaneRes :=
  arith1 w (fun m x => (pickNan1 m [x]).getD (f w.rm.toNat (m.val x))) a

/-- FRCP (R276). -/
def execFrcp (w : ArithWord) (s : State) := issue (.frcp w) w.head s (lane1 w.d.toNat w.a.toNat (fnLane w rcpVal))

/-- FRSQ (R276). -/
def execFrsq (w : ArithWord) (s : State) := issue (.frsq w) w.head s (lane1 w.d.toNat w.a.toNat (fnLane w rsqVal))

/-- FEXP2 (R276). -/
def execFexp2 (w : ArithWord) (s : State) := issue (.fexp2 w) w.head s (lane1 w.d.toNat w.a.toNat (fnLane w exp2Val))

/-- FLOG2 (R276). -/
def execFlog2 (w : ArithWord) (s : State) := issue (.flog2 w) w.head s (lane1 w.d.toNat w.a.toNat (fnLane w log2Val))

/-- FSINPI (R276). -/
def execFsinpi (w : ArithWord) (s : State) := issue (.fsinpi w) w.head s (lane1 w.d.toNat w.a.toNat (fnLane w sinpiVal))

/-- FCOSPI (R276). -/
def execFcospi (w : ArithWord) (s : State) := issue (.fcospi w) w.head s (lane1 w.d.toNat w.a.toNat (fnLane w cospiVal))

/-! ## Meanings: compare and class -/

/-- The scalar relation of a condition (R277). -/
def scalarCmp (cc : Nat) (x y : Val) : Bool :=
  if x.isNan || y.isNan then cc == 6
  else match cc with
    | 0 => x.cmp y == .eq
    | 1 => x.cmp y != .eq
    | 2 => x.cmp y == .lt
    | 3 => x.cmp y != .gt
    | 4 => x.cmp y == .gt
    | 5 => x.cmp y != .lt
    | 6 => false
    | _ => true

/-- A three-valued answer: T where it holds for every pair, F where for none. -/
def decided (all none : Bool) : Pred := if all then .t else if none then .f else .u

/-- The interval relation of a condition (R277). -/
def intervalCmp (cc : Nat) : Ival → Ival → Pred
  | some a, some b =>
    let a1 := ordF32 a.1
    let a2 := ordF32 a.2
    let b1 := ordF32 b.1
    let b2 := ordF32 b.2
    let same := decide (a1 = a2) && decide (a2 = b1) && decide (b1 = b2)
    let apart := decide (a2 < b1) || decide (b2 < a1)
    match cc with
    | 0 => decided same apart
    | 1 => decided apart same
    | 2 => decided (decide (a2 < b1)) (decide (b2 ≤ a1))
    | 3 => decided (decide (a2 ≤ b1)) (decide (b2 < a1))
    | 4 => decided (decide (b2 < a1)) (decide (a2 ≤ b1))
    | 5 => decided (decide (b2 ≤ a1)) (decide (a2 < b1))
    | 6 => .f
    | _ => .t
  | _, _ => if cc = 6 then .t else .f

/-- FCMP (R277). -/
def execFcmp (w : ArithWord) (s : State) := issue (.fcmp w) w.head s
  (pred2 w.d.toNat w.a.toNat w.b.toNat fun _ a b =>
    if w.t == .iv32 then match ivalSources w [a, b] with
      | .error e => .error e
      | .ok [x, y] => .ok (intervalCmp w.sub.toNat x y, 0)
      | .ok _ => .ok (.f, 0)
    else if !(tagMatches w.t a.tag && tagMatches w.t b.tag) then .error { rank := 0, cause := .tagMismatch }
    else
      let x := (fmtOf w.t).val (srcElem w w.t 0 0 a)
      let y := (fmtOf w.t).val (srcElem w w.t 1 0 b)
      .ok (.of (scalarCmp w.sub.toNat x y), if x.isSnan || y.isSnan then fINV else 0))

/-- The class bits of a float (R278). -/
def classBits (f : Fmt) (x : Nat) : Nat :=
  match f.val x with
  | .nan true => 2 ^ 9
  | .nan false => 2 ^ 8
  | .inf true => 2 ^ 0
  | .inf false => 2 ^ 7
  | .fin s n _ =>
    if n = 0 then (if s then 2 ^ 3 else 2 ^ 4)
    else if f.mag x < 2 ^ (f.p - 1) then (if s then 2 ^ 2 else 2 ^ 5)
    else (if s then 2 ^ 1 else 2 ^ 6)

/-- The class bits of an interval (R278). -/
def ivalClass : Ival → Nat
  | none => 2 ^ 10
  | some (a, b) =>
    (if a = negInf ∧ b = posInf then 2 ^ 11 else 0) + (if a = b then 2 ^ 12 else 0)
      + (if a ≠ negInf ∧ b ≠ posInf then 2 ^ 13 else 0)
      + (if ordF32 a ≤ 0 ∧ 0 ≤ ordF32 b then 2 ^ 14 else 0)

/-- FCLASS (R278). -/
def execFclass (w : ArithWord) (s : State) := issue (.fclass w) w.head s
  (lane1 w.d.toNat w.a.toNat fun _ a =>
    if w.t == .iv32 then match ivalSources w [a] with
      | .error e => .error e
      | .ok xs => okReg (.ofNat 64 (ivalClass (xs.head?.getD none))) .n32
    else if !tagMatches w.t a.tag then badTag
    else okReg (.ofNat 64 (classBits (fmtOf w.t) (elem w.t 0 a.v))) .n32)

/-- FRND of one element: the integral value that RM selects, with the source's sign (R279). -/
def rndElem (rm : Nat) (exact : Bool) (f : Fmt) (x : Nat) : FRes :=
  (pickNan1 f [x]).getD (match f.val x with
    | .fin s n e =>
      if 0 ≤ e then (x, 0)
      else
        let r := roundTo rm s n e false 0
        ((f.round 0 s r.1 0).1, if exact && r.2 then fNX else 0)
    | _ => (x, 0))

/-- FRND (R279). -/
def execFrnd (w : ArithWord) (s : State) := issue (.frnd w) w.head s
  (lane1 w.d.toNat w.a.toNat fun _ a => arith1 w (rndElem w.rm.toNat (w.sub == 1)) a)

/-! ## FDOT -/

/-- The exact sum of finite values: count and exponent. -/
def sumFinite : List Val → Int × Int
  | [] => (0, 0)
  | .fin s n e :: vs =>
    let t := sumFinite vs
    let m := min e t.2
    (sgn s n * 2 ^ (e - m).toNat + t.1 * 2 ^ (t.2 - m).toNat, m)
  | _ :: vs => sumFinite vs

/-- The signs of the infinities among values. -/
def infSigns (vs : List Val) : List Bool := vs.filterMap fun v => match v with | .inf s => some s | _ => none

/-- A sum of values that are no NaNs, rounded once to F32; opposite infinities are invalid. An exact zero sum has sign +, and − only
where values of opposite sign meet in .rd (R257). -/
def sumVals (rm : Nat) (vs : List Val) : FRes :=
  match infSigns vs with
  | s :: ss => if ss.all (· == s) then (fmt32.infP s, 0) else fmt32.invalid
  | [] =>
    let t := sumFinite vs
    fmt32.roundInt rm t.1 t.2 (rm == 2 && vs.any Val.neg && !vs.all Val.neg)

/-- FDOT of one lane (R280). -/
def dotLane (w : ArithWord) (_ : Nat) (a b c : Reg) : LaneRes :=
  let t := w.t
  if !(tagMatches t a.tag && tagMatches t b.tag && tagMatches .f32 c.tag) then badTag
  else
    let f := fmtOf t
    let as := (List.range (elemCount t)).map fun k => srcElem w t 0 k a
    let bs := (List.range (elemCount t)).map fun k => srcElem w t 1 k b
    let cv := c.v.toNat % 2 ^ 32
    let r := (pickNan fmt32 (as.map (f, ·) ++ bs.map (f, ·) ++ [(fmt32, cv)])).getD (
      let ps := (as.zip bs).map fun x => mulVal (f.val x.1) (f.val x.2)
      if ps.any Option.isNone then fmt32.invalid
      else sumVals w.rm.toNat (fmt32.val cv :: ps.filterMap id))
    .ok (mkReg (.ofNat 64 (if w.sat then fmt32.clamp r.1 else r.1)) .f32, r.2)

/-- FDOT (R280). -/
def execFdot (w : ArithWord) (s : State) := issue (.fdot w) w.head s
  (lane3 w.d.toNat w.a.toNat w.b.toNat w.c.toNat (dotLane w))

/-! ## CVT -/

/-- A float converted to an integer type (R281): NaN gives 0, and a value outside the type its nearest end. -/
def toIntRes (t : Ty) (rm : Nat) (v : Val) : Int × BitVec 5 :=
  match v with
  | .nan _ => (0, fINV)
  | .inf s => (if s then intMin t else intMax t, fINV)
  | .fin s n e =>
    -- 2^70 and more lies outside every integer type
    if n ≠ 0 ∧ 70 ≤ Nat.log2 n + e then (if s then intMin t else intMax t, fINV)
    else
      let r := roundTo rm s n e false 0
      let x := sgn s r.1
      if x < intMin t then (intMin t, fINV)
      else if intMax t < x then (intMax t, fINV)
      else (x, if r.2 then fNX else 0)

/-- A float pattern of format g converted into format f (R257, R259, R281). -/
def convert (f g : Fmt) (rm : Nat) (x : Nat) : FRes :=
  match pickNan f [(g, x)] with
  | some r => (r.1, if f.w = 4 then fINV else r.2)
  | none => f.ofVal rm (g.val x)

/-- A packed element converted to F32 (R281, R282). -/
def elemToF32 (t : Ty) (x : Nat) : FRes :=
  if t == .lg6x8 then fmt32.ofVal 0 (lg6Val x) else convert fmt32 (fmtOf t) 0 x

/-- Element width in a register: a byte for LG6. -/
def elemWidth (t : Ty) : Nat := if t == .lg6x8 then 8 else (fmtOf t).w

/-- Register v with element k of T replaced. -/
def putElem (t : Ty) (k : Nat) (v : Word) (x : Nat) : Word :=
  let w := elemWidth t
  .ofNat 64 (v.toNat - v.toNat / 2 ^ (w * k) % 2 ^ w * 2 ^ (w * k) + x * 2 ^ (w * k))

/-- CVT of one lane; `old` is D as it stands (R281). -/
def cvtLane (w : ArithWord) (old a : Reg) : LaneRes :=
  let t := w.t
  let src := Ty.ofCode (w.sub.toNat % 16)
  let k := w.x.toNat % 16
  let rm := w.rm.toNat
  if !tagMatches src a.tag then badTag
  else if src.isInt && t.isInt then intRes t w.sat (intVal src a.v)
  else if src.isInt then
    let x := intVal src a.v
    let r := (fmtOf t).roundInt rm x 0 false
    .ok (mkReg (.ofNat 64 r.1) t, r.2)
  else if t.isInt then
    let r := toIntRes t rm ((fmtOf src).val (elem src 0 a.v))
    .ok (mkReg (wrapInt t r.1) t, r.2)
  else if src.isMatrix then
    let r := elemToF32 src (a.v.toNat / 2 ^ (elemWidth src * k) % 2 ^ elemWidth src)
    .ok (mkReg (.ofNat 64 r.1) t, r.2)
  else if t.isMatrix then
    let x := elem .f32 0 a.v
    let r := if t == .lg6x8 then toLg6 x else convert (fmtOf t) fmt32 rm x
    .ok (mkReg (putElem t k (if old.tag == t then old.v else 0) r.1) t, r.2)
  else
    let r := convert (fmtOf t) (fmtOf src) rm (elem src 0 a.v)
    .ok (mkReg (.ofNat 64 r.1) t, r.2)

/-- CVT (R281, R282). A destination k63 holds no value. -/
def execCvt (w : ArithWord) (s : State) := issue (.cvt w) w.head s fun v =>
  lane1 w.d.toNat w.a.toNat (fun i a =>
    cvtLane w (if v.u.kind == .context && w.d == 63 then {} else v.u.read i w.d.toNat) a) v

/-! ## QNT -/

/-- floor(log2 |x|) of a finite nonzero value. -/
def Val.exponent : Val → Int
  | .fin _ n e => Nat.log2 n + e
  | _ => 0

/-- The scale exponent of a group (R283), none where a NaN takes part. -/
def qntScale (t : Ty) (xs : List Val) : Option Int :=
  if xs.any Val.isNan then none
  else
    let emax : Int := match t with | .f8x8 => 8 | .e5x8 => 15 | _ => 2
    let es := xs.filterMap fun v => match v with
      | .fin _ n _ => if n = 0 then none else some v.exponent
      | _ => none
    match es with
    | [] => some (-127)
    | e :: es => some (max (-127) (min 127 (es.foldl max e - emax)))

/-- One lane of QNT given its group's scale. -/
def qntLane (t : Ty) (rm : Nat) (e : Option Int) (v : Val) : FRes :=
  match e with
  | none => (0xFF00, if v.isSnan then fINV else 0)
  | some e =>
    let r := match v with
      | .fin s n x => (fmtOf t).ofVal rm (.fin s n (x - e))
      | v => (fmtOf t).ofVal rm v
    ((e + 127).toNat * 256 + r.1, r.2)

/-- QNT (R283): the groups of 32 lanes, and the flags settled once over all of them. -/
def execQnt (w : ArithWord) (s : State) := issue (.qnt w) w.head s fun v s =>
  let x := fun i => fmt32.val (elem .f32 0 (v.u.read i w.a.toNat).v)
  match settleErr v s fun i => needTag (tagMatches .f32 (v.u.read i w.a.toNat).tag) with
  | .error e => .error e
  | .ok s1 =>
    let scale := fun g => qntScale w.t ((v.lanes.filter fun i => i / 32 == g).map x)
    let res := fun i => qntLane w.t w.rm.toNat (scale (i / 32)) (x i)
    match settle v s1 [v.lanes] (fun _ => none) (fun i => (res i).2) with
    | .error e => .error e
    | .ok s2 => putReg v s2 w.d.toNat fun i => mkReg (.ofNat 64 (res i).1) .n32

/-! ## Meanings: the interval group -/

/-- IVMAKE of one lane (R284). (DEDUCED, log 27: unsafe.) -/
def ivmakeLane (w : ArithWord) (_ : Nat) (a b : Reg) : LaneRes :=
  if !(tagMatches w.t a.tag && tagMatches w.t b.tag) then badTag
  else
    let x := (fmtOf w.t).val (elem w.t 0 a.v)
    let y := (fmtOf w.t).val (elem w.t 0 b.v)
    if x.isNan || y.isNan then .error { rank := 1, cause := .badInterval }
    else if x = .inf false ∧ y = .inf true then ivalRes w none
    else if x.cmp y == .gt then .error { rank := 1, cause := .badInterval }
    else if x = .inf false ∨ y = .inf true then ivalRes w none
    else ivalRes w (some (outDown x, outUp y))

/-- IVMAKE (R284). -/
def execIvmake (w : ArithWord) (s : State) := issue (.ivmake w) w.head s
  (lane2 w.d.toNat w.a.toNat w.b.toNat (ivmakeLane w))

/-- The lower bound of an interval, +∞ where it is empty (R284). -/
def ivalLo : Ival → Nat
  | none => fmt32.infP false
  | some (a, _) => a

/-- The upper bound of an interval, −∞ where it is empty (R284). -/
def ivalHi : Ival → Nat
  | none => fmt32.infP true
  | some (_, b) => b

/-- IVLO (R284). -/
def execIvlo (w : ArithWord) (s : State) := issue (.ivlo w) w.head s (lane1 w.d.toNat w.a.toNat (ivalBits w ivalLo))

/-- IVHI (R284). -/
def execIvhi (w : ArithWord) (s : State) := issue (.ivhi w) w.head s (lane1 w.d.toNat w.a.toNat (ivalBits w ivalHi))

/-- IVMID (R285). -/
def execIvmid (w : ArithWord) (s : State) := issue (.ivmid w) w.head s (lane1 w.d.toNat w.a.toNat (ivalBits w ivalMid))

/-- The width of an interval, rounded up (R284). -/
def ivalWid : Ival → Nat
  | none => fmt32.defaultNan
  | some (a, b) => boundSum 3 (fmt32.val b) (fmt32.val a).flip

/-- IVWID (R284). -/
def execIvwid (w : ArithWord) (s : State) := issue (.ivwid w) w.head s (lane1 w.d.toNat w.a.toNat (ivalBits w ivalWid))

/-- A two-source interval function on sets. -/
def ivalTwo (w : ArithWord) (f : Ival → Ival → Ival) (_ : Nat) (a b : Reg) : LaneRes :=
  ivalLane w (fun xs => match xs with
    | [x, y] => f x y
    | _ => none) [a, b]

/-- IVHULL (R284). -/
def execIvhull (w : ArithWord) (s : State) := issue (.ivhull w) w.head s
  (lane2 w.d.toNat w.a.toNat w.b.toNat (ivalTwo w ivalHull))

/-- IVISECT (R284). -/
def execIvisect (w : ArithWord) (s : State) := issue (.ivisect w) w.head s
  (lane2 w.d.toNat w.a.toNat w.b.toNat (ivalTwo w ivalMeet))

/-- IVSQR (R284). -/
def execIvsqr (w : ArithWord) (s : State) := issue (.ivsqr w) w.head s
  (lane1 w.d.toNat w.a.toNat fun _ a => ivalLane w (onOne ivalSqr) [a])

/-- IVABS (R284). -/
def execIvabs (w : ArithWord) (s : State) := issue (.ivabs w) w.head s
  (lane1 w.d.toNat w.a.toNat fun _ a => ivalLane w (onOne ivalAbs) [a])

/-- The relations of IVCONT between intervals (R286). -/
def ivalRel (rel : Nat) : Ival → Ival → Bool
  | none, _ => true
  | some _, none => rel == 3
  | some a, some b =>
    match rel with
    | 1 => decide (ordF32 b.1 ≤ ordF32 a.1) && decide (ordF32 a.2 ≤ ordF32 b.2)
    | 2 => (b.1 == negInf || decide (ordF32 b.1 < ordF32 a.1)) && (b.2 == posInf || decide (ordF32 a.2 < ordF32 b.2))
    | _ => (ivalMeet (some a) (some b)).isNone

/-- Whether a point lies in an interval (R286); negate B acts on the point. -/
def ivalHolds (a : Ival) (b : Nat) : Bool :=
  match a, fmt32.val b with
  | some x, .fin _ _ _ => decide (ordF32 x.1 ≤ ordF32 b) && decide (ordF32 b ≤ ordF32 x.2)
  | _, _ => false

/-- IVCONT (R286). -/
def execIvcont (w : ArithWord) (s : State) := issue (.ivcont w) w.head s
  (pred2 w.d.toNat w.a.toNat w.b.toNat fun _ a b =>
    if w.sub = 0 then
      if !(tagMatches .iv32 a.tag && tagMatches .f32 b.tag) then .error { rank := 0, cause := .tagMismatch }
      else match readIval w 0 a with
        | none => .error { rank := 1, cause := .badInterval }
        | some x => .ok (.of (ivalHolds x (fmt32.modify w.negB false (b.v.toNat % 2 ^ 32))), 0)
    else match ivalSources w [a, b] with
      | .error e => .error e
      | .ok [x, y] => .ok (.of (ivalRel w.sub.toNat x y), 0)
      | .ok _ => .ok (.f, 0))

/-! ## IVSPLIT and IVPOP -/

/-- VA of den entry n of warp slot u (R288). -/
def State.denVa (s : State) (b : Block) (u n : Nat) : Word :=
  s.slotVa b + .ofNat 64 (0x280000 + 0x20000 * u + 0x800 * n)

/-- The tags of registers, two to a byte (R288). -/
def tagBytes : List Reg → List Byte
  | [] => []
  | [r] => [.ofNat 8 r.tag.code]
  | r :: q :: rs => .ofNat 8 (r.tag.code + 16 * q.tag.code) :: tagBytes rs

/-- Registers padded to 128 with zeros tagged UND. -/
def pad128 (rs : List Reg) : List Reg := rs ++ List.replicate (128 - rs.length) (mkReg 0 .und)

/-- Where a lane stands in the divergence stack: bit n for position n, the oldest entry at position 0 (R288). -/
def stackBytes (div : List DivEntry) (lane : Nat) : List Byte :=
  leBytes 32 ((div.reverse.zipIdx).foldl (fun m e => if e.1.owed.getLsbD lane || e.1.arrived.getLsbD lane then m + 2 ^ e.2 else m) 0)

/-- The bytes of a den entry (R288). -/
def denBytes (l : Lane) (d lane : Nat) (rcnt : Word) (div : List DivEntry) : List Byte :=
  let rs := pad128 l.regs
  (rs.flatMap fun r => leBytes 8 r.v.toNat) ++ tagBytes rs ++ leBytes 2 l.predBits ++ leBytes 1 l.nest ++ leBytes 1 d
    ++ leBytes 4 lane ++ leBytes 8 rcnt.toNat ++ stackBytes div lane ++ leBytes 912 0

/-- The open free lanes of a warp (R247). -/
def openFree (u : ProgUnit) (mask : Mask) : List Nat :=
  (List.range u.lanes.length).filter fun i => mask.getLsbD i && !u.threads.getLsbD i

/-- The open mask of the lowest selected lane (R287), B + 1 holding lanes 64 to 127 at width 128. -/
def openMask (v : View) (b : Nat) : Mask :=
  let i := v.first.getD 0
  let lo : Mask := (v.u.read i b).v.setWidth 128
  if v.u.lanes.length = 128 then lo ||| ((v.u.read i (b + 1)).v.setWidth 128 <<< 64) else lo

/-- The tag check of the open mask, a count operand (R120, R287). -/
def openTag (v : View) (b : Nat) : Bool :=
  let i := v.first.getD 0
  countTag (v.u.read i b).tag && (v.u.lanes.length != 128 || countTag (v.u.read i (b + 1)).tag)

/-- A lane that an IVSPLIT fills: it joins the split and every divergence-stack entry that holds the splitter. -/
def ProgUnit.fillLane (u : ProgUnit) (split from_ to_ : Nat) (l : Lane) : ProgUnit :=
  let b := BitVec.twoPow 128 to_
  { u.modSplit split fun p => { p with mask := p.mask ||| b } with
    lanes := u.lanes.set to_ l
    div := u.div.map fun e => { e with
      owed := if e.owed.getLsbD from_ then e.owed ||| b else e.owed
      dmask := if e.dmask.getLsbD from_ then e.dmask ||| b else e.dmask
      left := if e.left.getLsbD from_ then e.left ||| b else e.left } }

/-- The half of a splitting lane: the interval kept and the interval handed on, or none where it makes no half. -/
def halves (v : Word) : Option (Word × Word) :=
  match ivalOf v with
  | none => none
  | some (a, b) =>
    if ordF32 a = ordF32 b then none
    else
      let m := ivalMid (some (a, b))
      some (ivalWord (some (a, m)), ivalWord (some (m, b)))

/-- IVSPLIT's lanes in ascending order: each keeps its lower half, and its upper half goes to the next open free
lane or to the den (R247). -/
def splitLanes (c u split d : Nat) (b : Block) : List Nat → List Nat → State → State
  | [], _, s => s
  | i :: is, free, s =>
    match s.unit c u with
    | none => s
    | some p =>
      let l := p.lane i
      match halves (l.reg d).v with
      | none => splitLanes c u split d b is free s
      | some (lo, hi) =>
        let upper := l.setReg d (mkReg hi .iv32)
        let s1 := s.modUnit c u fun p => { p with lanes := p.lanes.set i (l.setReg d (mkReg lo .iv32)) }
        match free with
        | t :: rest => splitLanes c u split d b is rest (s1.modUnit c u fun p =>
            p.fillLane split i t { upper with regs := upper.regs.map fun r => { r with dirty := true } })
        | [] =>
          let s2 := s1.slotWrite c (s1.denVa b u p.den) (denBytes upper d i p.rcnt p.div)
          splitLanes c u split d b is [] (s2.modUnit c u fun p => { p with den := p.den + 1 })

/-- IVSPLIT (R247, R287). -/
def execIvsplit (w : ArithWord) (s : State) := issue (.ivsplit w) w.head s fun v s =>
  if v.sel = 0 then .ok s
  else
    let d := w.d.toNat
    let pred := fun i => (v.u.lane i).pred (w.sub.toNat % 8)
    let who := v.lanes.filter fun i => pred i == .u
    let real := who.filter fun i => (halves ((v.u.lane i).reg d).v).isSome
    let free := openFree v.u (openMask v w.b.toNat)
    let lost := (real.drop free.length).drop (64 - v.u.den)
    match settleErr v s fun i =>
      let r := v.u.read i d
      if !tagMatches .iv32 r.tag || (some i == v.first && !openTag v w.b.toNat) then some { rank := 0, cause := .tagMismatch }
      else if !ivValid r.v then some { rank := 1, cause := .badInterval }
      else if lost.contains i then some { rank := 4, cause := .splitFull }
      else none with
    | .error e => .error e
    | .ok s1 => .ok (splitLanes v.core v.unit v.split d (s1.myBlk v) who free (s1.closeRegion v))

/-- A register as a den entry records it; an invalid IV32 arrives tagged UND (R288). -/
def denReg (bs : List Byte) (n : Nat) : Reg :=
  let v := BitVec.ofNat 64 (leNat ((bs.drop (8 * n)).take 8))
  let t := Ty.ofCode ((bs[0x400 + n / 2]?.getD 0).toNat / (if n % 2 = 0 then 1 else 16) % 16)
  mkReg v (if t == .iv32 && !ivValid v then .und else if t == .byte then .und else t)

/-- A lane as a den entry gives it: registers, tags and p0 to p6 (R247). -/
def denLane (l : Lane) (bs : List Byte) : Lane :=
  let l1 := { l with regs := (List.range l.regs.length).map (denReg bs) }
  l1.unpack 0x7F (leNat ((bs.drop 0x440).take 2))

/-- A free lane that IVPOP fills joins the split and the entries that hold the split's active lanes (R288). -/
def ProgUnit.popLane (u : ProgUnit) (split : Nat) (act : Mask) (i : Nat) (l : Lane) : ProgUnit :=
  let b := BitVec.twoPow 128 i
  let holds := fun (e : DivEntry) => act &&& ~~~e.owed == 0
  { u.modSplit split fun p => { p with mask := p.mask ||| b } with
    lanes := u.lanes.set i { l with nest := (u.div.filter holds).length }
    div := u.div.map fun e => if holds e then { e with owed := e.owed ||| b } else e }

/-- IVPOP's targets in order, each taking the newest den entry while there is one (R247). -/
def popLanes (c u split : Nat) (act : Mask) (b : Block) : List Nat → State → State
  | [], s => s
  | i :: is, s =>
    match s.unit c u with
    | none => s
    | some p =>
      if p.den = 0 then s
      else match s.slotRead c (s.denVa b u (p.den - 1)) 0x800 with
        | none => s.stopBlk c { cause := .machineCheck, state := 3 }
        | some bs =>
          popLanes c u split act b is (s.modUnit c u fun p =>
            let q := if act.getLsbD i then { p with lanes := p.lanes.set i (denLane (p.lane i) bs) }
              else p.popLane split act i (denLane (p.lane i) bs)
            { q with den := q.den - 1 })

/-- IVPOP (R247, R287). -/
def execIvpop (w : ArithWord) (s : State) := issue (.ivpop w) w.head s fun v s =>
  if v.sel = 0 then .ok s
  else
    let targets := (v.lanes.filter fun i => (v.u.lane i).pred (w.sub.toNat % 8) == .t) ++ openFree v.u (openMask v w.b.toNat)
    match settleErr v s fun i => if some i == v.first then needTag (openTag v w.b.toNat) else none with
    | .error e => .error e
    | .ok s1 => .ok (popLanes v.core v.unit v.split v.act (s1.myBlk v) targets (s1.closeRegion v))

end Sys2Proof.Machine
end

