-- ==== Sys2Proof/Machine/Lanes.lean ====
section
/-! DEFINITION. The lane instructions SHFL, BCAST, SCAN, REDUCE, COMPACT and MATCH (R135 to R141) and the
cross-cluster moves XMOV and XBCAST (R113). -/

namespace Sys2Proof.Machine

/-- Whether lane i takes part (R135). -/
def View.takes (v : View) (i : Nat) : Bool := decide (i < v.u.lanes.length) && v.sel.getLsbD i

/-- SHFL's source lane (R136): .idx, .up, .down, .xor of lane i and a delta. -/
def shflFrom (mode i d : Nat) : Option Nat :=
  match mode with
  | 0 => some d
  | 1 => if d ≤ i then some (i - d) else none
  | 2 => some (i + d)
  | _ => some (i ^^^ d)

/-- SHFL (R136). -/
def execShfl (w : ArithWord) (s : State) := issue (.shfl w) w.head s fun v s =>
  let imm := w.sub.getLsbD 2
  let delta := fun i => if imm then w.x.toNat % 128 else (v.u.read i w.b.toNat).v.toNat
  match settleErr v s fun i => needTag (imm || countTag (v.u.read i w.b.toNat).tag) with
  | .error e => .error e
  | .ok s1 => putReg v s1 w.d.toNat fun i =>
      let src := match shflFrom (w.sub.toNat % 4) i (delta i) with
        | some j => if v.takes j then j else i
        | none => i
      let r := v.u.read src w.a.toNat
      mkReg r.v r.tag

/-- BCAST (R137). -/
def execBcast (w : ArithWord) (s : State) := issue (.bcast w) w.head s fun v s =>
  match v.first with
  | none => .ok s
  | some f =>
    let n := v.u.read f w.b.toNat
    if w.sub = 1 ∧ !countTag n.tag then .error (raiseLanes (BitVec.twoPow 128 f) .tagMismatch)
    else
      let j := match w.sub.toNat with
        | 0 => w.x.toNat % 128
        | 1 => n.v.toNat
        | _ => f
      let r := if v.takes j then v.u.read j w.a.toNat else { v := 0, tag := .und }
      putReg v s w.d.toNat fun _ => mkReg r.v r.tag

/-- Combine(a, b) of REDUCE, SCAN and XMOV (R113, R138): 0 add, 1 min, 2 max, 3 and, 4 or, 5 xor, with the float
conditions met. -/
def combine (op : Nat) (t : Ty) (rm : Nat) (a b : Word) : Word × BitVec 5 :=
  let f := fmtOf t
  let fl := fun (r : FRes) => (BitVec.ofNat 64 r.1, r.2)
  match op with
  | 0 => if t.isInt then (wrapInt t (intVal t a + intVal t b), 0) else fl (f.add rm (elem t 0 a) (elem t 0 b))
  | 1 => if t.isInt then (wrapInt t (min (intVal t a) (intVal t b)), 0) else fl (f.minmax false (elem t 0 a) (elem t 0 b))
  | 2 => if t.isInt then (wrapInt t (max (intVal t a) (intVal t b)), 0) else fl (f.minmax true (elem t 0 a) (elem t 0 b))
  | 3 => (a &&& b, 0)
  | 4 => (a ||| b, 0)
  | _ => (a ^^^ b, 0)

/-- The identity of an exclusive SCAN (R138). -/
def scanIdentity (op : Nat) (t : Ty) : Word :=
  match op with
  | 0 => 0
  | 1 => if t.isInt then wrapInt t (intMax t) else .ofNat 64 ((fmtOf t).infP false)
  | 2 => if t.isInt then wrapInt t (intMin t) else .ofNat 64 ((fmtOf t).infP true)
  | 3 => BitVec.allOnes 64
  | _ => 0

/-- A node's value with the conditions met by the combines below it; none where it is absent. -/
abbrev TreeVal := Option (Word × BitVec 5)

/-- Join (R139). -/
def joinTree (f : Word → Word → Word × BitVec 5) : TreeVal → TreeVal → TreeVal
  | none, b => b
  | a, none => a
  | some a, some b => let r := f a.1 b.1; some (r.1, r.2 ||| a.2 ||| b.2)

/-- Node(l, j) over the lanes' values (R139). -/
def treeNode (f : Word → Word → Word × BitVec 5) (x : Nat → TreeVal) : Nat → Nat → TreeVal
  | 0, j => x j
  | l + 1, j => joinTree f (treeNode f x l (2 * j)) (treeNode f x l (2 * j + 1))

/-- The inclusive prefix of n lanes from lane lo up, by its powers of two from 2^(k − 1) down (R139). -/
def treePrefix (f : Word → Word → Word × BitVec 5) (x : Nat → TreeVal) (n : Nat) : Nat → Nat → TreeVal → TreeVal
  | 0, _, acc => acc
  | k + 1, lo, acc =>
    if n / 2 ^ k % 2 = 1 then treePrefix f x n k (lo + 2 ^ k) (joinTree f acc (treeNode f x k (lo / 2 ^ k)))
    else treePrefix f x n k lo acc

/-- SCAN and REDUCE: the tags of a pass first, then each lane's value, with the conditions settled once over all
lanes taking part (R138). -/
def treeOp (w : ArithWord) (op a : Nat) (val : View → (Word → Word → Word × BitVec 5) → (Nat → TreeVal) → Nat → TreeVal)
    (v : View) (s : State) : Eff :=
  match settleErr v s fun i => needTag (tagMatches w.t (v.u.read i a).tag) with
  | .error e => .error e
  | .ok s1 =>
    let x := fun i => if v.takes i then some ((v.u.read i a).v, 0) else none
    let res := val v (combine op w.t w.rm.toNat) x
    match settle v s1 [v.lanes] (fun _ => none) (fun i => ((res i).map (·.2)).getD 0) with
    | .error e => .error e
    | .ok s2 => putReg v s2 w.d.toNat fun i => mkReg ((res i).map (·.1) |>.getD (scanIdentity op w.t)) w.t

/-- A register's value brought to the width of T, as a tree of one lane gives it (R121, R250). -/
def leafVal (t : Ty) (v : Word) : Word :=
  if t.isInt then wrapInt t (intVal t v) else if t == .f32 then .ofNat 64 (elem .f32 0 v) else v

/-- REDUCE (R138, R139). -/
def execReduce (w : ArithWord) (s : State) := issue (.reduce w) w.head s
  (treeOp w w.sub.toNat w.a.toNat fun _ f x _ => treeNode f (fun i => (x i).map fun y => (leafVal w.t y.1, y.2)) 7 0)

/-- SCAN (R138, R139): exclusive takes the inclusive value of the highest lane below that takes part. -/
def execScan (w : ArithWord) (s : State) := issue (.scan w) w.head s
  (treeOp w (w.sub.toNat % 8) w.a.toNat fun v f x i =>
    let y := fun j => (x j).map fun z => (leafVal w.t z.1, z.2)
    if w.sub.getLsbD 3 then
      match (v.lanes.filter (· < i)).getLast? with
      | none => none
      | some j => treePrefix f y (j + 1) 8 0 none
    else treePrefix f y (i + 1) 8 0 none)

/-- COMPACT (R140). -/
def execCompact (w : ArithWord) (s : State) := issue (.compact w) w.head s fun v s =>
  let send := v.lanes.filter fun i => (v.u.lane i).pred (w.sub.toNat % 8) == .t
  putReg v s w.d.toNat fun i =>
    match send[v.lanes.findIdx (· == i)]? with
    | some j => let r := v.u.read j w.a.toNat; mkReg r.v r.tag
    | none => mkReg 0 .und

/-- MATCH (R141). -/
def execMatchLanes (w : ArithWord) (s : State) := issue (.matchLanes w) w.head s fun v s =>
  let x := fun i => (v.u.read i w.a.toNat).v
  if w.sub = 0 then putMask v s w.d.toNat (fun i => maskOf v.u.lanes.length fun j => v.sel.getLsbD j && x j == x i) .b64
  else .ok (putPred v s w.d.toNat fun i => .of (v.lanes.all fun j => x j == x i))

/-! ## Cross-cluster moves -/

/-- A register written in some clusters with the rotation base the bundle issued with; k62 discards (R98, R109). -/
def putClusters (v : View) (s : State) (d : Nat) (cs : Mask) (val : Nat → Reg) : State :=
  if d = 62 then s else s.modU v fun u => u.mapLanes cs fun c l => l.setReg (rotated v.u.base d) (val c)

/-- XMOV (R113): 0 is the plain move, 1 to 6 combine. -/
def execXmov (w : ArithWord) (s : State) := issue (.xmov w) w.head s fun v s =>
  if v.sel = 0 then .ok s
  else
    let n := v.cl
    let cs := (List.range v.u.k).filter fun c => c + n < v.u.k
    let x := fun c => v.u.read c w.a.toNat
    let op := w.sub.toNat
    if 1 ≤ op ∧ op ≤ 3 ∧ !(cs.all fun c => tagMatches w.t (x c).tag && tagMatches w.t (x (c + n)).tag)
    then .error (raiseLanes v.act .tagMismatch)
    else
      let res := fun c => combine (op - 1) w.t w.rm.toNat (x c).v (x (c + n)).v
      match settle v s [cs] (fun _ => none) (fun c => if op = 0 then 0 else (res c).2) with
      | .error e => .error e
      | .ok s1 => .ok (putClusters v s1 w.d.toNat (maskOfList cs) fun c =>
          if op = 0 then mkReg (x (c + n)).v (x (c + n)).tag else mkReg (res c).1 w.t)

/-- XBCAST (R113). -/
def execXbcast (w : ArithWord) (s : State) := issue (.xbcast w) w.head s fun v s =>
  if v.sel = 0 then .ok s
  else
    let r := v.u.read v.cl w.a.toNat
    .ok (putClusters v s w.d.toNat (maskOf v.u.k fun _ => true) fun _ => mkReg r.v r.tag)

end Sys2Proof.Machine
end

