-- ==== Sys2Proof/Machine/Memory.lean ====
section
/-! DEFINITION. The memory instructions: LD, ST, LDP, STP, PREF, DEMOTE (R171 to R180), ATOM and CAS (R182 to R184),
FENCE, ACQ, REL, BIND, UNBIND (R164, R185 to R189), SIGNAL and SWAIT (R190, R191), ALLOC and FREE (R192 to R194). -/

namespace Sys2Proof.Machine

/-! ## Loads -/

/-- The place of a cause in the order of R172. -/
def memRank : Cause → Nat
  | .tagMismatch => 0
  | .misaligned => 1
  | .pageAbsent => 2
  | .pageProtect => 3
  | .walkError => 4
  | .hostGone => 5
  | .badInterval => 6
  | .poisonData => 7
  | _ => 8

/-- A memory cause of a lane at a VA. -/
def memErr (c : Cause) (va : Word) : LaneErr := { rank := memRank c, cause := c, info1 := va }

/-- Where a lane's load falls: its physical address, its cause, a line that a pin refuses, or an address that does not exist. -/
inductive LanePlace where
  | at (pa : Nat)
  | bad (e : LaneErr)
  | pinned (core line : Nat)
  | stop (f : Fault)
  deriving DecidableEq, Repr

/-- The place of a load at a VA, alignment having been checked. -/
def State.loadPlace (s : State) (c : Nat) (va : Word) : LanePlace :=
  match s.translate c .load va with
  | .error (.cause e) => .bad (memErr e va)
  | .error (.fault f) => .stop f
  | .error (.pinned k l) => .pinned k l
  | .ok pa => match s.pinHolder c pa with
    | some k => .pinned k pa
    | none => .at pa

/-- The registers of a load of n values of type t one after another, or the first cause of R172 that one of them meets. -/
def loadRegs (s : State) (c : Nat) (pail : List HeldStore) (pa : Nat) (va : Word) (t : Ty) (sc n : Nat) : Except LaneErr (List Reg) :=
  let rs := (List.range n).map fun k => s.loadPhys c pail (pa + t.bytes * k) t sc
  let met := fun (c : Cause) => rs.any fun r => r == .bad c
  if met .badInterval then .error (memErr .badInterval va)
  else if met .poisonData then .error (memErr .poisonData va)
  else .ok (rs.map fun r => match r with | .ok x => x | _ => {})

/-- What the loads of an instruction have given so far: the state, registers by lane, causes by lane. -/
structure LoadAcc where
  s : State
  got : List (Nat × List Reg) := []
  errs : List (Nat × LaneErr) := []

/-- The pail as an instruction found it when it first issued, less what has committed since (R74). -/
def View.pailThen (v : View) : List HeldStore :=
  match v.sp.waits.head? with
  | some w => if w.pail.isPrefixOf v.u.pail then w.pail else []
  | none => v.u.pail

/-- One line of a pass is requested, once for all its lanes (R173), and each lane reads it. -/
def LoadAcc.line (w : MemWord) (n : Nat) (v : View) (va : Nat → Word) (at0 : List (Nat × Nat)) (acc : LoadAcc) (line : Nat) : LoadAcc :=
  let s := acc.s.requestLine v.core line w.sc.toNat w.ch
  (at0.filter fun x => x.2 / 128 * 128 == line).foldl (fun acc x =>
    let acc1 := if 3 ≤ w.sc.toNat then { acc with s := acc.s.overtake v.core x.2 (n * w.t.bytes) } else acc
    match loadRegs s v.core v.pailThen x.2 (va x.1) w.t w.sc.toNat n with
    | .ok rs => { acc1 with got := acc1.got ++ [(x.1, rs)] }
    | .error e => { acc1 with errs := acc1.errs ++ [(x.1, e)] }) { acc with s := s }

/-- The distinct lines of some places in ascending order (R173). -/
def linesOf (l : List Nat) : List Nat := ((l.map (· / 128 * 128)).eraseDups).mergeSort fun a b => decide (a ≤ b)

/-- The loads of one pass: its translations, then one request for each line in ascending order (R173). -/
def LoadAcc.pass (w : MemWord) (n : Nat) (v : View) (va : Nat → Word) (place : Nat → LanePlace) (acc : LoadAcc) (g : List Nat) : LoadAcc :=
  let at0 := g.filterMap fun i => match place i with | .at pa => some (i, pa) | _ => none
  let s := acc.s.fillTlbs v.core (at0.map fun x => va x.1)
  (linesOf (at0.map (·.2))).foldl (LoadAcc.line w n v va at0) { acc with s := s }

/-- The registers of a load written in its lanes, its requests sampled, and the watchpoints of its accesses. -/
def putLoad (w : MemWord) (n : Nat) (v : View) (va : Nat → Word) (s : State) (got : List (Nat × List Reg)) : Eff :=
  andWatch v false (v.lanes.map fun i => (i, va i)) (n * w.t.bytes) ((List.range n).foldl (fun (e : Eff) k => match e with
    | .error x => .error x
    | .ok s => putReg v s (w.d.toNat + k) fun i => ((got.lookup i).bind (·[k]?)).getD {}) (.ok s))

/-- The spans of memory of a load or atomic of n bytes in each lane; every address, where a pin keeps one from being known. -/
def spansOf (places : List LanePlace) (n : Nat) : List (Nat × Nat) :=
  if places.any fun p => match p with | .pinned _ _ => true | _ => false then [(0, 2 ^ 64)]
  else places.filterMap fun p => match p with | .at pa => some (pa, n) | _ => none

/-- Whether an instruction has to wait for an access that another split of its warp issued before it and that has not been performed,
on bytes of one of its spans: a load for an earlier atomic, an atomic for any (R74). -/
def View.behind (v : View) (cyc : Nat) (spans : List (Nat × Nat)) (writes : Bool) : Bool :=
  (v.u.splits.zipIdx).any fun (t, k) => k != v.split && t.waits.any fun w =>
    !w.done && decide (w.first < v.sp.firstIssue cyc) && (writes || w.req.isSome)
      && w.spans.any fun a => spans.any fun b => decide (a.1 < b.1 + b.2) && decide (b.1 < a.1 + a.2)

/-- The wait of a load that a pin refuses, or that comes after an atomic that has not been performed: the pail as it issued, and its
spans, are kept (R74). -/
def View.heldLoad (v : View) (w : Wait) (spans : List (Nat × Nat)) : Wait := { w with pail := v.pailThen, spans := spans }

/-- A load of n registers of type t in every selected lane (R172 to R177). Where requests are answered later (`slow`), the
split parks while a line that it misses in L1 is on its way (R71); it has taken its values at its issue, so that a store which
a sibling issues later does not reach them, and one that a pin refuses keeps the pail as it issued (R74). -/
def loadBody (w : MemWord) (n : Nat) (v : View) (s : State) : Eff :=
  let va := fun i => memVa (v.u.read i w.a.toNat).v w.off
  match v.sp.waits.find? fun x => x.kind == .fill && !x.vals.isEmpty with
  | some x => putLoad w n v va s x.vals
  | none =>
    let place := fun i =>
      if !baseTag (v.u.read i w.a.toNat).tag then LanePlace.bad { rank := 0, cause := .tagMismatch }
      else if (va i).toNat % (n * w.t.bytes) ≠ 0 then .bad (memErr .misaligned (va i))
      else s.loadPlace v.core (va i)
    let acc := v.groups.foldl (LoadAcc.pass w n v va place) { s := s }
    match settleErr v acc.s fun i => match place i with | .bad e => some e | _ => acc.errs.lookup i with
    | .error e => .error e
    | .ok s1 =>
      match v.lanes.findSome? fun i => match place i with | .stop f => some f | _ => none with
      | some f => .error (.fault f)
      | none => match v.lanes.findSome? fun i => match place i with | .pinned k l => some (k, l) | _ => none with
        | some (k, l) => .error (.park (v.heldLoad (pinWait s k l) (spansOf (v.lanes.map place) (n * w.t.bytes))) (s.markRefused k l))
        | none =>
          let spans := spansOf (v.lanes.map place) (n * w.t.bytes)
          if v.behind s.cyc spans false then .error (.park (v.heldLoad (releaseWait s) spans) s)
          else
          let miss := if s.slow && w.sc.toNat < 3 && w.ch != 3
            then linesOf (v.lanes.filterMap fun i => match place i with
              | .at pa => if (s.window pa).isSome || (s.l1Line v.core pa).isSome then none else some pa
              | _ => none)
            else []
          if miss.isEmpty then putLoad w n v va s1 acc.got
          else
            let hits := (linesOf (v.lanes.filterMap fun i => match place i with | .at pa => some pa | _ => none)).filter (!miss.contains ·)
            let s2 := hits.foldl (fun s l => s.requestLine v.core l w.sc.toNat w.ch)
              (miss.foldl (fun s l => s.landLine v.core l) (s.fillTlbs v.core (v.lanes.map va)))
            .error (.park { kind := .fill, since := s.cyc, res := miss.map (.ofNat 64 ·), vals := acc.got } (s2.modCore v.core fun k =>
              { k with fills := k.fills ++ (miss.filter fun a => !(k.fills.any (·.1 == a))).map (·, w.ch) }))

/-- LD (R174, R175). -/
def execLd (w : MemWord) (s : State) := issue (.ld w) w.head s (loadBody w 1)

/-- LDP (R177). -/
def execLdp (w : MemWord) (s : State) := issue (.ldp w) w.head s (loadBody w 2)

/-! ## Stores -/

/-- Hold (R148, R264): a warp's store enters the pail; the front end and the handler commit at once. -/
def State.hold (s : State) (v : View) (h : HeldStore) : State :=
  match v.u.kind with
  | .front | .handler => s.commitStore v.core v.unit h
  | _ =>
    s.modU v fun u => { u with pail := u.pail ++ [h] }

/-- A store is held and goes on as f says; one of a warp that finds 32 held stores closes the region before it (R150). -/
def State.holding (s : State) (v : View) (h : HeldStore) (f : State → Eff) : Eff :=
  if v.u.kind == .warp && decide (32 ≤ (s.me v).pail.length) then s.entering v fun s => f (s.hold v h)
  else f (s.hold v h)

/-- The places of stores, lane by lane; an address that does not exist stops the machine, and a walk that a pin refuses is
repeated (R159). -/
def placeStores (s : State) (c n : Nat) (va : Nat → Word) (bytes : Nat → List Byte) : List Nat → Except Stop (List StoreItem)
  | [] => .ok []
  | i :: is =>
    match s.storePlace c (va i) n with
    | .error (.fault f) => .error (.fault f)
    | .error (.pinned k l) => .error (.park (pinWait s k l) (s.markRefused k l))
    | .error (.cause _) => placeStores s c n va bytes is
    | .ok pa =>
      match placeStores s c n va bytes is with
      | .error e => .error e
      | .ok rest => .ok ({ lane := i, place := .phys pa, bytes := bytes i } :: rest)

/-- A store's cause of one lane at a VA (R172). -/
def storeErr (s : State) (c n : Nat) (va : Word) : Option LaneErr :=
  match s.storePlace c va n with
  | .error (.cause e) => some (memErr e va)
  | _ => none

/-- A store of n registers of type t in every selected lane (R174, R176, R177); data read as IV32 must be a valid interval
(R256, R260). (DEDUCED, log 80: unsafe.) -/
def storeBody (w : MemWord) (n : Nat) (v : View) (s : State) : Eff :=
  let va := fun i => memVa (v.u.read i w.a.toNat).v w.off
  let data := fun i => (List.range n).map fun k => v.u.read i (w.b.toNat + k)
  let size := n * w.t.bytes
  match settleErr v s fun i =>
    if !baseTag (v.u.read i w.a.toNat).tag || !((data i).all fun r => tagMatches w.t r.tag) then some { rank := 0, cause := .tagMismatch }
    else match storeErr s v.core size (va i) with
      | some e => some e
      | none => if (data i).any fun r => badInterval w.t r.v then some (memErr .badInterval (va i)) else none with
  | .error e => .error e
  | .ok s1 =>
    match placeStores s1 v.core size va (fun i => (data i).flatMap fun r => storeBytes w.t r.v) v.lanes with
    | .error e => .error e
    | .ok [] => .ok s1
    | .ok items =>
      let acc := v.lanes.map fun i => (i, va i)
      (s1.fillTlbs v.core (v.lanes.map va)).holding v { items := items, ch := w.ch, pc := v.addr, names := v.requests acc } fun s =>
        watchTrap v s true acc size

/-- ST (R174). -/
def execSt (w : MemWord) (s : State) := issue (.st w) w.head s (storeBody w 1)

/-- STP (R177). -/
def execStp (w : MemWord) (s : State) := issue (.stp w) w.head s (storeBody w 2)

/-! ## PREF and DEMOTE -/

/-- One line's prefetch (R173, R179). -/
def State.prefetch (s : State) (c : Nat) (ch : BitVec 2) (line : Nat) : State :=
  if (s.window line).isSome then s
  else if ch = 3 then s.requestL2 c line 3 false
  else if (s.l1Line c line).isSome then s.hitL1 c line ch
  else s.fillL1 c line (hintFill ch)

/-- PREF (R179): a request that would meet a fault is dropped, and one that a pin refuses is repeated (R159). -/
def execPref (w : MemWord) (s : State) := issue (.pref w) w.head s fun v s =>
  let va := fun i => memVa (v.u.read i w.a.toNat).v w.off
  match settleErr v s fun i => needTag (baseTag (v.u.read i w.a.toNat).tag) with
  | .error e => .error e
  | .ok s1 =>
    match v.lanes.findSome? fun i => match s1.loadPlace v.core (va i) with | .pinned k l => some (k, l) | _ => none with
    | some (k, l) => .error (.park (pinWait s k l) (s1.markRefused k l))
    | none => .ok (v.groups.foldl (fun s g =>
        let at0 := g.filterMap fun i => match s1.loadPlace v.core (va i) with | .at pa => some (i, pa) | _ => none
        (linesOf (at0.map (·.2))).foldl (State.prefetch · v.core w.ch) (s.fillTlbs v.core (at0.map fun x => va x.1))) s1)

/-- One lane's demotion in L1 and at the home slice (R180). -/
def State.demoteLine (s : State) (c : Nat) (ch : BitVec 2) (va : Word) : State :=
  match s.translate c .load va with
  | .error _ => s
  | .ok pa =>
    let line := pa / 128 * 128
    let s1 := (s.fillTlb c va).modCore c fun k =>
      { k with l1 := k.l1.map fun l => if l.addr == line then { l with prio := ch } else l }
    let ins := s.homeIns pa (s.instOf c)
    { s1 with l2 := s1.l2.map fun l => if l.line == line && l.ins == ins then { l with prio := ch } else l }

/-- DEMOTE (R180). -/
def execDemote (w : MemWord) (s : State) := issue (.demote w) w.head s fun v s =>
  match settleErr v s fun i => needTag (baseTag (v.u.read i w.a.toNat).tag) with
  | .error e => .error e
  | .ok s1 => .ok (v.lanes.foldl (fun s i => s.demoteLine v.core w.ch (memVa (v.u.read i w.a.toNat).v w.off)) s1)

/-! ## Operations at a home slice -/

/-- The codes of slice operations beyond ATOM's SUB: CAS, and SIGNAL's from this base up. -/
abbrev opCas : Nat := 16

/-- SIGNAL .add, .sub and .set are 32, 33 and 34. -/
abbrev opSignal : Nat := 32

/-- ATOM's new value (R182): floats round to nearest-even and set no flag. -/
def atomNew (op : Nat) (t : Ty) (old b : Word) : Word :=
  if op = 6 then b
  else if t == .f16x4 || t == .bf16x4 then
    .ofNat 64 (joinElems 16 ((List.range 4).map fun k => ((fmtOf t).add 0 (elem t k old) (elem t k b)).1))
  else (combine op t 0 old b).1

/-- A signal's value after a change, or none where .add or .sub would leave the range of T (R190). -/
def signalNew (op : Nat) (t : Ty) (old b : Word) : Option Word :=
  if op = 2 then some b
  else
    let x := if op = 0 then intVal t old + intVal t b else intVal t old - intVal t b
    if x < intMin t ∨ intMax t < x then none else some (.ofInt 64 x)

/-- The new value that a slice operation gives: none leaves the word unchanged. -/
def sliceNew (op : Nat) (t : Ty) (old b c : Word) : Option Word :=
  if opSignal ≤ op then signalNew (op - opSignal) t old b
  else if op = opCas then (if lowBits t old = lowBits t b then some c else none)
  else some (atomNew op t old b)

/-- A signal's change by SIGNAL is a send (R383): in an open bundle it is made at the bundle's close (R389). -/
def State.signalSent (s : State) (pa stamp : Nat) (x : Word) : State :=
  match s.bundle with
  | some b => { s with bundle := some { b with later := b.later ++ [.signal pa x] } }
  | none => s.signalled pa stamp x

/-- One lane's operation at its home slice, indivisible (R165, R183): the old value as T reads it. The copy in the L1 of the
core that made it is updated, where the word stays too: it takes the word that the slice holds. -/
def State.sliceOne (s : State) (c : Nat) (q : SliceReq) (it : SliceItem) : State × Word :=
  let ch := BitVec.ofNat 2 q.sub
  let s1 := (s.requestL2 c it.pa ch true).count c 0x44 (if q.op < opSignal then 1 else 0)
  let bytes := s1.homeRead it.pa q.t.bytes
  let old := (extendLoad bytes q.t).v
  match sliceNew q.op q.t old it.b it.c with
  | some x =>
    let s2 := s1.sliceWrite c it.pa (storeBytes q.t x) ch
    (if opSignal ≤ q.op then s2.signalSent it.pa q.stamp x else s2, old)
  | none => (s1.modCore c fun k => k.storeL1 it.pa bytes 0, old)

/-- The lanes of a request, one after another (R183). -/
def State.sliceAll (s : State) (c : Nat) (q : SliceReq) : List SliceItem → State × List Word
  | [] => (s, [])
  | it :: its =>
    let r := s.sliceOne c q it
    let rest := r.1.sliceAll c q its
    (rest.1, r.2 :: rest.2)

/-- The physical places of a slice request, lane by lane. A register of the device's register space takes no
operation at a home slice. -/
def slicePlaces (s : State) (c : Nat) (va : Nat → Word) (b d : Nat → Word) : List Nat → Except Stop (List SliceItem)
  | [] => .ok []
  | i :: is =>
    match s.translate c .store (va i) with
    | .error (.fault f) => .error (.fault f)
    | .error (.pinned k l) => .error (.park (pinWait s k l) (s.markRefused k l))
    | .error (.cause _) => slicePlaces s c va b d is
    | .ok pa =>
      if (s.window pa).isSome then .error (.fault .noMemory)
      else match slicePlaces s c va b d is with
        | .error e => .error e
        | .ok rest => .ok ({ lane := i, pa := pa, va := va i, b := b i, c := d i } :: rest)

/-- A finished wait for a slice, of the slot at hand. -/
def View.sliceDone (v : View) : Option (List Word) :=
  (v.sp.waits.find? fun w => w.kind == .slice && w.done && w.a == v.slot).map (·.res)

/-- The lanes of a pinned request wait (R159). -/
def pinnedItem (s : State) (c : Nat) (its : List SliceItem) : Option (Nat × Nat) :=
  its.findSome? fun it => (s.pinHolder c it.pa).map (·, it.pa)

/-- Whether a load or an atomic that the unit issued earlier is still open (R164): of another split, which waits for a fill, a
slice or a pinned line, or as an atomic for its release, or an entry of its load queue that waits for no store. -/
def State.openAccess (s : State) (v : View) : Bool :=
  (v.u.splits.zipIdx).any (fun (t, k) => k != v.split && t.waits.any fun w => decide (w.first < v.sp.firstIssue s.cyc)
      && (w.kind == .fill || w.kind == .slice || w.kind == .pinned || !w.spans.isEmpty))
    || (v.u.kind == .context && v.u.q.loads.any fun e => e.ans == .pending && !s.loadBlocked v.core (s.myBlk v) v.u.q e)

/-- A POISON_DATA found at the home slice (R149): the region has ended, and the instruction, which takes no effect, becomes the
region entry. -/
def poisonStop (v : View) (s : State) (lanes : Mask) (va : Word) : Stop :=
  .raiseAt { cause := .poisonData, lanes := lanes, info1 := va } (s.enterRegion v)

/-- An operation at home slices by a unit: `q` and its items, then `fin` with the old values. The region ends first
(R149), the release part lands (R165), poison is met at the slice (R181), by the lanes of the first pass that meets it (R172),
and where `acq` holds the acquire part follows it: it waits for the unit's earlier loads and atomics (R164). It comes after the earlier
accesses of its warp to its words (R74). One whose guard selects no lane still ends the region, releases and acquires. (DESIGN CHOICE,
log 95: unsafe.) -/
def sliceBody (v : View) (s : State) (sc : Nat) (acq : Bool) (q0 : SliceReq) (fin : State → List Word → Eff) : Eff :=
  let after (t : State) : State := if acq then t.acquire v.core sc else t
  let spans := q0.items.map fun it => (it.pa, q0.t.bytes)
  let hold (w : Wait) (q : SliceReq) (t : State) : Eff := .error (.park { w with req := some q, spans := spans } t)
  match v.sliceDone with
  | some res => fin (after (s.closeRegion v)) res
  | none =>
    match pinnedItem s v.core q0.items with
    | some (k, pa) => hold (pinWait s k pa) q0 ((s.markRefused k pa).waitRegion v)
    | none =>
      let s0 := (s.closeRegion v).release v.core sc
      let s1 := if opSignal ≤ q0.op && q0.op < 48 && s.bundle.isNone then s0.tickSend v.core else s0
      let q := { q0 with stamp := (s1.core v.core).lclk }
      let s2 := q.items.foldl (fun s it => s.landLine v.core it.pa) s1
      if s2.unreleased v.core v.unit sc || (acq && decide (3 ≤ sc) && s.openAccess v) || v.behind s.cyc spans true
      then hold (releaseWait s) q0 (s.waitRegion v)
      else
        let bad := q.items.filter fun it => s2.poisonedIn it.pa q.t.bytes
        let first := (v.byPass (bad.map (·.lane))).headD []
        match bad.filter fun it => first.contains it.lane with
        | it :: rest => .error (poisonStop v s (maskOfList ((it :: rest).map (·.lane))) it.va)
        | [] =>
          if s.slow && v.u.kind != .context && !q.items.isEmpty then
            let t := (s.waitRegion v).release v.core sc
            hold { kind := .slice, since := s.cyc, a := v.slot } q
              (q.items.foldl (fun s it => s.landLine v.core it.pa) (if opSignal ≤ q0.op && q0.op < 48 then t.tickSend v.core else t))
          else
            let r := s2.sliceAll v.core q q.items
            fin (after r.1) r.2

/-- ATOM and CAS: the checks of R172 over the lanes, the operation, the old values in D tagged T. -/
def atomicBody (w : AtomWord) (op : Nat) (v : View) (s : State) : Eff :=
  let va := fun i => (v.u.read i w.a.toNat).v
  let rb := fun i => v.u.read i w.b.toNat
  let rc := fun i => v.u.read i w.c.toNat
  match settleErr v s fun i =>
    if !baseTag (v.u.read i w.a.toNat).tag || !tagMatches w.t (rb i).tag || (op == opCas && !tagMatches w.t (rc i).tag)
    then some { rank := 0, cause := .tagMismatch } else storeErr s v.core w.t.bytes (va i) with
  | .error e => .error e
  | .ok s0 =>
    match slicePlaces s0 v.core va (fun i => (rb i).v) (fun i => if op = opCas then (rc i).v else 0) v.lanes with
    | .error e => .error e
    | .ok items =>
      sliceBody v (s0.fillTlbs v.core (v.lanes.map va)) w.sc.toNat true { op := op, t := w.t, sub := w.ch.toNat, items := items } fun s res =>
        match putReg v s w.d.toNat fun i => mkReg ((v.lanes.zip res).lookup i |>.getD 0) w.t with
        | .error e => .error e
        | .ok s2 => andWatch v true (v.lanes.map fun i => (i, va i)) w.t.bytes (.ok s2)

/-- ATOM (R182, R183). -/
def execAtom (w : AtomWord) (s : State) := issue (.atom w) w.head s (atomicBody w w.sub.toNat)

/-- CAS (R184). -/
def execCas (w : AtomWord) (s : State) := issue (.cas w) w.head s (atomicBody w opCas)

/-! ## FENCE -/

/-- FENCE (R164, R186): kind 1 acquires, 2 releases, 3 both; at relaxed scope it orders nothing. -/
def execFence (w : MemWord) (s : State) := issue (.fence w) w.head s fun v s =>
  if v.sel = 0 then .ok s
  else
    let s1 := s.closeRegion v
    let s2 := if w.d.getLsbD 1 then s1.release v.core w.sc.toNat else s1
    if (w.d.getLsbD 1 && s2.unreleased v.core v.unit w.sc.toNat) || (w.d.getLsbD 0 && w.sc != 0 && s.openAccess v)
    then parkEnd v (releaseWait s) s
    else .ok (if w.d.getLsbD 0 then s2.acquire v.core w.sc.toNat else s2)

/-! ## Guards -/

/-- The acquiring core's L1 copies of every line bound to a guard are invalidated (R155). -/
def State.dropBound (s : State) (c : Nat) (b : Block) (guard : Word) : State :=
  s.modCore c fun k => { k with l1 := k.l1.filter fun l => !b.bound s c guard l.addr }

/-- HELD of a guard (R153). -/
def guardHeld (g : Word) : Bool := g.getLsbD 63

/-- COUNT of a guard (R153). -/
def guardCount (g : Word) : Nat := g.toNat % 2 ^ 63

/-- An acquire of a guard by a unit (R155, R156, R158, R160, R162): none while it has to wait. A pinned guard needs no
home slice and no invalidation; a narrow acquire that is performed at the home slice pins the line, up to 16 pins. A bundle's guard must
be free both before the bundle and after its lower slots (R31, R100). (DEDUCED, log 36: unsafe.) -/
def State.tryAcquire (s : State) (c u : Nat) (b : Block) (guard : Word) (pa sc : Nat) (shared : Bool) (n : Nat) : Option State :=
  let pin := (s.core c).pinOf pa
  let narrow := decide (sc < 3)
  let s1 := (match pin with
    | some p => if narrow then s else s.endPin c p
    | none => s).landLine c pa
  let g := s1.homeWord pa
  let waits (g : Word) : Bool := if shared then decide (guardCount g < n) else guardHeld g
  if waits g || waits (s.preWord pa) || (pin.isSome && !narrow && ((s1.core c).pinOf pa).isSome) then none
  else
    let x := leBytes 8 (2 ^ 63 + guardCount g)
    let s2 := if narrow && pin.isSome then (if shared then s1 else s1.pinWrite c pa x)
      else if shared then s1.requestL2 c pa 0 false else (s1.countL2 c pa).sliceWrite c pa x 0
    let s3 := if shared then s2 else s2.modBlk c fun b => { b with held := b.held ++ [pa] }
    if narrow && pin.isSome then some s3
    else
      let s4 := s3.dropBound c b guard
      some (if narrow && decide ((s4.core c).pins.length < 16) then
        s4.modCore c fun k => { k with pins := k.pins ++ [{ line := pa / 128 * 128, unit := u, guardVa := guard, pa := pa }] }
      else s4)

/-- ACQ (R187): a finished wait has been acquired by its event already. (DEDUCED, log 34: unsafe.) -/
def acqBody (w : MemWord) (v : View) (s : State) (_ : Nat) (rs : List Reg) : Eff :=
  let a := rs[0]?.getD {}
  let cnt := rs[1]?.getD {}
  let shared := w.d.getLsbD 0
  let sc := w.sc.toNat
  let va := memVa a.v w.off
  let wait : Wait := {
    kind := .guard, since := s.cyc, a := v.slot, b := cnt.v.toNat % 2 ^ 63, n := if shared then 1 else 0
    res := [va, .ofNat 64 sc] }
  if !baseTag a.tag || (shared && !countTag cnt.tag) then .error (raiseSel v .tagMismatch)
  else if va.toNat % 8 ≠ 0 then .error (raiseSel v .misaligned va)
  else andWatch v (!shared) [(v.lanes.headD 0, va)] 8 <|
  if v.sp.waits.any fun w => w.kind == .guard && w.done && w.a == v.slot then .ok (s.closeRegion v)
  else match s.translate v.core (if shared then .load else .store) va with
    | .error (.cause c) => .error (raiseSel v c va)
    | .error (.fault f) => .error (.fault f)
    | .error (.pinned k l) => parkEnd v (pinWait s k l) (s.markRefused k l)
    | .ok pa =>
      let s := s.fillTlb v.core va
      match s.pinHolder v.core pa with
      | some k => parkEnd v (pinWait s k pa) (s.markRefused k pa)
      | none =>
        let s1 := s.closeRegion v
        if (s1.landLine v.core pa).poisonedIn pa 8 then .error (poisonStop v s v.sel va)
        else match s1.tryAcquire v.core v.unit (s.myBlk v) va pa sc shared (cnt.v.toNat % 2 ^ 63) with
          | some s1 => .ok s1
          | none => .error (.park wait (if v.sp.waits.any fun w => w.kind == .guard then (s.waitRegion v).widen v.core pa sc
              else (s.waitRegion v).beginAcquire v.core pa sc))

/-- ACQ (R155, R156, R158, R187). -/
def execAcq (w : MemWord) (s : State) := issue (.acq w) w.head s
  (once (if w.d.getLsbD 0 then [w.a.toNat, w.b.toNat] else [w.a.toNat]) (acqBody w))

/-- The guard word changes at a REL (R157): COUNT increments, and HELD clears where the block holds the guard; in the core where its line
is pinned there (R158). -/
def State.countRelease (s : State) (c pa : Nat) : State :=
  let g := s.homeWord pa
  let held := ((s.blk c).map fun b => b.held.contains pa).getD false
  let x := leBytes 8 ((guardCount g + 1) % 2 ^ 63 + (if guardHeld g && !held then 2 ^ 63 else 0))
  (if ((s.core c).pinOf pa).isSome then s.pinWrite c pa x else (s.countL2 c pa).sliceWrite c pa x 0).modBlk c
    fun b => { b with held := b.held.filter (· != pa) }

/-- REL (R157, R158, R160, R188): on a pinned guard a narrow release stays in the core; a wide one ends the pin; a
narrow one without a pin is performed at device scope. -/
def execRel (w : MemWord) (s : State) := issue (.rel w) w.head s
  (once [w.a.toNat] fun v s _ rs =>
    let a := rs.head?.getD {}
    let va := memVa a.v w.off
    if !baseTag a.tag then .error (raiseSel v .tagMismatch)
    else if va.toNat % 8 ≠ 0 then .error (raiseSel v .misaligned va)
    else match s.translate v.core .store va with
      | .error (.cause c) => .error (raiseSel v c va)
      | .error (.fault f) => .error (.fault f)
      | .error (.pinned k l) => parkEnd v (pinWait s k l) (s.markRefused k l)
      | .ok pa =>
        let s := s.fillTlb v.core va
        match s.pinHolder v.core pa with
        | some k => parkEnd v (pinWait s k pa) (s.markRefused k pa)
        | none => andWatch v true [(v.lanes.headD 0, va)] 8 <|
          let s1 := s.closeRegion v
          if v.sp.waits.any fun w => w.kind == .release && w.done && w.a == v.slot then .ok s1
          else if (s1.landLine v.core pa).poisonedIn pa 8 then .error (poisonStop v s v.sel va)
          else
            match (s1.core v.core).pinOf pa with
            | some p =>
              if w.sc.toNat < 3 then .ok ((s1.landLine v.core pa).countRelease v.core pa)
              else
                let s2 := s1.endPin v.core p
                if s2.pinHeld v.core p then parkEnd v (releaseWait s) s
                else .ok (s2.countRelease v.core pa)
            | none =>
              let s2 := s1.landBound v.core (s.myBlk v) va
              if s2.boundTravels v.core (s.myBlk v) va then parkEnd v (releaseWait s) s
              else if s.slow && v.u.kind != .context then
                .error (.park { kind := .release, since := s.cyc, a := v.slot, b := pa, n := 1, res := [va] }
                  ((s.waitRegion v).landBound v.core (s.myBlk v) va))
              else .ok (s2.countRelease v.core pa))

/-! ## BIND and UNBIND -/

/-- The checks of BIND and UNBIND on A, B and C (R189). -/
def bindErr (v : View) (a b c : Reg) (whole : Bool) : Option Stop :=
  if !baseTag a.tag || (whole && !(baseTag b.tag && countTag c.tag)) then some (raiseSel v .tagMismatch)
  else if a.v.toNat % 8 ≠ 0 then some (raiseSel v .misaligned a.v)
  else if whole && (decide (2 ^ 47 < c.v.toNat) || decide (2 ^ 64 < b.v.toNat + c.v.toNat)) then some (raiseSel v .pageAbsent b.v)
  else none

/-- BIND (R154, R189). -/
def execBind (w : ArithWord) (s : State) := issue (.bind w) w.head s
  (once [w.a.toNat, w.b.toNat, w.c.toNat] fun v s _ rs =>
    let a := rs[0]?.getD {}
    let b := rs[1]?.getD {}
    let c := rs[2]?.getD {}
    match bindErr v a b c true with
    | some e => .error e
    | none =>
      let x : Binding := { guard := a.v, base := b.v, len := c.v }
      let blk := s.myBlk v
      if c.v = 0 || blk.binds.contains (some x) then .ok (putPred v s w.d.toNat fun _ => .t)
      else match blk.binds.findIdx? Option.isNone with
        | none => .ok (putPred v s w.d.toNat fun _ => .f)
        | some k => .ok (putPred v (s.modBlk v.core fun b => { b with binds := b.binds.set k (some x) }) w.d.toNat fun _ => .t))

/-- UNBIND and UNBIND.guard (R189). -/
def execUnbind (w : ArithWord) (s : State) := issue (.unbind w) w.head s
  (once (if w.sub = 0 then [w.a.toNat, w.b.toNat, w.c.toNat] else [w.a.toNat]) fun v s _ rs =>
    let a := rs[0]?.getD {}
    let b := rs[1]?.getD {}
    let c := rs[2]?.getD {}
    match bindErr v a b c (w.sub == 0) with
    | some e => .error e
    | none =>
      let goes := fun (e : Option Binding) => match e with
        | some x => x.guard == a.v && (w.sub != 0 || (x.base == b.v && x.len == c.v))
        | none => false
      let any := (s.myBlk v).binds.any goes
      .ok (putPred v (s.modBlk v.core fun b => { b with binds := b.binds.map fun e => if goes e then none else e })
        w.d.toNat fun _ => .of any))

/-! ## SIGNAL and SWAIT -/

/-- SIGNAL (R168, R190): a release, then the change at the home slice; a change that leaves the range of T raises
SIGNAL_RANGE and leaves the signal as it is. -/
def execSignal (w : AtomWord) (s : State) := issue (.signal w) w.head s
  (once [w.a.toNat, w.b.toNat] fun v s i rs =>
    let a := rs[0]?.getD {}
    let b := rs[1]?.getD {}
    if !baseTag a.tag || !tagMatches w.t b.tag then .error (raiseSel v .tagMismatch)
    else match s.storePlace v.core a.v 8 with
      | .error (.cause c) => .error (raiseSel v c a.v)
      | .error (.fault f) => .error (.fault f)
      | .error (.pinned k l) => parkEnd v (pinWait s k l) (s.markRefused k l)
      | .ok pa =>
        if (s.window pa).isSome then .error (.fault .noMemory)
        else
          let q : SliceReq := { op := opSignal + w.sub.toNat, t := w.t, sub := w.ch.toNat, items := [{ lane := i, pa := pa, va := a.v, b := b.v }] }
          sliceBody v (s.fillTlb v.core a.v) w.sc.toNat false q fun t res =>
            let old := res.head?.getD 0
            if signalNew w.sub.toNat w.t old b.v = none then
              .error (raiseSel v .signalRange a.v)
            else andWatch v true [(i, a.v)] 8 (putReg v t w.d.toNat fun _ => mkReg old w.t))

/-- The relations of SWAIT (R191). -/
def signalHolds (rel : Nat) (t : Ty) (x c : Word) : Bool := relHolds rel t.signedInt x c

/-- SWAIT (R168, R191). The wait holds the signal's place, the value, and the relation with the sign of T; where a value has satisfied
it, the stamp that it carried (R196). In a bundle the signal reads as before the bundle (R31). -/
def execSwait (w : AtomWord) (s : State) := issue (.swait w) w.head s
  (once [w.a.toNat, w.c.toNat] fun v s _ rs =>
    let a := rs[0]?.getD {}
    let c := rs[1]?.getD {}
    if !baseTag a.tag || !tagMatches w.t c.tag then .error (raiseSel v .tagMismatch)
    else if a.v.toNat % 8 ≠ 0 then .error (raiseSel v .misaligned a.v)
    else match s.translate v.core .load a.v with
      | .error (.cause e) => .error (raiseSel v e a.v)
      | .error (.fault f) => .error (.fault f)
      | .error (.pinned k l) => parkEnd v (pinWait s k l) (s.markRefused k l)
      | .ok pa =>
        let s := s.fillTlb v.core a.v
        let met := v.sp.waits.find? fun x => x.kind == .signal && x.done && x.a == pa && x.b == c.v.toNat
        let done := met.isSome
        match (if done then none else s.pinHolder v.core pa) with
        | some k => parkEnd v (pinWait s k pa) (s.markRefused k pa)
        | none =>
          let s0 := ((s.closeRegion v).landLine v.core pa).requestL2 v.core pa w.ch false
          if !done && s0.poisonedIn pa 8 then .error (poisonStop v s v.sel a.v)
          else if done || signalHolds w.sub.toNat w.t (s0.preWord pa) c.v then
            andWatch v false [(v.lanes.headD 0, a.v)] 8
              (.ok ((s0.acquire v.core w.sc.toNat).tickRecv v.core (((met.bind (·.res.head?)).map BitVec.toNat).getD (s0.stampOf pa))))
          else parkEnd v { kind := .signal, since := s.cyc, a := pa, b := c.v.toNat, n := w.sub.toNat + (if w.t.signedInt then 4 else 0) } s)

/-! ## The device heap -/

/-- The heap of a launch at its start (R192): chunk k of the largest aligned range goes to cell k mod P. -/
def heapStart (heap size : Nat) (cells : List Nat) : List (Nat × HeapCell) :=
  let lo := (heap + 0xFFFFF) / 0x100000
  let hi := (heap + size) / 0x100000
  cells.mapIdx fun j c =>
    (c, { free := ((List.range (hi - lo)).filter fun k => k % cells.length == j).map fun k => ((lo + k) * 0x100000, 20) })

/-- The smallest class that holds a size (R193): 4 to 20, and 21 where none does. -/
def heapClass (size : Nat) : Nat := ((List.range 17).find? fun k => max size 16 ≤ 2 ^ (k + 4)).map (· + 4) |>.getD 21

/-- A block of class k split down to class c: each half kept at random, the other freed. -/
def splitBlock (c : Nat) (seed : Nat) : Nat → Nat → Nat → Nat × List (Nat × Nat)
  | 0, a, _ => (a, [])
  | fuel + 1, a, k =>
    if k ≤ c then (a, [])
    else
      let half := 2 ^ (k - 1)
      let up := Config.choose (seed + fuel) % 2 == 1
      let r := splitBlock c seed fuel (if up then a + half else a) (k - 1)
      (r.1, (if up then a else a + half, k - 1) :: r.2)

/-- A block of class c taken from a cell's free lists: which block of those that could serve is left open
(FREE VALUE, log 2), a block of class c itself before a larger one. -/
def HeapCell.take (h : HeapCell) (c seed : Nat) : Option (Nat × HeapCell) :=
  let exact := h.free.filter (·.2 == c)
  let cand := if exact.isEmpty then h.free.filter (c < ·.2) else exact
  match cand[Config.choose seed % cand.length]? with
  | none => none
  | some b =>
    let r := splitBlock c (seed + 1) 17 b.1 b.2
    some (r.1, { free := h.free.filter (· != b) ++ r.2, used := h.used ++ [(r.1, c)] })

/-- The cell that gives a chunk: the most free chunks, ties to the lowest number (R193). -/
def richest (hs : List (Nat × HeapCell)) : Option (Nat × Nat) :=
  hs.foldl (fun best h =>
    let n := (h.2.free.filter (·.2 == 20)).length
    if n = 0 then best else match best with
      | none => some (h.1, n)
      | some b => if b.2 < n || (b.2 == n && h.1 < b.1) then some (h.1, n) else best) none

/-- The heap with a cell's lists replaced. -/
def setCellHeap (hs : List (Nat × HeapCell)) (cell : Nat) (h : HeapCell) : List (Nat × HeapCell) :=
  hs.map fun x => if x.1 == cell then (cell, h) else x

/-- One allocation of class c by a cell: from its own lists, else after a chunk moved to it (R193). -/
def heapTake (hs : List (Nat × HeapCell)) (cell c seed : Nat) : Option (Nat × List (Nat × HeapCell)) :=
  let own := (hs.lookup cell).getD {}
  match own.take c seed with
  | some (a, h) => some (a, setCellHeap hs cell h)
  | none =>
    match richest hs with
    | none => none
    | some (from_, _) =>
      let other := (hs.lookup from_).getD {}
      let chunks := other.free.filter (·.2 == 20)
      match chunks[Config.choose (seed + 20) % chunks.length]? with
      | none => none
      | some ch =>
        let hs1 := setCellHeap hs from_ { other with free := other.free.filter (· != ch) }
        let own1 := (hs1.lookup cell).getD {}
        match ({ own1 with free := own1.free ++ [ch] } : HeapCell).take c (seed + 21) with
        | none => none
        | some (a, h) => some (a, setCellHeap hs1 cell h)

/-- A block freed into a cell's lists, merging with its other half while that is free too (R192). -/
def freeBlock : Nat → List (Nat × Nat) → Nat → Nat → List (Nat × Nat)
  | 0, fs, a, c => (a, c) :: fs
  | fuel + 1, fs, a, c =>
    if c < 20 ∧ fs.contains (a ^^^ 2 ^ c, c) then
      freeBlock fuel (fs.filter (· != (a ^^^ 2 ^ c, c))) (min a (a ^^^ 2 ^ c)) (c + 1)
    else (a, c) :: fs

/-- ALLOC's lanes in order: the heap, the addresses, and the lanes that get no block. -/
def allocLanes (cell seed : Nat) (size : Nat → Nat) :
    List Nat → List (Nat × HeapCell) → List (Nat × HeapCell) × List (Nat × Nat) × List Nat
  | [], hs => (hs, [], [])
  | i :: is, hs =>
    if size i = 0 then
      let r := allocLanes cell seed size is hs
      (r.1, (i, 0) :: r.2.1, r.2.2)
    else match (if heapClass (size i) ≤ 20 then heapTake hs cell (heapClass (size i)) (seed + 64 * i) else none) with
      | none => let r := allocLanes cell seed size is hs; (r.1, r.2.1, i :: r.2.2)
      | some (a, hs1) => let r := allocLanes cell seed size is hs1; (r.1, (i, a) :: r.2.1, r.2.2)

/-- ALLOC (R193): with no lane selected it has no effect and ends no region. (DESIGN CHOICE, log 96: unsafe.) -/
def execAlloc (w : ArithWord) (s : State) := issue (.alloc w) w.head s fun v s =>
  let b := s.myBlk v
  let heaps := ((s.launch b.inst b.launch).map (·.heaps)).getD []
  let r := allocLanes (cellOf v.core) s.fresh (fun i => (v.u.read i w.a.toNat).v.toNat) v.lanes heaps
  match settleErr v s fun i =>
    if !countTag (v.u.read i w.a.toNat).tag then some { rank := 0, cause := .tagMismatch }
    else if r.2.2.contains i then some { rank := 1, cause := .heapEmpty } else none with
  | .error e => .error e
  | .ok s1 =>
    if v.lanes.isEmpty then .ok s1
    else
      let s2 := ((s1.closeRegion v).modLaunch b.inst b.launch fun l => { l with heaps := r.1 })
      putReg v { s2 with fresh := s2.fresh + 64 * 128 } w.d.toNat fun i => mkReg (.ofNat 64 ((r.2.1.lookup i).getD 0)) .n64

/-- The owner and class of an allocated block. -/
def heapOwner (hs : List (Nat × HeapCell)) (a : Nat) : Option (Nat × Nat) :=
  hs.findSome? fun h => (h.2.used.find? (·.1 == a)).map fun b => (h.1, b.2)

/-- FREE's lanes in order: the heap, the blocks given to the exchange, and the lanes that free no allocated block. -/
def freeLanes (cell : Nat) (va : Nat → Nat) :
    List Nat → List (Nat × HeapCell) → List (Nat × HeapCell) × List (Nat × Nat × Nat) × List Nat
  | [], hs => (hs, [], [])
  | i :: is, hs =>
    if va i = 0 then freeLanes cell va is hs
    else match heapOwner hs (va i) with
      | none => let r := freeLanes cell va is hs; (r.1, r.2.1, i :: r.2.2)
      | some (own, c) =>
        let h := (hs.lookup own).getD {}
        let used := h.used.filter (·.1 != va i)
        if own = cell then freeLanes cell va is (setCellHeap hs own { free := freeBlock 17 h.free (va i) c, used := used })
        else
          let r := freeLanes cell va is (setCellHeap hs own { h with used := used })
          (r.1, (own, va i, c) :: r.2.1, r.2.2)

/-- FREE (R194): with no lane selected it has no effect and ends no region. (DESIGN CHOICE, log 96: unsafe.) -/
def execFree (w : ArithWord) (s : State) := issue (.free w) w.head s fun v s =>
  let b := s.myBlk v
  let heaps := ((s.launch b.inst b.launch).map (·.heaps)).getD []
  let r := freeLanes (cellOf v.core) (fun i => (v.u.read i w.a.toNat).v.toNat) v.lanes heaps
  match settleErr v s fun i =>
    if r.2.2.contains i then some { rank := 1, cause := .heapBadFree, info1 := (v.u.read i w.a.toNat).v } else none with
  | .error e => .error e
  | .ok s1 =>
    if v.lanes.isEmpty then .ok s1
    else .ok ((s1.closeRegion v).modLaunch b.inst b.launch fun l => { l with heaps := r.1, exchange := l.exchange ++ r.2.1 })

end Sys2Proof.Machine
end

