-- ==== Sys2Proof/Machine/Tiles.lean ====
section
/-! DEFINITION. The tile instructions TALLOC, TFREE, TINFO, LDT, STT, ATOMT and TFILL (R198 to R214). -/

namespace Sys2Proof

/-- The handle number N in X[61:56] (R208). -/
def ArithWord.handle (w : ArithWord) : Nat := w.x.toNat % 64

end Sys2Proof

namespace Sys2Proof.Machine

/-! ## The tile table -/

/-- Entry n of a block's tile table replaced. -/
def Block.setTile (b : Block) (n : Nat) (e : Option TileEntry) : Block := { b with tiles := b.tiles.set n e }

/-- An entry written: at level 1 in every block of the gang (R205). -/
def State.putTile (s : State) (c n : Nat) (level : Level) (e : Option TileEntry) : State :=
  match s.blk c with
  | none => s
  | some b =>
    if level = .cell then (s.gangCores b).foldl (fun s k => s.modBlk k (·.setTile n e)) s
    else s.setBlk c (b.setTile n e)

/-- Storage units that a handle takes at its level (R208): words, bytes of a slice, or rows. -/
def TileEntry.room (e : TileEntry) : Nat :=
  match e.level with
  | .block | .cell => (e.rows * e.pitch + 63) / 64 * 64
  | .bstore => (e.rows * e.t.bytes + 255) / 256 * 256
  | .acc => (e.rows + 7) / 8 * 8

/-- Granule of a base at a level (R201, R206). -/
def Level.unit : Level → Nat
  | .block | .cell => 64
  | .bstore => 256
  | .acc => 8

/-- Capacity of a level for a block whose record grants tile KiB (R198). -/
def Level.capacity (l : Level) (tileKiB : Nat) : Nat :=
  match l with
  | .block | .cell => tileKiB * 256
  | .bstore => 196608
  | .acc => 1024

/-- Whether two levels share their storage. -/
def Level.shares (a b : Level) : Bool :=
  match a, b with
  | .bstore, .bstore => true
  | .acc, .acc => true
  | .bstore, _ | _, .bstore => false
  | .acc, _ | _, .acc => false
  | _, _ => true

/-- The ranges of a level's storage that a block has allocated on its own core. -/
def Block.ranges (b : Block) (l : Level) : List (Nat × Nat) :=
  b.tiles.filterMap fun e => match e with
    | some e => if l.shares e.level && (e.level != .cell || e.owner == b.bidx) then some (e.base, e.base + e.room) else none
    | none => none

/-- The lowest base where n units fit (R208). -/
def firstFit (ranges : List (Nat × Nat)) (capacity n : Nat) : Option Nat :=
  let ok := fun a => decide (a + n ≤ capacity) && ranges.all fun r => decide (a + n ≤ r.1) || decide (r.2 ≤ a)
  let cands := (0 :: ranges.map (·.2)).filter ok
  match cands with
  | [] => none
  | x :: xs => some (xs.foldl min x)

/-- The level of a code (R208). -/
def levelOf : Nat → Level
  | 0 => .block
  | 1 => .cell
  | 2 => .bstore
  | _ => .acc

/-- The code of a level (R210). -/
def Level.code : Level → Nat
  | .block => 0
  | .cell => 1
  | .bstore => 2
  | .acc => 3

/-- Whether a handle number belongs to a level (R198). -/
def Level.numbers (l : Level) (n : Nat) : Bool := if l = .cell then decide (48 ≤ n) else decide (n < 48)

/-- Whether a shape is one that R206 and R208 allow. -/
def Level.shapeOk (l : Level) (rows cols size : Nat) : Bool :=
  decide (1 ≤ rows) && decide (1 ≤ cols) && decide (rows ≤ 65536) && decide (cols ≤ 65536) &&
    (match l with
    | .bstore => decide (cols ≤ 128) && decide (rows * size ≤ 196608)
    | .acc => decide (cols = 128) && decide (rows ≤ 1024)
    | _ => true)

/-- The entry of a new handle, its base to be found (R199, R201). -/
def newTile (l : Level) (layout : BitVec 2) (t : Ty) (rows cols owner : Nat) : TileEntry :=
  { level := l, layout := layout, t := t, rows := rows, cols := cols, base := 0, owner := owner
    pitch := match l with
      | .bstore => t.bytes
      | .acc => 128
      | _ => tilePitch layout.toNat cols t.bytes }

/-- The 4 KiB granules of the save slot that a handle's storage occupies (R229). -/
def TileEntry.granules (e : TileEntry) : List Nat :=
  match e.level with
  | .block | .cell => spanGranules 0x600 (4 * e.base) (4 * e.room)
  | .acc => spanGranules 0x700 (512 * e.base) (512 * e.room)
  | .bstore => (List.range e.cols).flatMap fun j => spanGranules 0x800 (196608 * j + e.base) e.room

/-- TALLOC (R208). Storage just allocated is dirty, since no checkpoint holds it (R230). -/
def execTalloc (w : ArithWord) (s : State) := issue (.talloc w) w.head s
  (once [w.a.toNat, w.b.toNat] fun v s _ rs =>
    let a := rs[0]?.getD {}
    let b := rs[1]?.getD {}
    let l := levelOf (w.sub.toNat / 4 % 4)
    let blk := s.myBlk v
    let n := w.handle
    if (blk.tiles[n]?.join).isSome || !l.numbers n then .error (raiseHandle v [(n, false)])
    else if !(countTag a.tag && countTag b.tag) then .error (raiseSel v .tagMismatch)
    else if !l.shapeOk a.v.toNat b.v.toNat w.t.bytes || (s.dev.level == 1 && (l = .bstore || l = .acc)) then
      .error (raiseSel v .tileSpace)
    else
      let e := newTile l (.ofNat 2 (w.sub.toNat % 4)) w.t a.v.toNat b.v.toNat blk.bidx
      match firstFit (blk.ranges l) (l.capacity (s.rcd blk).tileKiB) e.room with
      | none => .error (raiseSel v .tileSpace)
      | some base =>
        let h : TileEntry := { e with base := base }
        .ok (((s.closeRegion v).putTile v.core n l (some h)).modCore v.core fun k => k.soilAll h.granules))

/-- Whether a store's place lies in the storage of a handle that a core's block owns. -/
def TileEntry.owns (e : TileEntry) (core : Nat) (p : Place) : Bool :=
  match p with
  | .tile k a => k == core && e.level != .bstore && decide (4 * e.base ≤ a % tileSpan) && decide (a % tileSpan < 4 * (e.base + e.room))
  | .bst k a => k == core && e.level == .bstore && decide (e.base ≤ a % 196608) && decide (a % 196608 < e.base + e.room)
  | .phys _ => false

/-- Whether a unit holds an access to handle n: a load entry that is not answered, or a store in its pail. -/
def ProgUnit.holdsTile (p : ProgUnit) (n : Nat) (e : TileEntry) (core : Nat) : Bool :=
  (p.q.loads.any fun x => x.ans == .pending && (match x.addr with | .elem h _ _ => h == n | _ => false)) ||
  p.pail.any fun h => h.items.any fun i => e.owns core i.place

/-- Whether an access to a handle is still to complete (R209): a command of the block that names it, a load entry or a held
store of a unit of the block, at level 1 of its gang, or a drained row. (DEDUCED, log 35: unsafe.) -/
def State.tileBusy (s : State) (c : Nat) (b : Block) (n : Nat) (e : TileEntry) : Bool :=
  (b.cmds.any fun k => (k.state == .waiting || k.state == .running) && k.handles.contains e) ||
  (if e.level = .cell then s.gangCores b else [c]).any fun k =>
    ((s.core k).arr.drained.any fun d => d.items.any fun i => e.owns c i.place) ||
    ((s.blk k).map fun o => o.units.any fun u => (u.map (·.holdsTile n e c)).getD false).getD false

/-- The answers that memory owes to the contexts of a block are given (R209). -/
def State.answerBlock (s : State) (c : Nat) : State := [16, 17, 18, 19].foldl (fun s u => s.answerAll c u) s

/-- TFREE (R209). -/
def execTfree (w : ArithWord) (s : State) := issue (.tfree w) w.head s fun v s =>
  if v.sel = 0 then .ok s
  else
    let blk := s.myBlk v
    match blk.tiles[w.handle]?.join with
    | none => .error (raiseHandle v [(w.handle, false)])
    | some e =>
      if e.level = .cell ∧ e.owner ≠ blk.bidx then .error (raiseHandle v [(w.handle, false)])
      else
        let cores := if e.level = .cell then s.gangCores blk else [v.core]
        let s1 := if s.slow then s.closeRegion v else cores.foldl State.answerBlock (s.closeRegion v)
        if s1.tileBusy v.core (s1.myBlk v) w.handle e then parkEnd v { kind := .tile, since := s.cyc } s
        else .ok (s1.putTile v.core w.handle e.level none)

/-- The shape word of TINFO (R210). -/
def TileEntry.shapeWord (e : TileEntry) : Word :=
  .ofNat 64 (2 ^ 63 + e.level.code * 2 ^ 40 + e.layout.toNat * 2 ^ 38
    + (match e.t.bytes with | 1 => 0 | 2 => 1 | 4 => 2 | _ => 3) * 2 ^ 36
    + e.t.code * 2 ^ 32 + (e.rows - 1) * 2 ^ 16 + (e.cols - 1))

/-- The place word of TINFO (R210): the owner's offset on the cell's grid (R47) as it stands. -/
def TileEntry.placeWord (e : TileEntry) (reader owner : Nat) : Word :=
  let dx : Int := (owner % 8 % 2 : Nat) - (reader % 8 % 2 : Nat)
  let dy : Int := (owner % 8 / 2 : Nat) - (reader % 8 / 2 : Nat)
  let off := if e.level = .cell then (dx % 4).toNat * 2 ^ 46 + (dy % 8).toNat * 2 ^ 43 else 0
  .ofNat 64 (off + e.pitch * 2 ^ 24 + e.base)

/-- TINFO (R210). -/
def execTinfo (w : ArithWord) (s : State) := issue (.tinfo w) w.head s fun v s =>
  let b := s.myBlk v
  let x : Word := match b.tiles[w.handle]?.join with
    | none => 0
    | some e => if w.sub = 0 then e.shapeWord else e.placeWord v.core (s.coreOfBidx v.core b e.owner)
  putReg v s w.d.toNat fun _ => mkReg x .n64

/-! ## Elements -/

/-- The rounds of one pass: the largest number of distinct words that it names in one bank (R203); where lanes share no
access, the largest number of accesses to one bank (R213). -/
def TileEntry.rounds (e : TileEntry) (share : Bool) (xs : List (Nat × Nat)) : Nat :=
  let all := xs.flatMap fun x =>
    let w := e.base + x.1 * e.pitch + x.2 * e.t.bytes / 4
    let ws := if e.t.bytes = 8 then [w, w + 1] else [w]
    ws.map fun w => (bankOf e.layout w x.1, w)
  let words := if share then all.eraseDups else all
  (List.range 64).foldl (fun m k => max m (words.filter (·.1 == k)).length) 0

/-- The requests of an instruction on elements of handle h: one for each pass, named by its first lane's element (R219, R385). -/
def View.elemNames (v : View) (h : Nat) (ij : Nat → Int × Int) : List Word :=
  (v.byPass v.lanes).filterMap fun g => g.head?.map fun i => tileInfo h (ij i).1 (ij i).2

/-- The rounds of an instruction's passes are counted (R387). -/
def State.countRounds (s : State) (v : View) (e : TileEntry) (ij : Nat → Int × Int) (share : Bool := true) : State :=
  s.count v.core 0x20 ((v.byPass v.lanes).foldl (fun n g => n + e.rounds share (g.map fun i => ((ij i).1.toNat, (ij i).2.toNat))) 0)

/-- A lane's check of an element access (R212): the handle, the tags, the bounds. -/
def elemErr (h : Nat) (e : Option TileEntry) (t : Ty) (row col : Reg) (data : Bool) : Option LaneErr :=
  let i := coordVal row
  let j := coordVal col
  match e with
  | none => some { rank := 0, cause := .tileHandle, info2 := tileInfo h i j }
  | some x =>
    if x.t != t || !coordTag row.tag || !coordTag col.tag || !data then some { rank := 1, cause := .tagMismatch }
    else if !x.has i j then some { rank := 2, cause := .tileBounds, info2 := tileInfo h i j }
    else none

/-- A lane's check of an element that it reads: R212's, then an invalid interval, then poison (R256, R328). (DEDUCED, log 80: unsafe.) -/
def elemReadErr (s : State) (v : View) (h : Nat) (t : Ty) (row col : Reg) (data : Bool) : Option LaneErr :=
  let e := (s.myBlk v).tileHandle h
  (elemErr h e t row col data).orElse fun _ => e.bind fun e =>
    match s.elemPlace v.core (s.myBlk v) e (coordVal row).toNat (coordVal col).toNat with
    | .tile k a => match s.loadElem v.u.pail k a e.t with
      | .error .badInterval => some { rank := 3, cause := .badInterval }
      | .error x => some { rank := 4, cause := x }
      | .ok _ => none
    | _ => none

/-- A lane's check of an element that it writes: R212's, then an invalid interval (R256, R260). -/
def elemWriteErr (h : Nat) (e : Option TileEntry) (t : Ty) (row col data : Reg) : Option LaneErr :=
  (elemErr h e t row col (tagMatches t data.tag)).orElse fun _ =>
    if badInterval t data.v then some { rank := 3, cause := .badInterval } else none

/-- LDT (R211, R212). -/
def execLdt (w : ArithWord) (s : State) := issue (.ldt w) w.head s fun v s =>
  let b := s.myBlk v
  let e := b.tileHandle w.handle
  let row := fun i => v.u.read i w.a.toNat
  let col := fun i => v.u.read i w.b.toNat
  match settleErr v s fun i => elemReadErr s v w.handle w.t (row i) (col i) true with
  | .error x => .error x
  | .ok s1 =>
    match e with
    | none => .ok s1
    | some e =>
      let ij := fun i => (coordVal (row i), coordVal (col i))
      putReg v ((s1.countRounds v e ij).samples v.core v.unit v.addr (v.elemNames w.handle ij)) w.d.toNat fun i =>
        match s1.elemPlace v.core b e (coordVal (row i)).toNat (coordVal (col i)).toNat with
        | .tile k a => extendLoad (s1.loadTile v.u.pail k a e.t.bytes) e.t
        | _ => {}

/-- STT (R211, R212). -/
def execStt (w : ArithWord) (s : State) := issue (.stt w) w.head s fun v s =>
  let b := s.myBlk v
  let e := b.tileHandle w.handle
  let row := fun i => v.u.read i w.a.toNat
  let col := fun i => v.u.read i w.b.toNat
  let data := fun i => v.u.read i w.c.toNat
  match settleErr v s fun i => elemWriteErr w.handle e w.t (row i) (col i) (data i) with
  | .error x => .error x
  | .ok s1 =>
    match e, v.lanes with
    | some e, _ :: _ =>
      let items := v.lanes.map fun i =>
        { lane := i, place := s1.elemPlace v.core b e (coordVal (row i)).toNat (coordVal (col i)).toNat, bytes := storeBytes e.t (data i).v : StoreItem }
      let ij := fun i => (coordVal (row i), coordVal (col i))
      s1.holding v { items := items, pc := v.addr, names := v.elemNames w.handle ij } fun s => .ok (s.countRounds v e ij)
    | _, _ => .ok s1

/-- One lane's read-modify-write of an element (R213): the old value. -/
def State.atomTile (s : State) (op : Nat) (t : Ty) (k a : Nat) (x : Word) : State × Word :=
  let old := (extendLoad (tileRead (s.core k).tile a t.bytes) t).v
  (s.commitTile k a (storeBytes t (atomNew op t old x)), old)

/-- ATOMT's lanes in order. -/
def atomTiles (op : Nat) (t : Ty) (place : Nat → Place) (x : Nat → Word) : List Nat → State → State × List Word
  | [], s => (s, [])
  | i :: is, s =>
    match place i with
    | .tile k a =>
      let r := s.atomTile op t k a (x i)
      let rest := atomTiles op t place x is r.1
      (rest.1, r.2 :: rest.2)
    | _ => atomTiles op t place x is s

/-- ATOMT (R213): the region ends before it, so the unit's held stores commit first. -/
def execAtomt (w : ArithWord) (s : State) := issue (.atomt w) w.head s fun v s =>
  match fetch v s [w.a.toNat, w.b.toNat, w.c.toNat] with
  | .error e => .error e
  | .ok (s1, pops) =>
    let b := s1.myBlk v
    let e := b.tileHandle w.handle
    let row := v.src (pops[0]?.getD none) w.a.toNat
    let col := v.src (pops[1]?.getD none) w.b.toNat
    let data := v.src (pops[2]?.getD none) w.c.toNat
    match settleErr v s1 fun i => elemReadErr s1 v w.handle w.t (row i) (col i) (tagMatches w.t (data i).tag) with
    | .error x => .error x
    | .ok s2 =>
      match e, v.lanes with
      | some e, _ :: _ =>
        let ij := fun i => (coordVal (row i), coordVal (col i))
        let s3 := ((s2.countRounds v e ij false).samples v.core v.unit v.addr (v.elemNames w.handle ij)).closeRegion v
        let place := fun i => s3.elemPlace v.core b e (coordVal (row i)).toNat (coordVal (col i)).toNat
        let r := atomTiles w.sub.toNat w.t place (fun i => (data i).v) v.lanes s3
        putReg v r.1 w.d.toNat fun i => mkReg ((v.lanes.zip r.2).lookup i |>.getD 0) w.t
      | _, _ => .ok s2

/-- n copies of a run of bytes. -/
def repeatBytes (bs : List Byte) : Nat → List Byte
  | 0 => []
  | n + 1 => bs ++ repeatBytes bs n

/-- The stores that fill a handle (R214): row by row in tile memory, column by column in the B store. -/
def fillItems (s : State) (c : Nat) (b : Block) (e : TileEntry) (bs : List Byte) : List StoreItem :=
  if e.level = .bstore then
    (List.range e.cols).map fun j => { lane := 0, place := s.elemPlace c b e 0 j, bytes := repeatBytes bs e.rows }
  else (List.range e.rows).map fun i => { lane := 0, place := s.elemPlace c b e i 0, bytes := repeatBytes bs e.cols }

/-- TFILL (R214): its commit is one tile request, named by the handle's first element. (DESIGN CHOICE, log 11: unsafe.) -/
def execTfill (w : ArithWord) (s : State) := issue (.tfill w) w.head s
  (once [w.c.toNat] fun v s _ rs =>
    let r := rs.head?.getD {}
    let b := s.myBlk v
    match b.tiles[w.handle]?.join with
    | none => .error (raiseHandle v [(w.handle, false)])
    | some e =>
      if e.level = .acc then .error (raiseHandle v [(w.handle, false)])
      else if e.t != w.t || !tagMatches w.t r.tag then .error (raiseSel v .tagMismatch)
      else if badInterval w.t r.v then .error (raiseSel v .badInterval)
      else s.holding v
        { items := fillItems s v.core b e (storeBytes w.t r.v), pc := v.addr, names := [tileInfo w.handle 0 0] } .ok)

end Sys2Proof.Machine
end

