-- ==== Sys2Proof/Machine/Vliw.lean ====
section
/-! DEFINITION. The instructions of a context's queues and services: PUSHA, PUSHS, QSTAT, RQPOP, SYSSEND and
SYSRECV (R114 to R117). -/

namespace Sys2Proof.Machine

/-- The address that a push names (R114), or its fault at the bundle: its tags first, then an unallocated handle, and
QUEUE_ORDER after both. (DESIGN CHOICE, log 75: unsafe.) -/
def pushAddr (w : AddrWord) (v : View) (s : State) : Except Stop PushAddr :=
  let a := v.u.read v.cl w.a.toNat
  if w.tile then
    let col := v.u.read v.cl w.col.toNat
    if !coordTag a.tag || !coordTag col.tag then .error (raiseSel v .tagMismatch)
    else if ((s.myBlk v).tiles[w.h.toNat]?.join).isNone then
      .error (raiseSel v .tileHandle 0 (tileInfo w.h.toNat (coordVal a) (coordVal col)))
    else .ok (.elem w.h.toNat (coordVal a) (coordVal col))
  else if !baseTag a.tag then .error (raiseSel v .tagMismatch)
  else .ok (.va (memVa a.v w.off))

/-- PUSHA (R114): 64 unpopped entries raise QUEUE_ORDER; 64 held ones close the region before the bundle (R105). It finds the
entries as they stand before the bundle (R31). (DESIGN CHOICE, log 75: unsafe.) -/
def execPusha (w : AddrWord) (s : State) := issue (.pusha w) w.head s fun v s =>
  if v.sel = 0 then .ok s
  else match pushAddr w v s with
    | .error e => .error e
    | .ok addr =>
      let q := v.u.q
      if 64 ≤ (q.loads.filter fun e => !e.popped).length then .error (queueOrder v)
      else if 64 ≤ q.loads.length then
        if v.u.pending.isEmpty then .ok { s with bundle := s.bundle.map fun b => { b with again := true } }
        else .error (raiseSel v .regionExposed)
      else watchTrap v ((s.modU v fun u => { u with q := { u.q with
          loads := u.q.loads ++ [{ addr := addr, t := w.t, after := u.q.nAddrs, pc := v.addr }] } }).count v.core 0x20 (if w.tile then 1 else 0))
        false (addr.watchVa.map fun x => (v.cl, x.2)) w.t.bytes

/-- PUSHS (R114): the address pairs with waiting data in its bundle (R103). -/
def execPushs (w : AddrWord) (s : State) := issue (.pushs w) w.head s fun v s =>
  if v.sel = 0 then .ok s
  else match pushAddr w v s with
    | .error e => .error e
    | .ok addr =>
      if 32 ≤ (s.me v).q.addrs.length then .error (queueOrder v)
      else pairUp v (s.modU v fun u => { u with q := { u.q with
        addrs := u.q.addrs ++ [{ addr := addr, t := w.t, pc := v.addr }], nAddrs := u.q.nAddrs + 1 } })

/-- The value of QSTAT (R115). -/
def qstatWord (u : ProgUnit) : Word :=
  let unpopped := u.q.loads.filter fun e => !e.popped
  let len := fun n => (u.results[n]?.getD []).length
  .ofNat 64 (unpopped.length + (unpopped.filter fun e => e.ans != .pending).length * 2 ^ 7 + u.q.addrs.length * 2 ^ 14
    + u.q.datas.length * 2 ^ 20 + len 0 * 2 ^ 26 + len 1 * 2 ^ 31 + len 2 * 2 ^ 36 + (if u.svc.isSome then 2 ^ 41 else 0)
    + u.loops.length * 2 ^ 42 + u.base * 2 ^ 46)

/-- QSTAT (R115): the queues as they stand before the bundle. -/
def execQstat (w : ArithWord) (s : State) := issue (.qstat w) w.head s fun v s =>
  putReg v s w.d.toNat fun _ => mkReg (qstatWord v.u) .n64

/-- The oldest entry of a result queue removed (R116). -/
def ProgUnit.popResult (u : ProgUnit) (n : Nat) : ProgUnit := { u with results := u.results.modify n List.tail }

/-- RQPOP (R116). -/
def execRqpop (w : ArithWord) (s : State) := issue (.rqpop w) w.head s fun v s =>
  if v.sel = 0 then .ok s
  else
    let n := w.sub.toNat % 4
    let stall := w.sub.getLsbD 4
    match ((s.me v).results[n]?.getD []).head? with
    | some r =>
      match putReg v (s.modU v fun u => u.popResult n) w.d.toNat fun _ => mkReg r.v r.tag with
      | .error e => .error e
      | .ok s1 => .ok (if stall then s1 else putPred v s1 6 fun _ => .t)
    | none =>
      if stall then .error (.park { kind := .engine, since := s.cyc, a := n } s)
      else match putReg v s w.d.toNat fun _ => mkReg 0 .und with
        | .error e => .error e
        | .ok s1 => .ok (putPred v s1 6 fun _ => .f)

/-- The frame of a service request (R218, R219): kind 3, its port in SLOT. -/
def serviceFrame (v : View) (s : State) (port : Nat) (a b : Word) : Frame :=
  v.frame s { cause := .none, kind := 3, lanes := v.sel, info1 := a, info2 := b, port := port }

/-- SYSSEND (R117, R243): the region ends, and the request enters the handler where its port is served; otherwise
its SYSRECV will be refused. With TRAPBASE 0 the block stops (R218). -/
def execSyssend (w : ArithWord) (s : State) := issue (.syssend w) w.head s fun v s =>
  if v.sel = 0 then .ok s
  else if (s.me v).svc.isSome then .error (raiseSel v .queueOrder)
  else
    let port := w.sub.toNat
    let a := (v.u.read v.cl w.a.toNat).v
    let b := (v.u.read v.cl w.b.toNat).v
    let served := (s.inst (s.instOf v.core)).svcen.getLsbD port
    let s1 := (s.closeRegion v).modU v fun u =>
      { u with svc := some { port := port, a := a, b := b, reply := if served then none else some none } }
    .ok (if served then s1.deliver v.core (serviceFrame v s1 port a b) else s1)

/-- SYSRECV (R117): a refusal raises SERVICE_REFUSED after the bundle, the destination unchanged (R223). -/
def execSysrecv (w : ArithWord) (s : State) := issue (.sysrecv w) w.head s fun v s =>
  if v.sel = 0 then .ok s
  else match (s.me v).svc with
    | none => .error (raiseSel v .queueOrder)
    | some q =>
      match q.reply with
      | none => .error (.park { kind := .reply, since := s.cyc } s)
      | some r =>
        let s1 := (s.closeRegion v).modU v fun u => { u with svc := none }
        match r with
        | some x => putReg v s1 w.d.toNat fun _ => mkReg x .n64
        | none => .error (.raiseAt { cause := .serviceRefused, lanes := v.sel, kind := 1 } s1)

end Sys2Proof.Machine
end

