-- ==== Sys2Proof/Machine/Engines.lean ====
section
/-! DEFINITION. Engine commands: their issue (R327), the copy engine's COPY, GATHER and SCATTER (R328 to R330), COLL
(R331), the peer commands (R332, R333), CMDSTAT (R334), and the events that complete them. -/

namespace Sys2Proof

/-- The scope of an engine command's flags (R327). -/
def ArithWord.flagScope (w : ArithWord) : Nat := w.sub.toNat % 8

/-- The acquire flag (R327). -/
def ArithWord.flagAcq (w : ArithWord) : Bool := w.sub.getLsbD 3

/-- The release flag (R327). -/
def ArithWord.flagRel (w : ArithWord) : Bool := w.sub.getLsbD 4

/-- T[1] = SIG of the copy, collective and peer commands (R329, R331, R332). -/
def ArithWord.tSig (w : ArithWord) : Bool := w.t.code / 2 % 2 == 1

end Sys2Proof

namespace Sys2Proof.Machine

/-! ## Issue -/

/-- Whether a command has completed. -/
def Cmd.finished (k : Cmd) : Bool := k.state == .done || k.state == .faulted

/-- A command joins the block's list under the next sequence number (R327): the last 256 stay, and every command that
has not completed (R334). -/
def Block.addCmd (b : Block) (k : Cmd) : Block :=
  { b with
    seq := b.seq + 1
    cmds := { k with seq := b.seq } :: b.cmds.filter fun x => decide (b.seq < x.seq + 256) || !x.finished }

/-- A command issues: the unit's region ends and the command waits for its engine (R327). -/
def State.issueCmd (s : State) (v : View) (k : Cmd) : State :=
  (s.closeRegion v).modBlk v.core (·.addCmd { k with unit := v.unit, pc := v.addr })

/-- The command numbered n of a block replaced. -/
def Block.setCmd (b : Block) (k : Cmd) : Block := { b with cmds := b.cmds.map fun x => if x.seq == k.seq then k else x }

/-- A VA operand of a command: tag, then alignment (R327). -/
def vaErr (v : View) (r : Reg) (n : Nat) : Option Stop :=
  if !baseTag r.tag then some (raiseSel v .tagMismatch)
  else if r.v.toNat % n ≠ 0 then some (raiseSel v .misaligned r.v)
  else none

/-- The first of several checks that fails. -/
def firstStop (l : List (Option Stop)) : Option Stop := l.findSome? id

/-! ## An engine's accesses -/

/-- Where one byte of a transfer lies. -/
inductive ByteAt where
  | va (a : Word)
  | place (p : Place)
  deriving DecidableEq, Repr

/-- The place of one byte: global memory through the page tables of the instance (R239). (DEDUCED, log 39: unsafe.) -/
def State.byteAt (s : State) (i : Nat) (k : Access) : ByteAt → Except (MemErr × Word) Place
  | .place p => .ok p
  | .va a =>
    match s.walk i a with
    | .error e => .error (e, a)
    | .ok t =>
      match s.permit t k a with
      | .error e => .error (e, a)
      | .ok pa => .ok (.phys pa)

/-- One byte read by an engine, at the home slices or in a core's storage, and whether its word is poisoned. -/
def State.engByte (s : State) : Place → Byte × Bool
  | .phys pa =>
    match s.window pa with
    | some off => ((s.regBytes off 1).head?.getD 0, false)
    | none => (cellGet s.mem pa, s.poisonedIn pa 1)
  | .tile k a => (cellGet (s.core k).tile (tileByte a), (s.core k).tilePoisoned a 1)
  | .bst k a => (cellGet (s.core k).bst a, false)

/-- One byte of a transfer: from, to. -/
abbrev Move := ByteAt × ByteAt

/-- What the bytes of a transfer come to: the places read, the pages named; the writes in order, each byte with its poison; the
VAs whose translation fails; a pin in the way; an address that does not exist. -/
structure MoveAcc where
  reads : List Place := []
  pages : List Word := []
  writes : List (Place × Byte × Bool) := []
  bad : List Word := []
  pin : Option (Nat × Nat) := none
  fault : Option Fault := none

/-- An engine's failure of one byte is noted. -/
def MoveAcc.note (m : MoveAcc) (e : MemErr × Word) : MoveAcc :=
  match e.1 with
  | .cause _ => { m with bad := m.bad ++ [e.2] }
  | .fault f => { m with fault := some f }
  | .pinned k l => { m with pin := some (k, l) }

/-- The pin on a place's line: it refuses an engine of any core (R159). -/
def State.placePin (s : State) : Place → Option (Nat × Nat)
  | .phys pa => (s.pinHolder Config.numCores pa).map (·, pa)
  | _ => none

/-- The smallest page that a VA lies in, once in the list. -/
def MoveAcc.page (m : MoveAcc) (a : ByteAt) : MoveAcc :=
  match a with
  | .place _ => m
  | .va a =>
    let p := BitVec.ofNat 64 (a.toNat / 0x10000 * 0x10000)
    if m.pages.contains p then m else { m with pages := m.pages ++ [p] }

/-- One byte joined to the transfer. -/
def State.moveByte (s : State) (i : Nat) (m : MoveAcc) (x : Move) : MoveAcc :=
  match s.byteAt i .load x.1, s.byteAt i .store x.2 with
  | .error e, .error e' => (m.note e).note e'
  | .error e, .ok _ => m.note e
  | .ok _, .error e => m.note e
  | .ok p, .ok q =>
    let b := s.engByte p
    { (m.page x.1).page x.2 with
      reads := m.reads ++ [p], writes := m.writes ++ [(q, b.1, b.2)]
      pin := m.pin.orElse fun _ => (s.placePin p).orElse fun _ => s.placePin q }

/-- One byte of a given value joined to the transfer. -/
def State.putByte (s : State) (i : Nat) (m : MoveAcc) (x : Word × Byte) : MoveAcc :=
  match s.byteAt i .store (.va x.1) with
  | .error e => m.note e
  | .ok p => { m.page (.va x.1) with writes := m.writes ++ [(p, x.2, false)], pin := m.pin.orElse fun _ => s.placePin p }

/-- One byte that is only read joined to the transfer. -/
def State.seeByte (s : State) (i : Nat) (m : MoveAcc) (a : Word) : MoveAcc :=
  match s.byteAt i .load (.va a) with
  | .error e => m.note e
  | .ok p => { m.page (.va a) with reads := m.reads ++ [p], pin := m.pin.orElse fun _ => s.placePin p }

/-- The place n bytes on. -/
def Place.plus (p : Place) (n : Nat) : Place :=
  match p with
  | .phys a => .phys (a + n)
  | .tile k a => .tile k (a + n)
  | .bst k a => .bst k (a + n)

/-- The byte number of a place in its storage. -/
def Place.num : Place → Nat
  | .phys a | .tile _ a | .bst _ a => a

/-- Writes gathered into runs of adjacent bytes of one line. -/
def runsOf (l : List (Place × Byte)) : List (Place × List Byte) :=
  l.foldr (fun x rs => match rs with
    | r :: rest =>
      if r.1 == x.1.plus 1 && r.1.num % 128 != 0 then (x.1, x.2 :: r.2) :: rest else (x.1, [x.2]) :: r :: rest
    | [] => [(x.1, [x.2])]) []

/-- A run written by an engine of core `who`, or of the device. -/
def State.engWrite (s : State) (i : Nat) (r : Place × List Byte) (who : Nat := Config.numCores) : State :=
  match r.1 with
  | .phys pa =>
    match s.window pa with
    | some off => s.storeRegs off r.2
    | none => (s.engTouch i pa who).homeWrite pa r.2 0 i
  | .tile k a => s.commitTile k a r.2
  | .bst k a => s.commitBst k a r.2

/-- A word becomes poisoned: of global memory, or a pair of tile words (R328). -/
def State.poisonPlace (s : State) : Place → State
  | .phys pa => { s with poison := (pa / 8 * 8) :: s.poison.filter (· != pa / 8 * 8) }
  | .tile k a =>
    let w := tileByte a / 8 * 8
    s.modCore k fun t => { t with tilePoison := w :: t.tilePoison.filter (· != w) }
  | .bst _ _ => s

/-- The lines of global memory among places. -/
def moveLines (l : List Place) : List Nat :=
  (l.filterMap fun p => match p with | .phys pa => some (pa / 128 * 128) | _ => none).eraseDups

/-- The table walks and the reads of a transfer fill their lines at the home slices (R395). -/
def State.touchMoves (s : State) (i : Nat) (m : MoveAcc) (who : Nat := Config.numCores) : State :=
  ((moveLines m.reads).filter fun l => (s.window l).isNone).foldl (fun s l => s.engTouch i l who)
    (m.pages.foldl (State.touchWalk · i) s)

/-- A transfer of an instance is made: its reads, its writes in order, then the poison that each byte's last writer carries
(R328, R329). -/
def State.applyMoves (s : State) (i : Nat) (m : MoveAcc) (who : Nat := Config.numCores) : State :=
  let s1 := (runsOf (m.writes.map fun w => (w.1, w.2.1))).foldl (fun s r => s.engWrite i r who) (s.touchMoves i m who)
  let last := (m.writes.zipIdx.filter fun w => w.1.2.2 && !((m.writes.drop (w.2 + 1)).any fun x => x.1 == w.1.1)).map (·.1.1)
  last.foldl State.poisonPlace s1

/-- The writes that landed before a fault stopped the command (R328: which is not promised; DESIGN CHOICE, log 13). -/
def MoveAcc.landed (m : MoveAcc) (seq : Nat) : MoveAcc :=
  { m with writes := (m.writes.zipIdx.filter fun x => Config.faultedByteLanded seq x.2).map (·.1) }

/-! ## Completion -/

/-- An asynchronous trap of a unit is recorded (R224), or passed on where the unit has retired. -/
def State.recordAsync (s : State) (c : Nat) (live : Bool) (f : Frame) : State :=
  match s.unit c f.unit, live with
  | some _, true => s.modUnit c f.unit fun u => { u with asyncs := u.asyncs ++ [f] }
  | _, _ => s.passAsyncs c [f]

/-- The frame of an engine's fault (R224, R328, R332). -/
def Cmd.frame (k : Cmd) (cause : Cause) (va : Word) : Frame :=
  { cause := cause, kind := 2, unit := k.unit, rk := 1, info1 := va, cmdpc := k.pc, cmdseq := .ofNat 64 k.seq }

/-- Whether the issuing context's result queue of an engine has room (R108); other units need none. -/
def State.resultRoom (s : State) (c : Nat) (k : Cmd) (queue : Nat) : Bool :=
  k.orphan || (match s.unit c k.unit with
    | some u => u.kind != .context || decide ((u.results[queue]?.getD []).length < 16)
    | none => true)

/-- A result placed in the issuing context's queue (R108). -/
def State.putResult (s : State) (c : Nat) (k : Cmd) (queue : Nat) : State :=
  if k.orphan then s
  else s.modUnit c k.unit fun u =>
    match u.kind with
    | .context => { u with results := u.results.modify queue (· ++ [mkReg (.ofNat 64 k.seq) .n64]) }
    | _ => u

/-- The command ends with an asynchronous fault (R328): no token, no signal, no release; its result is placed. -/
def State.failCmd (s : State) (c : Nat) (k : Cmd) (queue : Option Nat) (cause : Cause) (va : Word) : State :=
  let s1 := s.modBlk c (·.setCmd { k with state := .faulted })
  let s2 := match queue with
    | some q => s1.putResult c k q
    | none => s1
  s2.recordAsync c (!k.orphan) (k.frame cause va)

/-- A change of a signal by a signed amount, by an engine of core `who` or of the device: none where the VA does not translate or the change
leaves I64. The change carries the engine's stamp (R383). A poisoned word stays as it is (R181). -/
def State.engSignal (s : State) (i : Nat) (va : Word) (stamp : Nat) (new : Int → Int) (who : Nat := Config.numCores) : Except MemErr State :=
  match s.byteAt i .store (.va va) with
  | .error e => .error e.1
  | .ok (.phys pa) =>
    match s.pinHolder Config.numCores pa with
    | some k => .error (.pinned k pa)
    | none =>
      if s.poisonedIn pa 8 then .ok s
      else
        let x := new (s.homeWord pa).toInt
        if x < -(2 ^ 63) ∨ 2 ^ 63 ≤ x then .error (.cause .engineFault)
        else .ok ((((s.touchWalk i va).engTouch i pa who).homeWrite pa (leBytes 8 (BitVec.ofInt 64 x).toNat) 0 i).signalled pa stamp (.ofInt 64 x))
  | .ok _ => .ok s

/-- The clock of an engine ticks for a send. -/
def tickList (l : List Nat) (n : Nat) : List Nat := l.modify n fun x => (x + 1) % 2 ^ 48

/-- The release of a core's engine (0 copy, 1 matrix) advances its clock (R383); the stamp. -/
def State.engRelease (s : State) (c n : Nat) : State × Nat :=
  let s1 := s.modCore c fun k => { k with elclk := tickList k.elclk n }
  (s1, (s1.core c).elclk[n]?.getD 0)

/-! ## COPY, GATHER and SCATTER -/

/-- The handle that a command names, where it is allocated. -/
def Block.entry (b : Block) (n : Nat) : Option TileEntry := b.tiles[n]?.join

/-- ceil(a / b). -/
def ceilDiv (a b : Nat) : Nat := (a + b - 1) / b

/-- Bytes of a row of a handle (R329). -/
def TileEntry.rowBytes (e : TileEntry) : Nat := e.cols * e.t.bytes

/-- The line requests n of a copy command (R330). -/
def copyLines (op : Nat) (e : TileEntry) : Nat :=
  if op = 0 then ceilDiv (e.rows * e.cols * e.t.bytes) 128
  else e.rows * ceilDiv e.rowBytes 128 + ceilDiv (4 * e.rows) 128

/-- The promise of a copy command and the engine's new horizon (R330). -/
def promiseOf (cyc horizon op : Nat) (acq : Bool) (e : TileEntry) : Nat × Nat :=
  let h := max (cyc + 4) horizon + copyLines op e + (if acq then 220 else 0)
  (h + 640, h)

/-- A copy command issues (R327 to R330): op 0 COPY, 1 GATHER, 2 SCATTER. (DEDUCED, log 41: unsafe.) -/
def copyIssue (w : ArithWord) (op : Nat) (v : View) (s : State) (_ : Nat) (rs : List Reg) : Eff :=
  let a := rs[0]?.getD {}
  let x := rs[1]?.getD {}
  let b := rs[2]?.getD {}
  match (s.myBlk v).entry w.handle with
  | none => .error (raiseHandle v [(w.handle, false)])
  | some e =>
    if e.level = .acc then .error (raiseHandle v [(w.handle, false)])
    else match firstStop [vaErr v a (if op = 0 then e.t.bytes else 1), if op = 0 then none else vaErr v x 4,
        if w.tSig then vaErr v b 8 else none] with
      | some t => .error t
      | none =>
        let p := promiseOf s.cyc (s.core v.core).horizon op w.flagAcq e
        let k : Cmd := {
          seq := 0, unit := 0, pc := 0, engine := .copy, op := op, w := w, ops := [a.v, x.v, b.v], handles := [e]
          tag := some (w.c.toNat % 64), promise := p.1 }
        let s1 := (s.issueCmd v k).modCore v.core fun t => { t with horizon := p.2 }
        putReg v s1 w.d.toNat fun _ => mkReg (.ofNat 64 p.1) .n64

/-- COPY (R329). -/
def execCopy (w : ArithWord) (s : State) := issue (.copy w) w.head s
  (once [w.a.toNat, w.b.toNat] fun v s i rs => copyIssue w 0 v s i [rs[0]?.getD {}, {}, rs[1]?.getD {}])

/-- GATHER (R329): register A + 1 of a context that names k62 in A is k63, which pops the load-data queue, and one beyond k63 reads as
a register that holds nothing. (DESIGN CHOICE, log 87: unsafe.) -/
def execGather (w : ArithWord) (s : State) := issue (.gather w) w.head s
  (once [w.a.toNat, w.a.toNat + 1, w.b.toNat] (copyIssue w 1))

/-- SCATTER (R329): register A + 1 as in GATHER. (DESIGN CHOICE, log 87: unsafe.) -/
def execScatter (w : ArithWord) (s : State) := issue (.scatter w) w.head s
  (once [w.a.toNat, w.a.toNat + 1, w.b.toNat] (copyIssue w 2))

/-- n bytes at a VA as an engine reads them at the home slices, the bytes lying in one line; a pin refuses them (R159). -/
def State.engRead (s : State) (i : Nat) (va : Word) (n : Nat) : Except (MemErr × Word) Nat :=
  match s.byteAt i .load (.va va) with
  | .error e => .error e
  | .ok p => match s.placePin p with
    | some x => .error (.pinned x.1 x.2, va)
    | none => .ok (leNat (s.homeRead p.num n))

/-- The bytes of one row against a VA. -/
def State.rowMoves (s : State) (c : Nat) (b : Block) (e : TileEntry) (r : Nat) (base : Word) (out : Bool) : List Move :=
  (List.range e.cols).flatMap fun j => (List.range e.t.bytes).map fun k =>
    let t := ByteAt.place ((s.elemPlace c b e r j).plus k)
    let g := ByteAt.va (base + .ofNat 64 (j * e.t.bytes + k))
    if out then (t, g) else (g, t)

/-- What a copy command of the block of core c comes to (R329). -/
def State.copyMoves (s : State) (c : Nat) (b : Block) (k : Cmd) (e : TileEntry) : MoveAcc :=
  let a := k.ops[0]?.getD 0
  let x := k.ops[1]?.getD 0
  let rb := e.rowBytes
  (List.range e.rows).foldl (fun m r =>
    if k.op = 0 then
      (s.rowMoves c b e r (a + .ofNat 64 (r * rb)) (k.w.t.code % 2 == 1)).foldl (s.moveByte b.inst) m
    else match s.engRead b.inst (x + .ofNat 64 (4 * r)) 4 with
      | .error e => m.note e
      | .ok n =>
        let m := s.seeByte b.inst m (x + .ofNat 64 (4 * r))
        if a.toNat % 2 ^ 55 + (n + 1) * rb > 2 ^ 55 then { m with bad := m.bad ++ [a + .ofNat 64 (n * rb)] }
        else (s.rowMoves c b e r (a + .ofNat 64 (n * rb)) (k.op == 2)).foldl (s.moveByte b.inst) m) {}

/-- The slots of a unit that a copy command's token fires hold what their dispatch acquires (R167, R318): a firing joins those pending. -/
def ProgUnit.noteCopy (p : ProgUnit) (k : Cmd) : ProgUnit :=
  { p with slots := p.slots.mapIdx fun n e => e.map fun e =>
      if e.kind == .copy && k.tag == some e.num.toNat then
        let old := if p.evp.getLsbD n then e else { e with lines := [], scope := 0, stamp := 0 }
        { old with
          lines := old.lines ++ k.lines, scope := max old.scope (if k.w.flagRel then k.w.flagScope else 0), stamp := max old.stamp k.stamp }
      else e }

/-- The copy token of a command fires in its unit (R318). -/
def State.fireCopy (s : State) (c : Nat) (k : Cmd) : State :=
  if k.orphan then s.discardEvents c 1
  else (s.modUnit c k.unit (·.noteCopy k)).fireToken [(c, k.unit)] fun e => e.kind == .copy && k.tag == some e.num.toNat

/-- An acquire of a core's engine that names a signal reads it once at its home slice (R327); it is no receive of R383. -/
def State.engAcquire (s : State) (c : Nat) (b : Block) (k : Cmd) (sig : Option Word) : Except MemErr State :=
  match (if k.w.flagAcq then sig else none) with
  | none => .ok s
  | some va =>
    match s.byteAt b.inst .load (.va va) with
    | .error e => .error e.1
    | .ok p => match s.placePin p with
      | some x => .error (.pinned x.1 x.2)
      | none => .ok (s.touchMoves b.inst (s.seeByte b.inst {} va) c)

/-- The end of a core's engine command after its writes (R327, R330): the release, the signal's decrement, then the
completion itself. (DEDUCED, log 58: unsafe.) -/
def State.endCmd (s : State) (c : Nat) (b : Block) (k : Cmd) (n : Nat) (sig : Option Word) (queue : Nat) : Except MemErr (State × Cmd) :=
  let r := if k.w.flagRel then s.engRelease c n else (s, 0)
  let done : Cmd := { k with state := .done, stamp := r.2 }
  match (if k.w.flagRel then sig else none) with
  | none => .ok ((r.1.modBlk c (·.setCmd done)).putResult c done queue, done)
  | some va =>
    match r.1.engSignal b.inst va r.2 (· - 1) c with
    | .error e => .error e
    | .ok s1 => .ok ((s1.modBlk c (·.setCmd done)).putResult c done queue, done)

/-- The oldest command of an engine that has not completed. -/
def Block.oldest (b : Block) (e : Engine) : Option Cmd :=
  (b.cmds.filter fun k => k.engine == e && !k.finished).getLast?

/-- One of the VAs that failed, left open (R328, log 13). -/
def pickBad (seq : Nat) (l : List Word) : Word := l[Config.choose seq % l.length]?.getD 0

/-- Whether a store that unit u of a core has committed still travels: an engine command of the unit waits for it (R167). -/
def State.unitTravels (s : State) (c u : Nat) : Bool := (s.core c).travel.any fun t => t.unit == u

/-- The entry that a command of a block finds for handle n as it works: the one that it named at its issue, but for a level-1 handle of a
mate, which may have been freed since and allocated again (R205, R209). -/
def Block.liveEntry (b : Block) (n : Nat) (e : TileEntry) : Option TileEntry :=
  if e.level = .cell ∧ e.owner ≠ b.bidx then b.entry n else some e

/-- COPY_COMPLETE (R328 to R330): the oldest copy command of a core works and completes. It waits while a pinned line
refuses it, a store of its core to a pinned line still travels (R167), or its result queue is full. A handle that its owner has freed
ends it with TILE_HANDLE (R205, R209). (DEDUCED, log 101: unsafe.) -/
def copyDone (c : Nat) (s : State) : Host.Outcome State Fault Refusal :=
  match s.blk c with
  | none => .next s
  | some b =>
    match b.oldest .copy with
    | none => .next s
    | some k =>
      let s0 := s.landAll c
      match k.handles.head?.bind (b.liveEntry k.w.handle) with
      | none => .next (if s0.resultRoom c k 0 then s0.failCmd c k (some 0) .tileHandle 0 else s0)
      | some e =>
        let sig := if k.w.tSig then some (k.ops[2]?.getD 0) else none
        let m := s0.copyMoves c b k e
        match m.fault, m.pin with
        | some f, _ => .fault f
        | none, some p => .next (s.markRefused p.1 p.2)
        | none, none =>
          if s0.unitTravels c k.unit || !s0.resultRoom c k 0 then .next s0
          else
            let fail (t : State) (va : Word) : Host.Outcome State Fault Refusal := .next (t.failCmd c k (some 0) .engineFault va)
            match s0.engAcquire c b k sig with
            | .error (.fault f) => .fault f
            | .error (.pinned p l) => .next (s.markRefused p l)
            | .error (.cause _) => fail s0 (sig.getD 0)
            | .ok s1 =>
              if !m.bad.isEmpty then fail (s1.applyMoves b.inst (m.landed k.seq) c) (pickBad k.seq m.bad)
              else
                let k1 := { k with lines := moveLines (m.writes.map (·.1)) }
                let s2 := (s1.applyMoves b.inst m c).count c 0x50 1
                match s2.endCmd c b k1 0 sig 0 with
                | .error (.fault f) => .fault f
                | .error (.pinned p l) => .next (s.markRefused p l)
                | .error (.cause _) => fail s2 (sig.getD 0)
                | .ok r => .next (r.1.fireCopy c r.2)

/-- COPY_COMPLETE (R330). -/
def execCopyComplete (core : Nat) (s : State) : Host.Outcome State Fault Refusal :=
  if Config.numCores ≤ core then .fault .badPlace else copyDone core s

/-! ## COLL -/

/-- The fields of a COLL descriptor (R331). -/
structure CollDesc where
  op : Nat
  t : Ty
  id : Nat
  parts : Nat
  n : Nat
  deriving DecidableEq, Repr

/-- The descriptor of a word. -/
def collDesc (c : Word) : CollDesc :=
  { op := bits c.toNat 45 44, t := .ofCode (bits c.toNat 43 40), id := bits c.toNat 39 32, parts := bits c.toNat 31 24, n := bits c.toNat 23 0 }

/-- A descriptor that R331 allows. -/
def CollDesc.legal (d : CollDesc) (c : Word) : Bool :=
  decide (d.op ≤ 2) && (d.t == .i32 || d.t == .i64 || d.t.isScalarFloat) && decide (1 ≤ d.parts) && decide (d.parts ≤ 192)
    && decide (1 ≤ d.n) && decide (c.toNat < 2 ^ 46)

/-- COLL (R331). -/
def execColl (w : ArithWord) (s : State) := issue (.coll w) w.head s
  (once [w.a.toNat, w.b.toNat, w.b.toNat + 1, w.c.toNat] fun v s _ rs =>
    let a := rs[0]?.getD {}
    let b := rs[1]?.getD {}
    let g := rs[2]?.getD {}
    let c := rs[3]?.getD {}
    let d := collDesc c.v
    if !d.legal c.v then .error (raiseSel v .illegalOp)
    else match firstStop [vaErr v a d.t.bytes, vaErr v b d.t.bytes, if w.tSig then vaErr v g 8 else none] with
      | some t => .error t
      | none =>
        let k : Cmd := { seq := 0, unit := 0, pc := 0, engine := .coll, op := 0, w := w, ops := [a.v, b.v, g.v, c.v] }
        putReg v (s.issueCmd v k) w.d.toNat fun _ => mkReg (.ofNat 64 (s.myBlk v).seq) .n64)

/-- The lines that a read of n bytes by an engine of core `who`, or by a port or a collective engine, fills at the home slices (R395). -/
def State.touchPort (s : State) (i : Nat) (va : Word) (n : Nat) (who : Nat := Config.numCores) : State :=
  s.touchMoves i ((List.range n).foldl (fun m j => s.seeByte i m (va + .ofNat 64 j)) {}) who

/-- n elements of type t read by an engine at a VA, or why a read fails. -/
def State.engElems (s : State) (i : Nat) (va : Word) (t : Ty) (n : Nat) : Except (MemErr × Word) (List Word) :=
  (List.range n).foldr (fun j acc =>
    match s.engRead i (va + .ofNat 64 (j * t.bytes)) t.bytes with
    | .error e => .error e
    | .ok x => acc.map (.ofNat 64 x :: ·)) (.ok [])

/-- One element combined (R331): integers wrap, floats round to nearest-even with no flags. -/
def collCombine (d : CollDesc) (x y : Word) : Word :=
  match d.op with
  | 0 => (combine 0 d.t 0 x y).1
  | 1 => (combine 1 d.t 0 x y).1
  | _ => (combine 2 d.t 0 x y).1

/-- The bytes of a collective's result against a VA, as writes; the VAs that fail. -/
def State.collWrites (s : State) (i : Nat) (va : Word) (t : Ty) (xs : List Word) : MoveAcc :=
  (xs.zipIdx.flatMap fun x => ((storeBytes t x.1).zipIdx).map fun y =>
    (va + .ofNat 64 (x.2 * t.bytes + y.2), y.1)).foldl (s.putByte i) {}

/-- The clock of a die's engine (0 collective, 1 peer port) ticks for its release; the stamp (R383). -/
def State.dieRelease (s : State) (die n : Nat) : State × Nat :=
  let s1 := { s with dies := s.dies.modify die fun d => { d with elclk := tickList d.elclk n } }
  (s1, ((s1.dies[die]?.getD {}).elclk[n]?.getD 0))

/-- The die whose collective engine serves an ID: ID mod D, D being the number of dies of the instance (R331). -/
def State.collDie (s : State) (i id : Nat) : Nat := if s.dev.part = 0 then id % Config.numDies else i

/-- A contributor's result is written and its command completes (R331). -/
def State.collFinish (s : State) (x : Coll) (d : CollDesc) (p : Nat × Cmd) : State :=
  let k := p.2
  let m := s.collWrites x.inst (k.ops[1]?.getD 0) d.t x.acc
  let fail (t : State) (va : Word) : State := t.failCmd p.1 k none .engineFault va
  if !m.bad.isEmpty then fail (s.applyMoves x.inst (m.landed k.seq)) (pickBad k.seq m.bad)
  else
    let s1 := s.applyMoves x.inst m
    let r := if k.w.flagRel then s1.dieRelease (s1.collDie x.inst d.id) 0 else (s1, 0)
    let fin (t : State) : State := t.modBlk p.1 (·.setCmd { k with state := .done, stamp := r.2 })
    if k.w.flagRel && k.w.tSig then
      match r.1.engSignal x.inst (k.ops[2]?.getD 0) r.2 (· - 1) with
      | .ok t => fin t
      | .error _ => fail r.1 (k.ops[2]?.getD 0)
    else fin r.1

/-- An acquire of COLL that names a signal reads it once at its home slice (R327, R331). -/
def State.collAcquire (s : State) (i : Nat) (k : Cmd) : Except (MemErr × Word) State :=
  let va := k.ops[2]?.getD 0
  if !(k.w.flagAcq && k.w.tSig) then .ok s
  else match s.byteAt i .load (.va va) with
    | .error e => .error e
    | .ok p => match s.placePin p with
      | some x => .error (.pinned x.1 x.2, va)
      | none => .ok (s.touchMoves i (s.seeByte i {} va))

/-- The pin in the way of a contributor's result or of its signal (R159). -/
def State.collPin (s : State) (x : Coll) (d : CollDesc) (p : Nat × Cmd) : Option (Nat × Nat) :=
  let k := p.2
  let sig := if k.w.flagRel && k.w.tSig then (s.putByte x.inst {} (k.ops[2]?.getD 0, 0)).pin else none
  (s.collWrites x.inst (k.ops[1]?.getD 0) d.t x.acc).pin.orElse fun _ => sig

/-- COLL_ARRIVAL (R331): the oldest waiting contribution of a core reaches the engine of die ID mod D and is combined;
the last one writes the result to every contributor, in arrival order. It comes after the stores that its unit has committed (R167). -/
def collArrive (c : Nat) (s : State) : Host.Outcome State Fault Refusal :=
  match s.blk c with
  | none => .next s
  | some b =>
    match (b.cmds.filter fun k => k.engine == .coll && k.state == .waiting).getLast? with
    | none => .next s
    | some k =>
      let d := collDesc (k.ops[3]?.getD 0)
      let sl := s.landAll c
      if sl.unitTravels c k.unit then .next sl
      else match (sl.collAcquire b.inst k).bind fun t => (t.engElems b.inst (k.ops[0]?.getD 0) d.t d.n).map fun xs => (t, xs) with
      | .error (.fault f, _) => .fault f
      | .error (.pinned p l, _) => .next (sl.markRefused p l)
      | .error (.cause _, va) => .next (sl.failCmd c k none .engineFault va)
      | .ok (t, xs) =>
        let s0 := t.touchPort b.inst (k.ops[0]?.getD 0) (d.n * d.t.bytes)
        let same := fun (x : Coll) => x.inst == b.inst && x.launch == b.launch && x.id == .ofNat 64 d.id
        let k1 := { k with state := .running }
        let old := s0.colls.find? same
        let first := (old.bind fun x => x.parts.head?).map fun p => collDesc (p.2.ops[3]?.getD 0)
        if (match first with | some e => e != d | none => false) then
          .next (s0.failCmd c k none .engineFault (k.ops[0]?.getD 0))
        else
          let x : Coll := match old with
            | none => { inst := b.inst, launch := b.launch, id := .ofNat 64 d.id, parts := [(c, k1)], acc := xs }
            | some o => { o with parts := o.parts ++ [(c, k1)], acc := (o.acc.zip xs).map fun e => collCombine d e.1 e.2 }
          let s1 := s0.modBlk c (·.setCmd k1)
          let rest := s1.colls.filter fun o => !same o
          if x.parts.length < d.parts then .next { s1 with colls := x :: rest }
          else
            match x.parts.findSome? (s1.collPin x d) with
            | some p => .next (sl.markRefused p.1 p.2)
            | none => .next (x.parts.foldl (fun s p => s.collFinish x d p) { s1 with colls := rest })

/-- COLL_ARRIVAL (R331). -/
def execCollArrival (core : Nat) (s : State) : Host.Outcome State Fault Refusal :=
  if Config.numCores ≤ core then .fault .badPlace else collArrive core s

/-! ## Peer commands -/

/-- LEN of a peer descriptor (R332). -/
def peerLen (c : Word) : Nat := c.toNat % 2 ^ 30

/-- The offset (dx, dy) of a peer descriptor. -/
def peerOff (c : Word) : Int × Int := (((c >>> 32).setWidth 8).toInt, ((c >>> 40).setWidth 8).toInt)

/-- The checks of a peer command (R332): tags, alignment, the descriptor. -/
def peerErr (v : View) (vas : List Reg) (sig : Option Reg) (c : Reg) (lo hi : Nat) : Option Stop :=
  let z := bits c.v.toNat 31 30 != 0 || bits c.v.toNat 63 48 != 0
  firstStop ((vas.map fun r => vaErr v r 8) ++ [sig.bind fun r => vaErr v r 8,
    if peerLen c.v < lo ∨ hi < peerLen c.v ∨ z then some (raiseSel v .illegalOp) else none,
    if peerLen c.v % 8 ≠ 0 then some (raiseSel v .misaligned c.v) else none])

/-- A peer command issues; D receives its sequence number (R332). -/
def peerIssue (w : ArithWord) (op : Nat) (v : View) (s : State) (rs : List Reg) : Eff :=
  let k : Cmd := { seq := 0, unit := 0, pc := 0, engine := .peer, op := op, w := w, ops := rs.map (·.v) }
  putReg v (s.issueCmd v k) w.d.toNat fun _ => mkReg (.ofNat 64 (s.myBlk v).seq) .n64

/-- PEERWR and PEERRD. -/
def peerMove (w : ArithWord) (op : Nat) (v : View) (s : State) (_ : Nat) (rs : List Reg) : Eff :=
  let a := rs[0]?.getD {}
  let b := rs[1]?.getD {}
  let g := rs[2]?.getD {}
  let c := rs[3]?.getD {}
  match peerErr v [a, b] (if w.tSig then some g else none) c 8 (2 ^ 30) with
  | some t => .error t
  | none => peerIssue w op v s [a, b, g, c]

/-- PEERWR (R332). -/
def execPeerwr (w : ArithWord) (s : State) := issue (.peerwr w) w.head s
  (once [w.a.toNat, w.b.toNat, w.b.toNat + 1, w.c.toNat] (peerMove w 0))

/-- PEERRD (R332). -/
def execPeerrd (w : ArithWord) (s : State) := issue (.peerrd w) w.head s
  (once [w.a.toNat, w.b.toNat, w.b.toNat + 1, w.c.toNat] (peerMove w 1))

/-- PEERSIG (R332). -/
def execPeersig (w : ArithWord) (s : State) := issue (.peersig w) w.head s
  (once [w.a.toNat, w.b.toNat, w.c.toNat] fun v s _ rs =>
    let a := rs[0]?.getD {}
    let b := rs[1]?.getD {}
    let c := rs[2]?.getD {}
    if !countTag a.tag then .error (raiseSel v .tagMismatch)
    else match peerErr v [b] none c 0 0 with
      | some t => .error t
      | none => peerIssue w 2 v s [a, b, {}, c])

/-- n bytes read by a port at the home slices of an instance; a pin refuses them (R159). -/
def State.portRead (s : State) (i : Nat) (va : Word) (n : Nat) : Except (MemErr × Word) (List Byte) :=
  (List.range n).foldr (fun j acc =>
    let a := va + .ofNat 64 j
    match s.byteAt i .load (.va a) with
    | .error e => .error e
    | .ok p => match s.placePin p with
      | some x => .error (.pinned x.1 x.2, a)
      | none => acc.map ((s.engByte p).1 :: ·)) (.ok [])

/-- A payload as writes from a VA up. -/
def State.portWrites (s : State) (i : Nat) (va : Word) (bs : List Byte) : MoveAcc :=
  (bs.zipIdx.map fun x => (va + .ofNat 64 x.2, x.1)).foldl (s.putByte i) {}

/-- The instance that a die's ports serve (R372). -/
def State.instOfDie (s : State) (d : Nat) : Nat := if s.dev.part = 0 then 0 else d

/-- SIGNAL's change as I64 (R190, R332): op 0 add, 1 subtract, 2 set. -/
def peerChange (op : Nat) (amount x : Int) : Int :=
  match op with
  | 0 => x + amount
  | 1 => x - amount
  | _ => amount

/-- A port receives a message with a stamp (R383). -/
def State.portRecv (s : State) (die stamp : Nat) : State :=
  { s with dies := s.dies.modify die fun d => { d with elclk := d.elclk.modify 1 fun x => (max x stamp + 1) % 2 ^ 48 } }

/-- PEER RECEIVE (R169): the payload at the home slices, a device-scope release, then the signal's change. `stamp` is the
message's. -/
def State.peerLand (s : State) (die : Nat) (va : Word) (bs : List Byte) (signal : Option Word) (op : Nat) (amount : Int)
    (stamp : Nat) : Except (MemErr × Word) State :=
  let i := s.instOfDie die
  let m := s.portWrites i va bs
  match m.fault, m.pin, m.bad with
  | some f, _, _ => .error (.fault f, va)
  | none, some p, _ => .error (.pinned p.1 p.2, va)
  | none, none, a :: _ => .error (.cause .peerFault, a)
  | none, none, [] =>
    let r := ((s.applyMoves i m).portRecv die stamp).dieRelease die 1
    match signal with
    | none => .ok r.1
    | some g => match r.1.engSignal i g r.2 (peerChange op amount) with
      | .ok t => .ok t
      | .error e => .error (e, g)

/-- The payload that a command's port sends (R332): PEERWR's LEN bytes at A. -/
def State.peerPayload (s : State) (i : Nat) (k : Cmd) : Except (MemErr × Word) (List Byte) :=
  if k.op = 0 then s.portRead i (k.ops[0]?.getD 0) (peerLen (k.ops[3]?.getD 0)) else .ok []

/-- The oldest command of a unit to one device that has not completed, of the commands of a block (R333). -/
def Block.peerHead (b : Block) (seq : Nat) : Option Cmd :=
  match b.cmds.find? fun k => k.seq == seq && k.engine == .peer && !k.finished with
  | none => none
  | some k =>
    let towards := fun (x : Cmd) => peerOff (x.ops[3]?.getD 0)
    if b.cmds.any fun x => x.engine == .peer && !x.finished && x.unit == k.unit && decide (x.seq < seq) && towards x == towards k
    then none else some k

/-- A peer command ends done: PEERSIG's number goes to a context's collective queue (R332). -/
def State.peerDone (s : State) (c : Nat) (k : Cmd) : State :=
  let s1 := s.modBlk c (·.setCmd { k with state := .done })
  if k.op = 2 then s1.putResult c k 2 else s1

/-- A peer command ends with PEER_FAULT or LINK_DOWN (R332): kind 2. -/
def State.peerFail (s : State) (c : Nat) (k : Cmd) (cause : Cause) : State :=
  s.failCmd c k (if k.op = 2 then some 2 else none) cause (k.ops[1]?.getD 0)

/-- Whether an offset leaves the system's rectangle (R373, R374). -/
def State.offRectangle (s : State) (o : Int × Int) : Bool :=
  let x := (s.dev.x : Int) + o.1
  let y := (s.dev.y : Int) + o.2
  decide (x < 0) || decide ((s.dev.rectW : Int) ≤ x) || decide (y < 0) || decide ((s.dev.rectH : Int) ≤ y)

/-- The port by which a flit for an offset leaves (R373): the lowest-numbered one whose link is up and whose neighbour
reduces |dx|, or, once dx = 0, |dy|. -/
def State.portToward (s : State) (o : Int × Int) : Option Nat :=
  (List.range 16).find? fun k =>
    let f := Config.portFar k
    (s.ports[k]?.getD {}).up &&
      (if o.1 ≠ 0 then decide ((o.1 - f.1).natAbs < o.1.natAbs) else decide ((o.2 - f.2).natAbs < o.2.natAbs))

/-- A fault of a peer command told apart: PEER_FAULT at the far end, ENGINE_FAULT at this one (R328, R332). -/
def asCause {α : Type} (cause : Cause) : Except (MemErr × Word) α → Except (MemErr × Word) α
  | .error (.cause _, va) => .error (.cause cause, va)
  | x => x

/-- The effect of a command on this device's own memory, reached through its own port, which sends and receives each of its messages (R332,
R383). A signal of PEERWR that a
decrement would carry below I64 is an ENGINE_FAULT (R328). -/
def State.peerSelf (s : State) (c : Nat) (i : Nat) (k : Cmd) : Except (MemErr × Word) State :=
  let o := fun n => k.ops[n]?.getD 0
  let die := dieOf c
  let sent := s.dieRelease die 1
  let t := sent.1
  let stamp := sent.2
  let sig := if k.w.tSig then some (o 2) else none
  match k.op with
  | 0 => (asCause .engineFault (s.portRead i (o 0) (peerLen (o 3)))).bind fun bs =>
    match (t.touchPort i (o 0) (peerLen (o 3))).peerLand die (o 1) bs sig 1 1 stamp with
    | .error (.cause .engineFault, va) => .error (.cause .engineFault, va)
    | r => asCause .peerFault r
  | 1 => (asCause .peerFault (s.portRead i (o 1) (peerLen (o 3)))).bind fun bs =>
    let answer := (t.portRecv die stamp).dieRelease die 1
    asCause .engineFault ((answer.1.touchPort i (o 1) (peerLen (o 3))).peerLand die (o 0) bs sig 1 1 answer.2)
  | _ => asCause .peerFault (t.peerLand die (o 1) [] (some (o 1)) k.w.sub.toNat (o 0).toInt stamp)

/-- The bytes of a payload that PEERRD wrote before a fault at this end stopped it (R328; DESIGN CHOICE, log 13). -/
def State.peerPart (s : State) (i : Nat) (k : Cmd) (payload : List Byte) : State :=
  if k.op = 1 then s.applyMoves i ((s.portWrites i (k.ops[0]?.getD 0) payload).landed k.seq) else s

/-- PEER_ACK (R333): a command to another device completes as the peer answers; PEERRD's payload is written as a peer
receive (R332). What it sends leaves with a stamp, and the answer carries one that is open (R383). (DESIGN CHOICE, log 18: unsafe.) One to this device itself takes its effect here. A local fault is an ENGINE_FAULT (R328). -/
def peerAnswer (c seq : Nat) (status : PeerStatus) (payload : List Byte) (s : State) : Host.Outcome State Fault Refusal :=
  match s.blk c with
  | none => .next s
  | some b =>
    match b.peerHead seq with
    | none => .next s
    | some k =>
      let s0 := s.landAll c
      let off := peerOff (k.ops[3]?.getD 0)
      if !s0.resultRoom c k 2 || s0.unitTravels c k.unit then .next s0
      else if s0.offRectangle off then .next (s0.peerFail c k .peerFault)
      else
        let local_ := off == (0, 0)
        if s0.closed.contains off || (!local_ && (status == .linkDown || (s0.portToward off).isNone)) then
          .next (s0.peerFail c k .linkDown)
        else
        let sig := if k.w.tSig then some (k.ops[2]?.getD 0) else none
        let bytes := payload.take (peerLen (k.ops[3]?.getD 0))
        let own := (s0.portRead b.inst (k.ops[1]?.getD 0) (peerLen (k.ops[3]?.getD 0))).toOption.getD []
        let r := if local_ then s0.peerSelf c b.inst k
          else if status == .remoteFault then .error (.cause .peerFault, k.ops[1]?.getD 0)
          else match asCause .engineFault (s0.peerPayload b.inst k) with
            | .error e => .error e
            | .ok bs =>
              let s2 := if k.op = 0 then s0.touchPort b.inst (k.ops[0]?.getD 0) (peerLen (k.ops[3]?.getD 0)) else s0
              let t := s2.dieRelease (dieOf c) 1
              let s3 := { t.1 with peerOut := t.1.peerOut ++
                [{ die := dieOf c, core := c, seq := seq, words := k.ops ++ [.ofNat 64 k.op, k.w.sub.setWidth 64, .ofNat 64 t.2], payload := bs }] }
              if k.op = 1 then asCause .engineFault (s3.peerLand (dieOf c) (k.ops[0]?.getD 0) bytes sig 1 1 (Config.peerStamp s.fresh).toNat)
              else .ok s3
        match r with
        | .error (.fault f, _) => .fault f
        | .error (.pinned p l, _) => .next (s.markRefused p l)
        | .error (.cause e, va) =>
          .next (if e = .peerFault then s0.peerFail c k .peerFault
            else (s0.peerPart b.inst k (if local_ then own else bytes)).failCmd c k (if k.op = 2 then some 2 else none) .engineFault va)
        | .ok t => .next (t.peerDone c k)

/-- PEER_ACK (R333). -/
def execPeerAck (core seq : Nat) (status : PeerStatus) (payload : List Byte) (s : State) : Host.Outcome State Fault Refusal :=
  if Config.numCores ≤ core then .fault .badPlace else peerAnswer core seq status payload s

/-- LINK_DOWN (R373): a connection with no route, or with no progress for 1 ms, ends its command. -/
def execLinkDown (core seq : Nat) (s : State) : Host.Outcome State Fault Refusal :=
  if Config.numCores ≤ core then .fault .badPlace
  else match (s.blk core).bind (·.peerHead seq) with
    | none => .next s
    | some k => if s.resultRoom core k 2 then .next (s.peerFail core k .linkDown) else .next s

/-- PEER_RECEIVE (R169): a payload from another device, whose stamp is open (R383). A fault is answered to the sender, and nothing is
written. (DESIGN CHOICE, log 18: unsafe.) -/
def execPeerReceive (die : Nat) (va : Word) (payload : List Byte) (signal : Option Word) (op : BitVec 2) (amount : Word)
    (s : State) : Host.Outcome State Fault Refusal :=
  if Config.numDies ≤ die then .fault .badPlace
  else match s.peerLand die va payload signal op.toNat amount.toInt (Config.peerStamp s.fresh).toNat with
    | .ok t => .next t
    | .error (.fault f, _) => .fault f
    | .error (.pinned p l, _) => .next (s.markRefused p l)
    | .error (.cause _, _) => .next s

/-- PEER_READ_REQUEST (R332): the bytes read at the home slices leave for the sender, with a stamp (R383); the request's own is open.
(DESIGN CHOICE, log 18: unsafe.) -/
def execPeerReadRequest (die : Nat) (va : Word) (len : Nat) (s : State) : Host.Outcome State Fault Refusal :=
  if Config.numDies ≤ die then .fault .badPlace
  else match s.portRead (s.instOfDie die) va len with
    | .error (.fault f, _) => .fault f
    | .error (.pinned p l, _) => .next (s.markRefused p l)
    | r =>
      let bs := r.toOption.getD []
      let t := (((s.touchPort (s.instOfDie die) va len).portRecv die (Config.peerStamp s.fresh).toNat)).dieRelease die 1
      .next { t.1 with peerOut := t.1.peerOut ++
        [{ die := die, core := 0, seq := 0, words := [va, .ofNat 64 len, if r.toOption.isSome then 0 else 1, .ofNat 64 t.2], payload := bs }] }

/-- LINK_FLIT_REPLAY (R373): the link sends the flit again; nothing that a unit sees changes. -/
def execLinkFlitReplay (port : Nat) (s : State) : Host.Outcome State Fault Refusal :=
  if 16 ≤ port then .fault .badPlace
  else .next { s with ports := s.ports.modify port fun p => { p with replays := p.replays + 1 } }

/-- PEER_LINK_CHANGE (R373): a port's link goes up or down. -/
def execPeerLinkChange (port : Nat) (up : Bool) (s : State) : Host.Outcome State Fault Refusal :=
  if 16 ≤ port then .fault .badPlace
  else .next { s with ports := s.ports.modify port fun p => { p with up := up } }


/-- PEER_FLIT_FORWARD (R373): a flit for an offset leaves by a port, in x first and then in y. -/
def execPeerFlitForward (dx dy : Int) (flit : List Byte) (s : State) : Host.Outcome State Fault Refusal :=
  match s.portToward (dx, dy) with
  | none => .next s
  | some p => .next { s with ports := s.ports.modify p fun q => { q with flits := q.flits ++ [flit] } }

/-- PEER_CONNECTION_CLOSE (R375): later commands to that device raise LINK_DOWN. -/
def execPeerConnectionClose (dx dy : Int) (s : State) : Host.Outcome State Fault Refusal :=
  .next (if s.closed.contains (dx, dy) then s else { s with closed := s.closed ++ [(dx, dy)] })

/-! ## CMDSTAT -/

/-- The code of an engine in CMDSTAT's word. -/
def Engine.code : Engine → Nat
  | .copy => 0
  | .matrix => 1
  | .coll => 2
  | .peer => 3

/-- The CMDSTAT word of a command (R334). -/
def Cmd.word (k : Cmd) : Word :=
  .ofNat 64 (2 ^ 63 + (if k.finished then 2 ^ 62 else 0) + (if k.state == .faulted then 2 ^ 61 else 0) + k.engine.code * 2 ^ 58
    + k.promise % 2 ^ 48)

/-- A command that the block still knows: one of the last 256 (R334). -/
def Block.known (b : Block) (k : Cmd) : Bool := decide (b.seq ≤ k.seq + 256)

/-- The unit's most recent copy command with a tag. -/
def Block.tagged (b : Block) (unit tag : Nat) : Option Cmd :=
  b.cmds.find? fun k => k.engine == .copy && k.unit == unit && !k.orphan && k.tag == some tag

/-- The issuing unit's block with its commands as an instruction reads them: in a bundle, as they stood before it (R31, R392). -/
def State.cmdBlk (s : State) (v : View) : Block :=
  match s.bundle with
  | some x => { s.myBlk v with cmds := x.preCmds, seq := x.preSeq }
  | none => s.myBlk v

/-- CMDSTAT (R334). (DEDUCED, log 37: unsafe.) -/
def execCmdstat (w : ArithWord) (s : State) := issue (.cmdstat w) w.head s fun v s =>
  let b := s.cmdBlk v
  let word (k : Option Cmd) : Word := match k with
    | some k => if b.known k then k.word else 0
    | none => 0
  if w.sub = 1 then putReg v s w.d.toNat fun _ => mkReg (word (b.tagged v.unit (w.x.toNat % 64))) .n64
  else match fetch v s [w.a.toNat] with
    | .error e => .error e
    | .ok (s1, pops) => putReg v s1 w.d.toNat fun i =>
        mkReg (word (b.cmds.find? fun k => k.seq == (v.src (pops.head?.getD none) w.a.toNat i).v.toNat)) .n64

end Sys2Proof.Machine
end

