-- ==== Sys2Proof/Machine/Events.lean ====
section
/-! DEFINITION. Event slots and tokens: EVBIND, EVUNBIND, EVMASK, EVPEND, EVCLR, WAITANY (R317 to R323), SEND and MBREAD
(R324, R325), SLEEPUNTIL (R326), NEXTTILE and SQPUSH (R335, R336, R304, R305), and the events of their tokens. -/

namespace Sys2Proof

/-- The guard and cluster of EVBIND's two encodings (R321). -/
def EvBindWord.head (w : EvBindWord) : Machine.Head :=
  match w with
  | .word g .. => { g := g }
  | .syl w => w.head

end Sys2Proof

namespace Sys2Proof.Machine

/-! ## EVBIND and the slot instructions -/

/-- A binding that EVBIND asks for: slot, kind code, value register's or field's value, handler, threshold. -/
structure BindReq where
  slot : Nat
  kind : Nat
  num : Word
  handler : Word
  thresh : Word

/-- The token kind of a code (R318). -/
def tokenOf : Nat → Token
  | 0 => .barrier
  | 1 => .copy
  | 2 => .mbox
  | 3 => .signal
  | _ => .timer

/-- A bundle notes that it binds or frees a slot: a firing of its cycle meets the binding as it stood before (R338). -/
def State.rebind (s : State) (n : Nat) : State :=
  { s with bundle := s.bundle.map fun b => { b with rebound := b.rebound ||| BitVec.twoPow 8 n } }

/-- Whether the bundle that issues has bound or freed a slot. -/
def State.rebound (s : State) (n : Nat) : Bool := (s.bundle.map fun b => b.rebound.getLsbD n).getD false

/-- The slot written, its EVP bit cleared and, where the condition holds already, set (R321). A pending bit that is
dropped is discarded (R320). -/
def State.putSlot (s : State) (v : View) (n : Nat) (e : EventSlot) (now : Bool) : State :=
  let s1 := if (s.me v).evp.getLsbD n then s.discardEvents v.core 1 else s
  let bit := BitVec.twoPow 8 n
  (s1.rebind n).modU v fun u => { u with
    slots := u.slots.set n (some { e with fired := now && e.kind == .timer })
    evp := (u.evp &&& ~~~bit) ||| (if now then bit else 0) }

/-- Whether a handler lies in the 2^27 bytes from the code base (R321). -/
def State.handlerOk (s : State) (v : View) (h : Word) : Bool := decide ((h - (s.rcd (s.myBlk v)).code).toNat < 2 ^ 27)

/-- Whether a mailbox of a core holds a message: in a bundle, as before it (R31, R392). -/
def State.hasMail (s : State) (c box : Nat) : Bool :=
  match s.bundle with
  | some b => b.preMail[box]?.getD 0 != 0
  | none => s.mailCount c box != 0

/-- A binding is made (R318, R321); a signal's word is read at its home slice, in a bundle as it stood before it (R31). -/
def bindSlot (v : View) (s : State) (r : BindReq) : Eff :=
  if !s.handlerOk v r.handler then .error (raiseSel v .illegalOp)
  else
    let e : EventSlot := { kind := tokenOf r.kind, num := r.num, handler := r.handler, thresh := (r.thresh.setWidth 32).signExtend 64 }
    match e.kind with
    | .signal =>
      if r.num.toNat % 8 ≠ 0 then .error (raiseSel v .misaligned r.num)
      else match s.translate v.core .load r.num with
        | .error (.cause c) => .error (raiseSel v c r.num)
        | .error (.fault f) => .error (.fault f)
        | .error (.pinned k l) => .error (.park (pinWait s k l) (s.markRefused k l))
        | .ok pa =>
          let s := s.fillTlb v.core r.num
          match s.pinHolder v.core pa with
          | some k => .error (.park (pinWait s k pa) (s.markRefused k pa))
          | none =>
            let s1 := (s.landLine v.core pa).requestL2 v.core pa 0 false
            if s1.poisonedIn pa 8 then .error (raiseSel v .poisonData r.num)
            else
              let x := s1.preWord pa
              .ok (s1.putSlot v r.slot { e with gen := pa, seen := x } (decide (x.toInt ≤ e.thresh.toInt)))
    | .mbox => .ok (s.putSlot v r.slot e (s.hasMail v.core r.num.toNat))
    | .timer => .ok (s.putSlot v r.slot e (decide (r.num.toNat ≤ s.cyc)))
    | _ => .ok (s.putSlot v r.slot e false)

/-- EVBIND in a warp (R321): values 0 to 2 stand in X, the others in registers. -/
def bindWord (slot kind : Nat) (off : BitVec 20) (x : BitVec 8) (v : View) (s : State) : Eff :=
  let h := branchTarget v.addr off
  if kind < 3 then
    if v.sel = 0 then .ok s else bindSlot v s { slot := slot, kind := kind, num := x.setWidth 64, handler := h, thresh := 0 }
  else once [x.toNat % 128, x.toNat % 128 + 1] (fun v s _ rs =>
    let a : Reg := rs[0]?.getD {}
    let t : Reg := rs[1]?.getD {}
    if !baseTag a.tag || (kind == 3 && !countTag t.tag) then .error (raiseSel v .tagMismatch)
    else bindSlot v s { slot := slot, kind := kind, num := a.v, handler := h, thresh := if kind = 3 then t.v else 0 }) v s

/-- EVBIND in a cluster slot (R321). -/
def bindSyl (w : ArithWord) : View → State → Eff :=
  once [w.a.toNat, w.b.toNat, w.c.toNat] fun v s _ rs =>
    let a : Reg := rs[0]?.getD {}
    let b : Reg := rs[1]?.getD {}
    let c : Reg := rs[2]?.getD {}
    let kind := w.x.toNat % 8
    let top := match kind with | 0 => 32 | 1 | 2 => 64 | _ => 2 ^ 64
    if !baseTag a.tag || (decide (3 ≤ kind) && !baseTag b.tag) || (kind == 3 && !countTag c.tag) then .error (raiseSel v .tagMismatch)
    else if a.v.toNat % 8 ≠ 0 then .error (raiseSel v .misaligned a.v)
    else if top ≤ b.v.toNat then .error (raiseSel v .illegalOp)
    else bindSlot v s { slot := w.sub.toNat % 8, kind := kind, num := b.v, handler := a.v, thresh := if kind = 3 then c.v else 0 }

/-- EVBIND (R321). -/
def execEvbind (w : EvBindWord) (s : State) := issue (.evbind w) w.head s fun v s =>
  match w with
  | .word _ slot kind off _ _ x => bindWord slot.toNat kind.toNat off x v s
  | .syl w => bindSyl w v s

/-- EVUNBIND (R322): a pending bit is discarded. -/
def execEvunbind (w : ArithWord) (s : State) := issue (.evunbind w) w.head s fun v s =>
  if v.sel = 0 then .ok s
  else
    let n := w.x.toNat % 8
    let s1 := if (s.me v).evp.getLsbD n then s.discardEvents v.core 1 else s
    .ok ((s1.rebind n).modU v fun u => { u with slots := u.slots.set n none, evp := u.evp &&& ~~~BitVec.twoPow 8 n })

/-- EVMASK (R322). A bundle's EVMASKs and writes of EVM act in ascending slot order. (DESIGN CHOICE, log 88: unsafe.) -/
def execEvmask (w : ArithWord) (s : State) := issue (.evmask w) w.head s fun v s =>
  if v.sel = 0 then .ok s
  else
    let m := BitVec.ofNat 8 w.mask8
    .ok (s.modU v fun u => { u with evm := match w.sub.toNat with
      | 0 => u.evm ||| m
      | 1 => u.evm &&& ~~~m
      | _ => m })

/-- EVPEND (R322). -/
def execEvpend (w : ArithWord) (s : State) := issue (.evpend w) w.head s fun v s =>
  .ok (putPred v s w.d.toNat fun _ => .of (v.u.evp &&& BitVec.ofNat 8 w.mask8 != 0))

/-- EVCLR (R322). -/
def execEvclr (w : ArithWord) (s : State) := issue (.evclr w) w.head s fun v s =>
  .ok (if v.sel = 0 then s else s.modU v fun u => { u with evp := u.evp &&& ~~~BitVec.ofNat 8 w.mask8 })

/-! ## WAITANY -/

/-- The acquire of a slot's dispatch (R318, R167, R168, R91, R325), with its Lamport receive (R383). A copy token acquires for every
command whose firing is pending. -/
def State.dispatchAcquire (s : State) (v : View) (e : EventSlot) : State :=
  match e.kind with
  | .barrier => s.leaveBar v e.num.toNat
  | .copy =>
    let s1 := s.modCore v.core fun t => { t with l1 := t.l1.filter fun l => !e.lines.contains l.addr }
    (s1.acquire v.core e.scope).tickRecv v.core e.stamp
  | .mbox =>
    match ((s.core v.core).mail[e.num.toNat]?.getD []).head? with
    | none => s
    | some m => (if m.far then s.dropL1 v.core else s).tickRecv v.core m.stamp
  | .signal => (s.dropL1 v.core).tickRecv v.core (s.stampOf e.gen)
  | .timer => s

/-- The lowest slot that is pending, enabled and chosen, with its binding (R323); a free slot has no pending bit (R319). -/
def ProgUnit.chosen (u : ProgUnit) (m : Nat) : Option (Nat × EventSlot) :=
  (List.range 8).findSome? fun n =>
    if (u.evp &&& u.evm &&& BitVec.ofNat 8 m).getLsbD n then (u.slots[n]?.join).map (n, ·) else none

/-- WAITANY (R323): it sees the slots as they stand before the bundle or instruction (R31, R318, R322). D takes the slot's number
in every active lane and the PC goes to its handler; the wait holds the mask. -/
def execWaitany (w : ArithWord) (s : State) := issue (.waitany w) w.head s fun v s =>
  uniformly v s fun s =>
    match v.u.chosen w.mask8 with
    | none => parkEnd v { kind := .event, since := s.cyc, n := w.mask8 } s
    | some (n, e) =>
        let keep := if s.rebound n then 0 else BitVec.twoPow 8 n
        let s1 := (s.modU v fun u => { u with evp := u.evp &&& ~~~keep }).dispatchAcquire v e
        putReg v ((s1.jump v e.handler).closeRegion v) w.d.toNat fun _ => mkReg (.ofNat 64 n) .n32

/-! ## Mailboxes -/

/-- The core at an offset on the cell's 2 × 4 grid (R47, R325, R374); none off the grid. -/
def gridCore (c : Nat) (dx dy : Int) : Option Nat :=
  let x := (c % 8 % 2 : Nat) + dx
  let y := (c % 8 / 2 : Nat) + dy
  if 0 ≤ x ∧ x < 2 ∧ 0 ≤ y ∧ y < 4 then some (c / 8 * 8 + (y * 2 + x).toNat) else none

/-- Whether a core holds a block of the sender's gang (R325). -/
def State.inGang (s : State) (b : Block) (c : Nat) : Bool := (s.gangCores b).contains c

/-- The core that a SEND names (R325), or a number that is no core's where the place is off the grid or holds no block of the
sender's gang: such a message is discarded and counted. -/
def State.sendDest (s : State) (v : View) (sub : BitVec 5) : Nat :=
  match gridCore v.core ((sub.setWidth 2).toInt) (((sub >>> 2).setWidth 3).toInt) with
  | some k => if s.inGang (s.myBlk v) k then k else Config.numCores
  | none => Config.numCores

/-- SEND (R325): a release at block scope for its own core, at cell scope otherwise; EVENT_OVERRUN where the mailbox is
full. A bundle's message enters its mailbox at the bundle's close, so that no MBREAD of the bundle sees it (R338). Where messages
arrive later (`slow`), a warp or the front end waits for the mailbox to accept. (DEDUCED, log 64: unsafe.) -/
def execSend (w : ArithWord) (s : State) := issue (.send w) w.head s
  (once [w.a.toNat] fun v s _ rs =>
    let box := w.x.toNat % 64
    let overrun := { cause := .eventOverrun, lanes := v.sel : TrapReq }
    match v.sp.waits.find? fun x => x.kind == .mail && x.done with
    | some x => if x.b = 0 then .ok (s.closeRegion v) else .error (.raise overrun)
    | none =>
      let dest := s.sendDest v w.sub
      let sc := if dest = v.core then 2 else 3
      let value := ((rs.head?).getD {}).v
      let s1 := (s.closeRegion v).release v.core sc
      if s1.unreleased v.core v.unit sc then parkEnd v { kind := .release, since := s.cyc } s
      else match s1.bundle with
        | some b => .ok { s1 with bundle := some { b with later := b.later ++ [.send dest box value (sc == 3) (v.bundleFrame s overrun)] } }
        | none =>
          let s2 := s1.tickSend v.core
          let m : Msg := { value := value, far := sc == 3, stamp := (s2.core v.core).lclk }
          if Config.numCores ≤ dest then .ok (s2.discardEvents v.core 1)
          else if s.slow then
            .error (.park { kind := .mail, since := s.cyc } ((((s.waitRegion v).release v.core sc).tickSend v.core).modCore v.core fun t =>
              { t with sent := t.sent ++ [{ dest := dest, box := box, unit := v.unit, split := v.split, msg := m }] }))
          else if s2.mailFull dest box then .error (.raise overrun)
          else .ok (s2.post dest box m))

/-- The wait of a unit's split changed. -/
def State.modWaits (s : State) (c u k : Nat) (f : Wait → Wait) : State :=
  s.modUnit c u fun p => p.modSplit k fun t => { t with waits := t.waits.map f }

/-- MAILBOX_DELIVER (R325): message n that a core has sent reaches its mailbox, and the sender's wait ends; a full
mailbox accepts nothing. (DEDUCED, log 63: safe.) -/
def execMailboxDeliver (core n : Nat) (s : State) : Host.Outcome State Fault Refusal :=
  if Config.numCores ≤ core then .fault .badPlace
  else match (s.core core).sent[n]? with
    | none => .next s
    | some m =>
      let lost := match s.blk core with
        | some b => !s.inGang b m.dest
        | none => true
      let full := !lost && s.mailFull m.dest m.box
      let s1 := s.modCore core fun t => { t with sent := t.sent.eraseIdx n }
      let s2 := if lost then s1.discardEvents core 1 else if full then s1 else s1.post m.dest m.box m.msg
      .next (s2.modWaits core m.unit m.split fun w => if w.kind == .mail then { w with done := true, b := if full then 1 else 0 } else w)

/-- MBREAD (R325). -/
def execMbread (w : ArithWord) (s : State) := issue (.mbread w) w.head s fun v s =>
  if v.sel = 0 then .ok s
  else
    let box := w.x.toNat % 64
    let s1 := s.closeRegion v
    match ((s1.core v.core).mail[box]?.getD []).head? with
    | none => putReg v s1 w.d.toNat fun _ => mkReg 0 .und
    | some m =>
      let s2 := s1.modCore v.core fun k => { k with mail := k.mail.modify box List.tail }
      let s3 := (if m.far then s2.dropL1 v.core else s2).tickRecv v.core m.stamp
      putReg v s3 w.d.toNat fun _ => mkReg m.value .n64

/-! ## SLEEPUNTIL -/

/-- Whether a command of the unit with a tag has not completed (R326), of those that stand before the bundle (R31, R392); with none issued,
nothing is late. -/
def State.copyLate (s : State) (v : View) (tag : Nat) : Bool :=
  ((s.cmdBlk v).cmds.any fun k => k.engine == .copy && k.unit == v.unit && !k.orphan && k.tag == some tag && !k.finished)

/-- SLEEPUNTIL (R326): the wait holds the cycle and the slot, since a bundle may hold several (R100); after COPY_LATE it is the cycle that INFO1 names (R223). -/
def execSleepuntil (w : ArithWord) (s : State) := issue (.sleepuntil w) w.head s
  (once [w.a.toNat] fun v s _ rs =>
    let a : Reg := rs.head?.getD {}
    let wait := v.sp.waits.find? fun x => x.kind == .sleep && x.b == v.slot
    if wait.isNone && !baseTag a.tag then .error (raiseSel v .tagMismatch)
    else
      let due := match wait with
        | some x => x.a
        | none => a.v.toNat
      if s.cyc < due then parkEnd v { kind := .sleep, since := s.cyc, a := due, b := v.slot, n := w.sub.toNat + 2 * (w.x.toNat % 64) } s
      else if w.sub = 1 && s.copyLate v (w.x.toNat % 64) then
        .error (.raiseAt { cause := .copyLate, kind := 1, lanes := v.sel, info1 := .ofNat 64 due, resume := some v.addr }
          ((s.waitRegion v).jump v v.addr))
      else .ok (s.closeRegion v))

/-! ## NEXTTILE -/

/-- The number of cells that hold a running block of a launch, at least 1 (R304). -/
def State.launchCells (s : State) (i n : Nat) : Nat :=
  max 1 ((List.range Config.numCells).filter fun cell => (List.range 8).any fun k => match s.blk (8 * cell + k) with
    | some b => b.inst == i && b.launch == n
    | none => false).length

/-- The next chunk of the range unit (R304). -/
def chunkOf (remaining minimum cells : Nat) : Nat := min remaining (max (max 1 minimum) (ceilDiv remaining (2 * cells)))

/-- A dispenser whose chunk is exhausted receives the next one; an exhausted range gives the empty chunk (R304). -/
def State.refill (s : State) (i n cell : Nat) : State :=
  s.modLaunch i n fun l =>
    let d := l.dispenser cell
    if d.lo < d.hi then l
    else
      let k := chunkOf (l.rcd.range - l.range) l.rcd.chunk (s.launchCells i n)
      { l.setDispenser { d with lo := l.range, hi := l.range + k } with range := l.range + k }

/-- The answer for a tile index (R305). -/
def tileAnswer (shape t : Nat) : Word := if shape = 0 then .ofNat 64 t else .ofNat 64 (t / shape * 2 ^ 32 + t % shape)

/-- A dispenser's answer (R305): none while it holds no index and the range is not exhausted. -/
def State.takeTile (s : State) (i n cell : Nat) : Option (State × Word) :=
  match s.launch i n with
  | none => none
  | some l =>
    let d := l.dispenser cell
    if d.lo < d.hi then
      some (s.modLaunch i n fun l => l.setDispenser { d with lo := d.lo + 1 }, tileAnswer l.rcd.shape d.lo)
    else if l.rcd.range ≤ l.range then some (s, 0xFFFFFFFFFFFFFFFF)
    else none

/-- The units that wait at the dispenser of a cell, in arrival order (R305): those that still wait, and the issuing one where it has
begun to. -/
def State.tileQueue (s : State) (b : Block) (cell : Nat) (me : Option (Nat × Nat) := none) : List (Nat × Nat) :=
  liveArrivals (fun x => s.tileAsks x + if some x == me then 1 else 0)
    (((s.launch b.inst b.launch).map fun l => (l.dispenser cell).waiting).getD [])

/-- The unit that has waited longest at a dispenser leaves its queue. -/
def State.popTile (s : State) (b : Block) (cell : Nat) (me : Option (Nat × Nat) := none) : State :=
  let rest := (s.tileQueue b cell me).tail
  s.modLaunch b.inst b.launch fun l => l.setDispenser { l.dispenser cell with waiting := rest }

/-- NEXTTILE (R335, R305): a warp or the front end waits for its answer. A context's bundle issues once the dispenser can answer
it in its turn, and the answer lands in k60 48 cycles later. -/
def execNexttile (w : ArithWord) (s : State) := issue (.nexttile w) w.head s fun v s =>
  if v.sel = 0 then .ok s
  else
    let b := s.myBlk v
    let cell := cellOf v.core
    if (s.rcd b).range = 0 || (v.u.kind == .context && (v.cl != 0 || w.d != 60)) then .error (raiseSel v .nexttileMisuse)
    else match v.sp.waits.find? fun x => x.kind == .nextTile && x.done with
      | some x => putReg v (s.closeRegion v) w.d.toNat fun _ => mkReg (x.res.head?.getD 0) .n64
      | none =>
        let began := v.sp.waits.any fun x => x.kind == .nextTile
        let me := if began && v.u.kind != .context then some (v.core, v.unit) else none
        let turn := if began then (s.tileQueue b cell me).head? == some (v.core, v.unit) else (s.tileQueue b cell).isEmpty
        let wait : Eff := parkEnd v { kind := .nextTile, since := s.cyc }
          (if began || v.u.kind == .context then s else s.queueTile v.core v.unit)
        if !turn || (s.slow && v.u.kind != .context) then wait
        else match (if s.slow then s else s.refill b.inst b.launch cell).takeTile b.inst b.launch cell with
          | none => wait
          | some r =>
            let t := if began then r.1.popTile b cell me else r.1
            match v.u.kind with
            | .context => .ok ((t.closeRegion v).modU v fun u => { u with nextTile := u.nextTile ++ [(r.2, s.cyc + 48)] })
            | _ => putReg v (t.closeRegion v) w.d.toNat fun _ => mkReg r.2 .n64

/-- RANGE_CHUNK_ANSWER (R304): the range unit's chunk reaches the dispenser of a cell. -/
def execRangeChunkAnswer (ins launch cell : Nat) (s : State) : Host.Outcome State Fault Refusal :=
  if 4 ≤ ins ∨ Config.numCells ≤ cell then .fault .badPlace else .next (s.refill ins launch cell)

/-- Answers of a context that are due land in k60 of cluster 0 (R305). -/
def ProgUnit.landTiles (u : ProgUnit) (cyc : Nat) : ProgUnit :=
  match u.nextTile with
  | [] => u
  | _ =>
    let u1 := (u.nextTile.filter (·.2 ≤ cyc)).foldl (fun (u : ProgUnit) x =>
      u.mapLanes 1 fun _ l => l.setReg 60 (mkReg x.1 .n64)) u
    { u1 with nextTile := u.nextTile.filter (cyc < ·.2) }

/-- The split of a unit whose NEXTTILE has waited longest, of those not yet answered. -/
def ProgUnit.tileSplit (u : ProgUnit) : Option Nat :=
  let open_ := (u.splits.zipIdx).flatMap fun (t, k) => (t.waits.filter fun w => w.kind == .nextTile && !w.done).map fun w => (w.since, k)
  (open_.foldl (fun (best : Option (Nat × Nat)) x => match best with
    | none => some x
    | some y => if x.1 < y.1 then some x else some y) none).map (·.2)

/-- NEXTTILE_ANSWER (R305): the dispenser answers the unit that has waited longest in its cell; a context's answer lands
when it is due. -/
def execNexttileAnswer (core unit : Nat) (s : State) : Host.Outcome State Fault Refusal :=
  if Config.numCores ≤ core then .fault .badPlace
  else match s.blk core, s.unit core unit with
    | some b, some u =>
      match u.kind with
      | .context => .next (s.setUnit core unit (u.landTiles s.cyc))
      | _ =>
        let cell := cellOf core
        if (s.tileQueue b cell).head? ≠ some (core, unit) then .next s
        else match s.takeTile b.inst b.launch cell, u.tileSplit with
          | some r, some k => .next ((r.1.popTile b cell).modWaits core unit k fun w =>
              if w.kind == .nextTile && !w.done then { w with done := true, res := [r.2] } else w)
          | some _, none => .next (s.popTile b cell)
          | none, _ => .next s
    | _, _ => .next s

/-! ## SQPUSH -/

/-- The VA of record n of a stage's input queue: its buffer of CAP records of 64 bytes is filled in turn (R48, R336). (DEDUCED, log 40: unsafe.) -/
def Stage.place (q : Stage) (n : Nat) : Word := q.qva + .ofNat 64 (64 * (n % q.cap))

/-- SQPUSH (R336): the record enters the queue and its buffer; STAGE_QUEUE where the launch has no such successor stage; a full queue makes it wait. -/
def execSqpush (w : ArithWord) (s : State) := issue (.sqpush w) w.head s
  (once ((List.range 8).map (w.a.toNat + ·)) fun v s _ rs =>
    let b := s.myBlk v
    let t := w.x.toNat % 8
    let r := s.rcd b
    let stages := ((s.launch b.inst b.launch).map (·.stages)).getD []
    let here : Stage := stages[b.stage]?.getD {}
    if r.flags / 2 % 2 = 0 ∨ r.stages ≤ t ∨ !here.succ.getLsbD t then .error (raiseSel v .stageQueue)
    else
      let towards : Stage := stages[t]?.getD {}
      if towards.cap ≤ towards.recs.length then parkEnd v { kind := .stageFull, since := s.cyc, a := t } s
      else
        let s1 := (s.closeRegion v).landAll v.core
        let va := towards.place towards.pushed
        if s1.unreleased v.core v.unit 4 then parkEnd v (heldWait s1 v.core) (s.landAll v.core)
        else match s1.slotPinned v.core va 64 with
          | some (k, pa) => parkEnd v (pinWait s k pa) (s.markRefused k pa)
          | none =>
            let s2 := (s1.tryWrite v.core va (rs.flatMap fun x => leBytes 8 x.v.toNat)).getD s1
            .ok (s2.modLaunch b.inst b.launch fun l => { l with stages := l.stages.modify t fun q =>
              { q with recs := q.recs ++ [(rs.map (·.v), b.gidx)], pushed := q.pushed + 1 } }))

/-! ## Tokens that fire by themselves -/

/-- The timers of a unit whose cycle has come (R318), each once. -/
def ProgUnit.fireTimers (u : ProgUnit) (cyc : Nat) (sel : Nat → Bool) : ProgUnit :=
  if u.slots.all fun e => e.all fun e => e.kind != .timer then u
  else
    let due := fun (e : EventSlot) => e.kind == .timer && !e.fired && decide (e.num.toNat ≤ cyc)
    let hit := maskOf 128 sel
    { u with
      evp := u.evp ||| (u.slotsFor due &&& hit.setWidth 8)
      slots := u.slots.mapIdx fun n e => e.map fun e => if due e && sel n then { e with fired := true } else e }

/-- TIMER_TOKEN_FIRE (R318): CYC has reached a timer binding's value. -/
def execTimerTokenFire (core unit slot : Nat) (s : State) : Host.Outcome State Fault Refusal :=
  if Config.numCores ≤ core then .fault .badPlace
  else .next (s.modUnit core unit fun u => u.fireTimers s.cyc (· == slot))

/-- A unit's split is to issue next. -/
def State.wake (s : State) (core unit split : Nat) : State := { s with agenda := .issue core unit split s.slow :: s.agenda }

/-- Whether a split waits in a way and the wait is over. -/
def State.waitsFor (s : State) (core unit split : Nat) (finished : ProgUnit → Wait → Bool) : Bool :=
  match s.unit core unit with
  | none => false
  | some u => match u.splits[split]? with
    | none => false
    | some t => u.trap.isNone && t.waits.any (finished u)

/-- WAITANY_WAKE (R323): the parked WAITANY issues again and dispatches. -/
def execWaitanyWake (core unit split : Nat) (s : State) : Host.Outcome State Fault Refusal :=
  if Config.numCores ≤ core then .fault .badPlace
  else if s.waitsFor core unit split fun u w => w.kind == .event && (u.chosen w.n).isSome then .next (s.wake core unit split)
  else .next s

/-- SLEEP_WAKE (R326): the sleeping unit issues again at its cycle. (DEDUCED, log 44: unsafe.) -/
def execSleepWake (core unit split : Nat) (s : State) : Host.Outcome State Fault Refusal :=
  if Config.numCores ≤ core then .fault .badPlace
  else if s.waitsFor core unit split fun _ w => w.kind == .sleep && decide (w.a ≤ s.cyc) then .next (s.wake core unit split)
  else .next s

end Sys2Proof.Machine
end

