-- ==== Sys2Proof/Machine/Matrix.lean ====
section
/-! DEFINITION. The matrix array: the operand map and sparsity (R343, R351), weights (R345), beats and landings (R340,
R341, R346), scale latches (R347 to R349), the matrix command queue (R342, R355 to R357), and AMX (R358, R359). -/

namespace Sys2Proof

/-- SIG of the array's commands (R355, R356). -/
def ArithWord.xSig (w : ArithWord) : Bool := w.x.getLsbD 1

end Sys2Proof

namespace Sys2Proof.Machine

/-! ## Formats of the array -/

/-- Values per element of a matrix type (R250). -/
def perElem (t : Ty) : Nat := elemCount t

/-- m: MACs of a PE per cycle (R339, R341). -/
def macs : Ty → Nat
  | .f8x8 | .e5x8 => 2
  | .f4x16 | .lg6x8 => 4
  | _ => 1

/-- k: values of K of a PE row per beat (R339, R341). -/
def kSpan (t : Ty) : Nat := if t == .lg6x8 then 2 else macs t

/-- Whether a format takes scales (R347). -/
def scaled (t : Ty) : Bool := t == .f8x8 || t == .e5x8 || t == .f4x16

/-- The code of the value 0 (R254). (DEDUCED, log 42: unsafe.) -/
def zeroCode (t : Ty) : Nat := if t == .lg6x8 then 0x10 else 0

/-- Value n of an element's bytes. -/
def partOf (t : Ty) (bs : List Byte) (n : Nat) : Nat :=
  let w := elemWidth t
  leNat bs / 2 ^ (w * n) % 2 ^ w

/-- The bytes of an element at a place in a core's storage. -/
def State.storedBytes (s : State) (p : Place) (n : Nat) : List Byte :=
  match p with
  | .tile k a => tileRead (s.core k).tile a n
  | .bst k a => cellRead (s.core k).bst a n
  | .phys pa => s.homeRead pa n

/-- Element (i, j) of a handle as the array reads it; none outside the handle. -/
def State.arrayElem (s : State) (c : Nat) (b : Block) (e : TileEntry) (i j : Nat) : Option (List Byte) :=
  if i < e.rows ∧ j < e.cols then some (s.storedBytes (s.elemPlace c b e i j) e.t.bytes) else none

/-- n values of row i of A from column c0: columns at or beyond the handle's columns read as 0 (R343). -/
def State.mapRow (s : State) (c : Nat) (b : Block) (e : TileEntry) (i c0 n : Nat) : List Nat :=
  (List.range (n / perElem e.t)).flatMap fun j =>
    match s.arrayElem c b e i (c0 + j) with
    | some bs => (List.range (perElem e.t)).map (partOf e.t bs)
    | none => List.replicate (perElem e.t) (zeroCode e.t)

/-- n values of column j of B from element row k0: values beyond the handle are 0 (R345, R356). -/
def State.bColumn (s : State) (c : Nat) (b : Block) (e : TileEntry) (k0 j n : Nat) : List Nat :=
  (List.range (n / perElem e.t)).flatMap fun i =>
    match s.arrayElem c b e (k0 + i) j with
    | some bs => (List.range (perElem e.t)).map (partOf e.t bs)
    | none => List.replicate (perElem e.t) (zeroCode e.t)

/-! ## Column sums -/

/-- The exact scaled sum of a PE row's products (R265): a NaN value where a NaN element or scale, 0 × ∞ or +∞ and −∞
take part. -/
def rowValue (f : Fmt) (ps : List (Nat × Nat)) (ka kb : Nat) : Val :=
  match scaleExp ka, scaleExp kb with
  | some ea, some eb =>
    let xs := ps.map fun p => (f.val p.1, f.val p.2)
    if xs.any fun x => x.1.isNan || x.2.isNan then .nan true
    else
      let qs := xs.map fun x => mulVal x.1 x.2
      if qs.any Option.isNone then .nan true
      else
        let vs := qs.filterMap id
        match infSigns vs with
        | g :: gs => if gs.all (· == g) then .inf g else .nan true
        | [] =>
          let t := sumFinite vs
          .fin (decide (t.1 < 0)) t.1.natAbs (t.2 + ea + eb)
  | _, _ => .nan true

/-- The column sum over the PE rows from r down (R265): m products each, the latches of block floor(k·r / 32). -/
def columnSum (t : Ty) (ra cb : Nat → Nat) : Nat → Nat → List Nat → List Nat → Nat → Nat
  | 0, _, _, _, p => p
  | fuel + 1, r, as, bs, p =>
    let m := macs t
    let blk := m * r / 32
    let v := rowValue (fmtOf t) ((as.take m).zip (bs.take m)) (ra blk) (cb blk)
    columnSum t ra cb fuel (r + 1) (as.drop m) (bs.drop m) (satAddVal p v)

/-- The column sum of output column 2c + h in LG6 (R341, R255). -/
def lg6Sum (h : Nat) : Nat → List Nat → List Nat → Nat → Nat
  | 0, _, _, p => p
  | fuel + 1, as, bs, p =>
    let x := lg6Term (as[0]?.getD 0x10) (bs[h]?.getD 0x10) + lg6Term (as[1]?.getD 0x10) (bs[2 + h]?.getD 0x10)
    lg6Sum h fuel (as.drop 2) (bs.drop 4) (satAdd p (fmt32.roundInt 0 x (-16) false).1)

/-- The 32 bits of a bitmap element (R351): a segment outside the handle has none. -/
def State.bitmap (s : State) (c : Nat) (b : Block) (h i j : Nat) : Nat :=
  match b.entry h with
  | none => 0
  | some e => ((s.arrayElem c b e i j).map leNat).getD 0

/-- The positions that a PE multiplies (R351). -/
def meetPositions (x y : Nat) : List Nat := (List.range 32).filter fun q => x.testBit q && y.testBit q

/-- The column sum of sparse mode over PE rows (R351): the row's segment is one MX block. -/
def sparseSum (t : Ty) (ra cb : Nat → Nat) (qs : List (List Nat)) (as bs : List Nat) (p : Nat) : Nat :=
  (qs.zipIdx.foldl (fun (acc : Nat × List Nat × List Nat) x =>
    let a := acc.2.1.take 32
    let b := acc.2.2.take 32
    let ps := x.1.map fun q => (a[q]?.getD 0, b[q]?.getD 0)
    (satAddVal acc.1 (rowValue (fmtOf t) ps (ra (x.2 % 16)) (cb (x.2 % 16))), acc.2.1.drop 32, acc.2.2.drop 32)) (p, as, bs)).1

/-- A code of a list of latches: 127 where unlisted. -/
def codeAt (l : List Nat) (n : Nat) : Nat := l[n]?.getD 127

/-- What a beat of row i reads and forms: the column sums (for LG6 those of row ρ, then of row ρ + 1) and the beats that
it takes (R340, R341, R351). A set loaded in another format gives free values (DESIGN CHOICE, log 19), and so does LG6 in sparse mode. -/
def State.vectorSums (s : State) (c : Nat) (b : Block) (e : TileEntry) (c0 : Nat) (bits : Option (Nat × Nat)) (set i : Nat)
    (latch : Nat → Nat) : List Nat × Nat :=
  let t := e.t
  let arr := (s.core c).arr
  let ra := fun n => if scaled t then latch n else 127
  let cb := fun j n => if scaled t then codeAt (((arr.clatch[set]?.getD [])[j]?).getD []) n else 127
  let free := (List.range (if t == .lg6x8 then 256 else 128)).map fun j => (Config.mixedSum s.cyc j).toNat
  match bits with
  | some (ha, hb) =>
    match (arr.wsparse[set]?.getD none) with
    | none => (List.replicate 128 0, max 1 (8 / macs t))
    | some w =>
      if w.t != t || t == .lg6x8 then (free, max 1 (8 / macs t))
      else
        let k0 := arr.wbase[set]?.getD 0
        let s0 := k0 * perElem t / 32
        let as := s.mapRow c b e i c0 4096
        let am := (List.range 128).map fun r => s.bitmap c b ha i (s0 + r)
        let cols := (List.range 128).map fun j =>
          let qs := (List.range 128).map fun r => meetPositions (am[r]?.getD 0) (s.bitmap c b hb (s0 + r) j)
          (sparseSum t ra (cb j) qs as (s.bColumn c b w k0 j 4096) 0, qs.foldl (fun m q => max m (ceilDiv q.length (macs t))) 0)
        (cols.map (·.1), cols.foldl (fun m x => max m x.2) (max 1 (8 / macs t)))
  | none =>
    let as := s.mapRow c b e i c0 (128 * kSpan t)
    let w := fun j => ((arr.weights[set]?.getD [])[j]?).getD []
    let ws := fun j => w j ++ List.replicate (128 * macs t - (w j).length) (zeroCode t)
    match arr.wtype[set]?.getD none with
    | some u =>
      if u != t then (free, 1)
      else if t == .lg6x8 then
        (((List.range 128).map fun j => lg6Sum 0 128 as (ws j) 0) ++ ((List.range 128).map fun j => lg6Sum 1 128 as (ws j) 0), 1)
      else ((List.range 128).map fun j => columnSum t ra (cb j) 128 0 as (ws j) 0, 1)
    | none =>
      if t == .lg6x8 then (List.replicate 256 0, 1)
      else ((List.range 128).map fun j => columnSum t ra (cb j) 128 0 as (List.replicate (128 * macs t) 0) 0, 1)

/-! ## Landings -/

/-- An accumulator takes a column's partial sum (R346, R265). -/
def Core.accTake (k : Core) (replace : Bool) (row col p : Nat) : Core :=
  k.setAcc row col (if replace then p else satAdd (k.getAcc row col) p)

/-- Column col of a vector lands (R340, R341). -/
def Core.landColumn (k : Core) (x : Vec) (col : Nat) : Core :=
  let k1 := k.accTake x.replace x.row col (x.sums[col]?.getD 0).toNat
  if x.sums.length > 128 then k1.accTake x.replace (x.row + 1) col (x.sums[128 + col]?.getD 0).toNat else k1

/-- The array advances one beat: the columns due land, oldest vector first (R340). -/
def Core.beatOnce (k : Core) : Core :=
  let n := k.arr.beat
  let k1 := k.arr.vecs.foldl (fun k x =>
    if x.at0 + 137 ≤ n ∧ n < x.at0 + 265 then k.landColumn x (n - x.at0 - 137) else k) k
  { k1 with arr := { k1.arr with beat := n + 1, vecs := k1.arr.vecs.filter fun x => decide (n < x.at0 + 264) } }

/-- The array advances n beats. -/
def Core.beats : Nat → Core → Core
  | 0, k => k
  | n + 1, k => Core.beats n k.beatOnce

/-- The array supplies the SHIFT beats that land every vector (R352). -/
def Core.flushArray (k : Core) : Core :=
  match k.arr.vecs.getLast? with
  | none => k
  | some x => k.beats (x.at0 + 265 - k.arr.beat)

/-- A vector enters and the array advances by the beats that it takes. -/
def Core.pushVector (k : Core) (set row : Nat) (replace : Bool) (r : List Nat × Nat) : Core :=
  let x : Vec := { at0 := k.arr.beat, set := set, replace := replace, row := row, sums := r.1.map (.ofNat 64 ·) }
  { k with arr := { k.arr with vecs := k.arr.vecs ++ [x] } }.beats r.2

/-! ## Weights -/

/-- The column codes of a scale handle from block row b0 (R345): 127 beyond its rows or columns, or without one. -/
def State.scaleCodes (s : State) (c : Nat) (b : Block) (h : Option TileEntry) (b0 j : Nat) : List Nat :=
  match h with
  | none => []
  | some e => (List.range 16).map fun n => ((s.arrayElem c b e (b0 + n) j).map leNat).getD 127

/-- MLOADB's effect (R345, R351): the weights of a set, or in sparse mode only the handle and K0; the column latches. -/
def State.loadWeights (s : State) (c : Nat) (b : Block) (set : Nat) (e : TileEntry) (h : Option TileEntry) (k0 : Nat) : State :=
  let codes := (List.range 128).map fun j => s.scaleCodes c b h (k0 * perElem e.t / 32) j
  let ws := (List.range 128).map fun j => s.bColumn c b e k0 j (128 * macs e.t)
  s.modCore c fun k => { k with arr := { k.arr with
    weights := if b.bitmaps.isSome then k.arr.weights else k.arr.weights.set set ws
    wtype := if b.bitmaps.isSome then k.arr.wtype else k.arr.wtype.set set (some e.t)
    wbase := k.arr.wbase.set set k0
    wsparse := k.arr.wsparse.set set (some e)
    clatch := k.arr.clatch.set set codes } }

/-! ## The drain converter -/

/-- The columns that a drained row needs (R354). -/
def drainCols (t : Ty) : Nat := if t == .f32 then 128 else 128 / perElem t

/-- A value through the drain converter (R354): no flags. -/
def drainValue (t : Ty) (rm x : Nat) : Nat :=
  if t == .f32 then x else if t == .lg6x8 then (toLg6 x).1 else (convert (fmtOf t) fmt32 rm x).1

/-- The stores that drain accumulator row `row` into row j of a handle. -/
def State.drainItems (s : State) (c : Nat) (b : Block) (t : Ty) (rm row : Nat) (e : TileEntry) (j : Nat) : List StoreItem :=
  let n := perElem t
  (List.range (drainCols t)).map fun q =>
    let xs := (List.range n).map fun p => drainValue t rm ((s.core c).getAcc row (n * q + p))
    { lane := 0, place := s.elemPlace c b e j q, bytes := leBytes t.bytes (joinElems (if t == .f32 then 32 else elemWidth t) xs) }

/-- The drained rows of a core's array that f picks commit. -/
def State.landDrained (s : State) (c : Nat) (f : Drained → Bool) : State :=
  let ds := (s.core c).arr.drained
  match ds with
  | [] => s
  | _ =>
    let s1 := (ds.filter f).foldl (fun s d => d.items.foldl (State.commitItem · c 0 0) s) s
    s1.modCore c fun k => { k with arr := { k.arr with drained := ds.filter fun d => !f d } }

/-- The drained rows that are due commit (R354). -/
def State.settleDrained (s : State) (c : Nat) (all : Bool) : State := s.landDrained c fun d => all || decide (d.due ≤ s.cyc)

/-- Whether a drained row goes to the storage of a core. -/
def Drained.goesTo (d : Drained) (c : Nat) : Bool :=
  d.items.any fun i => match i.place with | .tile k _ | .bst k _ => k == c | .phys _ => false

/-! ## MAMAP and MBMAP -/

/-- A MAMAP or MBMAP takes effect (R343, R351): pseudo-entries 10 and 11 of the queue. -/
def Block.applyMap (b : Block) (k : Cmd) : Block :=
  if k.op = 10 then { b with map := some (k.w.handle, (k.ops[0]?.getD 0).toNat % 2 ^ 32, k.w.t) }
  else { b with bitmaps := if k.w.sub = 1 then none else some (k.w.handle, k.w.b.toNat % 64) }

/-- The MAMAPs and MBMAPs at the head of the matrix command queue take effect. -/
def settleMaps : List Cmd → Block → Block
  | [], b => b
  | k :: ks, b => if 10 ≤ k.op then settleMaps ks { b.applyMap k with mqueue := ks } else b

/-- MAMAP or MBMAP: for the next bundle in VLIW code, elsewhere by way of the queue (R343). -/
def mapCommand (v : View) (s : State) (k : Cmd) : State :=
  match v.u.kind with
  | .context => s.modBlk v.core (·.applyMap k)
  | _ => s.modBlk v.core fun b => settleMaps (b.mqueue ++ [k]) { b with mqueue := b.mqueue ++ [k] }

/-- A handle of one of some levels, or TILE_HANDLE. -/
def Block.atLevel (b : Block) (n : Nat) (ls : List Level) : Option TileEntry := (b.entry n).filter fun e => ls.contains e.level

/-- MAMAP (R343). -/
def execMamap (w : ArithWord) (s : State) := issue (.mamap w) w.head s
  (once [w.a.toNat] fun v s _ rs =>
    let a := rs[0]?.getD {}
    match (s.myBlk v).atLevel w.handle [.block, .cell] with
    | none => .error (raiseHandle v [(w.handle, false)])
    | some e =>
      if e.t != w.t || !countTag a.tag then .error (raiseSel v .tagMismatch)
      else .ok (mapCommand v s { seq := 0, unit := v.unit, pc := v.addr, engine := .matrix, op := 10, w := w, ops := [a.v] }))

/-- MBMAP (R351). -/
def execMbmap (w : ArithWord) (s : State) := issue (.mbmap w) w.head s fun v s =>
  let b := s.myBlk v
  let k : Cmd := { seq := 0, unit := v.unit, pc := v.addr, engine := .matrix, op := 11, w := w }
  if v.sel = 0 then .ok s
  else if ((s.bundle.map (·.preMap)).getD b.map).any fun m => m.2.2 == .lg6x8 then .error (raiseSel v .illegalOp)
  else if w.sub = 1 then .ok (mapCommand v s k)
  else match b.atLevel w.handle [.block, .cell], b.atLevel (w.b.toNat % 64) [.bstore] with
    | some ea, some eb => if ea.t != .n32 || eb.t != .n32 then .error (raiseSel v .tagMismatch) else .ok (mapCommand v s k)
    | x, y => .error (raiseHandle v [(w.handle, x.isSome), (w.b.toNat % 64, y.isSome)])

/-! ## Beats -/

/-- Whether a beat that names a weight set must wait: the sequencer runs a command (R342), or an MLOADB of the context,
issued in an earlier bundle, has not loaded the set (R345). -/
def State.arrayBusy (s : State) (v : View) (set : Option Nat) : Bool :=
  let seq := (s.bundle.map (·.preSeq)).getD 0
  (s.core v.core).arr.running.isSome ||
    (match set with
    | none => false
    | some w => (s.myBlk v).cmds.any fun k =>
        k.engine == .matrix && k.op == 4 && !k.finished && k.unit == v.unit && decide (k.seq < seq) && k.w.sub.toNat % 2 == w)

/-- A matrix-slot syllable (R350): counted, and on a rerun suppressed until the array's count is reached; it stalls while
the sequencer runs a command. Once the block is asked to stop, a context without an open reduction issues no beat (R353, R362): its
bundle waits, and may be stopped there. (DEDUCED, log 81: unsafe.) -/
def matrixSyl (v : View) (s : State) (set : Option Nat) (f : State → Eff) : Eff :=
  if 0 < v.u.suppress then .ok (s.modU v fun u => { u with suppress := u.suppress - 1, beats := u.beats + 1 })
  else
    let s1 := s.modU v fun u => { u with beats := u.beats + 1 }
    if v.sel = 0 then .ok s1
    else if (s.myBlk v).stop.isSome && !(s.core v.core).arr.opened.contains v.unit then
      .error (.park { kind := .array, since := s.cyc, a := 1 } s)
    else if s.arrayBusy v set then .error (.park { kind := .array, since := s.cyc } s)
    else f s1

/-- The context's reduction is open (R342). -/
def MatArray.openFor (a : MatArray) (unit : Nat) : MatArray :=
  { a with opened := if a.opened.contains unit then a.opened else a.opened ++ [unit] }

/-- A PUSH or ACC beat (R346). -/
def beatVector (w : ArithWord) (replace : Bool) (v : View) (s : State) : Eff :=
  let set := w.sub.toNat / 4 % 2
  matrixSyl v s (some set) fun s =>
    let b := s.myBlk v
    let pre := s.bundle.map fun x => (x.preMap, x.preBits)
    let ra := v.u.read v.cl w.a.toNat
    let rb := v.u.read v.cl w.b.toNat
    match b.atLevel w.handle [.acc], (pre.bind (·.1)).bind fun m => (b.entry m.1).map fun e => (e, m) with
    | some h, some (e, m) =>
      let r := coordVal ra
      let i := coordVal rb
      let top : Int := if e.t == .lg6x8 then r + 1 else r
      if e.t != m.2.2 then .error (raiseHandle v [(m.1, false)])
      else if !countTag ra.tag || !countTag rb.tag then .error (raiseSel v .tagMismatch)
      else if r < 0 ∨ (h.rows : Int) ≤ top ∨ i < 0 ∨ (e.rows : Int) ≤ i then .error (raiseSel v .tileBounds 0
        (if r < 0 ∨ (h.rows : Int) ≤ top then tileInfo w.handle r 0 else tileInfo m.1 i 0))
      else
        let x := s.vectorSums v.core b e m.2.1 (pre.bind (·.2)) set i.toNat fun n => (v.u.latch[n]?.getD 127).toNat
        .ok (s.modCore v.core fun k =>
          ({ k with arr := k.arr.openFor v.unit }).pushVector set (h.base + r.toNat) replace x)
    | none, _ => .error (raiseHandle v [(w.handle, false)])
    | _, _ => .error (raiseHandle v [((((pre.bind (·.1)).map (·.1)).getD 0), false)])

/-- MBEAT PUSH (R346). -/
def execMbeatPush (w : ArithWord) (s : State) := issue (.mbeatPush w) w.head s (beatVector w true)

/-- MBEAT ACC (R346). -/
def execMbeatAcc (w : ArithWord) (s : State) := issue (.mbeatAcc w) w.head s (beatVector w false)

/-- MBEAT SHIFT (R346): a vector of zeros enters and writes no row. -/
def execMbeatShift (w : ArithWord) (s : State) := issue (.mbeatShift w) w.head s fun v s =>
  matrixSyl v s none fun s => .ok (s.modCore v.core Core.beatOnce)

/-- MBEAT DRAIN (R346, R354): the row as it stands goes through the converter; its writes commit 8 cycles later. -/
def execMbeatDrain (w : ArithWord) (s : State) := issue (.mbeatDrain w) w.head s fun v s =>
  matrixSyl v s none fun s =>
    let b := s.myBlk v
    let ra := v.u.read v.cl w.a.toNat
    let rb := v.u.read v.cl w.b.toNat
    match b.atLevel w.handle [.acc], b.atLevel (w.c.toNat % 64) [.block, .cell] with
    | some h, some e =>
      let r := coordVal ra
      let j := coordVal rb
      if !countTag ra.tag || !countTag rb.tag || e.t != w.t then .error (raiseSel v .tagMismatch)
      else if r < 0 ∨ (h.rows : Int) ≤ r ∨ j < 0 ∨ (e.rows : Int) ≤ j ∨ e.cols < drainCols w.t then
        .error (raiseSel v .tileBounds 0
          (if r < 0 ∨ (h.rows : Int) ≤ r then tileInfo w.handle r 0 else tileInfo (w.c.toNat % 64) j 0))
      else .ok (s.modCore v.core fun k => { k with arr := { k.arr with drained := k.arr.drained ++
        [{ due := s.cyc + 8, items := s.drainItems v.core b w.t w.rm.toNat (h.base + r.toNat) e j.toNat }] } })
    | x, y => .error (raiseHandle v [(w.handle, x.isSome), (w.c.toNat % 64, y.isSome)])

/-- MRETIRE (R352): every vector lands, and the reduction is retired. -/
def execMretire (w : ArithWord) (s : State) := issue (.mretire w) w.head s fun v s =>
  matrixSyl v s none fun s =>
    match (s.myBlk v).atLevel w.handle [.acc] with
    | none => .error (raiseHandle v [(w.handle, false)])
    | some _ => .ok (s.modCore v.core fun k =>
        let k1 := k.flushArray
        { k1 with arr := { k1.arr with opened := k1.arr.opened.filter (· != v.unit) } })

/-- The codes of MSCALE's registers: byte n of A is block n, byte n of B block 8 + n (R348). -/
def scaleBytes (a b : Word) : List Byte := leBytes 8 a.toNat ++ leBytes 8 b.toNat

/-- MSCALE (R348): the value takes effect at the fourth issue cycle of the context after this one. -/
def execMscale (w : ArithWord) (s : State) := issue (.mscale w) w.head s fun v s =>
  if v.sel = 0 then .ok s
  else
    let x := scaleBytes (v.u.read v.cl w.a.toNat).v (v.u.read v.cl w.b.toNat).v
    .ok (s.modU v fun u => { u with pending := u.pending ++ [(u.issues + 4, x)] })

/-- MSCALE_EFFECT (R348): a value that is due takes effect. -/
def execMscaleEffect (core unit : Nat) (s : State) : Host.Outcome State Fault Refusal :=
  if Config.numCores ≤ core ∨ 22 ≤ unit then .fault .badPlace
  else .next (s.modUnit core unit ProgUnit.settleScales)

/-- DRAIN_COMMIT (R354). -/
def execDrainCommit (core : Nat) (s : State) : Host.Outcome State Fault Refusal :=
  if Config.numCores ≤ core then .fault .badPlace else .next (s.settleDrained core false)

/-! ## The matrix command queue -/

/-- A command of the array issues into the queue (R342). -/
def State.queueCmd (s : State) (v : View) (k : Cmd) : State :=
  let s1 := s.issueCmd v k
  s1.modBlk v.core fun b => { b with mqueue := b.mqueue ++ (b.cmds.head?).toList }

/-- MLOADB (R345): from a warp or the front end into the queue; from a context it starts by R342's own rule. -/
def execMloadb (w : ArithWord) (s : State) := issue (.mloadb w) w.head s
  (once [w.b.toNat] fun v s _ rs =>
    let r := rs[0]?.getD {}
    let b := s.myBlk v
    let mx := w.sub.getLsbD 1
    let hs := if mx then b.atLevel (w.d.toNat % 64) [.bstore] else none
    match b.atLevel (w.a.toNat % 64) [.bstore] with
    | none => .error (raiseHandle v [(w.a.toNat % 64, false)])
    | some e =>
      if mx && hs.isNone then .error (raiseHandle v [(w.d.toNat % 64, false)])
      else if e.t != w.t || (hs.any fun h => h.t != .byte) || !countTag r.tag then .error (raiseSel v .tagMismatch)
      else
        let k : Cmd := { seq := 0, unit := 0, pc := 0, engine := .matrix, op := 4, w := w, ops := [r.v], handles := e :: hs.toList }
        .ok (match v.u.kind with
          | .context => s.issueCmd v k
          | _ => s.queueCmd v k))

/-- The K of a handle of A. -/
def TileEntry.kOf (e : TileEntry) : Nat := e.cols * perElem e.t

/-- Blocks of 32 in K. -/
def kBlocks (k : Nat) : Nat := ceilDiv k 32

/-- The shape of an MMA (R356) against the launch's maximum reduction depth. -/
def mmaShape (t : Ty) (hc ha hb : TileEntry) (hs : Option TileEntry) (depth : Nat) : Bool :=
  let lg := t == .lg6x8
  let k := ha.kOf
  let m := ha.rows
  decide ((if lg then 2 else 1) * k = hb.rows * perElem t) && decide (m ≤ if lg then 512 else 1024)
    && decide ((if lg then 2 * m else m) = hc.rows) && decide (hb.cols ≤ 128)
    && decide ((if lg then 2 * k else k) ≤ 32 * depth)
    && (match hs with | some h => decide (kBlocks k ≤ h.rows) | none => true)

/-- MMA (R356). -/
def execMma (w : ArithWord) (s : State) := issue (.mma w) w.head s
  (once [w.c.toNat, w.c.toNat + 1, w.c.toNat + 2] fun v s _ rs =>
    let g := rs[0]?.getD {}
    let x := rs[1]?.getD {}
    let h := rs[2]?.getD {}
    let b := s.myBlk v
    let mx := w.x.getLsbD 2
    let hs := if mx ∧ bits h.v.toNat 31 6 = 0 then b.atLevel (h.v.toNat % 64) [.bstore] else none
    match b.atLevel (w.d.toNat % 64) [.acc], b.atLevel (w.a.toNat % 64) [.block, .cell], b.atLevel (w.b.toNat % 64) [.bstore] with
    | some hc, some ha, some hb =>
      if mx && hs.isNone then .error (raiseHandle v [(h.v.toNat % 64, false)])
      else if ha.t != w.t || hb.t != w.t || (hs.any fun e => e.t != .byte) then .error (raiseSel v .tagMismatch)
      else match firstStop [if w.xSig then vaErr v g 8 else none, if mx then vaErr v x 1 else none] with
        | some e => .error e
        | none =>
          if !mmaShape w.t hc ha hb hs (s.rcd b).depth then .error (raiseSel v .tileSpace)
          else .ok (s.queueCmd v {
            seq := 0, unit := 0, pc := 0, engine := .matrix, op := 0, w := w, ops := [g.v, x.v], handles := [hc, ha, hb] ++ hs.toList })
    | y, z, q => .error (raiseHandle v [(w.d.toNat % 64, y.isSome), (w.a.toNat % 64, z.isSome), (w.b.toNat % 64, q.isSome)]))

/-- MDRAIN, MHAD and MZERO issue (R355) once their handles are checked. -/
def arrayCommand (w : ArithWord) (op : Nat) (handles : Block → Except (Cause × Word) (List TileEntry)) (v : View) (s : State) (_ : Nat)
    (rs : List Reg) : Eff :=
  let g := rs[0]?.getD {}
  match handles (s.myBlk v) with
  | .error (c, h) => .error (raiseSel v c 0 h)
  | .ok hs =>
    match (if w.xSig then vaErr v g 8 else none) with
    | some e => .error e
    | none => .ok (s.queueCmd v { seq := 0, unit := 0, pc := 0, engine := .matrix, op := op, w := w, ops := [g.v], handles := hs })

/-- MDRAIN (R355). -/
def execMdrain (w : ArithWord) (s : State) := issue (.mdrain w) w.head s
  (once [w.c.toNat] (arrayCommand w 1 fun b =>
    match b.atLevel (w.a.toNat % 64) [.acc], b.atLevel (w.d.toNat % 64) [.block, .cell] with
    | some ha, some hd =>
      if hd.t != w.t then .error (.tagMismatch, 0)
      else if hd.rows < ha.rows ∨ hd.cols < drainCols w.t then .error (.tileBounds, 0) else .ok [ha, hd]
    | none, _ => .error (.tileHandle, tileInfo (w.a.toNat % 64) 0 0)
    | _, _ => .error (.tileHandle, tileInfo (w.d.toNat % 64) 0 0)))

/-- MHAD (R355). -/
def execMhad (w : ArithWord) (s : State) := issue (.mhad w) w.head s
  (once [w.c.toNat] (arrayCommand w 2 fun b =>
    match b.atLevel (w.a.toNat % 64) [.acc] with
    | some ha => .ok [ha]
    | none => .error (.tileHandle, tileInfo (w.a.toNat % 64) 0 0)))

/-- MZERO (R355). -/
def execMzero (w : ArithWord) (s : State) := issue (.mzero w) w.head s
  (once [w.c.toNat] (arrayCommand w 3 fun b =>
    match b.atLevel (w.a.toNat % 64) [.acc, .bstore] with
    | some ha => .ok [ha]
    | none => .error (.tileHandle, tileInfo (w.a.toNat % 64) 0 0)))

/-! ## Effects of the commands -/

/-- Row i of MMA's A in pass p: the codes of its blocks (R356, R357); 127 beyond K. A code that cannot be read is an
error with its VA. -/
def State.rowCodes (s : State) (inst : Nat) (base : Word) (blocks per p i : Nat) : Except (MemErr × Word) (List Nat) :=
  (List.range per).foldr (fun n acc =>
    if blocks ≤ p * per + n then (match acc with | .ok l => .ok (127 :: l) | e => e)
    else
      match s.engRead inst (base + .ofNat 64 (i * blocks + p * per + n)) 1 with
      | .error e => .error e
      | .ok x => acc.map (x :: ·)) (.ok [])

/-- MMA's progress: the state, or a failure of a VA with the state that it left. -/
abbrev MmaRes := Except (MemErr × Word × State) State

/-- A vector of the sequencer enters, and all its columns land (R357). -/
def Core.wholeVector (k : Core) (set row : Nat) (replace : Bool) (r : List Nat × Nat) : Core :=
  let x : Vec := { at0 := k.arr.beat, set := set, replace := replace, row := row, sums := r.1.map (.ofNat 64 ·) }
  let k1 := (List.range 128).foldl (fun k j => k.landColumn x j) k
  { k1 with arr := { k1.arr with beat := k1.arr.beat + r.2 } }

/-- Row i of one pass enters and lands (R357). -/
def State.mmaRow (s : State) (c : Nat) (b : Block) (k : Cmd) (hc ha : TileEntry) (p c0 i : Nat) :
    MmaRes :=
  let t := ha.t
  let mx := k.w.x.getLsbD 2
  let per := if b.bitmaps.isSome then 128 else 4 * kSpan t
  match (if mx then s.rowCodes b.inst (k.ops[1]?.getD 0) (kBlocks ha.kOf) per p i else .ok []) with
  | .error e => .error (e.1, e.2, s)
  | .ok codes =>
    let x := s.vectorSums c b ha c0 b.bitmaps (p % 2) i (codeAt codes)
    let row := hc.base + (if t == .lg6x8 then 2 * i else i)
    .ok (s.modCore c fun q => q.wholeVector (p % 2) row (p == 0 && !k.w.x.getLsbD 0) x)

/-- MMA's passes in order (R357): each sets the map, loads a weight set and gives a beat to every row. -/
def State.mmaPass (s : State) (c : Nat) (b : Block) (k : Cmd) (hc ha hb : TileEntry) (hs : Option TileEntry) (p : Nat) :
    MmaRes :=
  let t := ha.t
  let sparse := b.bitmaps.isSome
  let e := perElem t
  let spanA := if sparse then 4096 else 128 * kSpan t
  let spanB := if sparse then 4096 else 128 * macs t
  let c0 := p * spanA / e
  let s1 := s.modBlk c fun b => { b with map := some (k.w.a.toNat % 64, c0, t) }
  let s2 := s1.loadWeights c b (p % 2) hb hs (p * spanB / e)
  (List.range ha.rows).foldl (fun r i => match r with
    | .ok s => s.mmaRow c b k hc ha p c0 i
    | .error e => .error e) (.ok s2)

/-- MMA (R356, R357). -/
def State.mmaEffect (s : State) (c : Nat) (b : Block) (k : Cmd) : MmaRes :=
  match k.handles with
  | hc :: ha :: hb :: hs =>
    let span := if b.bitmaps.isSome then 4096 else 128 * kSpan ha.t
    let s := if k.w.x.getLsbD 2 then s.touchPort b.inst (k.ops[1]?.getD 0) (ha.rows * kBlocks ha.kOf) c else s
    let r : MmaRes := (List.range (ceilDiv ha.kOf span)).foldl (fun r p => match r with
      | .ok s => s.mmaPass c b k hc ha hb hs.head? p
      | .error e => .error e) (.ok s)
    match r with
    | .ok t => .ok (t.modCore c fun q => { q with arr := { q.arr with beat := q.arr.beat + 264 } })
    | .error e => .error e
  | _ => .ok s

/-- MDRAIN (R355): every row in ascending order. -/
def State.mdrainEffect (s : State) (c : Nat) (b : Block) (k : Cmd) : State :=
  match k.handles with
  | [ha, hd] => (List.range ha.rows).foldl (fun s i =>
      (s.drainItems c b hd.t k.w.rm.toNat (ha.base + i) hd i).foldl (State.commitItem · c 0 0) s) s
  | _ => s

/-- The parity of the ones of x. -/
def oddOnes (x : Nat) : Bool := ((List.range 8).filter x.testBit).length % 2 == 1

/-- Element i of a row's Hadamard transform of order o (R355). -/
def hadamardElem (o : Nat) (xs : List Nat) (i : Nat) : Nat :=
  let vs := (List.range o).map fun n =>
    let v := fmt32.val (xs[i / o * o + n]?.getD 0)
    if oddOnes (n &&& (i % o)) then v.flip else v
  if vs.any Val.isNan then fmt32.defaultNan
  else match infSigns vs with
    | g :: gs => if gs.all (· == g) then fmt32.infP g else fmt32.defaultNan
    | [] =>
      let t := sumFinite vs
      let r := (fmt32.roundInt 0 t.1 (t.2 - (if o = 16 then 2 else 3)) false).1
      match fmt32.val r with
      | .inf g => fmt32.signed g fmt32.maxP
      | _ => r

/-- MHAD (R355): every row in place. -/
def State.mhadEffect (s : State) (c : Nat) (k : Cmd) : State :=
  match k.handles with
  | [ha] => s.modCore c fun q => (List.range ha.rows).foldl (fun q i =>
      let xs := (List.range 128).map fun j => q.getAcc (ha.base + i) j
      let o := if k.w.x.getLsbD 0 then 64 else 16
      (List.range 128).foldl (fun q j => q.setAcc (ha.base + i) j (hadamardElem o xs j)) q) q
  | _ => s

/-- The bytes of +0 in a type: LG6's zero is the code 0x10 (R254). -/
def Ty.zeroBytes (t : Ty) : List Byte := List.replicate t.bytes (if t == .lg6x8 then 0x10 else 0)

/-- MZERO (R355): +0 in every element. -/
def State.mzeroEffect (s : State) (c : Nat) (b : Block) (k : Cmd) : State :=
  match k.handles with
  | [e] =>
    if e.level = .acc then s.modCore c fun q => (List.range e.rows).foldl (fun q i =>
      (List.range 128).foldl (fun q j => q.setAcc (e.base + i) j 0) q) q
    else (fillItems s c b e (Ty.zeroBytes e.t)).foldl (State.commitItem · c 0 0) s
  | _ => s

/-- The effect of a command of the queue, or the VA that failed. -/
def State.matrixEffect (s : State) (c : Nat) (b : Block) (k : Cmd) : MmaRes :=
  match k.op with
  | 0 => s.mmaEffect c b k
  | 1 => .ok (s.mdrainEffect c b k)
  | 2 => .ok (s.mhadEffect c k)
  | 3 => .ok (s.mzeroEffect c b k)
  | _ => match k.handles with
    | e :: hs => .ok (s.loadWeights c b (k.w.sub.toNat % 2) e hs.head? ((k.ops[0]?.getD 0).toNat % 2 ^ 32))
    | [] => .ok s

/-- MATRIX_COMMAND_START (R342, R353): the head of the queue starts, once no reduction is open and no stop is asked. -/
def State.matrixStart (s : State) (c : Nat) : State :=
  match s.blk c with
  | none => s
  | some b =>
    match b.mqueue.head? with
    | none => s
    | some k =>
      if (b.stop.isSome && !b.liveUnits.isEmpty) || !(s.core c).arr.opened.isEmpty || (s.core c).arr.running.isSome then s
      else (s.modBlk c fun b => b.setCmd { (b.cmds.find? (·.seq == k.seq)).getD k with state := .running }).modCore c fun q =>
        { q with arr := { q.arr with running := some k.seq } }

/-- MATRIX_COMMAND_START (R342). -/
def execMatrixCommandStart (core : Nat) (s : State) : Host.Outcome State Fault Refusal :=
  if Config.numCores ≤ core then .fault .badPlace else .next (s.matrixStart core)

/-- The queue moves past its head, and the MAMAPs and MBMAPs that follow take effect. -/
def State.nextMatrix (s : State) (c seq : Nat) : State :=
  (s.modBlk c fun b =>
    let q := b.mqueue.filter fun k => 10 ≤ k.op || k.seq != seq
    settleMaps q { b with mqueue := q }).modCore c fun q =>
    { q with arr := { q.arr with running := if q.arr.running == some seq then none else q.arr.running } }

/-- The accumulators after a failed command: each word holds its old value or the new one (R328, log 13). -/
def mixAccs (seq : Nat) (old new : List Host.Cell) : List Host.Cell :=
  ((old ++ new).map (·.1)).eraseDups.foldl (fun m a =>
    if cellGet old a == cellGet new a then m
    else if Config.faultedByteLanded seq a then cellSet m a (cellGet new a) else m) old

/-- A command with the entries that its handles name as it works; none where a mate has freed one since (R205, R209). -/
def Block.liveCmd (b : Block) (k : Cmd) : Option Cmd :=
  match k.op, k.handles with
  | 0, hc :: ha :: hs => (b.liveEntry (k.w.a.toNat % 64) ha).map fun h => { k with handles := hc :: h :: hs }
  | 1, [ha, hd] => (b.liveEntry (k.w.d.toNat % 64) hd).map fun h => { k with handles := [ha, h] }
  | _, _ => some k

/-- A command of the array works and completes (R355, R356, R345): release, signal, then its result. It sees the stores that its
unit committed before it (R167), and waits for them, for room in its result queue, and for a pin in its way. A handle that its owner has
freed ends it with TILE_HANDLE (R205, R209). (DEDUCED, log 101: unsafe.) -/
def matrixFinish (c : Nat) (b : Block) (k : Cmd) (s : State) : Host.Outcome State Fault Refusal :=
  if !s.resultRoom c k 1 then .next s
  else
    let s0 := s.landAll c
    let sig := if k.op != 4 && k.w.xSig then some (k.ops[0]?.getD 0) else none
    let fail (t : State) (va : Word) : Host.Outcome State Fault Refusal := .next ((t.nextMatrix c k.seq).failCmd c k (some 1) .engineFault va)
    if s0.unitTravels c k.unit then .next s0
    else match s0.engAcquire c b k sig, b.liveCmd k with
      | .error (.fault f), _ => .fault f
      | .error (.pinned p l), _ => .next (s0.markRefused p l)
      | .error (.cause _), _ => fail s0 (sig.getD 0)
      | .ok s1, none => .next ((s1.nextMatrix c k.seq).failCmd c k (some 1) .tileHandle 0)
      | .ok s1, some live =>
        match s1.matrixEffect c b live with
        | .error (.fault f, _, _) => .fault f
        | .error (.pinned p l, _, _) => .next (s.markRefused p l)
        | .error (.cause _, va, t) =>
          fail (t.modCore c fun q => { q with acc := mixAccs k.seq (s1.core c).acc q.acc }) va
        | .ok s2 =>
          match s2.endCmd c b k 1 sig 1 with
          | .error (.fault f) => .fault f
          | .error (.pinned p l) => .next (s.markRefused p l)
          | .error (.cause _) => fail s2 (sig.getD 0)
          | .ok r => .next (r.1.nextMatrix c k.seq)

/-- The command that the sequencer runs. -/
def State.runningCmd (s : State) (c : Nat) (b : Block) : Option Cmd :=
  (s.core c).arr.running.bind fun n => b.cmds.find? fun k => k.engine == .matrix && k.seq == n && !k.finished

/-- MATRIX_COMMAND_COMPLETE (R355). -/
def execMatrixCommandComplete (core : Nat) (s : State) : Host.Outcome State Fault Refusal :=
  if Config.numCores ≤ core then .fault .badPlace
  else match s.blk core with
    | none => .next s
    | some b => match s.runningCmd core b with
      | none => .next s
      | some k => if k.op = 4 then .next s else matrixFinish core b k s

/-- The MLOADB that can complete next (R342, R345): the queue's running one, or the oldest of a context whose earlier
queue commands are over, while no other context's reduction is open. Neither while a vector of its set is in the array. -/
def State.readyLoad (s : State) (c : Nat) (b : Block) : Option Cmd :=
  let arr := (s.core c).arr
  let clear := fun (k : Cmd) => arr.vecs.all fun x => x.set != k.w.sub.toNat % 2
  ((s.runningCmd c b).filter fun k => k.op == 4 && clear k).orElse fun _ =>
    let loads := b.cmds.filter fun k => k.engine == .matrix && k.op == 4 && !k.finished && decide (16 ≤ k.unit) && decide (k.unit < 20)
    loads.reverse.find? fun k =>
      clear k && !(loads.any fun x => x.unit == k.unit && decide (x.seq < k.seq))
        && !(b.mqueue.any fun x => decide (x.op < 10) && x.unit == k.unit && decide (x.seq < k.seq))
        && (arr.opened.all (· == k.unit))

/-- MLOADB_COMPLETE (R345). -/
def execMloadbComplete (core : Nat) (s : State) : Host.Outcome State Fault Refusal :=
  if Config.numCores ≤ core then .fault .badPlace
  else match s.blk core with
    | none => .next s
    | some b => match s.readyLoad core b with
      | none => .next s
      | some k => matrixFinish core b k s

/-! ## AMX -/

/-- The element format of a record's FMT byte (R253). -/
def recordTy : Nat → Ty
  | 1 => .f8x8
  | 2 => .e5x8
  | _ => .f4x16

/-- A lane's contribution (R358): its exact value, a NaN for a NaN or a scale of 0xFF. -/
def amxPart (t : Ty) (x : Word) : Val :=
  if t == .f32 then fmt32.val (x.toNat % 2 ^ 32)
  else match scaleExp (x.toNat / 256 % 256) with
    | none => .nan true
    | some e => match (fmtOf t).val (elem t 0 x) with
      | .fin s n d => .fin s n (d + e)
      | v => v

/-- The exact sum of two values that are no NaNs; none for +∞ and −∞. -/
def addExact : Val → Val → Option Val
  | .inf a, .inf b => if a = b then some (.inf a) else none
  | .inf a, _ => some (.inf a)
  | _, .inf b => some (.inf b)
  | .fin a m d, .fin b n e =>
    let t := addDyadic a m d b n e
    some (.fin (if t.1 = 0 then zeroSign 0 a b else decide (t.1 < 0)) t.1.natAbs t.2)
  | x, _ => some x

/-- The elements and scale of a record after AMX (R359). A NaN element of the record that no condition of R359 names
stays a NaN of its sign. -/
def amxBlock (f : Ty) (codes : List Nat) (scale : Nat) (ys : List Val) : List Nat × Nat :=
  let g := fmtOf f
  match scaleExp scale with
  | none => (codes.map fun _ => 0, 0xFF)
  | some e =>
    if ys.any Val.isNan then (codes.map fun _ => 0, 0xFF)
    else
      let xs := (codes.zip ys).map fun c => match g.val c.1 with
        | .nan q => some (.nan q)
        | .inf s => addExact (.inf s) c.2
        | .fin s n d => addExact (.fin s n (d + e)) c.2
      if xs.any Option.isNone then (codes.map fun _ => 0, 0xFF)
      else
        let vs := xs.filterMap id
        let k := (qntScale f (vs.filter fun v => !v.isNan)).getD (-127)
        ((codes.zip vs).map fun c => match c.2 with
          | .nan _ => g.nanFrom g c.1
          | .inf s => (g.ofVal 0 (.inf s)).1
          | .fin s n d => (g.ofVal 0 (.fin s n (d - k))).1, (k + 127).toNat)

/-- The 32 element codes of a record's bytes (R253). -/
def recordCodes (r4 : Bool) (bs : List Byte) : List Nat :=
  if r4 then (bs.take 16).flatMap fun b => [b.toNat % 16, b.toNat / 16] else (bs.take 32).map (·.toNat)

/-- Codes packed in a record's bytes. -/
def packCodes (r4 : Bool) (cs : List Nat) : List Byte :=
  if r4 then (List.range 16).map fun j => .ofNat 8 (cs[2 * j]?.getD 0 + 16 * cs[2 * j + 1]?.getD 0) else cs.map (.ofNat 8 ·)

/-- A record after one AMX, and its COUNT before (R358, R359). -/
def amxRecord (r4 : Bool) (t : Ty) (bs : List Byte) (parts : List Word) : List Byte × Nat :=
  let n := if r4 then 16 else 32
  let scale := (bs[n]?.getD 0).toNat
  let fmt := (bs[n + 1]?.getD 0).toNat
  let count := leNat ((bs.drop (n + 2)).take 2)
  let r := amxBlock (recordTy fmt) (recordCodes r4 bs) scale (parts.map (amxPart t))
  (packCodes r4 r.1 ++ [.ofNat 8 r.2, .ofNat 8 fmt] ++ leBytes 2 ((count + 1) % 2 ^ 16) ++ bs.drop (n + 4), count)

/-- Bytes of a record. -/
def recordSize (r4 : Bool) : Nat := if r4 then 32 else 64

/-- The groups of a request make their updates in order, each indivisible at its home slice (R358, R360). -/
def State.amxAll (s : State) (c : Nat) (q : SliceReq) : List SliceItem → State × List Word
  | [] => (s, [])
  | it :: its =>
    let r4 := q.op == 49
    let s1 := (s.requestL2 c it.pa (.ofNat 2 q.sub) true).count c 0x44 1
    let r := amxRecord r4 q.t (s1.homeRead it.pa (recordSize r4)) it.parts
    let rest := (s1.sliceWrite c it.pa r.1 (.ofNat 2 q.sub)).amxAll c q its
    (rest.1, .ofNat 64 r.2 :: rest.2)

/-- What a home slice finds wrong with a group's record (R358): its format, then poison. -/
def State.recordErr (s : State) (r4 : Bool) (pa : Nat) : Option Cause :=
  let fmt := cellGet s.mem (pa + recordSize r4 / 2 + 1)
  if !(if r4 then fmt == 3 else fmt == 1 || fmt == 2) then some .mxFormat
  else if s.poisonedIn pa (recordSize r4) then some .poisonData else none

/-- The groups of an AMX: the selected lanes of each 32 (R358). -/
def View.amxGroups (v : View) : List (List Nat) :=
  (List.range 4).filterMap fun g =>
    let l := v.lanes.filter fun i => i / 32 == g
    if l.isEmpty then none else some l

/-- A group's checks at issue (R358): tags, alignment, translation. (DEDUCED, log 43: unsafe.) -/
def amxErr (w : AtomWord) (v : View) (s : State) (g : List Nat) : Except Stop Nat :=
  let i := g.head?.getD 0
  let va := (v.u.read i w.a.toNat).v
  let dataTag := fun (r : Reg) => if w.t == .f32 then tagMatches .f32 r.tag else r.tag == .n32 || r.tag == .n64 || r.tag == .b64
  let bad := g.filter fun j => !dataTag (v.u.read j w.b.toNat) || (j == i && !baseTag (v.u.read i w.a.toNat).tag)
  let raise (c : Cause) (ls : List Nat) : Except Stop Nat := .error (.raise { cause := c, lanes := maskOfList ls, info1 := va })
  if !bad.isEmpty then .error (.raise { cause := .tagMismatch, lanes := maskOfList bad })
  else if va.toNat % recordSize (w.sub == 1) ≠ 0 then raise .mxAlign g
  else match s.translate v.core .store va with
    | .error (.cause c) => raise c g
    | .error (.fault f) => .error (.fault f)
    | .error (.pinned k l) => .error (.park (pinWait s k l) (s.markRefused k l))
    | .ok pa => if (s.window pa).isSome then .error (.fault .noMemory) else .ok pa

/-- The slice's items of the groups, each with its 32 contributions, or the first group's fault. -/
def amxItems (w : AtomWord) (v : View) (s : State) : List (List Nat) → Except Stop (List SliceItem)
  | [] => .ok []
  | g :: gs =>
    match amxErr w v s g with
    | .error e => .error e
    | .ok pa =>
      match s.recordErr (w.sub == 1) pa with
      | some c =>
        let r : TrapReq := { cause := c, lanes := maskOfList g, info1 := (v.u.read (g.head?.getD 0) w.a.toNat).v }
        .error (if c = .poisonData then .raiseAt r (s.enterRegion v) else .raise r)
      | none => match amxItems w v s gs with
        | .error e => .error e
        | .ok its =>
          let base := g.head?.getD 0 / 32 * 32
          let x := fun q => if g.contains (base + q) then (v.u.read (base + q) w.b.toNat).v else
            if w.t == .f32 then 0 else 0x7F00
          .ok ({ lane := base, pa := pa, parts := (List.range 32).map x } :: its)

/-- AMX (R358): the region ends first, then every group's update is made at its record's home slice. -/
def execAmx (w : AtomWord) (s : State) := issue (.amx w) w.head s fun v s =>
  let finish (t : State) (res : List Word) : Eff :=
    let counts := v.amxGroups.zip res
    andWatch v true (v.amxGroups.map fun g => (g.head?.getD 0, (v.u.read (g.head?.getD 0) w.a.toNat).v)) (recordSize (w.sub == 1))
      (putReg v (t.acquire v.core w.sc.toNat) w.d.toNat fun i =>
        mkReg (((counts.find? fun x => x.1.contains i).map (·.2)).getD 0) .n32)
  match v.sliceDone with
  | some res => finish (s.closeRegion v) res
  | none =>
    let s0 := (s.commitPail v.core v.unit).landAll v.core
    match amxItems w v { s with mem := s0.mem, poison := s0.poison } v.amxGroups with
    | .error e => .error e
    | .ok items =>
      let s := s.fillTlbs v.core (v.amxGroups.map fun g => (v.u.read (g.head?.getD 0) w.a.toNat).v)
      let q : SliceReq := { op := if w.sub = 1 then 49 else 48, t := w.t, sub := w.ch.toNat, items := items }
      let spans := items.map fun it => (it.pa, recordSize (w.sub == 1))
      let hold (x : Wait) : Wait := { x with req := some q, spans := spans }
      match pinnedItem s v.core items with
      | some (k, pa) => parkEnd v (hold (pinWait s k pa)) (s.markRefused k pa)
      | none =>
        let s1 := (s.closeRegion v).release v.core w.sc.toNat
        let s2 := items.foldl (fun s it => s.landLine v.core it.pa) s1
        if s2.unreleased v.core v.unit w.sc.toNat || (decide (3 ≤ w.sc.toNat) && s.openAccess v) || v.behind s.cyc spans true
        then parkEnd v (hold (releaseWait s)) s
        else if s.slow && !items.isEmpty then
          .error (.park (hold { kind := .slice, since := s.cyc, a := v.slot })
            (((s.waitRegion v).release v.core w.sc.toNat) |> items.foldl fun s it => s.landLine v.core it.pa))
        else
          let r := s2.amxAll v.core q items
          finish r.1 r.2

/-- The wait of a split for a home slice after one more of its lanes has been served. -/
def Wait.served (w : Wait) (x : Word) : Wait :=
  match w.req with
  | none => w
  | some q => { w with req := some { q with items := q.items.tail }, res := w.res ++ [x], done := q.items.length ≤ 1 }

/-- A home slice performs the next lane or group of the request of a parked split: ATOM, CAS and SIGNAL (R183), or AMX (R359).
Another unit's operation may fall between two of them. A word that has become poisoned, or a record that has changed its format,
before the first is served is met again at the unit. (DESIGN CHOICE, log 9: unsafe.) -/
def serveSlice (amx : Bool) (core unit split : Nat) (s : State) : Host.Outcome State Fault Refusal :=
  if Config.numCores ≤ core then .fault .badPlace
  else match s.unit core unit with
    | none => .next s
    | some p =>
      match (p.split split).waits.find? fun w => w.kind == .slice && !w.done with
      | none => .next s
      | some w =>
        match w.req, (w.req.map (·.items)).getD [] with
        | some q, it :: _ =>
          if (decide (48 ≤ q.op)) != amx then .next s
          else match s.pinHolder core it.pa with
            | some k => .next (s.markRefused k it.pa)
            | none =>
              let bad := w.res.isEmpty && if amx then q.items.any fun it => (s.recordErr (q.op == 49) it.pa).isSome
                else q.items.any fun it => s.poisonedIn it.pa q.t.bytes
              if bad then .next (s.modUnit core unit fun u => u.modSplit split fun x => { x with waits := [] })
              else
                let r := if amx then s.amxAll core q [it] else s.sliceAll core q [it]
                .next (r.1.modWaits core unit split fun w => if w.kind == .slice && !w.done then w.served (r.2.head?.getD 0) else w)
        | _, _ => .next s

/-- SLICE_ATOMIC (R183). -/
def execSliceAtomic (core unit split : Nat) (s : State) := serveSlice false core unit split s

/-- SLICE_AMX (R359). -/
def execSliceAmx (core unit split : Nat) (s : State) := serveSlice true core unit split s

end Sys2Proof.Machine
end

