-- ==== Sys2Proof/Machine/Ready.lean ====
section
/-! DEFINITION. When a wait is over (R71, R225), and who is ready: the splits of a warp (R92, R306, R308), the contexts
of a block and the one that its VLIW side runs (R59, R65); YIELD (R92). -/

namespace Sys2Proof.Machine

/-! ## When a wait is over -/

/-- Whether the relation of a waiting SWAIT holds at the home slice (R191). -/
def State.swaitHolds (s : State) (w : Wait) : Bool :=
  w.kind == .signal && !s.poisonedIn w.a 8
    && signalHolds (w.n % 4) (if w.n / 4 = 1 then .i64 else .n64) (s.homeWord w.a) (.ofNat 64 w.b)

/-- Whether a waiting ACQ would complete: its guard is free or its count reached, or it meets a fault (R155, R156, R159). -/
def State.acquirable (s : State) (c u : Nat) (b : Block) (w : Wait) : Bool :=
  let va := w.res[0]?.getD 0
  match s.translate c (if w.n = 1 then .load else .store) va with
  | .error (.pinned _ _) => false
  | .error _ => true
  | .ok pa => (s.pinHolder c pa).isNone && ((s.landLine c pa).poisonedIn pa 8
      || (s.tryAcquire c u b va pa (w.res[1]?.getD 0).toNat (w.n == 1) w.b).isSome)

/-- Whether the data that a context's bundle waits for is there (R59, R105): its next n entries have answers. -/
def State.dataThere (s : State) (c u n : Nat) : Bool :=
  let s1 := if s.slow then s else s.answerAll c u
  match s1.blk c, s1.unit c u with
  | some b, some p =>
    (((p.q.loads.filter fun e => !e.popped).take n).takeWhile fun e => !s1.loadBlocked c b p.q e).all fun e => e.ans != .pending
  | _, _ => true

/-- Whether EXPAND finds a free warp slot and registers on a quarter (R111). -/
def State.warpRoom (s : State) (c : Nat) (b : Block) : Bool :=
  let lanes := quarterLanes ((s.core c).nGroups - b.vgroups)
  b.freeWarp.isSome && (placeOne lanes ((List.range lanes.length).map b.demand) (s.rcd b).regs 32).isSome

/-- Whether the dispenser of a core's cell can answer a context of it in its turn (R305). -/
def State.tileThere (s : State) (c u : Nat) (b : Block) : Bool :=
  (s.tileQueue b (cellOf c)).head? == some (c, u)
    && ((if s.slow then s else s.refill b.inst b.launch (cellOf c)).takeTile b.inst b.launch (cellOf c)).isSome

/-- Whether a pin of a core on the line of an address is to break now: a retry in that cycle comes after it (R161, R170). -/
def State.breaking (s : State) (core pa : Nat) : Bool :=
  (s.core core).pins.any fun p => p.line == pa / 128 * 128 && p.refusedAt.any fun r => decide (r + 65536 ≤ s.cyc)

/-- Whether a wait of split k of unit u is over, so that its instruction can issue (R71, R92, R100, R306): what another agent
performs ends with its event. -/
def State.waitOver (s : State) (c u k : Nat) (b : Block) (p : ProgUnit) (w : Wait) : Bool :=
  match w.kind with
  | .barrier =>
    if w.arrived then (s.barrier b w.a).gen != w.b
    else (s.barrier b w.a).arrived.contains (b.bidx, u) || p.kind != .warp || p.othersAt k w.a
  | .guard => w.done || s.acquirable c u b w
  | .signal => w.done || s.swaitHolds w
  | .decision => (b.dq[p.dqPos.getD b.dqBase - b.dqBase]?).isSome || !b.feStarted || b.feExited
  | .decisionFull => b.readers.isEmpty || decide (b.dq.length < 64)
  | .stageFull =>
    let t : Stage := (((s.launch b.inst b.launch).map (·.stages)).getD [])[w.a]?.getD {}
    decide (t.recs.length < t.cap)
  | .sleep => decide (w.a ≤ s.cyc)
  | .event => (p.chosen w.n).isSome
  | .yield => false
  | .partner => w.done || (b.unit w.a).isNone
  | .context => decide (b.aheadOf .context u w.first < b.freeContexts) && decide (w.n ≤ 16 * b.vgroups)
  | .warpSlot => b.aheadOf .warpSlot u w.first == 0 && s.warpRoom c b
  | .load => s.dataThere c u w.n
  | .fill => w.res.all fun l => !((s.core c).fills.any fun f => f.1 == l.toNat)
  | .engine => !(p.results[w.a]?.getD []).isEmpty
  | .reply => (p.svc.map fun q => q.reply.isSome).getD true
  | .slice | .mail | .invalidate => w.done
  | .late => !(s.answerAll c u).lateLoad c u
  | .nextTile => if p.kind == .context then s.tileThere c u b else w.done
  | .pinned => decide (w.since + 256 ≤ s.cyc) && !s.breaking w.a w.b
  | .release => w.done || !s.slow || w.n != 1
  | .array => w.a != 1 || b.stop.isNone
  | .queueFull | .tile | .handler => true

/-! ## Splits -/

/-- The warps of a block with their numbers. -/
def Block.warps (b : Block) : List (Nat × ProgUnit) := (List.range 16).filterMap fun u => (b.unit u).map (u, ·)

/-- Whether a warp is parked in a long wait or waits at a join with every split (R308). -/
def ProgUnit.parked (p : ProgUnit) : Bool := p.splits.all fun t => t.mask == 0 || t.joined || t.waits.any (·.kind.long)

/-- Bytes by which a warp leads the block's slowest warp that is not parked (R308). -/
def Block.lead (b : Block) (p : ProgUnit) : Nat :=
  (b.warps.filter fun x => !x.2.parked).foldl (fun m x => max m (p.fox - x.2.fox)) 0

/-- The fox of a block (R308): the greatest count; a tie keeps the current fox, else the lowest slot. -/
def Block.chase (b : Block) : Option Nat :=
  let top := b.warps.foldl (fun m x => max m x.2.fox) 0
  let best := (b.warps.filter fun x => x.2.fox == top).map (·.1)
  match b.fox with
  | some u => if best.contains u then some u else best.head?
  | none => best.head?

/-- The demoted fox may not issue while its lead would exceed 8,192 bytes (R308). -/
def Block.held8192 (b : Block) (u : Nat) (p : ProgUnit) : Bool := b.chase == some u && decide (8192 < b.lead p + 8)

/-- Whether a split of a unit is free to issue: it holds lanes, waits at no join, and every wait of it is over (R306). -/
def State.splitFree (s : State) (c u k : Nat) (b : Block) (p : ProgUnit) (t : Split) : Bool :=
  p.trap.isNone && t.mask != 0 && !t.joined && t.waits.all (s.waitOver c u k b p) && s.letsIssue c u b p

/-- Whether a split of a warp is ready (R306, R308). -/
def State.splitReady (s : State) (c u k : Nat) (b : Block) (p : ProgUnit) (t : Split) : Bool :=
  s.splitFree c u k b p t && !b.held8192 u p

/-- Whether the deferred split of an entry may start (R71, R73): every other split that holds lanes of the owed mask waits
at a join or in a long wait that is not over. Its start ends the region, and no held store may pass an earlier access (R74). -/
def State.mayStart (s : State) (c u : Nat) (b : Block) (p : ProgUnit) (e : DivEntry) : Bool :=
  p.trap.isNone && !e.started && e.dmask != 0 && !p.lateStore none && (p.splits.zipIdx).all fun (t, k) =>
    t.mask &&& e.owed == 0 || t.joined || t.waits.any fun w => w.kind.long && !s.waitOver c u k b p w

/-- The other ready splits of a quarter, as numbers unit · 256 + split (R92). -/
def State.readyOthers (s : State) (c : Nat) (b : Block) (quarter unit split : Nat) : List Nat :=
  (b.warps.filter fun x => x.2.quarter == quarter).flatMap fun x => (x.2.splits.zipIdx).filterMap fun (t, k) =>
    if s.splitReady c x.1 k b x.2 t && !(x.1 == unit && k == split) then some (x.1 * 256 + k) else none

/-- YIELD (R92): in a warp the split is not ready until each other ready split of its quarter has issued, or 16
cycles have passed. -/
def execYield (w : ArithWord) (s : State) := issue (.yield w) w.head s fun v s =>
  match v.u.kind with
  | .warp =>
    let others := s.readyOthers v.core (s.myBlk v) v.u.quarter v.unit v.split
    if v.sel = 0 || others.isEmpty then .ok s
    else .ok (s.modU v fun u => u.modSplit v.split fun p =>
      { p with waits := [{ kind := .yield, since := s.cyc, res := others.map (.ofNat 64 ·) }] })
  | _ => .ok s

/-! ## The VLIW side -/

/-- Whether a context is ready (R59). -/
def State.contextReady (s : State) (c u : Nat) (b : Block) : Bool :=
  match b.unit u with
  | none => false
  | some p => (p.splits.zipIdx).all fun (t, k) => s.splitFree c u k b p t

/-- Whether a context's bundle blocks at a point of R59. -/
def State.switchedOut (s : State) (c u : Nat) (b : Block) : Bool :=
  match b.unit u with
  | none => true
  | some p => (p.splits.zipIdx).any fun (t, k) => t.waits.any fun w => w.kind.switches && !s.waitOver c u k b p w

/-- The next ready context, round-robin from the number after u's (R59). -/
def State.nextContext (s : State) (c u : Nat) (b : Block) : Option Nat :=
  ([1, 2, 3].map fun d => 16 + (u - 16 + d) % 4).find? fun n => s.contextReady c n b

/-- The context that runs on a block's VLIW side (R59, R65): the current one, but where it has gone or still blocks at a switch
point, the next ready one. -/
def State.runs (s : State) (c : Nat) (b : Block) : Nat :=
  let u := 16 + b.ctxNow
  if s.switchedOut c u b then (s.nextContext c u b).getD u else u

end Sys2Proof.Machine
end

