-- ==== Sys2Proof/Machine/Save.lean ====
section
/-! DEFINITION. Pre-emption and checkpoints: the event ring and MSI-X (R367), the points at which units stop (R225,
R227), the save slot's layout, saving and restoring (R228 to R232, R324, R343, R387), and the clearing of a core (R207). -/

namespace Sys2Proof.Machine

open Host (Cell)

/-! ## Reports to the driver -/

/-- MSI-X vector n is raised (R367). -/
def State.raiseMsix (s : State) (n : Nat) : State := { s with dev := { s.dev with msix := s.dev.msix ++ [n] } }

/-- The number of records of the event ring (R365). -/
def Dev.ringSize (d : Dev) : Nat := 2 ^ (d.evbase.toNat % 16)

/-- One record written at EVHEAD (R367); where a pinned line refuses it, it waits with those after it (R159). -/
def State.tryRecord (s : State) (bs : List Byte) : State :=
  let pa := s.dev.evbase.toNat / 4096 * 4096 + 32 * (s.dev.evhead % s.dev.ringSize)
  if !s.dev.unsent.isEmpty then { s with dev := { s.dev with unsent := s.dev.unsent ++ [bs] } }
  else match s.pinHolder Config.numCores pa with
    | some k => { s.markRefused k pa with dev := { s.dev with unsent := [bs] } }
    | none =>
      let s1 := if paExists pa then s.homeWrite pa bs else s
      ({ s1 with dev := { s1.dev with evhead := s1.dev.evhead + 1 } }).raiseMsix 1

/-- The records that wait for a pinned line of the ring are tried again, in their order (R159). -/
def State.flushRing (s : State) : State :=
  match s.dev.unsent with
  | [] => s
  | l => l.foldl State.tryRecord { s with dev := { s.dev with unsent := [] } }

/-- A record of the event ring (R367). -/
def State.putRecord (s : State) (kind inst q launch blk cause : Nat) : State :=
  s.tryRecord (leBytes 1 kind ++ leBytes 1 inst ++ leBytes 2 q ++ leBytes 4 0 ++ leBytes 8 launch ++ leBytes 8 blk
    ++ leBytes 1 cause ++ leBytes 7 0)

/-- Whether the event ring has no room for one more record. -/
def Dev.ringFull (d : Dev) : Bool := decide (d.ringSize ≤ d.evhead - d.evtail + d.unsent.length)

/-- A record for the driver (R367): none while EVBASE is 0; dropped and counted where the ring is full. -/
def State.ringRecord (s : State) (kind inst q launch blk cause : Nat) : State :=
  if s.dev.evbase = 0 then s
  else if s.dev.ringFull then { s with dev := { s.dev with lost := s.dev.lost + 1 } }
  else s.putRecord kind inst q launch blk cause

/-- The record of kind 5 that counts lost records, once there is room (R367). -/
def State.reportLost (s : State) : State :=
  if s.dev.lost = 0 ∨ s.dev.evbase = 0 ∨ s.dev.ringFull then s
  else
    let t := s.putRecord 5 0 0 s.dev.lost 0 0
    { t with dev := { t.dev with lost := 0 } }

/-! ## Stopping points -/

/-- Whether the handler of a core lets its block be saved (R221, R227): none runs or is due, or M = 0, or it has held
the request past cycle 65,536, in which a TRET still completes (R245). -/
def State.handlerStopped (s : State) (c : Nat) (b : Block) : Bool :=
  match (s.core c).hnd with
  | none => (s.core c).trapQ.isEmpty || b.dying || (s.inst b.inst).trapbase == 0
  | some h => !h.m || decide (65536 < s.cyc - h.start)

/-- Whether a command holds its block back from a save: commands of the matrix queue that have not begun are taken back
(R225, R353). -/
def Cmd.blocksSave (k : Cmd) : Bool := !k.finished && !(k.engine == .matrix && k.state == .waiting)

/-- Whether the array, the engines and the messages on their way let a block be saved (R225); a block whose units have all
retired waits for every command of it (R61), and one whose handler has failed for no reduction. -/
def State.enginesStopped (s : State) (c : Nat) (b : Block) : Bool :=
  (s.core c).arr.running.isNone && ((s.core c).arr.opened.isEmpty || b.dying)
    && !(b.cmds.any fun k => if b.liveUnits.isEmpty then !k.finished else k.blocksSave)
    && (s.core c).sent.isEmpty && s.cores.all fun k => k.sent.all fun m => m.dest != c

/-- Whether every unit of a block but `except` has stopped. -/
def Block.unitsStopped (b : Block) (except : Option Nat) : Bool :=
  (List.range 21).all fun u => some u == except || ((b.unit u).map ProgUnit.stopped).getD true

/-- Whether the block of a core has stopped (R225). -/
def State.blockStopped (s : State) (c : Nat) (b : Block) : Bool :=
  b.unitsStopped none && s.handlerStopped c b && s.enginesStopped c b

/-- A request to stop every block of a gang (R64, R227): the named block as asked, the others as pre-empted. -/
def State.requestStop (s : State) (c : Nat) (r : StopReq) : State :=
  match s.blk c with
  | none => s
  | some b => (s.gangCores b).foldl (fun s k => s.stopBlk k (if k = c then r else { r with cause := .preempt, state := min r.state 2 }))
      s

/-- Whether a block may leave its core (R64, R227): it has stopped, and with it every block of its gang, which stops whole; one
that is discarded waits for no other (R368). -/
def State.gangStopped (s : State) (c : Nat) (b : Block) (r : StopReq) : Bool :=
  s.blockStopped c b && (r.state == 0 || (s.gangCores b).all fun k => ((s.blk k).map fun o => o.stop.isSome && s.blockStopped k o).getD true)

/-- The blocks of a gang are asked to stop when one of them is (R64, R227). -/
def State.spreadStop (s : State) (c : Nat) : State :=
  match s.blk c with
  | none => s
  | some b => match b.stop with
    | none => s
    | some r => if r.state = 0 then s
      else (s.gangCores b).foldl (fun s k => s.stopBlk k { r with cause := .preempt, state := 2 }) s

/-! ## The save slot's contents -/

/-- Bytes of a save slot whose layout the manual does not give (DESIGN CHOICE, log 10). -/
def openBytes (cyc off n : Nat) : List Byte := (List.range n).map fun k => Config.slotByte cyc (off + k)

/-- A part of a save slot: its offset, its bytes, and the offsets of words that are stored poisoned. -/
structure Chunk where
  off : Nat
  bytes : List Byte
  bad : List Nat := []

/-- A barrier's 16 bytes (R229): generation, count, arrived units of this block; the rest is open. -/
def Barrier.chunk (r : Barrier) (bidx n cyc : Nat) : Chunk :=
  let mine := (r.arrived.filter fun x => x.1 == bidx).map (·.2)
  { off := 0x100 + 16 * n
    bytes := leBytes 8 (r.gen + r.count.getD 0 * 2 ^ 32 + (mine.foldl (fun m u => m + 2 ^ u) 0) * 2 ^ 40)
      ++ openBytes cyc (0x108 + 16 * n) 8 }

/-- The operand map and sparse state (R343). -/
def Block.mapBytes (b : Block) : List Byte :=
  let m := b.map.getD (0, 0, .b64)
  let x := b.bitmaps.getD (0, 0)
  leBytes 1 m.1 ++ leBytes 1 ((if b.map.isSome then 1 else 0) + (if b.bitmaps.isSome then 2 else 0))
    ++ leBytes 1 (if b.map.isSome then m.2.2.code else 0) ++ leBytes 1 x.1 ++ leBytes 1 x.2 ++ leBytes 3 0
    ++ leBytes 4 m.2.1 ++ leBytes 4 0

/-- A mailbox (R324): its messages, and its fill count in the header. -/
def mailChunks (l : List Msg) (m : Nat) : List Chunk :=
  [{ off := 0xC00 + m, bytes := leBytes 1 l.length },
   { off := 0x2800 + 32 * m, bytes := (List.range 4).flatMap fun k => leBytes 8 ((l[k]?.map fun x : Msg => x.value).getD 0).toNat }]

/-- The events of R387 to which the manual gives a meaning. -/
def namedEvent (e : Nat) : Bool := [0x00, 0x01, 0x05, 0x10, 0x12, 0x20, 0x31, 0x40, 0x41, 0x44, 0x50, 0x5F].contains e

/-- What counter n of core c shows at a step: its count, to which a running counter of another event has added a free
value. (DESIGN CHOICE, log 12: safe.) -/
def Counter.shown (t : Counter) (step c n : Nat) : Word :=
  if t.running && !namedEvent t.event then t.count + Config.unnamedCount step (4 * c + n) else t.count

/-- The 32 bytes of the counters in a header (R387): of each the count in 7 bytes, and in the eighth the event and, in its bit 7,
whether it runs. (DESIGN CHOICE, log 100: unsafe.) -/
def State.counterBytes (s : State) (c : Nat) : List Byte :=
  ((s.core c).ctrs.zipIdx).flatMap fun (t, n) =>
    leBytes 7 (t.shown s.fresh c n).toNat ++ leBytes 1 (t.event + (if t.running then 128 else 0))

/-- A counter as 8 bytes of a header hold it; the top byte of its count stays as it was saved. -/
def readCounter (bs : List Byte) (old : Counter) : Counter :=
  let e := (bs[7]?.getD 0).toNat
  { event := e % 128, running := decide (128 ≤ e)
    count := .ofNat 64 (old.count.toNat / 2 ^ 56 * 2 ^ 56 + leNat (bs.take 7)) }

/-- The header but its first 8 bytes (R229), with the generation of the checkpoint at hand (R230). -/
def State.headerChunks (s : State) (c : Nat) (b : Block) : List Chunk :=
  [{ off := 0x008, bytes := leBytes 8 (b.gen + 1) ++ leBytes 8 b.index ++ leBytes 8 b.seq }]
    ++ (List.range 32).map (fun n => (s.barrier b n).chunk b.bidx n s.cyc)
    ++ b.binds.mapIdx (fun n e => { off := 0x300 + 24 * n, bytes := match e with
        | some e => leBytes 8 e.guard.toNat ++ leBytes 8 e.base.toNat ++ leBytes 8 e.len.toNat
        | none => leBytes 24 0 })
    ++ [{ off := 0x600, bytes := openBytes s.cyc 0x600 1024 }]
    ++ b.dq.mapIdx (fun n w => { off := 0xA00 + 8 * ((b.dqBase + n) % 64), bytes := leBytes 8 w.toNat })
    ++ ((s.core c).mail.mapIdx fun m l => mailChunks l m).flatten
    ++ [{ off := 0xC40, bytes := s.counterBytes c }, { off := 0xC80, bytes := b.mapBytes }]

/-- An event slot's 16 bytes (R317). -/
def slotRecord (code : Word) : Option EventSlot → List Byte
  | none => leBytes 16 0
  | some e => leBytes 8 e.num.toNat ++ leBytes 4 (e.thresh.toNat % 2 ^ 32) ++ leBytes 3 ((e.handler - code).toNat / 8)
      ++ leBytes 1 (0x80 + (match e.kind with | .barrier => 0 | .copy => 1 | .mbox => 2 | .signal => 3 | .timer => 4))

/-- The split whose PC a unit record holds: the one that trapped, else the first live one. -/
def ProgUnit.mainSplit (p : ProgUnit) : Nat :=
  if p.trap.isSome then p.trapSplit else (p.splits.findIdx? fun t => t.mask != 0).getD 0

/-- Cycles left to the first join deadline or sleep of a unit (R229). -/
def ProgUnit.cyclesLeft (p : ProgUnit) (cyc : Nat) : Nat :=
  let sleeps := p.splits.flatMap fun t => t.waits.filterMap fun w => if w.kind == .sleep then some (w.a - cyc) else none
  match (p.div.filterMap fun e => e.deadline.map (· - cyc)) ++ sleeps with
  | [] => 0
  | x :: xs => xs.foldl min x

/-- The registers of an s-bank as bytes. -/
def bankBytes (l : List Reg) : List Byte := l.flatMap fun r => leBytes 8 r.v.toNat

/-- A unit record (R229), `h` being the handler that a forced save found on this unit with its PC and bank. The return stack
stands oldest entry first. (DESIGN CHOICE, log 83: unsafe.) -/
def ProgUnit.record (p : ProgUnit) (code : Word) (u cyc : Nat) (cause : Cause) (h : Option (Word × List Reg)) : List Chunk :=
  let base := 0x4000 + 0x1000 * u
  let t := p.split p.mainSplit
  let status := (if h.isSome then 1 else 0) + (if t.waits.isEmpty then 0 else 2) + (if t.joined then 4 else 0) + cause.code * 2 ^ 8
  [{ off := base
     bytes := leBytes 8 ((h.map (·.1)).getD t.pc).toNat ++ leBytes 8 t.rpc.toNat ++ leBytes 8 p.rcnt.toNat ++ leBytes 8 status
       ++ leBytes 16 t.mask.toNat ++ leBytes 8 (p.cyclesLeft cyc) },
   { off := base + 0x040, bytes := (List.range 128).flatMap fun i => leBytes 1 (p.lane i).nest },
   { off := base + 0x0C0, bytes := (List.range 128).flatMap fun i => leBytes 2 (if i < p.lanes.length then (p.lane i).predBits else 0) },
   { off := base + 0x1C0
     bytes := ((List.range 32).flatMap fun n => leBytes 8 (p.rets.reverse[n]?.getD 0).toNat) ++ leBytes 8 p.rets.length
       ++ leBytes 2 p.evp.toNat ++ leBytes 2 p.evm.toNat ++ leBytes 2 p.fpctl.toNat ++ leBytes 2 p.fpflags.toNat },
   { off := base + 0x2D0, bytes := p.slots.flatMap (slotRecord code) },
   { off := base + 0x350, bytes := leBytes 8 (p.dqPos.getD 0) ++ p.latch ++ p.latchEntry },
   { off := base + 0x378, bytes := leBytes 8 p.beats ++ leBytes 8 p.beatsEntry },
   { off := base + 0x400, bytes := match h with
       | some h => bankBytes h.2
       | none => if p.kind == .front then bankBytes (p.lane 0).regs else leBytes 512 0 },
   { off := base + 0x600, bytes := openBytes cyc (base + 0x600) 0x9A0 }]

/-- The layout of the register image (R229): units in ascending number with their lanes and registers per lane. -/
def Block.regLayout (b : Block) : List (Nat × Nat × Nat) :=
  (List.range 20).filterMap fun u => (b.unit u).map fun p => (u, p.lanes.length, (p.lane 0).regs.length)

/-- Registers of the image before unit u. -/
def imageBase : List (Nat × Nat × Nat) → Nat → Nat
  | [], _ => 0
  | (n, l, r) :: rest, u => if n = u then 0 else l * r + imageBase rest u

/-- The registers of a unit in the image, those of f only: each with its place. -/
def ProgUnit.regChunks (p : ProgUnit) (base : Nat) (all : Bool) : List Chunk :=
  (p.lanes.zipIdx).flatMap fun (l, i) => (l.regs.zipIdx).filterMap fun (r, n) =>
    if all || r.dirty then some { off := 0x20000 + 8 * (base + i * l.regs.length + n), bytes := leBytes 8 r.v.toNat } else none

/-- Tags, two to a byte, the lower register in the low bits (R229). -/
def packTags : List Nat → List Byte
  | a :: b :: rest => BitVec.ofNat 8 (a + 16 * b) :: packTags rest
  | [a] => [BitVec.ofNat 8 a]
  | [] => []

/-- The tags of every unit of a block (R229). -/
def Block.tagChunk (b : Block) : Chunk :=
  { off := 0xA0000
    bytes := packTags (b.regLayout.flatMap fun x => ((b.unit x.1).map fun p =>
      p.lanes.flatMap fun l => l.regs.map fun r => r.tag.code).getD []) }

/-- Divergence areas and pails of a unit, whose entries' layout the manual does not give. -/
def ProgUnit.areas (p : ProgUnit) (u cyc : Nat) : List Chunk :=
  (if p.kind == .warp then (List.range p.div.length).map fun k =>
    ({ off := 0xB0000 + 0x8000 * u + 96 * k, bytes := openBytes cyc (0xB0000 + 0x8000 * u + 96 * k) 96 } : Chunk) else [])
  ++ (List.range p.pail.length).map fun k =>
    { off := 0x130000 + 0x10000 * u + 0x800 * k, bytes := openBytes cyc (0x130000 + 0x10000 * u + 0x800 * k) 0x800 }

/-- The entry of a warp's divergence stack that a push has moved out of the newest 32 is written to the warp's divergence area
while the block runs (R69, R228); its layout there is open (log 10). -/
def State.spillDiv (s old : State) (c : Nat) : State :=
  match s.blk c with
  | none => s
  | some b => b.warps.foldl (fun s (u, p) =>
      let before := ((old.unit c u).map (·.div.length)).getD 0
      if before < p.div.length && decide (32 < p.div.length) then
        let off := 0xB0000 + 0x8000 * u + 96 * (p.div.length - 33)
        let va := s.slotVa b + .ofNat 64 off
        match s.slotPinned c va 96 with
        | some (k, pa) => s.markRefused k pa
        | none => s.slotWrite c va (openBytes s.cyc off 96)
      else s) s

/-- Granules of storage that handles of a block hold on its core (R230). -/
def Block.granules (b : Block) : List Nat :=
  (b.tiles.flatMap fun e => match e with
    | some e => if e.level != .cell || e.owner == b.bidx then e.granules else []
    | none => []).eraseDups

/-- A granule of tile memory, accumulators or the B store (R229). -/
def Core.granuleChunk (k : Core) (g : Nat) : Chunk :=
  let (base, cells) := if g < 0x700 then (0x600, k.tile) else if g < 0x800 then (0x700, k.acc) else (0x800, k.bst)
  let a := 4096 * (g - base)
  { off := 4096 * g, bytes := cellRead cells a 4096
    bad := if g < 0x700 then (k.tilePoison.filter fun w => a ≤ w && w < a + 4096).map (4096 * g + · - a) else [] }

/-- Everything that a save of a core's block writes but the first 8 bytes of the header (R230). -/
def State.saveChunks (s : State) (c : Nat) (b : Block) (cause : Cause) : List Chunk :=
  let k := s.core c
  let h := fun (u : Nat) => match k.hnd, b.unit 21 with
    | some x, some p => if x.unit = u ∧ cause = .forcedSave then some ((p.split 0).pc, (p.lane 0).regs) else none
    | _, _ => none
  let all := b.image != b.regLayout
  let held := b.granules
  s.headerChunks c b
    ++ ((List.range 21).flatMap fun u => match b.unit u with
      | some p => p.record (s.rcd b).code u s.cyc cause (h u)
          ++ (if u < 20 then p.regChunks (imageBase b.regLayout u) all ++ p.areas u s.cyc else [])
      | none => [])
    ++ [b.tagChunk]
    ++ (k.granules.filter held.contains).map k.granuleChunk

/-- Whether a part of a save slot translates. -/
def State.chunkOk (s : State) (c : Nat) (k : Access) (slot : Word) (x : Chunk) : Bool :=
  x.bytes.isEmpty || ((s.translate c k (slot + .ofNat 64 x.off)).toOption.isSome
    && (s.translate c k (slot + .ofNat 64 (x.off + x.bytes.length - 1))).toOption.isSome)

/-- The first line of parts of a save slot, by offset and length, that another core pins: it refuses the device's access (R159). -/
def State.spansPinned (s : State) (c : Nat) (slot : Word) (l : List (Nat × Nat)) : Option (Nat × Nat) :=
  if s.cores.all (·.pins.isEmpty) then none
  else l.findSome? fun x => if x.2 = 0 then none else s.slotPinned c (slot + .ofNat 64 x.1) x.2

/-- The place of a part of a save slot. -/
def Chunk.span (x : Chunk) : Nat × Nat := (x.off, x.bytes.length)

/-- Whether n bytes at a VA of a save slot hold poison (R181, R223). -/
def State.slotPoison (s : State) (c : Nat) (va : Word) (n : Nat) : Bool :=
  (List.range ((va.toNat % 128 + n + 127) / 128)).any fun k =>
    let lo := if k = 0 then va.toNat % 128 else 0
    let hi := min 128 (va.toNat % 128 + n - 128 * k)
    match s.translate c .load (.ofNat 64 (va.toNat / 128 * 128 + 128 * k)) with
    | .ok pa => s.poisonedIn (pa + lo) (hi - lo)
    | .error _ => false

/-- A part of a save slot written, with its poison (R181, R328). -/
def State.putChunk (s : State) (c : Nat) (slot : Word) (x : Chunk) : State :=
  let s1 := (s.tryWrite c (slot + .ofNat 64 x.off) x.bytes).getD s
  x.bad.foldl (fun s o => match s.translate c .store (slot + .ofNat 64 o) with
    | .ok pa => { s with poison := pa / 8 * 8 :: s.poison.filter (· != pa / 8 * 8) }
    | .error _ => s) s1

/-- The state and the cause of a save slot (R229): the model puts the state in byte 0 of their word and the cause in byte 1.
(DESIGN CHOICE, log 82: unsafe.) -/
def State.putHeader (s : State) (c : Nat) (slot : Word) (state : Nat) (cause : Cause) : State :=
  s.putChunk c slot { off := 0, bytes := leBytes 1 state ++ leBytes 1 cause.code ++ leBytes 6 0 }

/-! ## Leaving a core -/

/-- The registers of the handler that runs on a core, else what the last one left (R218). -/
def Core.handlerBank (k : Core) : List Reg := ((k.blk.bind (·.unit 21)).map fun p => (p.lane 0).regs).getD k.hbank

/-- A core that its block has left: it clears for 6,144 cycles (R207), its pins and mailboxes gone; the next handler finds what
the last one left (R218). -/
def Core.vacate (k : Core) (cyc : Nat) : Core :=
  { k with
    hbank := k.handlerBank
    blk := none, clearing := true, clearDue := cyc + 6144
    tile := [], tilePoison := [], bst := [], acc := [], granules := [], mail := List.replicate 64 []
    pins := [], fills := [], trapQ := [], hnd := none, arr := { beat := k.arr.beat }, horizon := 0 }

/-- Dirty bits cleared at a checkpoint (R230). -/
def Block.clean (b : Block) : Block :=
  { b with
    gen := b.gen + 1, image := b.regLayout, stop := none
    units := b.units.map fun u => u.map fun p => { p with
      lanes := p.lanes.map fun l => { l with regs := l.regs.map fun r => { r with dirty := false } } } }

/-- A block whose units have been written to its save slot (R230). -/
def Block.recorded (b : Block) : Block :=
  { b with records := (List.range 21).filterMap fun u => (b.unit u).map (u, ·) }

/-- The engine that a core's block used is idle, its committed stores and drained rows have landed, with the rows that its gang
drains to it, and its pins have ended (R160, R205). Answers that memory owes to the contexts are given. -/
def State.quiesce (s : State) (c : Nat) : State :=
  let s1 := ((s.answerBlock c).endPins c).settleDrained c true
  let mates := ((s1.blk c).map s1.gangCores).getD []
  (mates.foldl (fun s k => s.landDrained k (·.goesTo c)) s1).landAll c

/-- The places of held stores in tile memory and the B store changed by f, by the number of the core that they name; a store
for which it gives none is gone. (DEDUCED, log 85: unsafe.) -/
def ProgUnit.mapPlaces (p : ProgUnit) (f : Nat → Option Nat) : ProgUnit :=
  let g : StoreItem → Option StoreItem := fun i => match i.place with
    | .phys _ => some i
    | .tile k a => (f k).map fun n => { i with place := .tile n a }
    | .bst k a => (f k).map fun n => { i with place := .bst n a }
  { p with pail := p.pail.map fun h => { h with items := h.items.filterMap g } }

/-- A block with the places of its held stores changed. -/
def Block.mapPlaces (b : Block) (f : Nat → Option Nat) : Block :=
  { b with units := b.units.map fun u => u.map (·.mapPlaces f) }

/-- The place of a held store of a block that leaves its core names the owner's BIDX, above the numbers of the cores. -/
def placeOf (bidx : Nat) : Nat := Config.numCores + bidx

/-- The held stores of a gang that is being saved name the blocks of the gang and no longer their cores (R148, R225). -/
def State.loosePlaces (s : State) (b : Block) : State :=
  let mates := s.gangCores b
  let f := fun (k : Nat) => if Config.numCores ≤ k then some k
    else ((if mates.contains k then s.blk k else none).map fun o => placeOf o.bidx)
  mates.foldl (fun s k => s.modBlk k (·.mapPlaces f)) s

/-- The held stores of a gang that has been restored name the cores of its blocks again (R232). -/
def State.bindPlaces (s : State) (b : Block) : State :=
  let mates := s.gangCores b
  let f := fun (k : Nat) => if k < Config.numCores then some k
    else mates.find? fun c => ((s.blk c).map fun o => placeOf o.bidx == k).getD false
  mates.foldl (fun s k => s.modBlk k (·.mapPlaces f)) s

/-- No unit of a core waits at a dispenser any more (R305). -/
def State.leaveTiles (s : State) (c : Nat) (b : Block) : State :=
  s.modLaunch b.inst b.launch fun l => { l with disp := l.disp.map fun d => { d with waiting := d.waiting.filter (·.1 != c) } }

/-- The first line that a save or discard of a core's block writes and another core pins (R159). -/
def State.savePinned (s : State) (c : Nat) (b : Block) (r : StopReq) : Option (Nat × Nat) :=
  if s.cores.all (·.pins.isEmpty) then none
  else s.spansPinned c (s.slotVa b) ((0, 8) :: (if r.state = 0 then [] else (s.saveChunks c b r.cause).map Chunk.span))

/-- The block of a core is saved or discarded (R230, R368), its core cleared; where the save meets a translation fault the header
says so, as far as its own page translates (R228). (DEDUCED, log 55: unsafe.) -/
def State.saveBlock (s0 : State) (c : Nat) (b0 : Block) (r : StopReq) : State :=
  let s := (s0.loosePlaces b0).leaveTiles c b0
  let b := (s.blk c).getD b0
  let slot := s.slotVa b
  let k := s.core c
  if r.state = 0 then
    let s1 := (s.putHeader c slot 0 r.cause).modLaunch b.inst b.launch fun l => { l with abandoned := true }
    s1.modCore c (·.vacate s.cyc)
  else
    let want := if k.hnd.isSome then Cause.forcedSave else r.cause
    let parts := s.saveChunks c b want
    let ok := parts.all (s.chunkOk c .store slot) && s.chunkOk c .store slot { off := 0, bytes := [0] }
    let cause := if ok then want else .machineCheck
    let state := if ok then r.state else 3
    let s1 := (if ok then parts.foldl (fun s x => s.putChunk c slot x) s else s).putHeader c slot state cause
    let b1 := if ok then b.clean.recorded else b.clean
    let saved : Saved := {
      state := state, cause := cause, blk := b1, cyc := s.cyc, held := r.held
      mail := k.mail, ctrs := k.ctrs, lclk := k.lclk, trapQ := k.trapQ, hnd := k.hnd
      hbank := ((b.unit 21).map fun p => (p.lane 0).regs).getD [] }
    let s2 := s1.modLaunch b.inst b.launch fun l => { l with saved := l.saved ++ [saved] }
    let s3 := if state = 3 then
        ((s2.gangCores b).filter (· != c)).foldl (fun s k => s.stopBlk k { cause := .preempt, state := 2 }) s2
      else s2
    let q := (s.launch b.inst b.launch).map fun l => (l.queue, l.index)
    let s4 := s3.modCore c (·.vacate s.cyc)
    if state = 3 then s4.ringRecord 1 b.inst (q.getD (0, 0)).1 (q.getD (0, 0)).2 b.index cause.code else s4

/-- A block that is asked to stop is saved once it and its gang have stopped, and its frames are written (R64, R218, R227, R230); a
pinned line makes the device try again (R159). -/
def State.trySave (s : State) (c : Nat) : State :=
  match s.blk c with
  | none => s
  | some b =>
    match b.stop with
    | none => s
    | some r =>
      if !s.gangStopped c b r then s
      else
        let s1 := (s.quiesce c).writeFrames c
        match s1.blk c with
        | none => s1
        | some b1 =>
          if !(s1.core c).travel.isEmpty || (s1.core c).trapQ.any (·.unwritten) then s1
          else match s1.savePinned c b1 (b1.stop.getD r) with
            | some (k, pa) => s1.markRefused k pa
            | none => s1.saveBlock c b1 (b1.stop.getD r)

/-- BLOCK_SAVE (R230): a stopped block is saved. -/
def execBlockSave (core : Nat) (s : State) : Host.Outcome State Fault Refusal :=
  if Config.numCores ≤ core then .fault .badPlace else .next (s.trySave core)

/-- FORCED_SAVE (R221): the handler has held a request for 65,536 cycles, or lets it in. -/
def execForcedSave (core : Nat) (s : State) : Host.Outcome State Fault Refusal :=
  if Config.numCores ≤ core then .fault .badPlace
  else if (s.core core).hnd.isSome then .next (s.trySave core) else .next s

/-- HANDLER_WATCHDOG (R221): HCYC reaches 2^20 with no request held. -/
def execHandlerWatchdog (core : Nat) (s : State) : Host.Outcome State Fault Refusal :=
  if Config.numCores ≤ core then .fault .badPlace
  else match (s.core core).hnd, s.blk core with
    | some h, some b => if b.stop.isNone && decide (2 ^ 20 ≤ s.cyc - h.start) then .next (s.killHandler core) else .next s
    | _, _ => .next s

/-- TRAP_ENTRY (R218): the next frame in trap order is entered. -/
def execTrapEntry (core : Nat) (s : State) : Host.Outcome State Fault Refusal :=
  if Config.numCores ≤ core then .fault .badPlace else .next (s.nextHandler core)

/-- PREEMPTION_REQUEST (R227): firmware, the driver or Malter asks for a block's gang to be stopped. -/
def execPreemptionRequest (core : Nat) (s : State) : Host.Outcome State Fault Refusal :=
  if Config.numCores ≤ core then .fault .badPlace else .next (s.requestStop core { cause := .preempt, state := 2 })

/-- CORE_CLEAR_COMPLETE (R207): the core may take a block. -/
def execCoreClearComplete (core : Nat) (s : State) : Host.Outcome State Fault Refusal :=
  if Config.numCores ≤ core then .fault .badPlace
  else if (s.core core).clearing ∧ (s.core core).clearDue ≤ s.cyc then
    .next (s.modCore core fun k => { k with clearing := false })
  else .next s

/-! ## Restoring -/

/-- Warps placed one at a time on quarters (R54): the registers and width of each, in ascending slot. -/
def placeWarps (lanes : List Nat) : List Nat → List (Nat × Nat) → Option (List Nat)
  | _, [] => some []
  | demand, (regs, width) :: rest =>
    match placeOne lanes demand regs width with
    | none => none
    | some q => (placeWarps lanes (demand.modify q (· + regs * width / (lanes[q]?.getD 32))) rest).map (q :: ·)

/-- Whether a core can hold warps of such registers and widths beside a VLIW side (R53). -/
def Core.placement (k : Core) (vgroups clusters tileKiB : Nat) (warps : List (Nat × Nat)) : Option (List Nat) :=
  let groups := k.nGroups - vgroups
  let lanes := quarterLanes groups
  if k.nGroups < vgroups ∨ 16 * vgroups < clusters ∨ 1024 < tileKiB ∨ (!warps.isEmpty ∧ groups = 0) then none
  else placeWarps lanes (lanes.map fun _ => 0) warps

/-- The warps of a block as R54 counts them. -/
def Block.warpSizes (b : Block) : List (Nat × Nat) :=
  (b.units.take 16).filterMap fun u => u.map fun p => ((p.lane 0).regs.length, p.lanes.length)

/-- The clusters of the widest context of a block. -/
def Block.clusters (b : Block) : Nat := (b.units.drop 16 |>.take 4).foldl (fun m u => max m ((u.map (·.k)).getD 0)) 0

/-- Whether a core can take a saved block (R232). -/
def State.canHold (s : State) (c : Nat) (b : Block) : Option (List Nat) :=
  (s.core c).placement b.vgroups b.clusters (s.rcd b).tileKiB b.warpSizes

/-- Quarters given to the warps of a block in ascending slot (R54). -/
def assignQuarters (lanes : List Nat) : List (Option ProgUnit) → List Nat → List (Option ProgUnit)
  | some p :: us, q :: qs =>
    if p.kind == .warp then some { p with quarter := q, qlanes := lanes[q]?.getD 32 } :: assignQuarters lanes us qs
    else some p :: assignQuarters lanes us (q :: qs)
  | u :: us, qs => u :: assignQuarters lanes us qs
  | [], _ => []

/-- What a restore reads at an offset of the save slot. -/
def State.slotBytes (s : State) (c : Nat) (slot : Word) (off n : Nat) : List Byte := (s.slotRead c (slot + .ofNat 64 off) n).getD []

/-- A word of the save slot. -/
def State.slotWord (s : State) (c : Nat) (slot : Word) (off n : Nat) : Nat := leNat (s.slotBytes c slot off n)

/-- An event slot as its record holds it (R317); what the record does not hold stays as it was. -/
def readSlot (code : Word) (bs : List Byte) (old : Option EventSlot) : Option EventSlot :=
  let ctl := (bs[15]?.getD 0).toNat
  if ctl < 0x80 then none
  else
    let o : EventSlot := old.getD { kind := .barrier, handler := 0 }
    some { o with
      kind := match ctl % 8 with | 0 => .barrier | 1 => .copy | 2 => .mbox | 3 => .signal | _ => .timer
      num := .ofNat 64 (leNat (bs.take 8))
      thresh := (BitVec.ofNat 32 (leNat ((bs.drop 8).take 4))).signExtend 64
      handler := code + .ofNat 64 (8 * leNat ((bs.drop 12).take 3)) }

/-- Lane i of a unit as the record and the images hold it. -/
def State.readLane (s : State) (c : Nat) (slot : Word) (rec img : Nat) (i : Nat) (l : Lane) : Lane :=
  let n := l.regs.length
  let bs := s.slotBytes c slot (0x20000 + 8 * (img + i * n)) (8 * n)
  let tags := s.slotBytes c slot (0xA0000 + (img + i * n) / 2) (n / 2 + 1)
  let preds := s.slotWord c slot (rec + 0x0C0 + 2 * i) 2
  { (l.unpack 0x7F preds) with
    regs := if img = 2 ^ 16 then l.regs else (List.range n).map fun k =>
      let t := (img + i * n) % 2 + k
      { v := .ofNat 64 (leNat ((bs.drop (8 * k)).take 8))
        tag := Ty.ofCode ((tags[t / 2]?.getD 0).toNat / (if t % 2 = 0 then 1 else 16) % 16), dirty := false }
    nest := s.slotWord c slot (rec + 0x040 + i) 1 }

/-- A unit as its record and images hold it (R229, R232): `img` is its place in the register image, 2^16 for the front end.
The divergence entries, queues and held stores, whose layout the manual does not give, stay as they were saved. Waits
other than at a barrier or a sleep begin again, but for those whose part another agent has done (R191, R305, R325), join deadlines keep what was left of them, a rerun's held stores are gone
and every row latch holds 127 (R347). -/
def State.readUnit (s : State) (c : Nat) (slot code : Word) (u img since : Nat) (handled : Bool) (p : ProgUnit) : ProgUnit :=
  let rec0 := 0x4000 + 0x1000 * u
  let at8 := fun o => s.slotWord c slot (rec0 + o) 8
  let main := p.mainSplit
  let keep := p.trap.isNone || s.slotWord c slot (0x1000 + 0x100 * u + 4) 1 % 2 = 1
  let bank := if p.kind == .front && !handled then
      p.lanes.map fun l => { l with regs := (List.range 64).map fun n => mkReg (.ofNat 64 (at8 (0x400 + 8 * n))) .b64 }
    else p.lanes
  { p with
    lanes := bank.mapIdx fun i l => s.readLane c slot rec0 (img + 0) i l
    splits := p.splits.mapIdx fun n t => { t with
      pc := if n = main && !handled then .ofNat 64 (at8 0) else t.pc
      rpc := if n = main then .ofNat 64 (at8 8) else t.rpc
      mask := if n = main then .ofNat 128 (s.slotWord c slot (rec0 + 0x20) 16) else t.mask
      waits := t.waits.filter fun w => w.done || w.kind == .barrier || w.kind == .sleep
      last := s.cyc, ready := s.cyc, promoted := false }
    div := p.div.map fun e => { e with deadline := e.deadline.map fun d => s.cyc + (d - since) }
    rcnt := .ofNat 64 (at8 0x10)
    rets := ((List.range (min 32 (at8 0x2C0))).map fun n => BitVec.ofNat 64 (at8 (0x1C0 + 8 * n))).reverse
    evp := .ofNat 8 (s.slotWord c slot (rec0 + 0x2C8) 2), evm := .ofNat 8 (s.slotWord c slot (rec0 + 0x2CA) 2)
    fpctl := .ofNat 5 (s.slotWord c slot (rec0 + 0x2CC) 2), fpflags := .ofNat 5 (s.slotWord c slot (rec0 + 0x2CE) 2)
    slots := p.slots.mapIdx fun n e => readSlot code (s.slotBytes c slot (rec0 + 0x2D0 + 16 * n) 16) e
    dqPos := p.dqPos.map fun _ => at8 0x350
    latch := List.replicate 16 127, latchEntry := List.replicate 16 127
    beats := at8 0x378, beatsEntry := at8 0x380
    pail := if keep then p.pail else []
    q := { p.q with loads := p.q.loads.map fun e => { e with ans := match e.ans with | .fault _ _ _ => .pending | a => a } }
    aged := [false, false, false, false], issued := s.cyc }

/-- A unit of a block that was halted because no handler ran, or because its handler failed: resumed, it continues at its
frame's RESUME as TRET continues it (R218, R221, R222, R368). (DEDUCED, log 53: unsafe.) -/
def State.resumeHalted (s : State) (c : Nat) (slot : Word) (u : Nat) (p : ProgUnit) : ProgUnit :=
  match p.trap with
  | none => p
  | some f =>
    let bs := s.slotBytes c slot (0x1000 + 0x100 * u) 0x40
    let resume := BitVec.ofNat 64 (leNat ((bs.drop 0x20).take 8))
    let waits : List Wait := if f.cause == .copyLate && resume == f.pc
      then [{ kind := .sleep, since := s.cyc, a := leNat ((bs.drop 0x38).take 8) }] else []
    { p.resumeAt (bs[4]?.getD 0).toNat resume waits with stepped := false }

/-- A barrier as the header holds it (R231); arrivals of other blocks of the gang stay. -/
def State.readBarrier (s : State) (c : Nat) (slot : Word) (bidx n : Nat) (r : Barrier) : Barrier :=
  let w := s.slotWord c slot (0x100 + 16 * n) 8
  let mine := ((List.range 21).filter fun u => (w / 2 ^ 40).testBit u).map (bidx, ·)
  let all := (r.arrived.filter fun x => x.1 != bidx) ++ mine
  { r with gen := w % 2 ^ 32, count := if all.isEmpty then none else some (w / 2 ^ 32 % 2 ^ 8), arrived := all }

/-- A binding as the header holds it. -/
def State.readBinding (s : State) (c : Nat) (slot : Word) (n : Nat) : Option Binding :=
  let w := fun k => BitVec.ofNat 64 (s.slotWord c slot (0x300 + 24 * n + 8 * k) 8)
  if w 0 = 0 ∧ w 1 = 0 ∧ w 2 = 0 then none else some { guard := w 0, base := w 1, len := w 2 }

/-- A block as its save slot holds it. -/
def State.readBlock (s : State) (c : Nat) (slot : Word) (x : Saved) : Block :=
  let b := x.blk
  let code := (s.rcd b).code
  let m := s.slotBytes c slot 0xC80 16
  let flags := (m[1]?.getD 0).toNat
  let byte := fun n => (m[n]?.getD 0).toNat
  { b with
    gen := s.slotWord c slot 8 8, seq := s.slotWord c slot 0x18 8
    units := b.units.mapIdx fun u p => if u < 21 then p.map fun p =>
        let q := s.readUnit c slot code u (if u < 20 then imageBase b.regLayout u else 2 ^ 16) x.cyc (x.hnd.any fun h => h.unit == u) p
        if x.cause == .handlerWatchdog then s.resumeHalted c slot u q else q
      else none
    bars := b.bars.mapIdx fun n r => s.readBarrier c slot b.bidx n r
    binds := (List.range 32).map (s.readBinding c slot)
    dq := b.dq.mapIdx fun n _ => .ofNat 64 (s.slotWord c slot (0xA00 + 8 * ((b.dqBase + n) % 64)) 8)
    map := if flags % 2 = 1 then some (byte 0 % 64, leNat ((m.drop 8).take 4), Ty.ofCode (byte 2 % 16)) else none
    bitmaps := if flags / 2 % 2 = 1 then some (byte 3 % 64, byte 4 % 64) else none }

/-- A granule read back into its storage (R230). -/
def State.readGranule (s : State) (c : Nat) (slot : Word) (k : Core) (g : Nat) : Core :=
  let bs := s.slotBytes c slot (4096 * g) 4096
  if g < 0x700 then
    let bad := match s.translate c .load (slot + .ofNat 64 (4096 * g)) with
      | .ok pa => (s.poison.filter fun w => pa ≤ w && w < pa + 4096).map fun w => w - pa + 4096 * (g - 0x600)
      | .error _ => []
    { k with tile := cellWrite k.tile (4096 * (g - 0x600)) bs, tilePoison := k.tilePoison ++ bad }
  else if g < 0x800 then { k with acc := cellWrite k.acc (4096 * (g - 0x700)) bs }
  else { k with bst := cellWrite k.bst (4096 * (g - 0x800)) bs }

/-- The parts of the divergence area and the pail of unit u that hold entries (R229). -/
def ProgUnit.areaSpans (p : ProgUnit) (u : Nat) : List (Nat × Nat) :=
  [(0xB0000 + 0x8000 * u, if p.kind == .warp then 96 * p.div.length else 0), (0x130000 + 0x10000 * u, 0x800 * p.pail.length)]

/-- The parts of a save slot, but the images of tile memory, accumulators and B store, that a restore reads: offset and length. -/
def Block.recordSpans (b : Block) : List (Nat × Nat) :=
  let regs := imageBase b.regLayout 99
  [(0, 0xD00), (0x1000, 0x1500), (0x2800, 0x800)]
    ++ ((List.range 21).filter fun u => (b.unit u).isSome).map (fun u => (0x4000 + 0x1000 * u, 0x1000))
    ++ [(0x20000, 8 * regs), (0xA0000, (regs + 1) / 2)]
    ++ ((List.range 20).flatMap fun u => ((b.unit u).map fun p => p.areaSpans u).getD []).filter (·.2 != 0)

/-- The parts of a save slot that a restore reads. -/
def Block.restoreSpans (b : Block) : List (Nat × Nat) := b.recordSpans ++ b.granules.map fun g => (4096 * g, 4096)

/-- The pages of a save slot that a restore reads. -/
def Block.restorePages (b : Block) : List Chunk :=
  ((b.restoreSpans.flatMap fun x => if x.2 = 0 then [] else
    (List.range ((x.1 + x.2 - 1) / 0x10000 - x.1 / 0x10000 + 1)).map (x.1 / 0x10000 + ·)).eraseDups).map
      fun n => { off := 0x10000 * n, bytes := [0] }

/-- Whether the part of a save slot that carries no poison on a core, all but the image of tile memory, holds some: a restore that
reads it is a MACHINE_CHECK (R223, R376). -/
def State.slotSpoiled (s : State) (c : Nat) (b : Block) : Bool :=
  !(s.poison.isEmpty && s.dev.level != 1)
    && (b.recordSpans ++ (b.granules.filter (0x700 ≤ ·)).map fun g => (4096 * g, 4096)).any fun x =>
      s.slotPoison c (s.slotVa b + BitVec.ofNat 64 x.1) x.2

/-- Whether the save slot of a saved block can be read and written on a core (R223, R228). -/
def State.slotReadable (s : State) (c : Nat) (b : Block) : Bool :=
  b.restorePages.all (s.chunkOk c .load (s.slotVa b)) && s.chunkOk c .store (s.slotVa b) { off := 0, bytes := [0] }
    && !s.slotSpoiled c b

/-- A forced save's handler is entered again at its saved PC with FS = 1, M = 1 and HCYC 0 (R221). -/
def State.readHandler (s : State) (c : Nat) (slot : Word) (h : Handler) : ProgUnit × Handler :=
  let rec0 := 0x4000 + 0x1000 * h.unit
  let pc := BitVec.ofNat 64 (s.slotWord c slot rec0 8)
  let bank := (List.range 64).map fun n => mkReg (.ofNat 64 (s.slotWord c slot (rec0 + 0x400 + 8 * n) 8)) .b64
  ({ kind := .handler, lanes := [{ regs := bank }], splits := [{ mask := 1, pc := pc, rpc := pc, ready := s.cyc }] },
   { h with fs := true, m := true, start := s.cyc })

/-- A saved block is restored on a core that can hold it, its warps on the quarters given (R232). -/
def State.restoreOn (s0 : State) (c : Nat) (x : Saved) (qs : List Nat) : State :=
  let slot := s0.slotVa x.blk
  let s := x.blk.restoreSpans.foldl (fun s r => s.touchSlot c (slot + .ofNat 64 r.1) r.2) s0
  let b0 := s.readBlock c slot x
  let k := s.core c
  let lanes := quarterLanes (k.nGroups - b0.vgroups)
  let b1 := { b0 with units := assignQuarters lanes b0.units qs }
  let hnd := x.hnd.map (s.readHandler c slot)
  let b2 := match hnd with
    | some h => b1.setUnit 21 h.1
    | none => b1
  let mail := x.mail.mapIdx fun m l => (List.range (s.slotWord c slot (0xC00 + m) 1 % 5)).map fun n =>
    { l[n]?.getD { value := 0 } with value := .ofNat 64 (s.slotWord c slot (0x2800 + 32 * m + 8 * n) 8) }
  let fresh : Core := { k with
    ctrs := x.ctrs.mapIdx fun n t => readCounter (s.slotBytes c slot (0xC40 + 8 * n) 8) t
    blk := some b2, tile := [], tilePoison := [], acc := [], bst := [], granules := [], icache := []
    mail := mail, lclk := (max k.lclk x.lclk + 1) % 2 ^ 48
    trapQ := if x.cause == .handlerWatchdog then [] else x.trapQ
    hnd := hnd.map (·.2), hbank := match hnd with | some h => (h.1.lane 0).regs | none => k.hbank
    arr := { beat := k.arr.beat }, horizon := s.cyc }
  let s1 := s.setCore c (b2.granules.foldl (s.readGranule c slot) fresh)
  (List.range 16).foldl (fun s n => s.modBarrier c (16 + n) fun r => s.readBarrier c slot b2.bidx (16 + n) r)
    (s1.putChunk c slot { off := 0, bytes := [1] })

/-- The first line of the save slots of saved blocks that a restore on their cores meets pinned (R159). -/
def State.restorePinned (s : State) (l : List (Saved × Nat)) : Option (Nat × Nat) :=
  l.findSome? fun (x, c) => s.spansPinned c (s.slotVa x.blk) x.blk.restoreSpans

/-- A gang's saved blocks are restored on cores, each with its placement; it has not been passed over since (R301). A block whose
slot cannot be read stays saved, halted with MACHINE_CHECK (R228). -/
def State.restoreGang (s : State) (i n : Nat) (l : List (Saved × Nat)) : State :=
  let key := fun (x : Saved) => (x.blk.gang, x.blk.index)
  if l.all (fun (x, c) => s.slotReadable c x.blk && (s.canHold c x.blk).isSome) then
    let gone := l.map fun (x, _) => key x
    let s1 := s.modLaunch i n fun r => { r with
      saved := r.saved.filter fun y => !gone.contains (key y)
      gangs := r.gangs.map fun g => if gone.any (·.1 == g.id) then { g with passed := 0 } else g }
    let s2 := l.foldl (fun s (x, c) => s.restoreOn c x ((s.canHold c x.blk).getD [])) s1
    match l with
    | [] => s2
    | (x, _) :: _ => s2.bindPlaces x.blk
  else
    let bad := (l.filter fun (x, c) => !s.slotReadable c x.blk).map fun (x, _) => key x
    let mark := fun (y : Saved) => if bad.contains (key y) then { y with state := 3, cause := .machineCheck } else y
    let s1 := s.modLaunch i n fun r => { r with saved := r.saved.map mark }
    let q := (s.launch i n).map fun l => (l.queue, l.index)
    bad.foldl (fun s k => s.ringRecord 1 i (q.getD (0, 0)).1 (q.getD (0, 0)).2 k.2 Cause.machineCheck.code) s1

end Sys2Proof.Machine
end

