-- ==== Sys2Proof/Machine/Debug.lean ====
section
/-! DEFINITION. The debug instructions BKPT, PMCFG, PMREAD, PMCTL, TRMARK, LCLK and WATCH (R386, R387). -/

namespace Sys2Proof.Machine

/-- The value of source n among those that an instruction reads once. -/
def srcVal (rs : List Reg) (n : Nat) : Word := (rs[n]?.getD {}).v

/-- BKPT (R386): with BKEN = 1 a BREAKPOINT after the instruction, naming the selected lanes. -/
def execBkpt (w : ArithWord) (s : State) := issue (.bkpt w) w.head s fun v s =>
  if v.sel = 0 ∨ (s.inst (s.instOf v.core)).dbgctl.getLsbD 0 = false then .ok s
  else .error (.raiseAt { cause := .breakpoint, kind := 1, lanes := v.sel, info1 := .ofNat 64 w.mask8 } s)

/-- The state with counter n of a core changed by f. -/
def State.modCtr (s : State) (c n : Nat) (f : Counter → Counter) : State := s.modCore c fun k => { k with ctrs := k.ctrs.modify n f }

/-- PMCFG (R386): counter n gets an event and stands at 0, stopped. -/
def execPmcfg (w : ArithWord) (s : State) := issue (.pmcfg w) w.head s
  (once [w.a.toNat] fun v s _ rs =>
    let ev := (srcVal rs 0).toNat % 128
    if 96 ≤ ev then .error (raiseSel v .illegalOp)
    else .ok (s.modCtr v.core (w.x.toNat % 4) fun _ => { event := ev }))

/-- PMREAD (R386): in a bundle, the count from before it (R389). -/
def execPmread (w : ArithWord) (s : State) := issue (.pmread w) w.head s fun v s =>
  let ctrs := match s.bundle with
    | some b => b.preCtrs
    | none => (s.core v.core).ctrs
  putReg v s w.d.toNat fun _ => mkReg ((ctrs[w.x.toNat % 4]?.getD {}).shown s.fresh v.core (w.x.toNat % 4)) .n64

/-- PMCTL (R386): 0 starts, 1 stops, 2 zeroes the counters of a mask. -/
def execPmctl (w : ArithWord) (s : State) := issue (.pmctl w) w.head s fun v s =>
  if v.sel = 0 then .ok s
  else .ok ((List.range 4).foldl (fun s n =>
    if w.x.getLsbD n then s.modCtr v.core n fun t => match w.sub.toNat with
      | 0 => { t with running := true }
      | 1 => { t with count := t.shown s.fresh v.core n, running := false }
      | _ => { t with count := 0 }
    else s) s)

/-- TRMARK (R382, R386): with TREN = 1, a marker packet with the two-level name, the unit and its PC (R380). -/
def execTrmark (w : ArithWord) (s : State) := issue (.trmark w) w.head s
  (once [w.a.toNat] fun v s _ rs =>
    .ok (s.trace v.core v.unit v.addr 9 [((srcVal rs 0).setWidth 32).setWidth 64]))

/-- LCLK (R383, R386): reads the core's Lamport clock, with SUB 1 after one tick; in a bundle as it stood before (R31). -/
def execLclk (w : ArithWord) (s : State) := issue (.lclk w) w.head s fun v s =>
  if v.sel = 0 then .ok s
  else
    let s1 := if w.sub = 1 then s.tickSend v.core else s
    putReg v s1 w.d.toNat fun _ => mkReg (.ofNat 64 (if w.sub = 1 then (s1.core v.core).lclk else s.lclkBefore v)) .n64

/-- Whether WATCH's control and address fit (R386): k, the four bits [11:8], at least 3, the address a multiple of 2^k,
other bits zero. -/
def watchOk (va ctl : Word) : Bool :=
  let k := ctl.toNat / 256 % 16
  decide (3 ≤ k) && decide (va.toNat % 2 ^ k = 0) && (ctl &&& 0xFFFFFFFFFFFFF0FC) == 0

/-- WATCH (R386). -/
def execWatch (w : ArithWord) (s : State) := issue (.watch w) w.head s
  (once [w.a.toNat, w.b.toNat] fun v s _ rs =>
    let va := srcVal rs 0
    let ctl := srcVal rs 1
    let put (x : Watchpoint) : Eff := .ok (s.modCore v.core fun k => { k with watch := k.watch.set (w.x.toNat % 4) x })
    if ctl = 0 then put {}
    else if !watchOk va ctl then .error (raiseSel v .illegalOp)
    else put { va := va, ctl := ctl })

end Sys2Proof.Machine
end

