-- ==== Sys2Proof/Machine/Privileged.lean ====
section
/-! DEFINITION. The privileged group and its companions: TRET (R222), ICINV (R234), SREAD, SWRITE, TLBINV, CTXSAVE, CTXLOAD,
PREEMPT and HALT (R220, R241), LGDIV (R242), PORTREPLY (R243) and ERRREAD (R244). -/

namespace Sys2Proof.Machine

/-! ## System registers -/

/-- TSTAT as it reads (R220). -/
def Handler.status (h : Handler) (preq : Bool) : Word :=
  .ofNat 64 (h.cause * 2 ^ 16 + h.unit * 2 ^ 8 + (if h.fs then 8 else 0) + (if h.svc then 4 else 0) + (if preq then 2 else 0)
    + (if h.m then 1 else 0))

/-- System register n as a core's handler reads it (R220, R381). -/
def State.sysRead (s : State) (c n : Nat) : Word :=
  let i := s.inst (s.instOf c)
  match (s.core c).hnd, s.blk c with
  | some h, some b =>
    match n with
    | 0x00 => i.trapbase
    | 0x01 => h.status b.stop.isSome
    | 0x02 => h.frameVa
    | 0x03 => i.troot
    | 0x04 => .ofNat 64 (s.cyc - h.start)
    | 0x05 => i.svcen
    | 0x06 => .ofNat 64 (b.vgroups + 2 ^ 8 * (s.core c).groups.toNat)
    | 0x07 => i.dbgctl
    | 0x08 => i.trbase
    | _ => 0
  | _, _ => 0

/-- Whether DBGCTL takes a value (R381). -/
def dbgctlOk (x : Word) : Bool := decide (x.toNat / 2 ^ 8 % 2 ^ 8 ≤ 20) && decide (x.toNat < 2 ^ 16) && decide (x.toNat / 2 ^ 4 % 2 ^ 4 = 0)

/-- Whether TRBASE takes a value (R381). -/
def trbaseOk (x : Word) : Bool := decide (x.toNat % 2 ^ 5 ≤ 12) && decide (x.toNat / 2 ^ 5 % 2 ^ 11 = 0)

/-- A system register of an instance written (R220, R381): none where the register takes no such value or is none of
those that SWRITE and SETSYS share. -/
def Inst.sysWrite (i : Inst) (n : Nat) (x : Word) : Option Inst :=
  match n with
  | 0x00 => some { i with trapbase := x &&& ~~~7 }
  | 0x05 => some { i with svcen := x }
  | 0x07 => if dbgctlOk x then some { i with dbgctl := x } else none
  | 0x08 => if trbaseOk x then some { i with trbase := x, trpos := 0 } else none
  | _ => none

/-- SWRITE of system register n, one that it may write (R220, R241, R381). -/
def sysWrite (v : View) (s : State) (n : Nat) (x : Word) : Eff :=
  if n = 1 then .ok (s.modCore v.core fun k => { k with hnd := k.hnd.map fun h => { h with m := x.getLsbD 0 } })
  else match (s.inst (s.instOf v.core)).sysWrite n x with
    | some i => .ok (s.modInst (s.instOf v.core) fun _ => i)
    | none => .error (raiseSel v .illegalOp)

/-! ## The handled unit's registers -/

/-- The handled unit's lane, where the lane and the register number exist (R241): k62 exists and discards writes, k63 does
not. (DEDUCED, log 47: unsafe.) -/
def ProgUnit.handledReg (p : ProgUnit) (lane num : Nat) : Option Reg :=
  if p.lanes.length ≤ lane then none
  else match p.kind with
    | .context => if num = 62 then some { v := 0, tag := .b64 } else (p.lane lane).regs[num]?
    | .warp => (p.lane lane).regs[num]?
    | _ => (p.lane lane).regs[num]?.map fun r => { r with tag := .b64 }

/-- SREAD (R241): 0 a system register, 1 a register of the handled unit, 2 its tag, 3 a lane's predicates. -/
def execSread (w : ArithWord) (s : State) := issue (.sread w) w.head s
  (once (if w.sub = 0 then [] else [w.b.toNat]) fun v s _ rs =>
    let lane := (srcVal rs 0).toNat
    let p := (s.unit v.core (s.handled v)).getD v.u
    let put (x : Word) : Eff := putReg v s w.d.toNat fun _ => mkReg x .b64
    match w.sub.toNat with
    | 0 => put (s.sysRead v.core w.x.toNat)
    | 3 => if p.lanes.length ≤ lane then .error (raiseSel v .badRegister) else put (.ofNat 64 (p.lane lane).predBits)
    | n => match p.handledReg lane w.a.toNat with
      | none => .error (raiseSel v .badRegister)
      | some r => put (if n = 1 then r.v else .ofNat 64 r.tag.code))

/-- A register of the handled unit written: the zero register and the front end's tags take nothing. -/
def ProgUnit.putHandled (p : ProgUnit) (lane num : Nat) (r : Reg) : ProgUnit :=
  match p.kind with
  | .context => if num = 62 then p else p.mapLanes (BitVec.twoPow 128 lane) fun _ l => l.setReg num r
  | .warp => p.mapLanes (BitVec.twoPow 128 lane) fun _ l => l.setReg num r
  | _ => p.mapLanes (BitVec.twoPow 128 lane) fun _ l => l.setReg num { r with tag := .b64 }

/-- SWRITE (R241). -/
def execSwrite (w : ArithWord) (s : State) := issue (.swrite w) w.head s
  (once (if w.sub = 0 then [w.a.toNat] else [w.a.toNat, w.b.toNat]) fun v s _ rs =>
    let x := srcVal rs 0
    let lane := (srcVal rs 1).toNat
    let u := s.handled v
    let p := (s.unit v.core u).getD v.u
    match w.sub.toNat with
    | 0 => sysWrite v s w.x.toNat x
    | 3 =>
      if p.lanes.length ≤ lane then .error (raiseSel v .badRegister)
      else .ok (s.setUnit v.core u (p.mapLanes (BitVec.twoPow 128 lane) fun _ l => l.unpack 0x7F x.toNat))
    | n => match p.handledReg lane w.d.toNat with
      | none => .error (raiseSel v .badRegister)
      | some r =>
        let t := Ty.ofCode (x.toNat % 16)
        let r' := if n = 1 then mkReg x r.tag else mkReg r.v t
        if n = 2 ∧ x.toNat % 16 = 14 then .error (raiseSel v .tagMismatch)
        else if r'.tag = .iv32 ∧ !ivValid r'.v then .error (raiseSel v .badInterval)
        else .ok (s.setUnit v.core u (p.putHandled lane w.d.toNat r')))

/-! ## CTXSAVE, CTXLOAD -/

/-- The handler of a core stops because the save slot cannot be reached: MACHINE_CHECK (R228). -/
def State.slotLost (s : State) (c : Nat) : State := s.killHandler c .machineCheck

/-- CTXSAVE (R241): the handled unit's record and images, dirty or not; a pinned line makes it try again (R159). (DEDUCED, log 48: unsafe.) -/
def execCtxsave (w : ArithWord) (s : State) := issue (.ctxsave w) w.head s fun v s =>
  if v.sel = 0 then .ok s
  else
    let b := s.myBlk v
    let u := s.handled v
    match b.unit u with
    | none => .ok s
    | some p =>
      let slot := s.slotVa b
      let parts := p.record (s.rcd b).code u s.cyc .none none
        ++ (if u < 20 then p.regChunks (imageBase b.regLayout u) true ++ [b.tagChunk] ++ p.areas u s.cyc else [])
      match s.spansPinned v.core slot (parts.map Chunk.span) with
      | some (k, pa) => .error (.park (pinWait s k pa) (s.markRefused k pa))
      | none =>
        if parts.all (s.chunkOk v.core .store slot) then
          .ok ((parts.foldl (fun s x => s.putChunk v.core slot x) s).modBlk v.core fun b =>
            { b with records := (u, p) :: b.records.filter (·.1 != u) })
        else .ok (s.slotLost v.core)

/-- A register tagged IV32 whose bounds break R132 is retagged UND (R241). -/
def Reg.checked (r : Reg) : Reg := if r.tag = .iv32 ∧ !ivValid r.v then { r with tag := .und } else r

/-- The handled unit as its slot last took it, for the parts whose layout there is open (R229): held stores, queues, divergence, loop
and result entries. A record of another shape, or none, leaves them as they are. Its trap and what is recorded against it stay. -/
def Block.recordOf (b : Block) (u : Nat) (p : ProgUnit) : ProgUnit :=
  match b.records.lookup u with
  | none => p
  | some r =>
    if r.kind == p.kind && r.lanes.length == p.lanes.length && (r.lane 0).regs.length == (p.lane 0).regs.length then
      { r with
        trap := p.trap, trapSplit := if p.trapSplit < r.splits.length then p.trapSplit else r.mainSplit
        asyncs := p.asyncs, asyncHere := p.asyncHere, stepped := p.stepped, svc := p.svc, fox := p.fox, quarter := p.quarter
        qlanes := p.qlanes, dqPos := p.dqPos, nextTile := p.nextTile }
    else p

/-- The parts of a save slot that a CTXLOAD of unit u reads: its record, its registers and tags, its divergence area and pail. -/
def Block.loadSpans (b : Block) (u : Nat) (p : ProgUnit) : List (Nat × Nat) :=
  let n := p.lanes.length * (p.lane 0).regs.length
  let img := imageBase b.regLayout u
  (0x4000 + 0x1000 * u, 0x1000) :: if u < 20 then [(0x20000 + 8 * img, 8 * n), (0xA0000 + img / 2, n / 2 + 1)] ++ p.areaSpans u else []

/-- CTXLOAD (R241): the handled unit's whole state is read back. A saved PC whose bits [2:0] are not zero is MISALIGNED at the CTXLOAD
(R18); poison there is a MACHINE_CHECK (R223); a pinned line makes it try again (R159). -/
def execCtxload (w : ArithWord) (s : State) := issue (.ctxload w) w.head s fun v s =>
  if v.sel = 0 then .ok s
  else
    let b := s.myBlk v
    let u := s.handled v
    match b.unit u with
    | none => .ok s
    | some p0 =>
      let slot := s.slotVa b
      let p := b.recordOf u p0
      let spans := (b.loadSpans u p).filter (·.2 != 0)
      let img := if u < 20 then imageBase b.regLayout u else 2 ^ 16
      match s.spansPinned v.core slot spans with
      | some (k, pa) => .error (.park (pinWait s k pa) (s.markRefused k pa))
      | none =>
        let s1 := spans.foldl (fun s x => s.touchSlot v.core (slot + .ofNat 64 x.1) x.2) s
        let pc := BitVec.ofNat 64 (s.slotWord v.core slot (0x4000 + 0x1000 * u) 8)
        if !b.restorePages.all (s.chunkOk v.core .load slot) || spans.any fun x => s.slotPoison v.core (slot + .ofNat 64 x.1) x.2 then
          .ok (s1.slotLost v.core)
        else if pc.toNat % 8 ≠ 0 then .error (raiseSel v .misaligned pc)
        else
          let q := s.readUnit v.core slot (s.rcd b).code u img s.cyc false p
          let l := s.slotBytes v.core slot (0x4000 + 0x1000 * u + 0x358) 32
          .ok (s1.setUnit v.core u { q with
            lanes := q.lanes.map fun l => { l with regs := l.regs.map fun r => { r.checked with dirty := true } }
            pail := p.pail, q := p.q, latch := l.take 16, latchEntry := l.drop 16 })

/-! ## LGDIV -/

/-- The placement of a block with a new number of VLIW groups (R242): none where it fails. -/
def State.division (s : State) (c : Nat) (b : Block) (groups : Nat) : Option (List Nat) :=
  if 8 < groups then none
  else (s.core c).placement groups b.clusters (s.rcd b).tileKiB b.warpSizes

/-- LGDIV (R242): once the block's other units have stopped, the block is saved and placed on its core anew. (DEDUCED, log 54: unsafe.) -/
def execLgdiv (w : ArithWord) (s : State) := issue (.lgdiv w) w.head s
  (once [w.a.toNat] fun v s _ rs =>
    let groups := (srcVal rs 0).toNat
    let b := s.myBlk v
    match s.division v.core b groups with
    | none => putReg v s w.d.toNat fun _ => mkReg 0 .b64
    | some _ =>
      if !(b.unitsStopped (some (s.handled v)) && s.enginesStopped v.core b) then
        .error (.park { kind := .handler, since := s.cyc } s)
      else
        let s1 := s.quiesce v.core
        let b1 := s1.myBlk v
        let slot := s1.slotVa b1
        let parts := s1.saveChunks v.core b1 .preempt
        if !(s1.core v.core).travel.isEmpty then .error (.park { kind := .handler, since := s.cyc } s1)
        else match s1.spansPinned v.core slot (parts.map Chunk.span) with
        | some (k, pa) => .error (.park { kind := .handler, since := s.cyc } (s1.markRefused k pa))
        | none =>
        if !parts.all (s1.chunkOk v.core .store slot) then .ok (s1.slotLost v.core)
        else
          let s2 := parts.foldl (fun s x => s.putChunk v.core slot x) s1
          let lanes := quarterLanes ((s2.core v.core).nGroups - groups)
          let b2 := { b1.clean.recorded with stop := b1.stop, vgroups := groups }
          let settled := b2.units.map fun u => u.map fun p : ProgUnit =>
            { p with latch := List.replicate 16 127, latchEntry := List.replicate 16 127 }
          let b3 := { b2 with units := assignQuarters lanes settled ((s.division v.core b1 groups).getD []) }
          let s3 := (s2.setBlk v.core b3).modCore v.core fun k => { k with
            icache := [], granules := [], arr := { beat := k.arr.beat }, horizon := s.cyc }
          putReg v s3 w.d.toNat fun _ => mkReg 1 .b64)

/-! ## Invalidation -/

/-- Every core of an instance loses its instruction cache (R234). -/
def State.dropCode (s : State) (i : Nat) : State :=
  (s.coresOf i).foldl (fun s c => s.modCore c fun k => { k with icache := [] }) s

/-- ICINV (R234): `.dev` completes when every core has acknowledged. -/
def execIcinv (w : ArithWord) (s : State) := issue (.icinv w) w.head s fun v s =>
  if v.sel = 0 then .ok s
  else if w.sub = 0 then .ok (s.modCore v.core fun k => { k with icache := [] })
  else if v.sp.waits.any fun x => x.kind == .invalidate && x.done then .ok s
  else
    let s1 := s.dropCode (s.instOf v.core)
    if s.slow then .error (.park { kind := .invalidate, since := s.cyc, n := 1 } s1) else .ok s1

/-- Every TLB of an instance without the entries that f picks (R241). -/
def State.dropTlb (s : State) (i : Nat) (f : TlbEntry → Bool) : State :=
  let s1 := (s.coresOf i).foldl (fun s c => s.modCore c fun k => { k with tlb := k.tlb.filter fun e => !f e }) s
  { s1 with cells := s1.cells.mapIdx fun n t =>
      if s.instOf (8 * n) = i then { t with tlb := t.tlb.filter fun e => !f e } else t }

/-- TLBINV (R241): every entry, or those of A's page; it completes on acknowledgement. -/
def execTlbinv (w : ArithWord) (s : State) := issue (.tlbinv w) w.head s
  (once (if w.sub = 1 then [w.a.toNat] else []) fun v s _ rs =>
    if v.sp.waits.any fun x => x.kind == .invalidate && x.done then .ok s
    else
      let va := srcVal rs 0
      let s1 := s.dropTlb (s.instOf v.core) fun e => w.sub == 0 || e.maps va
      if s.slow then .error (.park { kind := .invalidate, since := s.cyc, n := 0 } s1) else .ok s1)

/-- Every acknowledgement of an invalidation has come: the unit goes on. -/
def invalidated (n core unit split : Nat) (s : State) : Host.Outcome State Fault Refusal :=
  if Config.numCores ≤ core then .fault .badPlace
  else .next (s.modUnit core unit fun p => p.modSplit split fun t => { t with waits := t.waits.map fun w =>
    if w.kind == .invalidate && w.n == n then { w with done := true } else w })

/-- ICINV_DEV_COMPLETE (R234). -/
def execIcinvDevComplete (core unit split : Nat) (s : State) := invalidated 1 core unit split s

/-- TLBINV_COMPLETE (R241). -/
def execTlbinvComplete (core unit split : Nat) (s : State) := invalidated 0 core unit split s

/-! ## The error log, services and requests -/

/-- ERRREAD (R244): the oldest record of the die's log, or 0 where it is empty. -/
def execErrread (w : ArithWord) (s : State) := issue (.errread w) w.head s fun v s =>
  if v.sel = 0 then .ok s
  else
    match ((s.dies[dieOf v.core]?.getD {}).log).head? with
    | none => putReg v s w.d.toNat fun _ => mkReg 0 .b64
    | some r =>
      let s1 := { s with dies := s.dies.modify (dieOf v.core) fun d => { d with log := d.log.tail } }
      match putReg v s1 w.d.toNat fun _ => mkReg r.1 .b64 with
      | .error e => .error e
      | .ok s2 => putReg v s2 (w.d.toNat + 1) fun _ => mkReg r.2 .b64

/-- PORTREPLY (R243): the reply to the request that the handler serves, once; it is discarded where the context has exited (R117). -/
def execPortreply (w : ArithWord) (s : State) := issue (.portreply w) w.head s
  (once (if w.sub = 0 then [w.a.toNat] else []) fun v s _ rs =>
    match (s.core v.core).hnd with
    | some h =>
      if !h.svc || h.replied then .error (raiseSel v .queueOrder)
      else
        let r := if w.sub = 0 then some (srcVal rs 0) else none
        let s1 := if h.gone then s
          else s.modUnit v.core h.unit fun p => { p with svc := p.svc.map fun q => { q with reply := some r } }
        .ok (s1.modCore v.core fun k => { k with hnd := some { h with replied := true } })
    | none => .error (raiseSel v .queueOrder))

/-- PREEMPT (R241). -/
def execPreempt (w : ArithWord) (s : State) := issue (.preempt w) w.head s fun v s =>
  if v.sel = 0 then .ok s else .ok (s.requestStop v.core { cause := .preempt, state := 2 })

/-- HALT (R241): as PREEMPT, saved halted with cause DEBUG_HALT. -/
def execHalt (w : ArithWord) (s : State) := issue (.halt w) w.head s fun v s =>
  if v.sel = 0 then .ok s else .ok (s.requestStop v.core { cause := .debugHalt, state := 3 })

/-! ## TRET -/

/-- TRET (R222): a RESUME with bits [2:0] not zero is a fault of TRET; a pinned line of its frame makes it try again (R159). -/
def execTret (w : ArithWord) (s : State) := issue (.tret w) w.head s fun v s =>
  if v.sel = 0 then .ok s
  else match (s.core v.core).hnd with
    | none => .ok s
    | some h => match (if h.svc then none else s.slotPinned v.core h.frameVa 0x40) with
      | some (k, pa) => .error (.park (pinWait s k pa) (s.markRefused k pa))
      | none => match s.returnTrap v.core h with
        | some t => .ok t
        | none => .error (raiseSel v .misaligned)

end Sys2Proof.Machine
end

