-- ==== Sys2Proof/Machine/Retire.lean ====
section
/-! DEFINITION. The end of work: retirement of blocks, ordered reports, completion of launches (R60 to R63), and the passes
of a replay-capable launch (R388). -/

namespace Sys2Proof.Machine

open Host (Cell)

/-! ## Queries -/

/-- The cores that hold a block of a launch. -/
def State.launchCores (s : State) (i n : Nat) : List Nat :=
  (List.range s.cores.length).filter fun c => match s.blk c with
    | some b => b.inst == i && b.launch == n
    | none => false

/-- The number of gangs of stage 0 (R45). -/
def LaunchRec.gangs0 (r : LaunchRec) : Nat := r.gx * r.gy * r.gz

/-- Ordered completion (R51). -/
def LaunchRec.ordered (r : LaunchRec) : Bool := r.flags % 2 == 1

/-- Pipeline launch (R51). -/
def LaunchRec.pipeline (r : LaunchRec) : Bool := r.flags / 2 % 2 == 1

/-- Replay-capable launch (R51). -/
def LaunchRec.replays (r : LaunchRec) : Bool := r.flags / 4 % 2 == 1

/-! ## Saved pages of a pass -/

/-- The VA at which the replay area of a launch begins (R388). -/
def LaunchRec.replayArea (r : LaunchRec) : Word := r.trapArea + 0x200000000

/-- The VA of page copy n. -/
def LaunchRec.pageCopy (r : LaunchRec) (n : Nat) : Word := r.replayArea + .ofNat 64 (0x100000 + 0x10000 * n)

/-- A launch's pass is halted (R388): the block that met the cause stops with REPLAY_MISMATCH, the others of its gang as
pre-empted (R64), those of other gangs are discarded; the halted gang stays saved. (DEDUCED, log 52: unsafe.) -/
def State.haltPass (s : State) (c : Nat) : State :=
  match s.blk c with
  | none => s
  | some b =>
    let s1 := s.modLaunch b.inst b.launch fun l => { l with flagged := true, abandoned := true }
    let r := fun (k : Nat) => if k = c then StopReq.mk .replayMismatch 3 false else StopReq.mk .preempt (if (s.gangCores b).contains k then 2 else 0) false
    (s1.launchCores b.inst b.launch).foldl (fun s k => s.modBlk k fun x => { x with stop := some (r k) }) s1

/-- A VA of low 55 bits that the tables from one at a level on map to a physical page, the lowest. -/
def State.mappedAt (s : State) (page : Nat) : Nat → Nat → Nat → Nat → Option Nat
  | 0, _, _, _ => none
  | fuel + 1, lvl, table, va =>
    let slots := ((s.mem.filter fun x => decide (table ≤ x.1) && decide (x.1 < table + 0x10000)).map fun x => x.1 / 8 * 8).eraseDups
    slots.findSome? fun a =>
      let v := va + (a - table) / 8 * 2 ^ (42 - 13 * lvl)
      match walkEntry (leNat (cellRead s.mem a 8)) lvl v with
      | .ok (.inl next) => s.mappedAt page fuel (lvl + 1) next v
      | .ok (.inr e) => if e.pa ≤ page ∧ page < e.pa + e.size then some (e.va + (page - e.pa)) else none
      | .error _ => none

/-- The VA of a page that a core's block writes (R388): where several VAs map it, that of a translation which the core holds, else
the lowest. (DESIGN CHOICE, log 20: unsafe.) -/
def State.pageVa (s : State) (c page : Nat) : Word :=
  let held := ((s.core c).tlb ++ (s.cells[cellOf c]?.getD {}).tlb).find? fun e => decide (e.pa ≤ page) && decide (page < e.pa + e.size)
  let va := match held with
    | some e => e.va + (page - e.pa)
    | none => (s.mappedAt page 3 0 (s.inst (s.instOf c)).troot.toNat 0).getD 0
  (BitVec.ofNat 55 va).signExtend 64

/-- A page as it stood in `old` copied to the replay area, for the pass that the block of core c runs, with its VA and a zero word
in the directory. -/
def State.savePage (s old : State) (c page : Nat) : State :=
  match old.blk c with
  | none => s
  | some b =>
    match s.launch b.inst b.launch with
    | none => s
    | some l =>
      let n := l.pages.length
      let dir := l.rcd.replayArea + .ofNat 64 (16 * n)
      let bytes := cellRead old.mem page 0x10000
      if l.pages.contains page || l.flagged then s
      else if 65536 ≤ n then s.haltPass c
      else match s.tryWrite c dir (leBytes 8 (s.pageVa c page).toNat ++ leBytes 8 0) with
        | none => s.haltPass c
        | some s1 => match s1.tryWrite c (l.rcd.pageCopy n) bytes with
          | none => s.haltPass c
          | some s2 => s2.modLaunch b.inst b.launch fun l => { l with pages := l.pages ++ [page] }

/-- Pages of global memory that differ between two states. -/
def changedPages (old new : List Cell) : List Nat :=
  (((new.filter fun x => cellGet old x.1 != x.2) ++ (old.filter fun x => cellGet new x.1 != x.2)).map
    fun x => x.1 / 0x10000 * 0x10000).eraseDups

/-- The pages of a block's save slot, which are the device's own. -/
def State.slotPages (s : State) (c : Nat) (b : Block) : List Nat :=
  (List.range 512).filterMap fun k => (s.translate c .store (s.slotVa b + .ofNat 64 (0x10000 * k))).toOption.map (· / 0x10000 * 0x10000)

/-- The pages that a step of core c's block has changed and its pass has not saved, where its launch is replay-capable (R388). -/
def State.newPages (s old : State) (c : Nat) : List Nat :=
  match old.blk c with
  | none => []
  | some b => match s.launch b.inst b.launch with
    | none => []
    | some l =>
      if !l.rcd.replays || l.flagged then []
      else
        let own := old.slotPages c b
        (changedPages old.mem s.mem).filter fun p => !own.contains p && !l.pages.contains p

/-- Pages that a step of core c's block has changed are copied first, where its launch is replay-capable (R388). -/
def State.savePages (s old : State) (c : Nat) : State := (s.newPages old c).foldl (fun s p => s.savePage old c p) s

/-- The first line of the replay area that the copies of a step's pages meet pinned (R159): the step's writes then wait. -/
def State.copiesPinned (s old : State) (c : Nat) : Option (Nat × Nat) :=
  if s.cores.all (·.pins.isEmpty) then none
  else ((old.blk c).bind fun b => s.launch b.inst b.launch).bind fun l =>
    s.spansPinned c l.rcd.replayArea (((s.newPages old c).zipIdx l.pages.length).flatMap fun (_, n) =>
      [(16 * n, 16), (0x100000 + 0x10000 * n, 0x10000)])

/-- Whether a line is in one of the pages that a pass saved, or in the copy of one. -/
def State.inCopies (s : State) (i : Nat) (l : Launch) (line : Nat) : Bool :=
  (l.pages.zipIdx).any fun (page, n) => line / 0x10000 * 0x10000 == page || match s.walk i (l.rcd.pageCopy n) with
    | .ok e => match s.permit e .load (l.rcd.pageCopy n) with
      | .ok pa => line / 0x10000 == pa / 0x10000
      | .error _ => false
    | .error _ => false

/-- The first pinned line that the writing back of a pass's pages meets (R159). -/
def State.pagesPinned (s : State) (i : Nat) (l : Launch) : Option (Nat × Nat) :=
  if l.pages.isEmpty then none
  else (s.cores.zipIdx).findSome? fun (k, c) => (k.pins.find? fun p => s.inCopies i l p.line).map fun p => (c, p.line)

/-- The pages that a pass saved are written back (R388). -/
def State.restorePages (s : State) (i : Nat) (l : Launch) : State :=
  (l.pages.zipIdx).foldl (fun s (page, n) => match s.walk i (l.rcd.pageCopy n) with
    | .ok e => match s.permit e .load (l.rcd.pageCopy n) with
      | .ok pa => s.homeWrite page (s.homeRead pa 0x10000) 0 i
      | .error _ => s
    | .error _ => s) s

/-! ## Completion -/

/-- The completion signal decremented by a release (R62): unchanged where it does not translate. A pinned line refuses it, which its
pin notes, and the device tries again (R159, R161): an error is that state. (DEDUCED, log 60: unsafe.) -/
def State.decrement (s : State) (i : Nat) (l : Launch) (n : Nat) : Except State State :=
  match s.engSignal i l.rcd.signal 0 (· - (n : Int)) with
  | .ok t => .ok t
  | .error (.pinned c pa) => .error (s.markRefused c pa)
  | .error _ => .ok s

/-- Blocks reported in ascending linear index (R63), at most `fuel` of them. -/
def State.report (s : State) (i n : Nat) : Nat → State
  | 0 => s
  | fuel + 1 =>
    match s.launch i n with
    | none => s
    | some l =>
      if !l.rcd.ordered || !l.retired.contains l.reported then s
      else match s.decrement i l 1 with
        | .error t => t
        | .ok t => (t.modLaunch i n fun l =>
            { l with reported := l.reported + 1, retired := l.retired.filter (· != l.reported) }).report i n fuel

/-- Whether every block of a launch has retired and been reported (R62). -/
def Launch.finished (l : Launch) : Bool :=
  !l.abandoned && decide (l.rcd.gangs0 ≤ l.nextG) && l.gangs.isEmpty && l.saved.isEmpty && (l.stages.drop 1).all (·.recs.isEmpty)
    && (!l.rcd.ordered || decide (l.rcd.gangs0 * l.rcd.gang ≤ l.reported))

/-- A launch leaves the list of those held, kept for REPLAY while no later launch of its queue has started, and for the gang that
its pass left halted (R64, R388). -/
def State.keepLaunch (s : State) (i : Nat) (l : Launch) : State :=
  let kept : Launch := { l with complete := true, gangs := l.gangs.filter fun g => l.saved.any (·.blk.gang == g.id) }
  s.modInst i fun k => { k with
    launches := k.launches.filter (·.order != l.order)
    completed := (kept :: k.completed).filter fun x => !x.later || !x.saved.isEmpty }

/-- A launch whose pass is over but whose halted gang is resumed or discarded is held again, for that gang alone (R64, R388). -/
def State.revive (s : State) (i : Nat) (l : Launch) : State :=
  if (s.inst i).completed.any (·.order == l.order) then
    s.modInst i fun k => { k with
      completed := k.completed.filter (·.order != l.order)
      launches := k.launches ++ [{ l with
        complete := false, abandoned := false, nextG := l.rcd.gangs0, reported := l.rcd.gangs0 * l.rcd.gang, retired := []
        stages := l.stages.map fun t => { t with recs := [] } }] }
  else s

/-- A launch completes if it can (R62): the signal changes, and then the queue's vector is raised (R367). -/
def State.complete (s : State) (i n : Nat) : State :=
  match s.launch i n with
  | none => s
  | some l =>
    if l.abandoned then
      if (s.launchCores i n).isEmpty then
        if l.flagged then match s.pagesPinned i l with
          | some (k, pa) => s.markRefused k pa
          | none => (s.restorePages i l).keepLaunch i { l with pages := [] }
        else s.modInst i fun k => { k with launches := k.launches.filter (·.order != n) }
      else s
    else if !l.finished then s
    else match (if l.rcd.ordered then .ok s else s.decrement i l 1) with
      | .error t => t
      | .ok t =>
        let irq := ((s.inst i).queues[l.queue]?.getD {}).irq
        let u := t.keepLaunch i l
        if irq then u.raiseMsix (2 + l.queue % 62) else u

/-- Reports and completions of an instance's launches (R62, R63). -/
def State.settleLaunches (s : State) (i : Nat) : State :=
  ((s.inst i).launches.map (·.order)).foldl (fun s n => (s.report i n 256).complete i n) s

/-! ## Retirement of a block -/

/-- Whether a block has retired (R61): its units have, its commands are over, and no handler runs for it. One that has been asked
to halt or is to be discarded is saved halted, or discarded, instead. (DESIGN CHOICE, log 71: unsafe.) -/
def State.blockDone (s : State) (c : Nat) (b : Block) : Bool :=
  b.liveUnits.isEmpty && b.cmds.all (·.finished) && (s.core c).hnd.isNone && (s.core c).trapQ.isEmpty && (s.core c).sent.isEmpty &&
    !(b.stop.any fun r => r.state == 0 || r.state == 3)

/-- Whether a block of a later pass, one that is not yet flagged, has another digest than in the first (R388). -/
def Launch.mismatch (l : Launch) (b : Block) : Bool :=
  l.rcd.replays && !l.flagged && decide (0 < l.pass) && !l.digests.contains (b.stage, b.index, b.digest)

/-- The level-1 handles of an owner are gone from a block's tile table, and held stores to its core with them (R61, R205). -/
def Block.dropOwner (b : Block) (owner core : Nat) : Block :=
  { b.mapPlaces fun k => if k = core then none else some k with
    tiles := b.tiles.map fun e => e.filter fun x => !(x.level == .cell && x.owner == owner) }

/-- A block retires (R61): its handles, those installed in the tables of its gang among them, and its bindings go with it, its core
clears, and its gang counts it. -/
def State.leaveBlock (s : State) (c : Nat) (b : Block) : State :=
  let s0 := ((s.gangCores b).filter (· != c)).foldl (fun s k => s.modBlk k (·.dropOwner b.bidx c)) (s.leaveTiles c b)
  let s1 := (s0.putHeader c (s0.slotVa b) 0 .none).modCore c (·.vacate s.cyc)
  s1.modLaunch b.inst b.launch fun l => { l with
    saved := l.saved.map fun x => if x.blk.mates b then { x with blk := x.blk.dropOwner b.bidx (placeOf b.bidx) } else x
    gangs := (l.gangs.map fun g => if g.id == b.gang && !g.retired.contains b.index
      then { g with retired := g.retired ++ [b.index] } else g).filter fun g => decide (g.retired.length < l.rcd.gang)
    retired := if l.rcd.ordered then l.retired ++ [b.index] else l.retired
    digests := if l.rcd.replays && l.pass == 0 then l.digests ++ [(b.stage, b.index, b.digest)] else l.digests }

/-- The block of a core retires if it has come to its end; a pinned line of its save slot makes the device try again (R159). -/
def State.retireBlock (s : State) (c : Nat) : State :=
  match s.blk c with
  | none => s
  | some b =>
    if !s.blockDone c b then s
    else
      let s1 := s.quiesce c
      match (s1.core c).travel, s1.blk c, s1.launch b.inst b.launch with
      | [], some b1, some l =>
        let r : StopReq := { cause := .replayMismatch, state := if l.mismatch b1 then 3 else 0 }
        match s1.savePinned c b1 r with
        | some (k, pa) => s1.markRefused k pa
        | none => if l.mismatch b1 then (s1.haltPass c).saveBlock c b1 r else s1.leaveBlock c b1
      | _, _, _ => s1

end Sys2Proof.Machine
end

