-- ==== Sys2Proof/Machine/Queues.lean ====
section
/-! DEFINITION. Launch queues: their registers (R294 to R296), doorbells and slots (R297 to R299), the choice and validation
of a head (R300, R51), and the launch that it starts (R45, R48 to R50, R377). -/

namespace Sys2Proof.Machine

/-! ## The device's own accesses -/

/-- The physical address of an access of the dispatcher, at the instance's tables (R299); a pinned line refuses it. -/
def State.devPlace (s : State) (i : Nat) (k : Access) (va : Word) : Except MemErr Nat :=
  match s.walk i va with
  | .error e => .error e
  | .ok e => match s.permit e k va with
    | .error e => .error e
    | .ok pa => match s.pinHolder Config.numCores pa with
      | some c => .error (.pinned c pa)
      | none => .ok pa

/-- n bytes, of one page, that the dispatcher reads at their home slices. -/
def State.devRead (s : State) (i : Nat) (va : Word) (n : Nat) : Except MemErr (List Byte) :=
  match s.devPlace i .load va with
  | .error e => .error e
  | .ok pa => if s.poisonedIn pa n then .error (.cause .poisonData) else .ok (s.homeRead pa n)

/-- The lines that a read of the dispatcher, of one line, touches at their home slices, those of its walk among them (R395). -/
def State.touchDev (s : State) (i : Nat) (va : Word) : State :=
  match s.devPlace i .load va with
  | .error _ => s
  | .ok pa => (s.touchWalk i va).touchL2 pa 0 false i

/-! ## Registers of a queue -/

/-- Queue q of an instance. -/
def State.queue (s : State) (i q : Nat) : Queue := (s.inst i).queues[q]?.getD {}

/-- The state with a queue changed. -/
def State.modQueue (s : State) (i q : Nat) (f : Queue → Queue) : State :=
  s.modInst i fun k => { k with queues := k.queues.modify q f }

/-- The number of slots (R295). -/
def Queue.size (q : Queue) : Nat := 2 ^ q.logs

/-- A queue stops with a code, SLOT the index at hand (R296); a stop that the device makes is reported (R367). -/
def State.stopQueue (s : State) (i q code : Nat) : State :=
  let k := s.queue i q
  let s1 := s.modQueue i q fun k => { k with
    stop := true, code := .ofNat 8 code, slot := .ofNat 32 k.consumed, head := none, satisfied := false, reread := 0 }
  if code = 0 then s1 else s1.ringRecord 2 i q k.consumed 0 code

/-- The copy of QCONSUMED to the word at QCVA is owed: a fault has stopped the queue, or its line was pinned. -/
def State.oweCopy (s : State) (i q : Nat) (fault pinned : Bool) : State :=
  s.modQueue i q fun k => { k with copyFault := fault, owed := pinned }

/-- QCONSUMED copied to the word at QCVA by a system-scope release (R299): a translation fault stops the queue, and the
copy is repeated when the stop is cleared (R296); a pinned line refuses it, and it is tried again (R159). (DEDUCED, log 46: unsafe.) -/
def State.copyConsumed (s : State) (i q : Nat) : State :=
  let k := s.queue i q
  match s.devPlace i .store k.qcva with
  | .ok pa => (s.homeWrite pa (leBytes 8 k.consumed) 0 i).oweCopy i q false false
  | .error (.pinned c pa) => (s.markRefused c pa).oweCopy i q false true
  | .error _ => (s.stopQueue i q 0x0B).oweCopy i q true false

/-- Whether QBASE, QSEQ, QCVA and LOGS make a descriptor (R295). -/
def Queue.valid (k : Queue) : Bool :=
  decide (1 ≤ k.logs) && decide (k.logs ≤ 16) && decide (k.qbase.toNat % 128 = 0) && decide (k.qseq.toNat % 32 = 0)
    && decide (k.qcva.toNat % 8 = 0)

/-- QCTL written (R295): LOGS only while EN = 0; EN rising starts the queue anew, 0 going to the word at QCVA, where a
pinned line makes the device try again (R159). -/
def State.writeQctl (s : State) (i q : Nat) (x : Word) : State :=
  let old := s.queue i q
  let s1 := s.modQueue i q fun k => { k with
    irq := x.getLsbD 16, en := x.getLsbD 15, pri := x.toNat / 2 ^ 8 % 4, logs := if k.en then k.logs else x.toNat % 32
    head := if x.getLsbD 15 then k.head else none }
  if old.en || !x.getLsbD 15 then s1
  else
    let s2 := s1.modQueue i q fun k => { k with doorbell := 0, consumed := 0, head := none, satisfied := false, reread := 0, copyFault := false, owed := false }
    if (s2.queue i q).valid then s2.copyConsumed i q
    else match (if (s2.queue i q).qcva.toNat % 8 = 0 then s2.devPlace i .store (s2.queue i q).qcva else .error (.fault .noMemory)) with
      | .ok pa => (s2.homeWrite pa (leBytes 8 0) 0 i).stopQueue i q 0x0A
      | .error (.pinned c pa) => ((s2.markRefused c pa).oweCopy i q false true).stopQueue i q 0x0A
      | .error _ => s2.stopQueue i q 0x0A

/-- QDOORBELL written (R299): a larger value raises the tail. -/
def State.ringDoorbell (s : State) (i q : Nat) (x : Word) : State :=
  s.modQueue i q fun k => { k with doorbell := max k.doorbell x.toNat }

/-- A stopped queue's stop is cleared (R296): the copy that failed is repeated, or with SKIP the slot is passed over and
copied. -/
def State.clearStop (s : State) (i q : Nat) (skip : Bool) : State :=
  let k := s.queue i q
  if !k.stop then s
  else
    let s1 := s.modQueue i q fun k => { k with stop := false, code := 0, head := none, satisfied := false, reread := 0 }
    if k.copyFault then s1.copyConsumed i q
    else if skip then (s1.modQueue i q fun k => { k with consumed := k.consumed + 1 }).copyConsumed i q
    else s1

/-- QSTATUS written (R296). -/
def State.writeQstatus (s : State) (i q : Nat) (x : Word) : State :=
  if x.getLsbD 8 then s.stopQueue i q 0 else s.clearStop i q (x.getLsbD 9)

/-- Register r of a queue written (R294). -/
def State.writeQueue (s : State) (i q r : Nat) (x : Word) : State :=
  let idle (f : Queue → Queue) : State := s.modQueue i q fun k => if k.en then k else f k
  match r with
  | 0x00 => idle fun k => { k with qbase := x }
  | 0x08 => idle fun k => { k with qseq := x }
  | 0x10 => s.writeQctl i q x
  | 0x18 => idle fun k => { k with qcva := x }
  | 0x20 => s.ringDoorbell i q x
  | 0x30 => s.writeQstatus i q x
  | _ => s

/-- Whether a queue of the device exists: instance 0 alone, or four in a partitioned module (R294, R372). -/
def State.queueExists (s : State) (i q : Nat) : Bool := decide (q < 64) && (if s.dev.part = 0 then i == 0 else decide (i < 4))

/-- An event of a queue, where there is one. -/
def onQueue (i q : Nat) (s : State) (f : State → State) : Host.Outcome State Fault Refusal :=
  if s.queueExists i q then .next (f s) else .fault .badPlace

/-- QUEUE_ENABLE (R295). -/
def execQueueEnable (ins q : Nat) (val : Word) (s : State) := onQueue ins q s fun s => s.writeQctl ins q val

/-- QDOORBELL (R299). -/
def execQdoorbell (ins q : Nat) (val : Word) (s : State) := onQueue ins q s fun s => s.ringDoorbell ins q val

/-- QUEUE_STOP (R296). -/
def execQueueStop (ins q : Nat) (s : State) := onQueue ins q s fun s => s.stopQueue ins q 0

/-- QUEUE_CLEAR_STOP (R296). -/
def execQueueClearStop (ins q : Nat) (s : State) := onQueue ins q s fun s => s.clearStop ins q false

/-- QUEUE_SKIP (R296). -/
def execQueueSkip (ins q : Nat) (s : State) := onQueue ins q s fun s => s.clearStop ins q true

/-! ## Slots -/

/-- Whether a queue waits for its next slot, or to copy QCONSUMED (R159, R299). -/
def Queue.wants (k : Queue) : Bool :=
  k.owed || k.en && !k.stop && k.head.isNone && (k.copyFault || decide (k.consumed < k.doorbell))

/-- SEQ of the next slot is read with a system-scope acquire (R299): a match makes header and record the queue's head, a
mismatch is read again 512 cycles later, a fault stops the queue: one of alignment too (R296). A copy of QCONSUMED that is owed
comes before. -/
def State.readSlot (s : State) (i q : Nat) : State :=
  let k := s.queue i q
  let n := k.consumed % k.size
  let hva := k.qseq + .ofNat 64 (32 * n)
  let rva := k.qbase + .ofNat 64 (128 * n)
  if k.copyFault || k.owed then s.copyConsumed i q
  else if hva.toNat % 32 ≠ 0 then s.stopQueue i q 0x0B
  else match s.devRead i hva 8 with
    | .error (.pinned c pa) => s.markRefused c pa
    | .error _ => s.stopQueue i q 0x0B
    | .ok seq =>
      let s1 := s.touchDev i hva
      if leNat seq ≠ k.consumed then s1.modQueue i q fun k => { k with reread := s.cyc + 512 }
      else if rva.toNat % 128 ≠ 0 then s1.stopQueue i q 0x0B
      else match s1.devRead i hva 32, s1.devRead i rva 128 with
        | .ok hdr, .ok rec => (s1.touchDev i rva).modQueue i q fun k => { k with
            head := some (hdr, rec), reread := 0, satisfied := leNat ((hdr.drop 8).take 8) == 0 }
        | _, .error (.pinned c pa) => s1.markRefused c pa
        | _, _ => s1.stopQueue i q 0x0B

/-- SEQ_READ (R299): the first read of a slot. -/
def execSeqRead (ins q : Nat) (s : State) := onQueue ins q s fun s =>
  if (s.queue ins q).wants && (s.queue ins q).reread == 0 then s.readSlot ins q else s

/-- SEQ_REREAD (R299): a mismatched SEQ is read again every 512 cycles. -/
def execSeqReread (ins q : Nat) (s : State) := onQueue ins q s fun s =>
  let k := s.queue ins q
  if k.wants && k.reread != 0 && decide (k.reread ≤ s.cyc) then s.readSlot ins q else s

/-- A head's wait signal is looked at (R299): at or below WAITVAL, read as I64, the head may start. -/
def State.lookWait (s : State) (i q : Nat) : State :=
  match (s.queue i q).head with
  | none => s
  | some (hdr, _) =>
    let va := BitVec.ofNat 64 (leNat ((hdr.drop 8).take 8))
    let limit := BitVec.ofNat 64 (leNat ((hdr.drop 16).take 8))
    if (s.queue i q).satisfied then s
    else if va.toNat % 8 ≠ 0 then s.stopQueue i q 0x0B
    else match s.devRead i va 8 with
      | .error (.pinned c pa) => s.markRefused c pa
      | .error _ => s.stopQueue i q 0x0B
      | .ok bs =>
        let s1 := s.touchDev i va
        if (BitVec.ofNat 64 (leNat bs)).toInt ≤ limit.toInt then s1.modQueue i q fun k => { k with satisfied := true } else s1

/-- HEAD_WAIT_SATISFIED (R299). -/
def execHeadWaitSatisfied (ins q : Nat) (s : State) := onQueue ins q s fun s => s.lookWait ins q

/-! ## Validation -/

/-- A launch record's fields (R377). (DEDUCED, log 49: unsafe.) -/
def readRecord (bs : List Byte) : LaunchRec :=
  let n := fun o k => leNat ((bs.drop o).take k)
  let w := fun o => BitVec.ofNat 64 (n o 8)
  { ident := w 0, code := w 8, fEntry := n 0x10 4, wEntry := n 0x14 4, vEntry := n 0x18 4, flags := n 0x1C 4
    gx := n 0x20 4, gy := n 0x24 4, gz := n 0x28 4, gang := n 0x2C 1, warps := n 0x2D 1, width := n 0x2E 1, regs := n 0x2F 1
    vgroups := n 0x30 1, vclusters := n 0x31 1, tileKiB := n 0x32 2, prio := n 0x34 1, stages := n 0x35 1, depth := n 0x36 2
    arg := w 0x38, signal := w 0x40, stageTab := w 0x48, trapArea := w 0x50, heap := w 0x58, heapSize := w 0x60
    range := n 0x68 8, chunk := n 0x70 4, shape := n 0x74 4, hash := w 0x78, raw := bs }

/-- Lanes of a width code (R377). -/
def widthOf (code : Nat) : Nat := 32 * 2 ^ code

/-- Whether the fields of refusal code 0x03 lie in their ranges (R16, R51). -/
def LaunchRec.fits (r : LaunchRec) : Bool :=
  decide (1 ≤ r.gang) && decide (r.gang ≤ 8) && decide (r.warps ≤ 16) && decide (r.width ≤ 2) && decide (8 ≤ r.regs)
    && decide (r.regs ≤ 128) && decide (r.regs % 8 = 0) && decide (r.vgroups ≤ 8)
    && (r.vclusters == 0 || r.vclusters == 16 || r.vclusters == 32) && decide (r.tileKiB ≤ 1024) && decide (r.prio ≤ 3)
    && decide (1 ≤ r.stages) && decide (r.stages ≤ 8) && decide (r.vclusters ≤ 16 * r.vgroups)

/-- A stage-table entry (R48). -/
def readStage (bs : List Byte) : Stage × Bool :=
  ({ cap := leNat (bs.take 4), succ := .ofNat 8 (leNat ((bs.drop 4).take 1)), qva := .ofNat 64 (leNat ((bs.drop 8).take 8)) },
   leNat ((bs.drop 5).take 3) == 0)

/-- The stages that stage t can reach in at most n pushes. -/
def reaches (stages : List Stage) (t : Nat) : Nat → BitVec 8
  | 0 => 0
  | n + 1 =>
    let r := reaches stages t n
    (List.range 8).foldl (fun m k => if k = t ∨ r.getLsbD k then m ||| (stages[k]?.getD {}).succ else m) r

/-- Whether the stage table keeps R48 and R50: reserved bytes zero, capacities and alignments of stages above 0, successors
below the stage count, no cycle. -/
def stagesOk (l : List (Stage × Bool)) : Bool :=
  let stages := l.map (·.1)
  l.all (·.2) && (stages.drop 1).all (fun t => decide (1 ≤ t.cap) && decide (t.cap ≤ 65536) && decide (t.qva.toNat % 64 = 0))
    && stages.all (fun t => decide (t.succ.toNat < 2 ^ l.length))
    && (List.range l.length).all fun t => !(reaches stages t 8).getLsbD t

/-- The stage table of a pipeline launch; none where it cannot be read. -/
def State.readStages (s : State) (i : Nat) (r : LaunchRec) : Option (List (Stage × Bool)) :=
  if !r.pipeline then some [({}, true)]
  else (List.range r.stages).mapM fun n => match s.devRead i (r.stageTab + .ofNat 64 (16 * n)) 16 with
    | .ok bs => some (readStage bs)
    | .error _ => none

/-- The pin that refuses a read of a launch's stage table (R159). -/
def State.stagesPinned (s : State) (i : Nat) (r : LaunchRec) : Option (Nat × Nat) :=
  (List.range r.stages).findSome? fun n => match s.devRead i (r.stageTab + .ofNat 64 (16 * n)) 16 with
    | .error (.pinned c pa) => some (c, pa)
    | _ => none

/-- The warps of a new block as R54 counts them. -/
def LaunchRec.warpSizes (r : LaunchRec) : List (Nat × Nat) := List.replicate r.warps (r.regs, widthOf r.width)

/-- The clusters of a new block's context. -/
def LaunchRec.clusters (r : LaunchRec) : Nat := r.vclusters

/-- The quarters of a new block's warps on a core that can hold it (R53, R54). -/
def State.holds (s : State) (c : Nat) (r : LaunchRec) : Option (List Nat) :=
  (s.core c).placement r.vgroups r.clusters r.tileKiB r.warpSizes

/-- The cores that the dispatcher of an instance may use: enabled, and on die 0 in reduced service (R369). -/
def State.usable (s : State) (i c : Nat) : Bool :=
  (s.core c).on && s.instOf c == i && (s.dev.level != 1 || dieOf c == 0)

/-- The refusal code of a record (R51), 0 where it is accepted; its stages beside it. -/
def State.validate (s : State) (i : Nat) (r : LaunchRec) : Nat × List Stage :=
  let tab := s.readStages i r
  let code :=
    if r.ident.toNat % 2 ^ 24 ≠ 0x4C5034 ∨ r.ident.toNat / 2 ^ 24 ≠ 1 then 1
    else if 8 ≤ r.flags then 2
    else if !r.fits then 3
    else if r.gx = 0 ∨ r.gy = 0 ∨ r.gz = 0 ∨ 2 ^ 32 - 1 < r.gangs0 then 4
    else if r.warps = 0 ∧ r.fEntry = 0 ∧ r.vEntry = 0 then 5
    else if r.vEntry ≠ 0 ∧ r.vclusters = 0 then 6
    else if (1 < r.stages ∧ !r.pipeline) ∨ (r.pipeline ∧ r.ordered) then 7
    else if !((tab.map stagesOk).getD false) then 8
    else if !((List.range Config.numCores).any fun c => s.usable i c && (s.holds c r).isSome) then 9
    else 0
  (code, (tab.getD []).map (·.1))

/-! ## Starting a launch -/

/-- The cells of an instance, over which heap chunks are dealt (R192). -/
def State.cellsOf (s : State) (i : Nat) : List Nat := (List.range Config.numCells).filter fun x => s.instOf (8 * x) = i

/-- A record becomes a launch of its instance, taken from slot n of queue q. -/
def State.startLaunch (s : State) (i q n : Nat) (r : LaunchRec) (stages : List Stage) : State :=
  let sig := match s.devPlace i .load r.signal with
    | .ok pa => s.homeWord pa
    | .error _ => 0
  let later : Launch → Launch := fun l => if l.queue = q then { l with later := true } else l
  s.modInst i fun k => { k with
    nStarted := k.nStarted + 1
    completed := (k.completed.map later).filter fun x => !x.later || !x.saved.isEmpty
    launches := k.launches.map later ++ [{
      rcd := r, queue := q, order := k.nStarted, stages := stages, started := s.cyc, index := n, sig0 := sig
      heaps := heapStart r.heap.toNat r.heapSize.toNat (s.cellsOf i) }] }

/-- Whether a queue's head may be chosen (R300). -/
def Queue.eligible (k : Queue) : Bool := k.en && !k.stop && k.head.isSome && k.satisfied

/-- The queue that the dispatcher chooses (R300): the highest QPRI, then the first after the one last chosen. -/
def Inst.chooseQueue (k : Inst) : Option Nat :=
  let l := ((List.range 64).map fun d => (k.lastQ + 1 + d) % 64).filter fun q => (k.queues[q]?.getD {}).eligible
  let top := l.foldl (fun m q => max m (k.queues[q]?.getD {}).pri) 0
  l.find? fun q => (k.queues[q]?.getD {}).pri == top

/-- The home slices after the reads of a launch's stage table and completion signal (R395). -/
def State.touchLaunch (s : State) (i : Nat) (r : LaunchRec) : State :=
  (if r.pipeline then (List.range r.stages).foldl (fun s n => s.touchDev i (r.stageTab + .ofNat 64 (16 * n))) s else s).touchDev i r.signal

/-- LAUNCH_START (R300): at most one launch per 64 cycles and 32 at a time; the head is consumed, or its queue stops. A pinned
line of the stage table is read again (R159). -/
def execLaunchStart (ins : Nat) (s : State) := onQueue ins 0 s fun s =>
  let k := s.inst ins
  if s.cyc < k.nextStart ∨ s.dev.level = 0 ∨ 32 ≤ (k.launches.filter fun l => !l.abandoned).length then s
  else match k.chooseQueue with
    | none => s
    | some q => match (s.queue ins q).head with
      | none => s
      | some (_, bs) =>
        let r := readRecord bs
        let v := s.validate ins r
        let s1 := (s.touchLaunch ins r).modInst ins fun k => { k with lastQ := q, nextStart := s.cyc + 64 }
        if v.1 ≠ 0 then match (if v.1 = 8 then s.stagesPinned ins r else none) with
          | some (c, pa) => s.markRefused c pa
          | none => s1.stopQueue ins q v.1
        else
          let n := (s.queue ins q).consumed
          let s2 := s1.startLaunch ins q n r v.2
          (s2.modQueue ins q fun k => { k with consumed := n + 1, head := none, satisfied := false, reread := 0 }).copyConsumed ins q

end Sys2Proof.Machine
end

