-- ==== Sys2Proof/Machine/Grid.lean ====
section
/-! DEFINITION. Placing gangs: the start state of a block (R56), the order of pending gangs (R301), the choice of a stage
(R302), cells and cores (R47, R53), restored gangs (R64, R232), and the break of a stage wait (R303). -/

namespace Sys2Proof.Machine

/-! ## A new block -/

/-- A register of the argument block VA among registers that are 0 and UND (R56). -/
def startRegs (n : Nat) (arg : Word) : List Reg := mkReg arg .n64 :: List.replicate (n - 1) (mkReg 0 .und)

/-- A warp at its start (R56). -/
def startWarp (r : LaunchRec) (q lanes cyc : Nat) : ProgUnit :=
  let w := widthOf r.width
  let pc := r.code + .ofNat 64 r.wEntry
  { kind := .warp, lanes := List.replicate w { regs := startRegs r.regs r.arg }, quarter := q, qlanes := lanes
    splits := [{ mask := maskOf w fun _ => true, pc := pc, rpc := pc, last := cyc, ready := cyc }], dqPos := some 0, issued := cyc }

/-- VLIW context 0 at its start, its checkpoint taken at the entry bundle (R56, R216). -/
def startContext (r : LaunchRec) (cyc : Nat) : ProgUnit :=
  let pc := r.code + .ofNat 64 r.vEntry
  let u : ProgUnit := {
    kind := .context, lanes := List.replicate r.vclusters { regs := startRegs 62 r.arg }, k := r.vclusters
    splits := [{ mask := maskOf r.vclusters fun _ => true, pc := pc, rpc := pc, last := cyc, ready := cyc }] }
  u.checkpoint

/-- The front end at its start (R56). -/
def startFront (r : LaunchRec) (cyc : Nat) : ProgUnit :=
  let pc := r.code + .ofNat 64 r.fEntry
  { kind := .front, lanes := [{ regs := mkReg r.arg .b64 :: List.replicate 63 (mkReg 0 .b64) }]
    splits := [{ mask := 1, pc := pc, rpc := pc, last := cyc, ready := cyc }] }

/-- A block of a launch as it starts on a core whose quarters have these lanes, its warps on the quarters given; a stage
record stands in its decision queue (R49, R56). -/
def startBlock (i : Nat) (l : Launch) (stage gang gidx bidx : Nat) (words : List Word) (lanes qs : List Nat) (cyc : Nat) : Block :=
  let r := l.rcd
  { inst := i, launch := l.order, index := gidx * r.gang + bidx, gidx := gidx, bidx := bidx, stage := stage, gang := gang, vgroups := r.vgroups
    units := (List.range 22).map fun u =>
      if u < r.warps then some (startWarp r (qs[u]?.getD 0) (lanes[qs[u]?.getD 0]?.getD 32) cyc)
      else if u = 16 ∧ r.vEntry ≠ 0 then some (startContext r cyc)
      else if u = 20 ∧ r.fEntry ≠ 0 then some (startFront r cyc)
      else none
    dq := words, feStarted := decide (r.fEntry ≠ 0) }

/-- A block starts on a core (R47, R56): mailboxes and horizon empty, its save slot marked running. -/
def State.placeBlock (s : State) (i : Nat) (l : Launch) (stage gang gidx bidx : Nat) (words : List Word) (c : Nat) : State :=
  let qs := (s.holds c l.rcd).getD []
  let lanes := quarterLanes ((s.core c).nGroups - l.rcd.vgroups)
  let b := (startBlock i l stage gang gidx bidx words lanes qs s.cyc).trimDq
  let s1 := s.modCore c fun k => { k with blk := some b, mail := List.replicate 64 [], horizon := 0 }
  s1.putHeader c (s1.slotVa b) 1 .none

/-! ## Gangs that wait for cores -/

/-- What the dispatcher may place: a saved gang by its number, its stage and its blocks, or a new gang of a stage. -/
inductive Pending where
  | restore (gang stage : Nat) (blocks : List Saved)
  | fresh (stage gidx : Nat) (words : List Word)
  deriving DecidableEq, Repr

/-- Whether a saved gang may be restored by the dispatcher: all of its blocks that have not retired are saved in state 2,
none is held for CTXRESUME, and it does not wait for a stage's gang (R64, R303, R375). -/
def Launch.restorable (l : Launch) (g : Gang) : Option Pending :=
  let bs := l.saved.filter fun x => x.blk.gang == g.id
  if bs.isEmpty || bs.length + g.retired.length != l.rcd.gang || g.behind.isSome || bs.any (fun x => x.state != 2 || x.held) then none
  else some (.restore g.id g.stage bs)

/-- Whether block i may be dispatched: its save slot is free of block i − 256, and with ordered completion i lies in the
window (R63, R228). -/
def State.dispatchable (s : State) (i : Nat) (l : Launch) (stage idx : Nat) : Bool :=
  let clash := fun (b : Block) => b.inst == i && b.launch == l.order && b.stage == stage && b.index != idx && b.index % 256 == idx % 256
  (!l.rcd.ordered || decide (idx < l.reported + 256)) && !(s.cores.any fun k => k.blk.any clash)
    && !(l.saved.any fun x => clash x.blk)

/-- The gang that a stage would place next (R49, R302): its GIDX and record. -/
def State.stageNext (s : State) (i : Nat) (l : Launch) (stage : Nat) : Option (Nat × List Word) :=
  let next := if stage = 0 then (if l.nextG < l.rcd.gangs0 then some (l.nextG, []) else none)
    else (l.stages[stage]?.bind fun t => t.recs.head?).map fun x => (x.2, x.1)
  next.filter fun x => (List.range l.rcd.gang).all fun k => s.dispatchable i l stage (x.1 * l.rcd.gang + k)

/-- Whether a stage is eligible (R302): it has a gang to place and room in every successor's queue. -/
def State.stageEligible (s : State) (i : Nat) (l : Launch) (stage : Nat) : Bool :=
  (s.stageNext i l stage).isSome && (List.range l.stages.length).all fun t =>
    !(l.stages[stage]?.getD {}).succ.getLsbD t || decide ((l.stages[t]?.getD {}).recs.length < (l.stages[t]?.getD {}).cap)

/-- The occupancy fraction of a stage as numerator and denominator (R302). -/
def Launch.occupancy (l : Launch) (stage : Nat) : Nat × Nat :=
  if stage = 0 then (if l.nextG < l.rcd.gangs0 then (1, 2) else (0, 1))
  else ((l.stages[stage]?.getD {}).recs.length, max 1 (l.stages[stage]?.getD {}).cap)

/-- The stage that a launch places from (R302): the greatest fraction, ties to the lower number. -/
def State.chooseStage (s : State) (i : Nat) (l : Launch) : Option Nat :=
  if !l.rcd.pipeline then (if (s.stageNext i l 0).isSome then some 0 else none)
  else ((List.range l.stages.length).filter (s.stageEligible i l)).foldl (fun best t =>
    match best with
    | none => some t
    | some b =>
      let x := l.occupancy b
      let y := l.occupancy t
      if x.1 * y.2 < y.1 * x.2 then some t else some b) none

/-- The gangs of a launch in the order of R301: those to restore, then the new one. -/
def State.pendingOf (s : State) (i : Nat) (l : Launch) : List Pending :=
  if l.abandoned then []
  else
    l.gangs.filterMap l.restorable ++ (match s.chooseStage i l with
      | some t => ((s.stageNext i l t).map fun x => [Pending.fresh t x.1 x.2]).getD []
      | none => [])

/-- Every pending gang of an instance in order, with its launch (R301). -/
def State.pendingAll (s : State) (i : Nat) : List (Launch × Pending) :=
  [3, 2, 1, 0].flatMap fun p => ((s.inst i).launches.filter fun l => l.rcd.prio == p).flatMap fun l =>
    (s.pendingOf i l).map fun x => (l, x)

/-! ## Cells and cores -/

/-- Whether a core is free for an instance (R301). -/
def State.free (s : State) (i c : Nat) : Bool := s.usable i c && (s.core c).blk.isNone && !(s.core c).clearing

/-- Whether a core can hold every block of a pending gang. -/
def State.suits (s : State) (l : Launch) (c : Nat) : Pending → Bool
  | .restore _ _ bs => bs.all fun x => (s.canHold c x.blk).isSome
  | .fresh _ _ _ => (s.holds c l.rcd).isSome

/-- The number of blocks of a pending gang. -/
def Pending.size (l : Launch) : Pending → Nat
  | .restore _ _ bs => bs.length
  | .fresh _ _ _ => l.rcd.gang

/-- The free cores of a cell that suit a gang, ascending. -/
def State.roomIn (s : State) (i : Nat) (l : Launch) (p : Pending) (cell : Nat) : List Nat :=
  ((List.range 8).map (8 * cell + ·)).filter fun c => s.free i c && s.suits l c p

/-- The cores that a gang takes (R47, R301): in the cell with the most that suit it, ties to the lowest cell. -/
def State.roomFor (s : State) (i : Nat) (l : Launch) (p : Pending) : Option (List Nat) :=
  let b := p.size l
  ((List.range Config.numCells).foldl (fun (best : Option (List Nat)) cell =>
    let r := s.roomIn i l p cell
    if r.length < b then best else match best with
      | none => some r
      | some x => if x.length < r.length then some r else some x) none).map (·.take b)

/-! ## Placing -/

/-- A gang is placed on cores (R47): a new one leaves its queue or the grid's order, and the gangs that waited behind its
stage are free again (R303). A gang made from a stage record starts with a device-scope acquire (R336). -/
def State.putGang (s : State) (i : Nat) (l : Launch) (p : Pending) (cores : List Nat) : State :=
  let freed := fun (t : Nat) (x : Gang) => if x.behind == some t then { x with behind := none } else x
  match p with
  | .restore _ t bs =>
    (s.modLaunch i l.order fun l => { l with gangs := l.gangs.map (freed t) }).restoreGang i l.order ((((List.range 8).flatMap fun k => bs.filter fun x => x.blk.bidx == k)).zip cores)
  | .fresh t g words =>
    let s1 := s.modLaunch i l.order fun l => { l with
      nextG := if t = 0 then l.nextG + 1 else l.nextG, nGangs := l.nGangs + 1
      stages := if t = 0 then l.stages else l.stages.modify t fun q => { q with recs := q.recs.tail }
      gangs := l.gangs.map (freed t) ++ [{ gidx := g, id := l.nGangs, stage := t }] }
    (cores.zipIdx).foldl (fun s x =>
      let s2 := s.placeBlock i l t l.nGangs g x.2 words x.1
      if t = 0 then s2 else s2.dropL1 x.1) s1

/-- The number of the next gang of a stage in the order of its launch: its GIDX in stage 0, else that of its record. -/
def Launch.nextNumber (l : Launch) (stage : Nat) : Nat :=
  let q : Stage := l.stages[stage]?.getD {}
  if stage = 0 then l.nextG else q.pushed - q.recs.length

/-- How often a pending gang has been passed over (R301). -/
def Pending.passed (l : Launch) : Pending → Nat
  | .restore g _ _ => ((l.gangs.find? (·.id == g)).map (·.passed)).getD 0
  | .fresh t _ _ => (((l.stages[t]?.getD {}).passes).filter (l.nextNumber t < ·)).length

/-- The first gang of stage 0 after the next that does not stand in the dispatcher's order (R63, R228, R301). -/
def State.orderEnd (s : State) (i : Nat) (l : Launch) : Nat :=
  ((List.range 257).find? fun k => !(List.range l.rcd.gang).all fun j => s.dispatchable i l 0 ((l.nextG + k) * l.rcd.gang + j)).map
    (l.nextG + ·) |>.getD l.rcd.gangs0

/-- The stages of a launch after its new gangs have been passed over (R301): every gang that stands in the order counts it. -/
def State.passStages (s : State) (i : Nat) (l : Launch) : List Stage :=
  l.stages.mapIdx fun t q =>
    let in0 := if t = 0 then (s.stageNext i l 0).isSome else s.stageEligible i l t
    let q1 := { q with passes := q.passes.filter (l.nextNumber t < ·) }
    if in0 then { q1 with passes := q1.passes ++ [if t = 0 then s.orderEnd i l else q.pushed] } else q1

/-- A pending gang is passed over (R301), and with a new one every other new gang of its launch. (DESIGN CHOICE, log 86:
unsafe.) -/
def State.passOver (s : State) (i : Nat) (x : Launch × Pending) : State :=
  s.modLaunch i x.1.order fun l => match x.2 with
    | .restore g _ _ => { l with gangs := l.gangs.map fun y => if y.id == g then { y with passed := y.passed + 1 } else y }
    | .fresh _ _ _ => { l with stages := s.passStages i l }

/-- The gangs before the first that can be placed, and that one with its cores (R301): none where no cell has room or a
gang passed over 64 times stands before it. -/
def State.firstPlaceable (s : State) (i : Nat) : List (Launch × Pending) → List (Launch × Pending) →
    List (Launch × Pending) × Option (Launch × Pending × List Nat)
  | seen, [] => (seen, none)
  | seen, x :: rest =>
    match s.roomFor i x.1 x.2 with
    | some cs => (seen, some (x.1, x.2, cs))
    | none => if 64 ≤ x.2.passed x.1 then (seen ++ [x], none) else s.firstPlaceable i (seen ++ [x]) rest

/-- The first line of the save slots of a gang that placing it on cores meets pinned (R159). -/
def State.placePinned (s : State) (l : Launch) (p : Pending) (cores : List Nat) : Option (Nat × Nat) :=
  match p with
  | .restore _ _ bs => s.restorePinned (((List.range 8).flatMap fun k => bs.filter fun x => x.blk.bidx == k).zip cores)
  | .fresh _ g _ => (cores.zipIdx).findSome? fun (c, k) =>
      s.spansPinned c (l.rcd.trapArea + .ofNat 64 (0x2000000 * ((g * l.rcd.gang + k) % 256))) [(0, 8)]

/-- GANG_PLACE (R301): one gang per 16 cycles; those before it that no cell has room for are passed over. A pinned line of its save
slots makes the dispatcher try again (R159). -/
def execGangPlace (ins : Nat) (s : State) := onQueue ins 0 s fun s =>
  if s.cyc < (s.inst ins).nextPlace ∨ s.dev.level = 0 ∨ s.dev.rst then s
  else match s.firstPlaceable ins [] (s.pendingAll ins) with
    | (_, none) => s
    | (seen, some (l, p, cs)) =>
      let s1 := seen.foldl (fun s x => s.passOver ins x) s
      match s.placePinned l p cs with
      | some (k, pa) => s.markRefused k pa
      | none => (s1.putGang ins ((s1.launch ins l.order).getD l) p cs).modInst ins fun k => { k with nextPlace := s.cyc + 16 }

/-- GANG_PASSED_OVER (R301): a gang passed over 64 times takes the dispatcher's turn while no cell has room for it. -/
def execGangPassedOver (ins : Nat) (s : State) := onQueue ins 0 s fun s =>
  match s.firstPlaceable ins [] (s.pendingAll ins) with
  | (seen, none) =>
    if s.cyc < (s.inst ins).nextPlace then s
    else if (seen.getLast?).any fun x => decide (64 ≤ x.2.passed x.1) then
      s.modInst ins fun k => { k with nextPlace := s.cyc + 16 }
    else s
  | _ => s

/-! ## Breaking a stage wait -/

/-- The cycle since which a block has waited in SQPUSH on a stage's full queue. -/
def Block.pushWait (b : Block) (t : Nat) : Option Nat :=
  let l := b.units.flatMap fun u => (u.map fun p => p.splits.flatMap fun x => x.waits.filterMap fun w =>
    if w.kind == .stageFull && w.a == t then some w.since else none).getD []
  match l with
  | [] => none
  | x :: xs => some (xs.foldl min x)

/-- The gang of a launch whose SQPUSH wait on the full queue of stage t began earliest (R303): cycle, GIDX, stage and a core of
it. -/
def State.longestPush (s : State) (i : Nat) (l : Launch) (t : Nat) : Option (Nat × Nat × Nat × Nat) :=
  (s.launchCores i l.order).foldl (fun best c => match s.blk c with
    | none => best
    | some b => match b.pushWait t with
      | none => best
      | some w => match best with
        | none => some (w, b.gidx, b.stage, c)
        | some x => if w < x.1 || (w == x.1 && (b.gidx < x.2.1 || (b.gidx == x.2.1 && b.stage < x.2.2.1)))
          then some (w, b.gidx, b.stage, c) else best) none

/-- The stage of a pending gang. -/
def Pending.stage : Pending → Nat
  | .restore _ t _ | .fresh t _ _ => t

/-- The stage t of a launch whose gang is the first to be placed, while no cell has room for it and gangs of the launch wait to push
to its full queue, and a core of the gang to stop (R303). -/
def State.stageBreak (s : State) (i : Nat) (l : Launch) : Option (Nat × Nat) :=
  if l.gangs.any (·.behind.isSome) then none
  else match (s.pendingOf i l).head? with
    | none => none
    | some p =>
      let q : Stage := l.stages[p.stage]?.getD {}
      if p.stage = 0 ∨ q.recs.length < q.cap ∨ (s.roomFor i l p).isSome then none
      else (s.longestPush i l p.stage).map fun x => (p.stage, x.2.2.2)

/-- STAGE_DEADLOCK_BREAK (R303): the gang that has waited longest is pre-empted, to be placed again after the gang for which
it makes room. -/
def execStageDeadlockBreak (ins : Nat) (s : State) := onQueue ins 0 s fun s =>
  match (s.inst ins).launches.findSome? fun l => (s.stageBreak ins l).map fun x => (l.order, x) with
  | none => s
  | some (n, t, c) =>
    let gang := ((s.blk c).map (·.gang)).getD 0
    (s.modLaunch ins n fun l => { l with gangs := l.gangs.map fun x =>
      if x.id == gang then { x with behind := some t } else x }).requestStop c { cause := .preempt, state := 2 }

end Sys2Proof.Machine
end

