-- ==== Sys2Proof/Machine/Firmware.lean ====
section
/-! DEFINITION. Firmware: the management registers and commands (R365, R366), starts (R369, R370), patches, partitions and
places (R371 to R373), the host warm restart (R375), SETSYS and BLOCKCTL (R368), REPLAY (R388), and the clock of R2. -/

namespace Sys2Proof.Machine

/-! ## Starts -/

/-- A core after a start (R207, R218, R369, R370, R383): its stores, bank and clocks are zero. -/
def Core.restart (k : Core) (bad : Bool) : Core := { on := k.on && !bad, groups := k.groups }

/-- The state after a start that has drained the caches and discarded every block: queues as given. -/
def State.restarted (s : State) (queue : Queue) (badCores : List Nat) : State :=
  { s with
    l2 := [], colls := [], peerOut := [], closed := [], gone := []
    cells := List.replicate Config.numCells {}
    cores := s.cores.mapIdx fun c k => k.restart (badCores.contains c)
    dies := s.dies.map fun d => { d with elclk := [0, 0] }
    insts := List.replicate 4 { queues := List.replicate 64 queue } }

/-- Host memory, which a start of the device leaves as it is (R369). -/
def hostCells (m : List Host.Cell) : List Host.Cell := m.filter fun x => Config.hostBase ≤ x.1

/-- Device memory scrubbed (R369): zeros with fresh ECC. -/
def State.scrub (s : State) : State :=
  { s with
    mem := hostCells s.mem, poison := s.poison.filter fun w => Config.hostBase ≤ w
    stamps := s.stamps.filter fun x => Config.hostBase ≤ x.1 }

/-- The start error after training and tests (R365): the last one met. (DEDUCED, log 51: unsafe.) -/
def startError (trained : BitVec 12) (tests : StartTests) : BitVec 8 :=
  if !tests.cores.isEmpty then 3 else if tests.store then 2 else if trained ≠ 0xFFF then 1 else 0

/-- Full service reached (R369). -/
def State.fullLevel (s : State) (trained : BitVec 12) (tests : StartTests) : State :=
  let e := startError trained tests
  { s with dev := { s.dev with hbm := trained, dies := 0xF, level := 2, err := if e = 0 then s.dev.err else e } }

/-- A core after the tests of its die: its stores are zero; a start that has already run leaves bank and clocks (R218, R383). -/
def Core.tested (k : Core) (bad : Bool) : Core := { k.restart bad with hbank := k.hbank, lclk := k.lclk, elclk := k.elclk }

/-- The tests of the next die, once no block is on its cores: its DIES bit is set, cores that fail are disabled (R365, R369). -/
def State.testDie (s : State) (tests : StartTests) : State :=
  match (List.range Config.numDies).find? fun d => !s.dev.dies.getLsbD d with
  | none => s
  | some d =>
    if (s.cores.zipIdx).any fun (k, c) => dieOf c == d && k.blk.isSome then s
    else
      let e := startError 0xFFF { tests with cores := tests.cores.filter fun c => dieOf c == d }
      { s with
        cores := s.cores.mapIdx fun c k => if dieOf c = d then k.tested (tests.cores.contains c) else k
        dev := { s.dev with dies := s.dev.dies ||| BitVec.twoPow 4 d, err := if e = 0 then s.dev.err else e } }

/-- COLD_START (R369): from no service to reduced service once stack 0 of die 0 is trained, or on to full service with memory
scrubbed and the cores tested; in reduced service, further stacks are trained, or the next die is tested. -/
def execColdStart (full : Bool) (trained : BitVec 12) (tests : StartTests) (s : State) :
    Host.Outcome State Fault Refusal :=
  if s.dev.level = 1 then
    .next (if full then s.testDie tests else { s with dev := { s.dev with hbm := s.dev.hbm ||| trained } })
  else if s.dev.level ≠ 0 then .next s
  else if full then .next (((s.restarted {} tests.cores).scrub).fullLevel trained tests)
  else if trained.getLsbD 0 then
    .next { s.restarted {} [] with dev := { s.dev with hbm := 1, level := 1 } }
  else .next { s with dev := { s.dev with err := 1 } }

/-- Whether a launch of an instance runs. -/
def Inst.busy (k : Inst) : Bool := !k.launches.isEmpty

/-- FULL_SERVICE (R369): once no launch runs, device memory is interleaved anew and what was written in reduced service is not
kept (DESIGN CHOICE, log 21). -/
def execFullService (trained : BitVec 12) (tests : StartTests) (s : State) : Host.Outcome State Fault Refusal :=
  if s.dev.level ≠ 1 ∨ s.insts.any Inst.busy then .next s
  else
    let lost := s.mem.foldl (fun m c => if c.1 < Config.hostBase then cellSet m c.1 (Config.lostByte s.cyc c.1) else m) s.mem
    let s1 := { s.scrub with
      mem := lost, l2 := [], cells := List.replicate Config.numCells {}
      cores := s.cores.mapIdx fun c (k : Core) => k.tested (tests.cores.contains c) }
    .next (s1.fullLevel trained tests)

/-- A warm start (R370): the device is reset under power, every queue stopped and every block discarded. From reduced service the
stacks not yet trained have no stored values and are trained; a stack whose stored values fail the check is trained again, and one
that fails this too is fused off. (DEDUCED, log 50: unsafe.) -/
def State.warmStart (s : State) (scrub : Bool) : State :=
  let s1 := s.restarted { stop := true } []
  let s2 := if scrub then s1.scrub else s1
  let tried := if s.dev.level = 1 then s.dev.hbm ||| Config.lateStacks s.fresh else s.dev.hbm
  let trained := tried &&& ~~~Config.lostStacks s.fresh
  { s2 with dev := { s2.dev with
      hbm := trained, err := if (s.dev.level = 1 ∧ trained ≠ 0xFFF) ∨ trained ≠ tried then 1 else s2.dev.err
      warm := true, level := 2, dies := 0xF, rst := false, hostGone := false, patched := false
      evbase := 0, evhead := 0, evtail := 0, lost := 0, unsent := [] } }

/-! ## Commands -/

/-- The command in FWCMD has a result (R366). -/
def State.fwEnd (s : State) (code : Nat) : State := { s with dev := { s.dev with cmdDone := some (.ofNat 8 code) } }

/-- A management command runs where FWCMD holds its code and GO = 1 (R366): at a level that it is not accepted at the
result is 0x02, else f gives a result or the state after it. A pinned line that the command would write makes firmware try again
(R159). -/
def command (code : Nat) (levels : List Nat) (s : State) (f : State → Except Nat State) (pin : State → Option (Nat × Nat) := fun _ => none) :
    Host.Outcome State Fault Refusal :=
  if !s.dev.go || s.dev.cmdDone.isSome || s.dev.cmd.toNat != code then .next s
  else if !levels.contains s.dev.level.toNat then .next (s.fwEnd 2)
  else match f s with
    | .error e => .next (s.fwEnd e)
    | .ok t => match pin s with
      | some (k, pa) => .next (s.markRefused k pa)
      | none => .next (t.fwEnd 0)

/-- IDENTIFY (R366, R377). -/
def execIdentify (s : State) := command 1 [1, 2] s fun s => .ok { s with dev := { s.dev with fwres := Config.deviceHash } }

/-- PATCH's result (R371). -/
def patchCommand (s : State) : Host.Outcome State Fault Refusal :=
  let pa := s.dev.fwarg0.toNat
  let len := s.dev.fwarg1.toNat
  let hdr := s.homeRead pa 16
  let body := leNat (hdr.drop 8)
  let bad := !paExists pa || s.poisonedIn pa 16 || leNat (hdr.take 4) != 0x5441504C || leNat ((hdr.drop 4).take 4) != Config.romVersion.toNat
    || body % 8 != 0 || decide (2 ^ 20 < body) || len != 16 + body + 384
  command 2 [1] s fun s =>
    if bad then .error 5
    else if s.poisonedIn pa len || !Config.patchSignatureHolds (s.homeRead pa len) then .error 4
    else .ok { s with dev := { s.dev with patched := true } }

/-- PATCH (R366, R371): a signature that fails also sets ERR = 4. -/
def execPatch (s : State) : Host.Outcome State Fault Refusal :=
  match patchCommand s with
  | .next t => .next (if t.dev.cmdDone = some 4 ∧ s.dev.cmdDone = none then { t with dev := { t.dev with err := 4 } } else t)
  | r => r

/-- PARTITION (R372): with no launch running, the instances are split or joined by a warm start with scrub. -/
def execPartition (s : State) := command 3 [2] s fun s =>
  if s.dev.rst || s.insts.any Inst.busy then .error 3
  else if 2 ≤ s.dev.fwarg0.toNat then .error 5
  else .ok ({ s with dev := { s.dev with part := .ofNat 2 s.dev.fwarg0.toNat } }.warmStart true)

/-- WARMSTART (R370). -/
def execWarmstart (s : State) := command 4 [1, 2] s fun s =>
  if s.dev.rst then .error 3 else .ok (s.warmStart (s.dev.fwarg0.getLsbD 0))

/-- SETRECT (R373): x, y, width − 1, height − 1; the place lies in a rectangle of 1 to 128 on each side. (DEDUCED, log 67: unsafe.) -/
def execSetrect (s : State) := command 5 [1, 2] s fun s =>
  let n := fun k => s.dev.fwarg0.toNat / 2 ^ (8 * k) % 256
  if 128 ≤ n 2 ∨ 128 ≤ n 3 ∨ n 2 < n 0 ∨ n 3 < n 1 ∨ 2 ^ 32 ≤ s.dev.fwarg0.toNat then .error 5
  else .ok { s with dev := { s.dev with x := n 0, y := n 1, rectW := n 2 + 1, rectH := n 3 + 1 } }

/-- The first bytes of a save slot written by the dispatcher: a free slot (R368, R375). -/
def State.freeSlot (s : State) (b : Block) : State :=
  match (s.coresOf b.inst).head? with
  | none => s
  | some c => s.putHeader c (s.slotVa b) 0 .none

/-- The first slot header of a launch's saved blocks whose line is pinned (R159). -/
def State.abandonPinned (s : State) (l : Launch) : Option (Nat × Nat) :=
  l.saved.findSome? fun x => (s.coresOf x.blk.inst).head?.bind fun c => s.spansPinned c (s.slotVa x.blk) [(0, 8)]

/-- A launch is abandoned (R368): its saved blocks are discarded with their slots, its running ones as they stop, and none
is placed any more. -/
def State.abandon (s : State) (i n : Nat) : State :=
  match s.launch i n with
  | none => s
  | some l =>
    let s1 := l.saved.foldl (fun s x => s.freeSlot x.blk) s
    let s2 := s1.modLaunch i n fun l => { l with abandoned := true, saved := [] }
    (s2.launchCores i n).foldl (fun s c => s.modBlk c fun b => { b with stop := some { cause := .preempt, state := 0 } }) s2

/-- The launches of an instance with blocks that wait for CTXRESUME (R375). -/
def State.heldLaunches (s : State) (i : Nat) : List Launch := (s.inst i).launches.filter fun l => l.saved.any (·.held)

/-- CTXRESUME (R375): the blocks saved by the host warm restart are let go, or discarded with their launches. -/
def execCtxresume (s : State) := command 6 [2] s (fun s =>
  if s.dev.rst then .error 3
  else if 2 ≤ s.dev.fwarg0.toNat then .error 5
  else
    let s1 := (List.range 4).foldl (fun s i => (s.heldLaunches i).foldl (fun s l =>
      if s.dev.fwarg0 = 1 then s.abandon i l.order
      else s.modLaunch i l.order fun l => { l with saved := l.saved.map fun x => { x with held := false } }) s) s
    .ok (if s.dev.fwarg0 = 0 then { s1 with dev := { s1.dev with hostGone := false } } else s1))
  fun s => if s.dev.fwarg0 = 1 then (List.range 4).findSome? fun i => (s.heldLaunches i).findSome? s.abandonPinned else none

/-- Whether an instance exists. -/
def State.instExists (s : State) (i : Nat) : Bool := if s.dev.part = 0 then i == 0 else decide (i < 4)

/-- SETSYS (R368). -/
def execSetsys (s : State) := command 7 [1, 2] s fun s =>
  let n := s.dev.fwarg0.toNat % 256
  let i := s.dev.fwarg0.toNat / 256 % 256
  let x := s.dev.fwarg1
  if !s.instExists i then .error 5
  else if n = 3 then
    if x.toNat % 2 ^ 16 ≠ 0 then .error 5
    else if (s.inst i).busy then .error 3
    else .ok ((s.modInst i fun k => { k with troot := x }).dropTlb i fun _ => true)
  else if 0x20 ≤ n ∧ n ≤ 0x23 then
    if 96 ≤ x.toNat % 128 then .error 5
    else .ok ((s.coresOf i).foldl (fun s c => s.modCtr c (n - 0x20) fun _ =>
      { event := x.toNat % 128, running := x.getLsbD 8 }) s)
  else if n = 0 ∧ x.toNat % 8 ≠ 0 then .error 5
  else match (s.inst i).sysWrite n x with
    | none => .error 5
    | some k => .ok (s.modInst i fun _ => k)

/-! ## BLOCKCTL -/

/-- BLOCKCTL's arguments (R366): queue, action, instance, block index, cell + 1 and core. -/
def Dev.blockArgs (d : Dev) : Nat × Nat × Nat × Nat × Nat × Nat :=
  let w := d.fwarg0.toNat
  (w % 64, w / 2 ^ 6 % 4, w / 2 ^ 8 % 256, w / 2 ^ 16 % 2 ^ 32, w / 2 ^ 48 % 32, w / 2 ^ 53 % 8)

/-- The launch that BLOCKCTL names: its queue and its index in it; one whose pass is over has still the gang that it left halted
(R64, R388). -/
def Inst.named (k : Inst) (q n : Nat) : Option Launch :=
  (k.launches.find? fun l => l.queue == q && l.index == n && (!l.abandoned || l.flagged)).orElse fun _ =>
    k.completed.find? fun l => l.queue == q && l.index == n && !l.saved.isEmpty

/-- The core that runs the block of an index. -/
def State.runningBlock (s : State) (i : Nat) (l : Launch) (idx : Nat) : Option Nat :=
  (s.launchCores i l.order).find? fun c => (s.blk c).any fun b => b.index == idx

/-- The launch that the arguments of BLOCKCTL name. -/
def State.namedLaunch (s : State) : Option Launch :=
  let a := s.dev.blockArgs
  if s.instExists a.2.2.1 then (s.inst a.2.2.1).named a.1 s.dev.fwarg1.toNat else none

/-- A BLOCKCTL of one action: f gets the instance, the launch and the block's index. -/
def blockctl (action : Nat) (s : State) (f : Nat → Launch → Nat → State → Except Nat State)
    (pin : Nat → Launch → Nat → State → Option (Nat × Nat) := fun _ _ _ _ => none) : Host.Outcome State Fault Refusal :=
  let a := s.dev.blockArgs
  if a.2.1 ≠ action then .next s
  else command 8 [2] s (fun s =>
    if s.dev.rst then .error 3
    else match s.namedLaunch with
      | none => .error 5
      | some l => f a.2.2.1 l a.2.2.2.1 s)
    fun s => s.namedLaunch.bind fun l => pin a.2.2.1 l a.2.2.2.1 s

/-- BLOCKCTL halt (R368): a request whose save cause is DEBUG_HALT. -/
def execBlockctlHalt (s : State) := blockctl 0 s fun i l idx s =>
  match s.runningBlock i l idx with
  | none => .error 5
  | some c => .ok (s.requestStop c { cause := .debugHalt, state := 3 })

/-- Cores for a gang at a named place (R368): the named block on the core, the others on the lowest free cores of the cell
that can hold them, in ascending BIDX. -/
def State.namedPlaces (s : State) (i cell core idx : Nat) (bs : List Saved) : Option (List (Saved × Nat)) :=
  let here := 8 * cell + core
  let order := (List.range 8).flatMap fun k => bs.filter fun x => x.blk.bidx == k
  let pick := order.foldl (fun (acc : Option (List (Saved × Nat))) x => match acc with
    | none => none
    | some l =>
      if x.blk.index = idx then some (l ++ [(x, here)])
      else match ((List.range 8).map (8 * cell + ·)).find? fun c =>
          c != here && s.free i c && !(l.any fun y => y.2 == c) && (s.canHold c x.blk).isSome with
        | none => none
        | some c => some (l ++ [(x, c)])) (some [])
  if s.free i here && (bs.any fun x => x.blk.index == idx && (s.canHold here x.blk).isSome) then pick else none

/-- What BLOCKCTL resume does (R368): a halted block becomes pending with its gang; or, at the place named, the cores that the gang's
blocks take. -/
def resumeBlock (i : Nat) (l : Launch) (idx : Nat) (s0 : State) : Except Nat (State × List (Saved × Nat)) :=
  if l.abandoned ∧ !l.complete then .error 3
  else match l.saved.find? fun x => x.blk.index == idx && x.state == 3 with
  | none => .error 5
  | some x =>
    let s := s0.revive i l
    let s1 := s.modLaunch i l.order fun l => { l with saved := l.saved.map fun y =>
      if y.blk.index == idx && y.blk.gang == x.blk.gang then { y with state := 2, held := false } else y }
    let cell := s.dev.blockArgs.2.2.2.2.1
    let core := s.dev.blockArgs.2.2.2.2.2
    if cell = 0 then .ok (s1, [])
    else if Config.numCells < cell ∨ s.instOf (8 * (cell - 1)) ≠ i ∨ !(s.core (8 * (cell - 1) + core)).on then .error 5
    else
      let l1 := (s1.launch i l.order).getD l
      let gang := l1.gangs.findSome? fun g => if g.id == x.blk.gang then l1.restorable { g with behind := none } else none
      match gang with
      | some (.restore _ _ bs) => match s1.namedPlaces i (cell - 1) core idx bs with
        | none => .error 3
        | some ps => .ok (s1, ps)
      | _ => .error 3

/-- BLOCKCTL resume (R368): a halted block becomes pending with its gang, or is restored at the place named. (DEDUCED, log 53: unsafe.) -/
def execBlockctlResume (s : State) := blockctl 1 s
  (fun i l idx s => (resumeBlock i l idx s).map fun r => if r.2.isEmpty then r.1 else r.1.restoreGang i l.order r.2)
  fun i l idx s => match resumeBlock i l idx s with
    | .ok r => r.1.restorePinned r.2
    | .error _ => none

/-- BLOCKCTL discard (R368): the block, its gang and its launch. -/
def execBlockctlDiscard (s : State) := blockctl 2 s (fun i l idx s =>
  if (s.runningBlock i l idx).isNone ∧ !(l.saved.any fun x => x.blk.index == idx) then .error 5
  else .ok ((s.revive i l).abandon i l.order)) fun i l _ s => (s.revive i l).abandonPinned l

/-! ## REPLAY -/

/-- Every cache and TLB of an instance, and the slices of its dies, written back and dropped (R388). -/
def State.dropCaches (s : State) (i : Nat) : State :=
  let s1 := (s.coresOf i).foldl (fun s c => s.modCore c fun k => { k with l1 := [], icache := [] }) (s.dropTlb i fun _ => true)
  { s1 with l2 := s1.l2.filter fun l => s.dev.part != 0 && s.homeDie l.line l.ins != i }

/-- The launch that REPLAY names: its queue, its index in it, and its instance. -/
def State.replayed (s : State) : Option Launch :=
  (s.inst (s.dev.fwarg0.toNat / 256 % 256)).completed.find? fun l =>
    l.queue == s.dev.fwarg0.toNat % 64 && l.index == s.dev.fwarg1.toNat && !l.later

/-- The first pinned line that the start of a launch's next pass meets: a page, its copy or the completion signal (R159). -/
def State.replayPinned (s : State) (i : Nat) (l : Launch) : Option (Nat × Nat) :=
  (s.pagesPinned i l).orElse fun _ => (s.abandonPinned l).orElse fun _ => match s.devPlace i .store l.rcd.signal with
    | .error (.pinned c pa) => some (c, pa)
    | _ => none

/-- REPLAY (R388): another pass of a launch that has completed, before a later launch of its queue has started. A gang that its last
pass left halted is discarded. -/
def execReplay (s : State) := command 9 [2] s (fun s =>
  let i := s.dev.fwarg0.toNat / 256 % 256
  if s.dev.rst then .error 3
  else if !s.instExists i then .error 5
  else match s.replayed with
    | none => .error 3
    | some l =>
      if !l.rcd.replays then .error 5
      else
        let s0 := l.saved.foldl (fun s x => s.freeSlot x.blk) s
        let s1 := (s0.restorePages i l).dropCaches i
        let s2 := match s1.devPlace i .store l.rcd.signal with
          | .ok pa => s1.homeWrite pa (leBytes 8 l.sig0.toNat) 0 i
          | .error _ => s1
        let again : Launch := { l with
          nextG := 0, gangs := [], retired := [], reported := 0, saved := [], range := 0, disp := [], exchange := []
          heaps := heapStart l.rcd.heap.toNat l.rcd.heapSize.toNat (s.cellsOf i), complete := false
          stages := l.stages.map fun t => { t with passes := [], pushed := 0, recs := [] }
          abandoned := false, flagged := false, pages := [], pass := l.pass + 1, started := s.cyc }
        .ok (s2.modInst i fun k => { k with
          launches := k.launches ++ [again], completed := k.completed.filter (·.order != l.order) }))
  fun s => s.replayed.bind (s.replayPinned (s.dev.fwarg0.toNat / 256 % 256))

/-! ## The end of a command, and registers -/

/-- COMMAND_END (R366): GO clears, the result stands in [23:16] and vector 0 is raised. A code or an action that names no
command ends here. -/
def execCommandEnd (s : State) : Host.Outcome State Fault Refusal :=
  let code := s.dev.cmd.toNat
  if !s.dev.go then .next s
  else
    let res := match s.dev.cmdDone with
      | some r => some r
      | none =>
        if code = 0 ∨ 9 < code then some 1
        else if code = 8 ∧ s.dev.blockArgs.2.1 = 3 then some (if s.dev.level = 2 then 5 else 2)
        else none
    match res with
    | none => .next s
    | some r => .next ({ s with dev := { s.dev with go := false, result := r, cmdDone := none } }.raiseMsix 0)

/-- EVTAIL written (R365): taken from the current EVTAIL to EVHEAD; a count of lost records then has room (DEDUCED, log 68: unsafe). -/
def State.writeEvtail (s : State) (x : Word) : State :=
  if s.dev.evtail ≤ x.toNat ∧ x.toNat ≤ s.dev.evhead then ({ s with dev := { s.dev with evtail := x.toNat } }).reportLost else s

/-- EVTAIL_WRITE (R365). -/
def execEvtailWrite (val : Word) (s : State) : Host.Outcome State Fault Refusal := .next (s.writeEvtail val)

/-- Whether EVBASE takes a value (R365). -/
def evbaseOk (x : Word) : Bool := decide (4 ≤ x.toNat % 16) && decide (x.toNat / 2 ^ 4 % 2 ^ 8 = 0) && decide (x.toNat < 2 ^ 52)

/-- A register of the device's register space written (R294, R365). -/
def State.writeRegister (s : State) (off : Nat) (x : Word) : State :=
  let d := s.dev
  let set (f : Dev → Dev) : State := { s with dev := f s.dev }
  if 0x100000 ≤ off then
    let i := (off - 0x100000) / 0x1000
    if s.queueExists i ((off - 0x100000) % 0x1000 / 0x40) then
      s.writeQueue i ((off - 0x100000) % 0x1000 / 0x40) (off % 0x40) x else s
  else match off with
    | 0x08 => if d.go then s else set fun d => { d with cmd := .ofNat 8 x.toNat, go := x.getLsbD 8 }
    | 0x10 => if d.go then s else set fun d => { d with fwarg0 := x }
    | 0x18 => if d.go then s else set fun d => { d with fwarg1 := x }
    | 0x28 => if d.evtail = d.evhead ∧ d.unsent = [] ∧ evbaseOk x then set fun d => { d with evbase := x } else s
    | 0x38 => s.writeEvtail x
    | _ => s

/-- REGISTER_WRITE (R294, R365): a write of a whole register, ignored where it is locked or read-only. -/
def execRegisterWrite (off : Nat) (val : Word) (s : State) : Host.Outcome State Fault Refusal := .next (s.writeRegister off val)

/-! ## Host warm restart -/

/-- The far ends of a block's peer connections are told HOST_RESTART (R375). -/
def State.closePeers (s : State) (c : Nat) (b : Block) : State :=
  let towards := (b.cmds.filter fun k => k.engine == .peer).map fun k => ((k.ops[3]?.getD 0).toNat / 2 ^ 32 % 2 ^ 16)
  { s with peerOut := s.peerOut ++ towards.eraseDups.map fun o =>
      { die := dieOf c, core := c, seq := 0, words := [.ofNat 64 Cause.hostRestart.code, .ofNat 64 o], payload := [] } }

/-- The leaves of host pages that the tables from one at a level on hold. -/
def State.hostLeaves (s : State) : Nat → Nat → Nat → List Nat
  | 0, _, _ => []
  | fuel + 1, lvl, table =>
    let slots := ((s.mem.filter fun x => decide (table ≤ x.1) && decide (x.1 < table + 0x10000)).map fun x => x.1 / 8 * 8).eraseDups
    slots.flatMap fun a => match walkEntry (leNat (cellRead s.mem a 8)) lvl 0 with
      | .ok (.inl next) => s.hostLeaves fuel (lvl + 1) next
      | .ok (.inr e) => if e.host then [a] else []
      | .error _ => []

/-- A request to stop a block that the host warm restart raises (R375): it takes the place of one that is held, but not of a failure
(R221, R228, R388) or a discard (R368); a halt stays a halt. -/
def restartStop : Option StopReq → StopReq
  | none => { cause := .hostRestart, state := 2, held := true }
  | some r => if r.failed || r.cause == .replayMismatch || r.state == 0 then { r with held := true }
    else { cause := .hostRestart, state := r.state, held := true }

/-- HOST_LINK_RESET (R375): queues stop, every running block is asked to stop, host pages are gone until their leaf entries are written
anew. (DEDUCED, log 102: unsafe.) -/
def execHostLinkReset (s : State) : Host.Outcome State Fault Refusal :=
  if s.dev.level = 0 then .next s
  else
    let s1 := (List.range 4).foldl (fun s i => (List.range 64).foldl (fun s q =>
      if s.queueExists i q then s.stopQueue i q 0 else s) s) s
    let s2 := (List.range Config.numCores).foldl (fun s c => match s.blk c with
      | none => s
      | some b => (s.closePeers c b).setBlk c { b with stop := some (restartStop b.stop) }) s1
    let s3 := (List.range 4).foldl (fun s i => s.dropTlb i fun e => e.host) s2
    .next { s3 with
      dev := { s3.dev with rst := true, hostGone := true }
      gone := ((List.range 4).flatMap fun i => s3.hostLeaves 3 0 (s3.inst i).troot.toNat).eraseDups }

/-- HOST_RESTART_COMPLETE (R375): every block is saved. -/
def execHostRestartComplete (s : State) : Host.Outcome State Fault Refusal :=
  if s.dev.rst && s.cores.all (·.blk.isNone) then .next ({ s with dev := { s.dev with rst := false } }.ringRecord 3 0 0 0 0 0)
  else .next s

/-- POWER_CLOCK_REDUCTION (R2): the clock falls or is restored; CYC counts it as before. -/
def execPowerClockReduction (slow : Bool) (s : State) : Host.Outcome State Fault Refusal :=
  .next { s with dev := { s.dev with slowClock := slow } }

end Sys2Proof.Machine
end

