-- ==== Sys2Proof/Machine/Agents.lean ====
section
/-! DEFINITION. The events of agents that move by themselves: splits (R69 to R79, R92, R306), region closes (R150), answers
and fills (R102, R146, R173, R233, R240, R395), waits on guards, signals and pins (R155 to R161, R191), the heap exchange
(R194), arbitration marks (R204, R309 to R311), error detection (R181, R376) and host requests (R364). -/

namespace Sys2Proof.Machine

/-- An event at a core: the place must exist. (DEDUCED, log 62: safe.) -/
def onCore (c : Nat) (s : State) (f : State → State) : Host.Outcome State Fault Refusal :=
  if Config.numCores ≤ c then .fault .badPlace else .next (f s)

/-- Split k of unit u of core c. -/
def State.splitOf (s : State) (c u k : Nat) : Option Split := (s.unit c u).bind fun p => p.splits[k]?

/-- The split changed by f. -/
def State.modSplit (s : State) (c u k : Nat) (f : Split → Split) : State := s.modUnit c u fun p => p.modSplit k f

/-! ## Splits -/

/-- Whether a split of a warp has been ready for 1,024 cycles without issuing (R306). -/
def State.starved (s : State) (c u k : Nat) : Bool :=
  match s.blk c, s.unit c u with
  | some b, some p => (p.splits[k]?).any fun t =>
      p.kind == .warp && s.splitReady c u k b p t && decide (max t.last t.ready + 1024 ≤ s.cyc)
  | _, _ => false

/-- STARVATION_PROMOTE (R306): a split ready for 1,024 cycles without issuing rises to priority class 2. -/
def execStarvationPromote (core unit split : Nat) (s : State) := onCore core s fun s =>
  if s.starved core unit split then s.modSplit core unit split fun t => { t with promoted := true } else s

/-- YIELD_TIMEOUT (R92): the yielding split is ready again after 16 cycles. -/
def execYieldTimeout (core unit split : Nat) (s : State) := onCore core s fun s =>
  s.modSplit core unit split fun t =>
    { t with waits := t.waits.filter fun w => !(w.kind == .yield && decide (w.since + 16 ≤ s.cyc)) }

/-- The region of a unit closes without an instruction (R150): its pail commits, the counter increments, and every live
split's current PC becomes its own region entry. -/
def State.closeUnit (s : State) (c u : Nat) : State :=
  let s1 := match s.unit c u with
    | some p => if p.kind == UnitKind.context then s.answerAll c u else s
    | none => s
  (s1.commitPail c u).modUnit c u ProgUnit.newRegion

/-- DEFERRED_SPLIT_START (R71, R150): the region ends and the deferred split runs from its start PC. -/
def execDeferredSplitStart (core unit entry : Nat) (s : State) := onCore core s fun s =>
  match s.blk core, s.unit core unit with
  | some b, some p =>
    match p.div[entry]? with
    | none => s
    | some e =>
      if !s.mayStart core unit b p e || !b.lets p then s
      else
        let last := p.splits.foldl (fun m t => max m t.last) 0
        let t : Split := { mask := e.dmask, pc := e.dpc, rpc := e.dpc, last := last, ready := s.cyc }
        ((s.modUnit core unit fun p => { p with
          splits := p.splits ++ [t], div := p.div.set entry { e with started := true } }).closeUnit core unit).trace core unit e.dpc 3
            (.ofNat 64 unit :: maskWords e.dmask)
  | _, _ => s

/-- JOIN_DEADLINE (R79): the arrived lanes continue alone with the flag T, and the entry is detached; where the region's end would
commit a store ahead of an access that has issued before it, that access comes first (R74). -/
def execJoinDeadline (core unit entry : Nat) (s : State) := onCore core s fun s =>
  match s.unit core unit with
  | none => s
  | some p =>
    match p.div[entry]? with
    | none => s
    | some e =>
      if p.trap.isSome || e.owed == 0 || e.started && p.lateStore none || !(e.deadline.any fun d => decide (d ≤ s.cyc)) then s
      else
        let s1 := s.modUnit core unit fun p =>
          { p.leave e (p.joinedIn e.arrived) e.flag true with
            div := p.div.set entry { e with detached := true, deadline := none, arrived := 0, left := e.left ||| e.arrived } }
        let s2 := if e.started then s1.closeUnit core unit else s1
        (s2.count core 0x12 1).trace core unit e.jpc 5 (.ofNat 64 unit :: maskWords e.arrived ++ [1])

/-- The close after 1,024 instructions, deferred while an MSCALE value is pending (R150, R349) or a held store would commit before
an older access that has not been performed (R74, R104). -/
def State.countClose (s : State) (c u : Nat) : State :=
  match s.unit c u with
  | some p => if p.trap.isNone && p.kind != .front && p.kind != .handler && decide (1024 ≤ p.since) && p.pending.isEmpty
        && !p.lateStore none && !(p.kind == .context && (s.answerAll c u).lateLoad c u)
      then s.closeUnit c u else s
  | none => s

/-- REGION_COUNT_CLOSE (R150). -/
def execRegionCountClose (core unit split : Nat) (s : State) := onCore core s fun s =>
  if (s.splitOf core unit split).isSome then s.countClose core unit else s

/-! ## Answers and fills -/

/-- LOAD_ANSWER (R102): memory answers entry n of a context's load queue. -/
def execLoadAnswer (core unit entry : Nat) (s : State) := onCore core s fun s => s.answerEntry core unit entry

/-- L1_FILL (R173): a line that the core has asked for arrives. -/
def execL1Fill (core line : Nat) (s : State) := onCore core s fun s =>
  match (s.core core).fills.lookup line with
  | none => s
  | some ch =>
    match s.pinHolder core line with
    | some k => s.markRefused k line
    | none => (s.fillL1 core line (hintFill ch)).modCore core fun k => { k with fills := k.fills.filter (·.1 != line) }

/-- L2_MISS_FILL (R395): a slice fills a missing line at normal priority; it gives up the victim of R178, whichever the event names.
No value changes. -/
def execL2MissFill (line : Nat) (_victim : Option Nat) (s : State) : Host.Outcome State Fault Refusal :=
  if !paExists line then .fault .noMemory
  else .next (if (s.l2Line line).isSome then s else s.touchL2 line 0 false)

/-- STORE_ACK (R146): store n on its way lands at its home slice; stores to one line land in commit order, and
a pinned line refuses one (R159, R161). -/
def execStoreAck (core n : Nat) (s : State) := onCore core s fun s =>
  let l := (s.core core).travel
  match l[n]? with
  | none => s
  | some t =>
    if (l.take n).any (fun o => o.touches t.pa || t.touches o.pa) then s
    else if s.stuck core t then s.refuse core t
    else (s.land core t).modCore core fun k => { k with travel := k.travel.eraseIdx n }

/-- PAGE_WALK_COMPLETE (R237 to R240): the TLBs take the translation; a walk that faults caches nothing. -/
def execPageWalkComplete (core : Nat) (va : Word) (s : State) := onCore core s fun s => s.fillTlb core va

/-- A code line fetched from its home slice into the instruction cache of 1,024 lines (R233); one that holds poison, or in
which an error has been found, is marked and logged (R236). -/
def State.fillCode (s : State) (c line : Nat) (found : Bool) : State :=
  let bad := found || s.poisonedIn line 128
  let s1 := s.requestL2 c line 0 false
  let s2 := if bad then s1.logError (dieOf c) 7 Cause.deferredError.code 1 line else s1
  let l : CodeLine := { addr := line, data := cellRead s.mem line 128, poisoned := bad }
  s2.modCore c fun k => { k with icache := l :: (k.icache.filter (·.addr != line)).take 1023 }

/-- IFETCH_FILL (R233, R236). -/
def execIfetchFill (core line : Nat) (poisoned : Bool) (s : State) : Host.Outcome State Fault Refusal :=
  if Config.numCores ≤ core then .fault .badPlace
  else if !paExists line then .fault .noMemory
  else match s.pinHolder core line with
    | some k => .next (s.markRefused k line)
    | none => .next (s.fillCode core (line / 128 * 128) poisoned)

/-! ## Guards, signals and pins -/

/-- The waits of a split changed: those that f picks are done. -/
def State.finishWaits (s : State) (c u k : Nat) (f : Wait → Bool) : State :=
  s.modSplit c u k fun t => { t with waits := t.waits.map fun w => if f w then { w with done := true } else w }

/-- A waiting acquire is performed at its home slice where it can be; a fault found there is raised by the repeated ACQ. -/
def State.acquireNow (s : State) (c u k : Nat) (b : Block) (w : Wait) : State :=
  let va := w.res[0]?.getD 0
  match s.translate c (if w.n = 1 then .load else .store) va with
  | .error _ => s.wake c u k
  | .ok pa =>
    match s.pinHolder c pa with
    | some j => s.markRefused j pa
    | none =>
      if (s.landLine c pa).poisonedIn pa 8 then s.wake c u k
      else match s.tryAcquire c u b va pa (w.res[1]?.getD 0).toNat (w.n == 1) w.b with
        | none => s
        | some t => t.finishWaits c u k fun x => x.kind == .guard && x.a == w.a

/-- Whether unit u of a core is a context: its bundle acquires as it issues, with every wait of it satisfied (R100). -/
def State.isContext (s : State) (c u : Nat) : Bool := (s.unit c u).any fun p => p.kind == .context

/-- GUARD_ACQUIRED (R155, R156): the waiting acquire finds its guard free or its count reached; that of a context is made by its bundle
(R100). -/
def execGuardAcquired (core unit split : Nat) (s : State) := onCore core s fun s =>
  match s.blk core, (s.splitOf core unit split).bind fun t => t.waits.find? fun w => w.kind == .guard && !w.done with
  | some b, some w => if s.isContext core unit then s else s.acquireNow core unit split b w
  | _, _ => s

/-- GUARD_RELEASE (R157): the writes that REL covers have landed, and the guard counts. -/
def execGuardRelease (core unit split : Nat) (s : State) := onCore core s fun s =>
  match s.blk core, (s.splitOf core unit split).bind fun t => t.waits.find? fun w => w.kind == .release && w.n == 1 && !w.done with
  | some b, some w =>
    match s.pinHolder core w.b with
    | some j => s.markRefused j w.b
    | none =>
      let s1 := s.landBound core b (w.res[0]?.getD 0)
      if s1.boundTravels core b (w.res[0]?.getD 0) then s1
      else if s1.poisonedIn w.b 8 then s1.wake core unit split
      else (s1.countRelease core w.b).finishWaits core unit split fun x => x.kind == .release && x.n == 1
  | _, _ => s

/-- Every SWAIT of a core that a change has satisfied is, with the stamp of that value (R168, R191, R383). -/
def State.noteWaits (s : State) (c : Nat) : State :=
  (List.range 21).foldl (fun s u => match s.unit c u with
    | none => s
    | some p =>
      let mark : Wait → Wait := fun w =>
      if !w.done && s.swaitHolds w then { w with done := true, res := [.ofNat 64 (s.stampOf w.a)] } else w
      if p.splits.any fun t => t.waits.any fun w => !w.done && s.swaitHolds w && (s.pinHolder c w.a).isNone then
        s.modUnit c u fun p => { p with splits := p.splits.map fun t => { t with waits := t.waits.map mark } }
      else s) s

/-- SWAIT_RESUME (R191): the satisfied SWAIT acquires and goes on. -/
def execSwaitResume (core unit split : Nat) (s : State) := onCore core s fun s =>
  match (s.splitOf core unit split).bind fun t => t.waits.find? fun w => w.kind == .signal && (w.done || s.swaitHolds w) with
  | some w => (s.finishWaits core unit split fun x => x.kind == .signal && x.a == w.a && x.b == w.b).wake core unit split
  | none => s

/-- PIN_RETRY (R159): the refused access is repeated after 256 cycles. -/
def execPinRetry (core unit split : Nat) (s : State) := onCore core s fun s =>
  if s.waitsFor core unit split fun _ w => w.kind == .pinned && decide (w.since + 256 ≤ s.cyc) then s.wake core unit split else s

/-- PIN_BREAK (R161): the pin ends 65,536 cycles after its first refusal, once its committed writes are home (R160), and the unit
that acquired takes the record. -/
def execPinBreak (core pin : Nat) (s : State) := onCore core s fun s =>
  match (s.core core).pins[pin]? with
  | none => s
  | some p =>
    if s.pinStuck core p then s.landPin core p
    else if p.refusedAt.any fun d => decide (d + 65536 ≤ s.cyc) then
      (s.endPin core p).recordAsync core true { cause := .pinBreak, kind := 2, unit := p.unit, rk := 1, info1 := p.guardVa }
    else s

/-! ## The heap exchange -/

/-- HEAP_EXCHANGE_RETURN (R194): block n of the exchange returns to its owner's free list. -/
def execHeapExchangeReturn (ins launch n : Nat) (s : State) := onQueue ins 0 s fun s =>
  s.modLaunch ins launch fun l =>
    match l.exchange[n]? with
    | none => l
    | some (own, a, c) =>
      let h := (l.heaps.lookup own).getD {}
      { l with
        heaps := setCellHeap l.heaps own { h with free := freeBlock 17 h.free a c }
        exchange := l.exchange.eraseIdx n }

/-! ## Arbitration marks -/

/-- Waits of requests that a memory resource serves. -/
def WaitKind.requests : WaitKind → Bool
  | .load | .fill | .slice | .release | .guard | .tile => true
  | _ => false

/-- A request of a unit that has waited n cycles takes mark m: it goes first (R204, R309 to R311). -/
def markAged (core unit m n : Nat) (s : State) : Host.Outcome State Fault Refusal := onCore core s fun s =>
  s.modUnit core unit fun p =>
    if p.splits.any fun t => t.waits.any fun w => w.kind.requests && decide (w.since + n ≤ s.cyc)
    then { p with aged := p.aged.set m true } else p

/-- BANK_PROMOTE (R204). -/
def execBankPromote (core unit : Nat) (s : State) := markAged core unit 0 16 s

/-- L1_PORT_PROMOTE (R309). -/
def execL1PortPromote (core unit : Nat) (s : State) := markAged core unit 1 16 s

/-- SLICE_AGE_PROMOTE (R310). -/
def execSliceAgePromote (core unit : Nat) (s : State) := markAged core unit 2 128 s

/-- HBM_AGE_PROMOTE (R311). -/
def execHbmAgePromote (core unit : Nat) (s : State) := markAged core unit 3 256 s

/-- HBM_REFRESH (R311): refresh takes a pseudo-channel; waiting requests keep their age. -/
def execHbmRefresh (channel : Nat) (s : State) : Host.Outcome State Fault Refusal :=
  if 768 ≤ channel then .fault .badPlace else .next s

/-! ## Errors and the host -/

/-- The source of an error in state of a core (R244): 1 tile memory, 2 the register file, 3 the B store, 4 the accumulators, 0 state
that the log names no source for. -/
def coreSource (part : Nat) : Nat := if part = 0 then 0 else part + 2

/-- An error in state of a core (R223, R376): a corrected one is logged; tile memory carries poison (R328); elsewhere an uncorrectable
error is a MACHINE_CHECK, of severity 2. -/
def State.coreError (s : State) (c part : Nat) (words : List Nat) (corrected : Bool) : State :=
  let src := coreSource part
  if corrected then s.logError (dieOf c) src Cause.poisonData.code 0 0
  else if part = 1 then (s.logError (dieOf c) src Cause.poisonData.code 1 0).modCore c fun k =>
    { k with tilePoison := k.tilePoison ++ (words.map fun w => 8 * (w % 0x20000)).filter fun w => !k.tilePoison.contains w }
  else (s.logError (dieOf c) src Cause.machineCheck.code 2 0).stopBlk c { cause := .machineCheck, state := 3 }

/-- PATROL_READ (R376, R181): a corrected error is logged; an uncorrectable one poisons the four words of its 32-byte block; one that
names a word by 16 more than its number is found in the line's L2 slice. A line at or above the device's memory names a core, and
with each further count of cores the next kind of its state. (DESIGN CHOICE, log 84: safe.) -/
def execPatrolRead (line : Nat) (badWords : List Nat) (corrected : Bool) (s : State) : Host.Outcome State Fault Refusal :=
  if Config.deviceTop ≤ line then
    let n := line - Config.deviceTop
    if 5 * Config.numCores ≤ n then .fault .noMemory
    else .next (s.coreError (n % Config.numCores) (n / Config.numCores) badWords corrected)
  else
    let at0 := line / 128 * 128
    let src := fun (w : Nat) => if w / 16 % 2 = 1 then 2 else 1
    let s1 := if corrected then s.logError (s.homeDie at0) (src (badWords.headD 0)) Cause.poisonData.code 0 at0 else s
    let blocks := (badWords.map fun w => (src w, at0 + w % 16 / 4 * 32)).eraseDups
    let words := blocks.flatMap fun (_, b) => [b, b + 8, b + 16, b + 24]
    .next (blocks.foldl (fun s (n, b) => s.logError (s.homeDie b) n Cause.poisonData.code 1 b)
      { s1 with poison := s1.poison ++ words.filter fun w => !s1.poison.contains w })

/-- HOST_MEMORY_REQUEST (R364): a host load or store takes its place at the line's home slice; a pinned line refuses it
(R159). -/
def execHostMemoryRequest (pa : Nat) (store : Option (List Byte)) (s : State) : Host.Outcome State Fault Refusal :=
  if Config.deviceTop ≤ pa then .fault .noMemory
  else match s.pinHolder Config.numCores pa with
    | some k => .next (s.markRefused k pa)
    | none => match store with
      | some bs => .next (s.homeWrite pa (bs.take (128 - pa % 128)))
      | none => .next (s.touchL2 pa 0 false)

end Sys2Proof.Machine
end

