-- ==== Sys2Proof/Machine/Fetch.lean ====
section
/-! DEFINITION. What comes before an instruction's effect: instruction fetch (R18, R233, R236, R239), the bundles of VLIW
code and BAD_GROUP (R31 to R33), and when a unit may issue (R59, R71, R72, R225, R306, R308). -/

namespace Sys2Proof

/-- The predicate p of a cluster as a place that a syllable writes. -/
def predPlace (cl p : Nat) : Nat × Nat := (cl, 64 + p)

/-- Places of the predicates that a mask names. -/
def maskPlaces (cl m : Nat) : List (Nat × Nat) := ((List.range 7).filter m.testBit).map (predPlace cl)

/-- The registers (0 to 63) and predicates (64 up) that a syllable writes in clusters of a context of k (R33). -/
def Instr.writes (k : Nat) (i : Instr) (cl : Nat) : List (Nat × Nat) :=
  match i with
  | .icmp w | .prset w | .fcmp w | .ivcont w | .evpend w => [predPlace cl (w.d.toNat % 8)]
  | .icmpi w => [predPlace cl (w.d.toNat % 8)]
  | .itopr w => maskPlaces cl w.mask8
  | .rqpop w => (cl, w.d.toNat) :: (if w.sub.getLsbD 4 then [] else [predPlace cl 6])
  | .xmov w => (List.range (k - cl)).map fun c => (c, w.d.toNat)
  | .xbcast w => (List.range k).map fun c => (c, w.d.toNat)
  | .movi w | .movhi w | .iaddi w | .imuli w | .andi w | .ori w | .xori w | .shli w | .shri w | .sari w => [(cl, w.d.toNat)]
  | .signal w => [(cl, w.d.toNat)]
  | .waitany w | .mbread w | .nexttile w | .prtoi w | .qstat w | .sysrecv w | .iadd w | .isub w | .imul w | .imulh w | .imad w
  | .idiv w | .irem w | .imin w | .imax w | .iabs w | .ineg w | .popc w | .clz w | .brev w | .ctz w | .and w | .or w | .xor w
  | .not w | .andn w | .shl w | .shr w | .sar w | .rotl w | .bfx w | .bfi w | .lea w | .mov w | .retag w | .sel w | .readsr w
  | .fadd w | .fsub w | .fmul w | .ffma w | .fmin w | .fmax w | .fdiv w | .fsqrt w | .frcp w | .frsq w | .fexp2 w | .flog2 w
  | .fsinpi w | .fcospi w | .fclass w | .frnd w | .fdot w | .cvt w | .ivmake w | .ivlo w | .ivhi w | .ivmid w | .ivwid w
  | .ivhull w | .ivisect w | .ivsqr w | .ivabs w | .tinfo w | .atomt w | .copy w | .gather w | .scatter w | .peersig w
  | .cmdstat w | .pmread w | .lclk w => [(cl, w.d.toNat)]
  | _ => []

/-- Whether an operation of a special slot names k63 (R33). -/
def Instr.namesPort : Instr → Bool
  | .pusha w | .pushs w => w.a == 63 || (w.tile && w.col == 63)
  | .qstat w | .rqpop w | .waitany w | .sysrecv w => w.d == 63
  | .mbeatPush w | .mbeatAcc w | .mbeatDrain w | .mscale w | .syssend w => w.a == 63 || w.b == 63
  | .xmov w | .xbcast w => w.d == 63 || w.a == 63
  | .loop w => w.a == 63
  | _ => false

end Sys2Proof

namespace Sys2Proof.Machine

/-! ## Fetch -/

/-- Why a fetch gives no word: a fetch fault with its VA, and the state that the fetch leaves; a pinned line that refuses it (R159):
the core that pins it and the line; or an address that does not exist. -/
inductive FetchErr where
  | bad (c : Cause) (va : Word) (s : State)
  | wait (core line : Nat)
  | stop (f : Fault)
  deriving DecidableEq, Repr

/-- The instruction-cache line of a physical address, fetched where the cache does not hold it (R233). -/
def State.codeLine (s : State) (c pa : Nat) : Except FetchErr (State × CodeLine) :=
  let line := pa / 128 * 128
  match (s.core c).icache.find? (·.addr == line) with
  | some l => .ok (s, l)
  | none =>
    if (s.window pa).isSome then .error (.stop .noMemory)
    else match s.pinHolder c pa with
      | some k => .error (.wait k pa)
      | none =>
        let t := s.fillCode c line false
        .ok (t, (t.core c).icache.headD { addr := line, data := [] })

/-- One word or syllable fetched by a core (R18, R43 step 1): POISON_CODE comes before any other check, and its line stays in the
cache, marked (R236). -/
def State.fetchWord (s : State) (c : Nat) (va : Word) : Except FetchErr (State × Word) :=
  if va.toNat % 8 ≠ 0 then .error (.bad .misaligned va s)
  else match s.translate c .fetch va with
    | .error (.cause e) => .error (.bad e va s)
    | .error (.fault f) => .error (.stop f)
    | .error (.pinned k l) => .error (.wait k l)
    | .ok pa =>
      match (s.fillTlb c va).codeLine c pa with
      | .error e => .error e
      | .ok (t, l) =>
        if l.poisoned then .error (.bad .poisonCode va t)
        else .ok (t, .ofNat 64 (leNat ((l.data.drop (pa % 128)).take 8)))

/-- The syllables of a bundle from its address up (R31): at most `fuel`, the last with S = 1; none where no stop bit comes. -/
def State.fetchBundle (s : State) (c : Nat) (va : Word) : Nat → Except FetchErr (State × Option (List Word))
  | 0 => .ok (s, none)
  | fuel + 1 =>
    match s.fetchWord c va with
    | .error e => .error e
    | .ok (t, w) =>
      if w.getLsbD 8 then .ok (t, some [w])
      else match t.fetchBundle c (va + 8) fuel with
        | .error e => .error e
        | .ok (u, ws) => .ok (u, ws.map (w :: ·))

/-! ## Bundles -/

/-- A syllable of a bundle: its word, what its opcode reads as, its cluster and its slot (R32). -/
structure Syl where
  w : Word
  i : Option Instr
  cl : Nat
  slot : Nat
  deriving DecidableEq, Repr

/-- A syllable's parts; a second move-slot operation takes slot 36. -/
def Syl.of (moves : Nat) (w : Word) : Syl :=
  let i := parse .vliw w.toNat
  let cl := bits w.toNat 13 9
  let slot := match i with
    | some x => if Instr.allowed .vliw x then slotOf x cl else cl
    | none => cl
  { w := w, i := i, cl := cl, slot := if slot = 35 ∧ 0 < moves then 36 else slot }

/-- The syllables of a bundle in stored order. -/
def syls : Nat → List Word → List Syl
  | _, [] => []
  | moves, w :: ws =>
    let x := Syl.of moves w
    x :: syls (if x.slot = 35 ∨ x.slot = 36 then moves + 1 else moves) ws

/-- Writes that count for R33: those of k62 are discarded, k63 pushes a queue and is no register, and p7 is not written. -/
def countedWrites (k : Nat) (x : Syl) : List (Nat × Nat) :=
  match x.i with
  | some i => if Instr.allowed .vliw i then (i.writes k x.cl).filter fun p => p.2 != 62 && p.2 != 63 && p.2 != 71 else []
  | none => []

/-- Whether no two lists of writes share a place. -/
def apart : List (List (Nat × Nat)) → Bool
  | [] => true
  | x :: xs => (xs.all fun y => x.all fun p => !y.contains p) && apart xs

/-- BAD_GROUP of a bundle of a context of k clusters (R33). -/
def badGroup (k : Nat) (l : List Syl) : Bool :=
  (l.any fun x => decide (k ≤ x.cl)) || ((List.range 38).any fun n => decide (1 < (l.filter (·.slot == n)).length))
    || !apart (l.map (countedWrites k)) || l.any fun x => decide (32 ≤ x.slot) && (x.i.map (·.namesPort)).getD false

/-- The syllables in ascending slot number (R43). -/
def inSlots (l : List Syl) : List Syl := (List.range 38).flatMap fun n => l.filter (·.slot == n)

/-- The first syllable, in ascending slot number, that a check of R43's steps 3 to 10 refuses, with its cause. -/
def firstBad (e : DecEnv) (l : List Syl) : Option (Syl × Cause) :=
  l.findSome? fun x => match decode .vliw x.w with
    | .error c => some (x, c)
    | .ok i => (i.check e).map (x, ·)

/-! ## Traps before an instruction is known -/

/-- A fault of a unit at its PC, found before or by decoding (R43, R44): every active lane, the slot where there is one. (DEDUCED, log 56: unsafe.) -/
def State.unitTrap (s : State) (c u k : Nat) (cause : Cause) (slot : Nat) (lanes : Mask) (info1 : Word) : State :=
  match s.unit c u with
  | none => s
  | some p =>
    let t := p.split k
    let rpc := match p.kind with | .front => t.pc | _ => t.rpc
    s.takeTrap c u k
      { cause := cause, unit := u, slot := slot, pc := t.pc, rpc := rpc, rcnt := p.rcnt, resume := rpc, mask := lanes, info1 := info1 }

/-- The active lanes of a split of a unit: every cluster of a context. -/
def ProgUnit.activeMask (p : ProgUnit) (k : Nat) : Mask :=
  match p.kind with
  | .warp => (p.split k).mask
  | .context => maskOf p.k fun _ => true
  | _ => 1

/-- An asynchronous trap taken at a region entry, one at each (R224), with RESUME there. -/
def State.takeAsync (s : State) (c u k : Nat) (f : Frame) : State :=
  match s.unit c u with
  | none => s
  | some p =>
    let t := p.split k
    (s.modUnit c u fun p => { p with asyncs := p.asyncs.erase f, asyncHere := true }).takeTrap c u k
      { f with kind := 2, unit := u, slot := 0xFF, rk := 1, pc := t.pc, rpc := t.pc, rcnt := p.rcnt, resume := t.pc, mask := p.activeMask k }

/-! ## When a unit may issue -/

/-- Whether a split may issue: it is live, is not parked and waits at no join (R306); its unit is not trapped; the block has
not stopped it (R225, R227, R242); and a context runs (R59). A handler issues on until its block may be saved (R221). -/
def State.mayIssue (s : State) (c u k : Nat) : Bool :=
  match s.blk c, s.unit c u with
  | some b, some p =>
    match p.splits[k]? with
    | none => false
    | some t => match p.kind with
      | .handler => p.trap.isNone && t.mask != 0 && t.waits.all (s.waitOver c u k b p) && (b.stop.isNone || !s.handlerStopped c b)
      | .context => s.splitFree c u k b p t && s.runs c b == u
      | .warp => s.splitReady c u k b p t
      | .front => s.splitFree c u k b p t
  | _, _ => false

/-- R72 between two splits of a warp: the one on the fall-through side of the newest entry that separates them is first; lanes that
have left a join on its deadline keep their side. Where the entry that separated two splits has been popped, the one listed later is
first: the manual gives no order there. (DESIGN CHOICE, log 89: unsafe.) -/
def ProgUnit.firstOf (p : ProgUnit) (x y : Split) : Bool :=
  match p.div.find? fun e => (x.mask &&& ~~~e.dmask == 0) != (y.mask &&& ~~~e.dmask == 0)
      && x.mask &&& ~~~(e.owed ||| e.arrived ||| e.left) == 0 && y.mask &&& ~~~(e.owed ||| e.arrived ||| e.left) == 0 with
  | some e => x.mask &&& ~~~e.dmask != 0
  | none => true

/-- A split that may issue on a quarter, as the rule of R306 weighs it. -/
structure Ready where
  unit : Nat
  split : Nat
  p : ProgUnit
  t : Split

/-- The cycle in which a warp last issued; a new warp counts its start (R306). -/
def ProgUnit.lastIssue (p : ProgUnit) : Nat := p.issued

/-- Whether R306 puts one split before another: the class, the last issue of its warp, the slot, R72. -/
def Ready.before (x y : Ready) : Bool :=
  if x.t.promoted != y.t.promoted then x.t.promoted
  else if x.p.lastIssue != y.p.lastIssue then decide (x.p.lastIssue < y.p.lastIssue)
  else if x.unit != y.unit then decide (x.unit < y.unit)
  else x.p.firstOf x.t y.t

/-- The splits of a quarter of a core that may issue (R306). -/
def State.readyOn (s : State) (c q : Nat) (b : Block) : List Ready :=
  (b.warps.filter fun x => x.2.quarter == q).flatMap fun x => (x.2.splits.zipIdx).filterMap fun (t, k) =>
    if s.mayIssue c x.1 k then some { unit := x.1, split := k, p := x.2, t := t } else none

/-- The split that a quarter issues (R306): the first in order among those whose sources have completed (R307, log 1). -/
def State.quarterChoice (s : State) (c q : Nat) (b : Block) : Option Ready :=
  ((s.readyOn c q b).filter fun r => Config.sourcesReady s.fresh (65536 * c + 256 * r.unit + r.split)).foldl (fun best r =>
    match best with
    | none => some r
    | some x => if r.before x then some r else some x) none

end Sys2Proof.Machine
end

