-- ==== Sys2Proof/Machine/Agenda.lean ====
section
/-! DEFINITION. Who moves next where the agenda names no one: events whose cycle has come (R79, R92, R161, R221, R305, R306,
R318, R354), and the agents that can move (R59, R144, R300 to R306). -/

namespace Sys2Proof.Machine

/-! ## Events whose cycle has come -/

/-- The first event of a split that is due: a starved split rises (R306), a yield ends (R92). -/
def State.splitDue (s : State) (c u k : Nat) (t : Split) : Option Instr :=
  if t.waits.any fun w => w.kind == .yield && decide (w.since + 16 ≤ s.cyc) then some (.yieldTimeout c u k)
  else if !t.promoted && s.starved c u k then some (.starvationPromote c u k)
  else none

/-- The first event of a unit that is due: a join's deadline has passed, after the arrivals of its cycle (R79, R96), a timer
(R318), an answer for k60 (R305). A deadline that passes while its warp stands in a trap takes effect once the trap has returned.
(DESIGN CHOICE, log 90: unsafe.) -/
def State.unitDue (s : State) (c u : Nat) (p : ProgUnit) : Option Instr :=
  let late := if p.trap.isSome then none
    else p.div.findIdx? fun e => e.owed != 0 && !(e.started && p.lateStore none) && e.deadline.any fun d => decide (d < s.cyc)
  let timer := p.slots.findIdx? fun e => e.any fun e => e.kind == .timer && !e.fired && decide (e.num.toNat ≤ s.cyc)
  match late, timer with
  | some e, _ => some (.joinDeadline c u e)
  | none, some n => some (.timerTokenFire c u n)
  | none, none =>
    if p.nextTile.any fun x => decide (x.2 ≤ s.cyc) then some (.nexttileAnswer c u)
    else if p.kind == .warp && p.trap.isNone then (p.splits.zipIdx).findSome? fun (t, k) => s.splitDue c u k t
    else none

/-- The first event of a core that is due: drained rows (R354), a broken pin, once the cycle in which a wide REL comes before it has
passed (R161, R170), the watchdog (R221), its units'. -/
def State.coreDue (s : State) (c : Nat) : Option Instr :=
  let k := s.core c
  match k.blk with
  | none => none
  | some b =>
    if k.arr.drained.any fun d => decide (d.due ≤ s.cyc) then some (.drainCommit c)
    else match k.pins.findIdx? fun p => (p.refusedAt.any fun d => decide (d + 65536 < s.cyc)) && !s.pinStuck c p with
      | some n => some (.pinBreak c n)
      | none =>
        if b.stop.isNone && k.hnd.any fun h => decide (2 ^ 20 ≤ s.cyc - h.start) then some (.handlerWatchdog c)
        else (List.range 21).findSome? fun u => (b.unit u).bind (s.unitDue c u)

/-- The cores that hold a block. -/
def State.busyCores (s : State) : List Nat := (List.range s.cores.length).filter fun c => (s.blk c).isSome

/-- The first event whose cycle has come. -/
def State.due (s : State) : Option Instr := s.busyCores.findSome? s.coreDue

/-! ## Agents that can move -/

/-- The turns of the units of a core: one split of each quarter (R306), the running context (R59), the handler and the front
end (R218). -/
def State.issueTurns (s : State) (c : Nat) (b : Block) : List Turn :=
  let quarters := (List.range 4).filterMap fun q => (s.quarterChoice c q b).map fun r => Turn.issue c r.unit r.split false
  let single := fun u => if s.mayIssue c u 0 then [Turn.issue c u 0 false] else []
  quarters ++ single (s.runs c b) ++ single 20 ++ single 21

/-- The events of a unit that can happen: deferred splits, answers to loads, finished waits, requests of aged units first
(R204, R309 to R311). -/
def State.unitEvents (s : State) (c u : Nat) (b : Block) (p : ProgUnit) : List Instr :=
  let starts := (p.div.zipIdx).filterMap fun (e, n) => if b.lets p && s.mayStart c u b p e then some (Instr.deferredSplitStart c u n) else none
  let loads := match p.q.loads.findIdx? fun e => e.ans == .pending with
    | some n => [Instr.loadAnswer c u (p.q.base + n)]
    | none => []
  let waits := (p.splits.zipIdx).flatMap fun (t, k) => t.waits.filterMap fun w =>
    if w.done then none
    else match w.kind with
      | .slice => some (if (w.req.map fun q => decide (48 ≤ q.op)).getD false then .sliceAmx c u k else .sliceAtomic c u k)
      | .guard => if p.kind == .context then none else some (.guardAcquired c u k)
      | .release => if w.n = 1 then some (.guardRelease c u k) else none
      | .invalidate => some (if w.n = 1 then .icinvDevComplete c u k else .tlbinvComplete c u k)
      | .nextTile => some (.nexttileAnswer c u)
      | _ => none
  starts ++ loads ++ waits

/-- The events of a core that can happen. -/
def State.coreEvents (s : State) (c : Nat) : List Instr :=
  let k := s.core c
  let clear := if k.clearing && decide (k.clearDue ≤ s.cyc) then [Instr.coreClearComplete c] else []
  let travel := (k.travel.head?.map fun _ => Instr.storeAck c 0).toList ++ (k.fills.map fun f => Instr.l1Fill c f.1)
    ++ (k.sent.head?.map fun _ => Instr.mailboxDeliver c 0).toList
  match k.blk with
  | none => clear ++ travel
  | some b =>
    let has := fun (e : Engine) => b.cmds.any fun x => x.engine == e && !x.finished
    let engines := (if has .copy then [Instr.copyComplete c] else []) ++ (if has .coll then [Instr.collArrival c] else [])
      ++ (if has .matrix then [Instr.matrixCommandStart c, .matrixCommandComplete c, .mloadbComplete c] else [])
    let stops := (if b.stop.isSome && s.blockStopped c b then [Instr.blockSave c] else [])
      ++ (if k.hnd.isNone && !k.trapQ.isEmpty && !b.dying then [Instr.trapEntry c] else [])
    let units := (List.range 21).filterMap fun u => (b.unit u).map (u, ·)
    let breaks := (k.pins.zipIdx).filterMap fun (p, n) =>
      if p.refusedAt.any fun d => decide (d + 65536 ≤ s.cyc) then some (Instr.pinBreak c n) else none
    let all := units.map fun x => (x.2.aged.contains true, s.unitEvents c x.1 b x.2)
    let aged := (all.filter (·.1)).flatMap (·.2)
    clear ++ travel ++ engines ++ stops ++ breaks ++ (if aged.isEmpty then all.flatMap (·.2) else aged)

/-- The events of an instance's queues, dispatcher, range unit and heap that can happen (R299 to R304, R194). -/
def State.instEvents (s : State) (i : Nat) : List Instr :=
  let k := s.inst i
  let queues := (k.queues.zipIdx).flatMap fun (q, n) =>
    (if q.wants then [if q.reread = 0 then Instr.seqRead i n else .seqReread i n] else [])
      ++ (if q.head.isSome && !q.satisfied && !q.stop then [Instr.headWaitSatisfied i n] else [])
  let start := if k.chooseQueue.isSome then [Instr.launchStart i] else []
  let place := if k.launches.isEmpty then []
    else [Instr.gangPlace i, .gangPassedOver i, .stageDeadlockBreak i]
  let tiles := k.launches.flatMap fun l => l.disp.filterMap fun d =>
    if d.waiting.isEmpty then none else some (Instr.rangeChunkAnswer i l.order d.cell)
  let heap := k.launches.filterMap fun l => if l.exchange.isEmpty then none else some (Instr.heapExchangeReturn i l.order 0)
  queues ++ start ++ place ++ tiles ++ heap

/-- The management command that FWCMD holds (R366, R368). -/
def Dev.commandEvents (d : Dev) : List Instr :=
  if !d.go then []
  else if d.cmdDone.isSome then [.commandEnd]
  else match d.cmd.toNat with
    | 1 => [.identify]
    | 2 => [.patch]
    | 3 => [.partition]
    | 4 => [.warmstart]
    | 5 => [.setrect]
    | 6 => [.ctxresume]
    | 7 => [.setsys]
    | 8 => match d.blockArgs.2.1 with
      | 0 => [.blockctlHalt]
      | 1 => [.blockctlResume]
      | 2 => [.blockctlDiscard]
      | _ => [.commandEnd]
    | 9 => [.replay]
    | _ => [.commandEnd]

/-- Everything that can move next. -/
def State.candidates (s : State) : List Turn :=
  let issues := s.busyCores.flatMap fun c => match s.blk c with
    | some b => s.issueTurns c b
    | none => []
  let cores := (List.range s.cores.length).flatMap s.coreEvents
  let insts := (List.range 4).flatMap s.instEvents
  let dev := s.dev.commandEvents ++ (if s.dev.rst then [Instr.hostRestartComplete] else [])
  issues ++ (cores ++ insts ++ dev).map .happen

/-- Who moves: the agenda's first entry, else a free choice among those that can move (DESIGN CHOICE, log 2); none while no one can. -/
def State.nextTurn (s : State) : Option Turn × State :=
  match s.agenda with
  | t :: rest => (some t, { s with agenda := rest })
  | [] =>
    match s.candidates with
    | [] => (none, s)
    | [t] => (some t, s)
    | ts => (ts[Config.choose s.fresh % ts.length]?, s)

end Sys2Proof.Machine
end

