-- ==== Sys2Proof/Machine/Dispatch.lean ====
section
/-! DEFINITION. Dispatch: one arm per constructor of Instr, each a direct call of its meaning. -/

namespace Sys2Proof.Machine

/-- The effect of an instruction or device event on the machine. -/
def exec (i : Instr) (s : State) : Host.Outcome State Fault Refusal :=
  match i with
  | .nop w => Sys2Proof.Machine.execNop w s
  | .bra w => Sys2Proof.Machine.execBra w s
  | .jmp w => Sys2Proof.Machine.execJmp w s
  | .call w => Sys2Proof.Machine.execCall w s
  | .ret w => Sys2Proof.Machine.execRet w s
  | .jmpr w => Sys2Proof.Machine.execJmpr w s
  | .join w => Sys2Proof.Machine.execJoin w s
  | .exit w => Sys2Proof.Machine.execExit w s
  | .regroup w => Sys2Proof.Machine.execRegroup w s
  | .vote w => Sys2Proof.Machine.execVote w s
  | .bar w => Sys2Proof.Machine.execBar w s
  | .bararr w => Sys2Proof.Machine.execBararr w s
  | .collapse w => Sys2Proof.Machine.execCollapse w s
  | .expand w => Sys2Proof.Machine.execExpand w s
  | .loop w => Sys2Proof.Machine.execLoop w s
  | .endloop w => Sys2Proof.Machine.execEndloop w s
  | .evbind w => Sys2Proof.Machine.execEvbind w s
  | .evunbind w => Sys2Proof.Machine.execEvunbind w s
  | .waitany w => Sys2Proof.Machine.execWaitany w s
  | .evmask w => Sys2Proof.Machine.execEvmask w s
  | .evpend w => Sys2Proof.Machine.execEvpend w s
  | .evclr w => Sys2Proof.Machine.execEvclr w s
  | .send w => Sys2Proof.Machine.execSend w s
  | .mbread w => Sys2Proof.Machine.execMbread w s
  | .region w => Sys2Proof.Machine.execRegion w s
  | .sleepuntil w => Sys2Proof.Machine.execSleepuntil w s
  | .yield w => Sys2Proof.Machine.execYield w s
  | .popd w => Sys2Proof.Machine.execPopd w s
  | .pushd w => Sys2Proof.Machine.execPushd w s
  | .nexttile w => Sys2Proof.Machine.execNexttile w s
  | .sqpush w => Sys2Proof.Machine.execSqpush w s
  | .trap w => Sys2Proof.Machine.execTrap w s
  | .iadd w => Sys2Proof.Machine.execIadd w s
  | .isub w => Sys2Proof.Machine.execIsub w s
  | .imul w => Sys2Proof.Machine.execImul w s
  | .imulh w => Sys2Proof.Machine.execImulh w s
  | .imad w => Sys2Proof.Machine.execImad w s
  | .idiv w => Sys2Proof.Machine.execIdiv w s
  | .irem w => Sys2Proof.Machine.execIrem w s
  | .imin w => Sys2Proof.Machine.execImin w s
  | .imax w => Sys2Proof.Machine.execImax w s
  | .iabs w => Sys2Proof.Machine.execIabs w s
  | .ineg w => Sys2Proof.Machine.execIneg w s
  | .icmp w => Sys2Proof.Machine.execIcmp w s
  | .popc w => Sys2Proof.Machine.execPopc w s
  | .clz w => Sys2Proof.Machine.execClz w s
  | .brev w => Sys2Proof.Machine.execBrev w s
  | .ctz w => Sys2Proof.Machine.execCtz w s
  | .and w => Sys2Proof.Machine.execAnd w s
  | .or w => Sys2Proof.Machine.execOr w s
  | .xor w => Sys2Proof.Machine.execXor w s
  | .not w => Sys2Proof.Machine.execNot w s
  | .andn w => Sys2Proof.Machine.execAndn w s
  | .shl w => Sys2Proof.Machine.execShl w s
  | .shr w => Sys2Proof.Machine.execShr w s
  | .sar w => Sys2Proof.Machine.execSar w s
  | .rotl w => Sys2Proof.Machine.execRotl w s
  | .bfx w => Sys2Proof.Machine.execBfx w s
  | .bfi w => Sys2Proof.Machine.execBfi w s
  | .lea w => Sys2Proof.Machine.execLea w s
  | .movi w => Sys2Proof.Machine.execMovi w s
  | .movhi w => Sys2Proof.Machine.execMovhi w s
  | .iaddi w => Sys2Proof.Machine.execIaddi w s
  | .imuli w => Sys2Proof.Machine.execImuli w s
  | .andi w => Sys2Proof.Machine.execAndi w s
  | .ori w => Sys2Proof.Machine.execOri w s
  | .xori w => Sys2Proof.Machine.execXori w s
  | .shli w => Sys2Proof.Machine.execShli w s
  | .shri w => Sys2Proof.Machine.execShri w s
  | .sari w => Sys2Proof.Machine.execSari w s
  | .icmpi w => Sys2Proof.Machine.execIcmpi w s
  | .mov w => Sys2Proof.Machine.execMov w s
  | .retag w => Sys2Proof.Machine.execRetag w s
  | .sel w => Sys2Proof.Machine.execSel w s
  | .readsr w => Sys2Proof.Machine.execReadsr w s
  | .writesr w => Sys2Proof.Machine.execWritesr w s
  | .shfl w => Sys2Proof.Machine.execShfl w s
  | .bcast w => Sys2Proof.Machine.execBcast w s
  | .scan w => Sys2Proof.Machine.execScan w s
  | .reduce w => Sys2Proof.Machine.execReduce w s
  | .compact w => Sys2Proof.Machine.execCompact w s
  | .prset w => Sys2Proof.Machine.execPrset w s
  | .prtoi w => Sys2Proof.Machine.execPrtoi w s
  | .itopr w => Sys2Proof.Machine.execItopr w s
  | .matchLanes w => Sys2Proof.Machine.execMatchLanes w s
  | .xmov w => Sys2Proof.Machine.execXmov w s
  | .xbcast w => Sys2Proof.Machine.execXbcast w s
  | .fadd w => Sys2Proof.Machine.execFadd w s
  | .fsub w => Sys2Proof.Machine.execFsub w s
  | .fmul w => Sys2Proof.Machine.execFmul w s
  | .ffma w => Sys2Proof.Machine.execFfma w s
  | .fmin w => Sys2Proof.Machine.execFmin w s
  | .fmax w => Sys2Proof.Machine.execFmax w s
  | .fdiv w => Sys2Proof.Machine.execFdiv w s
  | .fsqrt w => Sys2Proof.Machine.execFsqrt w s
  | .frcp w => Sys2Proof.Machine.execFrcp w s
  | .frsq w => Sys2Proof.Machine.execFrsq w s
  | .fexp2 w => Sys2Proof.Machine.execFexp2 w s
  | .flog2 w => Sys2Proof.Machine.execFlog2 w s
  | .fsinpi w => Sys2Proof.Machine.execFsinpi w s
  | .fcospi w => Sys2Proof.Machine.execFcospi w s
  | .fcmp w => Sys2Proof.Machine.execFcmp w s
  | .fclass w => Sys2Proof.Machine.execFclass w s
  | .frnd w => Sys2Proof.Machine.execFrnd w s
  | .fdot w => Sys2Proof.Machine.execFdot w s
  | .cvt w => Sys2Proof.Machine.execCvt w s
  | .ivmake w => Sys2Proof.Machine.execIvmake w s
  | .ivlo w => Sys2Proof.Machine.execIvlo w s
  | .ivhi w => Sys2Proof.Machine.execIvhi w s
  | .ivmid w => Sys2Proof.Machine.execIvmid w s
  | .ivwid w => Sys2Proof.Machine.execIvwid w s
  | .ivhull w => Sys2Proof.Machine.execIvhull w s
  | .ivisect w => Sys2Proof.Machine.execIvisect w s
  | .ivsplit w => Sys2Proof.Machine.execIvsplit w s
  | .ivpop w => Sys2Proof.Machine.execIvpop w s
  | .ivsqr w => Sys2Proof.Machine.execIvsqr w s
  | .ivabs w => Sys2Proof.Machine.execIvabs w s
  | .ivcont w => Sys2Proof.Machine.execIvcont w s
  | .qnt w => Sys2Proof.Machine.execQnt w s
  | .ld w => Sys2Proof.Machine.execLd w s
  | .st w => Sys2Proof.Machine.execSt w s
  | .ldp w => Sys2Proof.Machine.execLdp w s
  | .stp w => Sys2Proof.Machine.execStp w s
  | .atom w => Sys2Proof.Machine.execAtom w s
  | .cas w => Sys2Proof.Machine.execCas w s
  | .amx w => Sys2Proof.Machine.execAmx w s
  | .pref w => Sys2Proof.Machine.execPref w s
  | .demote w => Sys2Proof.Machine.execDemote w s
  | .fence w => Sys2Proof.Machine.execFence w s
  | .acq w => Sys2Proof.Machine.execAcq w s
  | .rel w => Sys2Proof.Machine.execRel w s
  | .bind w => Sys2Proof.Machine.execBind w s
  | .unbind w => Sys2Proof.Machine.execUnbind w s
  | .signal w => Sys2Proof.Machine.execSignal w s
  | .swait w => Sys2Proof.Machine.execSwait w s
  | .alloc w => Sys2Proof.Machine.execAlloc w s
  | .free w => Sys2Proof.Machine.execFree w s
  | .talloc w => Sys2Proof.Machine.execTalloc w s
  | .tfree w => Sys2Proof.Machine.execTfree w s
  | .tinfo w => Sys2Proof.Machine.execTinfo w s
  | .ldt w => Sys2Proof.Machine.execLdt w s
  | .stt w => Sys2Proof.Machine.execStt w s
  | .atomt w => Sys2Proof.Machine.execAtomt w s
  | .tfill w => Sys2Proof.Machine.execTfill w s
  | .pusha w => Sys2Proof.Machine.execPusha w s
  | .pushs w => Sys2Proof.Machine.execPushs w s
  | .qstat w => Sys2Proof.Machine.execQstat w s
  | .copy w => Sys2Proof.Machine.execCopy w s
  | .gather w => Sys2Proof.Machine.execGather w s
  | .scatter w => Sys2Proof.Machine.execScatter w s
  | .coll w => Sys2Proof.Machine.execColl w s
  | .peerwr w => Sys2Proof.Machine.execPeerwr w s
  | .peerrd w => Sys2Proof.Machine.execPeerrd w s
  | .peersig w => Sys2Proof.Machine.execPeersig w s
  | .rqpop w => Sys2Proof.Machine.execRqpop w s
  | .cmdstat w => Sys2Proof.Machine.execCmdstat w s
  | .mma w => Sys2Proof.Machine.execMma w s
  | .mbeatPush w => Sys2Proof.Machine.execMbeatPush w s
  | .mbeatAcc w => Sys2Proof.Machine.execMbeatAcc w s
  | .mbeatShift w => Sys2Proof.Machine.execMbeatShift w s
  | .mbeatDrain w => Sys2Proof.Machine.execMbeatDrain w s
  | .mscale w => Sys2Proof.Machine.execMscale w s
  | .mloadb w => Sys2Proof.Machine.execMloadb w s
  | .mamap w => Sys2Proof.Machine.execMamap w s
  | .mdrain w => Sys2Proof.Machine.execMdrain w s
  | .mhad w => Sys2Proof.Machine.execMhad w s
  | .mzero w => Sys2Proof.Machine.execMzero w s
  | .mbmap w => Sys2Proof.Machine.execMbmap w s
  | .mretire w => Sys2Proof.Machine.execMretire w s
  | .bkpt w => Sys2Proof.Machine.execBkpt w s
  | .pmcfg w => Sys2Proof.Machine.execPmcfg w s
  | .pmread w => Sys2Proof.Machine.execPmread w s
  | .pmctl w => Sys2Proof.Machine.execPmctl w s
  | .trmark w => Sys2Proof.Machine.execTrmark w s
  | .lclk w => Sys2Proof.Machine.execLclk w s
  | .watch w => Sys2Proof.Machine.execWatch w s
  | .syssend w => Sys2Proof.Machine.execSyssend w s
  | .sysrecv w => Sys2Proof.Machine.execSysrecv w s
  | .tret w => Sys2Proof.Machine.execTret w s
  | .icinv w => Sys2Proof.Machine.execIcinv w s
  | .sread w => Sys2Proof.Machine.execSread w s
  | .swrite w => Sys2Proof.Machine.execSwrite w s
  | .tlbinv w => Sys2Proof.Machine.execTlbinv w s
  | .ctxsave w => Sys2Proof.Machine.execCtxsave w s
  | .ctxload w => Sys2Proof.Machine.execCtxload w s
  | .lgdiv w => Sys2Proof.Machine.execLgdiv w s
  | .errread w => Sys2Proof.Machine.execErrread w s
  | .portreply w => Sys2Proof.Machine.execPortreply w s
  | .preempt w => Sys2Proof.Machine.execPreempt w s
  | .halt w => Sys2Proof.Machine.execHalt w s
  | .coldStart full trained tests => Sys2Proof.Machine.execColdStart full trained tests s
  | .fullService trained tests => Sys2Proof.Machine.execFullService trained tests s
  | .hostLinkReset => Sys2Proof.Machine.execHostLinkReset s
  | .hostRestartComplete => Sys2Proof.Machine.execHostRestartComplete s
  | .identify => Sys2Proof.Machine.execIdentify s
  | .patch => Sys2Proof.Machine.execPatch s
  | .partition => Sys2Proof.Machine.execPartition s
  | .warmstart => Sys2Proof.Machine.execWarmstart s
  | .setrect => Sys2Proof.Machine.execSetrect s
  | .ctxresume => Sys2Proof.Machine.execCtxresume s
  | .setsys => Sys2Proof.Machine.execSetsys s
  | .blockctlHalt => Sys2Proof.Machine.execBlockctlHalt s
  | .blockctlResume => Sys2Proof.Machine.execBlockctlResume s
  | .blockctlDiscard => Sys2Proof.Machine.execBlockctlDiscard s
  | .replay => Sys2Proof.Machine.execReplay s
  | .commandEnd => Sys2Proof.Machine.execCommandEnd s
  | .evtailWrite val => Sys2Proof.Machine.execEvtailWrite val s
  | .registerWrite off val => Sys2Proof.Machine.execRegisterWrite off val s
  | .queueEnable ins q val => Sys2Proof.Machine.execQueueEnable ins q val s
  | .qdoorbell ins q val => Sys2Proof.Machine.execQdoorbell ins q val s
  | .queueStop ins q => Sys2Proof.Machine.execQueueStop ins q s
  | .queueClearStop ins q => Sys2Proof.Machine.execQueueClearStop ins q s
  | .queueSkip ins q => Sys2Proof.Machine.execQueueSkip ins q s
  | .seqRead ins q => Sys2Proof.Machine.execSeqRead ins q s
  | .seqReread ins q => Sys2Proof.Machine.execSeqReread ins q s
  | .headWaitSatisfied ins q => Sys2Proof.Machine.execHeadWaitSatisfied ins q s
  | .launchStart ins => Sys2Proof.Machine.execLaunchStart ins s
  | .gangPlace ins => Sys2Proof.Machine.execGangPlace ins s
  | .gangPassedOver ins => Sys2Proof.Machine.execGangPassedOver ins s
  | .stageDeadlockBreak ins => Sys2Proof.Machine.execStageDeadlockBreak ins s
  | .coreClearComplete core => Sys2Proof.Machine.execCoreClearComplete core s
  | .rangeChunkAnswer ins launch cell => Sys2Proof.Machine.execRangeChunkAnswer ins launch cell s
  | .nexttileAnswer core unit => Sys2Proof.Machine.execNexttileAnswer core unit s
  | .starvationPromote core unit split => Sys2Proof.Machine.execStarvationPromote core unit split s
  | .yieldTimeout core unit split => Sys2Proof.Machine.execYieldTimeout core unit split s
  | .deferredSplitStart core unit entry => Sys2Proof.Machine.execDeferredSplitStart core unit entry s
  | .joinDeadline core unit entry => Sys2Proof.Machine.execJoinDeadline core unit entry s
  | .regionCountClose core unit split => Sys2Proof.Machine.execRegionCountClose core unit split s
  | .loadAnswer core unit entry => Sys2Proof.Machine.execLoadAnswer core unit entry s
  | .l1Fill core line => Sys2Proof.Machine.execL1Fill core line s
  | .l2MissFill line victim => Sys2Proof.Machine.execL2MissFill line victim s
  | .storeAck core n => Sys2Proof.Machine.execStoreAck core n s
  | .sliceAtomic core unit split => Sys2Proof.Machine.execSliceAtomic core unit split s
  | .sliceAmx core unit split => Sys2Proof.Machine.execSliceAmx core unit split s
  | .guardAcquired core unit split => Sys2Proof.Machine.execGuardAcquired core unit split s
  | .guardRelease core unit split => Sys2Proof.Machine.execGuardRelease core unit split s
  | .swaitResume core unit split => Sys2Proof.Machine.execSwaitResume core unit split s
  | .pinRetry core unit split => Sys2Proof.Machine.execPinRetry core unit split s
  | .pinBreak core pin => Sys2Proof.Machine.execPinBreak core pin s
  | .heapExchangeReturn ins launch n => Sys2Proof.Machine.execHeapExchangeReturn ins launch n s
  | .bankPromote core unit => Sys2Proof.Machine.execBankPromote core unit s
  | .l1PortPromote core unit => Sys2Proof.Machine.execL1PortPromote core unit s
  | .sliceAgePromote core unit => Sys2Proof.Machine.execSliceAgePromote core unit s
  | .hbmAgePromote core unit => Sys2Proof.Machine.execHbmAgePromote core unit s
  | .hbmRefresh channel => Sys2Proof.Machine.execHbmRefresh channel s
  | .patrolRead line badWords corrected => Sys2Proof.Machine.execPatrolRead line badWords corrected s
  | .pageWalkComplete core va => Sys2Proof.Machine.execPageWalkComplete core va s
  | .ifetchFill core line poisoned => Sys2Proof.Machine.execIfetchFill core line poisoned s
  | .icinvDevComplete core unit split => Sys2Proof.Machine.execIcinvDevComplete core unit split s
  | .tlbinvComplete core unit split => Sys2Proof.Machine.execTlbinvComplete core unit split s
  | .mailboxDeliver core n => Sys2Proof.Machine.execMailboxDeliver core n s
  | .timerTokenFire core unit slot => Sys2Proof.Machine.execTimerTokenFire core unit slot s
  | .waitanyWake core unit split => Sys2Proof.Machine.execWaitanyWake core unit split s
  | .sleepWake core unit split => Sys2Proof.Machine.execSleepWake core unit split s
  | .copyComplete core => Sys2Proof.Machine.execCopyComplete core s
  | .collArrival core => Sys2Proof.Machine.execCollArrival core s
  | .peerReceive die va payload signal op amount => Sys2Proof.Machine.execPeerReceive die va payload signal op amount s
  | .peerAck core seq status payload => Sys2Proof.Machine.execPeerAck core seq status payload s
  | .linkFlitReplay port => Sys2Proof.Machine.execLinkFlitReplay port s
  | .linkDown core seq => Sys2Proof.Machine.execLinkDown core seq s
  | .matrixCommandStart core => Sys2Proof.Machine.execMatrixCommandStart core s
  | .mloadbComplete core => Sys2Proof.Machine.execMloadbComplete core s
  | .mscaleEffect core unit => Sys2Proof.Machine.execMscaleEffect core unit s
  | .drainCommit core => Sys2Proof.Machine.execDrainCommit core s
  | .trapEntry core => Sys2Proof.Machine.execTrapEntry core s
  | .forcedSave core => Sys2Proof.Machine.execForcedSave core s
  | .handlerWatchdog core => Sys2Proof.Machine.execHandlerWatchdog core s
  | .blockSave core => Sys2Proof.Machine.execBlockSave core s
  | .preemptionRequest core => Sys2Proof.Machine.execPreemptionRequest core s
  | .powerClockReduction slow => Sys2Proof.Machine.execPowerClockReduction slow s
  | .matrixCommandComplete core => Sys2Proof.Machine.execMatrixCommandComplete core s
  | .peerReadRequest die va len => Sys2Proof.Machine.execPeerReadRequest die va len s
  | .peerFlitForward dx dy flit => Sys2Proof.Machine.execPeerFlitForward dx dy flit s
  | .peerLinkChange port up => Sys2Proof.Machine.execPeerLinkChange port up s
  | .peerConnectionClose dx dy => Sys2Proof.Machine.execPeerConnectionClose dx dy s
  | .hostMemoryRequest pa store => Sys2Proof.Machine.execHostMemoryRequest pa store s

end Sys2Proof.Machine
end

