-- ==== Sys2Proof/Machine/Run.lean ====
section
/-! DEFINITION. One turn of the machine: an instruction or bundle issues (R18, R31, R43, R107, R150, R224), or an event
happens; what follows from it in the same step (R59, R61 to R63, R90, R168, R318, R382); and the cycles that pass. -/

namespace Sys2Proof.Machine

/-! ## An instruction issues -/

/-- What a fetch that gives no word does: a trap at the instruction, a retry (R159), or a stop. -/
def fetchFailed (s : State) (p : ProgUnit) : FetchErr → Host.Outcome State Fault Refusal
  | .bad c va t => .next (t.unitTrap s.cur.core s.cur.unit s.cur.split c 0xFF (p.activeMask s.cur.split) va)
  | .wait k line => .next (s.markRefused k line)
  | .stop f => .fault f

/-- A word of a warp, the front end or the handler is fetched, decoded and executed (R43). -/
def issueFetched (s : State) (p : ProgUnit) : Host.Outcome State Fault Refusal :=
  match s.fetchWord s.cur.core (p.split s.cur.split).pc with
  | .error e => fetchFailed s p e
  | .ok (t, w) =>
    match decode p.kind.mode w with
    | .error c => .next (t.unitTrap s.cur.core s.cur.unit s.cur.split c 0xFF (p.activeMask s.cur.split) 0)
    | .ok i => exec i t

/-- The syllables of the open bundle execute, in ascending slot number. -/
def runSyls : List Syl → State → Host.Outcome State Fault Refusal
  | [], s => .next s
  | x :: xs, s =>
    match x.i with
    | none => runSyls xs s
    | some i =>
      match exec i { s with bundle := s.bundle.map fun b => { b with slot := x.slot } } with
      | .next t => runSyls xs t
      | r => r

/-- A bundle executes as one dependence group (R31, R107), memory having answered the load queue before it (R102, R119): a REGION makes
its entry before the bundle (R217). -/
def runBundle (s0 : State) (l : List Syl) : Host.Outcome State Fault Refusal :=
  let s := s0.answered
  match s.view (.nop {}) {} with
  | none => .fault .noUnit
  | some v0 =>
    let v := { v0 with next := v0.addr + .ofNat 64 (8 * l.length) }
    let marks := if v.u.pending.isEmpty then l.filter fun x => match x.i with | some (.region _) => true | _ => false else []
    match runSyls (marks ++ inSlots l) { s with bundle := some (s.newBundle v v.next) } with
    | .next t => .next { closeBundle s v t with bundle := none }
    | r => r

/-- A bundle is fetched, checked and executed (R31, R33, R43). -/
def issueBundle (s : State) (p : ProgUnit) : Host.Outcome State Fault Refusal :=
  let bad (t : State) (c : Cause) (slot : Nat) (m : Mask) : Host.Outcome State Fault Refusal :=
    .next (t.unitTrap s.cur.core s.cur.unit s.cur.split c slot m 0)
  match s.fetchBundle s.cur.core (p.split s.cur.split).pc (p.k + 6) with
  | .error e => fetchFailed s p e
  | .ok (t, none) => bad t .badGroup 0xFF (p.activeMask s.cur.split)
  | .ok (t, some ws) =>
    let l := syls 0 ws
    if badGroup p.k l then bad t .badGroup 0xFF (p.activeMask s.cur.split)
    else match firstBad p.env (inSlots l) with
      | some (x, c) => bad t c x.slot (p.activeMask s.cur.split)
      | none => runBundle t l

/-- The running context is switched out when its bundle blocks at a point of R59 or it has gone: the next ready context,
round-robin, runs. -/
def State.switchContext (s : State) (c u : Nat) : State :=
  match s.blk c with
  | none => s
  | some b =>
    let leaves : Bool := match b.unit u with
      | none => true
      | some p => p.splits.any fun t => t.waits.any (·.kind.switches)
    match (if leaves then s.nextContext c u b else none) with
    | some n => s.setBlk c { b with ctxNow := n - 16 }
    | none => s

/-- A unit's turn to issue: nothing where it may not; an asynchronous trap at a region entry (R224); else its instruction
or bundle. A region that closes after 1,024 instructions (R150) makes an entry at which the unit may stop (R225). -/
def State.issueTurn (s : State) (c u k : Nat) (slow : Bool) : Host.Outcome State Fault Refusal :=
  let s1 := { s with cur := { core := c, unit := u, split := k }, slow := slow, bundle := none }
  if !s1.mayIssue c u k then .next s1
  else
    let s2 := s1.countClose c u
    match s2.unit c u with
    | none => .next s2
    | some p =>
      match s2.asyncDue c p k with
      | some f => .next (s2.takeAsync c u k f)
      | none =>
        if !s2.mayIssue c u k then .next s2
        else match p.kind with
        | .context =>
          match issueBundle (s2.modBlk c fun b => { b with ctxNow := u - 16 }) p with
          | .next t => .next (t.switchContext c u)
          | r => r
        | _ => issueFetched s2 p

/-! ## What follows in the same step -/

/-- The number of a split once dead splits are gone. -/
def liveIndex (l : List Split) (k : Nat) : Nat := ((l.take k).filter fun t => t.mask != 0).length

/-- A warp without its dead splits. -/
def ProgUnit.purge (p : ProgUnit) : ProgUnit :=
  if p.kind != .warp || p.splits.all (·.mask != 0) then p
  else { p with splits := p.splits.filter (·.mask != 0), trapSplit := liveIndex p.splits p.trapSplit }

/-- A split that others yield to, as it is numbered once dead splits are gone; none once it has issued or died (R92). -/
def Block.yieldTo (b : Block) (issued : Option Nat) (n : Word) : Option Word :=
  let u := n.toNat / 256
  let k := n.toNat % 256
  if issued = some n.toNat then none
  else match b.unit u with
    | none => none
    | some p => match p.splits[k]? with
      | none => none
      | some t => if t.mask = 0 then none else some (.ofNat 64 (256 * u + liveIndex p.splits k))

/-- The yields of a split after others have issued: over once each other split has (R92). -/
def Split.yields (t : Split) (f : Word → Option Word) : Split :=
  if t.waits.any (·.kind == .yield) then
    let go : Wait → Wait := fun w => if w.kind == .yield then { w with res := w.res.filterMap f } else w
    { t with waits := (t.waits.map go).filter fun w => !(w.kind == .yield && w.res.isEmpty) }
  else t

/-- A block after a step: dead splits are gone, yields go on, and the fox is chosen (R92, R308). -/
def Block.tidy (b : Block) (issued : Option Nat) : Block :=
  let f := b.yieldTo issued
  let units := b.units.map fun u => u.map fun p => { p with splits := p.splits.map fun t => t.yields f }
  let b1 : Block := { b with units := units.map fun u => u.map ProgUnit.purge }
  { b1 with fox := b1.chase }

/-- The tokens of signals that a step has changed fire (R318), and waits on them are satisfied (R168, R191). -/
def State.noteSignals (s : State) (c : Nat) : State :=
  ((List.range 20).foldl (fun s u => s.modUnit c u fun p => p.noteSignals s.homeWord) s).noteWaits c

/-- Bytes of a packet written into the ring from its next byte on, piece by piece up to the end of a page (R382); a full ring
wraps. A write that meets a translation fault turns trace off and logs a deferred error. Answered beside the state: the bytes that
a pinned line refuses, which are tried again (R159). -/
def State.putTrace (s : State) (i : Nat) : Nat → List Byte → State × List Byte
  | _, [] => (s, [])
  | 0, _ => (s, [])
  | fuel + 1, bs =>
    let k := s.inst i
    let size := 0x10000 * 2 ^ (k.trbase.toNat % 32)
    let at0 := k.trpos % size
    let n := 0x10000 - at0 % 0x10000
    match s.devPlace i .store (BitVec.ofNat 64 (k.trbase.toNat / 0x10000 * 0x10000) + .ofNat 64 at0) with
    | .error (.pinned k pa) => (s.markRefused k pa, bs)
    | .error _ =>
      let t := s.modInst i fun k => { k with dbgctl := k.dbgctl &&& ~~~4 }
      (t.logError (if s.dev.part = 0 then 0 else i) 2 Cause.deferredError.code 1 0, [])
    | .ok pa =>
      ((s.homeWrite pa (bs.take n) 0 i).modInst i fun k => { k with trpos := (at0 + min n bs.length) % size }).putTrace i fuel (bs.drop n)

/-- The packets of a step are written to the ring (R382), in their order; those behind a pinned line wait. -/
def State.flushTrace (s : State) (i : Nat) : State :=
  match (s.inst i).trace with
  | [] => s
  | ps =>
    let r := ps.foldl (fun (acc : State × List (List Byte)) p =>
      if acc.2.isEmpty then
        let x := acc.1.putTrace i 3 p
        (x.1, if x.2.isEmpty then [] else [x.2])
      else (acc.1, acc.2 ++ [p])) (s.modInst i fun k => { k with trace := [] }, [])
    if r.2.isEmpty then r.1 else r.1.modInst i fun k => { k with trace := r.2 }

/-- The log of a die has begun to drop records: a record of kind 4 (R244, R367). -/
def State.noteOverflow (s old : State) (d : Nat) : State :=
  if ((s.dies[d]?.getD {}).overflow && !(old.dies[d]?.getD {}).overflow) then s.ringRecord 4 (s.instOfDie d) 0 0 0 Cause.deferredError.code
  else s

/-- The core whose block a turn's writes are counted to, for the passes of R388. -/
def actor (s : State) : Option Turn → Option Nat
  | some (.issue c _ _ _) => some c
  | some (.happen i) =>
    match i with
    | .copyComplete c | .collArrival c | .matrixCommandComplete c | .storeAck c _ | .sliceAtomic c _ _ | .sliceAmx c _ _
    | .guardRelease c _ _ | .guardAcquired c _ _ | .pinBreak c _ | .deferredSplitStart c _ _ | .joinDeadline c _ _
    | .regionCountClose c _ _ | .peerAck c _ _ _ | .blockSave c | .forcedSave c => some c
    | .peerReceive .. => s.busyCores.find? fun c => ((s.blk c).map fun b => (s.rcd b).replays).getD false
    | _ => none
  | none => none

/-- The split that a turn has issued, numbered unit · 256 + split. -/
def issuedSplit (c : Nat) : Option Turn → Option Nat
  | some (.issue k u n _) => if k = c then some (256 * u + n) else none
  | _ => none

/-- The splits of a core's warps that are not ready count their readiness from the next cycle at the earliest (R306). -/
def State.noteReady (s : State) (c : Nat) : State :=
  match s.blk c with
  | none => s
  | some b => s.setBlk c { b with units := b.units.mapIdx fun u x => x.map fun p =>
      if p.kind == .warp then
        { p with splits := p.splits.mapIdx fun k t => if s.splitReady c u k b p t then t else { t with ready := s.cyc + 1 } }
      else p }

/-- What a step brings about beside its own effect. -/
def State.settle (s old : State) (t : Option Turn) : State :=
  let s1 := match actor old t with
    | some c => s.savePages old c
    | none => s
  let cores := s1.busyCores
  let s2 := cores.foldl (fun s c => s.modBlk c (·.tidy (issuedSplit c t))) s1
  let s3 := cores.foldl State.noteSignals s2
  let s4 := cores.foldl (fun s c => s.savePages s3 c) (cores.foldl State.retireBlock s3)
  let s5 := s4.busyCores.foldl (fun s c => ((s.spillDiv old c).spreadStop c).noteReady c) s4
  let s6 := (List.range 4).foldl State.settleLaunches s5
  let s7 := (List.range Config.numDies).foldl (fun s d => s.noteOverflow old d) s6
  ((List.range 4).foldl State.flushTrace s7).flushRing

/-- The cycles of a step pass: at least one, and as many more as the free value says (DESIGN CHOICE, log 1). -/
def State.tick (s : State) : State := { s with cyc := s.cyc + 1 + Config.extraCycles s.fresh, fresh := s.fresh + 1 }

/-- The end of a step. A step whose writes have to wait for a pinned line of the replay area has not happened yet (R159, R388). -/
def finish (old : State) (t : Option Turn) : Host.Outcome State Fault Refusal → Host.Outcome State Fault Refusal
  | .next s => match (actor old t).bind (s.copiesPinned old) with
    | some (k, pa) => .next (old.markRefused k pa).tick
    | none => .next (s.settle old t).tick
  | r => r

/-- A turn: a unit issues, or a device event happens. -/
def perform (t : Option Turn) (s : State) : Host.Outcome State Fault Refusal :=
  match t with
  | none => .next s
  | some (.issue c u k slow) => s.issueTurn c u k slow
  | some (.happen i) => if i.isEvent then exec i s else .fault .noUnit

/-- One step: an event whose cycle has come, else the next turn. -/
def State.turn (s : State) : Host.Outcome State Fault Refusal :=
  match s.due with
  | some i => finish s (some (.happen i)) (exec i s)
  | none => finish s s.nextTurn.1 (perform s.nextTurn.1 s.nextTurn.2)

/-! ## Placing one instruction -/

/-- Where `withFetchWord` stands an instruction: its virtual and physical address, and its page table's. -/
abbrev placeAt : Nat := 0x80000000

/-- The physical address of the page table that maps the first 4 TiB onto themselves. -/
abbrev placeTable : Nat := 0x90000000

/-- The launch record that gives the placed unit its registers: 128 per thread, 32 clusters. -/
abbrev placeRecord : LaunchRec := { regs := 128, vclusters := 32, width := 0, code := .ofNat 64 placeAt }

/-- The unit that runs a placed instruction, as a launch starts it (R56), and its number. -/
def placeUnit (m : Mode) (cyc : Nat) : Nat × ProgUnit :=
  match m with
  | .warp => (0, startWarp placeRecord 0 32 cyc)
  | .vliw => (16, startContext placeRecord cyc)
  | .front => (20, startFront placeRecord cyc)
  | .priv => (21, { startFront placeRecord cyc with kind := .handler })

/-- The words of a placed instruction: a syllable without a stop bit is followed by a NOP of another cluster that ends its
bundle (R31). -/
def placeWords (m : Mode) (w : Nat) : List Word :=
  let v := BitVec.ofNat 64 w
  match m with
  | .vliw => if v.getLsbD 8 then [v] else [v, if bits w 13 9 = 1 then 0x100 else 0x300]
  | _ => [v]

/-- A state in which the next step fetches and runs one instruction: a block on core 0 with one unit at the instruction. -/
def State.place (s : State) (m : Mode) (w : Nat) : State :=
  let u := placeUnit m s.cyc
  let b : Block := {
    inst := 0, launch := 0, index := 0, gidx := 0, bidx := 0, stage := 0, vgroups := 2
    units := (List.range 22).map fun n => if n = u.1 then some u.2 else none }
  let code := (placeWords m w).flatMap fun x => leBytes 8 x.toNat
  let hnd : Option Handler := if m = .priv then some { unit := 20, cause := 0, start := s.cyc, frame := { cause := .none } } else none
  let k : Core := { s.core 0 with blk := some b, icache := [], tlb := [], hnd := hnd, pins := [] }
  let s1 := (s.setCore 0 k).modInst 0 fun i => { i with troot := .ofNat 64 placeTable }
  { s1 with
    mem := cellWrite (cellWrite s1.mem placeAt code) placeTable (leBytes 8 0x1F)
    poison := s1.poison.filter fun p => p / 128 != placeAt / 128 && p / 128 != placeTable / 128
    cells := s1.cells.modify 0 fun t => { t with tlb := [] }
    bundle := none
    agenda := [.issue 0 u.1 0 false] }

end Sys2Proof.Machine
end

