-- ==== Sys2Proof/Machine/Step.lean ====
section
/-! DEFINITION. One step of the machine, and the state whose next step runs a given instruction. -/

namespace Sys2Proof.Machine

/-- One step: one row of the opcode table, an instruction, a bundle or a device event. (DESIGN CHOICE, log 9: unsafe.) -/
def step (s : State) : Host.Outcome State Fault Refusal := s.turn

/-- s with the instruction of a table word where the next step fetches, in the opcode's home mode. (DESIGN CHOICE, log 22: safe.) -/
def State.withFetchWord (s : State) (nbits w : Nat) : State :=
  s.place (homeMode (w % 2 ^ nbits % 2 ^ 64)) (w % 2 ^ nbits % 2 ^ 64)

end Sys2Proof.Machine
end

