-- ==== Sys2Proof/Safety.lean ====
section
/-! DEFINITION. What counts as a safe run, and the terms in which claims speak of one instruction: when a unit may execute
it, what its completion leaves, and what stays unchanged. -/

namespace Sys2Proof.Machine

/-! ## Invariants -/

/-- Every memory of the machine is canonical: global memory, and the tile memory, B store and accumulators of each core. -/
def State.MemoriesCanonical (s : State) : Prop :=
  Memory.wf s.mem = true ∧
    ∀ k ∈ s.cores, Memory.wf k.tile = true ∧ Memory.wf k.bst = true ∧ Memory.wf k.acc = true

/-- Every split of every warp holds a lane (R69). -/
def State.SplitsLive (s : State) : Prop :=
  ∀ c u p, s.unit c u = some p → p.kind = .warp → ∀ t ∈ p.splits, t.mask ≠ 0

/-- A step that stops: a named fault or refusal. -/
def State.stops (s : State) : Prop := ∀ t, step s ≠ .next t

/-! ## When an instruction may execute -/

/-- The unit whose turn it is stands at instruction i, whose word has the head h, and i passes the decoder's checks 4 to 10
(R43); no bundle is open, so that a syllable is a bundle of its own. `v` is what the instruction sees. -/
structure Stands (s : State) (i : Instr) (h : Head) (v : View) : Prop where
  view : s.view i h = some v
  check : preCheck v i = none
  closed : s.bundle = none
  /-- single-step is off for the instance (R381) -/
  quiet : (s.inst (s.instOf v.core)).dbgctl.getLsbD 1 = false
  /-- the instruction has not waited yet, with its region ended (R148) -/
  fresh : v.sp.closed = false
  /-- memory has given a context's load queue the answers that it can give before the bundle (R102, R119) -/
  answered : v.u.kind = .context → s.answered = s

/-- A unit other than the handler stands at instruction i, whether or not i passes the decoder's checks. -/
structure Faces (s : State) (i : Instr) (h : Head) (v : View) : Prop where
  view : s.view i h = some v
  closed : s.bundle = none
  quiet : (s.inst (s.instOf v.core)).dbgctl.getLsbD 1 = false
  own : v.u.kind ≠ .handler ∧ v.unit < 21
  /-- memory has given a context's load queue the answers that it can give before the bundle (R102, R119) -/
  answered : v.u.kind = .context → s.answered = s

/-- No source field names the queue port of a context (R34). -/
def View.noPort (v : View) (l : List Nat) : Prop := v.u.kind = .context → 63 ∉ l

/-- D names a register of every selected lane, or the register of a context that discards (R98). -/
def View.hasReg (v : View) (d : Nat) : Prop :=
  v.noPort [d] ∧
    (v.u.kind = .context ∧ d = 62 ∨
      ∀ k, v.sel.getLsbD k → k < v.u.lanes.length →
        (if v.u.kind = .context then rotated v.u.base d else d) < (v.u.lane k).regs.length)

/-- D names a predicate of every selected lane, or p7 (R67). -/
def View.hasPred (v : View) (d : Nat) : Prop :=
  d = 7 ∨ ∀ k, v.sel.getLsbD k → k < v.u.lanes.length → d < (v.u.lane k).preds.length

/-- No float condition that an instruction meets in a lane has its trap enabled (R263). -/
def View.untrapped (v : View) (fl : Nat → BitVec 5) : Prop := ∀ k ∈ v.lanes, v.u.fpctl &&& fl k = 0

/-! ## What a completed instruction leaves -/

/-- The register as a unit of the kind holds it: s-registers keep no tag (R120). -/
def UnitKind.held (k : UnitKind) (r : Reg) : Reg :=
  match k with
  | .warp | .context => r
  | .front | .handler => { r with tag := .b64 }

/-- The registers of the unit with D written in the selected lanes; k62 discards (R98). -/
def View.writing (v : View) (d : Nat) (r : Nat → Reg) (k n : Nat) : Reg :=
  if v.sel.getLsbD k = true ∧ k < v.u.lanes.length ∧ n = d ∧ ¬(v.u.kind = .context ∧ d = 62)
  then v.u.kind.held (r k) else v.u.read k n

/-- The predicates of the unit with D written in the selected lanes; a write of p7 is discarded (R67). -/
def View.setting (v : View) (d : Nat) (r : Nat → Pred) (k n : Nat) : Pred :=
  if v.sel.getLsbD k = true ∧ k < v.u.lanes.length ∧ n = d ∧ d ≠ 7 then r k else (v.u.lane k).pred n

/-- The registers as they were. -/
def View.regs (v : View) (k n : Nat) : Reg := v.u.read k n

/-- The predicates as they were. -/
def View.preds (v : View) (k n : Nat) : Pred := (v.u.lane k).pred n

/-- The low bits of a register at the width of T, extended (R121). -/
def extendTo (t : Ty) (x : Word) : Word :=
  match t with
  | .i32 => (x.setWidth 32).signExtend 64
  | .n32 => (x.setWidth 32).setWidth 64
  | _ => x

/-- A shift at the width of T, extended (R121, R127). -/
def shifted (op : (n : Nat) → BitVec n → Nat → BitVec n) (t : Ty) (x : Word) (c : Nat) : Word :=
  match t with
  | .i32 => (op 32 (x.setWidth 32) c).signExtend 64
  | .n32 => (op 32 (x.setWidth 32) c).setWidth 64
  | _ => op 64 x c

/-- An exact integer result in a register: clamped with `.sat`, else wrapped, and extended (R121, R122). -/
def intReg (t : Ty) (sat : Bool) (x : Int) : Reg := mkReg (wrapInt t (if sat then clampInt t x else x)) t

/-- The state without its cores: memory, instances, dies, and all that is no core's. -/
def State.shell (s : State) : State := { s with cores := [] }

/-- A core without its block and counters. -/
def Core.shell (k : Core) : Core := { k with blk := none, ctrs := [] }

/-- A block without its units. -/
def Block.shell (b : Block) : Block := { b with units := [] }

/-- Everything outside the issuing unit is unchanged, every byte of every memory among it; the core's counters count
(R387). -/
structure Undisturbed (s t : State) (v : View) : Prop where
  rest : t.shell = s.shell
  cores : ∀ c, c ≠ v.core → t.core c = s.core c
  core : (t.core v.core).shell = (s.core v.core).shell
  blk : (t.blk v.core).map Block.shell = (s.blk v.core).map Block.shell
  units : ∀ u, u ≠ v.unit → t.unit v.core u = s.unit v.core u

/-- The unit with what every completed instruction may change set aside: registers and predicates, splits, the sticky float
flags, the counts of R150 and R308, the cycle of its last issue (R306), the mark that the front end had an asynchronous trap before
this instruction (R224), and a context's scale latches, which take effect by issue count (R348). -/
def ProgUnit.rest (p : ProgUnit) : ProgUnit :=
  { p with
    lanes := [], splits := [], fpflags := 0, since := 0, fox := 0, aged := [], issues := 0, issued := 0, asyncHere := false
    latch := [], pending := [] }

/-- The instruction completes: the unit's registers, predicates and float flags are those given, its split goes on at the
next word, and nothing else changes. -/
def Leaves (s : State) (i : Instr) (v : View) (regs : Nat → Nat → Reg) (preds : Nat → Nat → Pred) (fl : BitVec 5) : Prop :=
  ∃ t p, exec i s = .next t ∧ Undisturbed s t v ∧ t.unit v.core v.unit = some p ∧
    p.rest = v.u.rest ∧ p.fpflags = v.u.fpflags ||| fl ∧ p.lanes.length = v.u.lanes.length ∧
    (∀ k, k < v.u.lanes.length → (p.lane k).nest = (v.u.lane k).nest ∧
      (∀ n, p.read k n = regs k n) ∧ ∀ n, (p.lane k).pred n = preds k n) ∧
    p.splits.length = v.u.splits.length ∧
    (∀ k, k ≠ v.split → p.split k = v.u.split k) ∧
    (p.split v.split).mask = v.sp.mask ∧ (p.split v.split).pc = v.next ∧ (p.split v.split).rpc = v.sp.rpc ∧
    (p.split v.split).joined = false ∧ (p.split v.split).waits = []

/-- Two-source instructions that write D: with sources that `ok` accepts, each selected lane's D becomes f of its A and B. -/
def Gives2 (mk : ArithWord → Instr) (ok : ArithWord → Reg → Reg → Prop) (f : ArithWord → Reg → Reg → Reg)
    (fl : ArithWord → Reg → Reg → BitVec 5 := fun _ _ _ => 0) : Prop :=
  ∀ (s : State) (v : View) (w : ArithWord), Stands s (mk w) w.head v →
    v.noPort [w.a.toNat, w.b.toNat] → v.hasReg w.d.toNat →
    (∀ k ∈ v.lanes, ok w (v.u.read k w.a.toNat) (v.u.read k w.b.toNat)) →
    v.untrapped (fun k => fl w (v.u.read k w.a.toNat) (v.u.read k w.b.toNat)) →
    Leaves s (mk w) v (v.writing w.d.toNat fun k => f w (v.u.read k w.a.toNat) (v.u.read k w.b.toNat)) v.preds
      (orFlags v.lanes fun k => fl w (v.u.read k w.a.toNat) (v.u.read k w.b.toNat))

/-- One-source instructions that write D. -/
def Gives1 (mk : ArithWord → Instr) (ok : ArithWord → Reg → Prop) (f : ArithWord → Reg → Reg)
    (fl : ArithWord → Reg → BitVec 5 := fun _ _ => 0) : Prop :=
  ∀ (s : State) (v : View) (w : ArithWord), Stands s (mk w) w.head v →
    v.noPort [w.a.toNat] → v.hasReg w.d.toNat →
    (∀ k ∈ v.lanes, ok w (v.u.read k w.a.toNat)) →
    v.untrapped (fun k => fl w (v.u.read k w.a.toNat)) →
    Leaves s (mk w) v (v.writing w.d.toNat fun k => f w (v.u.read k w.a.toNat)) v.preds
      (orFlags v.lanes fun k => fl w (v.u.read k w.a.toNat))

/-- Three-source instructions that write D. -/
def Gives3 (mk : ArithWord → Instr) (ok : ArithWord → Reg → Reg → Reg → Prop) (f : ArithWord → Reg → Reg → Reg → Reg)
    (fl : ArithWord → Reg → Reg → Reg → BitVec 5 := fun _ _ _ _ => 0) : Prop :=
  ∀ (s : State) (v : View) (w : ArithWord), Stands s (mk w) w.head v →
    v.noPort [w.a.toNat, w.b.toNat, w.c.toNat] → v.hasReg w.d.toNat →
    (∀ k ∈ v.lanes, ok w (v.u.read k w.a.toNat) (v.u.read k w.b.toNat) (v.u.read k w.c.toNat)) →
    v.untrapped (fun k => fl w (v.u.read k w.a.toNat) (v.u.read k w.b.toNat) (v.u.read k w.c.toNat)) →
    Leaves s (mk w) v
      (v.writing w.d.toNat fun k => f w (v.u.read k w.a.toNat) (v.u.read k w.b.toNat) (v.u.read k w.c.toNat)) v.preds
      (orFlags v.lanes fun k => fl w (v.u.read k w.a.toNat) (v.u.read k w.b.toNat) (v.u.read k w.c.toNat))

/-- Immediate instructions that write D from A and the immediate. -/
def GivesI (mk : ImmWord → Instr) (ok : ImmWord → Reg → Prop) (f : ImmWord → Reg → Reg) : Prop :=
  ∀ (s : State) (v : View) (w : ImmWord), Stands s (mk w) w.head v →
    v.noPort [w.a.toNat] → v.hasReg w.d.toNat → (∀ k ∈ v.lanes, ok w (v.u.read k w.a.toNat)) →
    Leaves s (mk w) v (v.writing w.d.toNat fun k => f w (v.u.read k w.a.toNat)) v.preds 0

/-- Instructions whose lanes compute a register from A, and may meet a cause or float conditions. -/
def Computes1 (mk : ArithWord → Instr) (g : ArithWord → Reg → LaneRes) : Prop :=
  ∀ (s : State) (v : View) (w : ArithWord) (r : Nat → Reg) (fl : Nat → BitVec 5), Stands s (mk w) w.head v →
    v.noPort [w.a.toNat] → v.hasReg w.d.toNat →
    (∀ k ∈ v.lanes, g w (v.u.read k w.a.toNat) = .ok (r k, fl k)) → v.untrapped fl →
    Leaves s (mk w) v (v.writing w.d.toNat r) v.preds (orFlags v.lanes fl)

/-- Instructions whose lanes compute a register from A and B. -/
def Computes2 (mk : ArithWord → Instr) (g : ArithWord → Reg → Reg → LaneRes) : Prop :=
  ∀ (s : State) (v : View) (w : ArithWord) (r : Nat → Reg) (fl : Nat → BitVec 5), Stands s (mk w) w.head v →
    v.noPort [w.a.toNat, w.b.toNat] → v.hasReg w.d.toNat →
    (∀ k ∈ v.lanes, g w (v.u.read k w.a.toNat) (v.u.read k w.b.toNat) = .ok (r k, fl k)) → v.untrapped fl →
    Leaves s (mk w) v (v.writing w.d.toNat r) v.preds (orFlags v.lanes fl)

/-- Instructions whose lanes compute a register from A, B and C. -/
def Computes3 (mk : ArithWord → Instr) (g : ArithWord → Reg → Reg → Reg → LaneRes) : Prop :=
  ∀ (s : State) (v : View) (w : ArithWord) (r : Nat → Reg) (fl : Nat → BitVec 5), Stands s (mk w) w.head v →
    v.noPort [w.a.toNat, w.b.toNat, w.c.toNat] → v.hasReg w.d.toNat →
    (∀ k ∈ v.lanes, g w (v.u.read k w.a.toNat) (v.u.read k w.b.toNat) (v.u.read k w.c.toNat) = .ok (r k, fl k)) →
    v.untrapped fl → Leaves s (mk w) v (v.writing w.d.toNat r) v.preds (orFlags v.lanes fl)

/-- Instructions whose lanes decide the predicate D from A and B. -/
def Decides2 (mk : ArithWord → Instr) (g : ArithWord → Reg → Reg → PredRes) : Prop :=
  ∀ (s : State) (v : View) (w : ArithWord) (r : Nat → Pred) (fl : Nat → BitVec 5), Stands s (mk w) w.head v →
    v.noPort [w.a.toNat, w.b.toNat] → v.hasPred w.d.toNat →
    (∀ k ∈ v.lanes, g w (v.u.read k w.a.toNat) (v.u.read k w.b.toNat) = .ok (r k, fl k)) → v.untrapped fl →
    Leaves s (mk w) v v.regs (v.setting w.d.toNat r) (orFlags v.lanes fl)

/-- The instruction completes and P holds of the next state. -/
def Completes (s : State) (i : Instr) (P : State → Prop) : Prop := ∃ t, exec i s = .next t ∧ P t

/-- The instruction completes, nothing changes but its own unit and its core's counters, and P holds of the unit. -/
def Changes (s : State) (i : Instr) (v : View) (P : ProgUnit → Prop) : Prop :=
  ∃ t p, exec i s = .next t ∧ Undisturbed s t v ∧ t.unit v.core v.unit = some p ∧ P p

/-- The unit's split goes on at a PC with the lanes that it had, and the unit's registers and predicates are as they were. -/
def ProgUnit.goesOn (p : ProgUnit) (v : View) (pc : Word) : Prop :=
  p.lanes = v.u.lanes ∧ p.splits.length = v.u.splits.length ∧ (p.split v.split).mask = v.sp.mask ∧
    (p.split v.split).pc = pc ∧ (p.split v.split).waits = [] ∧ ∀ k, k ≠ v.split → p.split k = v.u.split k

/-- No other unit changes. -/
def Apart (s t : State) (v : View) : Prop := ∀ c u, ¬(c = v.core ∧ u = v.unit) → t.unit c u = s.unit c u

/-- The registers and predicates that a unit shows. -/
def ProgUnit.shows (p : ProgUnit) (v : View) (regs : Nat → Nat → Reg) (preds : Nat → Nat → Pred) : Prop :=
  p.lanes.length = v.u.lanes.length ∧
    ∀ k, k < v.u.lanes.length → ∀ n, p.read k n = regs k n ∧ (p.lane k).pred n = preds k n

/-- The unit's split goes on at a PC, which is the entry of a new region: the count has gone up and no store is held
(R148, R149, R216). -/
def ProgUnit.entersAt (p : ProgUnit) (v : View) (pc : Word) : Prop :=
  (p.split v.split).pc = pc ∧ (p.split v.split).rpc = pc ∧ (p.split v.split).mask = v.sp.mask ∧
    (p.split v.split).waits = [] ∧ p.rcnt = v.u.rcnt + 1 ∧ p.pail = []

/-- The instruction completes, and P holds of the next state and of its unit there. -/
def Ends (s : State) (i : Instr) (v : View) (P : State → ProgUnit → Prop) : Prop :=
  ∃ t p, exec i s = .next t ∧ t.unit v.core v.unit = some p ∧ P t p

/-- A region may end: in a context no MSCALE value is pending and no load waits for its answer (R104, R349), and a warp holds no
store that has to wait for an earlier access of another of its splits (R74). -/
def View.mayEnd (v : View) : Prop :=
  (v.u.kind = .context → v.u.pending = [] ∧ ∀ e ∈ v.u.q.loads, e.ans ≠ .pending) ∧
    (v.u.kind = .warp → v.u.lateStore (some v.split) = false)

/-- No request or asynchronous trap holds the unit at a region entry (R224, R225, R242), and its stores may commit (R74). -/
def View.passesEntry (v : View) (s : State) : Prop :=
  (s.myBlk v).stop = none ∧ (s.myBlk v).dividing = false ∧ v.u.asyncs = [] ∧
    (v.u.kind = .warp → v.u.lateStore (some v.split) = false)

/-- The registers of a warp with D and D + 1 written in the selected lanes. -/
def View.writingPair (v : View) (d : Nat) (lo hi : Nat → Reg) (k n : Nat) : Reg :=
  if v.sel.getLsbD k = true ∧ k < v.u.lanes.length ∧ n = d + 1 then v.u.kind.held (hi k) else v.writing d lo k n

/-- A mask result: in D, and at width 128 its high half in D + 1 (R85, R135). -/
def View.masking (v : View) (d : Nat) (t : Ty) (m : Nat → Mask) : Nat → Nat → Reg :=
  if v.u.lanes.length = 128 then
    v.writingPair d (fun k => mkReg ((m k).setWidth 64) t) fun k => mkReg ((m k >>> 64).setWidth 64) t
  else v.writing d fun k => mkReg ((m k).setWidth 64) t

/-- The registers of a context with D written in some clusters; k62 discards (R98, R113). -/
def View.spreading (v : View) (d : Nat) (cs : List Nat) (r : Nat → Reg) (k n : Nat) : Reg :=
  if k ∈ cs ∧ n = d ∧ d ≠ 62 then r k else v.u.read k n

/-- A transfer acts (R80): lanes are selected, and in a warp they are all of its threads. -/
def View.uniform (v : View) : Prop := v.sel ≠ 0 ∧ (v.u.kind = .warp → v.sel = v.act ∧ v.act = v.u.threads)

/-- What an EVBIND binds (R321), its operands being as they should: the slot, the kind, the number, handler and threshold. -/
def View.binds (v : View) (w : EvBindWord) (r : BindReq) : Prop :=
  match w with
  | .word _ slot kind off _ _ x =>
    r.slot = slot.toNat ∧ r.kind = kind.toNat ∧ r.handler = branchTarget v.addr off ∧ v.sel ≠ 0 ∧
      (kind.toNat < 3 ∧ r.num = x.setWidth 64 ∧ r.thresh = 0 ∨
        3 ≤ kind.toNat ∧ ∃ k, v.first = some k ∧ baseTag (v.u.read k (x.toNat % 128)).tag = true ∧
          r.num = (v.u.read k (x.toNat % 128)).v ∧
          r.thresh = (if kind.toNat = 3 then (v.u.read k (x.toNat % 128 + 1)).v else 0) ∧
          (kind.toNat = 3 → countTag (v.u.read k (x.toNat % 128 + 1)).tag = true))
  | .syl w =>
    v.noPort [w.a.toNat, w.b.toNat, w.c.toNat] ∧ r.slot = w.sub.toNat % 8 ∧ r.kind = w.x.toNat % 8 ∧
      ∃ k, v.first = some k ∧
        baseTag (v.u.read k w.a.toNat).tag = true ∧ (3 ≤ r.kind → baseTag (v.u.read k w.b.toNat).tag = true) ∧
        (r.kind = 3 → countTag (v.u.read k w.c.toNat).tag = true) ∧
        r.handler = (v.u.read k w.a.toNat).v ∧ r.handler.toNat % 8 = 0 ∧ r.num = (v.u.read k w.b.toNat).v ∧
        (r.kind = 0 → r.num.toNat < 32) ∧ (r.kind = 1 ∨ r.kind = 2 → r.num.toNat < 64) ∧
        r.thresh = if r.kind = 3 then (v.u.read k w.c.toNat).v else 0

/-- The units that a barrier of a block waits for with count 0: the block's, or the gang's (R89). -/
def State.barUnits (s : State) (b : Block) (id : Nat) : List (Nat × Nat) :=
  if id < 16 then b.liveUnits.map (b.bidx, ·) else s.gangUnits b

/-- The barriers of a block and of its gang stand in their tables (R89). -/
def State.hasBars (s : State) (b : Block) (id : Nat) : Prop :=
  id < 16 ∧ id < b.bars.length ∨
    ∃ g, s.gangOf b = some g ∧ 16 ≤ id ∧ id - 16 < g.bars.length

/-- No other unit changes, but for what a change of a signal tells it: its waits, its pending events and its slots (R168, R191,
R318). -/
def Told (s t : State) (v : View) : Prop :=
  ∀ c u, ¬(c = v.core ∧ u = v.unit) → ∀ p, s.unit c u = some p → ∃ q, t.unit c u = some q ∧ q.splits.length = p.splits.length ∧
    q = { p with splits := q.splits, evp := q.evp, slots := q.slots } ∧
    ∀ k, q.split k = { p.split k with waits := (q.split k).waits }

/-- No line is pinned by another core (R159). -/
def State.unpinned (s : State) (c : Nat) : Prop := ∀ pa, s.pinHolder c pa = none

/-- Read-modify-write, lane by lane in order, of n bytes at each lane's address in a storage read and written by `rd` and `wr`:
the storage, and the old values as T reads them; `new` gives the new value, or none where the bytes stay (R165, R183). -/
def rmwBy (rd : List Host.Cell → Nat → Nat → List Byte) (wr : List Host.Cell → Nat → List Byte → List Host.Cell) (t : Ty)
    (addr : Nat → Nat) (new : Nat → Word → Option Word) : List Nat → List Host.Cell → List Host.Cell × List Word
  | [], m => (m, [])
  | k :: ks, m =>
    let old := (extendLoad (rd m (addr k) t.bytes) t).v
    let m1 := match new k old with
      | some x => wr m (addr k) (storeBytes t x)
      | none => m
    ((rmwBy rd wr t addr new ks m1).1, old :: (rmwBy rd wr t addr new ks m1).2)

/-- Read-modify-write in global memory. -/
def rmw : Ty → (Nat → Nat) → (Nat → Word → Option Word) → List Nat → List Host.Cell → List Host.Cell × List Word :=
  rmwBy cellRead cellWrite

/-- Read-modify-write in a tile memory (R166, R202). -/
def rmwTile : Ty → (Nat → Nat) → (Nat → Word → Option Word) → List Nat → List Host.Cell → List Host.Cell × List Word :=
  rmwBy tileRead tileWrite

/-- No peer command of the issuing unit is without its acknowledgement (R147, R333). -/
def State.acknowledged (s : State) (v : View) : Prop :=
  ∀ b, s.blk v.core = some b → ∀ k ∈ b.cmds, k.engine = .peer → k.unit = v.unit → k.orphan = false →
    k.state ≠ .waiting ∧ k.state ≠ .running

/-- The issuing core has no store held or on its way, no line that it writes is pinned elsewhere, and the unit's peer commands
are acknowledged (R146, R147, R148, R159). -/
def State.drained (s : State) (v : View) : Prop :=
  v.u.pail = [] ∧ (s.core v.core).travel = [] ∧ s.unpinned v.core ∧ s.acknowledged v

/-- No load or atomic that another split of the unit issued earlier is open (R164). -/
def View.alone (v : View) : Prop :=
  ∀ j, j ≠ v.split → ∀ x ∈ (v.u.split j).waits, x.kind ≠ .fill ∧ x.kind ≠ .slice ∧ x.kind ≠ .pinned ∧ x.spans = []

/-- No watchpoint is armed for the instance (R381, R386). -/
def State.unwatched (s : State) (v : View) : Prop := (s.inst (s.instOf v.core)).dbgctl.getLsbD 0 = false

/-- The instruction completes at a PC: registers, predicates, memory, other units and other cores are unchanged. -/
def Goes (s : State) (i : Instr) (v : View) (pc : Word) : Prop :=
  ∃ t p, exec i s = .next t ∧ t.unit v.core v.unit = some p ∧ p.goesOn v pc ∧ p.pail = v.u.pail ∧ p.rcnt = v.u.rcnt ∧
    t.mem = s.mem ∧ (∀ c, c ≠ v.core → t.core c = s.core c) ∧ ∀ u, u ≠ v.unit → t.unit v.core u = s.unit v.core u

/-- The state in which instruction i takes effect: its PC past it, or its bundle open. -/
def State.begun (s : State) (i : Instr) (v : View) : State :=
  match v.u.kind with
  | .context => (openOne i s v).1
  | _ => s.advance v

/-- The state once the instruction, or the bundle of it alone, has completed from t. -/
def State.ended (s : State) (v : View) (t : State) : State :=
  match v.u.kind with
  | .context => closeBundle s v t
  | _ => t.completed v

/-- The lanes that meet a cause in the first group, of those that the instruction checks one after another, that holds one (R17). -/
def View.meeting (v : View) (bad : Nat → Bool) : Mask :=
  maskOfList (((v.groups.find? fun g => g.any bad).getD []).filter bad)

/-- The instruction traps instead (R17, R218, R219): its unit stops with a frame that names the cause, the lanes and the
instruction, to resume at the region entry, and nothing of the instruction has taken effect in its unit but that it has issued (R306). -/
def Traps (s : State) (i : Instr) (v : View) (c : Cause) (lanes : Mask) : Prop :=
  ∃ t p f, exec i s = .next t ∧ t.unit v.core v.unit = some p ∧ p.trap = some f ∧
    f.cause = c ∧ f.kind = 0 ∧ f.unit = v.unit ∧ f.mask = lanes ∧ f.pc = v.addr ∧ f.rk = 0 ∧ f.resume = f.rpc ∧
    p.trapSplit = v.split ∧ p.lanes = v.u.lanes ∧ p.splits.length = v.u.splits.length ∧
    (∀ k, p.split k = { v.u.split k with last := (p.split k).last, promoted := (p.split k).promoted }) ∧
    p.pail = v.u.pail ∧ p.fpflags = v.u.fpflags

/-! ## Memory instructions -/

/-- The unit's split goes on at the next word in the region that it stands in, its held stores as they were. -/
def ProgUnit.stays (p : ProgUnit) (v : View) : Prop :=
  (p.split v.split).pc = v.next ∧ (p.split v.split).rpc = v.sp.rpc ∧ (p.split v.split).mask = v.sp.mask ∧
    (p.split v.split).waits = [] ∧ p.rcnt = v.u.rcnt ∧ p.pail = v.u.pail

/-- The VA of a lane's access (R171). -/
def View.va (v : View) (w : MemWord) (k : Nat) : Word := memVa (v.u.read k w.a.toNat).v w.off

/-- The bytes that a load at a scope reads (R145, R175): those of the L1's copy where there is one, else those at home. -/
def State.copyOr (s : State) (c sc pa n : Nat) : List Byte :=
  if sc < 3 then ((s.l1Line c pa).map (·.read pa n)).getD (cellRead s.mem pa n) else cellRead s.mem pa n

/-- The storage of every core, and what its stores on their way hold, is that of another state. -/
def SameStorage (s t : State) : Prop :=
  t.mem = s.mem ∧ ∀ c, (t.core c).travel = (s.core c).travel ∧ (t.core c).tile = (s.core c).tile ∧
    (t.core c).bst = (s.core c).bst ∧ (t.core c).acc = (s.core c).acc

/-- A store is held (R148, R150): by a warp in its pail, and no memory changes; one that finds 32 held stores ends the
region before it, unless its unit is held at that entry (R224, R225); the front end and the handler commit theirs at once. -/
def HoldsStore (s : State) (i : Instr) (v : View) (h : HeldStore) : Prop :=
  (v.u.kind = .warp → v.u.pail.length < 32 → Ends s i v fun t p =>
    (p.split v.split).pc = v.next ∧ (p.split v.split).rpc = v.sp.rpc ∧ (p.split v.split).mask = v.sp.mask ∧
      p.rcnt = v.u.rcnt ∧ p.pail = v.u.pail ++ [h] ∧ p.shows v v.regs v.preds ∧ SameStorage s t ∧ Apart s t v) ∧
    (v.u.kind = .warp → 32 ≤ v.u.pail.length → v.passesEntry s → Ends s i v fun t p =>
      (p.split v.split).pc = v.next ∧ (p.split v.split).rpc = v.addr ∧ (p.split v.split).mask = v.sp.mask ∧
        p.rcnt = v.u.rcnt + 1 ∧ p.pail = [h] ∧ p.shows v v.regs v.preds ∧ t.mem = s.mem ∧ Apart s t v) ∧
    (v.u.kind = .front ∨ v.u.kind = .handler → Ends s i v fun t p =>
      p.stays v ∧ p.shows v v.regs v.preds ∧ SameStorage (s.commitStore v.core v.unit h) t ∧ Apart s t v)

/-- The contributions of a group of an AMX (R358): a lane's B where the lane takes part. -/
def View.amxParts (v : View) (w : AtomWord) (g : List Nat) : List Word :=
  (List.range 32).map fun q =>
    if g.contains (g.head?.getD 0 / 32 * 32 + q) then (v.u.read (g.head?.getD 0 / 32 * 32 + q) w.b.toNat).v
    else if w.t == .f32 then 0 else 0x7F00

/-- The groups' updates of their records, in order: the memory, and each record's COUNT before (R358, R360). -/
def amxRun (r4 : Bool) (t : Ty) (addr : List Nat → Nat) (parts : List Nat → List Word) :
    List (List Nat) → List Host.Cell → List Host.Cell × List Word
  | [], m => (m, [])
  | g :: gs, m =>
    let r := amxRecord r4 t (cellRead m (addr g) (recordSize r4)) (parts g)
    let rest := amxRun r4 t addr parts gs (cellWrite m (addr g) r.1)
    (rest.1, .ofNat 64 r.2 :: rest.2)

/-- An engine command issues (R327): it joins the block's commands under the next sequence number, with its unit and PC and
still waiting; the unit enters a new region at the next word, and D is written. -/
def Commands (s : State) (i : Instr) (v : View) (k : Cmd) (regs : Nat → Nat → Reg) : Prop :=
  Ends s i v fun t p => p.entersAt v v.next ∧ p.shows v regs v.preds ∧ Apart s t v ∧
    (v.u.kind ≠ .context → t.mem = s.mem) ∧
    ∃ b b', s.blk v.core = some b ∧ t.blk v.core = some b' ∧ b'.seq = b.seq + 1 ∧
      b'.cmds.head? = some { k with seq := b.seq, unit := v.unit, pc := v.addr }

/-- A source that names a VA as an engine command wants it (R327). -/
def Reg.names (r : Reg) (n : Nat) : Prop := baseTag r.tag = true ∧ r.v.toNat % n = 0

/-! ## Rounding -/

/-- The formats of the scalar and packed floats of R272. -/
def binaryFmts : List Fmt := [fmt64, fmt32, fmt16, fmtB16]

/-- A pattern with its conditions is what the exact magnitude n · 2^e, n not 0, rounds to (R257): a finite value less than one unit
of its last place away, on the side that the mode says, in .rn at most half a unit away and even at just half, with NX where it is
not exact; or, the magnitude being above MAX, what the table of R257 gives for an overflow, with OF and NX. -/
def Fmt.RoundsTo (f : Fmt) (rm : Nat) (neg : Bool) (n : Nat) (e : Int) (r : FRes) : Prop :=
  (∃ (k : Nat) (q : Int), f.val r.1 = .fin neg k q ∧ r.2.getLsbD 2 = false ∧
    let z := min e q
    let x := n * 2 ^ (e - z).toNat
    let ulp := 2 ^ (q - z).toNat
    let y := k * ulp
    (r.2.getLsbD 4 = true ↔ x ≠ y) ∧ x < y + ulp ∧ y < x + ulp ∧
    (rm = 0 → 2 * x ≤ 2 * y + ulp ∧ 2 * y ≤ 2 * x + ulp ∧ (2 * x = 2 * y + ulp ∨ 2 * y = 2 * x + ulp → k % 2 = 0)) ∧
    (rm = 1 → y ≤ x) ∧ (rm = 2 → if neg then x ≤ y else y ≤ x) ∧ (rm = 3 → if neg then y ≤ x else x ≤ y)) ∨
  (r.2 = fOF ||| fNX ∧
    r.1 = (if rm = 1 ∨ rm = 2 ∧ neg = false ∨ rm = 3 ∧ neg = true then f.signed neg f.maxP else f.infP neg) ∧
    ∀ (k : Nat) (q : Int), f.val f.maxP = .fin false k q →
      k * 2 ^ (q - min e q).toNat < n * 2 ^ (e - min e q).toNat)

/-- A pattern with its conditions is the exact sum of two dyadics, rounded once; an exact zero is + but for a sum of opposite-signed
values in .rd (R257). -/
def Fmt.Sums (f : Fmt) (rm : Nat) (sx : Bool) (nx : Nat) (ex : Int) (sy : Bool) (ny : Nat) (ey : Int) (r : FRes) : Prop :=
  let e := min ex ey
  let t := sgn sx nx * 2 ^ (ex - e).toNat + sgn sy ny * 2 ^ (ey - e).toNat
  (t = 0 → r = (f.signed (sx != sy && rm == 2) 0, 0)) ∧ (t ≠ 0 → f.RoundsTo rm (decide (t < 0)) t.natAbs e r)

/-- Sums, differences, products and fused products and sums of finite values are exact and rounded once; a product takes the XOR of
the signs (R257). -/
def ExactThenRounded : Prop :=
  ∀ (f : Fmt) (rm a b c : Nat) (sa sb sc : Bool) (na nb nc : Nat) (ea eb ec : Int), f ∈ binaryFmts → rm < 4 →
    f.val a = .fin sa na ea → f.val b = .fin sb nb eb → f.val c = .fin sc nc ec →
    f.Sums rm sa na ea sb nb eb (f.add rm a b) ∧ f.Sums rm sa na ea (!sb) nb eb (f.sub rm a b) ∧
      (na * nb = 0 → f.mul rm a b = (f.signed (sa != sb) 0, 0)) ∧
      (na * nb ≠ 0 → f.RoundsTo rm (sa != sb) (na * nb) (ea + eb) (f.mul rm a b)) ∧
      f.Sums rm (sa != sb) (na * nb) (ea + eb) sc nc ec (f.fma rm a b c)

/-- A bound rounded outward is not beyond its value, and the interval sum encloses the exact sums of its sources' bounds (R264,
R274). -/
def OutwardBounds : Prop :=
  (∀ (neg : Bool) (n : Nat) (e : Int), (fmt32.val (outDown (.fin neg n e))).cmp (.fin neg n e) ≠ .gt ∧
      (fmt32.val (outUp (.fin neg n e))).cmp (.fin neg n e) ≠ .lt) ∧
    ∀ (a b : Nat × Nat) (lo hi : Nat) (sx sy : Bool) (nx ny : Nat) (ex ey : Int), ivalAdd a b = some (lo, hi) →
      let t := addDyadic sx nx ex sy ny ey
      let sum : Val := .fin (decide (t.1 < 0)) t.1.natAbs t.2
      (fmt32.val a.1 = .fin sx nx ex → fmt32.val b.1 = .fin sy ny ey → (fmt32.val lo).cmp sum ≠ .gt) ∧
        (fmt32.val a.2 = .fin sx nx ex → fmt32.val b.2 = .fin sy ny ey → (fmt32.val hi).cmp sum ≠ .lt)

/-! ## The heap -/

/-- Every block of a launch's heap, free, allocated or on the exchange: its address and class (R192, R194). -/
def Launch.heapBlocks (l : Launch) : List (Nat × Nat) :=
  l.heaps.flatMap (fun h => h.2.free ++ h.2.used) ++ l.exchange.map fun x => (x.2.1, x.2.2)

/-- Two blocks have no byte in common. -/
def apartBlocks (x y : Nat × Nat) : Prop := x.1 + 2 ^ x.2 ≤ y.1 ∨ y.1 + 2 ^ y.2 ≤ x.1

/-- The blocks of a heap are of the 17 classes, aligned to their sizes and disjoint, and each cell has its lists once (R192). -/
def Launch.HeapSound (l : Launch) : Prop :=
  (∀ x ∈ l.heapBlocks, 4 ≤ x.2 ∧ x.2 ≤ 20 ∧ 2 ^ x.2 ∣ x.1) ∧ l.heapBlocks.Pairwise apartBlocks ∧ (l.heaps.map (·.1)).Nodup

/-! ## Device events -/

/-- A management command of a code stands in FWCMD with GO = 1 and no result, at a level that accepts it (R366). -/
def State.commanded (s : State) (code : Nat) (levels : List Nat) : Prop :=
  s.dev.go = true ∧ s.dev.cmdDone = none ∧ s.dev.cmd.toNat = code ∧ s.dev.level.toNat ∈ levels

/-- The management command has its result (R366), and P holds. -/
def Answers (s : State) (i : Instr) (r : Nat) (P : State → Prop) : Prop :=
  Completes s i fun t => t.dev.cmdDone = some (.ofNat 8 r) ∧ P t

/-- No core holds a block. -/
def State.empty (s : State) : Prop := ∀ c, s.blk c = none

/-- The block of a core, and every block of its gang, is asked to stop where nothing has asked before (R64, R227). -/
def Stopping (s t : State) (c : Nat) (b : Block) (r : StopReq) : Prop :=
  ∀ k ∈ s.gangCores b, ∀ o, s.blk k = some o → o.stop = none → ∃ o', t.blk k = some o' ∧
    o'.stop = some (if k = c then r else { r with cause := .preempt, state := min r.state 2 })

/-- Queue q of instance i exists and has its place in the state (R294). -/
def State.hasQueue (s : State) (i q : Nat) : Prop :=
  s.queueExists i q = true ∧ i < s.insts.length ∧ q < (s.inst i).queues.length

/-- A command of a block is in a state. -/
def Block.finds (b : Block) (seq : Nat) (x : CmdState) : Prop := ∃ k ∈ b.cmds, k.seq = seq ∧ k.state = x

/-- A split's PC and lanes are those of another. -/
def Split.alike (t r : Split) : Prop := t.pc = r.pc ∧ t.mask = r.mask ∧ t.rpc = r.rpc

end Sys2Proof.Machine
end

