-- ==== Sys2Proof/Certificates/Slice0/Obligations.lean ====
section
/-! DEFINITION. The statements for the provers, by the manual's rules. -/

open Sys2Proof Sys2Proof.Machine

/-- What the machine holds at reset. The rules give the cycle count, the management registers, the instances' registers and
queues, and the tile memory, B store, accumulators and handler bank of every core, all 0 (R40, R198, R207, R218, R220,
R300, R365, R369, R381). The rest is the model's choice: that memory reads 0 before anything is written (log 3), and that
every core starts without a block or a handler, its mailboxes and the home slices empty (log 5). -/
def Obligations.ResetState : Prop :=
  State.reset.cyc = 0 ∧ State.reset.l2 = [] ∧ (∀ a, cellGet State.reset.mem a = 0) ∧
    (State.reset.dev.stat = 0 ∧ State.reset.dev.cmd = 0 ∧ State.reset.dev.go = false ∧ State.reset.dev.result = 0 ∧
      State.reset.dev.evbase = 0 ∧ State.reset.dev.evhead = 0 ∧ State.reset.dev.evtail = 0) ∧
    (∀ k ∈ State.reset.insts, k.trapbase = 0 ∧ k.troot = 0 ∧ k.svcen = 0 ∧ k.dbgctl = 0 ∧ k.trbase = 0 ∧
      k.lastQ = 63 ∧ k.launches = [] ∧ k.queues.length = 64 ∧
      ∀ q ∈ k.queues, q.qbase = 0 ∧ q.qseq = 0 ∧ q.qcva = 0 ∧ q.doorbell = 0 ∧ q.consumed = 0 ∧ q.en = false ∧
        q.stop = false ∧ q.code = 0) ∧
    State.reset.cores.length = Config.numCores ∧
    ∀ k ∈ State.reset.cores, k.blk = none ∧ k.tile = [] ∧ k.bst = [] ∧ k.acc = [] ∧ k.lclk = 0 ∧ k.hnd = none ∧
      k.mail = List.replicate 64 [] ∧ k.hbank = List.replicate 64 { v := 0, tag := .b64 }

/-- Both invariants hold at reset: every memory is canonical (the form is the model's own), and every split of a warp holds
a lane (R69). -/
def Obligations.InvariantsAtReset : Prop :=
   State.reset.MemoriesCanonical ∧ State.reset.SplitsLive

/-- Every step keeps every memory in its canonical form: global memory, and the tile memory, B store and accumulators of
every core. The form is the model's own: equal contents are equal data. -/
def Obligations.MemoriesStayCanonical : Prop :=
  ∀ s t : State, s.MemoriesCanonical → step s = .next t → t.MemoriesCanonical

/-- After every step each split of each warp holds a lane (R69). -/
def Obligations.SplitsStayLive : Prop :=
  ∀ s t : State, s.SplitsLive → step s = .next t → t.SplitsLive

/-- Decoding the encoding of a well-formed instruction gives it back, in each of the four modes (R18 to R30, R38, R43). -/
def Obligations.DecodeEncode : Prop :=
  ∀ (m : Mode) (e : DecEnv) (i : Instr), e.mode = m → i.fits m = true → i.allowed m = true → i.WellFormed e →
    decode m (encodeWord i) = .ok i

/-- Words that the manual writes out, and what they stand for (R125, R136, R277). -/
def Obligations.DecodedWords : Prop :=
  decode .warp 0x000104003030002B = .ok (.icmp { d := 0, a := 3, b := 6, sub := 2, t := .n64 }) ∧
    decode .warp 0x080000000084204A = .ok (.icmpi { d := 0x21, a := 8, t := .i32, imm := 0 }) ∧
    decode .warp 0x10000E0000812050 = .ok (.shfl { d := 9, a := 8, sub := 7, x := 16 }) ∧
    decode .warp 0x000240003890336C = .ok (.fcmp { g := { gm := .ifF, pg := 3 }, d := 1, a := 9, b := 7, t := .iv32 })

/-- A step runs what stands at the PC (R18, R31, R43): where no event is due, the turn is that of a unit that may issue, no
asynchronous trap is taken (R224) and the count of R150 has not been reached, the word fetched at the split's PC is decoded
in the unit's mode and executed; in a context the bundle fetched there, its checks passed, is executed as one dependence
group. A step adds what follows from it and the passing of cycles. Who moves is the agenda's choice (log 2), and when an
asynchronous trap is taken the model's reading (log 57). -/
def Obligations.StepRunsDecoded : Prop :=
  ∀ (s t : State) (c u k : Nat) (slow : Bool) (rest : List Turn) (p : ProgUnit),
    s.due = none → s.agenda = .issue c u k slow :: rest →
    let turn : Turn := .issue c u k slow
    let s1 : State := { s with agenda := rest, cur := { core := c, unit := u, split := k }, slow := slow, bundle := none }
    s1.mayIssue c u k = true → s1.unit c u = some p → (p.kind = .warp ∨ p.kind = .context → p.since < 1024) →
    s1.asyncDue c p k = none →
    (∀ (w : Word) (i : Instr), p.kind ≠ .context → s1.fetchWord c (p.split k).pc = .ok (t, w) → decode p.kind.mode w = .ok i →
      step s = finish s (some turn) (exec i t) ∧
        ∀ r, exec i t = .next r → (actor s (some turn)).bind (r.copiesPinned s) = none →
          step s = .next (r.settle s (some turn)).tick) ∧
    ∀ ws : List Word, p.kind = .context →
      (s1.modBlk c fun b => { b with ctxNow := u - 16 }).fetchBundle c (p.split k).pc (p.k + 6) = .ok (t, some ws) →
      badGroup p.k (syls 0 ws) = false → firstBad p.env (inSlots (syls 0 ws)) = none →
      step s = finish s (some turn) (match runBundle t (syls 0 ws) with
        | .next r => .next (r.switchContext c u)
        | r => r)

/-- IADD, ISUB, IMUL, IMULH, IMAD, IMIN, IMAX, IABS and INEG (R120 to R123): the exact result at the width and sign of T,
clamped with `.sat`, else wrapped, extended, tagged T; nothing else of the machine changes. What such a result reads back
as: the exact one in the range of T, its nearest end with `.sat`, and without the number of the range congruent to it. IDIV
and IREM with no zero divisor (R124): the quotient truncated toward zero, the remainder of the dividend's sign, and the
overflowing quotient. -/
def Obligations.IntegerArithmetic : Prop :=
  (let ok2 : ArithWord → Reg → Reg → Prop := fun w a b => tagMatches w.t a.tag = true ∧ tagMatches w.t b.tag = true
   let val : ArithWord → Reg → Int := fun w r => intVal w.t r.v
   Gives2 .iadd ok2 (fun w a b => intReg w.t w.sat (val w a + val w b)) ∧
     Gives2 .isub ok2 (fun w a b => intReg w.t w.sat (val w a - val w b)) ∧
     Gives2 .imul ok2 (fun w a b => intReg w.t w.sat (val w a * val w b)) ∧
     Gives2 .imulh ok2 (fun w a b => intReg w.t false (val w a * val w b / 2 ^ w.t.width)) ∧
     Gives3 .imad (fun w a b c => ok2 w a b ∧ tagMatches w.t c.tag = true)
       (fun w a b c => intReg w.t w.sat (val w a * val w b + val w c)) ∧
     Gives2 .imin ok2 (fun w a b => intReg w.t false (min (val w a) (val w b))) ∧
     Gives2 .imax ok2 (fun w a b => intReg w.t false (max (val w a) (val w b))) ∧
     Gives1 .iabs (fun w a => tagMatches w.t a.tag = true) (fun w a => intReg w.t w.sat (val w a).natAbs) ∧
     Gives1 .ineg (fun w a => tagMatches w.t a.tag = true) (fun w a => intReg w.t w.sat (-val w a))) ∧
  (∀ (t : Ty) (x : Int), t.isInt = true →
     (intMin t ≤ x → x ≤ intMax t → ∀ sat, intVal t (intReg t sat x).v = x) ∧
       (x < intMin t → intVal t (intReg t true x).v = intMin t) ∧
       (intMax t < x → intVal t (intReg t true x).v = intMax t) ∧
       (intMin t ≤ intVal t (intReg t false x).v ∧ intVal t (intReg t false x).v ≤ intMax t ∧
         (2 : Int) ^ t.width ∣ x - intVal t (intReg t false x).v)) ∧
  (let ok : ArithWord → Reg → Reg → Prop := fun w a b =>
     tagMatches w.t a.tag = true ∧ tagMatches w.t b.tag = true ∧ intVal w.t b.v ≠ 0
   let finished : Ty → Int → Int → Prop := fun t a b => t.signedInt = true ∧ a = intMin t ∧ b = -1
   ∃ q r : Ty → Bool → Int → Int → Int,
     (∀ t sat a b, b ≠ 0 → ¬finished t a b →
       a = q t sat a b * b + r t sat a b ∧ (r t sat a b).natAbs < b.natAbs ∧ 0 ≤ a * r t sat a b) ∧
     (∀ t sat a b, finished t a b → q t sat a b = (if sat then intMax t else intMin t) ∧ r t sat a b = 0) ∧
     Gives2 .idiv ok (fun w a b => intReg w.t w.sat (q w.t w.sat (intVal w.t a.v) (intVal w.t b.v))) ∧
     Gives2 .irem ok (fun w a b => intReg w.t false (r w.t w.sat (intVal w.t a.v) (intVal w.t b.v))))

/-- A zero divisor (R124), sources that do not match T (R120), and the float conditions that FPCTL enables (R263): the trap
names every lane that meets an integer cause, and of a float condition the lanes of the first pass that meets it (log 25:
the model's reading), and nothing is written. -/
def Obligations.ArithmeticTraps : Prop :=
  (∀ (s : State) (v : View) (w : ArithWord) (i : Instr), i = .idiv w ∨ i = .irem w → Stands s i w.head v →
     v.u.kind ≠ .handler → v.unit < 21 → v.noPort [w.a.toNat, w.b.toNat] →
     (∀ k ∈ v.lanes, tagMatches w.t (v.u.read k w.a.toNat).tag = true ∧ tagMatches w.t (v.u.read k w.b.toNat).tag = true) →
     (∃ k ∈ v.lanes, intVal w.t (v.u.read k w.b.toNat).v = 0) →
     Traps s i v .intDivzero (v.meeting fun k => intVal w.t (v.u.read k w.b.toNat).v == 0)) ∧
  (∀ (s : State) (v : View) (w : ArithWord) (i : Instr),
     i = .iadd w ∨ i = .isub w ∨ i = .imul w ∨ i = .imin w ∨ i = .imax w ∨ i = .icmp w → Stands s i w.head v →
     v.u.kind ≠ .handler → v.unit < 21 → v.noPort [w.a.toNat, w.b.toNat] →
     let bad : Nat → Bool := fun k => !(tagMatches w.t (v.u.read k w.a.toNat).tag && tagMatches w.t (v.u.read k w.b.toNat).tag)
     (∃ k ∈ v.lanes, bad k = true) → Traps s i v .tagMismatch (v.meeting bad)) ∧
  (∀ (s : State) (v : View) (w : ArithWord) (r : Nat → Reg) (fl : Nat → BitVec 5) (n : Nat), Stands s (.fadd w) w.head v →
     v.u.kind ≠ .handler → v.unit < 21 → v.noPort [w.a.toNat, w.b.toNat] →
     (∀ k ∈ v.lanes, arith2 w Fmt.add ivalAdd k (v.u.read k w.a.toNat) (v.u.read k w.b.toNat) = .ok (r k, fl k)) →
     let meets := fun k => v.u.fpctl &&& fl k != 0
     let pass := ((v.byPass v.lanes).find? fun g => g.any meets).getD []
     (∃ k ∈ v.lanes, meets k = true) → v.u.fpctl.getLsbD n = true → (∃ k ∈ pass, (fl k).getLsbD n = true) →
     (∀ m, m < n → v.u.fpctl.getLsbD m = true → ∀ k ∈ pass, (fl k).getLsbD m = false) →
     Traps s (.fadd w) v (fpCause n) (maskOfList (pass.filter fun k => (fl k).getLsbD n)))

/-- ICMP and ICMPI (R125): T where the relation of the condition holds, else F, never U; an undefined condition is
ILLEGAL_OP; a write of p7 is discarded; nothing else changes. -/
def Obligations.IntegerComparisons : Prop :=
  let rel : Nat → Int → Int → Bool := fun cc a b => match cc with
    | 0 => a == b
    | 1 => a != b
    | 2 => decide (a < b)
    | 3 => decide (a ≤ b)
    | 4 => decide (b < a)
    | _ => decide (b ≤ a)
  (∀ (s : State) (v : View) (w : ArithWord), Stands s (.icmp w) w.head v →
    v.noPort [w.a.toNat, w.b.toNat] → v.hasPred w.d.toNat →
    (∀ k ∈ v.lanes, tagMatches w.t (v.u.read k w.a.toNat).tag = true ∧ tagMatches w.t (v.u.read k w.b.toNat).tag = true) →
    Leaves s (.icmp w) v v.regs (v.setting w.d.toNat fun k => if rel w.sub.toNat (intVal w.t (v.u.read k w.a.toNat).v)
      (intVal w.t (v.u.read k w.b.toNat).v) then .t else .f) 0) ∧
  (∀ (s : State) (v : View) (w : ImmWord), Stands s (.icmpi w) w.head v →
    v.noPort [w.a.toNat] → v.hasPred (w.d.toNat % 8) →
    (∀ k ∈ v.lanes, tagMatches w.t (v.u.read k w.a.toNat).tag = true) →
    Leaves s (.icmpi w) v v.regs (v.setting (w.d.toNat % 8) fun k => if rel (w.d.toNat / 8 % 8)
      (intVal w.t (v.u.read k w.a.toNat).v) (intVal w.t w.widen) then .t else .f) 0) ∧
  (∀ (s : State) (v : View) (w : ArithWord), Faces s (.icmp w) w.head v → (v.u.kind = .context → v.cl < v.u.k) →
    6 ≤ w.sub.toNat → Traps s (.icmp w) v .illegalOp v.whole) ∧
  (∀ (s : State) (v : View) (w : ImmWord), Faces s (.icmpi w) w.head v → (v.u.kind = .context → v.cl < v.u.k) →
    6 ≤ w.d.toNat / 8 % 8 → Traps s (.icmpi w) v .illegalOp v.whole) ∧
  decode .warp 0x000104003030002B = .ok (.icmp { d := 0, a := 3, b := 6, sub := 2, t := .n64 }) ∧
  decode .warp 0x080000000084204A = .ok (.icmpi { d := 0x21, a := 8, t := .i32, imm := 0 })

/-- POPC, CLZ, CTZ and BREV (R123): one bits, leading and trailing zeros among the W bits, and the bits reversed. BFX and
BFI with pos + len within the width, and LEA (R128, R129). -/
def Obligations.BitCountsAndFields : Prop :=
  (let zerosFrom : Ty → (Nat → Bool) → Nat → Prop := fun t bit n =>
     n ≤ t.width ∧ (∀ j, j < n → bit j = false) ∧ (n < t.width → bit n = true)
   Gives1 .popc (fun w a => tagMatches w.t a.tag = true)
       (fun w a => mkReg (.ofNat 64 ((List.range w.t.width).filter fun j => a.v.getLsbD j).length) .n32) ∧
     (∀ (s : State) (v : View) (w : ArithWord) (n : Nat → Nat) (i : Instr),
       Stands s i w.head v → v.noPort [w.a.toNat] → v.hasReg w.d.toNat →
       (∀ k ∈ v.lanes, tagMatches w.t (v.u.read k w.a.toNat).tag = true) →
       i = .clz w ∧ (∀ k ∈ v.lanes, zerosFrom w.t (fun j => (v.u.read k w.a.toNat).v.getLsbD (w.t.width - 1 - j)) (n k)) ∨
         i = .ctz w ∧ (∀ k ∈ v.lanes, zerosFrom w.t (fun j => (v.u.read k w.a.toNat).v.getLsbD j) (n k)) →
       Leaves s i v (v.writing w.d.toNat fun k => mkReg (.ofNat 64 (n k)) .n32) v.preds 0) ∧
     ∀ (s : State) (v : View) (w : ArithWord) (x : Nat → Word),
       Stands s (.brev w) w.head v → v.noPort [w.a.toNat] → v.hasReg w.d.toNat →
       (∀ k ∈ v.lanes, tagMatches w.t (v.u.read k w.a.toNat).tag = true) →
       (∀ k ∈ v.lanes, ∀ j, j < w.t.width → (x k).getLsbD j = (v.u.read k w.a.toNat).v.getLsbD (w.t.width - 1 - j)) →
       Leaves s (.brev w) v (v.writing w.d.toNat fun k => mkReg (extendTo w.t (x k)) w.t) v.preds 0) ∧
  (let pos : ArithWord → Nat := fun w => w.x.toNat % 64
   let len : ArithWord → Nat := fun w => w.c.toNat % 64 + 1
   let inside : ArithWord → Prop := fun w => pos w + len w ≤ w.t.width
   let ones : ArithWord → Word := fun w => (BitVec.allOnes (len w)).setWidth 64 <<< pos w
   Gives1 .bfx (fun w a => inside w ∧ tagMatches w.t a.tag = true)
       (fun w a => mkReg (if w.t.signedInt then (a.v.extractLsb' (pos w) (len w)).signExtend 64
         else (a.v.extractLsb' (pos w) (len w)).setWidth 64) w.t) ∧
     Gives2 .bfi (fun w a b => inside w ∧ tagMatches w.t a.tag = true ∧ countTag b.tag = true)
       (fun w a b => mkReg (extendTo w.t ((a.v &&& ~~~ones w) ||| ((b.v <<< pos w) &&& ones w))) w.t) ∧
     Gives2 .lea (fun w a b => tagMatches w.t a.tag = true ∧ countTag b.tag = true)
       (fun w a b => mkReg (a.v + b.v <<< (w.x.toNat % 8)) w.t))

/-- AND, OR, XOR, NOT and ANDN (R126): all 64 bits, whatever T and whatever the sources' tags, and the result tagged B64. A
word that passes the checks with T = B64 raises TAG_MISMATCH with a T outside the rule's five. -/
def Obligations.LogicInstructions : Prop :=
  let any2 : ArithWord → Reg → Reg → Prop := fun _ _ _ => True
  Gives2 .and any2 (fun _ a b => mkReg (a.v &&& b.v) .b64) ∧
    Gives2 .or any2 (fun _ a b => mkReg (a.v ||| b.v) .b64) ∧
    Gives2 .xor any2 (fun _ a b => mkReg (a.v ^^^ b.v) .b64) ∧
    Gives2 .andn any2 (fun _ a b => mkReg (a.v &&& ~~~b.v) .b64) ∧
    Gives1 .not (fun _ _ => True) (fun _ a => mkReg (~~~a.v) .b64) ∧
    ∀ (s : State) (v : View) (w : ArithWord) (mk : ArithWord → Instr), mk ∈ [.and, .or, .xor, .andn, .not] →
      (∀ t : Ty, t = .b64 ∨ t = .i32 ∨ t = .n32 ∨ t = .i64 ∨ t = .n64 →
        (preCheck v (mk { w with t := t }) = none ↔ preCheck v (mk { w with t := .b64 }) = none)) ∧
      (preCheck v (mk w) = none → w.sub = 0 ∧ w.c = 0 ∧ w.x = 0) ∧
      (Faces s (mk w) w.head v → preCheck v (mk { w with t := .b64 }) = none →
        w.t ≠ .b64 → w.t ≠ .i32 → w.t ≠ .n32 → w.t ≠ .i64 → w.t ≠ .n64 → Traps s (mk w) v .tagMismatch v.whole)

/-- SHL, SHR, SAR, ROTL and the immediate shifts (R127, R130) at the width of T, for every count; ANDI, ORI and XORI
(R130). -/
def Obligations.Shifts : Prop :=
  (let ok : ArithWord → Reg → Reg → Prop := fun w a b => tagMatches w.t a.tag = true ∧ countTag b.tag = true
   let okI : ImmWord → Reg → Prop := fun w a => tagMatches w.t a.tag = true
   let left : (n : Nat) → BitVec n → Nat → BitVec n := fun _ x c => x <<< c
   let right : (n : Nat) → BitVec n → Nat → BitVec n := fun _ x c => x >>> c
   let arith : (n : Nat) → BitVec n → Nat → BitVec n := fun _ x c => x.sshiftRight c
   let rot : (n : Nat) → BitVec n → Nat → BitVec n := fun _ x c => x.rotateLeft c
   Gives2 .shl ok (fun w a b => mkReg (shifted left w.t a.v b.v.toNat) w.t) ∧
     Gives2 .shr ok (fun w a b => mkReg (shifted right w.t a.v b.v.toNat) w.t) ∧
     Gives2 .sar ok (fun w a b => mkReg (shifted arith w.t a.v b.v.toNat) w.t) ∧
     Gives2 .rotl ok (fun w a b => mkReg (shifted rot w.t a.v b.v.toNat) w.t) ∧
     GivesI .shli okI (fun w a => mkReg (shifted left w.t a.v w.widen.toNat) w.t) ∧
     GivesI .shri okI (fun w a => mkReg (shifted right w.t a.v w.widen.toNat) w.t) ∧
     GivesI .sari okI (fun w a => mkReg (shifted arith w.t a.v w.widen.toNat) w.t)) ∧
  (let anyI : ImmWord → Reg → Prop := fun _ _ => True
   GivesI .andi anyI (fun w a => mkReg (a.v &&& w.widen) .b64) ∧
     GivesI .ori anyI (fun w a => mkReg (a.v ||| w.widen) .b64) ∧
     GivesI .xori anyI (fun w a => mkReg (a.v ^^^ w.widen) .b64))

/-- MOVI, MOVHI, IADDI and IMULI, MOV, RETAG and SEL (R88, R130 to R132). -/
def Obligations.ImmediatesAndMoves : Prop :=
  let okI : ImmWord → Reg → Prop := fun w a => tagMatches w.t a.tag = true
  (∀ (s : State) (v : View) (w : ImmWord), Stands s (.movi w) w.head v → v.hasReg w.d.toNat →
      Leaves s (.movi w) v (v.writing w.d.toNat fun _ => mkReg w.widen w.t) v.preds 0) ∧
    GivesI .movhi (fun _ _ => True)
      (fun w a => mkReg ((BitVec.ofNat 64 w.raw32 <<< 32) ||| (a.v.setWidth 32).setWidth 64) w.t) ∧
    GivesI .iaddi okI (fun w a => intReg w.t false (intVal w.t a.v + intVal w.t w.widen)) ∧
    GivesI .imuli okI (fun w a => intReg w.t false (intVal w.t a.v * intVal w.t w.widen)) ∧
    Gives1 .mov (fun _ _ => True) (fun _ a => mkReg a.v a.tag) ∧
    Gives1 .retag (fun w a => w.t = .iv32 → ivValid a.v = true) (fun w a => mkReg a.v w.t) ∧
    ∀ (s : State) (v : View) (w : ArithWord), Stands s (.sel w) w.head v →
      v.noPort [w.a.toNat, w.b.toNat, w.c.toNat] → v.hasReg w.d.toNat →
      Leaves s (.sel w) v (v.writing w.d.toNat fun k =>
        let r := v.u.read k (match (v.u.lane k).pred (w.sub.toNat % 8) with
          | .t => w.a.toNat
          | .f => w.b.toNat
          | .u => w.c.toNat)
        mkReg r.v r.tag) v.preds 0

/-- READSR (R40, R41, R133): each lane receives the register's value, cut and extended by a 32-bit T, tagged T; and what
every register of R40 reads in every unit. An unlisted number reads zero. WRITESR (R40, R41, R134): the value of the lowest
selected lane goes to EVM, FPCTL or FPFLAGS of the executing unit, bits above the width ignored; in a handler EVP and DEN
are the interrupted unit's, the bits of free slots 0; with no lane selected nothing is written. EVP and DEN outside a
handler, a register that is only read, and an unlisted number in any mode raise PRIVILEGED. That a handler's EVM is the
handler's own mask (log 70), that its FPCTL and FPFLAGS are its own and its WARPID 20 (log 29), and that DEN keeps 7 bits
(log 94) are the model's choice. -/
def Obligations.SpecialRegisters : Prop :=
  ((∀ (s : State) (v : View) (w : ArithWord), Stands s (.readsr w) w.head v → v.hasReg w.d.toNat →
       Leaves s (.readsr w) v
         (v.writing w.d.toNat fun k => mkReg (extendTo w.t (specialReg v s w.a.toNat k)) w.t) v.preds 0) ∧
     ∀ (v : View) (s : State) (k : Nat),
       let b := s.myBlk v
       let r := s.rcd b
       let sr := fun n => specialReg v s n k
       sr 0x00 = .ofNat 64 s.cyc ∧
       sr 0x04 = .ofNat 64 ((b.units.take 16).filter Option.isSome).length ∧ sr 0x05 = .ofNat 64 b.bidx ∧
       sr 0x06 = .ofNat 64 b.gidx ∧ sr 0x07 = .ofNat 64 r.gx ∧ sr 0x08 = .ofNat 64 r.gy ∧ sr 0x09 = .ofNat 64 r.gz ∧
       sr 0x0A = .ofNat 64 b.stage ∧ sr 0x0E = v.u.evm.setWidth 64 ∧ sr 0x0F = .ofNat 64 r.regs ∧
       (s.bundle = none → sr 0x10 = .ofNat 64 (s.core v.core).lclk) ∧ sr 0x11 = .ofNat 64 r.gang ∧
       sr 0x12 = v.u.fpctl.setWidth 64 ∧ sr 0x13 = v.u.fpflags.setWidth 64 ∧ (∀ n, 0x14 < n → sr n = 0) ∧
       (v.u.kind = .warp → sr 0x01 = .ofNat 64 k ∧ sr 0x03 = .ofNat 64 v.u.lanes.length ∧ sr 0x0B = v.sp.mask.setWidth 64 ∧
         sr 0x0C = if v.u.lanes.length = 128 then (v.sp.mask >>> 64).setWidth 64 else 0) ∧
       (v.u.kind = .context → sr 0x01 = .ofNat 64 v.cl ∧ sr 0x03 = .ofNat 64 v.u.k ∧ sr 0x0B = .ofNat 64 (2 ^ v.u.k - 1) ∧
         sr 0x0C = 0) ∧
       (v.u.kind = .front ∨ v.u.kind = .handler → sr 0x01 = 0 ∧ sr 0x03 = 1 ∧ sr 0x0B = 1 ∧ sr 0x0C = 0) ∧
       (v.u.kind ≠ .handler → sr 0x02 = .ofNat 64 v.unit ∧ sr 0x0D = v.u.evp.setWidth 64 ∧ sr 0x14 = .ofNat 64 v.u.den) ∧
       (v.u.kind = .handler → sr 0x02 = 20 ∧ ∀ (h : Handler) (p : ProgUnit), (s.core v.core).hnd = some h →
         h.unit ≠ v.unit → s.unit v.core h.unit = some p → sr 0x0D = p.evp.setWidth 64 ∧ sr 0x14 = .ofNat 64 p.den)) ∧
  ((∀ (s : State) (v : View) (w : ArithWord), Stands s (.writesr w) w.head v → v.noPort [w.a.toNat] →
       w.d = 0x0E ∨ w.d = 0x12 ∨ w.d = 0x13 →
       Changes s (.writesr w) v fun p => p.goesOn v v.next ∧
         let set : Nat → Nat → Nat → Nat := fun n width old => match v.first with
           | some k => if w.d.toNat = n then (v.u.read k w.a.toNat).v.toNat % 2 ^ width else old
           | none => old
         p.evm.toNat = set 0x0E 8 v.u.evm.toNat ∧ p.fpctl.toNat = set 0x12 5 v.u.fpctl.toNat ∧
           p.fpflags.toNat = set 0x13 5 v.u.fpflags.toNat ∧ p.evp = v.u.evp ∧ p.den = v.u.den ∧ p.div = v.u.div ∧
           p.rets = v.u.rets ∧ p.pail = v.u.pail ∧ p.slots = v.u.slots ∧ p.q = v.u.q ∧ p.loops = v.u.loops ∧ p.rcnt = v.u.rcnt) ∧
     (∀ (s : State) (v : View) (w : ArithWord) (h : Handler) (p : ProgUnit), Stands s (.writesr w) w.head v →
       v.u.kind = .handler → (s.core v.core).hnd = some h → h.unit ≠ v.unit → s.unit v.core h.unit = some p →
       w.d = 0x0D ∨ w.d = 0x14 →
       Ends s (.writesr w) v fun t q => q.goesOn v v.next ∧ q.evm = v.u.evm ∧ t.mem = s.mem ∧
         (∀ c, c ≠ v.core → t.core c = s.core c) ∧
         (∀ u, u ≠ v.unit → u ≠ h.unit → t.unit v.core u = s.unit v.core u) ∧
         t.unit v.core h.unit = some (match v.first with
           | none => p
           | some k =>
             let x := (v.u.read k w.a.toNat).v
             if w.d = 0x0D then { p with evp := x.setWidth 8 &&& p.boundSlots } else { p with den := x.toNat % 128 })) ∧
     (∀ (s : State) (v : View) (w : ArithWord), Faces s (.writesr w) w.head v → preCheck v (.writesr { w with d := 0x0E }) = none →
       w.d ≠ 0x0E → w.d ≠ 0x12 → w.d ≠ 0x13 → Traps s (.writesr w) v .privileged v.whole) ∧
     ∀ (v : View) (w : ArithWord), v.u.kind = .handler → preCheck v (.writesr { w with d := 0x0E }) = none →
       w.d ≠ 0x0D → w.d ≠ 0x0E → w.d ≠ 0x12 → w.d ≠ 0x13 → w.d ≠ 0x14 → preCheck v (.writesr w) = some .privileged)

/-- SHFL, BCAST, COMPACT and MATCH (R135 to R137, R140, R141): which lane each lane's D comes from. XMOV and XBCAST (R113):
the plain and the combining move of cluster c + n into each cluster c, and the broadcast. -/
def Obligations.LaneExchange : Prop :=
  ((∀ (s : State) (v : View) (w : ArithWord) (src : Nat → Nat), Stands s (.shfl w) w.head v → v.hasReg w.d.toNat →
       (w.sub.getLsbD 2 = false → ∀ k ∈ v.lanes, countTag (v.u.read k w.b.toNat).tag = true) →
       (∀ k ∈ v.lanes,
         let delta : Nat := if w.sub.getLsbD 2 then w.x.toNat % 128 else (v.u.read k w.b.toNat).v.toNat
         let from_ : Int := if w.sub.toNat % 4 = 0 then (delta : Int) else if w.sub.toNat % 4 = 1 then (k : Int) - delta
           else if w.sub.toNat % 4 = 2 then (k : Int) + delta else ((k ^^^ delta : Nat) : Int)
         src k = if 0 ≤ from_ ∧ Int.toNat from_ ∈ v.lanes then Int.toNat from_ else k) →
       Leaves s (.shfl w) v (v.writing w.d.toNat fun k =>
         mkReg (v.u.read (src k) w.a.toNat).v (v.u.read (src k) w.a.toNat).tag) v.preds 0) ∧
     (∀ (s : State) (v : View) (w : ArithWord) (f n : Nat), Stands s (.bcast w) w.head v → v.hasReg w.d.toNat →
       v.first = some f →
       w.sub = 0 ∧ n = w.x.toNat % 128 ∨ w.sub = 2 ∧ n = f ∨
         w.sub = 1 ∧ n = (v.u.read f w.b.toNat).v.toNat ∧ countTag (v.u.read f w.b.toNat).tag = true →
       Leaves s (.bcast w) v (v.writing w.d.toNat fun _ => if n ∈ v.lanes
         then mkReg (v.u.read n w.a.toNat).v (v.u.read n w.a.toNat).tag else mkReg 0 .und) v.preds 0) ∧
     (∀ (s : State) (v : View) (w : ArithWord) (r : Nat → Reg), Stands s (.compact w) w.head v → v.hasReg w.d.toNat →
       let send := v.lanes.filter fun k => (v.u.lane k).pred (w.sub.toNat % 8) == .t
       (∀ j k : Nat, v.lanes[j]? = some k → r k = match send[j]? with
         | some n => mkReg (v.u.read n w.a.toNat).v (v.u.read n w.a.toNat).tag
         | none => mkReg 0 .und) →
       Leaves s (.compact w) v (v.writing w.d.toNat r) v.preds 0) ∧
     ∀ (s : State) (v : View) (w : ArithWord) (m : Nat → Mask) (q : Nat → Pred), Stands s (.matchLanes w) w.head v →
       let x := fun k => (v.u.read k w.a.toNat).v
       (w.sub = 0 → v.hasReg w.d.toNat → (v.u.lanes.length = 128 → v.hasReg (w.d.toNat + 1)) →
         (∀ k ∈ v.lanes, ∀ j, (m k).getLsbD j = true ↔ j ∈ v.lanes ∧ x j = x k) →
         Leaves s (.matchLanes w) v (v.masking w.d.toNat .b64 m) v.preds 0) ∧
       (w.sub = 1 → v.hasPred w.d.toNat → (∀ k ∈ v.lanes, q k ≠ .u ∧ (q k = .t ↔ ∀ j ∈ v.lanes, x j = x k)) →
         Leaves s (.matchLanes w) v v.regs (v.setting w.d.toNat q) 0)) ∧
  ((∀ (s : State) (v : View) (w : ArithWord), Stands s (.xmov w) w.head v → v.sel ≠ 0 → v.u.lanes.length = v.u.k →
       (w.d = 62 ∨ ∀ k, k < v.u.k → rotated v.u.base w.d.toNat < (v.u.lane k).regs.length) →
       let cs := (List.range v.u.k).filter fun c => c + v.cl < v.u.k
       let x := fun c => v.u.read c w.a.toNat
       let res := fun c => combine (w.sub.toNat - 1) w.t w.rm.toNat (x c).v (x (c + v.cl)).v
       (w.sub = 0 → Leaves s (.xmov w) v
         (v.spreading w.d.toNat cs fun c => mkReg (x (c + v.cl)).v (x (c + v.cl)).tag) v.preds 0) ∧
       (1 ≤ w.sub.toNat → (w.sub.toNat ≤ 3 → ∀ c ∈ cs, tagMatches w.t (x c).tag = true ∧ tagMatches w.t (x (c + v.cl)).tag = true) →
         (∀ c ∈ cs, v.u.fpctl &&& (res c).2 = 0) →
         Leaves s (.xmov w) v (v.spreading w.d.toNat cs fun c => mkReg (res c).1 w.t) v.preds (orFlags cs fun c => (res c).2))) ∧
     ∀ (s : State) (v : View) (w : ArithWord), Stands s (.xbcast w) w.head v → v.sel ≠ 0 → v.u.lanes.length = v.u.k →
       (w.d = 62 ∨ ∀ k, k < v.u.k → rotated v.u.base w.d.toNat < (v.u.lane k).regs.length) →
       Leaves s (.xbcast w) v (v.spreading w.d.toNat (List.range v.u.k) fun _ =>
         mkReg (v.u.read v.cl w.a.toNat).v (v.u.read v.cl w.a.toNat).tag) v.preds 0)

/-- REDUCE and SCAN (R138, R139): the values of the fixed tree over lane ids; and for an integer sum, whatever the tree,
the sum and the prefix sums of the lanes taking part. -/
def Obligations.ReduceAndScan : Prop :=
  (∀ (s : State) (v : View) (w : ArithWord), Stands s (.reduce w) w.head v → v.hasReg w.d.toNat →
      (∀ k ∈ v.lanes, tagMatches w.t (v.u.read k w.a.toNat).tag = true) →
      let x := fun k => if k ∈ v.lanes then some (leafVal w.t (v.u.read k w.a.toNat).v, (0 : BitVec 5)) else none
      let r := treeNode (combine w.sub.toNat w.t w.rm.toNat) x 7 0
      (∀ y, r = some y → v.u.fpctl &&& y.2 = 0 →
        Leaves s (.reduce w) v (v.writing w.d.toNat fun _ => mkReg y.1 w.t) v.preds y.2) ∧
      (w.sub = 0 → w.t.isInt = true →
        Leaves s (.reduce w) v (v.writing w.d.toNat fun _ =>
          intReg w.t false ((v.lanes.map fun k => intVal w.t (v.u.read k w.a.toNat).v).sum)) v.preds 0)) ∧
    ∀ (s : State) (v : View) (w : ArithWord), Stands s (.scan w) w.head v → v.hasReg w.d.toNat →
      (∀ k ∈ v.lanes, tagMatches w.t (v.u.read k w.a.toNat).tag = true) →
      let x := fun k => if k ∈ v.lanes then some (leafVal w.t (v.u.read k w.a.toNat).v, (0 : BitVec 5)) else none
      let upTo := fun k => treePrefix (combine (w.sub.toNat % 8) w.t w.rm.toNat) x (k + 1) 8 0 none
      let r := fun k => if w.sub.getLsbD 3 then (v.lanes.filter (· < k)).getLast?.bind upTo else upTo k
      (v.untrapped (fun k => ((r k).map (·.2)).getD 0) →
        Leaves s (.scan w) v (v.writing w.d.toNat fun k =>
          mkReg (((r k).map (·.1)).getD (scanIdentity (w.sub.toNat % 8) w.t)) w.t) v.preds
          (orFlags v.lanes fun k => ((r k).map (·.2)).getD 0)) ∧
      (w.sub = 0 → w.t.isInt = true →
        Leaves s (.scan w) v (v.writing w.d.toNat fun k => intReg w.t false
          (((v.lanes.filter (· ≤ k)).map fun j => intVal w.t (v.u.read j w.a.toNat).v).sum)) v.preds 0)

/-- PRSET, PRTOI, ITOPR and VOTE (R67, R85 to R87), three-valued. -/
def Obligations.PredicateInstructions : Prop :=
  (∀ (s : State) (v : View) (w : ArithWord) (q : Nat → Pred), Stands s (.prset w) w.head v → v.hasPred w.d.toNat →
      let p := fun k => (v.u.lane k).pred (w.a.toNat % 8)
      let r := fun k => (v.u.lane k).pred (w.b.toNat % 8)
      (∀ k ∈ v.lanes,
        w.sub.toNat = 0 ∧ q k = (match w.a.toNat % 4 with | 0 => .f | 1 => .t | _ => .u) ∨
        w.sub.toNat = 1 ∧ (q k = .f ↔ p k = .f ∨ r k = .f) ∧ (q k = .t ↔ p k = .t ∧ r k = .t) ∨
        w.sub.toNat = 2 ∧ (q k = .t ↔ p k = .t ∨ r k = .t) ∧ (q k = .f ↔ p k = .f ∧ r k = .f) ∨
        w.sub.toNat = 3 ∧ (q k = .t ↔ p k = .f) ∧ (q k = .f ↔ p k = .t) ∨
        w.sub.toNat = 4 ∧ (q k = .u ↔ p k = .u ∨ r k = .u) ∧ (q k = .f → p k = r k) ∧ (q k = .t → p k ≠ r k) ∨
        w.sub.toNat = 5 ∧ q k ≠ .u ∧ (q k = .t ↔ p k = .t) ∨
        w.sub.toNat = 6 ∧ q k ≠ .u ∧ (q k = .t ↔ p k = .f) ∨
        w.sub.toNat = 7 ∧ q k ≠ .u ∧ (q k = .t ↔ p k = .u) ∨
        w.sub.toNat = 8 ∧ q k = p k) →
      Leaves s (.prset w) v v.regs (v.setting w.d.toNat q) 0) ∧
    (∀ (s : State) (v : View) (w : ArithWord) (x : Nat → Nat), Stands s (.prtoi w) w.head v → v.hasReg w.d.toNat →
      (∀ k ∈ v.lanes, x k < 2 ^ 16 ∧ ∀ n, n < 8 → x k / 4 ^ n % 4 = predCode ((v.u.lane k).pred n)) →
      Leaves s (.prtoi w) v (v.writing w.d.toNat fun k => mkReg (.ofNat 64 (x k)) .n32) v.preds 0) ∧
    (∀ (s : State) (v : View) (w : ArithWord), Stands s (.itopr w) w.head v → v.noPort [w.a.toNat] →
      (∀ k ∈ v.lanes, (v.u.lane k).preds.length = 7) →
      Leaves s (.itopr w) v v.regs (fun k n =>
        if v.sel.getLsbD k ∧ k < v.u.lanes.length ∧ n < 7 ∧ w.mask8 / 2 ^ n % 2 = 1
        then predOfCode ((v.u.read k w.a.toNat).v.toNat / 4 ^ n % 4) else v.preds k n) 0) ∧
    ∀ (s : State) (v : View) (w : ArithWord) (m : Mask) (q : Pred), Stands s (.vote w) w.head v →
      let p := fun k => (v.u.lane k).pred (w.a.toNat % 8)
      (w.sub.toNat < 3 → v.hasReg w.d.toNat → (v.u.lanes.length = 128 → v.hasReg (w.d.toNat + 1)) →
        (∀ j, m.getLsbD j = true ↔ j ∈ v.lanes ∧ predCode (p j) = (match w.sub.toNat with | 0 => 1 | 1 => 0 | _ => 2)) →
        Leaves s (.vote w) v (v.masking w.d.toNat .b64 fun _ => m) v.preds 0) ∧
      (w.sub.toNat = 3 → v.hasReg w.d.toNat →
        Leaves s (.vote w) v (v.writing w.d.toNat fun _ => mkReg (.ofNat 64 (v.lanes.filter fun k => p k == .t).length) .n64)
          v.preds 0) ∧
      (w.sub.toNat = 4 → v.hasPred w.d.toNat →
        (q = .f ↔ ∃ k ∈ v.lanes, p k = .f) → (q = .t ↔ ∀ k ∈ v.lanes, p k = .t) →
        Leaves s (.vote w) v v.regs (v.setting w.d.toNat fun _ => q) 0) ∧
      (w.sub.toNat = 5 → v.hasPred w.d.toNat →
        (q = .t ↔ ∃ k ∈ v.lanes, p k = .t) → (q = .f ↔ ∀ k ∈ v.lanes, p k = .f) →
        Leaves s (.vote w) v v.regs (v.setting w.d.toNat fun _ => q) 0)

/-- FADD, FSUB, FMUL, FFMA, FMIN, FMAX, FDIV and FSQRT (R261, R263, R272 to R275): each selected lane's D is the operation
on its sources, element by element in T's format or on intervals, and the conditions met are added to FPFLAGS. A sum, a
difference, a product and a fused product and sum of finite sources are the exact result rounded once by the mode (R257).
The corners of log 26 are the model's reading. -/
def Obligations.FloatArithmetic : Prop :=
  Computes2 .fadd (fun w => arith2 w Fmt.add ivalAdd 0) ∧
    Computes2 .fsub (fun w => arith2 w Fmt.sub ivalSub 0) ∧
    Computes2 .fmul (fun w => arith2 w Fmt.mul ivalMul 0) ∧
    Computes2 .fmin (fun w => arith2 w (fun m _ x y => m.minmax false x y) (ivalMinmax minB) 0) ∧
    Computes2 .fmax (fun w => arith2 w (fun m _ x y => m.minmax true x y) (ivalMinmax maxB) 0) ∧
    Computes2 .fdiv (fun w => arith2 w Fmt.div ivalDiv 0) ∧
    Computes1 .fsqrt (fun w a => if w.t = .iv32 then ivalLane w (onOne ivalSqrt) [a]
      else arith1 w (fun m x => m.sqrt w.rm.toNat x) a) ∧
    (Computes3 .ffma fun w a b c => if w.t = .iv32
      then ivalLane w (fun xs => match xs with | [some a, some b, some c] => ivalFma a b c | _ => none) [a, b, c]
      else floatLane w (fun m xs => match xs with | [x, y, z] => m.fma w.rm.toNat x y z | _ => m.invalid) [a, b, c]) ∧
    ExactThenRounded

/-- FRCP, FRSQ, FEXP2, FLOG2, FSINPI and FCOSPI (R276). FCMP, FCLASS, FRND, FDOT and CVT, and QNT by its groups of 32 lanes
(R277 to R283); a finite value that is put into another format is rounded once by the mode (R257). How the functions of
R276 are rounded correctly is the model's (log 15). -/
def Obligations.FloatFunctions : Prop :=
  (Computes1 .frcp (fun w => fnLane w rcpVal 0) ∧ Computes1 .frsq (fun w => fnLane w rsqVal 0) ∧
     Computes1 .fexp2 (fun w => fnLane w exp2Val 0) ∧ Computes1 .flog2 (fun w => fnLane w log2Val 0) ∧
     Computes1 .fsinpi (fun w => fnLane w sinpiVal 0) ∧ Computes1 .fcospi (fun w => fnLane w cospiVal 0)) ∧
  (Decides2 .fcmp (fun w a b =>
       if w.t = .iv32 then match ivalSources w [a, b] with
         | .error e => .error e
         | .ok [x, y] => .ok (intervalCmp w.sub.toNat x y, 0)
         | .ok _ => .ok (.f, 0)
       else if tagMatches w.t a.tag = false ∨ tagMatches w.t b.tag = false then .error { rank := 0, cause := .tagMismatch }
       else
         let x := (fmtOf w.t).val (srcElem w w.t 0 0 a)
         let y := (fmtOf w.t).val (srcElem w w.t 1 0 b)
         .ok (.of (scalarCmp w.sub.toNat x y), if x.isSnan || y.isSnan then fINV else 0)) ∧
     Gives1 .fclass (fun w a => if w.t = .iv32 then tagMatches .iv32 a.tag = true ∧ ivValid a.v = true else tagMatches w.t a.tag = true)
       (fun w a => mkReg (.ofNat 64 (if w.t = .iv32 then ivalClass (if w.negA then ivalNeg (ivalOf a.v) else ivalOf a.v)
         else classBits (fmtOf w.t) (elem w.t 0 a.v))) .n32) ∧
     Computes1 .frnd (fun w => arith1 w (rndElem w.rm.toNat (w.sub == 1))) ∧
     Computes3 .fdot (fun w => dotLane w 0) ∧
     (∀ (f : Fmt) (rm n : Nat) (neg : Bool) (e : Int), f ∈ binaryFmts → rm < 4 → n ≠ 0 →
       f.RoundsTo rm neg n e (f.ofVal rm (.fin neg n e))) ∧
     (∀ (s : State) (v : View) (w : ArithWord) (r : Nat → Reg) (fl : Nat → BitVec 5), Stands s (.cvt w) w.head v →
       v.noPort [w.a.toNat] → v.hasReg w.d.toNat →
       (∀ k ∈ v.lanes, cvtLane w (v.u.read k w.d.toNat) (v.u.read k w.a.toNat) = .ok (r k, fl k)) → v.untrapped fl →
       Leaves s (.cvt w) v (v.writing w.d.toNat r) v.preds (orFlags v.lanes fl)) ∧
     ∀ (s : State) (v : View) (w : ArithWord), Stands s (.qnt w) w.head v → v.hasReg w.d.toNat →
       (∀ k ∈ v.lanes, tagMatches .f32 (v.u.read k w.a.toNat).tag = true) →
       let x := fun k => fmt32.val (elem .f32 0 (v.u.read k w.a.toNat).v)
       let res := fun k => qntLane w.t w.rm.toNat (qntScale w.t ((v.lanes.filter fun j => j / 32 == k / 32).map x)) (x k)
       v.untrapped (fun k => (res k).2) →
       Leaves s (.qnt w) v (v.writing w.d.toNat fun k => mkReg (.ofNat 64 (res k).1) .n32) v.preds
         (orFlags v.lanes fun k => (res k).2))

/-- The interval group (R256, R264, R284 to R286): IVMAKE, IVLO, IVHI, IVMID, IVWID, IVHULL, IVISECT, IVSQR, IVABS, IVCONT.
A source that is empty as an operand, [−∞, −∞] and [+∞, +∞] among them, gives IVLO +∞ and IVHI −∞. The helpers that round
bounds outward never lose a value, and a sum of intervals encloses the sums of their bounds. IVSPLIT and IVPOP (R247, R287,
R288). One lane whose predicate is U keeps the lower half of its interval, and the lowest open free lane joins its split as
a copy with the upper half; one lane whose predicate is T takes the registers and predicates of the newest den entry, which
leaves the den. IVMAKE's faulting form is the model's reading (log 27). -/
def Obligations.IntervalInstructions : Prop :=
  (Computes2 .ivmake (fun w => ivmakeLane w 0) ∧
     Computes1 .ivmid (fun w => ivalBits w ivalMid 0) ∧ Computes1 .ivwid (fun w => ivalBits w ivalWid 0) ∧
     Computes2 .ivhull (fun w => ivalTwo w ivalHull 0) ∧ Computes2 .ivisect (fun w => ivalTwo w ivalMeet 0) ∧
     Computes1 .ivsqr (fun w a => ivalLane w (onOne ivalSqr) [a]) ∧
     Computes1 .ivabs (fun w a => ivalLane w (onOne ivalAbs) [a]) ∧
     Gives1 .ivlo (fun _ a => tagMatches .iv32 a.tag = true ∧ ivValid a.v = true) (fun _ a =>
       let lo := a.v.toNat % 2 ^ 32
       let hi := a.v.toNat / 2 ^ 32
       mkReg (.ofNat 64 (if lo = 0x7F800000 ∨ hi = 0xFF800000 then 0x7F800000 else if lo = 0x80000000 then 0 else lo)) .f32) ∧
     Gives1 .ivhi (fun _ a => tagMatches .iv32 a.tag = true ∧ ivValid a.v = true) (fun _ a =>
       let lo := a.v.toNat % 2 ^ 32
       let hi := a.v.toNat / 2 ^ 32
       mkReg (.ofNat 64 (if lo = 0x7F800000 ∨ hi = 0xFF800000 then 0xFF800000 else if hi = 0x80000000 then 0 else hi)) .f32) ∧
     OutwardBounds ∧
     Decides2 .ivcont fun w a b =>
       if w.sub = 0 then
         if tagMatches .iv32 a.tag = true ∧ tagMatches .f32 b.tag = true ∧ ivValid a.v = true
         then .ok (.of (ivalHolds (if w.negA then ivalNeg (ivalOf a.v) else ivalOf a.v)
           (fmt32.modify w.negB false (b.v.toNat % 2 ^ 32))), 0)
         else .error { rank := 0, cause := .tagMismatch }
       else match ivalSources w [a, b] with
         | .ok [x, y] => .ok (.of (ivalRel w.sub.toNat x y), 0)
         | _ => .error { rank := 0, cause := .tagMismatch }) ∧
  ((∀ (s : State) (v : View) (w : ArithWord) (i f : Nat) (rest : List Nat) (lo hi : Word), Stands s (.ivsplit w) w.head v →
       v.mayEnd → v.hasReg w.d.toNat →
       (∀ k ∈ v.lanes, tagMatches .iv32 (v.u.read k w.d.toNat).tag = true ∧ ivValid (v.u.read k w.d.toNat).v = true) →
       openTag v w.b.toNat = true → openFree v.u (openMask v w.b.toNat) = f :: rest →
       (v.lanes.filter fun k => (v.u.lane k).pred (w.sub.toNat % 8) == .u) = [i] →
       halves (v.u.read i w.d.toNat).v = some (lo, hi) →
       Ends s (.ivsplit w) v fun _ p =>
         (∀ n, (p.lane i).reg n = if n = w.d.toNat then mkReg lo .iv32 else (v.u.lane i).reg n) ∧
           (∀ n, ((p.lane f).reg n).v = (if n = w.d.toNat then hi else ((v.u.lane i).reg n).v) ∧
             (p.lane f).pred n = (v.u.lane i).pred n) ∧
           (∀ k, k ≠ i → k ≠ f → p.lane k = v.u.lane k) ∧
           (p.split v.split).mask = v.sp.mask ||| BitVec.twoPow 128 f ∧ (p.split v.split).pc = v.next ∧
           p.rcnt = v.u.rcnt + 1 ∧ p.den = v.u.den) ∧
     ∀ (s : State) (v : View) (w : ArithWord) (i : Nat) (bs : List Byte), Stands s (.ivpop w) w.head v →
       openTag v w.b.toNat = true → openFree v.u (openMask v w.b.toNat) = [] → v.u.pail = [] → v.u.den ≠ 0 →
       (v.lanes.filter fun k => (v.u.lane k).pred (w.sub.toNat % 8) == .t) = [i] →
       s.slotRead v.core (s.denVa (s.myBlk v) v.unit (v.u.den - 1)) 0x800 = some bs →
       Ends s (.ivpop w) v fun _ p =>
         (∀ n, n < (v.u.lane i).regs.length → (p.lane i).reg n = denReg bs n) ∧
           (∀ k, k ≠ i → p.lane k = v.u.lane k) ∧ p.den = v.u.den - 1 ∧ (p.split v.split).pc = v.next ∧
           (p.split v.split).mask = v.sp.mask ∧ p.rcnt = v.u.rcnt + 1)

/-- IVMID (R285): the empty interval, the unbounded ones and the bounded ones, whose midpoint is rounded to nearest, kept
within the bounds and written as +0 where it is zero. IVSPLIT's halves meet at that value. -/
def Obligations.IntervalMidpoint : Prop :=
  (∀ (s : State) (v : View) (w : ArithWord) (m : Nat → Nat), Stands s (.ivmid w) w.head v →
    v.noPort [w.a.toNat] → v.hasReg w.d.toNat →
    (∀ k ∈ v.lanes, tagMatches .iv32 (v.u.read k w.a.toNat).tag = true ∧ ivValid (v.u.read k w.a.toNat).v = true) →
    (∀ k ∈ v.lanes,
      let x := if w.negA then ivalNeg (ivalOf (v.u.read k w.a.toNat).v) else ivalOf (v.u.read k w.a.toNat).v
      x = none ∧ m k = 0x7FC00000 ∨ ∃ a b, x = some (a, b) ∧
        (a = negInf ∧ b = posInf ∧ m k = 0 ∨ a = negInf ∧ b ≠ posInf ∧ m k = 0xFF7FFFFF ∨
          a ≠ negInf ∧ b = posInf ∧ m k = 0x7F7FFFFF ∨
          a ≠ negInf ∧ b ≠ posInf ∧ ∃ sa na ea sb nb eb, fmt32.val a = .fin sa na ea ∧ fmt32.val b = .fin sb nb eb ∧
            let sum := addDyadic sa na ea sb nb eb
            let mid := (fmt32.roundInt 0 sum.1 (sum.2 - 1) false).1
            m k = zeroPlus (if ordF32 mid < ordF32 a then a else if ordF32 b < ordF32 mid then b else mid))) →
    Leaves s (.ivmid w) v (v.writing w.d.toNat fun k => mkReg (.ofNat 64 (m k)) .f32) v.preds 0) ∧
    ∀ x lo hi : Word, halves x = some (lo, hi) →
      lo.toNat / 2 ^ 32 = ivalMid (ivalOf x) ∧ hi.toNat % 2 ^ 32 = ivalMid (ivalOf x)

/-- NOP, EVPEND, and YIELD where no other split of the quarter is ready or outside a warp (R75, R92, R322): the next word.
SLEEPUNTIL whose cycle has come, REGION and TRAP (R95, R217, R218, R219, R326): REGION is itself the entry of a new region,
at which a unit with an asynchronous trap, or whose block is asked to stop, stands still (R224, R225); TRAP stops its unit
with SOFT_TRAP, kind 1, the immediate in INFO1, to resume at the next word. LOOP and ENDLOOP (R109, R112): the loop stack,
the branch back with the rotation base stepped, and the fall through. -/
def Obligations.StraightLineAndLoops : Prop :=
  ((∀ (s : State) (v : View) (w : ArithWord), Stands s (.nop w) w.head v → Leaves s (.nop w) v v.regs v.preds 0) ∧
     (∀ (s : State) (v : View) (w : ArithWord), Stands s (.evpend w) w.head v → v.hasPred w.d.toNat →
       Leaves s (.evpend w) v v.regs
         (v.setting w.d.toNat fun _ => if v.u.evp &&& BitVec.ofNat 8 w.mask8 = 0 then .f else .t) 0) ∧
     ∀ (s : State) (v : View) (w : ArithWord), Stands s (.yield w) w.head v →
       let s1 := s.begun (.yield w) v
       let others := s1.readyOthers v.core (s1.myBlk v) v.u.quarter v.unit v.split
       (v.u.kind ≠ .warp ∨ v.sel = 0 ∨ others = [] → Leaves s (.yield w) v v.regs v.preds 0) ∧
       (v.u.kind = .warp → v.sel ≠ 0 → others ≠ [] → Changes s (.yield w) v fun p =>
         p.lanes = v.u.lanes ∧ (p.split v.split).pc = v.next ∧ (p.split v.split).mask = v.sp.mask ∧
           (p.split v.split).waits = [{ kind := .yield, since := s.cyc, res := others.map (.ofNat 64 ·) }])) ∧
  ((∀ (s : State) (v : View) (w : ArithWord) (k : Nat), Stands s (.sleepuntil w) w.head v → v.noPort [w.a.toNat] → v.mayEnd →
       v.first = some k → v.sp.waits = [] → baseTag (v.u.read k w.a.toNat).tag = true →
       (v.u.read k w.a.toNat).v.toNat ≤ s.cyc → (w.sub = 1 → s.copyLate v (w.x.toNat % 64) = false) →
       Ends s (.sleepuntil w) v fun t p => p.entersAt v v.next ∧ p.lanes = v.u.lanes ∧ Apart s t v) ∧
     (∀ (s : State) (v : View) (w : ArithWord), Stands s (.region w) w.head v → v.sel ≠ 0 → v.mayEnd → v.u.pending = [] →
       let entered : Word → State → ProgUnit → Prop := fun pc t p => p.lanes = v.u.lanes ∧ (p.split v.split).pc = pc ∧
         (p.split v.split).rpc = v.addr ∧ p.rcnt = v.u.rcnt + 1 ∧ p.pail = [] ∧ Apart s t v
       (v.passesEntry s → Ends s (.region w) v (entered v.next)) ∧
       (v.u.asyncs ≠ [] ∧ (s.core v.core).hnd = none ∨
           v.u.kind = .warp ∧ (s.myBlk v).stop ≠ none ∧ (s.core v.core).arr.opened = [] →
         Ends s (.region w) v (entered v.addr))) ∧
     ∀ (s : State) (v : View) (w : ImmWord), Stands s (.trap w) w.head v → v.sel ≠ 0 → v.mayEnd → v.u.kind ≠ .handler →
       v.unit < 21 →
       Ends s (.trap w) v fun _ p => p.lanes = v.u.lanes ∧ ∃ f, p.trap = some f ∧ f.cause = .softTrap ∧ f.kind = 1 ∧
         f.rk = 1 ∧ f.unit = v.unit ∧ f.mask = v.sel ∧ f.pc = v.addr ∧ f.resume = v.next ∧
         f.info1 = (match w.site with
           | .word => w.imm.setWidth 64
           | .syl _ _ => (w.imm.setWidth 20).setWidth 64)) ∧
  ((∀ (s : State) (v : View) (w : ArithWord) (k : Nat), Stands s (.loop w) w.head v → v.noPort [w.a.toNat] →
       v.first = some k → tagMatches .n32 (v.u.read k w.a.toNat).tag = true → v.u.loops.length < 8 →
       Changes s (.loop w) v fun p => p.goesOn v v.next ∧
         p.loops = { start := v.next, count := max 1 ((v.u.read k w.a.toNat).v.toNat % 2 ^ 32), base := 0 } :: v.u.loops) ∧
     ∀ (s : State) (v : View) (w : ArithWord) (e : LoopEntry) (rest : List LoopEntry), Stands s (.endloop w) w.head v →
       v.sel ≠ 0 → v.u.loops = e :: rest →
       (1 < e.count → Changes s (.endloop w) v fun p => p.goesOn v e.start ∧
         p.loops = { e with count := e.count - 1, base := (e.base + 1) % 12 } :: rest) ∧
       (e.count ≤ 1 → Changes s (.endloop w) v fun p => p.goesOn v v.next ∧ p.loops = rest))

/-- BRA (R76, R77): where the lanes do not part the PC takes the target or the next word, and nothing else changes. With a
join whose lanes part (R69, R70) the lanes that do not take it go on at the next word, those that do are deferred in an
entry on top of the stack that names the join, and every active lane's nesting counter goes up; where all take it the split
goes to the target and none is deferred. Lanes that disagree without a join raise WRONG_MODE, and a lane whose nesting
counter is 255, or a full divergence stack, raises NEST_OVER (R77, R70). -/
def Obligations.Branches : Prop :=
  ((∀ (s : State) (v : View) (w : BranchWord), Stands s (.bra w) w.head v → v.u.kind ≠ .warp →
       Goes s (.bra w) v (if v.sel ≠ 0 ∧ inClass w.cls ((v.u.lane v.cl).pred w.pb.toNat) = true
         then branchTarget v.addr w.off else v.next)) ∧
     (∀ (s : State) (v : View) (w : BranchWord) (take : Bool), Stands s (.bra w) w.head v → v.u.kind = .warp → w.joff = 0 →
       (∃ k, k < v.u.lanes.length ∧ v.act.getLsbD k = true) → (∀ k, v.u.lanes.length ≤ k → v.act.getLsbD k = false) →
       (∀ k, k < v.u.lanes.length → v.act.getLsbD k = true →
         (v.sel.getLsbD k && inClass w.cls ((v.u.lane k).pred w.pb.toNat)) = take) →
       Goes s (.bra w) v (if take then branchTarget v.addr w.off else v.next))) ∧
  ((∀ (s : State) (v : View) (w : BranchWord) (take : Mask), Stands s (.bra w) w.head v → v.u.kind = .warp → w.joff ≠ 0 →
     (∀ k, take.getLsbD k = true ↔ k ∈ v.lanes ∧ inClass w.cls ((v.u.lane k).pred w.pb.toNat) = true) →
     (∀ k ∈ v.actives, (v.u.lane k).nest ≠ 255) → v.u.div.length < 256 →
     let fall := v.act &&& ~~~take
     Ends s (.bra w) v fun t p =>
       p.div = { dpc := branchTarget v.addr w.off, dmask := if fall = 0 then 0 else take,
                 jpc := branchTarget v.addr w.joff, owed := v.act } :: v.u.div ∧
         (p.split v.split).pc = (if fall = 0 then branchTarget v.addr w.off else v.next) ∧
         (p.split v.split).mask = (if fall = 0 then v.sp.mask else fall) ∧
         (∀ k, k < v.u.lanes.length → (p.lane k).nest = (v.u.lane k).nest + (if v.act.getLsbD k then 1 else 0) ∧
           (p.lane k).regs = (v.u.lane k).regs ∧ (p.lane k).preds = (v.u.lane k).preds) ∧
         p.pail = v.u.pail ∧ p.rcnt = v.u.rcnt ∧ t.mem = s.mem ∧ Apart s t v) ∧
     ∀ (s : State) (v : View) (w : BranchWord), Stands s (.bra w) w.head v → v.u.kind = .warp → v.unit < 21 →
       let takes := fun k => v.sel.getLsbD k = true ∧ inClass w.cls ((v.u.lane k).pred w.pb.toNat) = true
       (w.joff = 0 → (∃ k ∈ v.actives, takes k) → (∃ k ∈ v.actives, ¬takes k) → Traps s (.bra w) v .wrongMode v.act) ∧
       (∀ m : Mask, w.joff ≠ 0 → (∀ k, m.getLsbD k = true ↔ k ∈ v.actives ∧ (v.u.lane k).nest = 255) → m ≠ 0 →
         Traps s (.bra w) v .nestOver m) ∧
       (w.joff ≠ 0 → (∀ k ∈ v.actives, (v.u.lane k).nest ≠ 255) → 256 ≤ v.u.div.length → Traps s (.bra w) v .nestOver v.act))

/-- JMP, CALL, RET and JMPR (R80, R81, R149): where the active set is uniform and selected they transfer, CALL and RET by
way of the return stack and to a new region, a CALL past the last entry and a RET from an empty stack raise CALL_DEPTH;
uniform and not selected they have no effect; in any other case they raise WRONG_MODE on all active lanes. The front end
and contexts are always uniform. -/
def Obligations.UniformTransfers : Prop :=
  (∀ (s : State) (v : View) (w : BranchWord), Stands s (.jmp w) w.head v → v.uniform →
      Goes s (.jmp w) v (branchTarget v.addr w.off)) ∧
    (∀ (s : State) (v : View) (w : ArithWord) (a : Word), Stands s (.jmpr w) w.head v → v.uniform → v.lanes ≠ [] →
      (∀ k ∈ v.lanes, (v.u.read k w.a.toNat).v = a ∧
        ((v.u.read k w.a.toNat).tag = .b64 ∨ (v.u.read k w.a.toNat).tag = .n64)) → a.toNat % 8 = 0 →
      Goes s (.jmpr w) v a) ∧
    (∀ (s : State) (v : View) (w : BranchWord), Stands s (.call w) w.head v → v.uniform → v.mayEnd → v.u.rets.length < 32 →
      Ends s (.call w) v fun t p =>
        p.rets = v.next :: v.u.rets ∧ p.entersAt v (branchTarget v.addr w.off) ∧ p.lanes = v.u.lanes ∧ Apart s t v ∧
          (v.u.kind ≠ .context → t.mem = s.mem)) ∧
    (∀ (s : State) (v : View) (w : ArithWord) (a : Word) (rest : List Word), Stands s (.ret w) w.head v → v.uniform → v.mayEnd →
      v.u.rets = a :: rest → a.toNat % 8 = 0 →
      Ends s (.ret w) v fun t p =>
        p.rets = rest ∧ p.entersAt v a ∧ p.lanes = v.u.lanes ∧ Apart s t v ∧ (v.u.kind ≠ .context → t.mem = s.mem)) ∧
    ∀ (s : State) (v : View) (i : Instr) (h : Head), (∃ w, i = .jmp w ∧ h = w.head) ∨ (∃ w, i = .call w ∧ h = w.head) ∨
        (∃ w, i = .ret w ∧ h = w.head) ∨ (∃ w, i = .jmpr w ∧ h = w.head) → Stands s i h v →
      (v.sel = 0 → Goes s i v v.next) ∧
      (v.u.kind = .warp → v.sel ≠ 0 → ¬(v.act = v.u.threads ∧ v.sel = v.act) → v.unit < 21 →
        Traps s i v .wrongMode v.act) ∧
      (v.uniform → v.u.kind ≠ .handler → v.unit < 21 → (∃ w, i = .call w) ∧ 32 ≤ v.u.rets.length ∨
          (∃ w, i = .ret w) ∧ v.u.rets = [] →
        Traps s i v .callDepth v.act)

/-- JOIN (R79): where lanes are still owed the split waits at the join; the last arrival pops the entry, and all arrived
lanes go on as one split past it, with their nesting counters down and the flag predicate written. When a deadline falls
due in a cycle is the model's reading (log 44). -/
def Obligations.Joins : Prop :=
  ∀ (s : State) (v : View) (w : ImmWord) (n : Nat) (e : DivEntry), Stands s (.join w) w.head v →
    v.u.div.findIdx? (fun e => v.act &&& ~~~e.owed == 0) = some n → v.u.div[n]? = some e → e.jpc = v.addr →
    (∀ k ∈ List.range v.u.lanes.length, (v.u.lane k).preds.length = 7) →
    let arrived := e.arrived ||| v.act
    (e.owed &&& ~~~v.act = 0 → v.mayEnd → Ends s (.join w) v fun _ p =>
      p.div = v.u.div.eraseIdx n ∧ (p.split v.split).mask = arrived ∧ (p.split v.split).pc = v.addr + 8 ∧
        (p.split v.split).joined = false ∧
        ∀ k, k < v.u.lanes.length →
          (p.lane k).regs = (v.u.lane k).regs ∧
          (p.lane k).nest = (if arrived.getLsbD k then (v.u.lane k).nest - 1 else (v.u.lane k).nest) ∧
          ∀ m, (p.lane k).pred m = if arrived.getLsbD k = true ∧ w.joinFlag = some m ∧ m ≠ 7
            then (if e.detached then .t else .f) else (v.u.lane k).pred m) ∧
    (e.owed &&& ~~~v.act ≠ 0 → Changes s (.join w) v fun p =>
      p.lanes = v.u.lanes ∧ (p.split v.split).joined = true ∧ (p.split v.split).pc = v.addr ∧
        (p.split v.split).mask = v.sp.mask ∧
        p.div = v.u.div.set n { e with
          owed := e.owed &&& ~~~v.act, arrived := arrived, flag := w.joinFlag
          deadline := if e.deadline = none ∧ w.imm ≠ 0 then some (s.cyc + 64 * w.imm.toNat) else e.deadline })

/-- EXIT (R60, R73, R82): in a warp the selected lanes leave their split and every entry of the divergence stack, and the
last thread's exit retires the unit; a selected context or front end retires; a handler's EXIT has no effect (the model's
choice, log 28). -/
def Obligations.Exits : Prop :=
  ∀ (s : State) (v : View) (w : ArithWord), Stands s (.exit w) w.head v →
    let left := (v.u.modSplit v.split fun p => { p with mask := p.mask &&& ~~~v.sel }).dropLanes v.sel
    (v.u.kind = .warp → v.mayEnd → left.threads ≠ 0 → Ends s (.exit w) v fun _ p =>
      p.div = left.div ∧ p.lanes = left.lanes ∧ (∀ k, (p.split k).mask = (left.split k).mask) ∧
        (v.u.div = [] → p.lanes = v.u.lanes ∧ (p.split v.split).mask = v.sp.mask &&& ~~~v.sel ∧
          (p.split v.split).pc = v.next)) ∧
    (v.u.kind = .warp → v.mayEnd → left.threads = 0 → Completes s (.exit w) fun t => t.unit v.core v.unit = none) ∧
    (v.u.kind = .front ∨ v.u.kind = .context → v.sel ≠ 0 → v.mayEnd →
      Completes s (.exit w) fun t => t.unit v.core v.unit = none) ∧
    (v.u.kind = .handler ∨ v.u.kind ≠ .warp ∧ v.sel = 0 → Leaves s (.exit w) v v.regs v.preds 0)

/-- BAR and BARARR (R89 to R91): the arrival that completes the count, or with count 0 is the last of the units not yet
retired, begins the next generation; a BARARR that does not is recorded, and its unit goes on. Which units and splits a
barrier waits for is in part the model's reading (log 32). -/
def Obligations.Barriers : Prop :=
  ∀ (s : State) (v : View) (w : ArithWord) (i : Instr) (b : Block), i = .bar w ∨ i = .bararr w → Stands s i w.head v →
    v.sel ≠ 0 → v.mayEnd → s.blk v.core = some b →
    let id := w.sub.toNat
    let count := w.x.toNat
    let bar := s.barrier b id
    s.hasBars b id → count ≤ s.barLimit b id → bar.count = none ∨ bar.count = some count → (b.bidx, v.unit) ∉ bar.arrived →
    (16 ≤ id → s.unpinned v.core) → (v.u.kind = .warp → v.u.elsewhere id = false) →
    (i = .bar w → (v.sp.waits.find? fun x => x.kind == .barrier && x.a == id) = none ∧
      (v.u.kind = .warp → v.u.othersAt v.split id = true)) →
    let met := count ≠ 0 ∧ count ≤ bar.arrived.length + 1 ∨
      count = 0 ∧ ∀ x ∈ s.barUnits b id, x = (b.bidx, v.unit) ∨ x ∈ bar.arrived
    (met → Ends s i v fun t p =>
      p.entersAt v v.next ∧ p.lanes = v.u.lanes ∧
        ∃ b', t.blk v.core = some b' ∧ (t.barrier b' id).gen = (bar.gen + 1) % 2 ^ 32 ∧ (t.barrier b' id).arrived = [] ∧
          (t.barrier b' id).count = none) ∧
    (¬met → i = .bararr w → Ends s i v fun t p =>
      p.entersAt v v.next ∧ p.lanes = v.u.lanes ∧
        ∃ b', t.blk v.core = some b' ∧ (t.barrier b' id).gen = bar.gen ∧ (t.barrier b' id).count = some count ∧
          (t.barrier b' id).arrived = bar.arrived ++ [(b.bidx, v.unit)])

/-- EVMASK, EVCLR and EVUNBIND (R317, R322): the mask set, cleared or replaced, pending bits cleared, and a slot freed with
its pending bit. EVBIND and WAITANY (R318, R321, R323): a slot bound to its token, its pending bit set where the condition
holds already; and the dispatch of the lowest slot that is pending, enabled and chosen. -/
def Obligations.Events : Prop :=
  ((∀ (s : State) (v : View) (w : ArithWord), Stands s (.evmask w) w.head v → v.sel ≠ 0 →
       Changes s (.evmask w) v fun p => p.goesOn v v.next ∧ p.evp = v.u.evp ∧ p.slots = v.u.slots ∧
         let m := BitVec.ofNat 8 w.mask8
         p.evm = (if w.sub.toNat = 0 then v.u.evm ||| m else if w.sub.toNat = 1 then v.u.evm &&& ~~~m else m)) ∧
     (∀ (s : State) (v : View) (w : ArithWord), Stands s (.evclr w) w.head v → v.sel ≠ 0 →
       Changes s (.evclr w) v fun p => p.goesOn v v.next ∧ p.evp = v.u.evp &&& ~~~BitVec.ofNat 8 w.mask8 ∧
         p.evm = v.u.evm ∧ p.slots = v.u.slots) ∧
     ∀ (s : State) (v : View) (w : ArithWord), Stands s (.evunbind w) w.head v → v.sel ≠ 0 →
       Ends s (.evunbind w) v fun t p => p.goesOn v v.next ∧ p.evp = v.u.evp &&& ~~~BitVec.twoPow 8 (w.x.toNat % 8) ∧
         p.evm = v.u.evm ∧ p.slots = v.u.slots.set (w.x.toNat % 8) none ∧ t.mem = s.mem ∧ Apart s t v) ∧
  ((∀ (s : State) (v : View) (w : EvBindWord) (r : BindReq) (now : Bool), Stands s (.evbind w) w.head v → v.binds w r →
       r.slot < v.u.slots.length → r.kind ≤ 4 → s.handlerOk v r.handler = true →
       r.kind ≤ 1 ∧ now = false ∨
         r.kind = 2 ∧ (now = true ↔ ((s.core v.core).mail[r.num.toNat]?).getD [] ≠ []) ∨
         r.kind = 4 ∧ (now = true ↔ r.num.toNat ≤ s.cyc) ∨
         r.kind = 3 ∧ r.num.toNat % 8 = 0 ∧ (∃ pa, s.translate v.core .load r.num = .ok pa ∧ s.pinHolder v.core pa = none ∧
           (s.landLine v.core pa).poisonedIn pa 8 = false ∧
           (now = true ↔ ((s.landLine v.core pa).homeWord pa).toInt ≤ ((r.thresh.setWidth 32).signExtend 64).toInt)) →
       Ends s (.evbind w) v fun _ p => p.goesOn v v.next ∧ p.evm = v.u.evm ∧
         (∀ n, p.evp.getLsbD n = if n = r.slot then now else v.u.evp.getLsbD n) ∧
         (∀ n, n ≠ r.slot → p.slots[n]? = v.u.slots[n]?) ∧
         ∃ e, p.slots[r.slot]? = some (some e) ∧ e.kind = tokenOf r.kind ∧ e.num = r.num ∧ e.handler = r.handler ∧
           e.thresh = (r.thresh.setWidth 32).signExtend 64) ∧
     ∀ (s : State) (v : View) (w : ArithWord) (n : Nat) (e : EventSlot), Stands s (.waitany w) w.head v → v.uniform →
       v.mayEnd → v.hasReg w.d.toNat → n < 8 →
       (v.u.evp &&& v.u.evm &&& BitVec.ofNat 8 w.mask8).getLsbD n = true →
       (∀ m, m < n → (v.u.evp &&& v.u.evm &&& BitVec.ofNat 8 w.mask8).getLsbD m = false) → v.u.slots[n]? = some (some e) →
       Ends s (.waitany w) v fun _ p => p.entersAt v e.handler ∧ p.evp = v.u.evp &&& ~~~BitVec.twoPow 8 n ∧
         p.evm = v.u.evm ∧ p.slots = v.u.slots ∧ p.shows v (v.writing w.d.toNat fun _ => mkReg (.ofNat 64 n) .n32) v.preds)

/-- SEND and MBREAD (R324, R325): a message enters a mailbox of the gang that has room; a read takes the oldest message, or
0 tagged UND where there is none. That a SEND acts within its own step where the fast mode is set is the model's choice
(log 2, log 9). -/
def Obligations.Mailboxes : Prop :=
  (∀ (s : State) (v : View) (w : ArithWord) (k c : Nat), Stands s (.send w) w.head v → v.noPort [w.a.toNat] → v.mayEnd →
      v.first = some k → v.sp.waits = [] → s.slow = false → s.unpinned v.core →
      gridCore v.core ((w.sub.setWidth 2).toInt) (((w.sub >>> 2).setWidth 3).toInt) = some c →
      s.inGang (s.myBlk v) c = true → c < s.cores.length → c < Config.numCores →
      let box := w.x.toNat % 64
      box < (s.core c).mail.length → ((s.core c).mail[box]?.getD []).length < 4 →
      Ends s (.send w) v fun t p => p.entersAt v v.next ∧ p.lanes = v.u.lanes ∧
        ∃ m, m.value = (v.u.read k w.a.toNat).v ∧ (m.far = true ↔ c ≠ v.core) ∧
          (t.core c).mail = (s.core c).mail.modify box (· ++ [m])) ∧
    ∀ (s : State) (v : View) (w : ArithWord), Stands s (.mbread w) w.head v → v.sel ≠ 0 → v.mayEnd → v.hasReg w.d.toNat →
      let box := w.x.toNat % 64
      let held := (s.core v.core).mail[box]?.getD []
      (∀ m rest, held = m :: rest → Ends s (.mbread w) v fun t p =>
        p.entersAt v v.next ∧ p.shows v (v.writing w.d.toNat fun _ => mkReg m.value .n64) v.preds ∧
          (t.core v.core).mail = (s.core v.core).mail.modify box List.tail) ∧
      (held = [] → Ends s (.mbread w) v fun t p =>
        p.entersAt v v.next ∧ p.shows v (v.writing w.d.toNat fun _ => mkReg 0 .und) v.preds ∧
          (t.core v.core).mail = (s.core v.core).mail)

/-- POPD, PUSHD, NEXTTILE and SQPUSH (R48, R49, R57, R93, R94, R304, R305, R335, R336): the decision queue's next entry for
the unit, an entry pushed, the dispenser's next index, and a record for another stage. That an answer arrives within the
step in the fast mode is the model's choice (log 2), and the records of a stage queue live in State (log 40). -/
def Obligations.WorkQueues : Prop :=
  (∀ (s : State) (v : View) (w : ArithWord) (b : Block) (x : Word), Stands s (.popd w) w.head v → v.sel ≠ 0 →
      v.mayEnd → badInterval w.t x = false → v.hasReg w.d.toNat → s.blk v.core = some b →
      let pos := v.u.dqPos.getD b.dqBase
      b.dq[pos - b.dqBase]? = some x →
      Ends s (.popd w) v fun _ p => p.entersAt v v.next ∧ p.dqPos = some (pos + 1) ∧
        p.shows v (v.writing w.d.toNat fun _ => mkReg x w.t) v.preds) ∧
    (∀ (s : State) (v : View) (w : ArithWord) (b : Block), Stands s (.pushd w) w.head v → v.sel ≠ 0 → s.blk v.core = some b →
      (b.readers ≠ [] → b.dq.length < 64 → Ends s (.pushd w) v fun t p => p.goesOn v v.next ∧
        ∃ b', t.blk v.core = some b' ∧ b'.dq = b.dq ++ [(v.u.read 0 w.a.toNat).v] ∧ b'.dqBase = b.dqBase) ∧
      (b.readers = [] → Ends s (.pushd w) v fun t p => p.goesOn v v.next ∧
        ∃ b', t.blk v.core = some b' ∧ b'.dq = b.dq ∧ b'.dqBase = b.dqBase + 1)) ∧
    (∀ (s : State) (v : View) (w : ArithWord) (b : Block) (l : Launch), Stands s (.nexttile w) w.head v → v.sel ≠ 0 →
      v.mayEnd → s.slow = false → v.sp.waits = [] → s.blk v.core = some b → s.launch b.inst b.launch = some l →
      l.rcd.range ≠ 0 →
      let d := l.dispenser (cellOf v.core)
      d.waiting = [] → d.lo < d.hi →
      let taken := fun (t : State) => ∃ l', t.launch b.inst b.launch = some l' ∧
        l'.dispenser (cellOf v.core) = { d with lo := d.lo + 1 }
      (v.u.kind ≠ .context → v.hasReg w.d.toNat → Ends s (.nexttile w) v fun t p => p.entersAt v v.next ∧ taken t ∧
        p.shows v (v.writing w.d.toNat fun _ => mkReg (tileAnswer l.rcd.shape d.lo) .n64) v.preds) ∧
      (v.u.kind = .context → v.cl = 0 → w.d = 60 → Ends s (.nexttile w) v fun t p => p.entersAt v v.next ∧ taken t ∧
        p.lanes = v.u.lanes ∧ p.nextTile = v.u.nextTile ++ [(tileAnswer l.rcd.shape d.lo, s.cyc + 48)])) ∧
    ∀ (s : State) (v : View) (w : ArithWord) (k : Nat) (b : Block) (l : Launch) (here towards : Stage), Stands s (.sqpush w) w.head v →
      v.first = some k → v.mayEnd → s.unpinned v.core → (v.u.kind = .context → w.a.toNat + 8 ≤ 63) →
      s.blk v.core = some b → s.launch b.inst b.launch = some l → l.rcd.flags / 2 % 2 = 1 →
      let t := w.x.toNat % 8
      t < l.rcd.stages → l.stages[b.stage]? = some here → here.succ.getLsbD t = true → l.stages[t]? = some towards →
      towards.recs.length < towards.cap →
      Ends s (.sqpush w) v fun r p => p.entersAt v v.next ∧ p.lanes = v.u.lanes ∧ ∃ l', r.launch b.inst b.launch = some l' ∧
        l'.stages[t]? = some { towards with
          recs := towards.recs ++ [((List.range 8).map fun j => (v.u.read k (w.a.toNat + j)).v, b.gidx)]
          pushed := towards.pushed + 1 }

/-- REGROUP (R83, R84): without a partner p[D] is F; with a waiting partner whose lanes fit, the lower-numbered warp takes
the lanes of both, and goes on past its own REGROUP with the registers outside A to B zero and UND, the flags of both and
p[D] T, and the higher-numbered retires; where they do not fit both go on with p[D] F. COLLAPSE and EXPAND (R110, R111): a
warp becomes a context of K clusters at the target, its active lanes' registers and predicates in clusters 0 up; a context
becomes a warp of width 32. -/
def Obligations.WarpChanges : Prop :=
  (∀ (s : State) (v : View) (w : ArithWord), Stands s (.regroup w) w.head v → v.sel ≠ 0 → v.sel = v.act →
     v.u.splits.length = 1 → v.u.div = [] → v.sp.waits = [] → w.x ≠ 0 → w.a.toNat ≤ w.b.toNat → v.hasPred w.d.toNat →
     v.u.lanes.length ≤ 128 →
     let o : Int := (v.unit : Int) + w.x.toInt
     ((0 ≤ o → o < 16 → s.unit v.core o.toNat = none) → v.mayEnd → Ends s (.regroup w) v fun t p =>
       p.entersAt v v.next ∧ p.shows v v.regs (v.setting w.d.toNat fun _ => .f) ∧ Apart s t v) ∧
     ∀ (q : ProgUnit) (x : Wait), 0 ≤ o → o < 16 → s.unit v.core o.toNat = some q → q.trap = none → q.splits.length = 1 →
       (q.split 0).waits = [x] → x.kind = .partner → x.a = v.unit → x.done = false →
       x.res = [.ofNat 64 w.a.toNat, .ofNat 64 w.b.toNat, .ofNat 64 w.d.toNat] → q.lanes.length ≤ 128 →
       let mine := lanesOf v.sp.mask
       let theirs := lanesOf (q.split 0).mask
       let both := if v.unit < o.toNat then mine.map v.u.lane ++ theirs.map q.lane else theirs.map q.lane ++ mine.map v.u.lane
       let width := if v.unit < o.toNat then v.u.lanes.length else q.lanes.length
       (both.length ≤ width → (∀ l ∈ both, w.d.toNat = 7 ∨ w.d.toNat < l.preds.length) →
         Completes s (.regroup w) fun t => t.unit v.core (max v.unit o.toNat) = none ∧
           ∃ p, t.unit v.core (min v.unit o.toNat) = some p ∧ p.lanes.length = width ∧
             (p.split 0).pc = (if v.unit < o.toNat then v.next else (q.split 0).pc + 8) ∧ (p.split 0).rpc = (p.split 0).pc ∧
             (p.split 0).waits = [] ∧ p.fpflags = v.u.fpflags ||| q.fpflags ∧
             (∀ j, (p.split 0).mask.getLsbD j = true ↔ j < both.length) ∧
             ∀ (j : Nat) (l : Lane), both[j]? = some l →
               (∀ n, n < l.regs.length →
                 (p.lane j).reg n = if w.a.toNat ≤ n ∧ n ≤ w.b.toNat then l.reg n else mkReg 0 .und) ∧
               (p.lane j).nest = 0 ∧ ∀ n, (p.lane j).pred n = if n = w.d.toNat then .t else l.pred n) ∧
       (width < both.length → Completes s (.regroup w) fun t =>
         ∃ p r, t.unit v.core v.unit = some p ∧ t.unit v.core o.toNat = some r ∧
           (p.split 0).pc = v.next ∧ (r.split 0).pc = (q.split 0).pc + 8 ∧ (r.split 0).waits = [] ∧
           (∀ k, k < v.u.lanes.length → (∀ n, p.read k n = v.u.read k n) ∧
             (v.sp.mask.getLsbD k = true → w.d.toNat < 7 → w.d.toNat < (v.u.lane k).preds.length → (p.lane k).pred w.d.toNat = .f)) ∧
           ∀ k, k < q.lanes.length → (∀ n, r.read k n = q.read k n) ∧
             ((q.split 0).mask.getLsbD k = true → w.d.toNat < 7 → w.d.toNat < (q.lane k).preds.length → (r.lane k).pred w.d.toNat = .f))) ∧
  ((∀ (s : State) (v : View) (w : BranchWord) (b : Block) (n : Nat), Stands s (.collapse w) w.head v → v.sel ≠ 0 → v.sel = v.act →
       v.u.splits.length = 1 → v.u.div = [] → s.blk v.core = some b → b.freeContext = some n → 16 + n < b.units.length →
       b.aheadOf .context v.unit (v.sp.firstIssue s.cyc) < b.freeContexts →
       let k := if w.pb.getLsbD 0 then 32 else 16
       v.actives.length ≤ k → k ≤ 16 * b.vgroups →
       let m := min (s.rcd b).regs 62
       Completes s (.collapse w) fun t => t.unit v.core v.unit = none ∧
         ∃ c, t.unit v.core (16 + n) = some c ∧ c.kind = .context ∧ c.k = k ∧ c.lanes.length = k ∧
           (c.split 0).pc = branchTarget v.addr w.off ∧ (c.split 0).rpc = branchTarget v.addr w.off ∧ c.evm = v.u.evm ∧
           c.slots = v.u.slots ∧ c.fpctl = v.u.fpctl ∧ c.fpflags = v.u.fpflags ∧
           ∀ (j i : Nat), (lanesOf v.sp.mask)[j]? = some i → j < k →
             (c.lane j).preds = (v.u.lane i).preds ∧
             ∀ r, r < 62 → (c.lane j).reg r = if r < m then { (v.u.lane i).reg r with dirty := true } else mkReg 0 .und) ∧
     ∀ (s : State) (v : View) (w : BranchWord) (b : Block) (n q : Nat), Stands s (.expand w) w.head v → v.sel ≠ 0 →
       v.mayEnd → s.blk v.core = some b → b.freeWarp = some n → n < b.units.length →
       b.aheadOf .warpSlot v.unit (v.sp.firstIssue s.cyc) = 0 →
       v.u.loops = [] → v.u.q.loads.all (·.popped) = true → v.u.q.addrs = [] → v.u.q.datas = [] → v.u.results.all (·.isEmpty) = true →
       v.u.svc = none → b.vgroups < (s.core v.core).nGroups →
       let lanes := quarterLanes ((s.core v.core).nGroups - b.vgroups)
       placeOne lanes ((List.range lanes.length).map b.demand) (s.rcd b).regs 32 = some q →
       let m := min (s.rcd b).regs 62
       Completes s (.expand w) fun t => t.unit v.core v.unit = none ∧
         ∃ u, t.unit v.core n = some u ∧ u.kind = .warp ∧ u.lanes.length = 32 ∧ u.quarter = q ∧
           (u.split 0).pc = branchTarget v.addr w.off ∧ (∀ j, (u.split 0).mask.getLsbD j = true ↔ j < v.u.k ∧ j < 128) ∧
           u.evm = v.u.evm ∧ u.slots = v.u.slots ∧
           ∀ j, j < v.u.k → j < 32 → (u.lane j).preds = (v.u.lane j).preds ∧
             ∀ r, r < (s.rcd b).regs → (u.lane j).reg r = if r < m then { (v.u.lane j).reg r with dirty := true } else mkReg 0 .und)

/-- LD and LDP (R145, R172 to R177): each selected lane's register, or registers, are loaded, pass by pass and each line of
a pass requested once, in ascending order; nothing else changes but caches. One lane's load gives the bytes of its address
as R145 and R175 find them, the unit's own held stores over them (R74), extended and tagged by T. That a load is served
within its own step in the fast mode is the model's choice (log 2, log 9). -/
def Obligations.Loads : Prop :=
  (∀ (s : State) (v : View) (w : MemWord) (i : Instr) (n : Nat), i = .ld w ∧ n = 1 ∨ i = .ldp w ∧ n = 2 → Stands s i w.head v →
      v.hasReg w.d.toNat → (n = 2 → v.hasReg (w.d.toNat + 1)) → s.unwatched v → s.slow = false → v.sp.waits = [] → v.alone →
      (∀ k ∈ v.lanes, baseTag (v.u.read k w.a.toNat).tag = true ∧ (v.va w k).toNat % (n * w.t.bytes) = 0 ∧
        ∃ pa, s.loadPlace v.core (v.va w k) = .at pa) →
      let acc := v.groups.foldl (LoadAcc.pass w n v (v.va w) fun k => s.loadPlace v.core (v.va w k)) { s := s.begun i v }
      acc.errs = [] →
      let got := fun j k => ((acc.got.lookup k).bind fun (l : List Reg) => l[j]?).getD {}
      Ends s i v fun t p => p.stays v ∧ Apart s t v ∧ ((s.core v.core).travel = [] → t.mem = s.mem) ∧
        p.shows v (if n = 1 then v.writing w.d.toNat (got 0) else v.writingPair w.d.toNat (got 0) (got 1)) v.preds) ∧
    ∀ (s : State) (v : View) (w : MemWord) (k pa : Nat), Stands s (.ld w) w.head v → v.lanes = [k] → v.hasReg w.d.toNat →
      s.unwatched v → s.slow = false → v.sp.waits = [] → v.alone → baseTag (v.u.read k w.a.toNat).tag = true →
      (v.va w k).toNat % w.t.bytes = 0 →
      s.translate v.core .load (v.va w k) = .ok pa → s.pinHolder v.core pa = none → s.window pa = none →
      (s.core v.core).travel = [] → w.t ≠ .iv32 → s.poisonedIn pa w.t.bytes = false →
      (∀ l, s.l1Line v.core pa = some l → l.poisoned = []) →
      Ends s (.ld w) v fun t p => t.mem = s.mem ∧ p.shows v (v.writing w.d.toNat fun _ =>
        extendLoad (overlayPhys v.u.pail pa (s.copyOr v.core w.sc.toNat pa w.t.bytes)) w.t) v.preds

/-- ST and STP (R146, R148, R174, R176, R177): the selected lanes' bytes at their addresses become one held store, lanes
ascending; the front end's travel to their home slices at once. No byte of memory changes yet. -/
def Obligations.Stores : Prop :=
  ∀ (s : State) (v : View) (w : MemWord) (i : Instr) (n : Nat) (pa : Nat → Nat), i = .st w ∧ n = 1 ∨ i = .stp w ∧ n = 2 →
    Stands s i w.head v → s.unwatched v → v.lanes ≠ [] →
    (∀ k ∈ v.lanes, baseTag (v.u.read k w.a.toNat).tag = true ∧
      (∀ j, j < n → tagMatches w.t (v.u.read k (w.b.toNat + j)).tag = true ∧
        badInterval w.t (v.u.read k (w.b.toNat + j)).v = false) ∧
      s.storePlace v.core (v.va w k) (n * w.t.bytes) = .ok (pa k)) →
    let bytes := fun k => (List.range n).flatMap fun j => storeBytes w.t (v.u.read k (w.b.toNat + j)).v
    HoldsStore s i v {
        items := v.lanes.map fun k => { lane := k, place := .phys (pa k), bytes := bytes k }, ch := w.ch,
        pc := v.addr, names := v.requests (v.lanes.map fun k => (k, v.va w k)) } ∧
      (v.u.kind = .front ∨ v.u.kind = .handler → (∀ k ∈ v.lanes, s.window (pa k) = none) → Ends s i v fun t _ =>
        t.mem = s.mem ∧ (t.core v.core).travel = (s.core v.core).travel ++
          v.lanes.map fun k => { pa := pa k, unit := v.unit, bytes := bytes k, ch := w.ch })

/-- ATOM and CAS (R147, R165, R182 to R184): in a core with no store under way the selected lanes' read-modify-writes are
made in memory one after another, and D receives the old values; every other byte of memory is unchanged. AMX (R358 to
R360): each group's record is updated in memory, group by group, and its lanes' D receives the record's COUNT before. That
an atomic is served within its own step in the fast mode is the model's choice (log 2, log 9); the order of AMX's groups is
its reading (log 43). -/
def Obligations.Atomics : Prop :=
  (∀ (s : State) (v : View) (w : AtomWord) (i : Instr) (op : Nat) (pa : Nat → Nat),
     i = .atom w ∧ op = w.sub.toNat ∨ i = .cas w ∧ op = opCas → Stands s i w.head v → v.hasReg w.d.toNat → s.drained v →
     v.alone → s.unwatched v → s.slow = false → v.sp.waits = [] →
     (∀ k ∈ v.lanes, baseTag (v.u.read k w.a.toNat).tag = true ∧ tagMatches w.t (v.u.read k w.b.toNat).tag = true ∧
       (op = opCas → tagMatches w.t (v.u.read k w.c.toNat).tag = true) ∧
       s.storePlace v.core (v.u.read k w.a.toNat).v w.t.bytes = .ok (pa k) ∧ s.window (pa k) = none ∧
       s.poisonedIn (pa k) w.t.bytes = false) →
     let r := rmw w.t pa (fun k old => sliceNew op w.t old (v.u.read k w.b.toNat).v (v.u.read k w.c.toNat).v) v.lanes s.mem
     Ends s i v fun t p => p.entersAt v v.next ∧ t.mem = r.1 ∧ Apart s t v ∧
       p.shows v (v.writing w.d.toNat fun k => mkReg (((v.lanes.zip r.2).lookup k).getD 0) w.t) v.preds) ∧
  (∀ (s : State) (v : View) (w : AtomWord) (pa : List Nat → Nat), Stands s (.amx w) w.head v → v.hasReg w.d.toNat →
     s.drained v → v.alone → s.unwatched v → s.slow = false → v.sp.waits = [] →
     (∀ g ∈ v.amxGroups, amxErr w v s g = .ok (pa g) ∧ s.recordErr (w.sub == 1) (pa g) = none) →
     let r := amxRun (w.sub == 1) w.t pa (v.amxParts w) v.amxGroups s.mem
     Ends s (.amx w) v fun t p => p.entersAt v v.next ∧ t.mem = r.1 ∧ Apart s t v ∧
       p.shows v (v.writing w.d.toNat fun k =>
         mkReg ((((v.amxGroups.zip r.2).find? fun x => x.1.contains k).map (·.2)).getD 0) .n32) v.preds)

/-- PREF, DEMOTE and FENCE (R147, R164, R179, R180, R186): a prefetch brings one lane's line into L1; a demotion gives each
line its priority; an acquiring fence of cell scope or wider empties L1, and a releasing one lands the core's stores. -/
def Obligations.HintsAndFences : Prop :=
  (∀ (s : State) (v : View) (w : MemWord) (i : Instr), i = .pref w ∨ i = .demote w → Stands s i w.head v →
      (∀ k ∈ v.lanes, baseTag (v.u.read k w.a.toNat).tag = true) → s.unpinned v.core →
      Ends s i v fun t p => p.stays v ∧ p.shows v v.regs v.preds ∧ Apart s t v ∧
        ((s.core v.core).travel = [] → t.mem = s.mem) ∧
        (∀ k pa, i = .pref w → v.lanes = [k] → w.ch ≠ 3 → s.translate v.core .load (v.va w k) = .ok pa → s.window pa = none →
          s.pinHolder v.core pa = none → v.core < s.cores.length → ∃ l, t.l1Line v.core pa = some l) ∧
        ∀ k ∈ v.lanes, ∀ pa, i = .demote w → s.translate v.core .load (v.va w k) = .ok pa →
          (∀ l ∈ (t.core v.core).l1, l.addr = pa / 128 * 128 → l.prio = w.ch) ∧
            (v.lanes = [k] → ∀ l ∈ t.l2, l.line = pa / 128 * 128 → l.ins = s.homeIns pa (s.instOf v.core) → l.prio = w.ch)) ∧
    ∀ (s : State) (v : View) (w : MemWord), Stands s (.fence w) w.head v → v.sel ≠ 0 → v.mayEnd → s.unpinned v.core →
      s.acknowledged v → v.alone →
      Ends s (.fence w) v fun t p => p.entersAt v v.next ∧ p.lanes = v.u.lanes ∧ Apart s t v ∧
        (w.d.getLsbD 1 = true → 3 ≤ w.sc.toNat → (t.core v.core).travel = []) ∧
        (w.d.getLsbD 0 = true → 3 ≤ w.sc.toNat → (t.core v.core).l1 = []) ∧
        (s.drained v → v.u.kind ≠ .context → t.mem = s.mem)

/-- ACQ and REL (R153, R155 to R158, R187, R188): an exclusive acquire of a free guard sets HELD in its word, and a shared
one whose COUNT is reached changes nothing; a release adds 1 to COUNT and clears HELD where the block holds the guard. BIND
and UNBIND (R154, R189): an entry is added where the table has room and p[D] says whether the region is bound; entries that
match are removed and p[D] says whether there was one. The fast mode is the model's choice (log 2), and where a pinned
guard's words are kept its reading (log 36). -/
def Obligations.GuardsAndBindings : Prop :=
  ((∀ (s : State) (v : View) (w : MemWord) (k pa : Nat), Stands s (.acq w) w.head v → v.first = some k → v.mayEnd →
       s.unwatched v →
       let shared := w.d.getLsbD 0
       v.noPort (if shared then [w.a.toNat, w.b.toNat] else [w.a.toNat]) → baseTag (v.u.read k w.a.toNat).tag = true →
       (shared = true → countTag (v.u.read k w.b.toNat).tag = true) → (v.va w k).toNat % 8 = 0 →
       s.translate v.core (if shared then .load else .store) (v.va w k) = .ok pa → s.drained v → v.sp.waits = [] →
       s.poisonedIn pa 8 = false →
       let g := s.homeWord pa
       (shared = false → guardHeld g = false → Ends s (.acq w) v fun t p =>
         p.entersAt v v.next ∧ p.lanes = v.u.lanes ∧ Apart s t v ∧
           t.mem = cellWrite s.mem pa (leBytes 8 (2 ^ 63 + guardCount g)) ∧ ∃ b, t.blk v.core = some b ∧ pa ∈ b.held) ∧
       (shared = true → (v.u.read k w.b.toNat).v.toNat % 2 ^ 63 ≤ guardCount g → Ends s (.acq w) v fun t p =>
         p.entersAt v v.next ∧ p.lanes = v.u.lanes ∧ Apart s t v ∧ t.mem = s.mem)) ∧
     ∀ (s : State) (v : View) (w : MemWord) (k pa : Nat) (b : Block), Stands s (.rel w) w.head v → v.first = some k →
       v.mayEnd → s.unwatched v → v.noPort [w.a.toNat] → baseTag (v.u.read k w.a.toNat).tag = true → (v.va w k).toNat % 8 = 0 →
       s.translate v.core .store (v.va w k) = .ok pa → s.drained v → s.slow = false → v.sp.waits = [] →
       s.poisonedIn pa 8 = false → s.blk v.core = some b →
       let g := s.homeWord pa
       Ends s (.rel w) v fun t p => p.entersAt v v.next ∧ p.lanes = v.u.lanes ∧ Apart s t v ∧
         t.mem = cellWrite s.mem pa (leBytes 8 ((guardCount g + 1) % 2 ^ 63 +
           (if guardHeld g = true ∧ pa ∉ b.held then 2 ^ 63 else 0))) ∧ ∃ b', t.blk v.core = some b' ∧ pa ∉ b'.held) ∧
  ((∀ (s : State) (v : View) (w : ArithWord) (k : Nat) (b : Block), Stands s (.bind w) w.head v → v.first = some k →
       s.blk v.core = some b → v.hasPred w.d.toNat →
       let g := v.u.read k w.a.toNat
       let base := v.u.read k w.b.toNat
       let len := v.u.read k w.c.toNat
       let x : Binding := { guard := g.v, base := base.v, len := len.v }
       baseTag g.tag = true → baseTag base.tag = true → countTag len.tag = true → g.v.toNat % 8 = 0 →
       len.v.toNat ≤ 2 ^ 47 → base.v.toNat + len.v.toNat ≤ 2 ^ 64 →
       let leaves := fun (binds : List (Option Binding)) (r : Pred) => Ends s (.bind w) v fun t p =>
         p.stays v ∧ p.shows v v.regs (v.setting w.d.toNat fun _ => r) ∧ Apart s t v ∧ SameStorage s t ∧
           ∃ b', t.blk v.core = some b' ∧ b'.binds = binds
       (len.v = 0 ∨ some x ∈ b.binds → leaves b.binds .t) ∧
       (len.v ≠ 0 → some x ∉ b.binds → none ∉ b.binds → leaves b.binds .f) ∧
       ∀ n, len.v ≠ 0 → some x ∉ b.binds → b.binds[n]? = some none → (∀ m, m < n → b.binds[m]? ≠ some none) →
         leaves (b.binds.set n (some x)) .t) ∧
     ∀ (s : State) (v : View) (w : ArithWord) (k : Nat) (b : Block), Stands s (.unbind w) w.head v → v.first = some k →
       s.blk v.core = some b → v.hasPred w.d.toNat →
       bindErr v (v.u.read k w.a.toNat) (v.u.read k w.b.toNat) (v.u.read k w.c.toNat) (w.sub == 0) = none →
       let goes := fun (x : Binding) => x.guard = (v.u.read k w.a.toNat).v ∧
         (w.sub ≠ 0 ∨ x.base = (v.u.read k w.b.toNat).v ∧ x.len = (v.u.read k w.c.toNat).v)
       ∃ r : Bool, (r = true ↔ ∃ x, some x ∈ b.binds ∧ goes x) ∧ Ends s (.unbind w) v fun t p =>
         p.stays v ∧ p.shows v v.regs (v.setting w.d.toNat fun _ => .of r) ∧ Apart s t v ∧ SameStorage s t ∧
           ∃ b', t.blk v.core = some b' ∧ b'.binds.length = b.binds.length ∧
             ∀ (n : Nat) (x : Binding), b'.binds[n]? = some (some x) ↔ b.binds[n]? = some (some x) ∧ ¬goes x)

/-- SIGNAL and SWAIT (R147, R168, R190, R191): a signal's word is changed in memory and its old value goes to D, or
SIGNAL_RANGE is raised where the new value leaves T, and other units are only told of the value; a wait whose relation
holds goes on, and outside a context one whose relation does not hold parks at its instruction. The fast mode is the
model's choice (log 2). -/
def Obligations.Signals : Prop :=
  (∀ (s : State) (v : View) (w : AtomWord) (k pa : Nat), Stands s (.signal w) w.head v → v.first = some k → v.mayEnd →
      let a := v.u.read k w.a.toNat
      let b := v.u.read k w.b.toNat
      v.noPort [w.a.toNat, w.b.toNat] → v.hasReg w.d.toNat → baseTag a.tag = true → tagMatches w.t b.tag = true →
      s.storePlace v.core a.v 8 = .ok pa → s.window pa = none → s.drained v → v.alone → s.unwatched v →
      s.slow = false ∨ v.u.kind = .context → v.sp.waits = [] → s.poisonedIn pa 8 = false →
      let old := (extendLoad (cellRead s.mem pa w.t.bytes) w.t).v
      (∀ x, signalNew w.sub.toNat w.t old b.v = some x → Ends s (.signal w) v fun t p => p.entersAt v v.next ∧
        t.mem = cellWrite s.mem pa (storeBytes w.t x) ∧ p.shows v (v.writing w.d.toNat fun _ => mkReg old w.t) v.preds ∧
          Told s t v) ∧
      (signalNew w.sub.toNat w.t old b.v = none → v.u.kind ≠ .handler → v.unit < 21 → Ends s (.signal w) v fun _ p =>
        p.lanes = v.u.lanes ∧ ∃ f, p.trap = some f ∧ f.cause = .signalRange ∧ f.kind = 0 ∧ f.mask = v.sel ∧ f.info1 = a.v)) ∧
    ∀ (s : State) (v : View) (w : AtomWord) (k pa : Nat), Stands s (.swait w) w.head v → v.first = some k → v.mayEnd →
      let a := v.u.read k w.a.toNat
      let c := v.u.read k w.c.toNat
      v.noPort [w.a.toNat, w.c.toNat] → baseTag a.tag = true → tagMatches w.t c.tag = true → a.v.toNat % 8 = 0 →
      s.translate v.core .load a.v = .ok pa → s.drained v → s.unwatched v → v.sp.waits = [] → s.poisonedIn pa 8 = false →
      (signalHolds w.sub.toNat w.t (s.homeWord pa) c.v = true → Ends s (.swait w) v fun t p =>
        p.entersAt v v.next ∧ p.lanes = v.u.lanes ∧ t.mem = s.mem ∧ Apart s t v) ∧
      (signalHolds w.sub.toNat w.t (s.homeWord pa) c.v = false → v.u.kind ≠ .context → Ends s (.swait w) v fun t p =>
        p.lanes = v.u.lanes ∧ (p.split v.split).pc = v.addr ∧ p.pail = [] ∧ t.mem = s.mem ∧ Apart s t v ∧
          ∃ x, (p.split v.split).waits = [x] ∧ x.kind = .signal ∧ x.a = pa ∧ x.b = c.v.toNat)

/-- ALLOC and FREE (R192 to R194): the lanes in ascending order take blocks from the heap, their addresses in D tagged N64,
or give them back. A lane that asks for no byte gets 0; any other gets a block of the smallest class that holds its size,
aligned to it, that overlaps no block allocated before, on the exchange or taken by another lane; a size above 2^20, or a
heap without a free block, is HEAP_EMPTY. A freed block returns to its cell, merged with its other half, or goes to the
exchange for it; a VA that starts no allocated block is HEAP_BAD_FREE. The heap stays sound. Which block is taken is left
open (log 2). -/
def Obligations.Heap : Prop :=
  (∀ (s : State) (v : View) (w : ArithWord) (b : Block) (l : Launch), Stands s (.alloc w) w.head v → v.lanes ≠ [] →
      v.hasReg w.d.toNat → s.blk v.core = some b → s.launch b.inst b.launch = some l →
      (∀ k ∈ v.lanes, countTag (v.u.read k w.a.toNat).tag = true) →
      let size := fun i => (v.u.read i w.a.toNat).v.toNat
      let r := allocLanes (cellOf v.core) s.fresh size v.lanes l.heaps
      (v.mayEnd → r.2.2 = [] → Ends s (.alloc w) v fun t p => p.entersAt v v.next ∧ Apart s t v ∧
        (v.u.kind ≠ .context → t.mem = s.mem) ∧ ∃ addr : Nat → Nat, p.shows v (v.writing w.d.toNat fun i => mkReg (.ofNat 64 (addr i)) .n64) v.preds ∧
          ∃ l', t.launch b.inst b.launch = some l' ∧ l'.heaps = r.1 ∧ l'.exchange = l.exchange ∧
            (∀ k ∈ v.lanes, size k = 0 → addr k = 0) ∧
            (l.HeapSound → cellOf v.core ∈ l.heaps.map (·.1) → l'.HeapSound ∧ ∀ k ∈ v.lanes, size k ≠ 0 →
              ∃ c, max (size k) 16 ≤ 2 ^ c ∧ (∀ d, max (size k) 16 ≤ 2 ^ d → c ≤ d) ∧ 2 ^ c ∣ addr k ∧
                (∃ h, l'.heaps.lookup (cellOf v.core) = some h ∧ (addr k, c) ∈ h.used) ∧
                (∀ h ∈ l.heaps, ∀ x ∈ h.2.used, apartBlocks (addr k, c) x) ∧
                (∀ x ∈ l.exchange, apartBlocks (addr k, c) (x.2.1, x.2.2)) ∧
                ∀ j ∈ v.lanes, j ≠ k → size j ≠ 0 → addr j + 1 ≤ addr k ∨ addr k + 2 ^ c ≤ addr j)) ∧
      (∀ k ∈ v.lanes, 2 ^ 20 < size k ∨ size k ≠ 0 ∧ (∀ h ∈ l.heaps, h.2.free = []) → k ∈ r.2.2) ∧
      (r.2.2 ≠ [] → v.u.kind ≠ .handler → v.unit < 21 →
        Traps s (.alloc w) v .heapEmpty (v.meeting fun k => r.2.2.contains k))) ∧
    ∀ (s : State) (v : View) (w : ArithWord) (b : Block) (l : Launch), Stands s (.free w) w.head v → v.lanes ≠ [] →
      s.blk v.core = some b → s.launch b.inst b.launch = some l →
      let va := fun i => (v.u.read i w.a.toNat).v.toNat
      let r := freeLanes (cellOf v.core) va v.lanes l.heaps
      (v.mayEnd → r.2.2 = [] → Ends s (.free w) v fun t p =>
        p.entersAt v v.next ∧ p.lanes = v.u.lanes ∧ Apart s t v ∧ (v.u.kind ≠ .context → t.mem = s.mem) ∧
        ∃ l', t.launch b.inst b.launch = some l' ∧ l'.heaps = r.1 ∧ l'.exchange = l.exchange ++ r.2.1 ∧
          (l.HeapSound → l'.HeapSound ∧ ∀ (k own c : Nat) (h : HeapCell), v.lanes = [k] → va k ≠ 0 →
            l.heaps.lookup own = some h → (va k, c) ∈ h.used →
            (∃ h', l'.heaps.lookup own = some h' ∧ h'.used = h.used.filter (fun x => x.1 != va k) ∧
              (own = cellOf v.core → ∃ x ∈ h'.free, x.1 ≤ va k ∧ va k + 2 ^ c ≤ x.1 + 2 ^ x.2)) ∧
            l'.exchange = l.exchange ++ if own = cellOf v.core then [] else [(own, va k, c)])) ∧
      (∀ k ∈ v.lanes, va k ≠ 0 → (∀ h ∈ l.heaps, ∀ x ∈ h.2.used, x.1 ≠ va k) → k ∈ r.2.2) ∧
      (r.2.2 ≠ [] → v.u.kind ≠ .handler → v.unit < 21 →
        Traps s (.free w) v .heapBadFree (v.meeting fun k => r.2.2.contains k))

/-- TALLOC's base (R208): the lowest at which the units fit beside the ranges that are taken. TALLOC, TFREE and TINFO
(R198, R205, R208 to R210): a free number is given a handle at the lowest base, in every block of the gang at level 1; a
handle with no access to complete is removed; and its shape or place word is read. What keeps a handle from being freed is
in part the model's reading (log 35). -/
def Obligations.TileTable : Prop :=
  (∀ (taken : List (Nat × Nat)) (capacity n : Nat),
     let fits := fun a => a + n ≤ capacity ∧ ∀ r ∈ taken, a + n ≤ r.1 ∨ r.2 ≤ a
     (∀ a, firstFit taken capacity n = some a ↔ fits a ∧ ∀ a', fits a' → a ≤ a') ∧
       (firstFit taken capacity n = none ↔ ∀ a, ¬fits a)) ∧
  (let setAll := fun (s t : State) (v : View) (b : Block) (n : Nat) (level : Level) (e : Option TileEntry) =>
     ∀ c ∈ (if level = .cell then s.gangCores b else [v.core]), ∀ o, s.blk c = some o →
       ∃ o', t.blk c = some o' ∧ o'.tiles = o.tiles.set n e
   (∀ (s : State) (v : View) (w : ArithWord) (k : Nat) (b : Block) (base : Nat), Stands s (.talloc w) w.head v →
       v.mayEnd → v.first = some k → s.blk v.core = some b → (b.tiles[w.handle]?).join = none →
       let l := levelOf (w.sub.toNat / 4 % 4)
       let ra := v.u.read k w.a.toNat
       let rb := v.u.read k w.b.toNat
       let e := newTile l (.ofNat 2 (w.sub.toNat % 4)) w.t ra.v.toNat rb.v.toNat b.bidx
       l.numbers w.handle = true → (l = .acc → w.t = .f32) → countTag ra.tag = true → countTag rb.tag = true →
       l.shapeOk ra.v.toNat rb.v.toNat w.t.bytes = true → (s.dev.level = 1 → l = .block ∨ l = .cell) →
       firstFit (b.ranges l) (l.capacity (s.rcd b).tileKiB) e.room = some base →
       Ends s (.talloc w) v fun t p => p.entersAt v v.next ∧ p.lanes = v.u.lanes ∧ (v.u.kind ≠ .context → t.mem = s.mem) ∧
         Apart s t v ∧
         setAll s t v b w.handle l (some { e with base := base })) ∧
     (∀ (s : State) (v : View) (w : ArithWord) (b : Block) (e : TileEntry), Stands s (.tfree w) w.head v → v.sel ≠ 0 → v.mayEnd →
       s.blk v.core = some b → (b.tiles[w.handle]?).join = some e → (e.level = .cell → e.owner = b.bidx) →
       (∀ k ∈ b.cmds, k.finished = true) →
       (∀ c ∈ (if e.level = .cell then s.gangCores b else [v.core]), (s.core c).arr.drained = [] ∧
         ∀ o, s.blk c = some o → ∀ u ∈ o.units, ∀ p, u = some p → p.q.loads = [] ∧ p.pail = []) →
       Ends s (.tfree w) v fun t p => p.entersAt v v.next ∧ p.lanes = v.u.lanes ∧ (v.u.kind ≠ .context → t.mem = s.mem) ∧
         Apart s t v ∧
         setAll s t v b w.handle e.level none) ∧
     ∀ (s : State) (v : View) (w : ArithWord) (b : Block), Stands s (.tinfo w) w.head v → v.hasReg w.d.toNat →
       s.blk v.core = some b →
       (∀ x, (b.tiles[w.handle]?).join = none ∧ x = 0 ∨ (∃ e, (b.tiles[w.handle]?).join = some e ∧
           x = if w.sub = 0 then e.shapeWord else e.placeWord v.core (s.coreOfBidx v.core b e.owner)) →
         Leaves s (.tinfo w) v (v.writing w.d.toNat fun _ => mkReg x .n64) v.preds 0))

/-- LDT and STT (R74, R201, R205, R211, R212): each selected lane's element is read from the tile memory of the handle's
owner, the unit's own held stores over it; or the lanes' elements become one held store. ATOMT and TFILL (R213, R214):
read-modify-writes of elements in one core's tile memory, lane by lane, with the old values in D; and a store of C to every
element of a handle. -/
def Obligations.TileElements : Prop :=
  ((∀ (s : State) (v : View) (w : ArithWord) (e : TileEntry) (place : Nat → Nat × Nat), Stands s (.ldt w) w.head v →
       v.hasReg w.d.toNat → (s.myBlk v).tileHandle w.handle = some e →
       (∀ k ∈ v.lanes, elemReadErr s v w.handle w.t (v.u.read k w.a.toNat) (v.u.read k w.b.toNat) true = none ∧
         s.elemPlace v.core (s.myBlk v) e (coordVal (v.u.read k w.a.toNat)).toNat (coordVal (v.u.read k w.b.toNat)).toNat =
           .tile (place k).1 (place k).2) →
       Ends s (.ldt w) v fun t p => p.stays v ∧ SameStorage s t ∧ Apart s t v ∧
         p.shows v (v.writing w.d.toNat fun k => extendLoad
           (overlayTile v.u.pail (place k).1 (place k).2 (tileRead (s.core (place k).1).tile (place k).2 e.t.bytes)) e.t) v.preds) ∧
     ∀ (s : State) (v : View) (w : ArithWord) (e : TileEntry), Stands s (.stt w) w.head v → v.lanes ≠ [] →
       (s.myBlk v).tileHandle w.handle = some e →
       (∀ k ∈ v.lanes, elemWriteErr w.handle (some e) w.t (v.u.read k w.a.toNat) (v.u.read k w.b.toNat)
         (v.u.read k w.c.toNat) = none) →
       HoldsStore s (.stt w) v {
         items := v.lanes.map fun k => {
           lane := k
           place := s.elemPlace v.core (s.myBlk v) e (coordVal (v.u.read k w.a.toNat)).toNat (coordVal (v.u.read k w.b.toNat)).toNat
           bytes := storeBytes e.t (v.u.read k w.c.toNat).v }
         pc := v.addr, names := v.elemNames w.handle fun k => (coordVal (v.u.read k w.a.toNat), coordVal (v.u.read k w.b.toNat)) }) ∧
  ((∀ (s : State) (v : View) (w : ArithWord) (e : TileEntry) (c : Nat) (addr : Nat → Nat), Stands s (.atomt w) w.head v →
       v.noPort [w.a.toNat, w.b.toNat, w.c.toNat] → v.hasReg w.d.toNat → v.mayEnd → v.lanes ≠ [] → v.u.pail = [] →
       c < s.cores.length → (s.myBlk v).tileHandle w.handle = some e →
       (∀ k ∈ v.lanes, elemReadErr s v w.handle w.t (v.u.read k w.a.toNat) (v.u.read k w.b.toNat)
           (tagMatches w.t (v.u.read k w.c.toNat).tag) = none ∧
         s.elemPlace v.core (s.myBlk v) e (coordVal (v.u.read k w.a.toNat)).toNat (coordVal (v.u.read k w.b.toNat)).toNat =
           .tile c (addr k)) →
       let r := rmwTile w.t addr (fun k old => some (atomNew w.sub.toNat w.t old (v.u.read k w.c.toNat).v)) v.lanes (s.core c).tile
       Ends s (.atomt w) v fun t p => p.entersAt v v.next ∧ (t.core c).tile = r.1 ∧ (∀ o, o ≠ c → (t.core o).tile = (s.core o).tile) ∧
         ((s.core v.core).travel = [] → t.mem = s.mem) ∧ Apart s t v ∧
         p.shows v (v.writing w.d.toNat fun k => mkReg (((v.lanes.zip r.2).lookup k).getD 0) w.t) v.preds) ∧
     ∀ (s : State) (v : View) (w : ArithWord) (k : Nat) (b : Block) (e : TileEntry), Stands s (.tfill w) w.head v →
       v.first = some k → s.blk v.core = some b → (b.tiles[w.handle]?).join = some e → e.level ≠ .acc → e.t = w.t →
       tagMatches w.t (v.u.read k w.c.toNat).tag = true → badInterval w.t (v.u.read k w.c.toNat).v = false →
       HoldsStore s (.tfill w) v {
         items := fillItems s v.core b e (storeBytes w.t (v.u.read k w.c.toNat).v), pc := v.addr, names := [tileInfo w.handle 0 0] })

/-- PUSHA, PUSHS, QSTAT and RQPOP (R102, R103, R114 to R116): entries join their queues, a store address pairs with waiting
data in the context's pail, the queues' state is read field by field, and the oldest result is taken. The queue port of a
context (R34, R102, R103, R105): a source k63 takes the oldest load entry not yet taken, where its answer is there; a
destination k63 pushes the register to the store-data queue; a source with no entry is QUEUE_ORDER. -/
def Obligations.AccessQueues : Prop :=
  ((∀ (s : State) (v : View) (w : AddrWord) (addr : PushAddr), Stands s (.pusha w) w.head v → v.sel ≠ 0 → s.unwatched v →
       pushAddr w v s = .ok addr → v.u.q.loads.length < 64 →
       Ends s (.pusha w) v fun t p => p.stays v ∧ p.lanes = v.u.lanes ∧ SameStorage s t ∧ Apart s t v ∧
         p.q = { v.u.q with loads := v.u.q.loads ++ [{ addr := addr, t := w.t, after := v.u.q.nAddrs, pc := v.addr }] }) ∧
     (∀ (s : State) (v : View) (w : AddrWord) (addr : PushAddr), Stands s (.pushs w) w.head v → v.sel ≠ 0 → s.unwatched v →
       pushAddr w v s = .ok addr → v.u.q.addrs.length < 32 →
       (v.u.q.datas = [] → Ends s (.pushs w) v fun t p => p.stays v ∧ p.lanes = v.u.lanes ∧ SameStorage s t ∧ Apart s t v ∧
         p.q = { v.u.q with addrs := v.u.q.addrs ++ [{ addr := addr, t := w.t, pc := v.addr }], nAddrs := v.u.q.nAddrs + 1 }) ∧
       ∀ (d : Reg) (rest : List Reg) (va : Word) (pa : Nat), v.u.q.datas = d :: rest → v.u.q.addrs = [] → addr = .va va →
         tagMatches w.t d.tag = true → badInterval w.t d.v = false → s.storePlace v.core va w.t.bytes = .ok pa →
         v.u.pail.length < 32 →
         Ends s (.pushs w) v fun t p => (p.split v.split).pc = v.next ∧ p.rcnt = v.u.rcnt ∧ p.lanes = v.u.lanes ∧
           SameStorage s t ∧ Apart s t v ∧ p.q.addrs = [] ∧ p.q.datas = rest ∧ p.q.nPairs = v.u.q.nPairs + 1 ∧
           p.pail = v.u.pail ++ [{ items := [{ lane := 0, place := .phys pa, bytes := storeBytes w.t d.v }],
                                   pair := v.u.q.nPairs, pc := v.addr, names := [va] }]) ∧
     (∀ (s : State) (v : View) (w : ArithWord) (x : Word), Stands s (.qstat w) w.head v → v.hasReg w.d.toNat →
       let unpopped := v.u.q.loads.filter fun e => !e.popped
       let results := fun n => (v.u.results[n]?.getD []).length
       let field := fun lo n => (x.extractLsb' lo n).toNat
       unpopped.length ≤ 64 → v.u.q.addrs.length ≤ 32 → v.u.q.datas.length ≤ 32 → (∀ n, results n ≤ 16) →
       v.u.loops.length ≤ 8 → v.u.base ≤ 11 →
       field 0 7 = unpopped.length → field 7 7 = (unpopped.filter fun e => e.ans != .pending).length →
       field 14 6 = v.u.q.addrs.length → field 20 6 = v.u.q.datas.length → field 26 5 = results 0 → field 31 5 = results 1 →
       field 36 5 = results 2 → (x.getLsbD 41 = true ↔ v.u.svc ≠ none) → field 42 4 = v.u.loops.length → field 46 4 = v.u.base →
       field 50 14 = 0 → Leaves s (.qstat w) v (v.writing w.d.toNat fun _ => mkReg x .n64) v.preds 0) ∧
     ∀ (s : State) (v : View) (w : ArithWord), Stands s (.rqpop w) w.head v → v.sel ≠ 0 → v.hasReg w.d.toNat → v.hasPred 6 →
       let n := w.sub.toNat % 4
       let stall := w.sub.getLsbD 4
       (∀ r rest, v.u.results[n]? = some (r :: rest) → Changes s (.rqpop w) v fun p => p.stays v ∧
         p.results = v.u.results.set n rest ∧ p.shows v (v.writing w.d.toNat fun _ => mkReg r.v r.tag)
           (if stall then v.preds else v.setting 6 fun _ => .t)) ∧
       (v.u.results[n]? = some [] → stall = false → Changes s (.rqpop w) v fun p => p.stays v ∧ p.results = v.u.results ∧
         p.shows v (v.writing w.d.toNat fun _ => mkReg 0 .und) (v.setting 6 fun _ => .f))) ∧
  (∀ (s : State) (v : View) (w : ArithWord), Stands s (.mov w) w.head v → v.u.kind = .context → v.sel ≠ 0 →
     (∀ (e : LoadEntry) (rest : List LoadEntry) (r : Reg), w.a.toNat = 63 → v.hasReg w.d.toNat →
       v.u.q.loads = e :: rest → (∀ x ∈ rest, x.ans ≠ .pending) → e.popped = false → e.ans = .data r → s.loadBlocked v.core (s.myBlk v) v.u.q e = false →
       Changes s (.mov w) v fun p => p.stays v ∧ p.q = { v.u.q with loads := { e with popped := true } :: rest } ∧
         p.shows v (v.writing w.d.toNat fun _ => mkReg r.v r.tag) v.preds) ∧
     (w.a.toNat = 63 → (∀ e ∈ v.u.q.loads, e.popped = true) → v.unit < 21 → Traps s (.mov w) v .queueOrder v.act) ∧
     (w.a.toNat ≠ 63 → w.d.toNat = 63 → v.u.q.datas.length < 32 → v.u.q.addrs = [] →
       Changes s (.mov w) v fun p => p.stays v ∧ p.lanes = v.u.lanes ∧
         p.q = { v.u.q with
           datas := v.u.q.datas ++ [mkReg (v.u.read v.cl w.a.toNat).v (v.u.read v.cl w.a.toNat).tag]
           nDatas := v.u.q.nDatas + 1 }))

/-- COPY, GATHER and SCATTER (R327, R329, R330): the command with its operands and handle, and its promise in D. COLL,
PEERWR, PEERRD and PEERSIG (R327, R331, R332): the command with its operands, and its sequence number in D. CMDSTAT (R334):
the word of the command that A or a tag names, or 0 where the block no longer knows it. CMDSTAT's lane by lane reading is
the model's (log 37). -/
def Obligations.EngineCommands : Prop :=
  (∀ (s : State) (v : View) (w : ArithWord) (i : Instr) (op k : Nat) (e : TileEntry),
     i = .copy w ∧ op = 0 ∨ i = .gather w ∧ op = 1 ∨ i = .scatter w ∧ op = 2 → Stands s i w.head v → v.first = some k →
     v.mayEnd → v.hasReg w.d.toNat → (s.myBlk v).entry w.handle = some e → e.level ≠ .acc →
     let xr := if op = 0 then w.a.toNat else w.a.toNat + 1
     let a := v.u.read k w.a.toNat
     let x := v.u.read k xr
     let b := v.u.read k w.b.toNat
     v.noPort [w.a.toNat, xr, w.b.toNat] → a.names (if op = 0 then e.t.bytes else 1) → (op ≠ 0 → x.names 4) →
     (w.tSig = true → b.names 8) →
     let promise := promiseOf s.cyc (s.core v.core).horizon op w.flagAcq e
     Commands s i v { seq := 0, unit := 0, pc := 0, engine := .copy, op := op, w := w, ops := [a.v, if op = 0 then 0 else x.v, b.v],
                      handles := [e],
                      tag := some (w.c.toNat % 64), promise := promise.1 }
       (v.writing w.d.toNat fun _ => mkReg (.ofNat 64 promise.1) .n64)) ∧
  (∀ (s : State) (v : View) (w : ArithWord) (k : Nat), v.first = some k → v.mayEnd → v.hasReg w.d.toNat →
     let a := v.u.read k w.a.toNat
     let b := v.u.read k w.b.toNat
     let g := v.u.read k (w.b.toNat + 1)
     let c := v.u.read k w.c.toNat
     let gives := fun (i : Instr) (engine : Engine) (op : Nat) (ops : List Word) =>
       Commands s i v { seq := 0, unit := 0, pc := 0, engine := engine, op := op, w := w, ops := ops }
         (v.writing w.d.toNat fun _ => mkReg (.ofNat 64 (s.myBlk v).seq) .n64)
     (Stands s (.coll w) w.head v → (collDesc c.v).legal c.v = true → a.names (collDesc c.v).t.bytes →
       b.names (collDesc c.v).t.bytes → (w.tSig = true → g.names 8) → gives (.coll w) .coll 0 [a.v, b.v, g.v, c.v]) ∧
     (∀ i op, i = .peerwr w ∧ op = 0 ∨ i = .peerrd w ∧ op = 1 → Stands s i w.head v → a.names 8 → b.names 8 →
       (w.tSig = true → g.names 8) → 8 ≤ peerLen c.v → peerLen c.v % 8 = 0 → bits c.v.toNat 31 30 = 0 → bits c.v.toNat 63 48 = 0 →
       gives i .peer op [a.v, b.v, g.v, c.v]) ∧
     (Stands s (.peersig w) w.head v → v.noPort [w.a.toNat, w.b.toNat, w.c.toNat] → countTag a.tag = true → b.names 8 →
       peerLen c.v = 0 → bits c.v.toNat 31 30 = 0 → bits c.v.toNat 63 48 = 0 →
       gives (.peersig w) .peer 2 [a.v, b.v, 0, c.v])) ∧
  (∀ (s : State) (v : View) (w : ArithWord) (b : Block), Stands s (.cmdstat w) w.head v → v.hasReg w.d.toNat →
     s.blk v.core = some b →
     let word := fun (k : Option Cmd) => ((k.filter b.known).map Cmd.word).getD 0
     (w.sub = 1 → Leaves s (.cmdstat w) v
       (v.writing w.d.toNat fun _ => mkReg (word (b.tagged v.unit (w.x.toNat % 64))) .n64) v.preds 0) ∧
     (w.sub ≠ 1 → v.noPort [w.a.toNat] → Leaves s (.cmdstat w) v (v.writing w.d.toNat fun k =>
       mkReg (word (b.cmds.find? fun x => x.seq == (v.u.read k w.a.toNat).v.toNat)) .n64) v.preds 0))

/-- MAMAP and MBMAP (R343, R351): the operand map or the bitmaps of the block are set, by way of the matrix command queue
outside a context. MLOADB, MMA, MDRAIN, MHAD and MZERO (R327, R342, R345, R355, R356): the command with its operands and
handles, at the end of the matrix command queue, but for an MLOADB of a context. -/
def Obligations.MatrixCommands : Prop :=
  (let mapped := fun (s : State) (i : Instr) (v : View) (b : Block) (q : Block → Prop) =>
     (v.u.kind = .context ∨ b.mqueue = [] → Ends s i v fun t p => p.stays v ∧ p.lanes = v.u.lanes ∧ SameStorage s t ∧
       Apart s t v ∧ ∃ b', t.blk v.core = some b' ∧ b'.mqueue = b.mqueue ∧ q b') ∧
     (∀ k rest, v.u.kind ≠ .context → b.mqueue = k :: rest → k.op < 10 → Ends s i v fun t p => p.stays v ∧
       p.lanes = v.u.lanes ∧ SameStorage s t ∧ Apart s t v ∧ ∃ b' x, t.blk v.core = some b' ∧ b'.map = b.map ∧
         b'.bitmaps = b.bitmaps ∧ b'.mqueue = b.mqueue ++ [x] ∧ q (b'.applyMap x))
   (∀ (s : State) (v : View) (w : ArithWord) (k : Nat) (b : Block) (e : TileEntry), Stands s (.mamap w) w.head v →
       v.first = some k → v.noPort [w.a.toNat] → s.blk v.core = some b → b.atLevel w.handle [.block, .cell] = some e →
       e.t = w.t → countTag (v.u.read k w.a.toNat).tag = true →
       mapped s (.mamap w) v b fun b' =>
         b'.map = some (w.handle, (v.u.read k w.a.toNat).v.toNat % 2 ^ 32, w.t) ∧ b'.bitmaps = b.bitmaps) ∧
     ∀ (s : State) (v : View) (w : ArithWord) (b : Block), Stands s (.mbmap w) w.head v → v.sel ≠ 0 → s.blk v.core = some b →
       (∀ m, b.map = some m → m.2.2 ≠ .lg6x8) →
       (w.sub = 1 → mapped s (.mbmap w) v b fun b' => b'.bitmaps = none ∧ b'.map = b.map) ∧
       ∀ ea eb, w.sub ≠ 1 → b.atLevel w.handle [.block, .cell] = some ea → b.atLevel (w.b.toNat % 64) [.bstore] = some eb →
         ea.t = .n32 → eb.t = .n32 →
         mapped s (.mbmap w) v b fun b' => b'.bitmaps = some (w.handle, w.b.toNat % 64) ∧ b'.map = b.map) ∧
  (∀ (s : State) (v : View) (w : ArithWord) (k : Nat) (b : Block), v.first = some k → v.mayEnd → s.blk v.core = some b →
     let gives := fun (i : Instr) (op : Nat) (ops : List Word) (handles : List TileEntry) =>
       let x : Cmd := { seq := 0, unit := 0, pc := 0, engine := .matrix, op := op, w := w, ops := ops, handles := handles }
       Commands s i v x v.regs ∧ Ends s i v fun t _ => ∃ b', t.blk v.core = some b' ∧
         b'.mqueue = b.mqueue ++ (if i = .mloadb w ∧ v.u.kind = .context then []
           else [{ x with seq := b.seq, unit := v.unit, pc := v.addr }])
     let c := v.u.read k w.c.toNat
     (∀ e hs, Stands s (.mloadb w) w.head v → v.noPort [w.b.toNat] → countTag (v.u.read k w.b.toNat).tag = true →
       b.atLevel (w.a.toNat % 64) [.bstore] = some e → e.t = w.t →
       (w.sub.getLsbD 1 = false ∧ hs = [] ∨
         w.sub.getLsbD 1 = true ∧ ∃ h, hs = [h] ∧ b.atLevel (w.d.toNat % 64) [.bstore] = some h ∧ h.t = .byte) →
       gives (.mloadb w) 4 [(v.u.read k w.b.toNat).v] (e :: hs)) ∧
     (∀ hc ha hb hs, Stands s (.mma w) w.head v → b.atLevel (w.d.toNat % 64) [.acc] = some hc →
       b.atLevel (w.a.toNat % 64) [.block, .cell] = some ha → b.atLevel (w.b.toNat % 64) [.bstore] = some hb →
       ha.t = w.t → hb.t = w.t → (w.xSig = true → c.names 8) →
       (w.x.getLsbD 2 = false ∧ hs = none ∨ w.x.getLsbD 2 = true ∧ (v.u.read k (w.c.toNat + 1)).names 1 ∧
         bits (v.u.read k (w.c.toNat + 2)).v.toNat 31 6 = 0 ∧
         ∃ h, hs = some h ∧ b.atLevel ((v.u.read k (w.c.toNat + 2)).v.toNat % 64) [.bstore] = some h ∧ h.t = .byte) →
       mmaShape w.t hc ha hb hs (s.rcd b).depth = true →
       gives (.mma w) 0 [c.v, (v.u.read k (w.c.toNat + 1)).v] ([hc, ha, hb] ++ hs.toList)) ∧
     (v.noPort [w.c.toNat] → (w.xSig = true → c.names 8) →
       (∀ ha hd, Stands s (.mdrain w) w.head v → b.atLevel (w.a.toNat % 64) [.acc] = some ha →
         b.atLevel (w.d.toNat % 64) [.block, .cell] = some hd → hd.t = w.t → ha.rows ≤ hd.rows → drainCols w.t ≤ hd.cols →
         gives (.mdrain w) 1 [c.v] [ha, hd]) ∧
       (∀ ha, Stands s (.mhad w) w.head v → b.atLevel (w.a.toNat % 64) [.acc] = some ha → gives (.mhad w) 2 [c.v] [ha]) ∧
       ∀ ha, Stands s (.mzero w) w.head v → b.atLevel (w.a.toNat % 64) [.acc, .bstore] = some ha →
         gives (.mzero w) 3 [c.v] [ha]))

/-- MBEAT, MRETIRE and MSCALE (R340, R346, R348, R350, R352, R354): a beat sends a row's vector through the array to an
accumulator row, drains a row, or lands what is under way; a syllable to be suppressed on a rerun, or not selected, only
counts; an MSCALE value is held until the fourth issue after it. A column sum that the manual does not state is a free
value (log 19). -/
def Obligations.MatrixSyllables : Prop :=
  let beats := fun (s : State) (i : Instr) (v : View) (f : Core → Core) => Ends s i v fun t p => p.stays v ∧
    p.lanes = v.u.lanes ∧ p.beats = v.u.beats + 1 ∧ p.suppress = v.u.suppress - 1 ∧ Apart s t v ∧ t.mem = s.mem ∧
      (t.core v.core).arr = (f (s.core v.core)).arr ∧ (t.core v.core).acc = (f (s.core v.core)).acc ∧
      (t.core v.core).tile = (s.core v.core).tile
  (∀ (s : State) (v : View) (w : ArithWord) (i : Instr),
      i ∈ [.mbeatPush w, .mbeatAcc w, .mbeatShift w, .mbeatDrain w, .mretire w] → Stands s i w.head v →
      0 < v.u.suppress ∨ v.sel = 0 → beats s i v id) ∧
    (∀ (s : State) (v : View) (w : ArithWord) (i : Instr) (replace : Bool) (b : Block) (h e : TileEntry) (m : Nat × Nat × Ty)
        (r j : Nat), i = .mbeatPush w ∧ replace = true ∨ i = .mbeatAcc w ∧ replace = false → Stands s i w.head v →
      let set := w.sub.toNat / 4 % 2
      v.u.suppress = 0 → v.sel ≠ 0 → (s.begun i v).arrayBusy v (some set) = false → s.blk v.core = some b →
      (b.stop = none ∨ v.unit ∈ (s.core v.core).arr.opened) → b.atLevel w.handle [.acc] = some h → b.map = some m → b.entry m.1 = some e → e.t = m.2.2 →
      countTag (v.u.read v.cl w.a.toNat).tag = true → countTag (v.u.read v.cl w.b.toNat).tag = true →
      coordVal (v.u.read v.cl w.a.toNat) = r → coordVal (v.u.read v.cl w.b.toNat) = j →
      (if e.t = .lg6x8 then r + 1 else r) < h.rows → j < e.rows →
      beats s i v fun k => ({ k with arr := k.arr.openFor v.unit }).pushVector set (h.base + r) replace
        (s.vectorSums v.core b e m.2.1 b.bitmaps set j fun n => (v.u.latch[n]?.getD 127).toNat)) ∧
    (∀ (s : State) (v : View) (w : ArithWord) (b : Block), v.u.suppress = 0 → v.sel ≠ 0 →
      (s.core v.core).arr.running = none → s.blk v.core = some b →
      (b.stop = none ∨ v.unit ∈ (s.core v.core).arr.opened) →
      (Stands s (.mbeatShift w) w.head v → beats s (.mbeatShift w) v Core.beatOnce) ∧
      ∀ h, b.atLevel w.handle [.acc] = some h →
        (Stands s (.mretire w) w.head v → beats s (.mretire w) v fun k =>
          { k.flushArray with arr := { k.flushArray.arr with opened := k.flushArray.arr.opened.filter (· != v.unit) } }) ∧
        ∀ e (r j : Nat), Stands s (.mbeatDrain w) w.head v → b.atLevel (w.c.toNat % 64) [.block, .cell] = some e →
          countTag (v.u.read v.cl w.a.toNat).tag = true → countTag (v.u.read v.cl w.b.toNat).tag = true →
          coordVal (v.u.read v.cl w.a.toNat) = r → coordVal (v.u.read v.cl w.b.toNat) = j → e.t = w.t → r < h.rows →
          j < e.rows → drainCols w.t ≤ e.cols →
          beats s (.mbeatDrain w) v fun k => { k with arr := { k.arr with drained := k.arr.drained ++
            [{ due := s.cyc + 8, items := s.drainItems v.core b w.t w.rm.toNat (h.base + r) e j }] } }) ∧
    ∀ (s : State) (v : View) (w : ArithWord), Stands s (.mscale w) w.head v → v.sel ≠ 0 → Changes s (.mscale w) v fun p =>
      p.stays v ∧ p.lanes = v.u.lanes ∧ p.issues = v.u.issues + 1 ∧
        p.pending = v.u.pending.filter (fun x => decide (v.u.issues + 1 < x.1)) ++ [(v.u.issues + 4,
          scaleBytes (v.u.read v.cl w.a.toNat).v (v.u.read v.cl w.b.toNat).v)]

/-- BKPT, PMCFG, PMREAD, PMCTL, TRMARK, LCLK and WATCH (R380 to R383, R386, R387): a breakpoint where BKEN is set, and the
counters, trace, clock and watchpoints of the core. What a watchpoint's size field can hold is the model's reading (log
45), and what a counter of an event without a stated meaning adds is free (log 12). -/
def Obligations.DebugInstructions : Prop :=
  let quiet := fun (s : State) (i : Instr) (v : View) (f : State → Prop) => Ends s i v fun t p =>
    p.stays v ∧ p.lanes = v.u.lanes ∧ SameStorage s t ∧ Apart s t v ∧ f t
  (∀ (s : State) (v : View) (w : ArithWord), Stands s (.bkpt w) w.head v →
      (v.sel = 0 ∨ s.unwatched v → Leaves s (.bkpt w) v v.regs v.preds 0) ∧
      (v.sel ≠ 0 → ¬s.unwatched v → v.u.kind ≠ .handler → v.unit < 21 → Ends s (.bkpt w) v fun _ p => p.lanes = v.u.lanes ∧
        ∃ f, p.trap = some f ∧ f.cause = .breakpoint ∧ f.kind = 1 ∧ f.rk = 1 ∧ f.mask = v.sel ∧ f.pc = v.addr ∧
          f.resume = v.next ∧ f.info1 = .ofNat 64 w.mask8)) ∧
    (∀ (s : State) (v : View) (w : ArithWord) (k : Nat), Stands s (.pmcfg w) w.head v → v.first = some k →
      let ev := (v.u.read k w.a.toNat).v.toNat % 128
      ev < 96 → quiet s (.pmcfg w) v fun t =>
        (t.core v.core).ctrs = (s.core v.core).ctrs.modify (w.x.toNat % 4) fun _ => { event := ev }) ∧
    (∀ (s : State) (v : View) (w : ArithWord), Stands s (.pmread w) w.head v → v.hasReg w.d.toNat →
      Leaves s (.pmread w) v (v.writing w.d.toNat fun _ =>
        mkReg ((((s.core v.core).ctrs[w.x.toNat % 4]?).getD {}).shown s.fresh v.core (w.x.toNat % 4)) .n64) v.preds 0) ∧
    (∀ (s : State) (v : View) (w : ArithWord), Stands s (.pmctl w) w.head v → v.sel ≠ 0 → quiet s (.pmctl w) v fun t =>
      ∀ (n : Nat) (c : Counter), (s.core v.core).ctrs[n]? = some c → ∃ c', (t.core v.core).ctrs[n]? = some c' ∧
        c'.event = c.event ∧ (n < 4 → w.x.getLsbD n = true →
          (w.sub = 0 → c'.running = true) ∧ (w.sub = 1 → c'.running = false) ∧
          (w.sub ≠ 0 → w.sub ≠ 1 → c'.running = c.running ∧ (v.u.kind = .front ∨ v.u.kind = .handler → c'.count = 0))) ∧
        (n < 4 → w.x.getLsbD n = false → c'.running = c.running)) ∧
    (∀ (s : State) (v : View) (w : ArithWord) (k : Nat), Stands s (.trmark w) w.head v → v.first = some k →
      v.noPort [w.a.toNat] → let i := s.instOf v.core
      quiet s (.trmark w) v fun t => (t.inst i).trace =
        ((s.trace v.core v.unit v.addr 9 [((v.u.read k w.a.toNat).v.setWidth 32).setWidth 64]).inst i).trace) ∧
    (∀ (s : State) (v : View) (w : ArithWord), Stands s (.lclk w) w.head v → v.sel ≠ 0 → v.hasReg w.d.toNat →
      let x := if w.sub = 1 then ((s.core v.core).lclk + 1) % 2 ^ 48 else (s.core v.core).lclk
      Ends s (.lclk w) v fun t p => p.stays v ∧ SameStorage s t ∧ Apart s t v ∧ (t.core v.core).lclk = x ∧
        p.shows v (v.writing w.d.toNat fun _ => mkReg (.ofNat 64 x) .n64) v.preds) ∧
    ∀ (s : State) (v : View) (w : ArithWord) (k : Nat), Stands s (.watch w) w.head v → v.first = some k →
      let va := (v.u.read k w.a.toNat).v
      let ctl := (v.u.read k w.b.toNat).v
      ctl = 0 ∨ watchOk va ctl = true → quiet s (.watch w) v fun t =>
        (t.core v.core).watch = (s.core v.core).watch.set (w.x.toNat % 4) (if ctl = 0 then {} else { va := va, ctl := ctl })

/-- SYSSEND, SYSRECV, PORTREPLY and ERRREAD (R117, R218, R223, R243, R244): a request to a port that is served goes to the
handler, one to another port is refused at its SYSRECV; the reply, once, and to no one where the context has gone; and the
oldest record of the die's log. -/
def Obligations.Services : Prop :=
  (∀ (s : State) (v : View) (w : ArithWord), Stands s (.syssend w) w.head v → v.sel ≠ 0 → v.mayEnd → v.u.svc = none →
      let port := w.sub.toNat
      let a := (v.u.read v.cl w.a.toNat).v
      let b := (v.u.read v.cl w.b.toNat).v
      let served := (s.inst (s.instOf v.core)).svcen.getLsbD port
      Ends s (.syssend w) v fun t p => p.entersAt v v.next ∧ p.lanes = v.u.lanes ∧
        p.svc = some { port := port, a := a, b := b, reply := if served then none else some none } ∧
        (served = true → ∃ f, (f ∈ (t.core v.core).trapQ ∨ ∃ h, (t.core v.core).hnd = some h ∧ h.frame = f) ∧
          f.kind = 3 ∧ f.slot = port ∧ f.unit = v.unit ∧ f.info1 = a ∧ f.info2 = b)) ∧
    (∀ (s : State) (v : View) (w : ArithWord) (q : Service), Stands s (.sysrecv w) w.head v → v.sel ≠ 0 → v.mayEnd →
      v.hasReg w.d.toNat → v.u.svc = some q →
      (∀ x, q.reply = some (some x) → Ends s (.sysrecv w) v fun t p => p.entersAt v v.next ∧ p.svc = none ∧ Apart s t v ∧
        p.shows v (v.writing w.d.toNat fun _ => mkReg x .n64) v.preds) ∧
      (q.reply = some none → Ends s (.sysrecv w) v fun _ p => p.svc = none ∧ p.lanes = v.u.lanes ∧
        ∃ f, p.trap = some f ∧ f.cause = .serviceRefused ∧ f.kind = 1)) ∧
    (∀ (s : State) (v : View) (w : ArithWord) (k : Nat) (h : Handler) (p : ProgUnit), Stands s (.portreply w) w.head v →
      v.first = some k → (s.core v.core).hnd = some h → h.svc = true → h.replied = false → h.unit ≠ v.unit →
      s.unit v.core h.unit = some p → Completes s (.portreply w) fun t =>
        (t.core v.core).hnd = some { h with replied := true } ∧ t.mem = s.mem ∧
        t.unit v.core h.unit = some (if h.gone then p else { p with svc := p.svc.map fun q => { q with
          reply := some (if w.sub = 0 then some (v.u.read k w.a.toNat).v else none) } })) ∧
    ∀ (s : State) (v : View) (w : ArithWord) (d : Die), Stands s (.errread w) w.head v → v.sel ≠ 0 → v.hasReg w.d.toNat →
      s.dies[dieOf v.core]? = some d →
      (d.log = [] → Leaves s (.errread w) v (v.writing w.d.toNat fun _ => mkReg 0 .b64) v.preds 0) ∧
      ∀ r rest, d.log = r :: rest → v.hasReg (w.d.toNat + 1) → Ends s (.errread w) v fun t p => p.stays v ∧ Apart s t v ∧
        SameStorage s t ∧ t.dies[dieOf v.core]? = some { d with log := rest } ∧
        p.shows v (v.writingPair w.d.toNat (fun _ => mkReg r.1 .b64) fun _ => mkReg r.2 .b64) v.preds

/-- SREAD and SWRITE (R132, R220, R241, R381): the system registers of the instance and the handler, and the registers,
tags and predicates of the unit that the handler serves. The physical numbering of k-registers and the masking of TRAPBASE
are the model's reading (log 47). -/
def Obligations.SystemRegisters : Prop :=
  ∀ (s : State) (v : View) (w : ArithWord) (k : Nat) (h : Handler) (p : ProgUnit), v.first = some k → v.u.kind = .handler →
    (s.core v.core).hnd = some h → h.unit ≠ v.unit → s.unit v.core h.unit = some p →
    let lane := (v.u.read k w.b.toNat).v.toNat
    let gives := fun (x : Word) => Leaves s (.sread w) v (v.writing w.d.toNat fun _ => mkReg x .b64) v.preds 0
    (Stands s (.sread w) w.head v → v.hasReg w.d.toNat →
      (w.sub = 0 → gives (s.sysRead v.core w.x.toNat)) ∧
      (w.sub = 3 → lane < p.lanes.length → gives (.ofNat 64 (p.lane lane).predBits)) ∧
      ∀ r, p.handledReg lane w.a.toNat = some r →
        (w.sub = 1 → gives r.v) ∧ (w.sub = 2 → gives (.ofNat 64 r.tag.code))) ∧
    (Stands s (.swrite w) w.head v →
      let x := (v.u.read k w.a.toNat).v
      (w.sub = 0 → w.x = 1 → Ends s (.swrite w) v fun t q => q.stays v ∧ q.lanes = v.u.lanes ∧ SameStorage s t ∧ Apart s t v ∧
        (t.core v.core).hnd = some { h with m := x.getLsbD 0 }) ∧
      (∀ i, w.sub = 0 → w.x = 0 ∨ w.x = 5 ∨ w.x = 7 ∨ w.x = 8 → s.instOf v.core < s.insts.length →
        (s.inst (s.instOf v.core)).sysWrite w.x.toNat x = some i → Ends s (.swrite w) v fun t q => q.stays v ∧
          q.lanes = v.u.lanes ∧ SameStorage s t ∧ Apart s t v ∧ t.inst (s.instOf v.core) = i) ∧
      let changes := fun (q : ProgUnit) => Completes s (.swrite w) fun t => t.unit v.core h.unit = some q ∧ SameStorage s t ∧
        (∀ c u, ¬(c = v.core ∧ (u = v.unit ∨ u = h.unit)) → t.unit c u = s.unit c u) ∧
        ∃ r, t.unit v.core v.unit = some r ∧ r.stays v ∧ r.lanes = v.u.lanes
      (w.sub = 3 → lane < p.lanes.length → changes (p.mapLanes (BitVec.twoPow 128 lane) fun _ l => l.unpack 0x7F x.toNat)) ∧
      ∀ r, p.handledReg lane w.d.toNat = some r →
        (w.sub = 1 → r.tag ≠ .iv32 ∨ ivValid x = true → changes (p.putHandled lane w.d.toNat (mkReg x r.tag))) ∧
        (w.sub = 2 → x.toNat % 16 ≠ 14 → Ty.ofCode (x.toNat % 16) ≠ .iv32 ∨ ivValid r.v = true →
          changes (p.putHandled lane w.d.toNat (mkReg r.v (Ty.ofCode (x.toNat % 16))))))

/-- PREEMPT, HALT, LGDIV, CTXSAVE and CTXLOAD (R64, R227, R228, R241, R242): a request to stop the gang; the core divided
anew, or 0 where it cannot be; and the handled unit's images written to its save slot or read from it, but for a saved PC
that is no multiple of 8, which is a fault of the handler (R18, R221). ICINV and TLBINV (R234, R241): the instruction
caches of a core or of all the instance's, and the translations of every page or of one, are gone. LGDIV in place (log 54),
CTXSAVE's marks (log 48) and invalidation at the first issue (log 9) are the model's reading. -/
def Obligations.HandlerControl : Prop :=
  ((∀ (s : State) (v : View) (w : ArithWord) (i : Instr) (b : Block), i = .preempt w ∨ i = .halt w → Stands s i w.head v →
       v.sel ≠ 0 → s.blk v.core = some b → Ends s i v fun t p => p.stays v ∧ p.lanes = v.u.lanes ∧ SameStorage s t ∧
         Apart s t v ∧ Stopping s t v.core b (if i = .halt w then { cause := .debugHalt, state := 3 } else
           { cause := .preempt, state := 2 })) ∧
     (∀ (s : State) (v : View) (w : ArithWord) (k : Nat) (b : Block), Stands s (.lgdiv w) w.head v → v.first = some k →
       v.hasReg w.d.toNat → s.blk v.core = some b →
       let groups := (v.u.read k w.a.toNat).v.toNat
       (s.division v.core b groups = none →
         Leaves s (.lgdiv w) v (v.writing w.d.toNat fun _ => mkReg 0 .b64) v.preds 0) ∧
       (∀ qs, s.division v.core b groups = some qs → b.unitsStopped (some (s.handled v)) = true →
         s.enginesStopped v.core b = true →
         let s1 := (s.begun (.lgdiv w) v).quiesce v.core
         (s1.core v.core).travel = [] → s1.unpinned v.core →
         (s1.saveChunks v.core (s1.myBlk v) .preempt).all (s1.chunkOk v.core .store (s1.slotVa (s1.myBlk v))) = true →
         Ends s (.lgdiv w) v fun t p => (p.split v.split).pc = v.next ∧
           (∀ j, v.sel.getLsbD j = true → j < v.u.lanes.length → (p.read j w.d.toNat).v = 1) ∧
           ∃ b', t.blk v.core = some b' ∧ b'.vgroups = groups ∧ b'.stop = b.stop)) ∧
     (∀ (s : State) (v : View) (w : ArithWord) (b : Block) (h : Handler) (p : ProgUnit), Stands s (.ctxsave w) w.head v →
       v.sel ≠ 0 → v.u.kind = .handler → s.blk v.core = some b → (s.core v.core).hnd = some h → h.unit ≠ v.unit →
       b.unit h.unit = some p →
       let parts := p.record (s.rcd b).code h.unit s.cyc .none none ++
         (if h.unit < 20 then p.regChunks (imageBase b.regLayout h.unit) true ++ [b.tagChunk] ++ p.areas h.unit s.cyc else [])
       s.unpinned v.core → parts.all (s.chunkOk v.core .store (s.slotVa b)) = true → Ends s (.ctxsave w) v fun t q => q.stays v ∧
         q.lanes = v.u.lanes ∧ Apart s t v ∧ t.mem = (parts.foldl (fun s x => s.putChunk v.core (s.slotVa b) x) s).mem) ∧
     ∀ (s : State) (v : View) (w : ArithWord) (b : Block) (h : Handler) (p0 : ProgUnit), Stands s (.ctxload w) w.head v →
       v.sel ≠ 0 → v.u.kind = .handler → s.blk v.core = some b → (s.core v.core).hnd = some h → h.unit ≠ v.unit →
       b.unit h.unit = some p0 → s.unpinned v.core → b.restorePages.all (s.chunkOk v.core .load (s.slotVa b)) = true →
       let p := b.recordOf h.unit p0
       (∀ x ∈ b.loadSpans h.unit p, x.2 ≠ 0 → s.slotPoison v.core (s.slotVa b + .ofNat 64 x.1) x.2 = false) →
       let q := s.readUnit v.core (s.slotVa b) (s.rcd b).code h.unit
         (if h.unit < 20 then imageBase b.regLayout h.unit else 2 ^ 16) s.cyc false p
       let pc := s.slotWord v.core (s.slotVa b) (0x4000 + 0x1000 * h.unit) 8
       (pc % 8 = 0 → Completes s (.ctxload w) fun t => SameStorage s t ∧ ∃ r, t.unit v.core h.unit = some r ∧
         r.splits = q.splits ∧ r.pail = p.pail ∧ r.q = p.q ∧ r.div = q.div ∧ r.rets = q.rets ∧ r.evp = q.evp ∧ r.evm = q.evm ∧
         r.fpctl = q.fpctl ∧ r.lanes = q.lanes.map fun l => { l with regs := l.regs.map fun x => { x.checked with dirty := true } }) ∧
       (pc % 8 ≠ 0 → v.unit = 21 → Completes s (.ctxload w) fun t => (t.core v.core).hnd = none ∧ t.unit v.core 21 = none ∧
         (t.core v.core).trapQ = h.frame :: (s.core v.core).trapQ ∧ t.mem = s.mem ∧ t.unit v.core h.unit = some p0)) ∧
  ((∀ (s : State) (v : View) (w : ArithWord), Stands s (.icinv w) w.head v → v.sel ≠ 0 → s.slow = false → v.sp.waits = [] →
       Ends s (.icinv w) v fun t p => p.stays v ∧ p.lanes = v.u.lanes ∧ SameStorage s t ∧ Apart s t v ∧
         (t.core v.core).icache = [] ∧ (w.sub ≠ 0 → ∀ c ∈ s.coresOf (s.instOf v.core), (t.core c).icache = [])) ∧
     ∀ (s : State) (v : View) (w : ArithWord) (k : Nat), Stands s (.tlbinv w) w.head v → v.first = some k → s.slow = false →
       v.sp.waits = [] → Ends s (.tlbinv w) v fun t p => p.stays v ∧ p.lanes = v.u.lanes ∧ SameStorage s t ∧ Apart s t v ∧
         ∀ c ∈ s.coresOf (s.instOf v.core), ∀ e ∈ (t.core c).tlb, e ∈ (s.core c).tlb ∧ w.sub ≠ 0 ∧
           (w.sub = 1 → e.maps (v.u.read k w.a.toNat).v = false))

/-- TRET (R222): the handler is gone and its unit runs on from the frame's RESUME, which the handler may have rewritten;
with RK 0 the held stores are discarded, with RK 1 kept. A service request's handler only ends. A trap of the handler
itself (R221): it is gone, its frame waits again, and its block is to be halted with cause HANDLER_WATCHDOG. What a rewind
takes back in the warp's other splits is the model's reading (log 29). -/
def Obligations.HandlerReturn : Prop :=
  (∀ (s : State) (v : View) (w : ArithWord) (h : Handler) (p : ProgUnit), Stands s (.tret w) w.head v → v.sel ≠ 0 →
     (s.core v.core).hnd = some h → h.unit < 21 → v.unit = 21 → s.unit v.core h.unit = some p →
     (h.svc = true → Completes s (.tret w) fun t =>
       (t.core v.core).hnd = none ∧ t.unit v.core 21 = none ∧ t.unit v.core h.unit = some p ∧ t.mem = s.mem) ∧
     ∀ bs, h.svc = false → s.slotRead v.core h.frameVa 0x40 = some bs →
       let resume := BitVec.ofNat 64 (leNat ((bs.drop 0x20).take 8))
       let keeps := ((bs[4]?).getD 0).toNat % 2 = 1
       resume.toNat % 8 = 0 → (s.core v.core).travel = [] → s.unpinned v.core → p.stepped = false →
       p.trapSplit < p.splits.length → Completes s (.tret w) fun t =>
         (t.core v.core).hnd = none ∧ t.unit v.core 21 = none ∧ t.mem = s.mem ∧
         ∃ q, t.unit v.core h.unit = some q ∧ q.trap = none ∧ q.lanes = p.lanes ∧ (q.split p.trapSplit).pc = resume ∧
           (keeps → q.pail = p.pail ∧ q.q = p.q) ∧ (¬keeps → q.pail = [] ∧ q.q = p.q.rewind)) ∧
  (∀ (s : State) (v : View) (w : ImmWord) (b : Block) (h : Handler), Stands s (.trap w) w.head v → v.sel ≠ 0 →
     v.u.kind = .handler → v.unit = 21 → s.blk v.core = some b → b.stop = none → (s.core v.core).hnd = some h →
     Completes s (.trap w) fun t => (t.core v.core).hnd = none ∧ t.unit v.core 21 = none ∧
       (t.core v.core).trapQ = h.frame :: (s.core v.core).trapQ ∧ t.mem = s.mem ∧
       ∃ b', t.blk v.core = some b' ∧ b'.stop = some { cause := .handlerWatchdog, state := 3 })

/-- An instruction of the privileged group outside the handler (R39, R218, R219, R241): WRONG_MODE, nothing executed. Where
the core's handler is idle it is entered at TRAPBASE with the frame's VA in s0 and the cause in s1, and the frame stands in
memory. -/
def Obligations.PrivilegeTraps : Prop :=
  ∀ (s : State) (v : View) (w : ArithWord) (i : Instr),
    i ∈ [.pmcfg w, .watch w, .tret w, .sread w, .swrite w, .tlbinv w, .ctxsave w, .ctxload w, .lgdiv w, .errread w, .portreply w,
      .preempt w, .halt w] → s.view i w.head = some v → s.bundle = none → v.u.kind ≠ .handler → v.unit < 21 →
    (s.inst (s.instOf v.core)).dbgctl.getLsbD 1 = false →
    Traps s i v .wrongMode v.whole ∧
      ∀ (b : Block) (pa : Nat), s.blk v.core = some b → b.units.length = 22 → (s.core v.core).hnd = none →
        (s.core v.core).trapQ = [] → 2 ≤ (s.core v.core).hbank.length → b.stop = none →
        s.unpinned v.core → (s.core v.core).travel = [] →
        (s.inst b.inst).trapbase ≠ 0 → s.translate v.core .store (s.frameVa b v.unit) = .ok pa →
        (s.frameVa b v.unit).toNat % 65536 ≤ 65280 → Ends s i v fun t p => ∃ h q bs, (t.core v.core).hnd = some h ∧
          h.unit = v.unit ∧ h.cause = Cause.wrongMode.code ∧ h.m = true ∧ h.frameVa = s.frameVa b v.unit ∧
          t.unit v.core 21 = some q ∧ q.kind = .handler ∧ (q.split 0).pc = (s.inst b.inst).trapbase ∧
          (q.read 0 0).v = s.frameVa b v.unit ∧ (q.read 0 1).v = .ofNat 64 Cause.wrongMode.code ∧
          t.mem = cellWrite s.mem pa bs ∧ bs.length = 256 ∧ bs[0]? = some (.ofNat 8 Cause.wrongMode.code) ∧
          bs[1]? = some 0 ∧ bs[2]? = some (.ofNat 8 v.unit) ∧ bs[4]? = some 0 ∧
          leNat ((bs.drop 8).take 8) = v.addr.toNat ∧
          leNat ((bs.drop 0x20).take 8) = (if v.u.kind = .front then v.addr else v.sp.rpc).toNat ∧
          leNat ((bs.drop 0x28).take 8) = v.whole.toNat % 2 ^ 64 ∧ p.rcnt = v.u.rcnt

/-- COLD_START, FULL_SERVICE, WARMSTART and PARTITION (R365, R366, R369, R370, R372): what a start leaves: no block on any
core, the level reached, memory scrubbed or kept. The other management commands (R366, R368, R371, R373, R375, R377, R388),
each with its result: IDENTIFY, PATCH, SETRECT, CTXRESUME, SETSYS, BLOCKCTL's three actions and REPLAY. COLD_START,
FULL_SERVICE, WARMSTART, PARTITION, IDENTIFY, PATCH, SETRECT, CTXRESUME, SETSYS, BLOCKCTL and REPLAY: what a warm start
keeps (log 50), the busy code (log 49), ERR (log 51), the byte order of the hash (log 61), SETRECT's refusal of a place
outside the rectangle (log 67), that a resumed block is pending again (log 53), which stacks a warm start trains (log 66)
and what HOST_GONE covers after CTXRESUME (log 102) are the model's reading. -/
def Obligations.StartsAndManagement : Prop :=
  (let scrubbed := fun (s t : State) => (∀ a, cellGet t.mem a = if Config.hostBase ≤ a then cellGet s.mem a else 0) ∧
     ∀ a ∈ t.poison, Config.hostBase ≤ a
   (∀ (s : State) (trained : BitVec 12) (tests : StartTests), s.dev.level = 0 →
       Completes s (.coldStart true trained tests) (fun t => t.empty ∧ scrubbed s t ∧ t.dev.level = 2 ∧
         t.dev.hbm = trained ∧ t.dev.dies = 15 ∧ (tests.cores ≠ [] → t.dev.err = 3) ∧ (tests.cores = [] → tests.store = true → t.dev.err = 2) ∧
         (tests.cores = [] → tests.store = false → trained ≠ 0xFFF → t.dev.err = 1) ∧ ∀ c, c < s.cores.length →
           (t.core c).on = ((s.core c).on && !tests.cores.contains c) ∧ (t.core c).tile = [] ∧ (t.core c).l1 = []) ∧
       (trained.getLsbD 0 = true → Completes s (.coldStart false trained tests) fun t =>
         t.empty ∧ t.mem = s.mem ∧ t.dev.level = 1 ∧ t.dev.hbm = 1) ∧
       (trained.getLsbD 0 = false → Completes s (.coldStart false trained tests) fun t => t.dev.level = 0 ∧ t.dev.err = 1)) ∧
     (∀ (s : State) (trained : BitVec 12) (tests : StartTests), s.dev.level = 1 →
       Completes s (.coldStart false trained tests) (fun t => t.mem = s.mem ∧ t.dev.level = 1 ∧ t.dev.hbm = s.dev.hbm ||| trained) ∧
       ((∀ k ∈ s.insts, k.launches = []) → Completes s (.fullService trained tests) fun t => t.empty ∧ t.dev.level = 2 ∧
         t.dev.hbm = trained ∧ t.insts = s.insts ∧ ∀ a, Config.hostBase ≤ a → cellGet t.mem a = cellGet s.mem a)) ∧
     (∀ (s : State), s.commanded 4 [1, 2] → s.dev.rst = false → Answers s .warmstart 0 fun t => t.empty ∧ t.dev.level = 2 ∧
       t.dev.warm = true ∧ (s.dev.fwarg0.getLsbD 0 = true → scrubbed s t) ∧ (s.dev.fwarg0.getLsbD 0 = false → t.mem = s.mem) ∧
       (s.dev.level = 2 → ∀ n, t.dev.hbm.getLsbD n = true → s.dev.hbm.getLsbD n = true) ∧
       ∀ i q, i < 4 → q < 64 → (t.queue i q).stop = true) ∧
     ∀ (s : State), s.commanded 3 [2] → s.dev.rst = false →
       (s.insts.any Inst.busy = true → Answers s .partition 3 fun t => t.dev.part = s.dev.part ∧ t.mem = s.mem) ∧
       (s.insts.any Inst.busy = false → 2 ≤ s.dev.fwarg0.toNat → Answers s .partition 5 fun t => t.dev.part = s.dev.part) ∧
       (s.insts.any Inst.busy = false → s.dev.fwarg0.toNat < 2 → Answers s .partition 0 fun t =>
         t.dev.part = .ofNat 2 s.dev.fwarg0.toNat ∧ t.empty ∧ scrubbed s t ∧ t.dev.level = 2)) ∧
  ((∀ (s : State), s.commanded 1 [1, 2] → Answers s .identify 0 fun t => t.dev.fwres = Config.deviceHash ∧ t.mem = s.mem) ∧
     (∀ (s : State), s.commanded 2 [1] →
       let pa := s.dev.fwarg0.toNat
       let len := s.dev.fwarg1.toNat
       let body := leNat ((s.homeRead pa 16).drop 8)
       let fits := paExists pa = true ∧ s.poisonedIn pa 16 = false ∧ leNat ((s.homeRead pa 16).take 4) = 0x5441504C ∧
         leNat (((s.homeRead pa 16).drop 4).take 4) = Config.romVersion.toNat ∧ body % 8 = 0 ∧ body ≤ 2 ^ 20 ∧ len = 16 + body + 384
       let signed := s.poisonedIn pa len = false ∧ Config.patchSignatureHolds (s.homeRead pa len) = true
       (¬fits → Answers s .patch 5 fun t => t.dev.patched = s.dev.patched) ∧
       (fits → ¬signed → Answers s .patch 4 fun t => t.dev.patched = s.dev.patched ∧ t.dev.err = 4) ∧
       (fits → signed → Answers s .patch 0 fun t => t.dev.patched = true)) ∧
     (∀ (s : State) (x y w h : Nat), s.commanded 5 [1, 2] → s.dev.fwarg0.toNat = x + 2 ^ 8 * y + 2 ^ 16 * w + 2 ^ 24 * h →
       x < 256 → y < 256 → w < 256 → h < 256 →
       (w < 128 ∧ h < 128 ∧ x ≤ w ∧ y ≤ h → Answers s .setrect 0 fun t =>
         t.dev.x = x ∧ t.dev.y = y ∧ t.dev.rectW = w + 1 ∧ t.dev.rectH = h + 1) ∧
       (¬(w < 128 ∧ h < 128 ∧ x ≤ w ∧ y ≤ h) → Answers s .setrect 5 fun t => t.dev.rectW = s.dev.rectW)) ∧
     (∀ (s : State), s.commanded 6 [2] → s.dev.rst = false → s.dev.fwarg0.toNat < 2 →
       (s.dev.fwarg0 = 1 → ∀ i, i < 4 → ∀ l ∈ s.heldLaunches i, s.abandonPinned l = none) → Answers s .ctxresume 0 fun t =>
       (∀ i, i < 4 → ∀ l ∈ (t.inst i).launches, ∀ x ∈ l.saved, x.held = false) ∧
         (s.dev.fwarg0 = 0 → t.dev.hostGone = false ∧ t.mem = s.mem)) ∧
     (∀ (s : State), s.commanded 7 [1, 2] →
       let n := s.dev.fwarg0.toNat % 256
       let i := s.dev.fwarg0.toNat / 256 % 256
       s.instExists i = true → i < s.insts.length →
       (n = 3 → s.dev.fwarg1.toNat % 2 ^ 16 = 0 → (s.inst i).launches = [] → Answers s .setsys 0 fun t =>
         (t.inst i).troot = s.dev.fwarg1 ∧ ∀ c ∈ s.coresOf i, (t.core c).tlb = []) ∧
       (∀ k, n = 0 ∧ s.dev.fwarg1.toNat % 8 = 0 ∨ n = 5 ∨ n = 7 ∨ n = 8 → (s.inst i).sysWrite n s.dev.fwarg1 = some k →
         Answers s .setsys 0 fun t => t.inst i = k)) ∧
     (∀ (s : State) (l : Launch), s.commanded 8 [2] → s.dev.rst = false →
       let a := s.dev.blockArgs
       let i := a.2.2.1
       let idx := a.2.2.2.1
       s.instExists i = true → i < s.insts.length → (s.inst i).named a.1 s.dev.fwarg1.toNat = some l →
       (∀ c b, a.2.1 = 0 → s.runningBlock i l idx = some c → s.blk c = some b → Answers s .blockctlHalt 0 fun t =>
         Stopping s t c b { cause := .debugHalt, state := 3 }) ∧
       (∀ x, a.2.1 = 1 → a.2.2.2.2.1 = 0 → l.abandoned = false ∨ l.complete = true → l.saved.find? (fun x => x.blk.index == idx && x.state == 3) = some x →
         Answers s .blockctlResume 0 fun t => ∃ l', t.launch i l.order = some l' ∧
           ∀ y ∈ l'.saved, y.blk.index = idx → y.blk.gang = x.blk.gang → y.state = 2) ∧
       (a.2.1 = 2 → (s.runningBlock i l idx).isSome = true ∨ (l.saved.any fun x => x.blk.index == idx) = true →
         (s.revive i l).abandonPinned l = none → Answers s .blockctlDiscard 0 fun t => ∃ l', t.launch i l.order = some l' ∧ l'.abandoned = true ∧ l'.saved = [])) ∧
     ∀ (s : State) (l : Launch), s.commanded 9 [2] → s.dev.rst = false →
       let q := s.dev.fwarg0.toNat % 64
       let i := s.dev.fwarg0.toNat / 256 % 256
       s.instExists i = true → i < s.insts.length →
       (s.inst i).completed.find? (fun l => l.queue == q && l.index == s.dev.fwarg1.toNat && !l.later) = some l →
       l.rcd.replays = true → s.replayPinned i l = none → Answers s .replay 0 fun t => ∃ r, (t.inst i).launches = (s.inst i).launches ++ [r] ∧
         r.rcd = l.rcd ∧ r.pass = l.pass + 1 ∧ r.nextG = 0 ∧ r.gangs = [] ∧ r.complete = false)

/-- The launch queues (R295, R296, R299): enabling, doorbell, stopping, clearing and skipping, the slot's sequence number,
and the head's wait. COMMAND_END, EVTAIL_WRITE and REGISTER_WRITE (R365, R366), and the clock's reduction (R2). That an
event that is not enabled changes nothing is the model's (log 62). -/
def Obligations.QueueEvents : Prop :=
  (∀ (s : State) (i q : Nat), s.hasQueue i q →
     let k := s.queue i q
     let copied := fun (t : State) (n : Nat) => ∀ pa, s.devPlace i .store k.qcva = .ok pa →
       t.mem = cellWrite s.mem pa (leBytes 8 n) ∧ (t.queue i q).stop = false
     (∀ (x : Word), k.en = false → x.getLsbD 15 = true → k.stop = false →
       let k1 := { k with logs := x.toNat % 32 }
       (k1.valid = true → Completes s (.queueEnable i q x) fun t => (t.queue i q).en = true ∧ (t.queue i q).doorbell = 0 ∧
         (t.queue i q).consumed = 0 ∧ (t.queue i q).pri = x.toNat / 2 ^ 8 % 4 ∧ (t.queue i q).logs = x.toNat % 32 ∧ copied t 0) ∧
       (k1.valid = false → Completes s (.queueEnable i q x) fun t => (t.queue i q).stop = true ∧ (t.queue i q).code = 0x0A ∧
         ∀ pa, k.qcva.toNat % 8 = 0 → s.devPlace i .store k.qcva = .ok pa → s.dev.evbase = 0 →
           t.mem = cellWrite s.mem pa (leBytes 8 0))) ∧
     (∀ (x : Word), k.en = true → Completes s (.queueEnable i q x) fun t => (t.queue i q).logs = k.logs ∧
       (t.queue i q).en = x.getLsbD 15 ∧ (t.queue i q).doorbell = k.doorbell ∧ (t.queue i q).consumed = k.consumed) ∧
     (∀ (x : Word), Completes s (.qdoorbell i q x) fun t => (t.queue i q).doorbell = max k.doorbell x.toNat ∧ t.mem = s.mem) ∧
     (Completes s (.queueStop i q) fun t => (t.queue i q).stop = true ∧ (t.queue i q).code = 0 ∧
       (t.queue i q).slot = .ofNat 32 k.consumed ∧ (t.queue i q).consumed = k.consumed ∧ t.mem = s.mem) ∧
     (k.stop = true → k.copyFault = false →
       (Completes s (.queueClearStop i q) fun t => (t.queue i q).stop = false ∧ (t.queue i q).code = 0 ∧
         (t.queue i q).consumed = k.consumed ∧ t.mem = s.mem) ∧
       Completes s (.queueSkip i q) fun t => (t.queue i q).consumed = k.consumed + 1 ∧ copied t (k.consumed + 1)) ∧
     (∀ e n seq, k.wants = true → k.owed = false → k.copyFault = false → e = Instr.seqRead i q ∧ k.reread = 0 ∨ e = Instr.seqReread i q ∧ k.reread ≠ 0 ∧ k.reread ≤ s.cyc →
       n = k.consumed % k.size → (k.qseq + .ofNat 64 (32 * n)).toNat % 32 = 0 → s.devRead i (k.qseq + .ofNat 64 (32 * n)) 8 = .ok seq →
       (leNat seq ≠ k.consumed → Completes s e fun t => (t.queue i q).head = none ∧ (t.queue i q).reread = s.cyc + 512) ∧
       ∀ hdr rec, leNat seq = k.consumed → (k.qbase + .ofNat 64 (128 * n)).toNat % 128 = 0 → s.devRead i (k.qseq + .ofNat 64 (32 * n)) 32 = .ok hdr →
         s.devRead i (k.qbase + .ofNat 64 (128 * n)) 128 = .ok rec →
         Completes s e fun t => (t.queue i q).head = some (hdr, rec) ∧ t.mem = s.mem) ∧
     ∀ hdr rec bs, k.head = some (hdr, rec) → k.satisfied = false →
       let va := BitVec.ofNat 64 (leNat ((hdr.drop 8).take 8))
       va.toNat % 8 = 0 → s.devRead i va 8 = .ok bs → Completes s (.headWaitSatisfied i q) fun t =>
         ((t.queue i q).satisfied = true ↔
           (BitVec.ofNat 64 (leNat bs)).toInt ≤ (BitVec.ofNat 64 (leNat ((hdr.drop 16).take 8))).toInt) ∧ t.mem = s.mem) ∧
  ((∀ (s : State) (r : BitVec 8), s.dev.go = true → s.dev.cmdDone = some r ∨ s.dev.cmdDone = none ∧ r = 1 ∧ 9 < s.dev.cmd.toNat →
       Completes s .commandEnd fun t => t.dev.go = false ∧ t.dev.result = r ∧ t.dev.cmdDone = none ∧
         t.dev.msix = s.dev.msix ++ [0] ∧ t.mem = s.mem) ∧
     (∀ (s : State) (x : Word), Completes s (.evtailWrite x) fun t =>
       t.dev.evtail = if s.dev.evtail ≤ x.toNat ∧ x.toNat ≤ s.dev.evhead then x.toNat else s.dev.evtail) ∧
     (∀ (s : State) (x : Word), s.dev.go = false →
       (Completes s (.registerWrite 0x08 x) fun t => t.dev.cmd = .ofNat 8 x.toNat ∧ t.dev.go = x.getLsbD 8) ∧
       (Completes s (.registerWrite 0x10 x) fun t => t.dev.fwarg0 = x) ∧
       Completes s (.registerWrite 0x18 x) fun t => t.dev.fwarg1 = x) ∧
     (∀ (s : State) (x : Word) (off : Nat), s.dev.go = true → off ∈ [0x08, 0x10, 0x18] →
       Completes s (.registerWrite off x) fun t => t = s) ∧
     ∀ (s : State) (slow : Bool), Completes s (.powerClockReduction slow) fun t => t.dev.slowClock = slow ∧ t.mem = s.mem ∧
       t.cores = s.cores)

/-- Launching and placing (R47, R51, R56, R207, R300 to R305): the dispatcher's launch, its gang, a gang passed over, the
break of a stage wait, a core cleared, a chunk of the range, and NEXTTILE's answers. Which chunk a dispenser takes is left
open (log 2). -/
def Obligations.LaunchEvents : Prop :=
  (∀ (s : State) (i q : Nat) (hdr bs : List Byte), s.hasQueue i 0 → s.hasQueue i q → (s.inst i).nextStart ≤ s.cyc →
      s.dev.level ≠ 0 → ((s.inst i).launches.filter fun l => !l.abandoned).length < 32 → (s.inst i).chooseQueue = some q →
      (s.queue i q).head = some (hdr, bs) →
      let v := s.validate i (readRecord bs)
      (v.1 = 0 → Completes s (.launchStart i) fun t => (t.queue i q).consumed = (s.queue i q).consumed + 1 ∧
        (t.queue i q).head = none ∧ (t.inst i).nextStart = s.cyc + 64 ∧ ∃ l, (t.inst i).launches =
          ((s.inst i).launches.map fun x => if x.queue = q then { x with later := true } else x) ++ [l] ∧ l.rcd = readRecord bs ∧ l.stages = v.2 ∧ l.queue = q ∧ l.index = (s.queue i q).consumed ∧ l.nextG = 0 ∧
          l.gangs = []) ∧
      (v.1 ≠ 0 → (v.1 = 8 → s.stagesPinned i (readRecord bs) = none) → Completes s (.launchStart i) fun t => (t.queue i q).stop = true ∧ (t.queue i q).code = .ofNat 8 v.1 ∧
        (t.queue i q).consumed = (s.queue i q).consumed ∧ (t.inst i).launches = (s.inst i).launches)) ∧
    (∀ (s : State) (i g n : Nat) (l : Launch) (words : List Word) (seen : List (Launch × Pending)) (cs : List Nat),
      s.hasQueue i 0 → (s.inst i).nextPlace ≤ s.cyc → s.dev.level ≠ 0 → s.dev.rst = false →
      s.firstPlaceable i [] (s.pendingAll i) = (seen, some (l, .fresh n g words, cs)) → (∀ c ∈ cs, c < s.cores.length ∧ s.unpinned c) →
      s.launch i l.order = some l →
      Completes s (.gangPlace i) fun t => (t.inst i).nextPlace = s.cyc + 16 ∧
        ∀ (k c : Nat), cs[k]? = some c → ∃ b, t.blk c = some b ∧ b.inst = i ∧ b.launch = l.order ∧ b.gidx = g ∧ b.bidx = k ∧
          b.stage = n ∧ b.gang = l.nGangs ∧ b.index = g * l.rcd.gang + k) ∧
    (∀ (s : State) (i : Nat) (seen : List (Launch × Pending)) (x : Launch × Pending), s.hasQueue i 0 →
      (s.inst i).nextPlace ≤ s.cyc → s.firstPlaceable i [] (s.pendingAll i) = (seen, none) → seen.getLast? = some x →
      64 ≤ x.2.passed x.1 → Completes s (.gangPassedOver i) fun t => (t.inst i).nextPlace = s.cyc + 16 ∧ t.cores = s.cores) ∧
    (∀ (s : State) (i n t0 c : Nat) (b : Block), s.hasQueue i 0 →
      ((s.inst i).launches.findSome? fun l => (s.stageBreak i l).map fun x => (l.order, x)) = some (n, t0, c) →
      s.blk c = some b → Completes s (.stageDeadlockBreak i) fun t =>
        Stopping s t c b { cause := .preempt, state := 2 } ∧ ∀ l, t.launch i n = some l → ∀ x ∈ l.gangs,
          x.id = b.gang → x.behind = some t0) ∧
    (∀ (s : State) (c : Nat), c < Config.numCores → c < s.cores.length → (s.core c).clearing = true → (s.core c).clearDue ≤ s.cyc →
      Completes s (.coreClearComplete c) fun t => (t.core c).clearing = false ∧ t.mem = s.mem) ∧
    (∀ (s : State) (i n cell : Nat) (l : Launch), i < 4 → cell < Config.numCells → s.launch i n = some l →
      let d := l.dispenser cell
      d.hi ≤ d.lo → let k := chunkOf (l.rcd.range - l.range) l.rcd.chunk (s.launchCells i n)
      Completes s (.rangeChunkAnswer i n cell) fun t => ∃ l', t.launch i n = some l' ∧ l'.range = l.range + k ∧
        (l'.dispenser cell).lo = l.range ∧ (l'.dispenser cell).hi = l.range + k ∧
        (l'.dispenser cell).waiting = d.waiting) ∧
    ∀ (s : State) (c u : Nat) (b : Block) (p : ProgUnit), c < Config.numCores → s.blk c = some b → s.unit c u = some p →
      (p.kind = .context → Completes s (.nexttileAnswer c u) fun t => t.unit c u = some (p.landTiles s.cyc)) ∧
      ∀ (l : Launch) (r : State × Word) (rest : List (Nat × Nat)) (k : Nat), p.kind ≠ .context →
        s.launch b.inst b.launch = some l → s.tileQueue b (cellOf c) = (c, u) :: rest →
        s.takeTile b.inst b.launch (cellOf c) = some r → p.tileSplit = some k →
        Completes s (.nexttileAnswer c u) fun t =>
          (∃ l', t.launch b.inst b.launch = some l' ∧ (l'.dispenser (cellOf c)).waiting = rest) ∧
          ∃ q, t.unit c u = some q ∧ (∀ j, j ≠ k → q.split j = p.split j) ∧
            ∀ (n : Nat) (w : Wait), (p.split k).waits[n]? = some w → w.kind = .nextTile → w.done = false →
              (q.split k).waits[n]? = some { w with done := true, res := [r.2] }

/-- Events of splits and units (R69 to R79, R92, R150, R306, R318, R323, R326): promotion, the end of a yield, a deferred
split, a join's deadline, the close after 1,024 instructions where no load of a context is unanswered, timers, wake-ups and
request marks. The moment at which a join deadline fires (log 44), that a trapped unit's deadline waits (log 90), and that
waitanyWake, sleepWake and pinRetry make the unit's own next issue the head of the agenda (log 63, log 2) are the model's
choice. -/
def Obligations.SplitEvents : Prop :=
  (∀ (s : State) (c u k : Nat) (x : Split), c < Config.numCores → s.splitOf c u k = some x →
      (s.starved c u k = true → Completes s (.starvationPromote c u k) fun t =>
        ∃ y, t.splitOf c u k = some y ∧ y.promoted = true ∧ y.alike x) ∧
      Completes s (.yieldTimeout c u k) fun t => ∃ y, t.splitOf c u k = some y ∧ y.alike x ∧
        y.waits = x.waits.filter fun w => !(w.kind == .yield && decide (w.since + 16 ≤ s.cyc))) ∧
    (∀ (s : State) (c u n : Nat) (b : Block) (p : ProgUnit) (e : DivEntry), c < Config.numCores → s.blk c = some b →
      s.unit c u = some p → p.div[n]? = some e → p.kind = .warp →
      (s.mayStart c u b p e = true → b.lets p = true → Completes s (.deferredSplitStart c u n) fun t => t.mem = s.mem ∧
        ∃ q, t.unit c u = some q ∧ q.splits.length = p.splits.length + 1 ∧ (q.split p.splits.length).pc = e.dpc ∧
          (q.split p.splits.length).mask = e.dmask ∧ q.div[n]? = some { e with started := true } ∧ q.lanes = p.lanes ∧
          q.rcnt = p.rcnt + 1 ∧ q.pail = []) ∧
      (∀ d, p.trap = none → e.owed ≠ 0 → e.deadline = some d → d ≤ s.cyc →
        ¬(e.started = true ∧ p.lateStore none = true) → p.joinedIn e.arrived < p.splits.length →
        Completes s (.joinDeadline c u n) fun t => t.mem = s.mem ∧ ∃ q, t.unit c u = some q ∧
          q.div[n]? = some { e with detached := true, deadline := none, arrived := 0, left := e.left ||| e.arrived } ∧
          (q.split (p.joinedIn e.arrived)).mask = e.arrived ∧ (q.split (p.joinedIn e.arrived)).pc = e.jpc + 8 ∧
          (q.split (p.joinedIn e.arrived)).joined = false ∧
          ∀ j, j < p.lanes.length → e.arrived.getLsbD j = true → (q.lane j).nest = (p.lane j).nest - 1 ∧
            ∀ m, e.flag = some m → m < (p.lane j).preds.length → m < 7 → (q.lane j).pred m = .t)) ∧
    (∀ (s : State) (c u k : Nat) (p : ProgUnit), c < Config.numCores → s.unit c u = some p → (s.splitOf c u k).isSome = true →
      p.trap = none → p.kind = .warp ∨ p.kind = .context ∧ (∀ e ∈ p.q.loads, e.ans ≠ .pending) → 1024 ≤ p.since → p.pending = [] →
      p.lateStore none = false →
      Completes s (.regionCountClose c u k) fun t => ∃ q, t.unit c u = some q ∧ q.rcnt = p.rcnt + 1 ∧ q.pail = [] ∧
        q.lanes = p.lanes ∧ q.since = 0 ∧ ∀ x ∈ q.splits, x.rpc = x.pc) ∧
    (∀ (s : State) (c u n : Nat) (p : ProgUnit) (e : EventSlot), c < Config.numCores → s.unit c u = some p → n < 8 →
      p.slots[n]? = some (some e) → e.kind = .timer → e.fired = false → e.num.toNat ≤ s.cyc →
      Completes s (.timerTokenFire c u n) fun t => ∃ q, t.unit c u = some q ∧ q.evp = p.evp ||| BitVec.twoPow 8 n ∧
        q.slots[n]? = some (some { e with fired := true }) ∧ q.lanes = p.lanes ∧ q.splits = p.splits) ∧
    (∀ (s : State) (c u k : Nat) (p : ProgUnit) (x : Split) (w : Wait) (i : Instr), c < Config.numCores → s.unit c u = some p →
      p.splits[k]? = some x → p.trap = none → w ∈ x.waits →
      i = .waitanyWake c u k ∧ w.kind = .event ∧ (p.chosen w.n).isSome = true ∨
        i = .sleepWake c u k ∧ w.kind = .sleep ∧ w.a ≤ s.cyc ∨ i = .pinRetry c u k ∧ w.kind = .pinned ∧ w.since + 256 ≤ s.cyc →
      Completes s i fun t => t = { s with agenda := .issue c u k s.slow :: s.agenda }) ∧
    (∀ (s : State) (c u k n : Nat) (p : ProgUnit) (x : Split) (i : Instr), c < Config.numCores → s.unit c u = some p →
      p.splits[k]? = some x → i = .icinvDevComplete c u k ∧ n = 1 ∨ i = .tlbinvComplete c u k ∧ n = 0 →
      Completes s i fun t => ∃ y, t.splitOf c u k = some y ∧ y.alike x ∧ y.waits.length = x.waits.length ∧
        ∀ w ∈ y.waits, w.kind = .invalidate → w.n = n → w.done = true) ∧
    ∀ (s : State) (c u m n : Nat) (p : ProgUnit) (i : Instr), c < Config.numCores → s.unit c u = some p →
      i = .bankPromote c u ∧ m = 0 ∧ n = 16 ∨ i = .l1PortPromote c u ∧ m = 1 ∧ n = 16 ∨
        i = .sliceAgePromote c u ∧ m = 2 ∧ n = 128 ∨ i = .hbmAgePromote c u ∧ m = 3 ∧ n = 256 →
      (∃ x ∈ p.splits, ∃ w ∈ x.waits, w.kind.requests = true ∧ w.since + n ≤ s.cyc) →
      Completes s i fun t => t.unit c u = some { p with aged := p.aged.set m true } ∧ t.mem = s.mem

/-- Requests of waiting units that other agents perform (R102, R155 to R161, R165, R183, R191, R325, R359): a load's
answer, the next operation of a request at a home slice, a guard acquired or released, a satisfied wait, a broken pin, and
a message delivered. That a waiting unit may also issue again by itself is the model's reading (log 63). -/
def Obligations.RequestEvents : Prop :=
  (∀ (s : State) (c u n : Nat) (b : Block) (p : ProgUnit) (e : LoadEntry), c < Config.numCores → s.blk c = some b →
      s.unit c u = some p → p.q.base ≤ n → p.q.loads[n - p.q.base]? = some e → e.ans = .pending →
      (∀ x ∈ p.q.loads.take (n - p.q.base), x.ans ≠ .pending) →
      s.loadBlocked c b p.q e = false → Completes s (.loadAnswer c u n) fun t => ∃ q, t.unit c u = some q ∧
        q.q.loads = p.q.loads.set (n - p.q.base) { e with ans := (s.answer c b p n e).2 } ∧ q.lanes = p.lanes ∧ q.pail = p.pail) ∧
    (∀ (s : State) (c u k : Nat) (p : ProgUnit) (x : Split) (w : Wait) (r : SliceReq) (it : SliceItem) (rest : List SliceItem)
      (i : Instr), c < Config.numCores → s.unit c u = some p → p.splits[k]? = some x → x.waits = [w] → w.kind = .slice →
      w.done = false → w.req = some r → r.items = it :: rest → s.pinHolder c it.pa = none →
      let ends := fun (m : List Host.Cell) (old : Word) => Completes s i fun t => t.mem = m ∧
        ∃ y, t.splitOf c u k = some y ∧ y.alike x ∧
          y.waits = [{ w with req := some { r with items := rest }, res := w.res ++ [old], done := rest.isEmpty }]
      (i = .sliceAtomic c u k → r.op < 48 → (w.res = [] → ∀ j ∈ r.items, s.poisonedIn j.pa r.t.bytes = false) →
        let old := (extendLoad (cellRead s.mem it.pa r.t.bytes) r.t).v
        ends (match sliceNew r.op r.t old it.b it.c with
          | some z => cellWrite s.mem it.pa (storeBytes r.t z)
          | none => s.mem) old) ∧
      (i = .sliceAmx c u k → 48 ≤ r.op → (w.res = [] → ∀ j ∈ r.items, s.recordErr (r.op == 49) j.pa = none) →
        let z := amxRecord (r.op == 49) r.t (cellRead s.mem it.pa (recordSize (r.op == 49))) it.parts
        ends (cellWrite s.mem it.pa z.1) (.ofNat 64 z.2))) ∧
    (∀ (s : State) (c u k pa : Nat) (b : Block) (x : Split) (w : Wait), c < Config.numCores → s.blk c = some b →
      s.splitOf c u k = some x → x.waits = [w] → w.done = false → (s.core c).travel = [] → s.pinHolder c pa = none →
      s.poisonedIn pa 8 = false →
      let finished := fun (t : State) => ∃ y, t.splitOf c u k = some y ∧ y.alike x ∧ y.waits = [{ w with done := true }]
      let g := s.homeWord pa
      (∀ va, w.kind = .guard → s.isContext c u = false → s.bundle = none → pa % 8 = 0 → w.res.head? = some va → s.translate c (if w.n = 1 then .load else .store) va = .ok pa →
        (w.n ≠ 1 → guardHeld g = false → Completes s (.guardAcquired c u k) fun t => finished t ∧
          t.mem = cellWrite s.mem pa (leBytes 8 (2 ^ 63 + guardCount g)) ∧ ∃ b', t.blk c = some b' ∧ pa ∈ b'.held) ∧
        (w.n = 1 → w.b ≤ guardCount g → Completes s (.guardAcquired c u k) fun t => finished t ∧ t.mem = s.mem)) ∧
      (w.kind = .release → w.n = 1 → w.b = pa → Completes s (.guardRelease c u k) fun t => finished t ∧
        t.mem = cellWrite s.mem pa (leBytes 8 ((guardCount g + 1) % 2 ^ 63 +
          (if guardHeld g = true ∧ pa ∉ b.held then 2 ^ 63 else 0)))) ∧
      (w.kind = .signal → s.swaitHolds w = true → Completes s (.swaitResume c u k) fun t => finished t ∧ t.mem = s.mem ∧
        t.agenda = .issue c u k s.slow :: s.agenda)) ∧
    (∀ (s : State) (c n d : Nat) (p : Pin) (q : ProgUnit), c < Config.numCores → (s.core c).pins[n]? = some p →
      p.refusedAt = some d → d + 65536 ≤ s.cyc → s.pinStuck c p = false → s.unit c p.unit = some q → Completes s (.pinBreak c n) fun t =>
        (∀ x ∈ (t.core c).pins, x.line ≠ p.line) ∧ ∃ r f, t.unit c p.unit = some r ∧ r.asyncs = q.asyncs ++ [f] ∧
          f.cause = .pinBreak ∧ f.kind = 2 ∧ f.info1 = p.guardVa) ∧
    ∀ (s : State) (c n : Nat) (b : Block) (m : Mail), c < Config.numCores → m.dest < s.cores.length → s.blk c = some b →
      (s.core c).sent[n]? = some m → s.inGang b m.dest = true → m.box < (s.core m.dest).mail.length →
      s.mailFull m.dest m.box = false → Completes s (.mailboxDeliver c n) fun t =>
        (t.core c).sent = (s.core c).sent.eraseIdx n ∧
          (t.core m.dest).mail = (s.core m.dest).mail.modify m.box (· ++ [m.msg])

/-- Caches, translation, stores and errors (R146, R173, R181, R194, R233, R236 to R240, R311, R364, R376, R395): a
travelling store lands at its address and nowhere else; fills bring the bytes at home. Which lines a cache keeps is in part
the model's choice (log 30), and so are the log record of a corrected error (log 59) and how an error in a core's own state
is named (log 84). -/
def Obligations.MemoryEvents : Prop :=
  (∀ (s : State) (c n : Nat) (x : Travel), c < Config.numCores → (s.core c).travel[n]? = some x → s.stuck c x = false →
      (∀ o ∈ (s.core c).travel.take n, o.touches x.pa = false ∧ x.touches o.pa = false) →
      Completes s (.storeAck c n) fun t => t.mem = cellWrite s.mem x.pa x.bytes ∧
        (t.core c).travel = (s.core c).travel.eraseIdx n ∧ (t.core c).l1 = (s.core c).l1) ∧
    (∀ (s : State) (c line : Nat) (ch : BitVec 2), c < Config.numCores → c < s.cores.length →
      (s.core c).fills.lookup line = some ch → s.pinHolder c line = none → Completes s (.l1Fill c line) fun t =>
        (∃ l, t.l1Line c line = some l ∧ l.data = cellRead t.mem (line / 128 * 128) 128) ∧
        (t.core c).fills.lookup line = none ∧ ((s.core c).travel = [] → t.mem = s.mem)) ∧
    (∀ (s : State) (line : Nat) (victim : Option Nat), paExists line = true → Completes s (.l2MissFill line victim) fun t =>
      (∃ x ∈ t.l2, x.line = line / 128 * 128) ∧ t.mem = s.mem ∧ t.cores = s.cores) ∧
    (∀ (s : State) (i n m own a k : Nat) (l : Launch), s.hasQueue i 0 → s.launch i n = some l →
      l.exchange[m]? = some (own, a, k) → Completes s (.heapExchangeReturn i n m) fun t => t.mem = s.mem ∧
        ∃ l', t.launch i n = some l' ∧ l'.exchange = l.exchange.eraseIdx m ∧ l'.heaps = setCellHeap l.heaps own
          { (l.heaps.lookup own).getD {} with free := freeBlock 17 ((l.heaps.lookup own).getD {}).free a k }) ∧
    (∀ (s : State) (n : Nat), n < 768 → Completes s (.hbmRefresh n) fun t => t = s) ∧
    (∀ (s : State) (line : Nat) (bad : List Nat) (corrected : Bool), line < Config.deviceTop →
      Completes s (.patrolRead line bad corrected) fun t => t.mem = s.mem ∧ t.cores = s.cores ∧ (∀ w ∈ s.poison, w ∈ t.poison) ∧
        ∀ w ∈ bad, line / 128 * 128 + 8 * (w % 16) ∈ t.poison) ∧
    (∀ (s : State) (c : Nat) (b : Block) (bad : List Nat), c < Config.numCores → s.blk c = some b → b.stop = none →
      Completes s (.patrolRead (Config.deviceTop + c) bad false) fun t => t.mem = s.mem ∧
        ∃ b', t.blk c = some b' ∧ b'.stop = some { cause := .machineCheck, state := 3 }) ∧
    (∀ (s : State) (c : Nat) (va : Word), c < Config.numCores → c < s.cores.length →
      (∀ e, s.findPage c va = .ok e → Completes s (.pageWalkComplete c va) fun t => e ∈ (t.core c).tlb ∧ t.mem = s.mem) ∧
      ∀ e, s.findPage c va = .error e → Completes s (.pageWalkComplete c va) fun t => t.mem = s.mem ∧ t.cores = s.cores ∧ t.cells = s.cells) ∧
    (∀ (s : State) (c line : Nat) (bad : Bool), c < Config.numCores → c < s.cores.length → paExists line = true →
      s.pinHolder c line = none → Completes s (.ifetchFill c line bad) fun t => t.mem = s.mem ∧ ∃ l ∈ (t.core c).icache,
        l.addr = line / 128 * 128 ∧ l.data = cellRead s.mem (line / 128 * 128) 128 ∧
          l.poisoned = (bad || s.poisonedIn (line / 128 * 128) 128)) ∧
    ∀ (s : State) (pa : Nat) (bs : List Byte), pa < Config.deviceTop → s.pinHolder Config.numCores pa = none →
      (Completes s (.hostMemoryRequest pa none) fun t => t.mem = s.mem ∧ t.cores = s.cores) ∧
      Completes s (.hostMemoryRequest pa (some bs)) fun t => t.mem = cellWrite s.mem pa (bs.take (128 - pa % 128)) ∧
        t.cores = s.cores

/-- The copy, collective and peer engines (R167, R169, R327 to R333, R373, R375): a copy without flags writes what it moves
and is done, or ends with an asynchronous ENGINE_FAULT; a contribution waits for the others; payloads are received, sent
and answered; links change. Which bytes a faulted command wrote (log 13) and where a port leads (log 18) are left open. -/
def Obligations.EngineEvents : Prop :=
  (∀ (s : State) (c : Nat) (b : Block) (k : Cmd) (e : TileEntry) (rest : List TileEntry), c < Config.numCores →
      s.blk c = some b → b.oldest .copy = some k → k.handles = e :: rest → b.liveEntry k.w.handle e = some e → (s.core c).travel = [] → s.resultRoom c k 0 = true →
      k.w.flagAcq = false → k.w.flagRel = false →
      let m := s.copyMoves c b k e
      m.fault = none → m.pin = none →
      (m.bad = [] → Completes s (.copyComplete c) fun t => t.mem = (s.applyMoves b.inst m c).mem ∧
        ∃ b', t.blk c = some b' ∧ b'.finds k.seq .done) ∧
      ∀ p, m.bad ≠ [] → k.orphan = false → s.unit c k.unit = some p → Completes s (.copyComplete c) fun t =>
        (∃ b', t.blk c = some b' ∧ b'.finds k.seq .faulted) ∧ ∃ q f, t.unit c k.unit = some q ∧ q.asyncs = p.asyncs ++ [f] ∧
          f.cause = .engineFault ∧ f.kind = 2 ∧ f.cmdpc = k.pc ∧ f.cmdseq = .ofNat 64 k.seq ∧ f.info1 ∈ m.bad) ∧
    (∀ (s : State) (c : Nat) (b : Block) (k : Cmd) (xs : List Word), c < Config.numCores → s.blk c = some b →
      (b.cmds.filter fun k => k.engine == .coll && k.state == .waiting).getLast? = some k → (s.core c).travel = [] → k.w.flagAcq = false →
      let d := collDesc ((k.ops[3]?).getD 0)
      s.engElems b.inst ((k.ops[0]?).getD 0) d.t d.n = .ok xs → 1 < d.parts → s.colls = [] →
      Completes s (.collArrival c) fun t => t.mem = s.mem ∧ (∃ x, t.colls = [x] ∧ x.acc = xs ∧ x.id = .ofNat 64 d.id ∧
        x.parts = [(c, { k with state := .running })]) ∧ ∃ b', t.blk c = some b' ∧ b'.finds k.seq .running) ∧
    (∀ (s : State) (die : Nat) (va : Word) (bs : List Byte) (op : BitVec 2) (x : Word), die < Config.numDies →
      let m := s.portWrites (s.instOfDie die) va bs
      m.fault = none → m.pin = none → m.bad = [] → Completes s (.peerReceive die va bs none op x) fun t =>
        t.mem = (s.applyMoves (s.instOfDie die) m).mem) ∧
    (∀ (s : State) (c seq : Nat) (b : Block) (k : Cmd) (payload bs : List Byte), c < Config.numCores → s.blk c = some b →
      b.peerHead seq = some k → s.resultRoom c k 2 = true → (s.core c).travel = [] →
      let off := peerOff ((k.ops[3]?).getD 0)
      (s.offRectangle off = true → ∀ st, Completes s (.peerAck c seq st payload) fun t =>
        ∃ b', t.blk c = some b' ∧ b'.finds k.seq .faulted) ∧
      (s.offRectangle off = false → s.closed.contains off = false →
        (off = (0, 0) → ∀ st s1, s.peerSelf c b.inst k = .ok s1 → Completes s (.peerAck c seq st payload) fun t =>
          t.mem = s1.mem ∧ ∃ b', t.blk c = some b' ∧ b'.finds k.seq .done) ∧
        (off ≠ (0, 0) → (k.op = 0 → s.peerPayload b.inst k = .ok bs → Completes s (.peerAck c seq .done payload) fun t =>
            t.mem = s.mem ∧ (∃ b', t.blk c = some b' ∧
              b'.finds k.seq (if (s.portToward off).isSome then .done else .faulted)) ∧
            ((s.portToward off).isSome = true → ∃ x, t.peerOut = s.peerOut ++ [x] ∧ x.payload = bs ∧ x.die = dieOf c ∧
              x.core = c ∧ x.seq = seq)) ∧
          Completes s (.peerAck c seq .remoteFault payload) fun t => ∃ b', t.blk c = some b' ∧ b'.finds k.seq .faulted))) ∧
    (∀ (s : State) (c seq : Nat) (b : Block) (k : Cmd), c < Config.numCores → s.blk c = some b → b.peerHead seq = some k →
      s.resultRoom c k 2 = true → Completes s (.linkDown c seq) fun t => ∃ b', t.blk c = some b' ∧ b'.finds k.seq .faulted) ∧
    (∀ (s : State) (die len : Nat) (va : Word) (bs : List Byte), die < Config.numDies →
      s.portRead (s.instOfDie die) va len = .ok bs → Completes s (.peerReadRequest die va len) fun t => t.mem = s.mem ∧
        ∃ x, t.peerOut = s.peerOut ++ [x] ∧ x.payload = bs ∧ x.die = die) ∧
    (∀ (s : State) (n : Nat) (p : Port), n < 16 → s.ports[n]? = some p →
      (Completes s (.linkFlitReplay n) fun t => t.ports[n]? = some { p with replays := p.replays + 1 } ∧ t.cores = s.cores) ∧
      (∀ up, Completes s (.peerLinkChange n up) fun t => t.ports[n]? = some { p with up := up }) ∧
      ∀ dx dy flit, Completes s (.peerFlitForward dx dy flit) fun t => t.ports[n]? =
        some (if s.portToward (dx, dy) = some n then { p with flits := p.flits ++ [flit] } else p)) ∧
    ∀ (s : State) (dx dy : Int), Completes s (.peerConnectionClose dx dy) fun t => t.closed.contains (dx, dy) = true

/-- The matrix command queue and the array's events (R342, R345, R348, R353 to R355): the head starts, an MZERO leaves +0
in every element, an MLOADB loads its weights, scale values take effect, and drained rows commit. The corners of the array
that the manual leaves open are the model's reading (log 42). -/
def Obligations.ArrayEvents : Prop :=
  (∀ (s : State) (c : Nat) (b : Block) (k : Cmd) (rest : List Cmd), c < Config.numCores → s.blk c = some b →
      b.mqueue = k :: rest → b.stop = none → (s.core c).arr.opened = [] → (s.core c).arr.running = none →
      (∃ x ∈ b.cmds, x.seq = k.seq) → Completes s (.matrixCommandStart c) fun t => (t.core c).arr.running = some k.seq ∧
        ∃ b', t.blk c = some b' ∧ b'.finds k.seq .running) ∧
    (∀ (s : State) (c : Nat) (b : Block) (k : Cmd) (e : TileEntry), c < Config.numCores → s.blk c = some b →
      s.runningCmd c b = some k → k.op = 3 → k.handles = [e] → e.level = .acc → (s.core c).travel = [] → k.w.flagAcq = false → k.w.flagRel = false →
      s.resultRoom c k 1 = true → Completes s (.matrixCommandComplete c) fun t => (t.core c).arr.running = none ∧
        t.mem = s.mem ∧ (∃ b', t.blk c = some b' ∧ b'.finds k.seq .done) ∧
        (∀ i j, i < e.rows → j < 128 → (t.core c).getAcc (e.base + i) j = 0) ∧
        ∀ i j, i < e.base ∨ e.base + e.rows ≤ i → j < 128 → (t.core c).getAcc i j = (s.core c).getAcc i j) ∧
    (∀ (s : State) (c : Nat) (b : Block) (k : Cmd) (e : TileEntry) (hs : List TileEntry), c < Config.numCores → s.blk c = some b →
      s.readyLoad c b = some k → k.op = 4 → k.handles = e :: hs → (s.core c).travel = [] → k.w.flagAcq = false → k.w.flagRel = false →
      s.resultRoom c k 1 = true →
      let set := k.w.sub.toNat % 2
      let r := s.loadWeights c b set e hs.head? (((k.ops[0]?).getD 0).toNat % 2 ^ 32)
      Completes s (.mloadbComplete c) fun t => (∃ b', t.blk c = some b' ∧ b'.finds k.seq .done) ∧
        (t.core c).arr.weights = (r.core c).arr.weights ∧ (t.core c).arr.wtype = (r.core c).arr.wtype ∧
        (t.core c).arr.wbase = (r.core c).arr.wbase ∧ (t.core c).arr.wsparse = (r.core c).arr.wsparse ∧
        (t.core c).arr.clatch = (r.core c).arr.clatch ∧ t.mem = s.mem) ∧
    (∀ (s : State) (c u : Nat) (p : ProgUnit), c < Config.numCores → u < 22 → s.unit c u = some p →
      Completes s (.mscaleEffect c u) fun t => t.unit c u = some p.settleScales ∧ t.mem = s.mem) ∧
    ∀ (s : State) (c : Nat), c < Config.numCores → c < s.cores.length →
      let due := fun (d : Drained) => decide (d.due ≤ s.cyc)
      Completes s (.drainCommit c) fun t =>
        (t.core c).arr.drained = (s.core c).arr.drained.filter (fun d => !due d) ∧ ∀ k, (t.core k).tile =
          ((((s.core c).arr.drained.filter due).foldl (fun s d => d.items.foldl (State.commitItem · c 0 0) s) s).core k).tile

/-- Stops and saves (R207, R218, R221, R225, R227 to R230, R368): the next frame's handler, the watchdog, a request to
stop, and a stopped block that is saved, or discarded, and leaves its core to clear. HOST_LINK_RESET and
HOST_RESTART_COMPLETE (R375): every queue stops, every running block is asked to stop and is held, and once all are saved
the restart ends. The save header's cause is the model's reading (log 55), and some bytes of the slot are free (log 10). -/
def Obligations.SaveEvents : Prop :=
  ((∀ (s : State) (c : Nat) (b : Block) (f : Frame) (rest : List Frame), c < Config.numCores → s.blk c = some b →
       21 < b.units.length → (s.core c).hnd = none → (s.core c).trapQ = f :: rest → f.unwritten = false → b.dying = false →
       (s.inst b.inst).trapbase ≠ 0 → Completes s (.trapEntry c) fun t => (t.core c).trapQ = rest ∧ t.mem = s.mem ∧
         (∃ h, (t.core c).hnd = some h ∧ h.unit = f.unit ∧ h.cause = f.cause.code ∧ h.frameVa = s.frameVa b f.unit) ∧
         ∃ q, t.unit c 21 = some q ∧ q.kind = .handler ∧
           (q.split 0).pc = (s.inst b.inst).trapbase + (if f.kind = 3 then 0x800 else 0)) ∧
     (∀ (s : State) (c : Nat) (b : Block) (h : Handler), c < Config.numCores → s.blk c = some b → (s.core c).hnd = some h →
       b.stop = none → 2 ^ 20 ≤ s.cyc - h.start → Completes s (.handlerWatchdog c) fun t => (t.core c).hnd = none ∧
         t.unit c 21 = none ∧ (t.core c).trapQ = h.frame :: (s.core c).trapQ ∧ t.mem = s.mem ∧
         ∃ b', t.blk c = some b' ∧ b'.stop = some { cause := .handlerWatchdog, state := 3 }) ∧
     (∀ (s : State) (c : Nat) (b : Block), c < Config.numCores → s.blk c = some b →
       Completes s (.preemptionRequest c) fun t => Stopping s t c b { cause := .preempt, state := 2 } ∧ t.mem = s.mem) ∧
     ∀ (s : State) (c : Nat) (b : Block) (r : StopReq) (l : Launch) (i : Instr), c < Config.numCores → s.blk c = some b →
       b.stop = some r → s.gangStopped c b r = true → s.launch b.inst b.launch = some l →
       ((s.quiesce c).core c).travel = [] → (s.quiesce c).unpinned c → (∀ f ∈ ((s.quiesce c).core c).trapQ, f.unwritten = false) → i = .blockSave c ∨ i = .forcedSave c ∧ (s.core c).hnd.isSome = true →
       Completes s i fun t => t.blk c = none ∧ (t.core c).clearing = true ∧ (t.core c).clearDue = s.cyc + 6144 ∧
         (t.core c).tile = [] ∧ (t.core c).hnd = none ∧ ∃ l', t.launch b.inst b.launch = some l' ∧
           (r.state = 0 → l'.abandoned = true) ∧
           (r.state ≠ 0 → ∃ x, l'.saved = l.saved ++ [x] ∧ x.blk.index = b.index ∧ x.blk.gen = b.gen + 1 ∧
             (x.cause = (if (s.core c).hnd.isSome then .forcedSave else r.cause) ∧ x.state = r.state ∨
               x.cause = .machineCheck ∧ x.state = 3))) ∧
  ((∀ (s : State), s.dev.level ≠ 0 → Completes s .hostLinkReset fun t => t.dev.rst = true ∧ t.dev.hostGone = true ∧
       (∀ i q, i < 4 → s.hasQueue i q → (t.queue i q).stop = true) ∧
       ∀ c b, c < Config.numCores → s.blk c = some b → ∃ b' r, t.blk c = some b' ∧ b'.stop = some r ∧ r.held = true) ∧
     (∀ (s : State), s.dev.rst = true → s.empty → Completes s .hostRestartComplete fun t => t.dev.rst = false))
end

