-- ==== Sys2Proof/Laws/State.lean ====
section
/-! SUPPORT. What the updates of State change: one lemma per field per update, so that no later proof unfolds a record
update. -/

namespace Sys2Proof.Machine

/-- What every step of a fold keeps, the fold keeps. -/
theorem foldl_keeps {α β γ : Type} (g : β → γ) (f : β → α → β) (h : ∀ b a, g (f b a) = g b) (l : List α) (b : β) :
    g (l.foldl f b) = g b := by
  induction l generalizing b with
  | nil => rfl
  | cons a l ih => rw [List.foldl_cons, ih, h]

/-! ## Cores, instances, cycles -/

@[simp] theorem State.setCore_cyc (s : State) (c : Nat) (k : Core) : (s.setCore c k).cyc = s.cyc := rfl
@[simp] theorem State.setCore_mem (s : State) (c : Nat) (k : Core) : (s.setCore c k).mem = s.mem := rfl
@[simp] theorem State.setCore_poison (s : State) (c : Nat) (k : Core) : (s.setCore c k).poison = s.poison := rfl
@[simp] theorem State.setCore_stamps (s : State) (c : Nat) (k : Core) : (s.setCore c k).stamps = s.stamps := rfl
@[simp] theorem State.setCore_l2 (s : State) (c : Nat) (k : Core) : (s.setCore c k).l2 = s.l2 := rfl
@[simp] theorem State.setCore_dev (s : State) (c : Nat) (k : Core) : (s.setCore c k).dev = s.dev := rfl
@[simp] theorem State.setCore_insts (s : State) (c : Nat) (k : Core) : (s.setCore c k).insts = s.insts := rfl
@[simp] theorem State.setCore_cells (s : State) (c : Nat) (k : Core) : (s.setCore c k).cells = s.cells := rfl
@[simp] theorem State.setCore_dies (s : State) (c : Nat) (k : Core) : (s.setCore c k).dies = s.dies := rfl
@[simp] theorem State.setCore_colls (s : State) (c : Nat) (k : Core) : (s.setCore c k).colls = s.colls := rfl
@[simp] theorem State.setCore_ports (s : State) (c : Nat) (k : Core) : (s.setCore c k).ports = s.ports := rfl
@[simp] theorem State.setCore_closed (s : State) (c : Nat) (k : Core) : (s.setCore c k).closed = s.closed := rfl
@[simp] theorem State.setCore_peerOut (s : State) (c : Nat) (k : Core) : (s.setCore c k).peerOut = s.peerOut := rfl
@[simp] theorem State.setCore_agenda (s : State) (c : Nat) (k : Core) : (s.setCore c k).agenda = s.agenda := rfl
@[simp] theorem State.setCore_cur (s : State) (c : Nat) (k : Core) : (s.setCore c k).cur = s.cur := rfl
@[simp] theorem State.setCore_bundle (s : State) (c : Nat) (k : Core) : (s.setCore c k).bundle = s.bundle := rfl
@[simp] theorem State.setCore_slow (s : State) (c : Nat) (k : Core) : (s.setCore c k).slow = s.slow := rfl
@[simp] theorem State.setCore_fresh (s : State) (c : Nat) (k : Core) : (s.setCore c k).fresh = s.fresh := rfl
@[simp] theorem State.setCore_gone (s : State) (c : Nat) (k : Core) : (s.setCore c k).gone = s.gone := rfl

@[simp] theorem State.modCore_cyc (s : State) (c : Nat) (f : Core → Core) : (s.modCore c f).cyc = s.cyc := rfl
@[simp] theorem State.modCore_mem (s : State) (c : Nat) (f : Core → Core) : (s.modCore c f).mem = s.mem := rfl
@[simp] theorem State.modCore_poison (s : State) (c : Nat) (f : Core → Core) : (s.modCore c f).poison = s.poison := rfl
@[simp] theorem State.modCore_stamps (s : State) (c : Nat) (f : Core → Core) : (s.modCore c f).stamps = s.stamps := rfl
@[simp] theorem State.modCore_l2 (s : State) (c : Nat) (f : Core → Core) : (s.modCore c f).l2 = s.l2 := rfl
@[simp] theorem State.modCore_dev (s : State) (c : Nat) (f : Core → Core) : (s.modCore c f).dev = s.dev := rfl
@[simp] theorem State.modCore_insts (s : State) (c : Nat) (f : Core → Core) : (s.modCore c f).insts = s.insts := rfl
@[simp] theorem State.modCore_cells (s : State) (c : Nat) (f : Core → Core) : (s.modCore c f).cells = s.cells := rfl
@[simp] theorem State.modCore_dies (s : State) (c : Nat) (f : Core → Core) : (s.modCore c f).dies = s.dies := rfl
@[simp] theorem State.modCore_colls (s : State) (c : Nat) (f : Core → Core) : (s.modCore c f).colls = s.colls := rfl
@[simp] theorem State.modCore_ports (s : State) (c : Nat) (f : Core → Core) : (s.modCore c f).ports = s.ports := rfl
@[simp] theorem State.modCore_closed (s : State) (c : Nat) (f : Core → Core) : (s.modCore c f).closed = s.closed := rfl
@[simp] theorem State.modCore_peerOut (s : State) (c : Nat) (f : Core → Core) : (s.modCore c f).peerOut = s.peerOut := rfl
@[simp] theorem State.modCore_agenda (s : State) (c : Nat) (f : Core → Core) : (s.modCore c f).agenda = s.agenda := rfl
@[simp] theorem State.modCore_cur (s : State) (c : Nat) (f : Core → Core) : (s.modCore c f).cur = s.cur := rfl
@[simp] theorem State.modCore_bundle (s : State) (c : Nat) (f : Core → Core) : (s.modCore c f).bundle = s.bundle := rfl
@[simp] theorem State.modCore_slow (s : State) (c : Nat) (f : Core → Core) : (s.modCore c f).slow = s.slow := rfl
@[simp] theorem State.modCore_fresh (s : State) (c : Nat) (f : Core → Core) : (s.modCore c f).fresh = s.fresh := rfl
@[simp] theorem State.modCore_gone (s : State) (c : Nat) (f : Core → Core) : (s.modCore c f).gone = s.gone := rfl

@[simp] theorem State.setBlk_cyc (s : State) (c : Nat) (b : Block) : (s.setBlk c b).cyc = s.cyc := rfl
@[simp] theorem State.setBlk_mem (s : State) (c : Nat) (b : Block) : (s.setBlk c b).mem = s.mem := rfl
@[simp] theorem State.setBlk_poison (s : State) (c : Nat) (b : Block) : (s.setBlk c b).poison = s.poison := rfl
@[simp] theorem State.setBlk_stamps (s : State) (c : Nat) (b : Block) : (s.setBlk c b).stamps = s.stamps := rfl
@[simp] theorem State.setBlk_l2 (s : State) (c : Nat) (b : Block) : (s.setBlk c b).l2 = s.l2 := rfl
@[simp] theorem State.setBlk_dev (s : State) (c : Nat) (b : Block) : (s.setBlk c b).dev = s.dev := rfl
@[simp] theorem State.setBlk_insts (s : State) (c : Nat) (b : Block) : (s.setBlk c b).insts = s.insts := rfl
@[simp] theorem State.setBlk_cells (s : State) (c : Nat) (b : Block) : (s.setBlk c b).cells = s.cells := rfl
@[simp] theorem State.setBlk_dies (s : State) (c : Nat) (b : Block) : (s.setBlk c b).dies = s.dies := rfl
@[simp] theorem State.setBlk_colls (s : State) (c : Nat) (b : Block) : (s.setBlk c b).colls = s.colls := rfl
@[simp] theorem State.setBlk_ports (s : State) (c : Nat) (b : Block) : (s.setBlk c b).ports = s.ports := rfl
@[simp] theorem State.setBlk_closed (s : State) (c : Nat) (b : Block) : (s.setBlk c b).closed = s.closed := rfl
@[simp] theorem State.setBlk_peerOut (s : State) (c : Nat) (b : Block) : (s.setBlk c b).peerOut = s.peerOut := rfl
@[simp] theorem State.setBlk_agenda (s : State) (c : Nat) (b : Block) : (s.setBlk c b).agenda = s.agenda := rfl
@[simp] theorem State.setBlk_cur (s : State) (c : Nat) (b : Block) : (s.setBlk c b).cur = s.cur := rfl
@[simp] theorem State.setBlk_bundle (s : State) (c : Nat) (b : Block) : (s.setBlk c b).bundle = s.bundle := rfl
@[simp] theorem State.setBlk_slow (s : State) (c : Nat) (b : Block) : (s.setBlk c b).slow = s.slow := rfl
@[simp] theorem State.setBlk_fresh (s : State) (c : Nat) (b : Block) : (s.setBlk c b).fresh = s.fresh := rfl
@[simp] theorem State.setBlk_gone (s : State) (c : Nat) (b : Block) : (s.setBlk c b).gone = s.gone := rfl

@[simp] theorem State.modInst_cyc (s : State) (i : Nat) (f : Inst → Inst) : (s.modInst i f).cyc = s.cyc := rfl
@[simp] theorem State.modInst_mem (s : State) (i : Nat) (f : Inst → Inst) : (s.modInst i f).mem = s.mem := rfl
@[simp] theorem State.modInst_poison (s : State) (i : Nat) (f : Inst → Inst) : (s.modInst i f).poison = s.poison := rfl
@[simp] theorem State.modInst_stamps (s : State) (i : Nat) (f : Inst → Inst) : (s.modInst i f).stamps = s.stamps := rfl
@[simp] theorem State.modInst_l2 (s : State) (i : Nat) (f : Inst → Inst) : (s.modInst i f).l2 = s.l2 := rfl
@[simp] theorem State.modInst_dev (s : State) (i : Nat) (f : Inst → Inst) : (s.modInst i f).dev = s.dev := rfl
@[simp] theorem State.modInst_cells (s : State) (i : Nat) (f : Inst → Inst) : (s.modInst i f).cells = s.cells := rfl
@[simp] theorem State.modInst_dies (s : State) (i : Nat) (f : Inst → Inst) : (s.modInst i f).dies = s.dies := rfl
@[simp] theorem State.modInst_cores (s : State) (i : Nat) (f : Inst → Inst) : (s.modInst i f).cores = s.cores := rfl
@[simp] theorem State.modInst_colls (s : State) (i : Nat) (f : Inst → Inst) : (s.modInst i f).colls = s.colls := rfl
@[simp] theorem State.modInst_ports (s : State) (i : Nat) (f : Inst → Inst) : (s.modInst i f).ports = s.ports := rfl
@[simp] theorem State.modInst_closed (s : State) (i : Nat) (f : Inst → Inst) : (s.modInst i f).closed = s.closed := rfl
@[simp] theorem State.modInst_peerOut (s : State) (i : Nat) (f : Inst → Inst) : (s.modInst i f).peerOut = s.peerOut := rfl
@[simp] theorem State.modInst_agenda (s : State) (i : Nat) (f : Inst → Inst) : (s.modInst i f).agenda = s.agenda := rfl
@[simp] theorem State.modInst_cur (s : State) (i : Nat) (f : Inst → Inst) : (s.modInst i f).cur = s.cur := rfl
@[simp] theorem State.modInst_bundle (s : State) (i : Nat) (f : Inst → Inst) : (s.modInst i f).bundle = s.bundle := rfl
@[simp] theorem State.modInst_slow (s : State) (i : Nat) (f : Inst → Inst) : (s.modInst i f).slow = s.slow := rfl
@[simp] theorem State.modInst_fresh (s : State) (i : Nat) (f : Inst → Inst) : (s.modInst i f).fresh = s.fresh := rfl
@[simp] theorem State.modInst_gone (s : State) (i : Nat) (f : Inst → Inst) : (s.modInst i f).gone = s.gone := rfl

@[simp] theorem State.modLaunch_cyc (s : State) (i n : Nat) (f : Launch → Launch) : (s.modLaunch i n f).cyc = s.cyc := rfl
@[simp] theorem State.modLaunch_mem (s : State) (i n : Nat) (f : Launch → Launch) : (s.modLaunch i n f).mem = s.mem := rfl
@[simp] theorem State.modLaunch_poison (s : State) (i n : Nat) (f : Launch → Launch) : (s.modLaunch i n f).poison = s.poison := rfl
@[simp] theorem State.modLaunch_stamps (s : State) (i n : Nat) (f : Launch → Launch) : (s.modLaunch i n f).stamps = s.stamps := rfl
@[simp] theorem State.modLaunch_l2 (s : State) (i n : Nat) (f : Launch → Launch) : (s.modLaunch i n f).l2 = s.l2 := rfl
@[simp] theorem State.modLaunch_dev (s : State) (i n : Nat) (f : Launch → Launch) : (s.modLaunch i n f).dev = s.dev := rfl
@[simp] theorem State.modLaunch_cells (s : State) (i n : Nat) (f : Launch → Launch) : (s.modLaunch i n f).cells = s.cells := rfl
@[simp] theorem State.modLaunch_dies (s : State) (i n : Nat) (f : Launch → Launch) : (s.modLaunch i n f).dies = s.dies := rfl
@[simp] theorem State.modLaunch_cores (s : State) (i n : Nat) (f : Launch → Launch) : (s.modLaunch i n f).cores = s.cores := rfl
@[simp] theorem State.modLaunch_colls (s : State) (i n : Nat) (f : Launch → Launch) : (s.modLaunch i n f).colls = s.colls := rfl
@[simp] theorem State.modLaunch_ports (s : State) (i n : Nat) (f : Launch → Launch) : (s.modLaunch i n f).ports = s.ports := rfl
@[simp] theorem State.modLaunch_closed (s : State) (i n : Nat) (f : Launch → Launch) : (s.modLaunch i n f).closed = s.closed := rfl
@[simp] theorem State.modLaunch_peerOut (s : State) (i n : Nat) (f : Launch → Launch) : (s.modLaunch i n f).peerOut = s.peerOut := rfl
@[simp] theorem State.modLaunch_agenda (s : State) (i n : Nat) (f : Launch → Launch) : (s.modLaunch i n f).agenda = s.agenda := rfl
@[simp] theorem State.modLaunch_cur (s : State) (i n : Nat) (f : Launch → Launch) : (s.modLaunch i n f).cur = s.cur := rfl
@[simp] theorem State.modLaunch_bundle (s : State) (i n : Nat) (f : Launch → Launch) : (s.modLaunch i n f).bundle = s.bundle := rfl
@[simp] theorem State.modLaunch_slow (s : State) (i n : Nat) (f : Launch → Launch) : (s.modLaunch i n f).slow = s.slow := rfl
@[simp] theorem State.modLaunch_fresh (s : State) (i n : Nat) (f : Launch → Launch) : (s.modLaunch i n f).fresh = s.fresh := rfl
@[simp] theorem State.modLaunch_gone (s : State) (i n : Nat) (f : Launch → Launch) : (s.modLaunch i n f).gone = s.gone := rfl

@[simp] theorem State.count_cyc (s : State) (c ev n : Nat) : (s.count c ev n).cyc = s.cyc := rfl
@[simp] theorem State.count_mem (s : State) (c ev n : Nat) : (s.count c ev n).mem = s.mem := rfl
@[simp] theorem State.count_poison (s : State) (c ev n : Nat) : (s.count c ev n).poison = s.poison := rfl
@[simp] theorem State.count_stamps (s : State) (c ev n : Nat) : (s.count c ev n).stamps = s.stamps := rfl
@[simp] theorem State.count_l2 (s : State) (c ev n : Nat) : (s.count c ev n).l2 = s.l2 := rfl
@[simp] theorem State.count_dev (s : State) (c ev n : Nat) : (s.count c ev n).dev = s.dev := rfl
@[simp] theorem State.count_insts (s : State) (c ev n : Nat) : (s.count c ev n).insts = s.insts := rfl
@[simp] theorem State.count_cells (s : State) (c ev n : Nat) : (s.count c ev n).cells = s.cells := rfl
@[simp] theorem State.count_dies (s : State) (c ev n : Nat) : (s.count c ev n).dies = s.dies := rfl
@[simp] theorem State.count_colls (s : State) (c ev n : Nat) : (s.count c ev n).colls = s.colls := rfl
@[simp] theorem State.count_ports (s : State) (c ev n : Nat) : (s.count c ev n).ports = s.ports := rfl
@[simp] theorem State.count_closed (s : State) (c ev n : Nat) : (s.count c ev n).closed = s.closed := rfl
@[simp] theorem State.count_peerOut (s : State) (c ev n : Nat) : (s.count c ev n).peerOut = s.peerOut := rfl
@[simp] theorem State.count_agenda (s : State) (c ev n : Nat) : (s.count c ev n).agenda = s.agenda := rfl
@[simp] theorem State.count_cur (s : State) (c ev n : Nat) : (s.count c ev n).cur = s.cur := rfl
@[simp] theorem State.count_bundle (s : State) (c ev n : Nat) : (s.count c ev n).bundle = s.bundle := rfl
@[simp] theorem State.count_slow (s : State) (c ev n : Nat) : (s.count c ev n).slow = s.slow := rfl
@[simp] theorem State.count_fresh (s : State) (c ev n : Nat) : (s.count c ev n).fresh = s.fresh := rfl
@[simp] theorem State.count_gone (s : State) (c ev n : Nat) : (s.count c ev n).gone = s.gone := rfl

@[simp] theorem State.tickSend_cyc (s : State) (c : Nat) : (s.tickSend c).cyc = s.cyc := rfl
@[simp] theorem State.tickSend_mem (s : State) (c : Nat) : (s.tickSend c).mem = s.mem := rfl
@[simp] theorem State.tickSend_poison (s : State) (c : Nat) : (s.tickSend c).poison = s.poison := rfl
@[simp] theorem State.tickSend_stamps (s : State) (c : Nat) : (s.tickSend c).stamps = s.stamps := rfl
@[simp] theorem State.tickSend_l2 (s : State) (c : Nat) : (s.tickSend c).l2 = s.l2 := rfl
@[simp] theorem State.tickSend_dev (s : State) (c : Nat) : (s.tickSend c).dev = s.dev := rfl
@[simp] theorem State.tickSend_insts (s : State) (c : Nat) : (s.tickSend c).insts = s.insts := rfl
@[simp] theorem State.tickSend_cells (s : State) (c : Nat) : (s.tickSend c).cells = s.cells := rfl
@[simp] theorem State.tickSend_dies (s : State) (c : Nat) : (s.tickSend c).dies = s.dies := rfl
@[simp] theorem State.tickSend_colls (s : State) (c : Nat) : (s.tickSend c).colls = s.colls := rfl
@[simp] theorem State.tickSend_ports (s : State) (c : Nat) : (s.tickSend c).ports = s.ports := rfl
@[simp] theorem State.tickSend_closed (s : State) (c : Nat) : (s.tickSend c).closed = s.closed := rfl
@[simp] theorem State.tickSend_peerOut (s : State) (c : Nat) : (s.tickSend c).peerOut = s.peerOut := rfl
@[simp] theorem State.tickSend_agenda (s : State) (c : Nat) : (s.tickSend c).agenda = s.agenda := rfl
@[simp] theorem State.tickSend_cur (s : State) (c : Nat) : (s.tickSend c).cur = s.cur := rfl
@[simp] theorem State.tickSend_bundle (s : State) (c : Nat) : (s.tickSend c).bundle = s.bundle := rfl
@[simp] theorem State.tickSend_slow (s : State) (c : Nat) : (s.tickSend c).slow = s.slow := rfl
@[simp] theorem State.tickSend_fresh (s : State) (c : Nat) : (s.tickSend c).fresh = s.fresh := rfl
@[simp] theorem State.tickSend_gone (s : State) (c : Nat) : (s.tickSend c).gone = s.gone := rfl

@[simp] theorem State.tickRecv_cyc (s : State) (c n : Nat) : (s.tickRecv c n).cyc = s.cyc := rfl
@[simp] theorem State.tickRecv_mem (s : State) (c n : Nat) : (s.tickRecv c n).mem = s.mem := rfl
@[simp] theorem State.tickRecv_poison (s : State) (c n : Nat) : (s.tickRecv c n).poison = s.poison := rfl
@[simp] theorem State.tickRecv_stamps (s : State) (c n : Nat) : (s.tickRecv c n).stamps = s.stamps := rfl
@[simp] theorem State.tickRecv_l2 (s : State) (c n : Nat) : (s.tickRecv c n).l2 = s.l2 := rfl
@[simp] theorem State.tickRecv_dev (s : State) (c n : Nat) : (s.tickRecv c n).dev = s.dev := rfl
@[simp] theorem State.tickRecv_insts (s : State) (c n : Nat) : (s.tickRecv c n).insts = s.insts := rfl
@[simp] theorem State.tickRecv_cells (s : State) (c n : Nat) : (s.tickRecv c n).cells = s.cells := rfl
@[simp] theorem State.tickRecv_dies (s : State) (c n : Nat) : (s.tickRecv c n).dies = s.dies := rfl
@[simp] theorem State.tickRecv_colls (s : State) (c n : Nat) : (s.tickRecv c n).colls = s.colls := rfl
@[simp] theorem State.tickRecv_ports (s : State) (c n : Nat) : (s.tickRecv c n).ports = s.ports := rfl
@[simp] theorem State.tickRecv_closed (s : State) (c n : Nat) : (s.tickRecv c n).closed = s.closed := rfl
@[simp] theorem State.tickRecv_peerOut (s : State) (c n : Nat) : (s.tickRecv c n).peerOut = s.peerOut := rfl
@[simp] theorem State.tickRecv_agenda (s : State) (c n : Nat) : (s.tickRecv c n).agenda = s.agenda := rfl
@[simp] theorem State.tickRecv_cur (s : State) (c n : Nat) : (s.tickRecv c n).cur = s.cur := rfl
@[simp] theorem State.tickRecv_bundle (s : State) (c n : Nat) : (s.tickRecv c n).bundle = s.bundle := rfl
@[simp] theorem State.tickRecv_slow (s : State) (c n : Nat) : (s.tickRecv c n).slow = s.slow := rfl
@[simp] theorem State.tickRecv_fresh (s : State) (c n : Nat) : (s.tickRecv c n).fresh = s.fresh := rfl
@[simp] theorem State.tickRecv_gone (s : State) (c n : Nat) : (s.tickRecv c n).gone = s.gone := rfl

@[simp] theorem State.markRefused_cyc (s : State) (k pa : Nat) : (s.markRefused k pa).cyc = s.cyc := rfl
@[simp] theorem State.markRefused_mem (s : State) (k pa : Nat) : (s.markRefused k pa).mem = s.mem := rfl
@[simp] theorem State.markRefused_poison (s : State) (k pa : Nat) : (s.markRefused k pa).poison = s.poison := rfl
@[simp] theorem State.markRefused_stamps (s : State) (k pa : Nat) : (s.markRefused k pa).stamps = s.stamps := rfl
@[simp] theorem State.markRefused_l2 (s : State) (k pa : Nat) : (s.markRefused k pa).l2 = s.l2 := rfl
@[simp] theorem State.markRefused_dev (s : State) (k pa : Nat) : (s.markRefused k pa).dev = s.dev := rfl
@[simp] theorem State.markRefused_insts (s : State) (k pa : Nat) : (s.markRefused k pa).insts = s.insts := rfl
@[simp] theorem State.markRefused_cells (s : State) (k pa : Nat) : (s.markRefused k pa).cells = s.cells := rfl
@[simp] theorem State.markRefused_dies (s : State) (k pa : Nat) : (s.markRefused k pa).dies = s.dies := rfl
@[simp] theorem State.markRefused_colls (s : State) (k pa : Nat) : (s.markRefused k pa).colls = s.colls := rfl
@[simp] theorem State.markRefused_ports (s : State) (k pa : Nat) : (s.markRefused k pa).ports = s.ports := rfl
@[simp] theorem State.markRefused_closed (s : State) (k pa : Nat) : (s.markRefused k pa).closed = s.closed := rfl
@[simp] theorem State.markRefused_peerOut (s : State) (k pa : Nat) : (s.markRefused k pa).peerOut = s.peerOut := rfl
@[simp] theorem State.markRefused_agenda (s : State) (k pa : Nat) : (s.markRefused k pa).agenda = s.agenda := rfl
@[simp] theorem State.markRefused_cur (s : State) (k pa : Nat) : (s.markRefused k pa).cur = s.cur := rfl
@[simp] theorem State.markRefused_bundle (s : State) (k pa : Nat) : (s.markRefused k pa).bundle = s.bundle := rfl
@[simp] theorem State.markRefused_slow (s : State) (k pa : Nat) : (s.markRefused k pa).slow = s.slow := rfl
@[simp] theorem State.markRefused_fresh (s : State) (k pa : Nat) : (s.markRefused k pa).fresh = s.fresh := rfl
@[simp] theorem State.markRefused_gone (s : State) (k pa : Nat) : (s.markRefused k pa).gone = s.gone := rfl

@[simp] theorem State.tick_mem (s : State)  : (s.tick).mem = s.mem := rfl
@[simp] theorem State.tick_poison (s : State)  : (s.tick).poison = s.poison := rfl
@[simp] theorem State.tick_stamps (s : State)  : (s.tick).stamps = s.stamps := rfl
@[simp] theorem State.tick_l2 (s : State)  : (s.tick).l2 = s.l2 := rfl
@[simp] theorem State.tick_dev (s : State)  : (s.tick).dev = s.dev := rfl
@[simp] theorem State.tick_insts (s : State)  : (s.tick).insts = s.insts := rfl
@[simp] theorem State.tick_cells (s : State)  : (s.tick).cells = s.cells := rfl
@[simp] theorem State.tick_dies (s : State)  : (s.tick).dies = s.dies := rfl
@[simp] theorem State.tick_cores (s : State)  : (s.tick).cores = s.cores := rfl
@[simp] theorem State.tick_colls (s : State)  : (s.tick).colls = s.colls := rfl
@[simp] theorem State.tick_ports (s : State)  : (s.tick).ports = s.ports := rfl
@[simp] theorem State.tick_closed (s : State)  : (s.tick).closed = s.closed := rfl
@[simp] theorem State.tick_peerOut (s : State)  : (s.tick).peerOut = s.peerOut := rfl
@[simp] theorem State.tick_agenda (s : State)  : (s.tick).agenda = s.agenda := rfl
@[simp] theorem State.tick_cur (s : State)  : (s.tick).cur = s.cur := rfl
@[simp] theorem State.tick_bundle (s : State)  : (s.tick).bundle = s.bundle := rfl
@[simp] theorem State.tick_slow (s : State)  : (s.tick).slow = s.slow := rfl
@[simp] theorem State.tick_gone (s : State)  : (s.tick).gone = s.gone := rfl

@[simp] theorem State.dropL1_cyc (s : State) (c : Nat) : (s.dropL1 c).cyc = s.cyc := rfl
@[simp] theorem State.dropL1_mem (s : State) (c : Nat) : (s.dropL1 c).mem = s.mem := rfl
@[simp] theorem State.dropL1_poison (s : State) (c : Nat) : (s.dropL1 c).poison = s.poison := rfl
@[simp] theorem State.dropL1_stamps (s : State) (c : Nat) : (s.dropL1 c).stamps = s.stamps := rfl
@[simp] theorem State.dropL1_l2 (s : State) (c : Nat) : (s.dropL1 c).l2 = s.l2 := rfl
@[simp] theorem State.dropL1_dev (s : State) (c : Nat) : (s.dropL1 c).dev = s.dev := rfl
@[simp] theorem State.dropL1_insts (s : State) (c : Nat) : (s.dropL1 c).insts = s.insts := rfl
@[simp] theorem State.dropL1_cells (s : State) (c : Nat) : (s.dropL1 c).cells = s.cells := rfl
@[simp] theorem State.dropL1_dies (s : State) (c : Nat) : (s.dropL1 c).dies = s.dies := rfl
@[simp] theorem State.dropL1_colls (s : State) (c : Nat) : (s.dropL1 c).colls = s.colls := rfl
@[simp] theorem State.dropL1_ports (s : State) (c : Nat) : (s.dropL1 c).ports = s.ports := rfl
@[simp] theorem State.dropL1_closed (s : State) (c : Nat) : (s.dropL1 c).closed = s.closed := rfl
@[simp] theorem State.dropL1_peerOut (s : State) (c : Nat) : (s.dropL1 c).peerOut = s.peerOut := rfl
@[simp] theorem State.dropL1_agenda (s : State) (c : Nat) : (s.dropL1 c).agenda = s.agenda := rfl
@[simp] theorem State.dropL1_cur (s : State) (c : Nat) : (s.dropL1 c).cur = s.cur := rfl
@[simp] theorem State.dropL1_bundle (s : State) (c : Nat) : (s.dropL1 c).bundle = s.bundle := rfl
@[simp] theorem State.dropL1_slow (s : State) (c : Nat) : (s.dropL1 c).slow = s.slow := rfl
@[simp] theorem State.dropL1_fresh (s : State) (c : Nat) : (s.dropL1 c).fresh = s.fresh := rfl
@[simp] theorem State.dropL1_gone (s : State) (c : Nat) : (s.dropL1 c).gone = s.gone := rfl

/-! ## Units and blocks, where there are some -/

@[simp] theorem State.setUnit_cyc (s : State) (c u : Nat) (p : ProgUnit) : (s.setUnit c u p).cyc = s.cyc := by
  unfold State.setUnit; try dsimp only
  split <;> simp
@[simp] theorem State.setUnit_mem (s : State) (c u : Nat) (p : ProgUnit) : (s.setUnit c u p).mem = s.mem := by
  unfold State.setUnit; try dsimp only
  split <;> simp
@[simp] theorem State.setUnit_poison (s : State) (c u : Nat) (p : ProgUnit) : (s.setUnit c u p).poison = s.poison := by
  unfold State.setUnit; try dsimp only
  split <;> simp
@[simp] theorem State.setUnit_stamps (s : State) (c u : Nat) (p : ProgUnit) : (s.setUnit c u p).stamps = s.stamps := by
  unfold State.setUnit; try dsimp only
  split <;> simp
@[simp] theorem State.setUnit_l2 (s : State) (c u : Nat) (p : ProgUnit) : (s.setUnit c u p).l2 = s.l2 := by
  unfold State.setUnit; try dsimp only
  split <;> simp
@[simp] theorem State.setUnit_dev (s : State) (c u : Nat) (p : ProgUnit) : (s.setUnit c u p).dev = s.dev := by
  unfold State.setUnit; try dsimp only
  split <;> simp
@[simp] theorem State.setUnit_insts (s : State) (c u : Nat) (p : ProgUnit) : (s.setUnit c u p).insts = s.insts := by
  unfold State.setUnit; try dsimp only
  split <;> simp
@[simp] theorem State.setUnit_cells (s : State) (c u : Nat) (p : ProgUnit) : (s.setUnit c u p).cells = s.cells := by
  unfold State.setUnit; try dsimp only
  split <;> simp
@[simp] theorem State.setUnit_dies (s : State) (c u : Nat) (p : ProgUnit) : (s.setUnit c u p).dies = s.dies := by
  unfold State.setUnit; try dsimp only
  split <;> simp
@[simp] theorem State.setUnit_colls (s : State) (c u : Nat) (p : ProgUnit) : (s.setUnit c u p).colls = s.colls := by
  unfold State.setUnit; try dsimp only
  split <;> simp
@[simp] theorem State.setUnit_ports (s : State) (c u : Nat) (p : ProgUnit) : (s.setUnit c u p).ports = s.ports := by
  unfold State.setUnit; try dsimp only
  split <;> simp
@[simp] theorem State.setUnit_closed (s : State) (c u : Nat) (p : ProgUnit) : (s.setUnit c u p).closed = s.closed := by
  unfold State.setUnit; try dsimp only
  split <;> simp
@[simp] theorem State.setUnit_peerOut (s : State) (c u : Nat) (p : ProgUnit) : (s.setUnit c u p).peerOut = s.peerOut := by
  unfold State.setUnit; try dsimp only
  split <;> simp
@[simp] theorem State.setUnit_agenda (s : State) (c u : Nat) (p : ProgUnit) : (s.setUnit c u p).agenda = s.agenda := by
  unfold State.setUnit; try dsimp only
  split <;> simp
@[simp] theorem State.setUnit_cur (s : State) (c u : Nat) (p : ProgUnit) : (s.setUnit c u p).cur = s.cur := by
  unfold State.setUnit; try dsimp only
  split <;> simp
@[simp] theorem State.setUnit_bundle (s : State) (c u : Nat) (p : ProgUnit) : (s.setUnit c u p).bundle = s.bundle := by
  unfold State.setUnit; try dsimp only
  split <;> simp
@[simp] theorem State.setUnit_slow (s : State) (c u : Nat) (p : ProgUnit) : (s.setUnit c u p).slow = s.slow := by
  unfold State.setUnit; try dsimp only
  split <;> simp
@[simp] theorem State.setUnit_fresh (s : State) (c u : Nat) (p : ProgUnit) : (s.setUnit c u p).fresh = s.fresh := by
  unfold State.setUnit; try dsimp only
  split <;> simp
@[simp] theorem State.setUnit_gone (s : State) (c u : Nat) (p : ProgUnit) : (s.setUnit c u p).gone = s.gone := by
  unfold State.setUnit; try dsimp only
  split <;> simp

@[simp] theorem State.modUnit_cyc (s : State) (c u : Nat) (f : ProgUnit → ProgUnit) : (s.modUnit c u f).cyc = s.cyc := by
  unfold State.modUnit; try dsimp only
  split <;> simp
@[simp] theorem State.modUnit_mem (s : State) (c u : Nat) (f : ProgUnit → ProgUnit) : (s.modUnit c u f).mem = s.mem := by
  unfold State.modUnit; try dsimp only
  split <;> simp
@[simp] theorem State.modUnit_poison (s : State) (c u : Nat) (f : ProgUnit → ProgUnit) : (s.modUnit c u f).poison = s.poison := by
  unfold State.modUnit; try dsimp only
  split <;> simp
@[simp] theorem State.modUnit_stamps (s : State) (c u : Nat) (f : ProgUnit → ProgUnit) : (s.modUnit c u f).stamps = s.stamps := by
  unfold State.modUnit; try dsimp only
  split <;> simp
@[simp] theorem State.modUnit_l2 (s : State) (c u : Nat) (f : ProgUnit → ProgUnit) : (s.modUnit c u f).l2 = s.l2 := by
  unfold State.modUnit; try dsimp only
  split <;> simp
@[simp] theorem State.modUnit_dev (s : State) (c u : Nat) (f : ProgUnit → ProgUnit) : (s.modUnit c u f).dev = s.dev := by
  unfold State.modUnit; try dsimp only
  split <;> simp
@[simp] theorem State.modUnit_insts (s : State) (c u : Nat) (f : ProgUnit → ProgUnit) : (s.modUnit c u f).insts = s.insts := by
  unfold State.modUnit; try dsimp only
  split <;> simp
@[simp] theorem State.modUnit_cells (s : State) (c u : Nat) (f : ProgUnit → ProgUnit) : (s.modUnit c u f).cells = s.cells := by
  unfold State.modUnit; try dsimp only
  split <;> simp
@[simp] theorem State.modUnit_dies (s : State) (c u : Nat) (f : ProgUnit → ProgUnit) : (s.modUnit c u f).dies = s.dies := by
  unfold State.modUnit; try dsimp only
  split <;> simp
@[simp] theorem State.modUnit_colls (s : State) (c u : Nat) (f : ProgUnit → ProgUnit) : (s.modUnit c u f).colls = s.colls := by
  unfold State.modUnit; try dsimp only
  split <;> simp
@[simp] theorem State.modUnit_ports (s : State) (c u : Nat) (f : ProgUnit → ProgUnit) : (s.modUnit c u f).ports = s.ports := by
  unfold State.modUnit; try dsimp only
  split <;> simp
@[simp] theorem State.modUnit_closed (s : State) (c u : Nat) (f : ProgUnit → ProgUnit) : (s.modUnit c u f).closed = s.closed := by
  unfold State.modUnit; try dsimp only
  split <;> simp
@[simp] theorem State.modUnit_peerOut (s : State) (c u : Nat) (f : ProgUnit → ProgUnit) : (s.modUnit c u f).peerOut = s.peerOut := by
  unfold State.modUnit; try dsimp only
  split <;> simp
@[simp] theorem State.modUnit_agenda (s : State) (c u : Nat) (f : ProgUnit → ProgUnit) : (s.modUnit c u f).agenda = s.agenda := by
  unfold State.modUnit; try dsimp only
  split <;> simp
@[simp] theorem State.modUnit_cur (s : State) (c u : Nat) (f : ProgUnit → ProgUnit) : (s.modUnit c u f).cur = s.cur := by
  unfold State.modUnit; try dsimp only
  split <;> simp
@[simp] theorem State.modUnit_bundle (s : State) (c u : Nat) (f : ProgUnit → ProgUnit) : (s.modUnit c u f).bundle = s.bundle := by
  unfold State.modUnit; try dsimp only
  split <;> simp
@[simp] theorem State.modUnit_slow (s : State) (c u : Nat) (f : ProgUnit → ProgUnit) : (s.modUnit c u f).slow = s.slow := by
  unfold State.modUnit; try dsimp only
  split <;> simp
@[simp] theorem State.modUnit_fresh (s : State) (c u : Nat) (f : ProgUnit → ProgUnit) : (s.modUnit c u f).fresh = s.fresh := by
  unfold State.modUnit; try dsimp only
  split <;> simp
@[simp] theorem State.modUnit_gone (s : State) (c u : Nat) (f : ProgUnit → ProgUnit) : (s.modUnit c u f).gone = s.gone := by
  unfold State.modUnit; try dsimp only
  split <;> simp

@[simp] theorem State.modBlk_cyc (s : State) (c : Nat) (f : Block → Block) : (s.modBlk c f).cyc = s.cyc := by
  unfold State.modBlk; try dsimp only
  split <;> simp
@[simp] theorem State.modBlk_mem (s : State) (c : Nat) (f : Block → Block) : (s.modBlk c f).mem = s.mem := by
  unfold State.modBlk; try dsimp only
  split <;> simp
@[simp] theorem State.modBlk_poison (s : State) (c : Nat) (f : Block → Block) : (s.modBlk c f).poison = s.poison := by
  unfold State.modBlk; try dsimp only
  split <;> simp
@[simp] theorem State.modBlk_stamps (s : State) (c : Nat) (f : Block → Block) : (s.modBlk c f).stamps = s.stamps := by
  unfold State.modBlk; try dsimp only
  split <;> simp
@[simp] theorem State.modBlk_l2 (s : State) (c : Nat) (f : Block → Block) : (s.modBlk c f).l2 = s.l2 := by
  unfold State.modBlk; try dsimp only
  split <;> simp
@[simp] theorem State.modBlk_dev (s : State) (c : Nat) (f : Block → Block) : (s.modBlk c f).dev = s.dev := by
  unfold State.modBlk; try dsimp only
  split <;> simp
@[simp] theorem State.modBlk_insts (s : State) (c : Nat) (f : Block → Block) : (s.modBlk c f).insts = s.insts := by
  unfold State.modBlk; try dsimp only
  split <;> simp
@[simp] theorem State.modBlk_cells (s : State) (c : Nat) (f : Block → Block) : (s.modBlk c f).cells = s.cells := by
  unfold State.modBlk; try dsimp only
  split <;> simp
@[simp] theorem State.modBlk_dies (s : State) (c : Nat) (f : Block → Block) : (s.modBlk c f).dies = s.dies := by
  unfold State.modBlk; try dsimp only
  split <;> simp
@[simp] theorem State.modBlk_colls (s : State) (c : Nat) (f : Block → Block) : (s.modBlk c f).colls = s.colls := by
  unfold State.modBlk; try dsimp only
  split <;> simp
@[simp] theorem State.modBlk_ports (s : State) (c : Nat) (f : Block → Block) : (s.modBlk c f).ports = s.ports := by
  unfold State.modBlk; try dsimp only
  split <;> simp
@[simp] theorem State.modBlk_closed (s : State) (c : Nat) (f : Block → Block) : (s.modBlk c f).closed = s.closed := by
  unfold State.modBlk; try dsimp only
  split <;> simp
@[simp] theorem State.modBlk_peerOut (s : State) (c : Nat) (f : Block → Block) : (s.modBlk c f).peerOut = s.peerOut := by
  unfold State.modBlk; try dsimp only
  split <;> simp
@[simp] theorem State.modBlk_agenda (s : State) (c : Nat) (f : Block → Block) : (s.modBlk c f).agenda = s.agenda := by
  unfold State.modBlk; try dsimp only
  split <;> simp
@[simp] theorem State.modBlk_cur (s : State) (c : Nat) (f : Block → Block) : (s.modBlk c f).cur = s.cur := by
  unfold State.modBlk; try dsimp only
  split <;> simp
@[simp] theorem State.modBlk_bundle (s : State) (c : Nat) (f : Block → Block) : (s.modBlk c f).bundle = s.bundle := by
  unfold State.modBlk; try dsimp only
  split <;> simp
@[simp] theorem State.modBlk_slow (s : State) (c : Nat) (f : Block → Block) : (s.modBlk c f).slow = s.slow := by
  unfold State.modBlk; try dsimp only
  split <;> simp
@[simp] theorem State.modBlk_fresh (s : State) (c : Nat) (f : Block → Block) : (s.modBlk c f).fresh = s.fresh := by
  unfold State.modBlk; try dsimp only
  split <;> simp
@[simp] theorem State.modBlk_gone (s : State) (c : Nat) (f : Block → Block) : (s.modBlk c f).gone = s.gone := by
  unfold State.modBlk; try dsimp only
  split <;> simp

@[simp] theorem State.modU_cyc (s : State) (v : View) (f : ProgUnit → ProgUnit) : (s.modU v f).cyc = s.cyc := by simp [State.modU]
@[simp] theorem State.modU_mem (s : State) (v : View) (f : ProgUnit → ProgUnit) : (s.modU v f).mem = s.mem := by simp [State.modU]
@[simp] theorem State.modU_poison (s : State) (v : View) (f : ProgUnit → ProgUnit) : (s.modU v f).poison = s.poison := by simp [State.modU]
@[simp] theorem State.modU_stamps (s : State) (v : View) (f : ProgUnit → ProgUnit) : (s.modU v f).stamps = s.stamps := by simp [State.modU]
@[simp] theorem State.modU_l2 (s : State) (v : View) (f : ProgUnit → ProgUnit) : (s.modU v f).l2 = s.l2 := by simp [State.modU]
@[simp] theorem State.modU_dev (s : State) (v : View) (f : ProgUnit → ProgUnit) : (s.modU v f).dev = s.dev := by simp [State.modU]
@[simp] theorem State.modU_insts (s : State) (v : View) (f : ProgUnit → ProgUnit) : (s.modU v f).insts = s.insts := by simp [State.modU]
@[simp] theorem State.modU_cells (s : State) (v : View) (f : ProgUnit → ProgUnit) : (s.modU v f).cells = s.cells := by simp [State.modU]
@[simp] theorem State.modU_dies (s : State) (v : View) (f : ProgUnit → ProgUnit) : (s.modU v f).dies = s.dies := by simp [State.modU]
@[simp] theorem State.modU_colls (s : State) (v : View) (f : ProgUnit → ProgUnit) : (s.modU v f).colls = s.colls := by simp [State.modU]
@[simp] theorem State.modU_ports (s : State) (v : View) (f : ProgUnit → ProgUnit) : (s.modU v f).ports = s.ports := by simp [State.modU]
@[simp] theorem State.modU_closed (s : State) (v : View) (f : ProgUnit → ProgUnit) : (s.modU v f).closed = s.closed := by simp [State.modU]
@[simp] theorem State.modU_peerOut (s : State) (v : View) (f : ProgUnit → ProgUnit) : (s.modU v f).peerOut = s.peerOut := by simp [State.modU]
@[simp] theorem State.modU_agenda (s : State) (v : View) (f : ProgUnit → ProgUnit) : (s.modU v f).agenda = s.agenda := by simp [State.modU]
@[simp] theorem State.modU_cur (s : State) (v : View) (f : ProgUnit → ProgUnit) : (s.modU v f).cur = s.cur := by simp [State.modU]
@[simp] theorem State.modU_bundle (s : State) (v : View) (f : ProgUnit → ProgUnit) : (s.modU v f).bundle = s.bundle := by simp [State.modU]
@[simp] theorem State.modU_slow (s : State) (v : View) (f : ProgUnit → ProgUnit) : (s.modU v f).slow = s.slow := by simp [State.modU]
@[simp] theorem State.modU_fresh (s : State) (v : View) (f : ProgUnit → ProgUnit) : (s.modU v f).fresh = s.fresh := by simp [State.modU]
@[simp] theorem State.modU_gone (s : State) (v : View) (f : ProgUnit → ProgUnit) : (s.modU v f).gone = s.gone := by simp [State.modU]

@[simp] theorem State.advance_cyc (s : State) (v : View) : (s.advance v).cyc = s.cyc := by simp [State.advance]
@[simp] theorem State.advance_mem (s : State) (v : View) : (s.advance v).mem = s.mem := by simp [State.advance]
@[simp] theorem State.advance_poison (s : State) (v : View) : (s.advance v).poison = s.poison := by simp [State.advance]
@[simp] theorem State.advance_stamps (s : State) (v : View) : (s.advance v).stamps = s.stamps := by simp [State.advance]
@[simp] theorem State.advance_l2 (s : State) (v : View) : (s.advance v).l2 = s.l2 := by simp [State.advance]
@[simp] theorem State.advance_dev (s : State) (v : View) : (s.advance v).dev = s.dev := by simp [State.advance]
@[simp] theorem State.advance_insts (s : State) (v : View) : (s.advance v).insts = s.insts := by simp [State.advance]
@[simp] theorem State.advance_cells (s : State) (v : View) : (s.advance v).cells = s.cells := by simp [State.advance]
@[simp] theorem State.advance_dies (s : State) (v : View) : (s.advance v).dies = s.dies := by simp [State.advance]
@[simp] theorem State.advance_colls (s : State) (v : View) : (s.advance v).colls = s.colls := by simp [State.advance]
@[simp] theorem State.advance_ports (s : State) (v : View) : (s.advance v).ports = s.ports := by simp [State.advance]
@[simp] theorem State.advance_closed (s : State) (v : View) : (s.advance v).closed = s.closed := by simp [State.advance]
@[simp] theorem State.advance_peerOut (s : State) (v : View) : (s.advance v).peerOut = s.peerOut := by simp [State.advance]
@[simp] theorem State.advance_agenda (s : State) (v : View) : (s.advance v).agenda = s.agenda := by simp [State.advance]
@[simp] theorem State.advance_cur (s : State) (v : View) : (s.advance v).cur = s.cur := by simp [State.advance]
@[simp] theorem State.advance_bundle (s : State) (v : View) : (s.advance v).bundle = s.bundle := by simp [State.advance]
@[simp] theorem State.advance_slow (s : State) (v : View) : (s.advance v).slow = s.slow := by simp [State.advance]
@[simp] theorem State.advance_fresh (s : State) (v : View) : (s.advance v).fresh = s.fresh := by simp [State.advance]
@[simp] theorem State.advance_gone (s : State) (v : View) : (s.advance v).gone = s.gone := by simp [State.advance]

@[simp] theorem State.park_cyc (s : State) (v : View) (w : Wait) : (s.park v w).cyc = s.cyc := by simp [State.park]
@[simp] theorem State.park_mem (s : State) (v : View) (w : Wait) : (s.park v w).mem = s.mem := by simp [State.park]
@[simp] theorem State.park_poison (s : State) (v : View) (w : Wait) : (s.park v w).poison = s.poison := by simp [State.park]
@[simp] theorem State.park_stamps (s : State) (v : View) (w : Wait) : (s.park v w).stamps = s.stamps := by simp [State.park]
@[simp] theorem State.park_l2 (s : State) (v : View) (w : Wait) : (s.park v w).l2 = s.l2 := by simp [State.park]
@[simp] theorem State.park_dev (s : State) (v : View) (w : Wait) : (s.park v w).dev = s.dev := by simp [State.park]
@[simp] theorem State.park_insts (s : State) (v : View) (w : Wait) : (s.park v w).insts = s.insts := by simp [State.park]
@[simp] theorem State.park_cells (s : State) (v : View) (w : Wait) : (s.park v w).cells = s.cells := by simp [State.park]
@[simp] theorem State.park_dies (s : State) (v : View) (w : Wait) : (s.park v w).dies = s.dies := by simp [State.park]
@[simp] theorem State.park_colls (s : State) (v : View) (w : Wait) : (s.park v w).colls = s.colls := by simp [State.park]
@[simp] theorem State.park_ports (s : State) (v : View) (w : Wait) : (s.park v w).ports = s.ports := by simp [State.park]
@[simp] theorem State.park_closed (s : State) (v : View) (w : Wait) : (s.park v w).closed = s.closed := by simp [State.park]
@[simp] theorem State.park_peerOut (s : State) (v : View) (w : Wait) : (s.park v w).peerOut = s.peerOut := by simp [State.park]
@[simp] theorem State.park_agenda (s : State) (v : View) (w : Wait) : (s.park v w).agenda = s.agenda := by simp [State.park]
@[simp] theorem State.park_cur (s : State) (v : View) (w : Wait) : (s.park v w).cur = s.cur := by simp [State.park]
@[simp] theorem State.park_bundle (s : State) (v : View) (w : Wait) : (s.park v w).bundle = s.bundle := by simp [State.park]
@[simp] theorem State.park_slow (s : State) (v : View) (w : Wait) : (s.park v w).slow = s.slow := by simp [State.park]
@[simp] theorem State.park_fresh (s : State) (v : View) (w : Wait) : (s.park v w).fresh = s.fresh := by simp [State.park]
@[simp] theorem State.park_gone (s : State) (v : View) (w : Wait) : (s.park v w).gone = s.gone := by simp [State.park]

@[simp] theorem State.putPacket_cyc (s : State) (c u : Nat) (pc : Word) (ty : Nat) (body : List Byte) : (s.putPacket c u pc ty body).cyc = s.cyc := rfl
@[simp] theorem State.putPacket_mem (s : State) (c u : Nat) (pc : Word) (ty : Nat) (body : List Byte) : (s.putPacket c u pc ty body).mem = s.mem := rfl
@[simp] theorem State.putPacket_poison (s : State) (c u : Nat) (pc : Word) (ty : Nat) (body : List Byte) : (s.putPacket c u pc ty body).poison = s.poison := rfl
@[simp] theorem State.putPacket_stamps (s : State) (c u : Nat) (pc : Word) (ty : Nat) (body : List Byte) : (s.putPacket c u pc ty body).stamps = s.stamps := rfl
@[simp] theorem State.putPacket_l2 (s : State) (c u : Nat) (pc : Word) (ty : Nat) (body : List Byte) : (s.putPacket c u pc ty body).l2 = s.l2 := rfl
@[simp] theorem State.putPacket_dev (s : State) (c u : Nat) (pc : Word) (ty : Nat) (body : List Byte) : (s.putPacket c u pc ty body).dev = s.dev := rfl
@[simp] theorem State.putPacket_cells (s : State) (c u : Nat) (pc : Word) (ty : Nat) (body : List Byte) : (s.putPacket c u pc ty body).cells = s.cells := rfl
@[simp] theorem State.putPacket_dies (s : State) (c u : Nat) (pc : Word) (ty : Nat) (body : List Byte) : (s.putPacket c u pc ty body).dies = s.dies := rfl
@[simp] theorem State.putPacket_cores (s : State) (c u : Nat) (pc : Word) (ty : Nat) (body : List Byte) : (s.putPacket c u pc ty body).cores = s.cores := rfl
@[simp] theorem State.putPacket_colls (s : State) (c u : Nat) (pc : Word) (ty : Nat) (body : List Byte) : (s.putPacket c u pc ty body).colls = s.colls := rfl
@[simp] theorem State.putPacket_ports (s : State) (c u : Nat) (pc : Word) (ty : Nat) (body : List Byte) : (s.putPacket c u pc ty body).ports = s.ports := rfl
@[simp] theorem State.putPacket_closed (s : State) (c u : Nat) (pc : Word) (ty : Nat) (body : List Byte) : (s.putPacket c u pc ty body).closed = s.closed := rfl
@[simp] theorem State.putPacket_peerOut (s : State) (c u : Nat) (pc : Word) (ty : Nat) (body : List Byte) : (s.putPacket c u pc ty body).peerOut = s.peerOut := rfl
@[simp] theorem State.putPacket_agenda (s : State) (c u : Nat) (pc : Word) (ty : Nat) (body : List Byte) : (s.putPacket c u pc ty body).agenda = s.agenda := rfl
@[simp] theorem State.putPacket_cur (s : State) (c u : Nat) (pc : Word) (ty : Nat) (body : List Byte) : (s.putPacket c u pc ty body).cur = s.cur := rfl
@[simp] theorem State.putPacket_bundle (s : State) (c u : Nat) (pc : Word) (ty : Nat) (body : List Byte) : (s.putPacket c u pc ty body).bundle = s.bundle := rfl
@[simp] theorem State.putPacket_slow (s : State) (c u : Nat) (pc : Word) (ty : Nat) (body : List Byte) : (s.putPacket c u pc ty body).slow = s.slow := rfl
@[simp] theorem State.putPacket_fresh (s : State) (c u : Nat) (pc : Word) (ty : Nat) (body : List Byte) : (s.putPacket c u pc ty body).fresh = s.fresh := rfl
@[simp] theorem State.putPacket_gone (s : State) (c u : Nat) (pc : Word) (ty : Nat) (body : List Byte) : (s.putPacket c u pc ty body).gone = s.gone := rfl

@[simp] theorem State.setBranches_cyc (s : State) (c u : Nat) (l : List Bool) : (s.setBranches c u l).cyc = s.cyc := rfl
@[simp] theorem State.setBranches_mem (s : State) (c u : Nat) (l : List Bool) : (s.setBranches c u l).mem = s.mem := rfl
@[simp] theorem State.setBranches_poison (s : State) (c u : Nat) (l : List Bool) : (s.setBranches c u l).poison = s.poison := rfl
@[simp] theorem State.setBranches_stamps (s : State) (c u : Nat) (l : List Bool) : (s.setBranches c u l).stamps = s.stamps := rfl
@[simp] theorem State.setBranches_l2 (s : State) (c u : Nat) (l : List Bool) : (s.setBranches c u l).l2 = s.l2 := rfl
@[simp] theorem State.setBranches_dev (s : State) (c u : Nat) (l : List Bool) : (s.setBranches c u l).dev = s.dev := rfl
@[simp] theorem State.setBranches_cells (s : State) (c u : Nat) (l : List Bool) : (s.setBranches c u l).cells = s.cells := rfl
@[simp] theorem State.setBranches_dies (s : State) (c u : Nat) (l : List Bool) : (s.setBranches c u l).dies = s.dies := rfl
@[simp] theorem State.setBranches_cores (s : State) (c u : Nat) (l : List Bool) : (s.setBranches c u l).cores = s.cores := rfl
@[simp] theorem State.setBranches_colls (s : State) (c u : Nat) (l : List Bool) : (s.setBranches c u l).colls = s.colls := rfl
@[simp] theorem State.setBranches_ports (s : State) (c u : Nat) (l : List Bool) : (s.setBranches c u l).ports = s.ports := rfl
@[simp] theorem State.setBranches_closed (s : State) (c u : Nat) (l : List Bool) : (s.setBranches c u l).closed = s.closed := rfl
@[simp] theorem State.setBranches_peerOut (s : State) (c u : Nat) (l : List Bool) : (s.setBranches c u l).peerOut = s.peerOut := rfl
@[simp] theorem State.setBranches_agenda (s : State) (c u : Nat) (l : List Bool) : (s.setBranches c u l).agenda = s.agenda := rfl
@[simp] theorem State.setBranches_cur (s : State) (c u : Nat) (l : List Bool) : (s.setBranches c u l).cur = s.cur := rfl
@[simp] theorem State.setBranches_bundle (s : State) (c u : Nat) (l : List Bool) : (s.setBranches c u l).bundle = s.bundle := rfl
@[simp] theorem State.setBranches_slow (s : State) (c u : Nat) (l : List Bool) : (s.setBranches c u l).slow = s.slow := rfl
@[simp] theorem State.setBranches_fresh (s : State) (c u : Nat) (l : List Bool) : (s.setBranches c u l).fresh = s.fresh := rfl
@[simp] theorem State.setBranches_gone (s : State) (c u : Nat) (l : List Bool) : (s.setBranches c u l).gone = s.gone := rfl

@[simp] theorem State.flushMap_cyc (s : State) (c u : Nat) (pc : Word) : (s.flushMap c u pc).cyc = s.cyc := by
  unfold State.flushMap; try dsimp only
  split <;> simp
@[simp] theorem State.flushMap_mem (s : State) (c u : Nat) (pc : Word) : (s.flushMap c u pc).mem = s.mem := by
  unfold State.flushMap; try dsimp only
  split <;> simp
@[simp] theorem State.flushMap_poison (s : State) (c u : Nat) (pc : Word) : (s.flushMap c u pc).poison = s.poison := by
  unfold State.flushMap; try dsimp only
  split <;> simp
@[simp] theorem State.flushMap_stamps (s : State) (c u : Nat) (pc : Word) : (s.flushMap c u pc).stamps = s.stamps := by
  unfold State.flushMap; try dsimp only
  split <;> simp
@[simp] theorem State.flushMap_l2 (s : State) (c u : Nat) (pc : Word) : (s.flushMap c u pc).l2 = s.l2 := by
  unfold State.flushMap; try dsimp only
  split <;> simp
@[simp] theorem State.flushMap_dev (s : State) (c u : Nat) (pc : Word) : (s.flushMap c u pc).dev = s.dev := by
  unfold State.flushMap; try dsimp only
  split <;> simp
@[simp] theorem State.flushMap_cells (s : State) (c u : Nat) (pc : Word) : (s.flushMap c u pc).cells = s.cells := by
  unfold State.flushMap; try dsimp only
  split <;> simp
@[simp] theorem State.flushMap_dies (s : State) (c u : Nat) (pc : Word) : (s.flushMap c u pc).dies = s.dies := by
  unfold State.flushMap; try dsimp only
  split <;> simp
@[simp] theorem State.flushMap_cores (s : State) (c u : Nat) (pc : Word) : (s.flushMap c u pc).cores = s.cores := by
  unfold State.flushMap; try dsimp only
  split <;> simp
@[simp] theorem State.flushMap_colls (s : State) (c u : Nat) (pc : Word) : (s.flushMap c u pc).colls = s.colls := by
  unfold State.flushMap; try dsimp only
  split <;> simp
@[simp] theorem State.flushMap_ports (s : State) (c u : Nat) (pc : Word) : (s.flushMap c u pc).ports = s.ports := by
  unfold State.flushMap; try dsimp only
  split <;> simp
@[simp] theorem State.flushMap_closed (s : State) (c u : Nat) (pc : Word) : (s.flushMap c u pc).closed = s.closed := by
  unfold State.flushMap; try dsimp only
  split <;> simp
@[simp] theorem State.flushMap_peerOut (s : State) (c u : Nat) (pc : Word) : (s.flushMap c u pc).peerOut = s.peerOut := by
  unfold State.flushMap; try dsimp only
  split <;> simp
@[simp] theorem State.flushMap_agenda (s : State) (c u : Nat) (pc : Word) : (s.flushMap c u pc).agenda = s.agenda := by
  unfold State.flushMap; try dsimp only
  split <;> simp
@[simp] theorem State.flushMap_cur (s : State) (c u : Nat) (pc : Word) : (s.flushMap c u pc).cur = s.cur := by
  unfold State.flushMap; try dsimp only
  split <;> simp
@[simp] theorem State.flushMap_bundle (s : State) (c u : Nat) (pc : Word) : (s.flushMap c u pc).bundle = s.bundle := by
  unfold State.flushMap; try dsimp only
  split <;> simp
@[simp] theorem State.flushMap_slow (s : State) (c u : Nat) (pc : Word) : (s.flushMap c u pc).slow = s.slow := by
  unfold State.flushMap; try dsimp only
  split <;> simp
@[simp] theorem State.flushMap_fresh (s : State) (c u : Nat) (pc : Word) : (s.flushMap c u pc).fresh = s.fresh := by
  unfold State.flushMap; try dsimp only
  split <;> simp
@[simp] theorem State.flushMap_gone (s : State) (c u : Nat) (pc : Word) : (s.flushMap c u pc).gone = s.gone := by
  unfold State.flushMap; try dsimp only
  split <;> simp

@[simp] theorem State.branched_cyc (s : State) (c u : Nat) (pc : Word) (taken : Bool) : (s.branched c u pc taken).cyc = s.cyc := by
  unfold State.branched; dsimp only; split <;> (try split) <;> simp
@[simp] theorem State.branched_mem (s : State) (c u : Nat) (pc : Word) (taken : Bool) : (s.branched c u pc taken).mem = s.mem := by
  unfold State.branched; dsimp only; split <;> (try split) <;> simp
@[simp] theorem State.branched_poison (s : State) (c u : Nat) (pc : Word) (taken : Bool) : (s.branched c u pc taken).poison = s.poison := by
  unfold State.branched; dsimp only; split <;> (try split) <;> simp
@[simp] theorem State.branched_stamps (s : State) (c u : Nat) (pc : Word) (taken : Bool) : (s.branched c u pc taken).stamps = s.stamps := by
  unfold State.branched; dsimp only; split <;> (try split) <;> simp
@[simp] theorem State.branched_l2 (s : State) (c u : Nat) (pc : Word) (taken : Bool) : (s.branched c u pc taken).l2 = s.l2 := by
  unfold State.branched; dsimp only; split <;> (try split) <;> simp
@[simp] theorem State.branched_dev (s : State) (c u : Nat) (pc : Word) (taken : Bool) : (s.branched c u pc taken).dev = s.dev := by
  unfold State.branched; dsimp only; split <;> (try split) <;> simp
@[simp] theorem State.branched_cells (s : State) (c u : Nat) (pc : Word) (taken : Bool) : (s.branched c u pc taken).cells = s.cells := by
  unfold State.branched; dsimp only; split <;> (try split) <;> simp
@[simp] theorem State.branched_dies (s : State) (c u : Nat) (pc : Word) (taken : Bool) : (s.branched c u pc taken).dies = s.dies := by
  unfold State.branched; dsimp only; split <;> (try split) <;> simp
@[simp] theorem State.branched_cores (s : State) (c u : Nat) (pc : Word) (taken : Bool) : (s.branched c u pc taken).cores = s.cores := by
  unfold State.branched; dsimp only; split <;> (try split) <;> simp
@[simp] theorem State.branched_colls (s : State) (c u : Nat) (pc : Word) (taken : Bool) : (s.branched c u pc taken).colls = s.colls := by
  unfold State.branched; dsimp only; split <;> (try split) <;> simp
@[simp] theorem State.branched_ports (s : State) (c u : Nat) (pc : Word) (taken : Bool) : (s.branched c u pc taken).ports = s.ports := by
  unfold State.branched; dsimp only; split <;> (try split) <;> simp
@[simp] theorem State.branched_closed (s : State) (c u : Nat) (pc : Word) (taken : Bool) : (s.branched c u pc taken).closed = s.closed := by
  unfold State.branched; dsimp only; split <;> (try split) <;> simp
@[simp] theorem State.branched_peerOut (s : State) (c u : Nat) (pc : Word) (taken : Bool) : (s.branched c u pc taken).peerOut = s.peerOut := by
  unfold State.branched; dsimp only; split <;> (try split) <;> simp
@[simp] theorem State.branched_agenda (s : State) (c u : Nat) (pc : Word) (taken : Bool) : (s.branched c u pc taken).agenda = s.agenda := by
  unfold State.branched; dsimp only; split <;> (try split) <;> simp
@[simp] theorem State.branched_cur (s : State) (c u : Nat) (pc : Word) (taken : Bool) : (s.branched c u pc taken).cur = s.cur := by
  unfold State.branched; dsimp only; split <;> (try split) <;> simp
@[simp] theorem State.branched_bundle (s : State) (c u : Nat) (pc : Word) (taken : Bool) : (s.branched c u pc taken).bundle = s.bundle := by
  unfold State.branched; dsimp only; split <;> (try split) <;> simp
@[simp] theorem State.branched_slow (s : State) (c u : Nat) (pc : Word) (taken : Bool) : (s.branched c u pc taken).slow = s.slow := by
  unfold State.branched; dsimp only; split <;> (try split) <;> simp
@[simp] theorem State.branched_fresh (s : State) (c u : Nat) (pc : Word) (taken : Bool) : (s.branched c u pc taken).fresh = s.fresh := by
  unfold State.branched; dsimp only; split <;> (try split) <;> simp
@[simp] theorem State.branched_gone (s : State) (c u : Nat) (pc : Word) (taken : Bool) : (s.branched c u pc taken).gone = s.gone := by
  unfold State.branched; dsimp only; split <;> (try split) <;> simp

@[simp] theorem State.trace_cyc (s : State) (c u : Nat) (pc : Word) (ty : Nat) (ws : List Word) : (s.trace c u pc ty ws).cyc = s.cyc := by
  unfold State.trace; exact (apply_ite State.cyc _ _ _).trans (by simp)
@[simp] theorem State.trace_mem (s : State) (c u : Nat) (pc : Word) (ty : Nat) (ws : List Word) : (s.trace c u pc ty ws).mem = s.mem := by
  unfold State.trace; exact (apply_ite State.mem _ _ _).trans (by simp)
@[simp] theorem State.trace_poison (s : State) (c u : Nat) (pc : Word) (ty : Nat) (ws : List Word) : (s.trace c u pc ty ws).poison = s.poison := by
  unfold State.trace; exact (apply_ite State.poison _ _ _).trans (by simp)
@[simp] theorem State.trace_stamps (s : State) (c u : Nat) (pc : Word) (ty : Nat) (ws : List Word) : (s.trace c u pc ty ws).stamps = s.stamps := by
  unfold State.trace; exact (apply_ite State.stamps _ _ _).trans (by simp)
@[simp] theorem State.trace_l2 (s : State) (c u : Nat) (pc : Word) (ty : Nat) (ws : List Word) : (s.trace c u pc ty ws).l2 = s.l2 := by
  unfold State.trace; exact (apply_ite State.l2 _ _ _).trans (by simp)
@[simp] theorem State.trace_dev (s : State) (c u : Nat) (pc : Word) (ty : Nat) (ws : List Word) : (s.trace c u pc ty ws).dev = s.dev := by
  unfold State.trace; exact (apply_ite State.dev _ _ _).trans (by simp)
@[simp] theorem State.trace_cells (s : State) (c u : Nat) (pc : Word) (ty : Nat) (ws : List Word) : (s.trace c u pc ty ws).cells = s.cells := by
  unfold State.trace; exact (apply_ite State.cells _ _ _).trans (by simp)
@[simp] theorem State.trace_dies (s : State) (c u : Nat) (pc : Word) (ty : Nat) (ws : List Word) : (s.trace c u pc ty ws).dies = s.dies := by
  unfold State.trace; exact (apply_ite State.dies _ _ _).trans (by simp)
@[simp] theorem State.trace_cores (s : State) (c u : Nat) (pc : Word) (ty : Nat) (ws : List Word) : (s.trace c u pc ty ws).cores = s.cores := by
  unfold State.trace; exact (apply_ite State.cores _ _ _).trans (by simp)
@[simp] theorem State.trace_colls (s : State) (c u : Nat) (pc : Word) (ty : Nat) (ws : List Word) : (s.trace c u pc ty ws).colls = s.colls := by
  unfold State.trace; exact (apply_ite State.colls _ _ _).trans (by simp)
@[simp] theorem State.trace_ports (s : State) (c u : Nat) (pc : Word) (ty : Nat) (ws : List Word) : (s.trace c u pc ty ws).ports = s.ports := by
  unfold State.trace; exact (apply_ite State.ports _ _ _).trans (by simp)
@[simp] theorem State.trace_closed (s : State) (c u : Nat) (pc : Word) (ty : Nat) (ws : List Word) : (s.trace c u pc ty ws).closed = s.closed := by
  unfold State.trace; exact (apply_ite State.closed _ _ _).trans (by simp)
@[simp] theorem State.trace_peerOut (s : State) (c u : Nat) (pc : Word) (ty : Nat) (ws : List Word) : (s.trace c u pc ty ws).peerOut = s.peerOut := by
  unfold State.trace; exact (apply_ite State.peerOut _ _ _).trans (by simp)
@[simp] theorem State.trace_agenda (s : State) (c u : Nat) (pc : Word) (ty : Nat) (ws : List Word) : (s.trace c u pc ty ws).agenda = s.agenda := by
  unfold State.trace; exact (apply_ite State.agenda _ _ _).trans (by simp)
@[simp] theorem State.trace_cur (s : State) (c u : Nat) (pc : Word) (ty : Nat) (ws : List Word) : (s.trace c u pc ty ws).cur = s.cur := by
  unfold State.trace; exact (apply_ite State.cur _ _ _).trans (by simp)
@[simp] theorem State.trace_bundle (s : State) (c u : Nat) (pc : Word) (ty : Nat) (ws : List Word) : (s.trace c u pc ty ws).bundle = s.bundle := by
  unfold State.trace; exact (apply_ite State.bundle _ _ _).trans (by simp)
@[simp] theorem State.trace_slow (s : State) (c u : Nat) (pc : Word) (ty : Nat) (ws : List Word) : (s.trace c u pc ty ws).slow = s.slow := by
  unfold State.trace; exact (apply_ite State.slow _ _ _).trans (by simp)
@[simp] theorem State.trace_fresh (s : State) (c u : Nat) (pc : Word) (ty : Nat) (ws : List Word) : (s.trace c u pc ty ws).fresh = s.fresh := by
  unfold State.trace; exact (apply_ite State.fresh _ _ _).trans (by simp)
@[simp] theorem State.trace_gone (s : State) (c u : Nat) (pc : Word) (ty : Nat) (ws : List Word) : (s.trace c u pc ty ws).gone = s.gone := by
  unfold State.trace; exact (apply_ite State.gone _ _ _).trans (by simp)

@[simp] theorem State.stopBlk_cyc (s : State) (c : Nat) (r : StopReq) : (s.stopBlk c r).cyc = s.cyc := by simp [State.stopBlk]
@[simp] theorem State.stopBlk_mem (s : State) (c : Nat) (r : StopReq) : (s.stopBlk c r).mem = s.mem := by simp [State.stopBlk]
@[simp] theorem State.stopBlk_poison (s : State) (c : Nat) (r : StopReq) : (s.stopBlk c r).poison = s.poison := by simp [State.stopBlk]
@[simp] theorem State.stopBlk_stamps (s : State) (c : Nat) (r : StopReq) : (s.stopBlk c r).stamps = s.stamps := by simp [State.stopBlk]
@[simp] theorem State.stopBlk_l2 (s : State) (c : Nat) (r : StopReq) : (s.stopBlk c r).l2 = s.l2 := by simp [State.stopBlk]
@[simp] theorem State.stopBlk_dev (s : State) (c : Nat) (r : StopReq) : (s.stopBlk c r).dev = s.dev := by simp [State.stopBlk]
@[simp] theorem State.stopBlk_insts (s : State) (c : Nat) (r : StopReq) : (s.stopBlk c r).insts = s.insts := by simp [State.stopBlk]
@[simp] theorem State.stopBlk_cells (s : State) (c : Nat) (r : StopReq) : (s.stopBlk c r).cells = s.cells := by simp [State.stopBlk]
@[simp] theorem State.stopBlk_dies (s : State) (c : Nat) (r : StopReq) : (s.stopBlk c r).dies = s.dies := by simp [State.stopBlk]
@[simp] theorem State.stopBlk_colls (s : State) (c : Nat) (r : StopReq) : (s.stopBlk c r).colls = s.colls := by simp [State.stopBlk]
@[simp] theorem State.stopBlk_ports (s : State) (c : Nat) (r : StopReq) : (s.stopBlk c r).ports = s.ports := by simp [State.stopBlk]
@[simp] theorem State.stopBlk_closed (s : State) (c : Nat) (r : StopReq) : (s.stopBlk c r).closed = s.closed := by simp [State.stopBlk]
@[simp] theorem State.stopBlk_peerOut (s : State) (c : Nat) (r : StopReq) : (s.stopBlk c r).peerOut = s.peerOut := by simp [State.stopBlk]
@[simp] theorem State.stopBlk_agenda (s : State) (c : Nat) (r : StopReq) : (s.stopBlk c r).agenda = s.agenda := by simp [State.stopBlk]
@[simp] theorem State.stopBlk_cur (s : State) (c : Nat) (r : StopReq) : (s.stopBlk c r).cur = s.cur := by simp [State.stopBlk]
@[simp] theorem State.stopBlk_bundle (s : State) (c : Nat) (r : StopReq) : (s.stopBlk c r).bundle = s.bundle := by simp [State.stopBlk]
@[simp] theorem State.stopBlk_slow (s : State) (c : Nat) (r : StopReq) : (s.stopBlk c r).slow = s.slow := by simp [State.stopBlk]
@[simp] theorem State.stopBlk_fresh (s : State) (c : Nat) (r : StopReq) : (s.stopBlk c r).fresh = s.fresh := by simp [State.stopBlk]
@[simp] theorem State.stopBlk_gone (s : State) (c : Nat) (r : StopReq) : (s.stopBlk c r).gone = s.gone := by simp [State.stopBlk]

@[simp] theorem State.touchL2_cyc (s : State) (pa : Nat) (ch : BitVec 2) (w : Bool) (n : Nat) : (s.touchL2 pa ch w n).cyc = s.cyc := by
  unfold State.touchL2; try dsimp only
  split <;> simp
@[simp] theorem State.touchL2_mem (s : State) (pa : Nat) (ch : BitVec 2) (w : Bool) (n : Nat) : (s.touchL2 pa ch w n).mem = s.mem := by
  unfold State.touchL2; try dsimp only
  split <;> simp
@[simp] theorem State.touchL2_poison (s : State) (pa : Nat) (ch : BitVec 2) (w : Bool) (n : Nat) : (s.touchL2 pa ch w n).poison = s.poison := by
  unfold State.touchL2; try dsimp only
  split <;> simp
@[simp] theorem State.touchL2_stamps (s : State) (pa : Nat) (ch : BitVec 2) (w : Bool) (n : Nat) : (s.touchL2 pa ch w n).stamps = s.stamps := by
  unfold State.touchL2; try dsimp only
  split <;> simp
@[simp] theorem State.touchL2_dev (s : State) (pa : Nat) (ch : BitVec 2) (w : Bool) (n : Nat) : (s.touchL2 pa ch w n).dev = s.dev := by
  unfold State.touchL2; try dsimp only
  split <;> simp
@[simp] theorem State.touchL2_insts (s : State) (pa : Nat) (ch : BitVec 2) (w : Bool) (n : Nat) : (s.touchL2 pa ch w n).insts = s.insts := by
  unfold State.touchL2; try dsimp only
  split <;> simp
@[simp] theorem State.touchL2_cells (s : State) (pa : Nat) (ch : BitVec 2) (w : Bool) (n : Nat) : (s.touchL2 pa ch w n).cells = s.cells := by
  unfold State.touchL2; try dsimp only
  split <;> simp
@[simp] theorem State.touchL2_dies (s : State) (pa : Nat) (ch : BitVec 2) (w : Bool) (n : Nat) : (s.touchL2 pa ch w n).dies = s.dies := by
  unfold State.touchL2; try dsimp only
  split <;> simp
@[simp] theorem State.touchL2_cores (s : State) (pa : Nat) (ch : BitVec 2) (w : Bool) (n : Nat) : (s.touchL2 pa ch w n).cores = s.cores := by
  unfold State.touchL2; try dsimp only
  split <;> simp
@[simp] theorem State.touchL2_colls (s : State) (pa : Nat) (ch : BitVec 2) (w : Bool) (n : Nat) : (s.touchL2 pa ch w n).colls = s.colls := by
  unfold State.touchL2; try dsimp only
  split <;> simp
@[simp] theorem State.touchL2_ports (s : State) (pa : Nat) (ch : BitVec 2) (w : Bool) (n : Nat) : (s.touchL2 pa ch w n).ports = s.ports := by
  unfold State.touchL2; try dsimp only
  split <;> simp
@[simp] theorem State.touchL2_closed (s : State) (pa : Nat) (ch : BitVec 2) (w : Bool) (n : Nat) : (s.touchL2 pa ch w n).closed = s.closed := by
  unfold State.touchL2; try dsimp only
  split <;> simp
@[simp] theorem State.touchL2_peerOut (s : State) (pa : Nat) (ch : BitVec 2) (w : Bool) (n : Nat) : (s.touchL2 pa ch w n).peerOut = s.peerOut := by
  unfold State.touchL2; try dsimp only
  split <;> simp
@[simp] theorem State.touchL2_agenda (s : State) (pa : Nat) (ch : BitVec 2) (w : Bool) (n : Nat) : (s.touchL2 pa ch w n).agenda = s.agenda := by
  unfold State.touchL2; try dsimp only
  split <;> simp
@[simp] theorem State.touchL2_cur (s : State) (pa : Nat) (ch : BitVec 2) (w : Bool) (n : Nat) : (s.touchL2 pa ch w n).cur = s.cur := by
  unfold State.touchL2; try dsimp only
  split <;> simp
@[simp] theorem State.touchL2_bundle (s : State) (pa : Nat) (ch : BitVec 2) (w : Bool) (n : Nat) : (s.touchL2 pa ch w n).bundle = s.bundle := by
  unfold State.touchL2; try dsimp only
  split <;> simp
@[simp] theorem State.touchL2_slow (s : State) (pa : Nat) (ch : BitVec 2) (w : Bool) (n : Nat) : (s.touchL2 pa ch w n).slow = s.slow := by
  unfold State.touchL2; try dsimp only
  split <;> simp
@[simp] theorem State.touchL2_fresh (s : State) (pa : Nat) (ch : BitVec 2) (w : Bool) (n : Nat) : (s.touchL2 pa ch w n).fresh = s.fresh := by
  unfold State.touchL2; try dsimp only
  split <;> simp
@[simp] theorem State.touchL2_gone (s : State) (pa : Nat) (ch : BitVec 2) (w : Bool) (n : Nat) : (s.touchL2 pa ch w n).gone = s.gone := by
  unfold State.touchL2; try dsimp only
  split <;> simp

@[simp] theorem State.requestL2_cyc (s : State) (c pa : Nat) (ch : BitVec 2) (w : Bool) : (s.requestL2 c pa ch w).cyc = s.cyc := by simp [State.requestL2]
@[simp] theorem State.requestL2_mem (s : State) (c pa : Nat) (ch : BitVec 2) (w : Bool) : (s.requestL2 c pa ch w).mem = s.mem := by simp [State.requestL2]
@[simp] theorem State.requestL2_poison (s : State) (c pa : Nat) (ch : BitVec 2) (w : Bool) : (s.requestL2 c pa ch w).poison = s.poison := by simp [State.requestL2]
@[simp] theorem State.requestL2_stamps (s : State) (c pa : Nat) (ch : BitVec 2) (w : Bool) : (s.requestL2 c pa ch w).stamps = s.stamps := by simp [State.requestL2]
@[simp] theorem State.requestL2_dev (s : State) (c pa : Nat) (ch : BitVec 2) (w : Bool) : (s.requestL2 c pa ch w).dev = s.dev := by simp [State.requestL2]
@[simp] theorem State.requestL2_insts (s : State) (c pa : Nat) (ch : BitVec 2) (w : Bool) : (s.requestL2 c pa ch w).insts = s.insts := by simp [State.requestL2]
@[simp] theorem State.requestL2_cells (s : State) (c pa : Nat) (ch : BitVec 2) (w : Bool) : (s.requestL2 c pa ch w).cells = s.cells := by simp [State.requestL2]
@[simp] theorem State.requestL2_dies (s : State) (c pa : Nat) (ch : BitVec 2) (w : Bool) : (s.requestL2 c pa ch w).dies = s.dies := by simp [State.requestL2]
@[simp] theorem State.requestL2_colls (s : State) (c pa : Nat) (ch : BitVec 2) (w : Bool) : (s.requestL2 c pa ch w).colls = s.colls := by simp [State.requestL2]
@[simp] theorem State.requestL2_ports (s : State) (c pa : Nat) (ch : BitVec 2) (w : Bool) : (s.requestL2 c pa ch w).ports = s.ports := by simp [State.requestL2]
@[simp] theorem State.requestL2_closed (s : State) (c pa : Nat) (ch : BitVec 2) (w : Bool) : (s.requestL2 c pa ch w).closed = s.closed := by simp [State.requestL2]
@[simp] theorem State.requestL2_peerOut (s : State) (c pa : Nat) (ch : BitVec 2) (w : Bool) : (s.requestL2 c pa ch w).peerOut = s.peerOut := by simp [State.requestL2]
@[simp] theorem State.requestL2_agenda (s : State) (c pa : Nat) (ch : BitVec 2) (w : Bool) : (s.requestL2 c pa ch w).agenda = s.agenda := by simp [State.requestL2]
@[simp] theorem State.requestL2_cur (s : State) (c pa : Nat) (ch : BitVec 2) (w : Bool) : (s.requestL2 c pa ch w).cur = s.cur := by simp [State.requestL2]
@[simp] theorem State.requestL2_bundle (s : State) (c pa : Nat) (ch : BitVec 2) (w : Bool) : (s.requestL2 c pa ch w).bundle = s.bundle := by simp [State.requestL2]
@[simp] theorem State.requestL2_slow (s : State) (c pa : Nat) (ch : BitVec 2) (w : Bool) : (s.requestL2 c pa ch w).slow = s.slow := by simp [State.requestL2]
@[simp] theorem State.requestL2_fresh (s : State) (c pa : Nat) (ch : BitVec 2) (w : Bool) : (s.requestL2 c pa ch w).fresh = s.fresh := by simp [State.requestL2]
@[simp] theorem State.requestL2_gone (s : State) (c pa : Nat) (ch : BitVec 2) (w : Bool) : (s.requestL2 c pa ch w).gone = s.gone := by simp [State.requestL2]

@[simp] theorem State.touchSpan_cyc (s : State) (pa n : Nat) (w : Bool) (i : Nat) : (s.touchSpan pa n w i).cyc = s.cyc := foldl_keeps _ _ (fun _ _ => State.touchL2_cyc ..) _ _
@[simp] theorem State.touchSpan_mem (s : State) (pa n : Nat) (w : Bool) (i : Nat) : (s.touchSpan pa n w i).mem = s.mem := foldl_keeps _ _ (fun _ _ => State.touchL2_mem ..) _ _
@[simp] theorem State.touchSpan_poison (s : State) (pa n : Nat) (w : Bool) (i : Nat) : (s.touchSpan pa n w i).poison = s.poison := foldl_keeps _ _ (fun _ _ => State.touchL2_poison ..) _ _
@[simp] theorem State.touchSpan_stamps (s : State) (pa n : Nat) (w : Bool) (i : Nat) : (s.touchSpan pa n w i).stamps = s.stamps := foldl_keeps _ _ (fun _ _ => State.touchL2_stamps ..) _ _
@[simp] theorem State.touchSpan_dev (s : State) (pa n : Nat) (w : Bool) (i : Nat) : (s.touchSpan pa n w i).dev = s.dev := foldl_keeps _ _ (fun _ _ => State.touchL2_dev ..) _ _
@[simp] theorem State.touchSpan_insts (s : State) (pa n : Nat) (w : Bool) (i : Nat) : (s.touchSpan pa n w i).insts = s.insts := foldl_keeps _ _ (fun _ _ => State.touchL2_insts ..) _ _
@[simp] theorem State.touchSpan_cells (s : State) (pa n : Nat) (w : Bool) (i : Nat) : (s.touchSpan pa n w i).cells = s.cells := foldl_keeps _ _ (fun _ _ => State.touchL2_cells ..) _ _
@[simp] theorem State.touchSpan_dies (s : State) (pa n : Nat) (w : Bool) (i : Nat) : (s.touchSpan pa n w i).dies = s.dies := foldl_keeps _ _ (fun _ _ => State.touchL2_dies ..) _ _
@[simp] theorem State.touchSpan_cores (s : State) (pa n : Nat) (w : Bool) (i : Nat) : (s.touchSpan pa n w i).cores = s.cores := foldl_keeps _ _ (fun _ _ => State.touchL2_cores ..) _ _
@[simp] theorem State.touchSpan_colls (s : State) (pa n : Nat) (w : Bool) (i : Nat) : (s.touchSpan pa n w i).colls = s.colls := foldl_keeps _ _ (fun _ _ => State.touchL2_colls ..) _ _
@[simp] theorem State.touchSpan_ports (s : State) (pa n : Nat) (w : Bool) (i : Nat) : (s.touchSpan pa n w i).ports = s.ports := foldl_keeps _ _ (fun _ _ => State.touchL2_ports ..) _ _
@[simp] theorem State.touchSpan_closed (s : State) (pa n : Nat) (w : Bool) (i : Nat) : (s.touchSpan pa n w i).closed = s.closed := foldl_keeps _ _ (fun _ _ => State.touchL2_closed ..) _ _
@[simp] theorem State.touchSpan_peerOut (s : State) (pa n : Nat) (w : Bool) (i : Nat) : (s.touchSpan pa n w i).peerOut = s.peerOut := foldl_keeps _ _ (fun _ _ => State.touchL2_peerOut ..) _ _
@[simp] theorem State.touchSpan_agenda (s : State) (pa n : Nat) (w : Bool) (i : Nat) : (s.touchSpan pa n w i).agenda = s.agenda := foldl_keeps _ _ (fun _ _ => State.touchL2_agenda ..) _ _
@[simp] theorem State.touchSpan_cur (s : State) (pa n : Nat) (w : Bool) (i : Nat) : (s.touchSpan pa n w i).cur = s.cur := foldl_keeps _ _ (fun _ _ => State.touchL2_cur ..) _ _
@[simp] theorem State.touchSpan_bundle (s : State) (pa n : Nat) (w : Bool) (i : Nat) : (s.touchSpan pa n w i).bundle = s.bundle := foldl_keeps _ _ (fun _ _ => State.touchL2_bundle ..) _ _
@[simp] theorem State.touchSpan_slow (s : State) (pa n : Nat) (w : Bool) (i : Nat) : (s.touchSpan pa n w i).slow = s.slow := foldl_keeps _ _ (fun _ _ => State.touchL2_slow ..) _ _
@[simp] theorem State.touchSpan_fresh (s : State) (pa n : Nat) (w : Bool) (i : Nat) : (s.touchSpan pa n w i).fresh = s.fresh := foldl_keeps _ _ (fun _ _ => State.touchL2_fresh ..) _ _
@[simp] theorem State.touchSpan_gone (s : State) (pa n : Nat) (w : Bool) (i : Nat) : (s.touchSpan pa n w i).gone = s.gone := foldl_keeps _ _ (fun _ _ => State.touchL2_gone ..) _ _

@[simp] theorem State.touchWalk_cyc (s : State) (i : Nat) (va : Word) (who : Nat) : (s.touchWalk i va who).cyc = s.cyc := by
  unfold State.touchWalk; split
  · rfl
  · exact foldl_keeps _ _ (fun _ _ => State.touchL2_cyc ..) _ _
@[simp] theorem State.touchWalk_mem (s : State) (i : Nat) (va : Word) (who : Nat) : (s.touchWalk i va who).mem = s.mem := by
  unfold State.touchWalk; split
  · rfl
  · exact foldl_keeps _ _ (fun _ _ => State.touchL2_mem ..) _ _
@[simp] theorem State.touchWalk_poison (s : State) (i : Nat) (va : Word) (who : Nat) : (s.touchWalk i va who).poison = s.poison := by
  unfold State.touchWalk; split
  · rfl
  · exact foldl_keeps _ _ (fun _ _ => State.touchL2_poison ..) _ _
@[simp] theorem State.touchWalk_stamps (s : State) (i : Nat) (va : Word) (who : Nat) : (s.touchWalk i va who).stamps = s.stamps := by
  unfold State.touchWalk; split
  · rfl
  · exact foldl_keeps _ _ (fun _ _ => State.touchL2_stamps ..) _ _
@[simp] theorem State.touchWalk_dev (s : State) (i : Nat) (va : Word) (who : Nat) : (s.touchWalk i va who).dev = s.dev := by
  unfold State.touchWalk; split
  · rfl
  · exact foldl_keeps _ _ (fun _ _ => State.touchL2_dev ..) _ _
@[simp] theorem State.touchWalk_insts (s : State) (i : Nat) (va : Word) (who : Nat) : (s.touchWalk i va who).insts = s.insts := by
  unfold State.touchWalk; split
  · rfl
  · exact foldl_keeps _ _ (fun _ _ => State.touchL2_insts ..) _ _
@[simp] theorem State.touchWalk_cells (s : State) (i : Nat) (va : Word) (who : Nat) : (s.touchWalk i va who).cells = s.cells := by
  unfold State.touchWalk; split
  · rfl
  · exact foldl_keeps _ _ (fun _ _ => State.touchL2_cells ..) _ _
@[simp] theorem State.touchWalk_dies (s : State) (i : Nat) (va : Word) (who : Nat) : (s.touchWalk i va who).dies = s.dies := by
  unfold State.touchWalk; split
  · rfl
  · exact foldl_keeps _ _ (fun _ _ => State.touchL2_dies ..) _ _
@[simp] theorem State.touchWalk_cores (s : State) (i : Nat) (va : Word) (who : Nat) : (s.touchWalk i va who).cores = s.cores := by
  unfold State.touchWalk; split
  · rfl
  · exact foldl_keeps _ _ (fun _ _ => State.touchL2_cores ..) _ _
@[simp] theorem State.touchWalk_colls (s : State) (i : Nat) (va : Word) (who : Nat) : (s.touchWalk i va who).colls = s.colls := by
  unfold State.touchWalk; split
  · rfl
  · exact foldl_keeps _ _ (fun _ _ => State.touchL2_colls ..) _ _
@[simp] theorem State.touchWalk_ports (s : State) (i : Nat) (va : Word) (who : Nat) : (s.touchWalk i va who).ports = s.ports := by
  unfold State.touchWalk; split
  · rfl
  · exact foldl_keeps _ _ (fun _ _ => State.touchL2_ports ..) _ _
@[simp] theorem State.touchWalk_closed (s : State) (i : Nat) (va : Word) (who : Nat) : (s.touchWalk i va who).closed = s.closed := by
  unfold State.touchWalk; split
  · rfl
  · exact foldl_keeps _ _ (fun _ _ => State.touchL2_closed ..) _ _
@[simp] theorem State.touchWalk_peerOut (s : State) (i : Nat) (va : Word) (who : Nat) : (s.touchWalk i va who).peerOut = s.peerOut := by
  unfold State.touchWalk; split
  · rfl
  · exact foldl_keeps _ _ (fun _ _ => State.touchL2_peerOut ..) _ _
@[simp] theorem State.touchWalk_agenda (s : State) (i : Nat) (va : Word) (who : Nat) : (s.touchWalk i va who).agenda = s.agenda := by
  unfold State.touchWalk; split
  · rfl
  · exact foldl_keeps _ _ (fun _ _ => State.touchL2_agenda ..) _ _
@[simp] theorem State.touchWalk_cur (s : State) (i : Nat) (va : Word) (who : Nat) : (s.touchWalk i va who).cur = s.cur := by
  unfold State.touchWalk; split
  · rfl
  · exact foldl_keeps _ _ (fun _ _ => State.touchL2_cur ..) _ _
@[simp] theorem State.touchWalk_bundle (s : State) (i : Nat) (va : Word) (who : Nat) : (s.touchWalk i va who).bundle = s.bundle := by
  unfold State.touchWalk; split
  · rfl
  · exact foldl_keeps _ _ (fun _ _ => State.touchL2_bundle ..) _ _
@[simp] theorem State.touchWalk_slow (s : State) (i : Nat) (va : Word) (who : Nat) : (s.touchWalk i va who).slow = s.slow := by
  unfold State.touchWalk; split
  · rfl
  · exact foldl_keeps _ _ (fun _ _ => State.touchL2_slow ..) _ _
@[simp] theorem State.touchWalk_fresh (s : State) (i : Nat) (va : Word) (who : Nat) : (s.touchWalk i va who).fresh = s.fresh := by
  unfold State.touchWalk; split
  · rfl
  · exact foldl_keeps _ _ (fun _ _ => State.touchL2_fresh ..) _ _
@[simp] theorem State.touchWalk_gone (s : State) (i : Nat) (va : Word) (who : Nat) : (s.touchWalk i va who).gone = s.gone := by
  unfold State.touchWalk; split
  · rfl
  · exact foldl_keeps _ _ (fun _ _ => State.touchL2_gone ..) _ _

@[simp] theorem State.fillTlb_cyc (s : State) (c : Nat) (va : Word) : (s.fillTlb c va).cyc = s.cyc := by
  unfold State.fillTlb; split
  · simp
  · dsimp only; split <;> simp
@[simp] theorem State.fillTlb_mem (s : State) (c : Nat) (va : Word) : (s.fillTlb c va).mem = s.mem := by
  unfold State.fillTlb; split
  · simp
  · dsimp only; split <;> simp
@[simp] theorem State.fillTlb_poison (s : State) (c : Nat) (va : Word) : (s.fillTlb c va).poison = s.poison := by
  unfold State.fillTlb; split
  · simp
  · dsimp only; split <;> simp
@[simp] theorem State.fillTlb_stamps (s : State) (c : Nat) (va : Word) : (s.fillTlb c va).stamps = s.stamps := by
  unfold State.fillTlb; split
  · simp
  · dsimp only; split <;> simp
@[simp] theorem State.fillTlb_dev (s : State) (c : Nat) (va : Word) : (s.fillTlb c va).dev = s.dev := by
  unfold State.fillTlb; split
  · simp
  · dsimp only; split <;> simp
@[simp] theorem State.fillTlb_insts (s : State) (c : Nat) (va : Word) : (s.fillTlb c va).insts = s.insts := by
  unfold State.fillTlb; split
  · simp
  · dsimp only; split <;> simp
@[simp] theorem State.fillTlb_dies (s : State) (c : Nat) (va : Word) : (s.fillTlb c va).dies = s.dies := by
  unfold State.fillTlb; split
  · simp
  · dsimp only; split <;> simp
@[simp] theorem State.fillTlb_colls (s : State) (c : Nat) (va : Word) : (s.fillTlb c va).colls = s.colls := by
  unfold State.fillTlb; split
  · simp
  · dsimp only; split <;> simp
@[simp] theorem State.fillTlb_ports (s : State) (c : Nat) (va : Word) : (s.fillTlb c va).ports = s.ports := by
  unfold State.fillTlb; split
  · simp
  · dsimp only; split <;> simp
@[simp] theorem State.fillTlb_closed (s : State) (c : Nat) (va : Word) : (s.fillTlb c va).closed = s.closed := by
  unfold State.fillTlb; split
  · simp
  · dsimp only; split <;> simp
@[simp] theorem State.fillTlb_peerOut (s : State) (c : Nat) (va : Word) : (s.fillTlb c va).peerOut = s.peerOut := by
  unfold State.fillTlb; split
  · simp
  · dsimp only; split <;> simp
@[simp] theorem State.fillTlb_agenda (s : State) (c : Nat) (va : Word) : (s.fillTlb c va).agenda = s.agenda := by
  unfold State.fillTlb; split
  · simp
  · dsimp only; split <;> simp
@[simp] theorem State.fillTlb_cur (s : State) (c : Nat) (va : Word) : (s.fillTlb c va).cur = s.cur := by
  unfold State.fillTlb; split
  · simp
  · dsimp only; split <;> simp
@[simp] theorem State.fillTlb_bundle (s : State) (c : Nat) (va : Word) : (s.fillTlb c va).bundle = s.bundle := by
  unfold State.fillTlb; split
  · simp
  · dsimp only; split <;> simp
@[simp] theorem State.fillTlb_slow (s : State) (c : Nat) (va : Word) : (s.fillTlb c va).slow = s.slow := by
  unfold State.fillTlb; split
  · simp
  · dsimp only; split <;> simp
@[simp] theorem State.fillTlb_fresh (s : State) (c : Nat) (va : Word) : (s.fillTlb c va).fresh = s.fresh := by
  unfold State.fillTlb; split
  · simp
  · dsimp only; split <;> simp
@[simp] theorem State.fillTlb_gone (s : State) (c : Nat) (va : Word) : (s.fillTlb c va).gone = s.gone := by
  unfold State.fillTlb; split
  · simp
  · dsimp only; split <;> simp

@[simp] theorem State.logError_cyc (s : State) (die source cause severity addr : Nat) : (s.logError die source cause severity addr).cyc = s.cyc := rfl
@[simp] theorem State.logError_mem (s : State) (die source cause severity addr : Nat) : (s.logError die source cause severity addr).mem = s.mem := rfl
@[simp] theorem State.logError_poison (s : State) (die source cause severity addr : Nat) : (s.logError die source cause severity addr).poison = s.poison := rfl
@[simp] theorem State.logError_stamps (s : State) (die source cause severity addr : Nat) : (s.logError die source cause severity addr).stamps = s.stamps := rfl
@[simp] theorem State.logError_l2 (s : State) (die source cause severity addr : Nat) : (s.logError die source cause severity addr).l2 = s.l2 := rfl
@[simp] theorem State.logError_dev (s : State) (die source cause severity addr : Nat) : (s.logError die source cause severity addr).dev = s.dev := rfl
@[simp] theorem State.logError_insts (s : State) (die source cause severity addr : Nat) : (s.logError die source cause severity addr).insts = s.insts := rfl
@[simp] theorem State.logError_cells (s : State) (die source cause severity addr : Nat) : (s.logError die source cause severity addr).cells = s.cells := rfl
@[simp] theorem State.logError_cores (s : State) (die source cause severity addr : Nat) : (s.logError die source cause severity addr).cores = s.cores := rfl
@[simp] theorem State.logError_colls (s : State) (die source cause severity addr : Nat) : (s.logError die source cause severity addr).colls = s.colls := rfl
@[simp] theorem State.logError_ports (s : State) (die source cause severity addr : Nat) : (s.logError die source cause severity addr).ports = s.ports := rfl
@[simp] theorem State.logError_closed (s : State) (die source cause severity addr : Nat) : (s.logError die source cause severity addr).closed = s.closed := rfl
@[simp] theorem State.logError_peerOut (s : State) (die source cause severity addr : Nat) : (s.logError die source cause severity addr).peerOut = s.peerOut := rfl
@[simp] theorem State.logError_agenda (s : State) (die source cause severity addr : Nat) : (s.logError die source cause severity addr).agenda = s.agenda := rfl
@[simp] theorem State.logError_cur (s : State) (die source cause severity addr : Nat) : (s.logError die source cause severity addr).cur = s.cur := rfl
@[simp] theorem State.logError_bundle (s : State) (die source cause severity addr : Nat) : (s.logError die source cause severity addr).bundle = s.bundle := rfl
@[simp] theorem State.logError_slow (s : State) (die source cause severity addr : Nat) : (s.logError die source cause severity addr).slow = s.slow := rfl
@[simp] theorem State.logError_fresh (s : State) (die source cause severity addr : Nat) : (s.logError die source cause severity addr).fresh = s.fresh := rfl
@[simp] theorem State.logError_gone (s : State) (die source cause severity addr : Nat) : (s.logError die source cause severity addr).gone = s.gone := rfl

@[simp] theorem State.hitL1_cyc (s : State) (c pa : Nat) (ch : BitVec 2) : (s.hitL1 c pa ch).cyc = s.cyc := by
  unfold State.hitL1; try dsimp only
  split <;> simp
@[simp] theorem State.hitL1_mem (s : State) (c pa : Nat) (ch : BitVec 2) : (s.hitL1 c pa ch).mem = s.mem := by
  unfold State.hitL1; try dsimp only
  split <;> simp
@[simp] theorem State.hitL1_poison (s : State) (c pa : Nat) (ch : BitVec 2) : (s.hitL1 c pa ch).poison = s.poison := by
  unfold State.hitL1; try dsimp only
  split <;> simp
@[simp] theorem State.hitL1_stamps (s : State) (c pa : Nat) (ch : BitVec 2) : (s.hitL1 c pa ch).stamps = s.stamps := by
  unfold State.hitL1; try dsimp only
  split <;> simp
@[simp] theorem State.hitL1_l2 (s : State) (c pa : Nat) (ch : BitVec 2) : (s.hitL1 c pa ch).l2 = s.l2 := by
  unfold State.hitL1; try dsimp only
  split <;> simp
@[simp] theorem State.hitL1_dev (s : State) (c pa : Nat) (ch : BitVec 2) : (s.hitL1 c pa ch).dev = s.dev := by
  unfold State.hitL1; try dsimp only
  split <;> simp
@[simp] theorem State.hitL1_insts (s : State) (c pa : Nat) (ch : BitVec 2) : (s.hitL1 c pa ch).insts = s.insts := by
  unfold State.hitL1; try dsimp only
  split <;> simp
@[simp] theorem State.hitL1_cells (s : State) (c pa : Nat) (ch : BitVec 2) : (s.hitL1 c pa ch).cells = s.cells := by
  unfold State.hitL1; try dsimp only
  split <;> simp
@[simp] theorem State.hitL1_dies (s : State) (c pa : Nat) (ch : BitVec 2) : (s.hitL1 c pa ch).dies = s.dies := by
  unfold State.hitL1; try dsimp only
  split <;> simp
@[simp] theorem State.hitL1_colls (s : State) (c pa : Nat) (ch : BitVec 2) : (s.hitL1 c pa ch).colls = s.colls := by
  unfold State.hitL1; try dsimp only
  split <;> simp
@[simp] theorem State.hitL1_ports (s : State) (c pa : Nat) (ch : BitVec 2) : (s.hitL1 c pa ch).ports = s.ports := by
  unfold State.hitL1; try dsimp only
  split <;> simp
@[simp] theorem State.hitL1_closed (s : State) (c pa : Nat) (ch : BitVec 2) : (s.hitL1 c pa ch).closed = s.closed := by
  unfold State.hitL1; try dsimp only
  split <;> simp
@[simp] theorem State.hitL1_peerOut (s : State) (c pa : Nat) (ch : BitVec 2) : (s.hitL1 c pa ch).peerOut = s.peerOut := by
  unfold State.hitL1; try dsimp only
  split <;> simp
@[simp] theorem State.hitL1_agenda (s : State) (c pa : Nat) (ch : BitVec 2) : (s.hitL1 c pa ch).agenda = s.agenda := by
  unfold State.hitL1; try dsimp only
  split <;> simp
@[simp] theorem State.hitL1_cur (s : State) (c pa : Nat) (ch : BitVec 2) : (s.hitL1 c pa ch).cur = s.cur := by
  unfold State.hitL1; try dsimp only
  split <;> simp
@[simp] theorem State.hitL1_bundle (s : State) (c pa : Nat) (ch : BitVec 2) : (s.hitL1 c pa ch).bundle = s.bundle := by
  unfold State.hitL1; try dsimp only
  split <;> simp
@[simp] theorem State.hitL1_slow (s : State) (c pa : Nat) (ch : BitVec 2) : (s.hitL1 c pa ch).slow = s.slow := by
  unfold State.hitL1; try dsimp only
  split <;> simp
@[simp] theorem State.hitL1_fresh (s : State) (c pa : Nat) (ch : BitVec 2) : (s.hitL1 c pa ch).fresh = s.fresh := by
  unfold State.hitL1; try dsimp only
  split <;> simp
@[simp] theorem State.hitL1_gone (s : State) (c pa : Nat) (ch : BitVec 2) : (s.hitL1 c pa ch).gone = s.gone := by
  unfold State.hitL1; try dsimp only
  split <;> simp

/-! ## What an update puts in -/

@[simp] theorem State.setCore_cores (s : State) (c : Nat) (k : Core) : (s.setCore c k).cores = s.cores.set c k := rfl

@[simp] theorem State.tick_fresh (s : State) : s.tick.fresh = s.fresh + 1 := rfl

/-- A step takes at least one cycle. -/
theorem State.tick_cyc (s : State) : s.tick.cyc = s.cyc + 1 + Config.extraCycles s.fresh := rfl

/-- A core reads back as it was set. -/
theorem State.core_setCore_self (s : State) {c : Nat} (h : c < s.cores.length) (k : Core) : (s.setCore c k).core c = k := by
  simp [State.core, State.setCore, h]

/-- Setting a core leaves the others. -/
theorem State.core_setCore_ne (s : State) {c d : Nat} (h : c ≠ d) (k : Core) : (s.setCore c k).core d = s.core d := by
  simp [State.core, State.setCore, h]

/-- Changing a core leaves the others. -/
theorem State.core_modCore_ne (s : State) {c d : Nat} (h : c ≠ d) (f : Core → Core) : (s.modCore c f).core d = s.core d :=
  State.core_setCore_ne s h _

/-- A core that is changed. -/
theorem State.core_modCore_self (s : State) {c : Nat} (h : c < s.cores.length) (f : Core → Core) :
    (s.modCore c f).core c = f (s.core c) := State.core_setCore_self s h _

/-- A core that holds a block exists. -/
theorem State.lt_of_blk {s : State} {c : Nat} {b : Block} (h : s.blk c = some b) : c < s.cores.length := by
  apply Decidable.byContradiction; intro hc
  simp [State.blk, State.core, List.getElem?_eq_none (Nat.not_lt.mp hc)] at h

/-- A block's unit exists at its number. -/
theorem Block.lt_of_unit {b : Block} {u : Nat} {p : ProgUnit} (h : b.unit u = some p) : u < b.units.length := by
  apply Decidable.byContradiction; intro hc
  simp [Block.unit, List.getElem?_eq_none (Nat.not_lt.mp hc)] at h

/-- The block of a core reads back as it was set. -/
theorem State.blk_setBlk_self (s : State) {c : Nat} (h : c < s.cores.length) (b : Block) : (s.setBlk c b).blk c = some b := by
  simp [State.blk, State.setBlk, State.core_setCore_self s h]

/-- Setting a block leaves the blocks of the other cores. -/
theorem State.blk_setBlk_ne (s : State) {c d : Nat} (h : c ≠ d) (b : Block) : (s.setBlk c b).blk d = s.blk d := by
  simp [State.blk, State.setBlk, State.core_setCore_ne s h]

/-- A unit of a block reads back as it was set. -/
theorem Block.unit_setUnit_self (b : Block) {u : Nat} (h : u < b.units.length) (p : ProgUnit) :
    (b.setUnit u p).unit u = some p := by
  simp [Block.unit, Block.setUnit, h]

/-- Setting a unit leaves the others. -/
theorem Block.unit_setUnit_ne (b : Block) {u w : Nat} (h : u ≠ w) (p : ProgUnit) : (b.setUnit u p).unit w = b.unit w := by
  simp [Block.unit, Block.setUnit, h]

/-- A unit exists where its core holds a block that has it. -/
theorem State.unit_some {s : State} {c u : Nat} {p : ProgUnit} (h : s.unit c u = some p) :
    ∃ b, s.blk c = some b ∧ b.unit u = some p := by
  cases hb : s.blk c with
  | none => simp [State.unit, hb] at h
  | some b => exact ⟨b, rfl, by simpa [State.unit, hb] using h⟩

/-- The unit that an operation changes. -/
theorem State.unit_modUnit_self {s : State} {c u : Nat} {p : ProgUnit} (h : s.unit c u = some p) (f : ProgUnit → ProgUnit) :
    (s.modUnit c u f).unit c u = some (f p) := by
  obtain ⟨b, hb, hu⟩ := State.unit_some h
  have hc := State.lt_of_blk hb
  simp only [State.modUnit, h, State.setUnit, hb]
  simp [State.unit, State.blk_setBlk_self s hc, Block.unit_setUnit_self b (Block.lt_of_unit hu)]

/-- Changing a unit leaves every other unit. -/
theorem State.unit_modUnit_ne (s : State) {c u d w : Nat} (h : ¬(c = d ∧ u = w)) (f : ProgUnit → ProgUnit) :
    (s.modUnit c u f).unit d w = s.unit d w := by
  unfold State.modUnit
  split
  · rfl
  · rename_i p hp
    obtain ⟨b, hb, hu⟩ := State.unit_some hp
    have hc := State.lt_of_blk hb
    simp only [State.setUnit, hb]
    by_cases hd : c = d
    · subst hd
      have hw : u ≠ w := fun e => h ⟨rfl, e⟩
      simp [State.unit, State.blk_setBlk_self s hc, hb, Block.unit_setUnit_ne b hw]
    · simp [State.unit, State.blk_setBlk_ne s hd]

/-- Where no unit stands, changing it does nothing. -/
theorem State.modUnit_none {s : State} {c u : Nat} (h : s.unit c u = none) (f : ProgUnit → ProgUnit) : s.modUnit c u f = s := by
  simp [State.modUnit, h]

end Sys2Proof.Machine
end

