-- ==== Sys2Proof/Laws/Memory.lean ====
section
/-! SUPPORT. The laws of the canonical memory list: a read after a write, every other address unchanged, the canonical form
kept by every operation, and equal contents being equal lists. -/

namespace Sys2Proof.Machine

open Host (Cell)

/-! ## Reading after writing -/

/-- The canonical form, read as a proposition on a non-empty list. -/
theorem Memory.wf_cons {a : Nat} {b : Byte} {m : List Cell} :
    Memory.wf ((a, b) :: m) = true ↔ b ≠ 0 ∧ (∀ c ∈ m, a < c.1) ∧ Memory.wf m = true := by
  induction m generalizing a b with
  | nil => simp [Memory.wf]
  | cons c m ih =>
    obtain ⟨a', b'⟩ := c
    simp only [Memory.wf, Bool.and_eq_true, decide_eq_true_eq, bne_iff_ne, ne_eq, List.mem_cons, forall_eq_or_imp]
    rw [ih]
    constructor
    · rintro ⟨⟨h1, h2⟩, h3, h4, h5⟩
      exact ⟨h1, ⟨h2, fun c hc => Nat.lt_trans h2 (h4 c hc)⟩, h3, h4, h5⟩
    · rintro ⟨h1, ⟨h2, _⟩, h3, h4, h5⟩
      exact ⟨⟨h1, h2⟩, h3, h4, h5⟩

/-- An address below every listed one reads 0. -/
theorem cellGet_below {m : List Cell} {x : Nat} (h : ∀ c ∈ m, x < c.1) : cellGet m x = 0 := by
  induction m with
  | nil => rfl
  | cons c m ih =>
    obtain ⟨a, b⟩ := c
    have ha : x < a := h (a, b) (by simp)
    simp only [cellGet, if_neg (Nat.ne_of_lt ha)]
    exact ih fun c hc => h c (by simp [hc])

/-- Reading a byte after a byte is written (R5). -/
theorem cellGet_cellSet {m : List Cell} (hm : Memory.wf m = true) (x : Nat) (v : Byte) (y : Nat) :
    cellGet (cellSet m x v) y = if y = x then v else cellGet m y := by
  induction m with
  | nil => by_cases hv : v = 0#8 <;> by_cases hy : y = x <;> simp [cellSet, cellGet, hv, hy]
  | cons c m ih =>
    obtain ⟨a, b⟩ := c
    obtain ⟨-, hlt, hwf⟩ := Memory.wf_cons.mp hm
    by_cases h1 : x < a
    · have hx : cellGet ((a, b) :: m) x = 0 := cellGet_below fun c hc => by
        rcases List.mem_cons.mp hc with rfl | hc
        · exact h1
        · exact Nat.lt_trans h1 (hlt c hc)
      by_cases hv : v = 0#8
      · by_cases hy : y = x
        · subst hy; simp [cellSet, h1, hv, hx]
        · simp [cellSet, h1, hv, hy]
      · by_cases hy : y = x <;> simp [cellSet, h1, hv, hy, cellGet]
    · by_cases h2 : x = a
      · subst h2
        have hx : cellGet m x = 0 := cellGet_below hlt
        by_cases hv : v = 0#8
        · by_cases hy : y = x
          · subst hy; simp [cellSet, hv, hx]
          · simp [cellSet, hv, hy, cellGet]
        · by_cases hy : y = x <;> simp [cellSet, hv, hy, cellGet]
      · simp only [cellSet, if_neg h1, if_neg h2, cellGet]
        rw [ih hwf]
        by_cases hy : y = a
        · subst hy; simp [Ne.symm h2]
        · simp [hy]

/-! ## The canonical form is kept -/

/-- Every entry after a write is an old one or the written address. -/
theorem mem_cellSet {m : List Cell} {x : Nat} {v : Byte} {c : Cell} (h : c ∈ cellSet m x v) : c ∈ m ∨ c.1 = x := by
  induction m with
  | nil =>
    simp only [cellSet] at h
    split at h
    · simp at h
    · simp at h; simp [h]
  | cons d m ih =>
    obtain ⟨a, b⟩ := d
    simp only [cellSet] at h
    split at h
    · split at h
      · exact .inl h
      · rcases List.mem_cons.mp h with rfl | h
        · exact .inr rfl
        · exact .inl h
    · split at h
      · split at h
        · exact .inl (List.mem_cons_of_mem _ h)
        · rcases List.mem_cons.mp h with rfl | h
          · exact .inr rfl
          · exact .inl (List.mem_cons_of_mem _ h)
      · rcases List.mem_cons.mp h with rfl | h
        · exact .inl (by simp)
        · exact (ih h).imp (List.mem_cons_of_mem _) id

/-- A written byte keeps the canonical form. -/
theorem Memory.wf_cellSet {m : List Cell} (hm : Memory.wf m = true) (x : Nat) (v : Byte) :
    Memory.wf (cellSet m x v) = true := by
  induction m with
  | nil => by_cases hv : v = 0#8 <;> simp [cellSet, Memory.wf, hv]
  | cons d m ih =>
    obtain ⟨a, b⟩ := d
    obtain ⟨hb, hlt, hwf⟩ := Memory.wf_cons.mp hm
    simp only [cellSet]
    split
    · rename_i h1
      split
      · exact hm
      · rename_i hv
        refine Memory.wf_cons.mpr ⟨hv, fun c hc => ?_, hm⟩
        rcases List.mem_cons.mp hc with rfl | hc
        · exact h1
        · exact Nat.lt_trans h1 (hlt c hc)
    · split
      · rename_i h2
        subst h2
        split
        · exact hwf
        · rename_i hv
          exact Memory.wf_cons.mpr ⟨hv, hlt, hwf⟩
      · rename_i h1 h2
        refine Memory.wf_cons.mpr ⟨hb, fun c hc => ?_, ih hwf⟩
        rcases mem_cellSet hc with hc | hc
        · exact hlt c hc
        · omega

/-- Written bytes keep the canonical form. -/
theorem Memory.wf_cellWrite (bs : List Byte) (m : List Cell) (hm : Memory.wf m = true) (a : Nat) :
    Memory.wf (cellWrite m a bs) = true := by
  induction bs generalizing m a with
  | nil => exact hm
  | cons b bs ih => exact ih _ (Memory.wf_cellSet hm a b) (a + 1)

/-- Cells filtered by their address keep the canonical form. -/
theorem Memory.wf_filter {m : List Cell} (hm : Memory.wf m = true) (p : Cell → Bool) : Memory.wf (m.filter p) = true := by
  induction m with
  | nil => rfl
  | cons d m ih =>
    obtain ⟨a, b⟩ := d
    obtain ⟨hb, hlt, hwf⟩ := Memory.wf_cons.mp hm
    by_cases hp : p (a, b) = true
    · rw [List.filter_cons_of_pos hp]
      exact Memory.wf_cons.mpr ⟨hb, fun c hc => hlt c ((List.mem_filter.mp hc).1), ih hwf⟩
    · rw [List.filter_cons_of_neg hp]
      exact ih hwf

/-- Clearing a range keeps the canonical form. -/
theorem Memory.wf_cellClear {m : List Cell} (hm : Memory.wf m = true) (lo hi : Nat) :
    Memory.wf (cellClear m lo hi) = true := Memory.wf_filter hm _

/-! ## Runs of bytes -/

/-- Reading a byte after bytes are written. -/
theorem cellGet_cellWrite (bs : List Byte) {m : List Cell} (hm : Memory.wf m = true) (a y : Nat) :
    cellGet (cellWrite m a bs) y = if a ≤ y ∧ y < a + bs.length then bs[y - a]?.getD 0 else cellGet m y := by
  induction bs generalizing m a with
  | nil =>
    have : ¬(a ≤ y ∧ y < a + 0) := by omega
    simp only [cellWrite, List.length_nil, if_neg this]
  | cons b bs ih =>
    simp only [cellWrite]
    rw [ih (Memory.wf_cellSet hm a b), cellGet_cellSet hm]
    simp only [List.length_cons]
    by_cases hy : y = a
    · subst hy
      have h1 : ¬(y + 1 ≤ y ∧ y < y + 1 + bs.length) := by omega
      have h2 : y ≤ y ∧ y < y + (bs.length + 1) := by omega
      rw [if_neg h1, if_pos h2, if_pos rfl]; simp
    · by_cases h1 : a + 1 ≤ y ∧ y < a + 1 + bs.length
      · have h2 : a ≤ y ∧ y < a + (bs.length + 1) := by omega
        have h3 : y - a = (y - (a + 1)) + 1 := by omega
        rw [if_pos h1, if_pos h2, h3, List.getElem?_cons_succ]
      · have h2 : ¬(a ≤ y ∧ y < a + (bs.length + 1)) := by omega
        rw [if_neg h1, if_neg h2, if_neg hy]

/-- An address outside the bytes written reads as before. -/
theorem cellGet_cellWrite_ne (bs : List Byte) {m : List Cell} (hm : Memory.wf m = true) {a y : Nat}
    (h : ¬(a ≤ y ∧ y < a + bs.length)) : cellGet (cellWrite m a bs) y = cellGet m y := by
  rw [cellGet_cellWrite bs hm, if_neg h]

/-- A run of bytes depends on the bytes in it alone. -/
theorem cellRead_congr {m m' : List Cell} {n a : Nat} (h : ∀ y, a ≤ y → y < a + n → cellGet m y = cellGet m' y) :
    cellRead m a n = cellRead m' a n := by
  induction n generalizing a with
  | zero => rfl
  | succ n ih =>
    simp only [cellRead]
    rw [h a (Nat.le_refl a) (by omega), ih fun y h1 h2 => h y (by omega) (by omega)]

/-- The bytes written are the bytes read back. -/
theorem cellRead_cellWrite (bs : List Byte) {m : List Cell} (hm : Memory.wf m = true) (a : Nat) :
    cellRead (cellWrite m a bs) a bs.length = bs := by
  induction bs generalizing m a with
  | nil => rfl
  | cons b bs ih =>
    simp only [cellWrite, List.length_cons, cellRead]
    rw [ih (Memory.wf_cellSet hm a b),
      cellGet_cellWrite_ne bs (Memory.wf_cellSet hm a b) (by omega), cellGet_cellSet hm, if_pos rfl]

/-! ## Equal contents are equal lists -/

/-- Two canonical lists that read alike everywhere are equal. -/
theorem Memory.ext {m m' : List Cell} (hm : Memory.wf m = true) (hm' : Memory.wf m' = true)
    (h : ∀ x, cellGet m x = cellGet m' x) : m = m' := by
  induction m generalizing m' with
  | nil =>
    cases m' with
    | nil => rfl
    | cons d m' =>
      obtain ⟨a, b⟩ := d
      have := h a
      simp [cellGet] at this
      exact absurd this.symm (Memory.wf_cons.mp hm').1
  | cons d m ih =>
    obtain ⟨a, b⟩ := d
    obtain ⟨hb, hlt, hwf⟩ := Memory.wf_cons.mp hm
    cases m' with
    | nil =>
      have := h a
      simp [cellGet] at this
      exact absurd this hb
    | cons d' m' =>
      obtain ⟨a', b'⟩ := d'
      obtain ⟨hb', hlt', hwf'⟩ := Memory.wf_cons.mp hm'
      have below : ∀ {x y : Nat} {l : List Cell}, x < y → (∀ c ∈ l, y < c.1) → cellGet l x = 0 :=
        fun hxy hl => cellGet_below fun c hc => Nat.lt_trans hxy (hl c hc)
      rcases Nat.lt_trichotomy a a' with ha | ha | ha
      · have := h a
        simp only [cellGet, if_true, if_neg (Nat.ne_of_lt ha), below ha hlt'] at this
        exact absurd this hb
      · subst ha
        have hbb : b = b' := by simpa [cellGet] using h a
        subst hbb
        rw [ih hwf hwf' fun x => ?_]
        by_cases hx : x = a
        · subst hx; rw [cellGet_below hlt, cellGet_below hlt']
        · simpa [cellGet, hx] using h x
      · have := h a'
        simp only [cellGet, if_true, if_neg (Nat.ne_of_lt ha), below ha hlt] at this
        exact absurd this.symm hb'

/-! ## Memory operations of the state -/

/-- Memory after reset is canonical. -/
theorem Memory.wf_reset : Memory.wf State.reset.mem = true := rfl

/-- What a write at a home slice leaves in memory. -/
@[simp] theorem State.homeWrite_mem (s : State) (pa : Nat) (bs : List Byte) (ch : BitVec 2) (n : Nat) :
    (s.homeWrite pa bs ch n).mem = cellWrite s.mem pa bs := by
  unfold State.homeWrite
  dsimp only
  rw [State.touchL2_mem]
  dsimp only
  split <;> simp

/-- A write at a home slice keeps the canonical form. -/
theorem State.homeWrite_wf {s : State} (h : Memory.wf s.mem = true) (pa : Nat) (bs : List Byte) (ch : BitVec 2) (n : Nat) :
    Memory.wf (s.homeWrite pa bs ch n).mem = true := by
  rw [State.homeWrite_mem]; exact Memory.wf_cellWrite bs _ h pa

/-- A request at a home slice counts and changes no memory. -/
@[simp] theorem State.countL2_mem (s : State) (c pa : Nat) : (s.countL2 c pa).mem = s.mem := by simp [State.countL2]

/-- A word that an open bundle keeps changes no memory. -/
@[simp] theorem State.keepWord_mem (s : State) (pa : Nat) : (s.keepWord pa).mem = s.mem := rfl

/-- A change of a word at its home slice writes its bytes. -/
@[simp] theorem State.sliceWrite_mem (s : State) (c pa : Nat) (bs : List Byte) (ch : BitVec 2) :
    (s.sliceWrite c pa bs ch).mem = cellWrite s.mem pa bs := by simp [State.sliceWrite]

/-- A change of a guard's word in its pinned line writes its bytes (R158). -/
@[simp] theorem State.pinWrite_mem (s : State) (c pa : Nat) (bs : List Byte) :
    (s.pinWrite c pa bs).mem = cellWrite s.mem pa bs := by simp [State.pinWrite]

/-- A store that lands writes its bytes. -/
@[simp] theorem State.land_mem (s : State) (c : Nat) (t : Travel) : (s.land c t).mem = cellWrite s.mem t.pa t.bytes := by
  simp [State.land]

/-- A store that a pin refuses changes no memory. -/
@[simp] theorem State.refuse_mem (s : State) (c : Nat) (t : Travel) : (s.refuse c t).mem = s.mem := by
  unfold State.refuse; split <;> simp

/-- Stores that land keep the canonical form. -/
theorem State.foldl_land_wf (c : Nat) (l : List Travel) {s : State} (h : Memory.wf s.mem = true) :
    Memory.wf (l.foldl (State.land · c) s).mem = true := by
  induction l generalizing s with
  | nil => exact h
  | cons t l ih => exact ih (by rw [State.land_mem]; exact Memory.wf_cellWrite _ _ h _)

/-- The landing of some of a core's stores keeps the canonical form. -/
theorem State.landSome_wf {s : State} (h : Memory.wf s.mem = true) (c : Nat) (f : Travel → Bool) :
    Memory.wf (s.landSome c f).mem = true := by
  simp only [State.landSome, State.modCore_mem]
  rw [foldl_keeps State.mem (State.refuse · c) (fun _ _ => State.refuse_mem ..)]
  exact State.foldl_land_wf c _ h

/-- The landing of a core's stores keeps the canonical form. -/
theorem State.landAll_wf {s : State} (h : Memory.wf s.mem = true) (c : Nat) : Memory.wf (s.landAll c).mem = true :=
  State.landSome_wf h c _

/-- The landing of the stores to a line keeps the canonical form. -/
theorem State.landLine_wf {s : State} (h : Memory.wf s.mem = true) (c pa : Nat) : Memory.wf (s.landLine c pa).mem = true :=
  State.landSome_wf h c _

/-- A store to the register space changes no byte of memory. -/
@[simp] theorem State.storeRegs_mem (s : State) (off : Nat) (bs : List Byte) : (s.storeRegs off bs).mem = s.mem := by
  unfold State.storeRegs; dsimp only; split <;> rfl

/-- A committed global store changes no byte of memory yet: it travels (R146). -/
@[simp] theorem State.commitGlobal_mem (s : State) (c u pa : Nat) (bs : List Byte) (ch : BitVec 2) :
    (s.commitGlobal c u pa bs ch).mem = s.mem := by
  unfold State.commitGlobal; split <;> simp

/-- A committed store changes no byte of global memory yet. -/
@[simp] theorem State.commitItem_mem (s : State) (c u : Nat) (ch : BitVec 2) (i : StoreItem) :
    (s.commitItem c u ch i).mem = s.mem := by
  unfold State.commitItem; split <;> simp [State.commitTile, State.commitBst]

/-- A sampled request changes no memory. -/
@[simp] theorem State.sample_mem (s : State) (c u : Nat) (pc info : Word) : (s.sample c u pc info).mem = s.mem := by
  unfold State.sample; dsimp only; split
  · rfl
  · split <;> simp

/-- Sampled requests change no memory. -/
@[simp] theorem State.samples_mem (s : State) (c u : Nat) (pc : Word) (names : List Word) :
    (s.samples c u pc names).mem = s.mem :=
  foldl_keeps State.mem (State.sample · c u pc) (fun _ _ => State.sample_mem ..) _ _

/-- A store instruction that commits changes no byte of global memory yet. -/
@[simp] theorem State.commitStore_mem (s : State) (c u : Nat) (x : HeldStore) : (s.commitStore c u x).mem = s.mem := by
  unfold State.commitStore
  rw [State.samples_mem]
  exact foldl_keeps State.mem (State.commitItem · c u x.ch) (fun _ _ => State.commitItem_mem ..) _ _

/-- A pail that commits changes no byte of global memory yet (R146, R148). -/
@[simp] theorem State.commitPail_mem (s : State) (c u : Nat) : (s.commitPail c u).mem = s.mem := by
  unfold State.commitPail
  split
  · rfl
  · rw [State.modUnit_mem]
    exact foldl_keeps State.mem (State.commitStore · c u) (fun _ _ => State.commitStore_mem ..) _ _

end Sys2Proof.Machine
end

