-- ==== Sys2Proof/Laws/Issue.lean ====
section
/-! SUPPORT. What issuing an instruction can do: the view, the two forms of issue, what completion leaves, and the frame of an
instruction that touches its own unit alone. -/

namespace Sys2Proof.Machine

/-! ## Changing one unit -/

/-- Two changes of a unit are one. -/
theorem State.modUnit_modUnit (s : State) (c u : Nat) (f g : ProgUnit → ProgUnit) :
    (s.modUnit c u f).modUnit c u g = s.modUnit c u fun p => g (f p) := by
  cases h : s.unit c u with
  | none => simp [State.modUnit_none h]
  | some p =>
    obtain ⟨b, hb, hu⟩ := State.unit_some h
    have hc := State.lt_of_blk hb
    have h1 := State.unit_modUnit_self h f
    have e1 : s.modUnit c u f = s.setBlk c (b.setUnit u (f p)) := by simp [State.modUnit, h, State.setUnit, hb]
    have e2 : s.modUnit c u (fun p => g (f p)) = s.setBlk c (b.setUnit u (g (f p))) := by
      simp [State.modUnit, h, State.setUnit, hb]
    rw [State.modUnit, h1]
    simp only
    rw [e2, e1, State.setUnit, State.blk_setBlk_self s hc]
    simp [State.setBlk, State.setCore, Block.setUnit, State.core, hc]

/-- Two changes of the issuing unit are one. -/
theorem State.modU_modU (s : State) (v : View) (f g : ProgUnit → ProgUnit) :
    (s.modU v f).modU v g = s.modU v fun p => g (f p) := State.modUnit_modUnit s _ _ f g

/-- The issuing unit after a change. -/
theorem State.unit_modU {s : State} {v : View} {p : ProgUnit} (h : s.unit v.core v.unit = some p) (f : ProgUnit → ProgUnit) :
    (s.modU v f).unit v.core v.unit = some (f p) := State.unit_modUnit_self h f

/-- The issuing unit as it stands. -/
theorem State.me_eq {s : State} {v : View} {p : ProgUnit} (h : s.unit v.core v.unit = some p) : s.me v = p := by
  simp [State.me, h]

/-- The instance of a core depends on the partition alone. -/
theorem State.instOf_congr {s t : State} (h : t.dev = s.dev) (c : Nat) : t.instOf c = s.instOf c := by
  simp [State.instOf, h]

/-! ## What a change of one unit leaves -/

/-- Nothing changed is undisturbed. -/
theorem Undisturbed.refl (s : State) (v : View) : Undisturbed s s v := ⟨rfl, fun _ _ => rfl, rfl, rfl, fun _ _ => rfl⟩

/-- One undisturbed change after another. -/
theorem Undisturbed.trans {s t r : State} {v : View} (h : Undisturbed s t v) (k : Undisturbed t r v) : Undisturbed s r v :=
  ⟨k.rest.trans h.rest, fun c hc => (k.cores c hc).trans (h.cores c hc), k.core.trans h.core, k.blk.trans h.blk,
    fun u hu => (k.units u hu).trans (h.units u hu)⟩

/-- A core that does not exist is not changed. -/
theorem State.modCore_beyond (s : State) {c : Nat} (h : ¬c < s.cores.length) (f : Core → Core) : s.modCore c f = s := by
  have : s.cores.set c (f (s.core c)) = s.cores := List.set_eq_of_length_le (Nat.not_lt.mp h)
  simp only [State.modCore, State.setCore]
  rw [this]

/-- A core's counters count beside everything else. -/
theorem Undisturbed.count (s : State) (v : View) (ev n : Nat) : Undisturbed s (s.count v.core ev n) v := by
  by_cases hc : v.core < s.cores.length
  · have hcore : (s.count v.core ev n).core v.core = { s.core v.core with
        ctrs := (s.core v.core).ctrs.map fun t => if t.running && t.event == ev then { t with count := t.count + .ofNat 64 n } else t } := by
      simp [State.count, State.core_modCore_self s hc]
    refine ⟨rfl, fun c h => ?_, by rw [hcore]; rfl, ?_, fun u _ => ?_⟩
    · exact State.core_modCore_ne s (Ne.symm h) _
    · rw [State.blk, State.blk, hcore]
    · rw [State.unit, State.unit, State.blk, State.blk, hcore]
  · have h0 : s.count v.core ev n = s := State.modCore_beyond s hc _
    rw [h0]; exact Undisturbed.refl s v

/-- A change of the issuing unit disturbs nothing else. -/
theorem Undisturbed.modU (s : State) (v : View) (f : ProgUnit → ProgUnit) : Undisturbed s (s.modU v f) v := by
  unfold State.modU
  cases h : s.unit v.core v.unit with
  | none => rw [State.modUnit_none h]; exact Undisturbed.refl s v
  | some p =>
    obtain ⟨b, hb, hu⟩ := State.unit_some h
    have hc := State.lt_of_blk hb
    have e : s.modUnit v.core v.unit f = s.setBlk v.core (b.setUnit v.unit (f p)) := by
      simp [State.modUnit, h, State.setUnit, hb]
    refine ⟨?_, fun c hcc => ?_, ?_, ?_, fun u hne => ?_⟩
    · rw [e]; rfl
    · rw [e]; exact State.core_setCore_ne s (Ne.symm hcc) _
    · rw [e]
      simp only [State.setBlk]
      rw [State.core_setCore_self s hc]; rfl
    · rw [e, State.blk_setBlk_self s hc, hb]; rfl
    · exact State.unit_modUnit_ne s (fun hh => hne hh.2.symm) f

/-- The counters leave the units. -/
@[simp] theorem State.unit_count (s : State) (c ev n d u : Nat) : (s.count c ev n).unit d u = s.unit d u := by
  by_cases hd : d = c
  · subst hd
    by_cases hc : d < s.cores.length
    · simp [State.unit, State.blk, State.count, State.core_modCore_self s hc]
    · rw [State.count, State.modCore_beyond s hc]
  · simp [State.unit, State.blk, State.count, State.core_modCore_ne s (Ne.symm hd)]

/-! ## Answers before a bundle -/

/-- Memory gives no answer to an entry that has its own. -/
theorem answerEntry_settled {s : State} {c u n : Nat}
    (h : ∀ p, s.unit c u = some p → ∀ e ∈ p.q.loads, e.ans ≠ .pending) : s.answerEntry c u n = s := by
  unfold State.answerEntry
  split
  · rename_i hp
    split
    · rename_i e he
      have := h _ hp e (List.mem_of_getElem? he)
      simp [this]
    · rfl
  · rfl

/-- A unit whose every load has its answer is left as it is. -/
theorem answerAll_settled {s : State} {c u : Nat}
    (h : ∀ p, s.unit c u = some p → ∀ e ∈ p.q.loads, e.ans ≠ .pending) : s.answerAll c u = s := by
  unfold State.answerAll
  split
  · rfl
  · generalize List.range _ = l
    rename_i p _
    induction l with
    | nil => rfl
    | cons k l ih => rw [List.foldl_cons, answerEntry_settled h, ih]

/-- A bundle issues in the state at hand where every load of its context has its answer (R102). -/
theorem answered_settled {s : State}
    (h : ∀ p, s.unit s.cur.core s.cur.unit = some p → ∀ e ∈ p.q.loads, e.ans ≠ .pending) : s.answered = s := by
  unfold State.answered
  split
  · rfl
  · split
    · split
      · exact answerAll_settled h
      · rfl
    · rfl

/-- What the turn's unit sees tells that its bundle issues in the state at hand: later answers (the slow mode), or none owed. -/
theorem answered_view {s : State} {i : Instr} {h : Head} {v : View} (hv : s.view i h = some v) (hb : s.bundle = none)
    (hl : s.slow = true ∨ ∀ e ∈ v.u.q.loads, e.ans ≠ .pending) : s.answered = s := by
  obtain hl | hl := hl
  · simp [State.answered, hl]
  · refine answered_settled fun p hp => ?_
    unfold State.view at hv
    rw [hp] at hv
    simp only [hb] at hv
    split at hv
    · cases hv
    · split at hv
      · cases hv
      · simp only [Option.some.injEq] at hv
        subst hv
        exact hl

/-! ## The two forms of issue -/

/-- The issuing unit is the one that the view shows, where no bundle is open. -/
theorem Stands.unit {s : State} {i : Instr} {h : Head} {v : View} (r : Stands s i h v) :
    s.unit v.core v.unit = some v.u ∧ v.u.splits[v.split]? = some v.sp ∧ v.sp.joined = false ∧ v.u.trap = none := by
  have hv := r.view
  unfold State.view at hv
  split at hv
  · cases hv
  · rename_i p hp
    split at hv
    · cases hv
    · rename_i sp hsp
      split at hv
      · cases hv
      · rename_i hn
        rw [r.closed] at hv
        simp only [Option.some.injEq] at hv
        subst hv
        simp only [Bool.or_eq_true, not_or, Bool.not_eq_true, Option.isSome_eq_false_iff, Option.isNone_iff_eq_none] at hn
        exact ⟨hp, hsp, hn.2, hn.1⟩

/-- An instruction that leaves its unit's pail as it was, or adds to it, overtakes no access (R74). -/
theorem State.overtakes_prefix {t : State} {v : View} (h : v.u.pail.isPrefixOf (t.me v).pail = true) : t.overtakes v = false := by
  simp [State.overtakes, h]

/-- An instruction of a unit none of whose stores has to wait overtakes no access (R74). -/
theorem State.overtakes_none {t : State} {v : View} (h : v.u.lateStore (some v.split) = false) : t.overtakes v = false := by
  simp [State.overtakes, h]

/-- A word of a warp, the front end or the handler that completes. -/
theorem Stands.word {s t : State} {i : Instr} {h : Head} {v : View} (r : Stands s i h v) (hk : v.u.kind ≠ .context)
    {body : View → State → Eff} (hb : body v (s.advance v) = .ok t) (ho : t.overtakes v = false) :
    issue i h s body = .next (t.completed v) := by
  have h1 : issue i h s body = issueWord i s v body := by
    unfold issue
    rw [r.view]
    cases hkk : v.u.kind <;> simp_all
  rw [h1, issueWord, r.check]
  simp only [hb, ho, Bool.false_eq_true, if_false]

/-- A syllable that is a bundle of its own and completes. -/
theorem Stands.syllable {s t : State} {i : Instr} {h : Head} {v : View} (r : Stands s i h v) (hk : v.u.kind = .context)
    {body : View → State → Eff} (hb : body v (openOne i s v).1 = .ok t) (he : t.exposed v = none) :
    issue i h s body = .next (closeBundle s v t) := by
  unfold issue
  rw [r.view]
  simp only [hk, r.closed, r.answered hk, r.view, issueSyl, r.check, hb, he]

/-- Single-step is off. -/
theorem State.stepTrap_quiet {s : State} {v : View} (h : (s.inst (s.instOf v.core)).dbgctl.getLsbD 1 = false) :
    s.stepTrap v = s := by
  unfold State.stepTrap State.stepUnit
  cases s.unit v.core v.unit <;> dsimp only
  rw [h]; simp

/-- What the completion of a word changes beside counters. -/
def ProgUnit.complete (u : ProgUnit) : ProgUnit := { u with aged := [false, false, false, false] }

/-- The passes of a unit count beside everything else. -/
theorem Undisturbed.countPasses (s : State) (v : View) (p : ProgUnit) (n : Nat) : Undisturbed s (s.countPasses v.core p n) v := by
  unfold State.countPasses
  cases p.kind
  case warp => exact (Undisturbed.count s v _ _).trans (Undisturbed.count _ v _ _)
  all_goals exact Undisturbed.refl s v

/-- The passes leave the units. -/
@[simp] theorem State.unit_countPasses (s : State) (c d u : Nat) (p : ProgUnit) (n : Nat) :
    (s.countPasses c p n).unit d u = s.unit d u := by
  unfold State.countPasses; cases p.kind <;> simp

/-- A word completes (R308, R387): it touches its own unit and its core's counters. -/
theorem State.completed_spec {s : State} {v : View} {p : ProgUnit} (hu : s.unit v.core v.unit = some p)
    (hq : (s.inst (s.instOf v.core)).dbgctl.getLsbD 1 = false) :
    Undisturbed s (s.completed v) v ∧ (s.completed v).unit v.core v.unit = some p.complete := by
  have hd : Undisturbed s (s.accounted v) v := (Undisturbed.modU s v _).trans (Undisturbed.countPasses _ v _ _)
  have hi : (s.accounted v).inst ((s.accounted v).instOf v.core) = s.inst (s.instOf v.core) := by
    have h1 : (s.accounted v).insts = s.insts := (congrArg State.insts hd.rest : _)
    have h2 : (s.accounted v).dev = s.dev := (congrArg State.dev hd.rest : _)
    simp [State.inst, State.instOf, h1, h2]
  have hs : s.completed v = s.accounted v := State.stepTrap_quiet (by rw [hi]; exact hq)
  rw [hs]
  refine ⟨hd, ?_⟩
  rw [State.accounted, State.unit_countPasses]
  exact State.unit_modU hu _

/-- An operation without a queue port pops nothing. -/
theorem Bundle.withPops_eq (b : Bundle) {i : Instr} {v : View} (h : 63 ∉ i.sources) : b.withPops i v = b := by
  have : (i.sources.filter (· == 63)).length = 0 := by
    rw [List.length_eq_zero_iff, List.filter_eq_nil_iff]
    intro n hn
    simp only [beq_iff_eq]
    exact fun e => h (e ▸ hn)
  unfold Bundle.withPops
  rw [this]
  split <;> rfl

/-- The state in which a syllable without a queue port takes effect. -/
theorem openOne_eq (s : State) {i : Instr} {v : View} (h : 63 ∉ i.sources) :
    openOne i s v = ({ s with bundle := some (s.newBundle v v.next) }, s.newBundle v v.next) := by
  simp [openOne, Bundle.withPops_eq _ h]

/-- What the close of a bundle changes in its context. -/
def ProgUnit.closeUp (v : View) (cyc : Nat) (u : ProgUnit) : ProgUnit :=
  ProgUnit.settleScales { u.modSplit v.split fun p => { p with pc := v.next, waits := [], last := cyc, moved := true, closed := false } with
    since := u.since + 1, issues := u.issues + 1, fox := u.fox + (v.next - v.addr).toNat, issued := cyc
    evp := u.evp ||| (0 &&& ~~~0)
    aged := [false, false, false, false] }

/-- The close of a bundle of one syllable that touched its own unit alone. -/
theorem closeBundle_spec {s t : State} {v : View} {p : ProgUnit} (hu : t.unit v.core v.unit = some p)
    (hb : t.bundle = some (s.newBundle v v.next))
    (hd : Undisturbed s { t with bundle := none } v) (hq : (s.inst (s.instOf v.core)).dbgctl.getLsbD 1 = false) :
    Undisturbed s (closeBundle s v t) v ∧ (closeBundle s v t).unit v.core v.unit = some (p.closeUp v t.cyc) := by
  have hu' : ({ t with bundle := none } : State).unit v.core v.unit = some p := hu
  have e : closeBundle s v t = ((({ t with bundle := none } : State).modU v (ProgUnit.closeUp v t.cyc)).count v.core 0x05 1).stepTrap v := by
    have hl : bits8 ((0 : BitVec 8) &&& 0 &&& ~~~v.u.evp) = 0 := by simp [bits8, popCount]
    have hc : t.closeEffects v (s.newBundle v v.next)
        = (({ t with bundle := none } : State).modU v (ProgUnit.closeUp v t.cyc)).count v.core 0x05 1 := by
      unfold State.closeEffects
      rw [show (s.newBundle v v.next).later.foldl (State.sendLater · v.core) t = t from rfl]
      dsimp only
      rw [hb]
      simp only [Option.getD_some]
      rw [show bits8 ((s.newBundle v v.next).fired &&& (s.newBundle v v.next).rebound &&& ~~~(s.newBundle v v.next).pre.evp) = 0 from hl]
      rfl
    unfold closeBundle
    rw [hb]
    change (t.closeEffects v (s.newBundle v v.next)).stepTrap v = _
    rw [hc]
  have hi : ∀ r : State, r.insts = t.insts → r.dev = t.dev → r.stepTrap v = r := fun r h1 h2 => by
    have hins : t.insts = s.insts := (congrArg State.insts hd.rest : _)
    have hdev : t.dev = s.dev := (congrArg State.dev hd.rest : _)
    exact State.stepTrap_quiet (by
      have : r.inst (r.instOf v.core) = s.inst (s.instOf v.core) := by
        simp [State.inst, State.instOf, h1, h2, hins, hdev]
      rw [this]; exact hq)
  rw [e, hi _ (by simp) (by simp)]
  refine ⟨(hd.trans (Undisturbed.modU _ v _)).trans (Undisturbed.count _ v _ _), ?_⟩
  rw [State.unit_count]
  exact State.unit_modU hu' _

/-! ## Region entries that an instruction makes of itself -/

/-- An instruction that becomes the region entry goes on from it, or its unit stands there. -/
theorem State.entering_cases (s : State) (v : View) (f : State → Eff) :
    s.entering v f = f (s.enterRegion v) ∨
      s.entering v f = .error (.trapped ((s.standAt v).modU v fun u => { u with fox := u.fox - 8 })) := by
  unfold State.entering
  split
  · exact .inr rfl
  · exact .inl rfl

/-- A unit without asynchronous traps, in a block that neither stops nor divides, is not held at a region entry. -/
theorem State.heldAtEntry_clear {s : State} {c u k : Nat} {b : Block} {p : ProgUnit} (hb : s.blk c = some b)
    (hu : s.unit c u = some p) (ha : p.asyncs = []) (hs : b.stop = none) (hd : b.dividing = false) :
    s.heldAtEntry c u k = false := by
  have h1 : s.asyncDue c p k = none := by
    unfold State.asyncDue
    split
    · rfl
    · simp [ha]
  simp [State.heldAtEntry, hb, hu, h1, State.letsIssue, hs, hd]

/-- A store that its unit holds without a full pail, or that a unit without a pail makes, only goes on. -/
theorem State.holding_room {s : State} {v : View} {h : HeldStore} {f : State → Eff}
    (hp : v.u.kind = .warp → (s.me v).pail.length < 32) : s.holding v h f = f (s.hold v h) := by
  unfold State.holding
  split
  · next e =>
    simp only [Bool.and_eq_true, beq_iff_eq, decide_eq_true_eq] at e
    exact absurd (hp e.1) (by omega)
  · rfl

end Sys2Proof.Machine
end

