-- ==== Sys2Proof/Laws/Lanes.lean ====
section
/-! SUPPORT. What the shared shapes of lane instructions do: sources, settling, destinations, and the completion of an
instruction that changes the lanes of its own unit alone. -/

namespace Sys2Proof.Machine

/-! ## Lanes -/

/-- A changed lane reads back where its lane is selected. -/
theorem ProgUnit.lane_mapLanes (u : ProgUnit) (sel : Mask) (f : Nat → Lane → Lane) {k : Nat} (h : k < u.lanes.length) :
    (u.mapLanes sel f).lane k = if sel.getLsbD k then f k (u.lane k) else u.lane k := by
  simp [ProgUnit.lane, ProgUnit.mapLanes, h]

/-- The lanes that the guard selects. -/
theorem View.mem_lanes {v : View} {k : Nat} : k ∈ v.lanes ↔ k < v.u.lanes.length ∧ v.sel.getLsbD k = true := by
  simp [View.lanes]

/-- A register of a lane reads back as written. -/
theorem Lane.reg_setReg (l : Lane) (d n : Nat) (r : Reg) (h : d < l.regs.length) :
    (l.setReg d r).reg n = if n = d then r else l.reg n := by
  by_cases hn : n = d
  · subst hn; simp [Lane.reg, Lane.setReg, h]
  · simp [Lane.reg, Lane.setReg, List.getElem?_set_ne (Ne.symm hn), hn]

/-- A write of a register leaves the predicates. -/
@[simp] theorem Lane.pred_setReg (l : Lane) (d n : Nat) (r : Reg) : (l.setReg d r).pred n = l.pred n := rfl

/-- A write of a register leaves the nesting counter. -/
@[simp] theorem Lane.nest_setReg (l : Lane) (d : Nat) (r : Reg) : (l.setReg d r).nest = l.nest := rfl

/-- A write of a predicate leaves the registers. -/
@[simp] theorem Lane.reg_setPred (l : Lane) (d n : Nat) (r : Pred) : (l.setPred d r).reg n = l.reg n := rfl

/-- A write of a predicate leaves the nesting counter. -/
@[simp] theorem Lane.nest_setPred (l : Lane) (d : Nat) (r : Pred) : (l.setPred d r).nest = l.nest := rfl

/-- A predicate of a lane reads back as written; a write of p7 is discarded (R67). -/
theorem Lane.pred_setPred (l : Lane) (d n : Nat) (r : Pred) (h : d = 7 ∨ d < l.preds.length) :
    (l.setPred d r).pred n = if n = d ∧ d ≠ 7 then r else l.pred n := by
  by_cases h7 : n = 7
  · subst h7
    by_cases hd : 7 = d
    · subst hd; simp [Lane.pred]
    · simp [Lane.pred, hd]
  · by_cases hn : n = d
    · subst hn
      rcases h with h | h
      · exact absurd h h7
      · simp [Lane.pred, Lane.setPred, h7, h]
    · simp [Lane.pred, Lane.setPred, h7, hn, List.getElem?_set_ne (Ne.symm hn)]

/-- Rotation permutes the k-registers (R109). -/
theorem rotated_inj (b : Nat) {m n : Nat} : rotated b m = rotated b n ↔ m = n := by
  unfold rotated
  constructor
  · intro h
    split at h <;> split at h <;> omega
  · rintro rfl; rfl

/-! ## Sources -/

/-- Sources that do not name the queue port pop nothing. -/
theorem fetch_plain (v : View) (s : State) (l : List Nat) (h : v.noPort l) : fetch v s l = .ok (s, l.map fun _ => none) := by
  induction l with
  | nil => rfl
  | cons n ns ih =>
    have h1 : (v.u.kind == .context && n == 63 && v.sel != 0) = false := by
      cases hk : v.u.kind
      case context =>
        have := h hk
        simp only [List.mem_cons, not_or] at this
        have hn : (n == 63) = false := by simp; omega
        simp [hn]
      all_goals rfl
    have h2 : v.noPort ns := fun hk hm => h hk (List.mem_cons_of_mem _ hm)
    rw [fetch, if_neg (by rw [h1]; decide), ih h2]
    rfl

/-! ## Settling -/

/-- A condition is met by a group of lanes where a lane of it meets it. -/
theorem orFlags_bit (l : List Nat) (fl : Nat → BitVec 5) (n : Nat) :
    (orFlags l fl).getLsbD n = true ↔ ∃ i ∈ l, (fl i).getLsbD n = true := by
  induction l with
  | nil => simp [orFlags]
  | cons a l ih =>
    have : (orFlags (a :: l) fl) = fl a ||| orFlags l fl := rfl
    rw [this, BitVec.getLsbD_or, Bool.or_eq_true, ih]
    simp

/-- The conditions met depend on which lanes there are. -/
theorem orFlags_congr {l l' : List Nat} (h : ∀ i, i ∈ l ↔ i ∈ l') (fl : Nat → BitVec 5) : orFlags l fl = orFlags l' fl := by
  apply BitVec.eq_of_getLsbD_eq
  intro n _
  rw [Bool.eq_iff_iff, orFlags_bit, orFlags_bit]
  simp [h]

/-- The passes hold exactly the lanes (R53, R55). -/
theorem View.mem_byPass (v : View) {l : List Nat} (hl : ∀ i ∈ l, i < v.u.lanes.length) (i : Nat) :
    i ∈ (v.byPass l).flatten ↔ i ∈ l := by
  unfold View.byPass
  split
  · simp only [List.mem_flatten, List.mem_filterMap, List.mem_range, Nat.lt_succ_iff]
    constructor
    · rintro ⟨g, ⟨p, -, hg⟩, hi⟩
      split at hg
      · cases hg
      · injection hg with hg
        subst hg
        exact (List.mem_filter.mp hi).1
    · intro hi
      refine ⟨l.filter fun i' => i' / v.u.qlanes == i / v.u.qlanes, ⟨i / v.u.qlanes, ?_, ?_⟩, ?_⟩
      · exact Nat.div_le_div_right (Nat.le_of_lt (hl i hi))
      · rw [if_neg]
        rw [List.isEmpty_iff]
        exact List.ne_nil_of_mem (List.mem_filter.mpr ⟨hi, by simp⟩)
      · exact List.mem_filter.mpr ⟨hi, by simp⟩
  · split
    · rename_i h; simp [List.isEmpty_iff.mp h]
    · simp

/-- The groups that an instruction checks hold exactly the selected lanes (R17). -/
theorem View.mem_groups (v : View) (i : Nat) : i ∈ v.groups.flatten ↔ i ∈ v.lanes := by
  unfold View.groups
  split
  · exact v.mem_byPass (fun _ hi => List.mem_range.mp (List.mem_filter.mp hi).1) i
  · split
    · rename_i h; simp [List.isEmpty_iff.mp h]
    · simp

/-- Lanes that meet no cause and no enabled condition settle: the sticky flags are set (R261, R263). -/
theorem settle_ok {v : View} {s : State} {gs : List (List Nat)} {e : Nat → Option LaneErr} {fl : Nat → BitVec 5}
    (he : ∀ i ∈ gs.flatten, e i = none) (hf : ∀ i ∈ gs.flatten, v.u.fpctl &&& fl i = 0) :
    settle v s gs e fl =
      .ok (if orFlags gs.flatten fl = 0 then s else s.modU v fun u => { u with fpflags := u.fpflags ||| orFlags gs.flatten fl }) := by
  have h : firstTrap v.u.fpctl gs e fl = none := by
    unfold firstTrap
    rw [List.findSome?_eq_none_iff]
    intro g hg
    have hmem : ∀ i ∈ g, i ∈ gs.flatten := fun i hi => List.mem_flatten.mpr ⟨g, hg, hi⟩
    have h1 : passErr g e = none := by
      have : (g.filterMap fun i => (e i).map (i, ·)) = [] := by
        rw [List.filterMap_eq_nil_iff]
        intro i hi
        rw [he i (hmem i hi)]; rfl
      simp [passErr, this]
    have h2 : flagErr v.u.fpctl g fl = none := by
      unfold flagErr
      have : (List.range 5).find? (fun n => v.u.fpctl.getLsbD n && g.any fun i => (fl i).getLsbD n) = none := by
        rw [List.find?_eq_none]
        intro n _
        simp only [Bool.and_eq_true, List.any_eq_true, not_and, not_exists, Bool.not_eq_true]
        intro hn i hi
        have := congrArg (·.getLsbD n) (hf i (hmem i hi))
        simpa only [BitVec.getLsbD_and, hn, Bool.true_and] using this.trans (by simp)
      rw [this]
    rw [h1, h2]; rfl
  rw [settle, h]

/-! ## Completion of an instruction that changes its unit's lanes alone -/

/-- A view's unit with other lanes reads them. -/
def View.withLanes (v : View) (ls : List Lane) : ProgUnit := { v.u with lanes := ls }

/-- What a unit reads depends on its kind, its lanes and its rotation base. -/
theorem ProgUnit.read_congr {p q : ProgUnit} (hk : p.kind = q.kind) (hl : p.lanes = q.lanes) (hb : p.loops = q.loops)
    (k n : Nat) : p.read k n = q.read k n := by
  unfold ProgUnit.read ProgUnit.lane ProgUnit.base
  rw [hk, hl, hb]

/-- An instruction whose effect is a change of its unit's lanes, with float conditions, completes. -/
theorem Stands.leaves {s : State} {i : Instr} {h : Head} {v : View} (r : Stands s i h v) (hp : v.noPort i.sources)
    {body : View → State → Eff}
    (hx : exec i s = issue i h s body) (ls : List Lane) (fl : BitVec 5)
    (hb : ∀ s0 u0, s0.unit v.core v.unit = some u0 → u0.lanes = v.u.lanes →
      body v s0 = .ok (s0.modU v fun u => { u with lanes := ls, fpflags := u.fpflags ||| fl }))
    {regs : Nat → Nat → Reg} {preds : Nat → Nat → Pred} (hlen : ls.length = v.u.lanes.length)
    (hl : ∀ k, k < v.u.lanes.length → ((v.withLanes ls).lane k).nest = (v.u.lane k).nest ∧
      (∀ n, (v.withLanes ls).read k n = regs k n) ∧ ∀ n, ((v.withLanes ls).lane k).pred n = preds k n) :
    Leaves s i v regs preds fl := by
  obtain ⟨hu, hsp, hj, -⟩ := r.unit
  have hsplit : v.u.split v.split = v.sp := by simp [ProgUnit.split, hsp]
  have hlt : v.split < v.u.splits.length := by
    rcases Nat.lt_or_ge v.split v.u.splits.length with h | h
    · exact h
    · rw [List.getElem?_eq_none h] at hsp; cases hsp
  by_cases hk : v.u.kind = .context
  · have ho : (openOne i s v).1 = { s with bundle := some (s.newBundle v v.next) } := by rw [openOne_eq s (hp hk)]
    have hu0 : (openOne i s v).1.unit v.core v.unit = some v.u := by rw [ho]; exact hu
    have hbody := hb _ _ hu0 rfl
    rw [ho] at hu0
    have hex : ((openOne i s v).1.modU v fun u => { u with lanes := ls, fpflags := u.fpflags ||| fl }).exposed v = none := by
      rw [ho]
      unfold State.exposed
      simp [State.newBundle]
    have hsyl := r.syllable hk hbody hex
    rw [ho] at hsyl
    have hd : Undisturbed s { ((({ s with bundle := some (s.newBundle v v.next) } : State).modU v
        fun u => { u with lanes := ls, fpflags := u.fpflags ||| fl })) with bundle := none } v := by
      have e : ({ ((({ s with bundle := some (s.newBundle v v.next) } : State).modU v
          fun u => { u with lanes := ls, fpflags := u.fpflags ||| fl })) with bundle := none } : State)
          = s.modU v fun u => { u with lanes := ls, fpflags := u.fpflags ||| fl } := by
        simp only [State.modU, State.modUnit, State.unit, State.blk, State.core, State.setUnit, State.setBlk, State.setCore]
        have hu' := hu
        simp only [State.unit, State.blk, State.core] at hu'
        rw [hu']
        obtain ⟨b, hb1, -⟩ := State.unit_some hu
        simp only [State.blk, State.core] at hb1
        simp only [hb1]
        have := r.closed
        cases s
        simp_all
      rw [e]; exact Undisturbed.modU s v _
    have hc := closeBundle_spec (State.unit_modU hu0 _) (by simp) hd r.quiet
    refine ⟨_, _, hx.trans hsyl, hc.1, hc.2, ?_, ?_, ?_, ?_, ?_, ?_, ?_, ?_, ?_, ?_, ?_⟩
    · simp [ProgUnit.rest, ProgUnit.closeUp, ProgUnit.settleScales, ProgUnit.modSplit]
    · rfl
    · exact hlen
    · exact hl
    · simp [ProgUnit.closeUp, ProgUnit.settleScales, ProgUnit.modSplit]
    · intro k hne
      simp [ProgUnit.closeUp, ProgUnit.settleScales, ProgUnit.modSplit, ProgUnit.split, Ne.symm hne]
    all_goals simp [ProgUnit.closeUp, ProgUnit.settleScales, ProgUnit.modSplit, ProgUnit.split, hsp, hj]
  · have hu0 : (s.advance v).unit v.core v.unit = some _ := State.unit_modU hu _
    have hbody := hb _ _ hu0 (by simp [ProgUnit.modSplit])
    have hq : ((((s.advance v).modU v fun u => { u with lanes := ls, fpflags := u.fpflags ||| fl }).inst
        (((s.advance v).modU v fun u => { u with lanes := ls, fpflags := u.fpflags ||| fl }).instOf v.core)).dbgctl).getLsbD 1 = false := by
      have : (((s.advance v).modU v fun u => { u with lanes := ls, fpflags := u.fpflags ||| fl }).inst
        (((s.advance v).modU v fun u => { u with lanes := ls, fpflags := u.fpflags ||| fl }).instOf v.core)) = s.inst (s.instOf v.core) := by
        simp [State.inst, State.instOf]
      rw [this]; exact r.quiet
    have hc := State.completed_spec (State.unit_modU hu0 _) hq
    have hov : ((s.advance v).modU v fun u => { u with lanes := ls, fpflags := u.fpflags ||| fl }).overtakes v = false :=
      State.overtakes_prefix (by rw [State.me_eq (State.unit_modU hu0 _)]; simp [ProgUnit.modSplit])
    refine ⟨_, _, hx.trans (r.word hk hbody hov), ((Undisturbed.modU s v _).trans (Undisturbed.modU _ v _)).trans hc.1, hc.2,
      ?_, ?_, ?_, ?_, ?_, ?_, ?_, ?_, ?_, ?_, ?_⟩
    · simp [ProgUnit.rest, ProgUnit.complete, ProgUnit.modSplit]
    · rfl
    · exact hlen
    · exact hl
    · simp [ProgUnit.complete, ProgUnit.modSplit]
    · intro k hne
      simp [ProgUnit.complete, ProgUnit.modSplit, ProgUnit.split, Ne.symm hne]
    all_goals simp [ProgUnit.complete, ProgUnit.modSplit, ProgUnit.split, hsp, hj]

/-! ## Destinations -/

/-- Changes of the issuing unit that agree on it are equal. -/
theorem State.modU_congr {s : State} {v : View} {u0 : ProgUnit} (h : s.unit v.core v.unit = some u0)
    {f g : ProgUnit → ProgUnit} (hfg : f u0 = g u0) : s.modU v f = s.modU v g := by
  simp [State.modU, State.modUnit, h, hfg]

/-- A change that changes nothing. -/
theorem State.modU_same {s : State} {v : View} {u0 : ProgUnit} (h : s.unit v.core v.unit = some u0)
    {f : ProgUnit → ProgUnit} (hf : f u0 = u0) : s.modU v f = s := by
  obtain ⟨b, hb, hu⟩ := State.unit_some h
  have hc := State.lt_of_blk hb
  have hub := Block.lt_of_unit hu
  have e1 : b.setUnit v.unit u0 = b := by
    have h1 : b.units.set v.unit (some u0) = b.units := by
      apply List.ext_getElem? ; intro n
      by_cases hn : v.unit = n
      · subst hn
        have : b.units[v.unit]? = some (some u0) := by
          cases hx : b.units[v.unit]? with
          | none => simp [Block.unit, hx] at hu
          | some y => simp [Block.unit, hx] at hu; rw [hu]
        simp [hub]
        simpa [hub] using this.symm
      · simp [List.getElem?_set_ne hn]
    simp [Block.setUnit, h1]
  have e2 : s.setBlk v.core b = s := by
    have hk : ({ s.core v.core with blk := some b } : Core) = s.core v.core := by
      simp only [State.blk] at hb
      generalize s.core v.core = k at hb
      cases k; simp_all
    have hs : s.cores.set v.core (s.core v.core) = s.cores := by
      apply List.ext_getElem?; intro n
      by_cases hn : v.core = n
      · subst hn; simp [State.core, hc]
      · simp [List.getElem?_set_ne hn]
    simp only [State.setBlk, hk, State.setCore, hs]
  simp only [State.modU, State.modUnit, h, hf, State.setUnit, hb, e1, e2]

/-- The lanes of the view's unit with D written. -/
def View.written (v : View) (d : Nat) (r : Nat → Reg) : List Lane :=
  v.u.lanes.mapIdx fun k l =>
    if v.sel.getLsbD k && !(v.u.kind == .context && d == 62)
    then l.setReg (if v.u.kind = .context then rotated v.u.base d else d) (v.u.kind.held (r k)) else l

/-- The lanes of the view's unit with predicate D written. -/
def View.flagged (v : View) (d : Nat) (r : Nat → Pred) : List Lane :=
  v.u.lanes.mapIdx fun k l => if v.sel.getLsbD k then l.setPred d (r k) else l

/-- A register as a kind of unit reads it from a lane, with a rotation base. -/
def readLane (kind : UnitKind) (base : Nat) (l : Lane) (n : Nat) : Reg :=
  match kind with
  | .warp => l.reg n
  | .context => if n = 62 then { v := 0, tag := .b64 } else l.reg (rotated base n)
  | .front | .handler => { l.reg n with tag := .b64 }

/-- What a unit reads, from its lane. -/
theorem ProgUnit.read_eq (p : ProgUnit) (k n : Nat) : p.read k n = readLane p.kind p.base (p.lane k) n := by
  unfold ProgUnit.read readLane; cases p.kind <;> rfl

/-- A written register reads back, and no other register, predicate or counter changes. -/
theorem View.written_spec {v : View} {d : Nat} (h : v.hasReg d) (r : Nat → Reg) :
    (v.written d r).length = v.u.lanes.length ∧ ∀ k, k < v.u.lanes.length →
      ((v.withLanes (v.written d r)).lane k).nest = (v.u.lane k).nest ∧
      (∀ n, (v.withLanes (v.written d r)).read k n = v.writing d r k n) ∧
      ∀ n, ((v.withLanes (v.written d r)).lane k).pred n = v.preds k n := by
  refine ⟨by simp [View.written], fun k hk => ?_⟩
  have hl : (v.withLanes (v.written d r)).lane k = if v.sel.getLsbD k && !(v.u.kind == .context && d == 62)
      then (v.u.lane k).setReg (if v.u.kind = .context then rotated v.u.base d else d) (v.u.kind.held (r k)) else v.u.lane k := by
    simp [ProgUnit.lane, View.withLanes, View.written, hk]
  have h0 : ∀ n, ((v.withLanes (v.written d r)).lane k).pred n = v.preds k n := by
    intro n; rw [hl]; split <;> rfl
  have h1 : ((v.withLanes (v.written d r)).lane k).nest = (v.u.lane k).nest := by
    rw [hl]; split <;> rfl
  refine ⟨h1, fun n => ?_, h0⟩
  obtain ⟨-, hd⟩ := h
  have hb : (v.withLanes (v.written d r)).base = v.u.base := rfl
  unfold View.writing
  rw [ProgUnit.read_eq, ProgUnit.read_eq, hb, hl, show (v.withLanes (v.written d r)).kind = v.u.kind from rfl]
  unfold readLane
  by_cases hs : v.sel.getLsbD k = true
  · cases hkk : v.u.kind
    case context =>
      simp only [hkk, true_and, if_true] at hd
      by_cases h62 : d = 62
      · by_cases hn : n = d <;> simp [h62]
      · have hlt := (hd.resolve_left h62) k hs hk
        have hc : (v.sel.getLsbD k && !(UnitKind.context == UnitKind.context && d == 62)) = true := by simp [hs, h62]
        simp only [hc, if_true]
        rw [Lane.reg_setReg _ _ _ _ hlt]
        by_cases hn : n = d
        · subst hn; simp [h62, hs, hk, UnitKind.held]
        · simp [hn, rotated_inj]
    all_goals
      simp only [hkk, reduceCtorEq, false_and, false_or, if_false] at hd
      have hlt := hd k hs hk
      have hc : ∀ x : UnitKind, x ≠ .context → (v.sel.getLsbD k && !(x == UnitKind.context && d == 62)) = true := by
        intro x hx; cases x <;> simp_all
      rw [hc _ (by decide)]
      simp only [reduceCtorEq, if_true, if_false]
      rw [Lane.reg_setReg _ _ _ _ hlt]
      by_cases hn : n = d
      · subst hn; simp [hs, hk, UnitKind.held]
      · simp [hn]
  · simp [hs]

/-- A written predicate reads back, and no other predicate, register or counter changes. -/
theorem View.flagged_spec {v : View} {d : Nat} (h : v.hasPred d) (r : Nat → Pred) :
    (v.flagged d r).length = v.u.lanes.length ∧ ∀ k, k < v.u.lanes.length →
      ((v.withLanes (v.flagged d r)).lane k).nest = (v.u.lane k).nest ∧
      (∀ n, (v.withLanes (v.flagged d r)).read k n = v.regs k n) ∧
      ∀ n, ((v.withLanes (v.flagged d r)).lane k).pred n = v.setting d r k n := by
  refine ⟨by simp [View.flagged], fun k hk => ?_⟩
  have hl : (v.withLanes (v.flagged d r)).lane k =
      if v.sel.getLsbD k then (v.u.lane k).setPred d (r k) else v.u.lane k := by
    simp [ProgUnit.lane, View.withLanes, View.flagged, hk]
  have hb : (v.withLanes (v.flagged d r)).base = v.u.base := rfl
  refine ⟨by rw [hl]; split <;> rfl, fun n => ?_, fun n => ?_⟩
  · unfold View.regs ProgUnit.read
    rw [hb, hl]
    simp only [View.withLanes]
    by_cases hs : v.sel.getLsbD k = true <;> cases v.u.kind <;> simp [hs]
  · rw [hl]
    unfold View.setting
    by_cases hs : v.sel.getLsbD k = true
    · rw [if_pos hs, Lane.pred_setPred _ _ _ _ (h.imp id fun h => h k hs hk)]
      by_cases hn : n = d ∧ d ≠ 7
      · rw [if_pos hn, if_pos ⟨hs, hk, hn⟩]
      · rw [if_neg hn, if_neg fun hh => hn hh.2.2]
    · rw [if_neg hs, if_neg fun hh => hs hh.1]

/-- A destination written, without the queue port. -/
theorem putReg_spec {v : View} {s0 : State} {u0 : ProgUnit} {d : Nat} (h : v.hasReg d)
    (hu : s0.unit v.core v.unit = some u0) (hl : u0.lanes = v.u.lanes) (r : Nat → Reg) :
    putReg v s0 d r = .ok (s0.modU v fun u => { u with lanes := v.written d r }) := by
  unfold putReg
  cases hk : v.u.kind
  case context =>
    have h63 : d ≠ 63 := fun e => h.1 hk (by simp [e])
    by_cases h0 : d = 62 ∨ v.sel = 0
    · simp only [h0, if_true]
      congr 1
      refine (State.modU_same hu ?_).symm
      have : v.written d r = u0.lanes := by
        rw [hl]
        unfold View.written
        apply List.ext_getElem?; intro n
        rw [List.getElem?_mapIdx]
        rcases h0 with h0 | h0 <;> cases v.u.lanes[n]? <;> simp [h0, hk]
      rw [this]
    · simp only [h0, if_false, h63]
      congr 1
      apply State.modU_congr hu
      have : d ≠ 62 := fun e => h0 (.inl e)
      simp [ProgUnit.mapLanes, View.written, hl, hk, UnitKind.held, this]
  all_goals
    simp only
    congr 1
    apply State.modU_congr hu
    simp [ProgUnit.mapLanes, View.written, hl, hk, UnitKind.held]

/-- A predicate written. -/
theorem putPred_spec {v : View} {s0 : State} {u0 : ProgUnit} (d : Nat)
    (hu : s0.unit v.core v.unit = some u0) (hl : u0.lanes = v.u.lanes) (r : Nat → Pred) :
    putPred v s0 d r = s0.modU v fun u => { u with lanes := v.flagged d r } := by
  unfold putPred
  apply State.modU_congr hu
  simp [ProgUnit.mapLanes, View.flagged, hl]

/-- Lanes that meet no cause and no enabled condition settle by setting the sticky flags of the unit. -/
theorem settle_lanes {v : View} {s0 : State} {u0 : ProgUnit} (hu : s0.unit v.core v.unit = some u0)
    {e : Nat → Option LaneErr} {fl : Nat → BitVec 5} (he : ∀ k ∈ v.lanes, e k = none) (hf : v.untrapped fl) :
    settle v s0 v.groups e fl =
      .ok (s0.modU v fun u => { u with fpflags := u.fpflags ||| orFlags v.lanes fl }) := by
  have hm := v.mem_groups
  rw [settle_ok (fun i hi => he i ((hm i).mp hi)) (fun i hi => hf i ((hm i).mp hi)), orFlags_congr hm]
  congr 1
  split
  · rename_i h0
    exact (State.modU_same hu (by simp [h0])).symm
  · rfl

/-- The lanes' results are written where no lane meets a cause. -/
theorem finishReg_spec {v : View} {s0 : State} {u0 : ProgUnit} {d : Nat} (h : v.hasReg d)
    (hu : s0.unit v.core v.unit = some u0) (hl : u0.lanes = v.u.lanes) {res : Nat → LaneRes} {r : Nat → Reg}
    {fl : Nat → BitVec 5} (hr : ∀ k ∈ v.lanes, res k = .ok (r k, fl k)) (hf : v.untrapped fl) :
    finishReg v s0 d res = .ok (s0.modU v fun u =>
      { u with lanes := v.written d r, fpflags := u.fpflags ||| orFlags v.lanes fl }) := by
  have he : ∀ k ∈ v.lanes, errOf (res k) = none := fun k hk => by rw [hr k hk]; rfl
  have hfl : ∀ k ∈ v.lanes, flagsOf (res k) = fl k := fun k hk => by rw [hr k hk]; rfl
  have hset := settle_lanes (v := v) hu he (fl := fun i => flagsOf (res i)) fun k hk => by
    simp only; rw [hfl k hk]; exact hf k hk
  have hor : orFlags v.lanes (fun i => flagsOf (res i)) = orFlags v.lanes fl := by
    apply BitVec.eq_of_getLsbD_eq
    intro n _
    rw [Bool.eq_iff_iff, orFlags_bit, orFlags_bit]
    constructor
    · rintro ⟨i, hi, h⟩; exact ⟨i, hi, by rw [← hfl i hi]; exact h⟩
    · rintro ⟨i, hi, h⟩; exact ⟨i, hi, by rw [hfl i hi]; exact h⟩
  unfold finishReg
  rw [hset]
  simp only
  rw [putReg_spec h (State.unit_modU hu _) hl, State.modU_modU, hor]
  have hw : v.written d (fun i => regOf (res i)) = v.written d r := by
    unfold View.written
    apply List.ext_getElem?; intro n
    rw [List.getElem?_mapIdx, List.getElem?_mapIdx]
    cases hn : v.u.lanes[n]? with
    | none => rfl
    | some l =>
      have hlt : n < v.u.lanes.length := by
        rcases Nat.lt_or_ge n v.u.lanes.length with h | h
        · exact h
        · rw [List.getElem?_eq_none h] at hn; cases hn
      by_cases hs : v.sel.getLsbD n = true
      · have : regOf (res n) = r n := by rw [hr n (View.mem_lanes.mpr ⟨hlt, hs⟩)]; rfl
        simp [this]
      · simp [hs]
  rw [hw]

/-- The lanes' predicates are written where no lane meets a cause. -/
theorem finishPred_spec {v : View} {s0 : State} {u0 : ProgUnit} {d : Nat}
    (hu : s0.unit v.core v.unit = some u0) (hl : u0.lanes = v.u.lanes) {res : Nat → PredRes} {r : Nat → Pred}
    {fl : Nat → BitVec 5} (hr : ∀ k ∈ v.lanes, res k = .ok (r k, fl k)) (hf : v.untrapped fl) :
    finishPred v s0 d res = .ok (s0.modU v fun u =>
      { u with lanes := v.flagged d r, fpflags := u.fpflags ||| orFlags v.lanes fl }) := by
  have he : ∀ k ∈ v.lanes, errOf (res k) = none := fun k hk => by rw [hr k hk]; rfl
  have hfl : ∀ k ∈ v.lanes, flagsOf (res k) = fl k := fun k hk => by rw [hr k hk]; rfl
  have hset := settle_lanes (v := v) hu he (fl := fun i => flagsOf (res i)) fun k hk => by
    simp only; rw [hfl k hk]; exact hf k hk
  have hor : orFlags v.lanes (fun i => flagsOf (res i)) = orFlags v.lanes fl := by
    apply BitVec.eq_of_getLsbD_eq
    intro n _
    rw [Bool.eq_iff_iff, orFlags_bit, orFlags_bit]
    constructor
    · rintro ⟨i, hi, h⟩; exact ⟨i, hi, by rw [← hfl i hi]; exact h⟩
    · rintro ⟨i, hi, h⟩; exact ⟨i, hi, by rw [hfl i hi]; exact h⟩
  unfold finishPred
  rw [hset]
  simp only
  rw [putPred_spec d (State.unit_modU hu _) hl, State.modU_modU, hor]
  have hw : v.flagged d (fun i => predOf (res i)) = v.flagged d r := by
    unfold View.flagged
    apply List.ext_getElem?; intro n
    rw [List.getElem?_mapIdx, List.getElem?_mapIdx]
    cases hn : v.u.lanes[n]? with
    | none => rfl
    | some l =>
      have hlt : n < v.u.lanes.length := by
        rcases Nat.lt_or_ge n v.u.lanes.length with h | h
        · exact h
        · rw [List.getElem?_eq_none h] at hn; cases hn
      by_cases hs : v.sel.getLsbD n = true
      · have : predOf (res n) = r n := by rw [hr n (View.mem_lanes.mpr ⟨hlt, hs⟩)]; rfl
        simp [this]
      · simp [hs]
  rw [hw]

/-! ## The shapes complete -/

/-- An instruction of one source completes where no lane meets a cause. -/
theorem Stands.lane1 {s : State} {i : Instr} {h : Head} {v : View} (hs : Stands s i h v) (hq : v.noPort i.sources) {d a : Nat}
    {f : Nat → Reg → LaneRes} (hx : exec i s = issue i h s (lane1 d a f)) (hp : v.noPort [a]) (hd : v.hasReg d)
    {r : Nat → Reg} {fl : Nat → BitVec 5} (hr : ∀ k ∈ v.lanes, f k (v.u.read k a) = .ok (r k, fl k)) (hf : v.untrapped fl) :
    Leaves s i v (v.writing d r) v.preds (orFlags v.lanes fl) := by
  have hw := View.written_spec hd r
  refine hs.leaves hq hx (v.written d r) _ (fun s0 u0 hu hl => ?_) hw.1 hw.2
  unfold Machine.lane1
  rw [fetch_plain v s0 _ hp]
  exact finishReg_spec hd hu hl hr hf

/-- An instruction of two sources completes where no lane meets a cause. -/
theorem Stands.lane2 {s : State} {i : Instr} {h : Head} {v : View} (hs : Stands s i h v) (hq : v.noPort i.sources) {d a b : Nat}
    {f : Nat → Reg → Reg → LaneRes} (hx : exec i s = issue i h s (lane2 d a b f)) (hp : v.noPort [a, b]) (hd : v.hasReg d)
    {r : Nat → Reg} {fl : Nat → BitVec 5} (hr : ∀ k ∈ v.lanes, f k (v.u.read k a) (v.u.read k b) = .ok (r k, fl k))
    (hf : v.untrapped fl) : Leaves s i v (v.writing d r) v.preds (orFlags v.lanes fl) := by
  have hw := View.written_spec hd r
  refine hs.leaves hq hx (v.written d r) _ (fun s0 u0 hu hl => ?_) hw.1 hw.2
  unfold Machine.lane2
  rw [fetch_plain v s0 _ hp]
  exact finishReg_spec hd hu hl hr hf

/-- An instruction of three sources completes where no lane meets a cause. -/
theorem Stands.lane3 {s : State} {i : Instr} {h : Head} {v : View} (hs : Stands s i h v) (hq : v.noPort i.sources)
    {d a b c : Nat}
    {f : Nat → Reg → Reg → Reg → LaneRes} (hx : exec i s = issue i h s (lane3 d a b c f)) (hp : v.noPort [a, b, c])
    (hd : v.hasReg d) {r : Nat → Reg} {fl : Nat → BitVec 5}
    (hr : ∀ k ∈ v.lanes, f k (v.u.read k a) (v.u.read k b) (v.u.read k c) = .ok (r k, fl k))
    (hf : v.untrapped fl) : Leaves s i v (v.writing d r) v.preds (orFlags v.lanes fl) := by
  have hw := View.written_spec hd r
  refine hs.leaves hq hx (v.written d r) _ (fun s0 u0 hu hl => ?_) hw.1 hw.2
  unfold Machine.lane3
  rw [fetch_plain v s0 _ hp]
  exact finishReg_spec hd hu hl hr hf

/-- An instruction that compares two sources completes where no lane meets a cause. -/
theorem Stands.pred2 {s : State} {i : Instr} {h : Head} {v : View} (hs : Stands s i h v) (hq : v.noPort i.sources) {d a b : Nat}
    {f : Nat → Reg → Reg → PredRes} (hx : exec i s = issue i h s (pred2 d a b f)) (hp : v.noPort [a, b]) (hd : v.hasPred d)
    {r : Nat → Pred} {fl : Nat → BitVec 5} (hr : ∀ k ∈ v.lanes, f k (v.u.read k a) (v.u.read k b) = .ok (r k, fl k))
    (hf : v.untrapped fl) : Leaves s i v v.regs (v.setting d r) (orFlags v.lanes fl) := by
  have hw := View.flagged_spec hd r
  refine hs.leaves hq hx (v.flagged d r) _ (fun s0 u0 hu hl => ?_) hw.1 hw.2
  unfold Machine.pred2
  rw [fetch_plain v s0 _ hp]
  exact finishPred_spec hu hl hr hf

/-- An instruction that tests one source completes where no lane meets a cause. -/
theorem Stands.pred1 {s : State} {i : Instr} {h : Head} {v : View} (hs : Stands s i h v) (hq : v.noPort i.sources) {d a : Nat}
    {f : Nat → Reg → PredRes} (hx : exec i s = issue i h s (pred1 d a f)) (hp : v.noPort [a]) (hd : v.hasPred d)
    {r : Nat → Pred} {fl : Nat → BitVec 5} (hr : ∀ k ∈ v.lanes, f k (v.u.read k a) = .ok (r k, fl k))
    (hf : v.untrapped fl) : Leaves s i v v.regs (v.setting d r) (orFlags v.lanes fl) := by
  have hw := View.flagged_spec hd r
  refine hs.leaves hq hx (v.flagged d r) _ (fun s0 u0 hu hl => ?_) hw.1 hw.2
  unfold Machine.pred1
  rw [fetch_plain v s0 _ hp]
  exact finishPred_spec hu hl hr hf

/-- No condition is met by lanes that meet none. -/
@[simp] theorem orFlags_zero (l : List Nat) : orFlags l (fun _ => 0) = 0 := by
  induction l with
  | nil => rfl
  | cons a l ih =>
    have : orFlags (a :: l) (fun _ => (0 : BitVec 5)) = 0 ||| orFlags l fun _ => 0 := rfl
    rw [this, ih]; rfl

/-- Lanes that meet no condition trap for none. -/
theorem View.untrapped_zero (v : View) : v.untrapped fun _ => 0 := fun _ _ => by simp

end Sys2Proof.Machine
end

