-- ==== Sys2Proof/Laws/PerInstr.lean ====
section
/-! SUPPORT. Statements made of every instruction as syntax, one lemma per constructor. Family Opcode: the low byte of an
instruction's word is its opcode (R20, R29, R38). -/

namespace Sys2Proof.Laws

/-- A field at bit 8 or above leaves the low byte. -/
theorem put_mod {lo : Nat} (h : 8 ≤ lo) (v : Nat) : put lo v % 256 = 0 := by
  unfold put
  obtain ⟨k, rfl⟩ := Nat.exists_eq_add_of_le h
  rw [Nat.pow_add, show 2 ^ 8 = 256 from rfl, show v * (256 * 2 ^ k) = 256 * (v * 2 ^ k) by
    rw [← Nat.mul_assoc, Nat.mul_comm v, Nat.mul_assoc]]
  exact Nat.mul_mod_right _ _

/-- The low byte of a sum whose second part has none. -/
theorem add_mod_low {a b : Nat} (ha : a % 256 = 0) (hb : b % 256 = 0) : (a + b) % 256 = 0 := by omega

/-- The guard leaves the low byte. -/
theorem putGuard_mod (x : Site) (g : Guard) : putGuard x g % 256 = 0 := by
  cases x <;> simp only [putGuard] <;> repeat' first | exact put_mod (by decide) _ | apply add_mod_low

/-- The fields of an arithmetic word leave the low byte. -/
theorem putArith_mod (w : ArithWord) : putArith w % 256 = 0 := by
  unfold putArith
  cases w.site <;> dsimp only <;> repeat' first | exact putGuard_mod _ _ | exact put_mod (by decide) _ | apply add_mod_low

/-- The fields of an immediate word leave the low byte. -/
theorem putImm_mod (w : ImmWord) : putImm w % 256 = 0 := by
  unfold putImm
  cases w.site <;> dsimp only <;> repeat' first | exact putGuard_mod _ _ | exact put_mod (by decide) _ | apply add_mod_low

/-- The fields of a memory word leave the low byte. -/
theorem putMem_mod (w : MemWord) : putMem w % 256 = 0 := by
  unfold putMem
  cases w.site <;> dsimp only <;> repeat' first | exact putGuard_mod _ _ | exact put_mod (by decide) _ | apply add_mod_low

/-- The fields of an atomic word leave the low byte. -/
theorem putAtom_mod (w : AtomWord) : putAtom w % 256 = 0 := by
  unfold putAtom
  cases w.site <;> dsimp only <;> repeat' first | exact putGuard_mod _ _ | exact put_mod (by decide) _ | apply add_mod_low

/-- The fields of a branch word leave the low byte. -/
theorem putBranch_mod (w : BranchWord) : putBranch w % 256 = 0 := by
  unfold putBranch
  cases w.site <;> dsimp only <;> repeat' first | exact putGuard_mod _ _ | exact put_mod (by decide) _ | apply add_mod_low

/-- The fields of an address syllable leave the low byte. -/
theorem putAddr_mod (w : AddrWord) : putAddr w % 256 = 0 := by
  unfold putAddr
  cases w.tile <;> simp only [if_true, if_false, Bool.false_eq_true] <;>
    repeat' first | exact putGuard_mod _ _ | exact put_mod (by decide) _ | apply add_mod_low

/-- The fields of EVBIND's word leave the low byte. -/
theorem putEvBind_mod (g : Guard) (slot kind : BitVec 3) (off : BitVec 20) (joff : BitVec 16) (b19 : Bool) (x : BitVec 8) :
    putEvBind g slot kind off joff b19 x % 256 = 0 := by
  unfold putEvBind
  repeat' first | exact putGuard_mod _ _ | exact put_mod (by decide) _ | apply add_mod_low

/-- An opcode below 256 is the low byte of a word whose fields leave it. -/
theorem low_byte {op f : Nat} (h : op < 256) (hf : f % 256 = 0) : (op + f) % 256 = op := by omega

/-- A number below another, by evaluation. -/
theorem below {m n : Nat} (h : Nat.ble (n + 1) m = true) : n < m := Nat.le_of_ble_eq_true h

/-- The low byte of an instruction's word is its opcode, and the opcode fits it. -/
def Opcode.Statement (i : Instr) : Prop := i.opcode < 256 ∧ encode i % 256 = i.opcode


theorem Opcode.nop (w : ArithWord) : Opcode.Statement (.nop w) := ⟨below rfl, low_byte (below rfl) (putArith_mod w)⟩

theorem Opcode.bra (w : BranchWord) : Opcode.Statement (.bra w) := ⟨below rfl, low_byte (below rfl) (putBranch_mod w)⟩

theorem Opcode.jmp (w : BranchWord) : Opcode.Statement (.jmp w) := ⟨below rfl, low_byte (below rfl) (putBranch_mod w)⟩

theorem Opcode.call (w : BranchWord) : Opcode.Statement (.call w) := ⟨below rfl, low_byte (below rfl) (putBranch_mod w)⟩

theorem Opcode.ret (w : ArithWord) : Opcode.Statement (.ret w) := ⟨below rfl, low_byte (below rfl) (putArith_mod w)⟩

theorem Opcode.jmpr (w : ArithWord) : Opcode.Statement (.jmpr w) := ⟨below rfl, low_byte (below rfl) (putArith_mod w)⟩

theorem Opcode.join (w : ImmWord) : Opcode.Statement (.join w) := ⟨below rfl, low_byte (below rfl) (putImm_mod w)⟩

theorem Opcode.exit (w : ArithWord) : Opcode.Statement (.exit w) := ⟨below rfl, low_byte (below rfl) (putArith_mod w)⟩

theorem Opcode.regroup (w : ArithWord) : Opcode.Statement (.regroup w) := ⟨below rfl, low_byte (below rfl) (putArith_mod w)⟩

theorem Opcode.vote (w : ArithWord) : Opcode.Statement (.vote w) := ⟨below rfl, low_byte (below rfl) (putArith_mod w)⟩

theorem Opcode.bar (w : ArithWord) : Opcode.Statement (.bar w) := ⟨below rfl, low_byte (below rfl) (putArith_mod w)⟩

theorem Opcode.bararr (w : ArithWord) : Opcode.Statement (.bararr w) := ⟨below rfl, low_byte (below rfl) (putArith_mod w)⟩

theorem Opcode.collapse (w : BranchWord) : Opcode.Statement (.collapse w) := ⟨below rfl, low_byte (below rfl) (putBranch_mod w)⟩

theorem Opcode.expand (w : BranchWord) : Opcode.Statement (.expand w) := ⟨below rfl, low_byte (below rfl) (putBranch_mod w)⟩

theorem Opcode.loop (w : ArithWord) : Opcode.Statement (.loop w) := ⟨below rfl, low_byte (below rfl) (putArith_mod w)⟩

theorem Opcode.endloop (w : ArithWord) : Opcode.Statement (.endloop w) := ⟨below rfl, low_byte (below rfl) (putArith_mod w)⟩

theorem Opcode.evbind (w : EvBindWord) : Opcode.Statement (.evbind w) :=
  ⟨below rfl, by cases w with
    | word g slot kind off joff b19 x => exact low_byte (below rfl) (putEvBind_mod g slot kind off joff b19 x)
    | syl w => exact low_byte (below rfl) (putArith_mod w)⟩

theorem Opcode.evunbind (w : ArithWord) : Opcode.Statement (.evunbind w) := ⟨below rfl, low_byte (below rfl) (putArith_mod w)⟩

theorem Opcode.waitany (w : ArithWord) : Opcode.Statement (.waitany w) := ⟨below rfl, low_byte (below rfl) (putArith_mod w)⟩

theorem Opcode.evmask (w : ArithWord) : Opcode.Statement (.evmask w) := ⟨below rfl, low_byte (below rfl) (putArith_mod w)⟩

theorem Opcode.evpend (w : ArithWord) : Opcode.Statement (.evpend w) := ⟨below rfl, low_byte (below rfl) (putArith_mod w)⟩

theorem Opcode.evclr (w : ArithWord) : Opcode.Statement (.evclr w) := ⟨below rfl, low_byte (below rfl) (putArith_mod w)⟩

theorem Opcode.send (w : ArithWord) : Opcode.Statement (.send w) := ⟨below rfl, low_byte (below rfl) (putArith_mod w)⟩

theorem Opcode.mbread (w : ArithWord) : Opcode.Statement (.mbread w) := ⟨below rfl, low_byte (below rfl) (putArith_mod w)⟩

theorem Opcode.region (w : ArithWord) : Opcode.Statement (.region w) := ⟨below rfl, low_byte (below rfl) (putArith_mod w)⟩

theorem Opcode.sleepuntil (w : ArithWord) : Opcode.Statement (.sleepuntil w) := ⟨below rfl, low_byte (below rfl) (putArith_mod w)⟩

theorem Opcode.yield (w : ArithWord) : Opcode.Statement (.yield w) := ⟨below rfl, low_byte (below rfl) (putArith_mod w)⟩

theorem Opcode.popd (w : ArithWord) : Opcode.Statement (.popd w) := ⟨below rfl, low_byte (below rfl) (putArith_mod w)⟩

theorem Opcode.pushd (w : ArithWord) : Opcode.Statement (.pushd w) := ⟨below rfl, low_byte (below rfl) (putArith_mod w)⟩

theorem Opcode.nexttile (w : ArithWord) : Opcode.Statement (.nexttile w) := ⟨below rfl, low_byte (below rfl) (putArith_mod w)⟩

theorem Opcode.sqpush (w : ArithWord) : Opcode.Statement (.sqpush w) := ⟨below rfl, low_byte (below rfl) (putArith_mod w)⟩

theorem Opcode.trap (w : ImmWord) : Opcode.Statement (.trap w) := ⟨below rfl, low_byte (below rfl) (putImm_mod w)⟩

theorem Opcode.iadd (w : ArithWord) : Opcode.Statement (.iadd w) := ⟨below rfl, low_byte (below rfl) (putArith_mod w)⟩

theorem Opcode.isub (w : ArithWord) : Opcode.Statement (.isub w) := ⟨below rfl, low_byte (below rfl) (putArith_mod w)⟩

theorem Opcode.imul (w : ArithWord) : Opcode.Statement (.imul w) := ⟨below rfl, low_byte (below rfl) (putArith_mod w)⟩

theorem Opcode.imulh (w : ArithWord) : Opcode.Statement (.imulh w) := ⟨below rfl, low_byte (below rfl) (putArith_mod w)⟩

theorem Opcode.imad (w : ArithWord) : Opcode.Statement (.imad w) := ⟨below rfl, low_byte (below rfl) (putArith_mod w)⟩

theorem Opcode.idiv (w : ArithWord) : Opcode.Statement (.idiv w) := ⟨below rfl, low_byte (below rfl) (putArith_mod w)⟩

theorem Opcode.irem (w : ArithWord) : Opcode.Statement (.irem w) := ⟨below rfl, low_byte (below rfl) (putArith_mod w)⟩

theorem Opcode.imin (w : ArithWord) : Opcode.Statement (.imin w) := ⟨below rfl, low_byte (below rfl) (putArith_mod w)⟩

theorem Opcode.imax (w : ArithWord) : Opcode.Statement (.imax w) := ⟨below rfl, low_byte (below rfl) (putArith_mod w)⟩

theorem Opcode.iabs (w : ArithWord) : Opcode.Statement (.iabs w) := ⟨below rfl, low_byte (below rfl) (putArith_mod w)⟩

theorem Opcode.ineg (w : ArithWord) : Opcode.Statement (.ineg w) := ⟨below rfl, low_byte (below rfl) (putArith_mod w)⟩

theorem Opcode.icmp (w : ArithWord) : Opcode.Statement (.icmp w) := ⟨below rfl, low_byte (below rfl) (putArith_mod w)⟩

theorem Opcode.popc (w : ArithWord) : Opcode.Statement (.popc w) := ⟨below rfl, low_byte (below rfl) (putArith_mod w)⟩

theorem Opcode.clz (w : ArithWord) : Opcode.Statement (.clz w) := ⟨below rfl, low_byte (below rfl) (putArith_mod w)⟩

theorem Opcode.brev (w : ArithWord) : Opcode.Statement (.brev w) := ⟨below rfl, low_byte (below rfl) (putArith_mod w)⟩

theorem Opcode.ctz (w : ArithWord) : Opcode.Statement (.ctz w) := ⟨below rfl, low_byte (below rfl) (putArith_mod w)⟩

theorem Opcode.and (w : ArithWord) : Opcode.Statement (.and w) := ⟨below rfl, low_byte (below rfl) (putArith_mod w)⟩

theorem Opcode.or (w : ArithWord) : Opcode.Statement (.or w) := ⟨below rfl, low_byte (below rfl) (putArith_mod w)⟩

theorem Opcode.xor (w : ArithWord) : Opcode.Statement (.xor w) := ⟨below rfl, low_byte (below rfl) (putArith_mod w)⟩

theorem Opcode.not (w : ArithWord) : Opcode.Statement (.not w) := ⟨below rfl, low_byte (below rfl) (putArith_mod w)⟩

theorem Opcode.andn (w : ArithWord) : Opcode.Statement (.andn w) := ⟨below rfl, low_byte (below rfl) (putArith_mod w)⟩

theorem Opcode.shl (w : ArithWord) : Opcode.Statement (.shl w) := ⟨below rfl, low_byte (below rfl) (putArith_mod w)⟩

theorem Opcode.shr (w : ArithWord) : Opcode.Statement (.shr w) := ⟨below rfl, low_byte (below rfl) (putArith_mod w)⟩

theorem Opcode.sar (w : ArithWord) : Opcode.Statement (.sar w) := ⟨below rfl, low_byte (below rfl) (putArith_mod w)⟩

theorem Opcode.rotl (w : ArithWord) : Opcode.Statement (.rotl w) := ⟨below rfl, low_byte (below rfl) (putArith_mod w)⟩

theorem Opcode.bfx (w : ArithWord) : Opcode.Statement (.bfx w) := ⟨below rfl, low_byte (below rfl) (putArith_mod w)⟩

theorem Opcode.bfi (w : ArithWord) : Opcode.Statement (.bfi w) := ⟨below rfl, low_byte (below rfl) (putArith_mod w)⟩

theorem Opcode.lea (w : ArithWord) : Opcode.Statement (.lea w) := ⟨below rfl, low_byte (below rfl) (putArith_mod w)⟩

theorem Opcode.movi (w : ImmWord) : Opcode.Statement (.movi w) := ⟨below rfl, low_byte (below rfl) (putImm_mod w)⟩

theorem Opcode.movhi (w : ImmWord) : Opcode.Statement (.movhi w) := ⟨below rfl, low_byte (below rfl) (putImm_mod w)⟩

theorem Opcode.iaddi (w : ImmWord) : Opcode.Statement (.iaddi w) := ⟨below rfl, low_byte (below rfl) (putImm_mod w)⟩

theorem Opcode.imuli (w : ImmWord) : Opcode.Statement (.imuli w) := ⟨below rfl, low_byte (below rfl) (putImm_mod w)⟩

theorem Opcode.andi (w : ImmWord) : Opcode.Statement (.andi w) := ⟨below rfl, low_byte (below rfl) (putImm_mod w)⟩

theorem Opcode.ori (w : ImmWord) : Opcode.Statement (.ori w) := ⟨below rfl, low_byte (below rfl) (putImm_mod w)⟩

theorem Opcode.xori (w : ImmWord) : Opcode.Statement (.xori w) := ⟨below rfl, low_byte (below rfl) (putImm_mod w)⟩

theorem Opcode.shli (w : ImmWord) : Opcode.Statement (.shli w) := ⟨below rfl, low_byte (below rfl) (putImm_mod w)⟩

theorem Opcode.shri (w : ImmWord) : Opcode.Statement (.shri w) := ⟨below rfl, low_byte (below rfl) (putImm_mod w)⟩

theorem Opcode.sari (w : ImmWord) : Opcode.Statement (.sari w) := ⟨below rfl, low_byte (below rfl) (putImm_mod w)⟩

theorem Opcode.icmpi (w : ImmWord) : Opcode.Statement (.icmpi w) := ⟨below rfl, low_byte (below rfl) (putImm_mod w)⟩

theorem Opcode.mov (w : ArithWord) : Opcode.Statement (.mov w) := ⟨below rfl, low_byte (below rfl) (putArith_mod w)⟩

theorem Opcode.retag (w : ArithWord) : Opcode.Statement (.retag w) := ⟨below rfl, low_byte (below rfl) (putArith_mod w)⟩

theorem Opcode.sel (w : ArithWord) : Opcode.Statement (.sel w) := ⟨below rfl, low_byte (below rfl) (putArith_mod w)⟩

theorem Opcode.readsr (w : ArithWord) : Opcode.Statement (.readsr w) := ⟨below rfl, low_byte (below rfl) (putArith_mod w)⟩

theorem Opcode.writesr (w : ArithWord) : Opcode.Statement (.writesr w) := ⟨below rfl, low_byte (below rfl) (putArith_mod w)⟩

theorem Opcode.shfl (w : ArithWord) : Opcode.Statement (.shfl w) := ⟨below rfl, low_byte (below rfl) (putArith_mod w)⟩

theorem Opcode.bcast (w : ArithWord) : Opcode.Statement (.bcast w) := ⟨below rfl, low_byte (below rfl) (putArith_mod w)⟩

theorem Opcode.scan (w : ArithWord) : Opcode.Statement (.scan w) := ⟨below rfl, low_byte (below rfl) (putArith_mod w)⟩

theorem Opcode.reduce (w : ArithWord) : Opcode.Statement (.reduce w) := ⟨below rfl, low_byte (below rfl) (putArith_mod w)⟩

theorem Opcode.compact (w : ArithWord) : Opcode.Statement (.compact w) := ⟨below rfl, low_byte (below rfl) (putArith_mod w)⟩

theorem Opcode.prset (w : ArithWord) : Opcode.Statement (.prset w) := ⟨below rfl, low_byte (below rfl) (putArith_mod w)⟩

theorem Opcode.prtoi (w : ArithWord) : Opcode.Statement (.prtoi w) := ⟨below rfl, low_byte (below rfl) (putArith_mod w)⟩

theorem Opcode.itopr (w : ArithWord) : Opcode.Statement (.itopr w) := ⟨below rfl, low_byte (below rfl) (putArith_mod w)⟩

theorem Opcode.matchLanes (w : ArithWord) : Opcode.Statement (.matchLanes w) := ⟨below rfl, low_byte (below rfl) (putArith_mod w)⟩

theorem Opcode.xmov (w : ArithWord) : Opcode.Statement (.xmov w) := ⟨below rfl, low_byte (below rfl) (putArith_mod w)⟩

theorem Opcode.xbcast (w : ArithWord) : Opcode.Statement (.xbcast w) := ⟨below rfl, low_byte (below rfl) (putArith_mod w)⟩

theorem Opcode.fadd (w : ArithWord) : Opcode.Statement (.fadd w) := ⟨below rfl, low_byte (below rfl) (putArith_mod w)⟩

theorem Opcode.fsub (w : ArithWord) : Opcode.Statement (.fsub w) := ⟨below rfl, low_byte (below rfl) (putArith_mod w)⟩

theorem Opcode.fmul (w : ArithWord) : Opcode.Statement (.fmul w) := ⟨below rfl, low_byte (below rfl) (putArith_mod w)⟩

theorem Opcode.ffma (w : ArithWord) : Opcode.Statement (.ffma w) := ⟨below rfl, low_byte (below rfl) (putArith_mod w)⟩

theorem Opcode.fmin (w : ArithWord) : Opcode.Statement (.fmin w) := ⟨below rfl, low_byte (below rfl) (putArith_mod w)⟩

theorem Opcode.fmax (w : ArithWord) : Opcode.Statement (.fmax w) := ⟨below rfl, low_byte (below rfl) (putArith_mod w)⟩

theorem Opcode.fdiv (w : ArithWord) : Opcode.Statement (.fdiv w) := ⟨below rfl, low_byte (below rfl) (putArith_mod w)⟩

theorem Opcode.fsqrt (w : ArithWord) : Opcode.Statement (.fsqrt w) := ⟨below rfl, low_byte (below rfl) (putArith_mod w)⟩

theorem Opcode.frcp (w : ArithWord) : Opcode.Statement (.frcp w) := ⟨below rfl, low_byte (below rfl) (putArith_mod w)⟩

theorem Opcode.frsq (w : ArithWord) : Opcode.Statement (.frsq w) := ⟨below rfl, low_byte (below rfl) (putArith_mod w)⟩

theorem Opcode.fexp2 (w : ArithWord) : Opcode.Statement (.fexp2 w) := ⟨below rfl, low_byte (below rfl) (putArith_mod w)⟩

theorem Opcode.flog2 (w : ArithWord) : Opcode.Statement (.flog2 w) := ⟨below rfl, low_byte (below rfl) (putArith_mod w)⟩

theorem Opcode.fsinpi (w : ArithWord) : Opcode.Statement (.fsinpi w) := ⟨below rfl, low_byte (below rfl) (putArith_mod w)⟩

theorem Opcode.fcospi (w : ArithWord) : Opcode.Statement (.fcospi w) := ⟨below rfl, low_byte (below rfl) (putArith_mod w)⟩

theorem Opcode.fcmp (w : ArithWord) : Opcode.Statement (.fcmp w) := ⟨below rfl, low_byte (below rfl) (putArith_mod w)⟩

theorem Opcode.fclass (w : ArithWord) : Opcode.Statement (.fclass w) := ⟨below rfl, low_byte (below rfl) (putArith_mod w)⟩

theorem Opcode.frnd (w : ArithWord) : Opcode.Statement (.frnd w) := ⟨below rfl, low_byte (below rfl) (putArith_mod w)⟩

theorem Opcode.fdot (w : ArithWord) : Opcode.Statement (.fdot w) := ⟨below rfl, low_byte (below rfl) (putArith_mod w)⟩

theorem Opcode.cvt (w : ArithWord) : Opcode.Statement (.cvt w) := ⟨below rfl, low_byte (below rfl) (putArith_mod w)⟩

theorem Opcode.ivmake (w : ArithWord) : Opcode.Statement (.ivmake w) := ⟨below rfl, low_byte (below rfl) (putArith_mod w)⟩

theorem Opcode.ivlo (w : ArithWord) : Opcode.Statement (.ivlo w) := ⟨below rfl, low_byte (below rfl) (putArith_mod w)⟩

theorem Opcode.ivhi (w : ArithWord) : Opcode.Statement (.ivhi w) := ⟨below rfl, low_byte (below rfl) (putArith_mod w)⟩

theorem Opcode.ivmid (w : ArithWord) : Opcode.Statement (.ivmid w) := ⟨below rfl, low_byte (below rfl) (putArith_mod w)⟩

theorem Opcode.ivwid (w : ArithWord) : Opcode.Statement (.ivwid w) := ⟨below rfl, low_byte (below rfl) (putArith_mod w)⟩

theorem Opcode.ivhull (w : ArithWord) : Opcode.Statement (.ivhull w) := ⟨below rfl, low_byte (below rfl) (putArith_mod w)⟩

theorem Opcode.ivisect (w : ArithWord) : Opcode.Statement (.ivisect w) := ⟨below rfl, low_byte (below rfl) (putArith_mod w)⟩

theorem Opcode.ivsplit (w : ArithWord) : Opcode.Statement (.ivsplit w) := ⟨below rfl, low_byte (below rfl) (putArith_mod w)⟩

theorem Opcode.ivpop (w : ArithWord) : Opcode.Statement (.ivpop w) := ⟨below rfl, low_byte (below rfl) (putArith_mod w)⟩

theorem Opcode.ivsqr (w : ArithWord) : Opcode.Statement (.ivsqr w) := ⟨below rfl, low_byte (below rfl) (putArith_mod w)⟩

theorem Opcode.ivabs (w : ArithWord) : Opcode.Statement (.ivabs w) := ⟨below rfl, low_byte (below rfl) (putArith_mod w)⟩

theorem Opcode.ivcont (w : ArithWord) : Opcode.Statement (.ivcont w) := ⟨below rfl, low_byte (below rfl) (putArith_mod w)⟩

theorem Opcode.qnt (w : ArithWord) : Opcode.Statement (.qnt w) := ⟨below rfl, low_byte (below rfl) (putArith_mod w)⟩

theorem Opcode.ld (w : MemWord) : Opcode.Statement (.ld w) := ⟨below rfl, low_byte (below rfl) (putMem_mod w)⟩

theorem Opcode.st (w : MemWord) : Opcode.Statement (.st w) := ⟨below rfl, low_byte (below rfl) (putMem_mod w)⟩

theorem Opcode.ldp (w : MemWord) : Opcode.Statement (.ldp w) := ⟨below rfl, low_byte (below rfl) (putMem_mod w)⟩

theorem Opcode.stp (w : MemWord) : Opcode.Statement (.stp w) := ⟨below rfl, low_byte (below rfl) (putMem_mod w)⟩

theorem Opcode.atom (w : AtomWord) : Opcode.Statement (.atom w) := ⟨below rfl, low_byte (below rfl) (putAtom_mod w)⟩

theorem Opcode.cas (w : AtomWord) : Opcode.Statement (.cas w) := ⟨below rfl, low_byte (below rfl) (putAtom_mod w)⟩

theorem Opcode.amx (w : AtomWord) : Opcode.Statement (.amx w) := ⟨below rfl, low_byte (below rfl) (putAtom_mod w)⟩

theorem Opcode.pref (w : MemWord) : Opcode.Statement (.pref w) := ⟨below rfl, low_byte (below rfl) (putMem_mod w)⟩

theorem Opcode.demote (w : MemWord) : Opcode.Statement (.demote w) := ⟨below rfl, low_byte (below rfl) (putMem_mod w)⟩

theorem Opcode.fence (w : MemWord) : Opcode.Statement (.fence w) := ⟨below rfl, low_byte (below rfl) (putMem_mod w)⟩

theorem Opcode.acq (w : MemWord) : Opcode.Statement (.acq w) := ⟨below rfl, low_byte (below rfl) (putMem_mod w)⟩

theorem Opcode.rel (w : MemWord) : Opcode.Statement (.rel w) := ⟨below rfl, low_byte (below rfl) (putMem_mod w)⟩

theorem Opcode.bind (w : ArithWord) : Opcode.Statement (.bind w) := ⟨below rfl, low_byte (below rfl) (putArith_mod w)⟩

theorem Opcode.unbind (w : ArithWord) : Opcode.Statement (.unbind w) := ⟨below rfl, low_byte (below rfl) (putArith_mod w)⟩

theorem Opcode.signal (w : AtomWord) : Opcode.Statement (.signal w) := ⟨below rfl, low_byte (below rfl) (putAtom_mod w)⟩

theorem Opcode.swait (w : AtomWord) : Opcode.Statement (.swait w) := ⟨below rfl, low_byte (below rfl) (putAtom_mod w)⟩

theorem Opcode.alloc (w : ArithWord) : Opcode.Statement (.alloc w) := ⟨below rfl, low_byte (below rfl) (putArith_mod w)⟩

theorem Opcode.free (w : ArithWord) : Opcode.Statement (.free w) := ⟨below rfl, low_byte (below rfl) (putArith_mod w)⟩

theorem Opcode.talloc (w : ArithWord) : Opcode.Statement (.talloc w) := ⟨below rfl, low_byte (below rfl) (putArith_mod w)⟩

theorem Opcode.tfree (w : ArithWord) : Opcode.Statement (.tfree w) := ⟨below rfl, low_byte (below rfl) (putArith_mod w)⟩

theorem Opcode.tinfo (w : ArithWord) : Opcode.Statement (.tinfo w) := ⟨below rfl, low_byte (below rfl) (putArith_mod w)⟩

theorem Opcode.ldt (w : ArithWord) : Opcode.Statement (.ldt w) := ⟨below rfl, low_byte (below rfl) (putArith_mod w)⟩

theorem Opcode.stt (w : ArithWord) : Opcode.Statement (.stt w) := ⟨below rfl, low_byte (below rfl) (putArith_mod w)⟩

theorem Opcode.atomt (w : ArithWord) : Opcode.Statement (.atomt w) := ⟨below rfl, low_byte (below rfl) (putArith_mod w)⟩

theorem Opcode.tfill (w : ArithWord) : Opcode.Statement (.tfill w) := ⟨below rfl, low_byte (below rfl) (putArith_mod w)⟩

theorem Opcode.pusha (w : AddrWord) : Opcode.Statement (.pusha w) := ⟨below rfl, low_byte (below rfl) (putAddr_mod w)⟩

theorem Opcode.pushs (w : AddrWord) : Opcode.Statement (.pushs w) := ⟨below rfl, low_byte (below rfl) (putAddr_mod w)⟩

theorem Opcode.qstat (w : ArithWord) : Opcode.Statement (.qstat w) := ⟨below rfl, low_byte (below rfl) (putArith_mod w)⟩

theorem Opcode.copy (w : ArithWord) : Opcode.Statement (.copy w) := ⟨below rfl, low_byte (below rfl) (putArith_mod w)⟩

theorem Opcode.gather (w : ArithWord) : Opcode.Statement (.gather w) := ⟨below rfl, low_byte (below rfl) (putArith_mod w)⟩

theorem Opcode.scatter (w : ArithWord) : Opcode.Statement (.scatter w) := ⟨below rfl, low_byte (below rfl) (putArith_mod w)⟩

theorem Opcode.coll (w : ArithWord) : Opcode.Statement (.coll w) := ⟨below rfl, low_byte (below rfl) (putArith_mod w)⟩

theorem Opcode.peerwr (w : ArithWord) : Opcode.Statement (.peerwr w) := ⟨below rfl, low_byte (below rfl) (putArith_mod w)⟩

theorem Opcode.peerrd (w : ArithWord) : Opcode.Statement (.peerrd w) := ⟨below rfl, low_byte (below rfl) (putArith_mod w)⟩

theorem Opcode.peersig (w : ArithWord) : Opcode.Statement (.peersig w) := ⟨below rfl, low_byte (below rfl) (putArith_mod w)⟩

theorem Opcode.rqpop (w : ArithWord) : Opcode.Statement (.rqpop w) := ⟨below rfl, low_byte (below rfl) (putArith_mod w)⟩

theorem Opcode.cmdstat (w : ArithWord) : Opcode.Statement (.cmdstat w) := ⟨below rfl, low_byte (below rfl) (putArith_mod w)⟩

theorem Opcode.mma (w : ArithWord) : Opcode.Statement (.mma w) := ⟨below rfl, low_byte (below rfl) (putArith_mod w)⟩

theorem Opcode.mbeatPush (w : ArithWord) : Opcode.Statement (.mbeatPush w) := ⟨below rfl, low_byte (below rfl) (putArith_mod w)⟩

theorem Opcode.mbeatAcc (w : ArithWord) : Opcode.Statement (.mbeatAcc w) := ⟨below rfl, low_byte (below rfl) (putArith_mod w)⟩

theorem Opcode.mbeatShift (w : ArithWord) : Opcode.Statement (.mbeatShift w) := ⟨below rfl, low_byte (below rfl) (putArith_mod w)⟩

theorem Opcode.mbeatDrain (w : ArithWord) : Opcode.Statement (.mbeatDrain w) := ⟨below rfl, low_byte (below rfl) (putArith_mod w)⟩

theorem Opcode.mscale (w : ArithWord) : Opcode.Statement (.mscale w) := ⟨below rfl, low_byte (below rfl) (putArith_mod w)⟩

theorem Opcode.mloadb (w : ArithWord) : Opcode.Statement (.mloadb w) := ⟨below rfl, low_byte (below rfl) (putArith_mod w)⟩

theorem Opcode.mamap (w : ArithWord) : Opcode.Statement (.mamap w) := ⟨below rfl, low_byte (below rfl) (putArith_mod w)⟩

theorem Opcode.mdrain (w : ArithWord) : Opcode.Statement (.mdrain w) := ⟨below rfl, low_byte (below rfl) (putArith_mod w)⟩

theorem Opcode.mhad (w : ArithWord) : Opcode.Statement (.mhad w) := ⟨below rfl, low_byte (below rfl) (putArith_mod w)⟩

theorem Opcode.mzero (w : ArithWord) : Opcode.Statement (.mzero w) := ⟨below rfl, low_byte (below rfl) (putArith_mod w)⟩

theorem Opcode.mbmap (w : ArithWord) : Opcode.Statement (.mbmap w) := ⟨below rfl, low_byte (below rfl) (putArith_mod w)⟩

theorem Opcode.mretire (w : ArithWord) : Opcode.Statement (.mretire w) := ⟨below rfl, low_byte (below rfl) (putArith_mod w)⟩

theorem Opcode.bkpt (w : ArithWord) : Opcode.Statement (.bkpt w) := ⟨below rfl, low_byte (below rfl) (putArith_mod w)⟩

theorem Opcode.pmcfg (w : ArithWord) : Opcode.Statement (.pmcfg w) := ⟨below rfl, low_byte (below rfl) (putArith_mod w)⟩

theorem Opcode.pmread (w : ArithWord) : Opcode.Statement (.pmread w) := ⟨below rfl, low_byte (below rfl) (putArith_mod w)⟩

theorem Opcode.pmctl (w : ArithWord) : Opcode.Statement (.pmctl w) := ⟨below rfl, low_byte (below rfl) (putArith_mod w)⟩

theorem Opcode.trmark (w : ArithWord) : Opcode.Statement (.trmark w) := ⟨below rfl, low_byte (below rfl) (putArith_mod w)⟩

theorem Opcode.lclk (w : ArithWord) : Opcode.Statement (.lclk w) := ⟨below rfl, low_byte (below rfl) (putArith_mod w)⟩

theorem Opcode.watch (w : ArithWord) : Opcode.Statement (.watch w) := ⟨below rfl, low_byte (below rfl) (putArith_mod w)⟩

theorem Opcode.syssend (w : ArithWord) : Opcode.Statement (.syssend w) := ⟨below rfl, low_byte (below rfl) (putArith_mod w)⟩

theorem Opcode.sysrecv (w : ArithWord) : Opcode.Statement (.sysrecv w) := ⟨below rfl, low_byte (below rfl) (putArith_mod w)⟩

theorem Opcode.tret (w : ArithWord) : Opcode.Statement (.tret w) := ⟨below rfl, low_byte (below rfl) (putArith_mod w)⟩

theorem Opcode.icinv (w : ArithWord) : Opcode.Statement (.icinv w) := ⟨below rfl, low_byte (below rfl) (putArith_mod w)⟩

theorem Opcode.sread (w : ArithWord) : Opcode.Statement (.sread w) := ⟨below rfl, low_byte (below rfl) (putArith_mod w)⟩

theorem Opcode.swrite (w : ArithWord) : Opcode.Statement (.swrite w) := ⟨below rfl, low_byte (below rfl) (putArith_mod w)⟩

theorem Opcode.tlbinv (w : ArithWord) : Opcode.Statement (.tlbinv w) := ⟨below rfl, low_byte (below rfl) (putArith_mod w)⟩

theorem Opcode.ctxsave (w : ArithWord) : Opcode.Statement (.ctxsave w) := ⟨below rfl, low_byte (below rfl) (putArith_mod w)⟩

theorem Opcode.ctxload (w : ArithWord) : Opcode.Statement (.ctxload w) := ⟨below rfl, low_byte (below rfl) (putArith_mod w)⟩

theorem Opcode.lgdiv (w : ArithWord) : Opcode.Statement (.lgdiv w) := ⟨below rfl, low_byte (below rfl) (putArith_mod w)⟩

theorem Opcode.errread (w : ArithWord) : Opcode.Statement (.errread w) := ⟨below rfl, low_byte (below rfl) (putArith_mod w)⟩

theorem Opcode.portreply (w : ArithWord) : Opcode.Statement (.portreply w) := ⟨below rfl, low_byte (below rfl) (putArith_mod w)⟩

theorem Opcode.preempt (w : ArithWord) : Opcode.Statement (.preempt w) := ⟨below rfl, low_byte (below rfl) (putArith_mod w)⟩

theorem Opcode.halt (w : ArithWord) : Opcode.Statement (.halt w) := ⟨below rfl, low_byte (below rfl) (putArith_mod w)⟩

theorem Opcode.coldStart (full : Bool) (trained : BitVec 12) (tests : StartTests) : Opcode.Statement (.coldStart full trained tests) := ⟨below rfl, rfl⟩

theorem Opcode.fullService (trained : BitVec 12) (tests : StartTests) : Opcode.Statement (.fullService trained tests) := ⟨below rfl, rfl⟩

theorem Opcode.hostLinkReset : Opcode.Statement (.hostLinkReset) := ⟨below rfl, rfl⟩

theorem Opcode.hostRestartComplete : Opcode.Statement (.hostRestartComplete) := ⟨below rfl, rfl⟩

theorem Opcode.identify : Opcode.Statement (.identify) := ⟨below rfl, rfl⟩

theorem Opcode.patch : Opcode.Statement (.patch) := ⟨below rfl, rfl⟩

theorem Opcode.partition : Opcode.Statement (.partition) := ⟨below rfl, rfl⟩

theorem Opcode.warmstart : Opcode.Statement (.warmstart) := ⟨below rfl, rfl⟩

theorem Opcode.setrect : Opcode.Statement (.setrect) := ⟨below rfl, rfl⟩

theorem Opcode.ctxresume : Opcode.Statement (.ctxresume) := ⟨below rfl, rfl⟩

theorem Opcode.setsys : Opcode.Statement (.setsys) := ⟨below rfl, rfl⟩

theorem Opcode.blockctlHalt : Opcode.Statement (.blockctlHalt) := ⟨below rfl, rfl⟩

theorem Opcode.blockctlResume : Opcode.Statement (.blockctlResume) := ⟨below rfl, rfl⟩

theorem Opcode.blockctlDiscard : Opcode.Statement (.blockctlDiscard) := ⟨below rfl, rfl⟩

theorem Opcode.replay : Opcode.Statement (.replay) := ⟨below rfl, rfl⟩

theorem Opcode.commandEnd : Opcode.Statement (.commandEnd) := ⟨below rfl, rfl⟩

theorem Opcode.evtailWrite (val : Word) : Opcode.Statement (.evtailWrite val) := ⟨below rfl, rfl⟩

theorem Opcode.registerWrite (off : Nat) (val : Word) : Opcode.Statement (.registerWrite off val) := ⟨below rfl, rfl⟩

theorem Opcode.queueEnable (ins q : Nat) (val : Word) : Opcode.Statement (.queueEnable ins q val) := ⟨below rfl, rfl⟩

theorem Opcode.qdoorbell (ins q : Nat) (val : Word) : Opcode.Statement (.qdoorbell ins q val) := ⟨below rfl, rfl⟩

theorem Opcode.queueStop (ins q : Nat) : Opcode.Statement (.queueStop ins q) := ⟨below rfl, rfl⟩

theorem Opcode.queueClearStop (ins q : Nat) : Opcode.Statement (.queueClearStop ins q) := ⟨below rfl, rfl⟩

theorem Opcode.queueSkip (ins q : Nat) : Opcode.Statement (.queueSkip ins q) := ⟨below rfl, rfl⟩

theorem Opcode.seqRead (ins q : Nat) : Opcode.Statement (.seqRead ins q) := ⟨below rfl, rfl⟩

theorem Opcode.seqReread (ins q : Nat) : Opcode.Statement (.seqReread ins q) := ⟨below rfl, rfl⟩

theorem Opcode.headWaitSatisfied (ins q : Nat) : Opcode.Statement (.headWaitSatisfied ins q) := ⟨below rfl, rfl⟩

theorem Opcode.launchStart (ins : Nat) : Opcode.Statement (.launchStart ins) := ⟨below rfl, rfl⟩

theorem Opcode.gangPlace (ins : Nat) : Opcode.Statement (.gangPlace ins) := ⟨below rfl, rfl⟩

theorem Opcode.gangPassedOver (ins : Nat) : Opcode.Statement (.gangPassedOver ins) := ⟨below rfl, rfl⟩

theorem Opcode.stageDeadlockBreak (ins : Nat) : Opcode.Statement (.stageDeadlockBreak ins) := ⟨below rfl, rfl⟩

theorem Opcode.coreClearComplete (core : Nat) : Opcode.Statement (.coreClearComplete core) := ⟨below rfl, rfl⟩

theorem Opcode.rangeChunkAnswer (ins launch cell : Nat) : Opcode.Statement (.rangeChunkAnswer ins launch cell) := ⟨below rfl, rfl⟩

theorem Opcode.nexttileAnswer (core unit : Nat) : Opcode.Statement (.nexttileAnswer core unit) := ⟨below rfl, rfl⟩

theorem Opcode.starvationPromote (core unit split : Nat) : Opcode.Statement (.starvationPromote core unit split) := ⟨below rfl, rfl⟩

theorem Opcode.yieldTimeout (core unit split : Nat) : Opcode.Statement (.yieldTimeout core unit split) := ⟨below rfl, rfl⟩

theorem Opcode.deferredSplitStart (core unit entry : Nat) : Opcode.Statement (.deferredSplitStart core unit entry) := ⟨below rfl, rfl⟩

theorem Opcode.joinDeadline (core unit entry : Nat) : Opcode.Statement (.joinDeadline core unit entry) := ⟨below rfl, rfl⟩

theorem Opcode.regionCountClose (core unit split : Nat) : Opcode.Statement (.regionCountClose core unit split) := ⟨below rfl, rfl⟩

theorem Opcode.loadAnswer (core unit entry : Nat) : Opcode.Statement (.loadAnswer core unit entry) := ⟨below rfl, rfl⟩

theorem Opcode.l1Fill (core line : Nat) : Opcode.Statement (.l1Fill core line) := ⟨below rfl, rfl⟩

theorem Opcode.l2MissFill (line : Nat) (victim : Option Nat) : Opcode.Statement (.l2MissFill line victim) := ⟨below rfl, rfl⟩

theorem Opcode.storeAck (core n : Nat) : Opcode.Statement (.storeAck core n) := ⟨below rfl, rfl⟩

theorem Opcode.sliceAtomic (core unit split : Nat) : Opcode.Statement (.sliceAtomic core unit split) := ⟨below rfl, rfl⟩

theorem Opcode.sliceAmx (core unit split : Nat) : Opcode.Statement (.sliceAmx core unit split) := ⟨below rfl, rfl⟩

theorem Opcode.guardAcquired (core unit split : Nat) : Opcode.Statement (.guardAcquired core unit split) := ⟨below rfl, rfl⟩

theorem Opcode.guardRelease (core unit split : Nat) : Opcode.Statement (.guardRelease core unit split) := ⟨below rfl, rfl⟩

theorem Opcode.swaitResume (core unit split : Nat) : Opcode.Statement (.swaitResume core unit split) := ⟨below rfl, rfl⟩

theorem Opcode.pinRetry (core unit split : Nat) : Opcode.Statement (.pinRetry core unit split) := ⟨below rfl, rfl⟩

theorem Opcode.pinBreak (core pin : Nat) : Opcode.Statement (.pinBreak core pin) := ⟨below rfl, rfl⟩

theorem Opcode.heapExchangeReturn (ins launch n : Nat) : Opcode.Statement (.heapExchangeReturn ins launch n) := ⟨below rfl, rfl⟩

theorem Opcode.bankPromote (core unit : Nat) : Opcode.Statement (.bankPromote core unit) := ⟨below rfl, rfl⟩

theorem Opcode.l1PortPromote (core unit : Nat) : Opcode.Statement (.l1PortPromote core unit) := ⟨below rfl, rfl⟩

theorem Opcode.sliceAgePromote (core unit : Nat) : Opcode.Statement (.sliceAgePromote core unit) := ⟨below rfl, rfl⟩

theorem Opcode.hbmAgePromote (core unit : Nat) : Opcode.Statement (.hbmAgePromote core unit) := ⟨below rfl, rfl⟩

theorem Opcode.hbmRefresh (channel : Nat) : Opcode.Statement (.hbmRefresh channel) := ⟨below rfl, rfl⟩

theorem Opcode.patrolRead (line : Nat) (badWords : List Nat) (corrected : Bool) : Opcode.Statement (.patrolRead line badWords corrected) := ⟨below rfl, rfl⟩

theorem Opcode.pageWalkComplete (core : Nat) (va : Word) : Opcode.Statement (.pageWalkComplete core va) := ⟨below rfl, rfl⟩

theorem Opcode.ifetchFill (core line : Nat) (poisoned : Bool) : Opcode.Statement (.ifetchFill core line poisoned) := ⟨below rfl, rfl⟩

theorem Opcode.icinvDevComplete (core unit split : Nat) : Opcode.Statement (.icinvDevComplete core unit split) := ⟨below rfl, rfl⟩

theorem Opcode.tlbinvComplete (core unit split : Nat) : Opcode.Statement (.tlbinvComplete core unit split) := ⟨below rfl, rfl⟩

theorem Opcode.mailboxDeliver (core n : Nat) : Opcode.Statement (.mailboxDeliver core n) := ⟨below rfl, rfl⟩

theorem Opcode.timerTokenFire (core unit slot : Nat) : Opcode.Statement (.timerTokenFire core unit slot) := ⟨below rfl, rfl⟩

theorem Opcode.waitanyWake (core unit split : Nat) : Opcode.Statement (.waitanyWake core unit split) := ⟨below rfl, rfl⟩

theorem Opcode.sleepWake (core unit split : Nat) : Opcode.Statement (.sleepWake core unit split) := ⟨below rfl, rfl⟩

theorem Opcode.copyComplete (core : Nat) : Opcode.Statement (.copyComplete core) := ⟨below rfl, rfl⟩

theorem Opcode.collArrival (core : Nat) : Opcode.Statement (.collArrival core) := ⟨below rfl, rfl⟩

theorem Opcode.peerReceive (die : Nat) (va : Word) (payload : List Byte) (signal : Option Word) (op : BitVec 2) (amount : Word) : Opcode.Statement (.peerReceive die va payload signal op amount) := ⟨below rfl, rfl⟩

theorem Opcode.peerAck (core : Nat) (seq : Nat) (status : PeerStatus) (payload : List Byte) : Opcode.Statement (.peerAck core seq status payload) := ⟨below rfl, rfl⟩

theorem Opcode.linkFlitReplay (port : Nat) : Opcode.Statement (.linkFlitReplay port) := ⟨below rfl, rfl⟩

theorem Opcode.linkDown (core : Nat) (seq : Nat) : Opcode.Statement (.linkDown core seq) := ⟨below rfl, rfl⟩

theorem Opcode.matrixCommandStart (core : Nat) : Opcode.Statement (.matrixCommandStart core) := ⟨below rfl, rfl⟩

theorem Opcode.mloadbComplete (core : Nat) : Opcode.Statement (.mloadbComplete core) := ⟨below rfl, rfl⟩

theorem Opcode.mscaleEffect (core unit : Nat) : Opcode.Statement (.mscaleEffect core unit) := ⟨below rfl, rfl⟩

theorem Opcode.drainCommit (core : Nat) : Opcode.Statement (.drainCommit core) := ⟨below rfl, rfl⟩

theorem Opcode.trapEntry (core : Nat) : Opcode.Statement (.trapEntry core) := ⟨below rfl, rfl⟩

theorem Opcode.forcedSave (core : Nat) : Opcode.Statement (.forcedSave core) := ⟨below rfl, rfl⟩

theorem Opcode.handlerWatchdog (core : Nat) : Opcode.Statement (.handlerWatchdog core) := ⟨below rfl, rfl⟩

theorem Opcode.blockSave (core : Nat) : Opcode.Statement (.blockSave core) := ⟨below rfl, rfl⟩

theorem Opcode.preemptionRequest (core : Nat) : Opcode.Statement (.preemptionRequest core) := ⟨below rfl, rfl⟩

theorem Opcode.powerClockReduction (slow : Bool) : Opcode.Statement (.powerClockReduction slow) := ⟨below rfl, rfl⟩

theorem Opcode.matrixCommandComplete (core : Nat) : Opcode.Statement (.matrixCommandComplete core) := ⟨below rfl, rfl⟩

theorem Opcode.peerReadRequest (die : Nat) (va : Word) (len : Nat) : Opcode.Statement (.peerReadRequest die va len) := ⟨below rfl, rfl⟩

theorem Opcode.peerFlitForward (dx dy : Int) (flit : List Byte) : Opcode.Statement (.peerFlitForward dx dy flit) := ⟨below rfl, rfl⟩

theorem Opcode.peerLinkChange (port : Nat) (up : Bool) : Opcode.Statement (.peerLinkChange port up) := ⟨below rfl, rfl⟩

theorem Opcode.peerConnectionClose (dx dy : Int) : Opcode.Statement (.peerConnectionClose dx dy) := ⟨below rfl, rfl⟩

theorem Opcode.hostMemoryRequest (pa : Nat) (store : Option (List Byte)) : Opcode.Statement (.hostMemoryRequest pa store) := ⟨below rfl, rfl⟩

end Sys2Proof.Laws
end

