-- ==== Sys2Proof/Laws/Round.lean ====
section
/-! SUPPORT. What rounding does: a magnitude rounded to a multiple of a unit, the value of a packed pattern, and from the two what
`Fmt.round` gives (R257). -/

namespace Sys2Proof.Machine

/-- A count y that the magnitude x, in units of which `u` make one of the count's, is rounded to by a mode (R257). -/
structure Near (rm : Nat) (neg : Bool) (x u b : Nat) (cut : Bool) : Prop where
  cut : cut = true ↔ x ≠ b * u
  above : x < b * u + u
  below : b * u < x + u
  nearest : rm = 0 → 2 * x ≤ 2 * (b * u) + u ∧ 2 * (b * u) ≤ 2 * x + u ∧
    (2 * x = 2 * (b * u) + u ∨ 2 * (b * u) = 2 * x + u → b % 2 = 0)
  zero : rm = 1 → b * u ≤ x
  down : rm = 2 → if neg then x ≤ b * u else b * u ≤ x
  up : rm = 3 → if neg then b * u ≤ x else x ≤ b * u

/-- A magnitude that is a multiple of the unit rounds to itself. -/
theorem Near.self (rm : Nat) (neg : Bool) {u : Nat} (h : 0 < u) (b : Nat) : Near rm neg (b * u) u b false := by
  constructor <;> intros <;> (try split) <;> (try simp) <;> omega

/-- `roundTo` rounds n · 2^e to a multiple of 2^q. -/
theorem roundTo_near (rm : Nat) (neg : Bool) (n : Nat) (e q : Int) (hr : rm < 4) :
    Near rm neg (n * 2 ^ (e - min e q).toNat) (2 ^ (q - min e q).toNat) (roundTo rm neg n e false q).1 (roundTo rm neg n e false q).2 := by
  by_cases h : q ≤ e
  · have h1 : min e q = q := by omega
    have h2 := Near.self rm neg (u := 2 ^ (q - q).toNat) (by simp) (n * 2 ^ (e - q).toNat)
    simpa [roundTo, h, h1] using h2
  · have h1 : min e q = e := by omega
    obtain ⟨k, hk⟩ : ∃ k : Nat, (q - e).toNat = k + 1 := ⟨(q - e).toNat - 1, by omega⟩
    simp only [h1, hk, roundTo, if_neg h, Int.sub_self, Int.toNat_zero, Nat.pow_zero, Nat.mul_one, Nat.add_sub_cancel]
    have hu : (2 : Nat) ^ (k + 1) = 2 * 2 ^ k := by rw [Nat.pow_succ]; omega
    have hd := Nat.div_add_mod n (2 ^ (k + 1))
    have hl := Nat.mod_lt n (Nat.two_pow_pos (k + 1))
    generalize hm : n / 2 ^ (k + 1) = m at hd ⊢
    generalize hrr : n % 2 ^ (k + 1) = r at hd hl ⊢
    have hp := Nat.two_pow_pos k
    rw [hu] at hd hl ⊢
    generalize (2 : Nat) ^ k = half at hd hl hp ⊢
    subst hd
    rw [Nat.mul_comm (2 * half) m]
    generalize hx : m * (2 * half) = t
    have ht : (m + 1) * (2 * half) = t + 2 * half := by rw [Nat.add_mul, hx, Nat.one_mul]
    have hm2 : m % 2 = 0 ∨ m % 2 = 1 := by omega
    obtain rfl | rfl | rfl | rfl : rm = 0 ∨ rm = 1 ∨ rm = 2 ∨ rm = 3 := by omega
    all_goals
      obtain rfl | ⟨hz, hlt⟩ | rfl | hgt : r = 0 ∨ 0 < r ∧ r < half ∨ r = half ∨ half < r := by omega
      all_goals cases neg <;> obtain hmm | hmm := hm2
      all_goals
        simp (disch := omega) [roundsUp, if_neg, if_pos, *]
        constructor <;> (try simp [ht, hx]) <;> omega

/-- Rounding keeps the order against a multiple of the unit. -/
theorem Near.le {rm : Nat} {neg : Bool} {x u b : Nat} {cut : Bool} (h : Near rm neg x u b cut) {k : Nat} (hk : x ≤ k * u) : b ≤ k := by
  rcases Nat.lt_or_ge k b with hb | hb
  · exfalso
    have h1 : (k + 1) * u ≤ b * u := Nat.mul_le_mul_right u hb
    rw [Nat.add_mul, Nat.one_mul] at h1
    have h2 := h.below
    omega
  · exact hb

/-- Rounding keeps the order against a multiple of the unit, from below. -/
theorem Near.ge {rm : Nat} {neg : Bool} {x u b : Nat} {cut : Bool} (h : Near rm neg x u b cut)
    {k : Nat} (hk : k * u ≤ x) : k ≤ b := by
  rcases Nat.lt_or_ge b k with hb | hb
  · exfalso
    have h1 : (b + 1) * u ≤ k * u := Nat.mul_le_mul_right u hb
    rw [Nat.add_mul, Nat.one_mul] at h1
    have h2 := h.above
    omega
  · exact hb

/-- What holds of the formats that the theorems below name. -/
structure Fmt.Plain (f : Fmt) : Prop where
  digits : 2 ≤ f.p
  room : f.maxP < 2 ^ (f.w - 1)
  normal : 2 ^ (f.p - 1) ≤ f.maxP

/-- The binary formats are plain. -/
theorem plain_of_mem {f : Fmt} (h : f ∈ binaryFmts) : f.Plain := by
  simp only [binaryFmts, List.mem_cons, List.not_mem_nil, or_false] at h
  obtain rfl | rfl | rfl | rfl := h <;> constructor <;> decide

/-- The sign and the magnitude of a pattern put together. -/
theorem Fmt.signed_parts (f : Fmt) (hf : f.Plain) (neg : Bool) {x : Nat} (h : x ≤ f.maxP) :
    f.neg (f.signed neg x) = neg ∧ f.mag (f.signed neg x) = x := by
  have h1 : x < 2 ^ (f.w - 1) := Nat.lt_of_le_of_lt h hf.room
  have hp := Nat.two_pow_pos (f.w - 1)
  cases neg
  · simp [Fmt.neg, Fmt.mag, Fmt.signed, Nat.mod_eq_of_lt h1, Nat.div_eq_of_lt h1]
  · simp [Fmt.neg, Fmt.mag, Fmt.signed, Nat.mod_eq_of_lt h1, Nat.add_div_left _ hp, Nat.div_eq_of_lt h1]

/-- The value of a pattern by its count and exponent (R249): d is the exponent above that of the subnormals. -/
theorem Fmt.val_pat (f : Fmt) (hf : f.Plain) (neg : Bool) (d b : Nat) (hb : b ≤ 2 * 2 ^ (f.p - 1)) (hd : d = 0 ∨ 2 ^ (f.p - 1) ≤ b)
    (hm : d * 2 ^ (f.p - 1) + b ≤ f.maxP) :
    f.val (f.signed neg (d * 2 ^ (f.p - 1) + b)) =
      if b = 2 * 2 ^ (f.p - 1) then .fin neg (2 ^ (f.p - 1)) (f.qmin + d + 1) else .fin neg b (f.qmin + d) := by
  obtain ⟨h1, h2⟩ := f.signed_parts hf neg hm
  have hp := Nat.two_pow_pos (f.p - 1)
  simp only [Fmt.val, h1, h2, if_pos hm]
  generalize (2 : Nat) ^ (f.p - 1) = P at hb hd hp ⊢
  by_cases hbP : b < P
  · obtain rfl : d = 0 := by omega
    simp [Nat.div_eq_of_lt hbP, Nat.mod_eq_of_lt hbP, show ¬b = 2 * P by omega]
  · by_cases hb2 : b = 2 * P
    · subst hb2
      have e1 : (d * P + 2 * P) / P = d + 2 := by rw [← Nat.add_mul, Nat.mul_div_cancel _ hp]
      have e2 : (d * P + 2 * P) % P = 0 := by rw [← Nat.add_mul, Nat.mul_mod_left]
      simp [e1, e2]; omega
    · obtain ⟨r, rfl⟩ : ∃ r, b = P + r := ⟨b - P, by omega⟩
      have hr : r < P := by omega
      have e0 : d * P + (P + r) = r + P * (d + 1) := by rw [Nat.mul_add, Nat.mul_comm P d]; omega
      have e1 : (d * P + (P + r)) / P = d + 1 := by rw [e0, Nat.add_mul_div_left _ _ hp, Nat.div_eq_of_lt hr]; omega
      have e2 : (d * P + (P + r)) % P = r := by rw [e0, Nat.add_mul_mod_self_left, Nat.mod_eq_of_lt hr]
      simp [e1, e2, hb2]; omega

/-- A magnitude at its own unit lies between P and 2P, and at a greater one below 2P. -/
theorem magnitude_span (n p : Nat) (e q : Int) (hn : n ≠ 0) (hp : 1 ≤ p) (hq : (Nat.log2 n : Int) + e - (p - 1 : Nat) ≤ q) :
    n * 2 ^ (e - min e q).toNat ≤ 2 * 2 ^ (p - 1) * 2 ^ (q - min e q).toNat ∧
      (q = (Nat.log2 n : Int) + e - (p - 1 : Nat) → 2 ^ (p - 1) * 2 ^ (q - min e q).toNat ≤ n * 2 ^ (e - min e q).toNat) := by
  have h1 : n < 2 ^ (Nat.log2 n + 1) := Nat.lt_log2_self
  have h2 : 2 ^ Nat.log2 n ≤ n := Nat.log2_self_le hn
  generalize Nat.log2 n = g at h1 h2 hq ⊢
  constructor
  · have e1 : 2 * 2 ^ (p - 1) * 2 ^ (q - min e q).toNat = 2 ^ (p + (q - min e q).toNat) := by
      rw [show p + (q - min e q).toNat = (p - 1) + 1 + (q - min e q).toNat by omega, Nat.pow_add, Nat.pow_succ, Nat.mul_comm 2]
    have e2 : 2 ^ (g + 1 + (e - min e q).toNat) ≤ 2 ^ (p + (q - min e q).toNat) := Nat.pow_le_pow_right (by omega) (by omega)
    rw [e1]
    refine Nat.le_trans (Nat.le_of_lt ?_) e2
    rw [Nat.pow_add]
    exact Nat.mul_lt_mul_of_pos_right h1 (Nat.two_pow_pos _)
  · intro hqq
    have e1 : 2 ^ (p - 1) * 2 ^ (q - min e q).toNat = 2 ^ (g + (e - min e q).toNat) := by
      rw [← Nat.pow_add]; congr 1; omega
    rw [e1, Nat.pow_add]
    exact Nat.mul_le_mul_right _ h2

/-- A magnitude against a count at a unit, seen at a lower one. -/
theorem magnitude_lt {n k : Nat} {e q : Int} (z : Int) (hz : z ≤ min e q)
    (h : k * 2 ^ (q - z).toNat < n * 2 ^ (e - z).toNat) : k * 2 ^ (q - min e q).toNat < n * 2 ^ (e - min e q).toNat := by
  have h1 : (q - z).toNat = (q - min e q).toNat + (min e q - z).toNat := by omega
  have h2 : (e - z).toNat = (e - min e q).toNat + (min e q - z).toNat := by omega
  rw [h1, h2, Nat.pow_add, Nat.pow_add, ← Nat.mul_assoc, ← Nat.mul_assoc] at h
  exact Nat.lt_of_mul_lt_mul_right h

/-- `Fmt.round` gives what the exact magnitude rounds to (R257). -/
theorem Fmt.round_spec (f : Fmt) (hf : f.Plain) (hw : f.narrow = false) (rm : Nat) (hr : rm < 4) (neg : Bool) (n : Nat) (hn : n ≠ 0)
    (e : Int) : f.RoundsTo rm neg n e (f.round rm neg n e) := by
  have hp1 : 1 ≤ f.p := Nat.le_of_succ_le hf.digits
  unfold Fmt.round
  simp only [hn, false_and, if_false]
  generalize hq : (Nat.log2 n : Int) + e - (f.p - 1 : Nat) = q
  generalize hqb : max q f.qmin = qb
  have hspan := magnitude_span n f.p e qb hn hp1 (by omega)
  rw [hq] at hspan
  have hnear := roundTo_near rm neg n e qb hr
  generalize hb : roundTo rm neg n e false qb = b at hnear ⊢
  generalize roundTo rm neg n e false q = u1
  have hlow : qb = q ∨ qb = f.qmin ∧ q < f.qmin := by omega
  have hle : b.1 ≤ 2 * 2 ^ (f.p - 1) := hnear.le hspan.1
  have hge : (qb - f.qmin).toNat = 0 ∨ 2 ^ (f.p - 1) ≤ b.1 := by
    rcases hlow with h | ⟨h, -⟩
    · exact .inr (hnear.ge (hspan.2 h))
    · left; omega
  have hqm : f.qmin + (qb - f.qmin).toNat = qb := by omega
  split
  · rename_i hmax
    right
    refine ⟨rfl, ?_, ?_⟩
    · obtain rfl | rfl | rfl | rfl : rm = 0 ∨ rm = 1 ∨ rm = 2 ∨ rm = 3 := by omega
      all_goals cases neg <;> simp [Fmt.overflow, hw]
    · intro k q0 hv
      have hP := Nat.two_pow_pos (f.p - 1)
      have hdiv := Nat.div_add_mod f.maxP (2 ^ (f.p - 1))
      have hml := Nat.mod_lt f.maxP hP
      have hd1 : 1 ≤ f.maxP / 2 ^ (f.p - 1) := (Nat.one_le_div_iff hP).2 hf.normal
      obtain ⟨D, hD⟩ : ∃ D, f.maxP / 2 ^ (f.p - 1) = D + 1 := ⟨f.maxP / 2 ^ (f.p - 1) - 1, by omega⟩
      have hmx : f.maxP = D * 2 ^ (f.p - 1) + (f.maxP % 2 ^ (f.p - 1) + 2 ^ (f.p - 1)) := by
        rw [hD, Nat.mul_add, Nat.mul_comm _ D] at hdiv; omega
      have hv2 := f.val_pat hf false D (f.maxP % 2 ^ (f.p - 1) + 2 ^ (f.p - 1)) (by omega) (.inr (by omega)) (by omega)
      rw [← hmx, if_neg (by omega)] at hv2
      have hs : f.signed false f.maxP = f.maxP := by simp [Fmt.signed]
      rw [hs, hv] at hv2
      injection hv2 with _ hk hq0
      have hkP : 2 ^ (f.p - 1) ≤ k := by omega
      have hk2 : k < 2 * 2 ^ (f.p - 1) := by omega
      rw [← hk] at hmx
      rcases Int.lt_or_le q0 qb with hlt | hle0
      · -- the magnitude has its unit above that of MAX
        have hx : 2 ^ (f.p - 1) * 2 ^ (qb - min e qb).toNat ≤ n * 2 ^ (e - min e qb).toNat := hspan.2 (by omega)
        apply magnitude_lt (min e q0) (Int.le_refl _)
        have h1 : (qb - min e q0).toNat = (qb - min e qb).toNat + (min e qb - min e q0).toNat := by omega
        have h2 : (e - min e q0).toNat = (e - min e qb).toNat + (min e qb - min e q0).toNat := by omega
        have h3 : 2 ^ (f.p - 1) * 2 ^ (qb - min e q0).toNat ≤ n * 2 ^ (e - min e q0).toNat := by
          rw [h1, h2, Nat.pow_add, Nat.pow_add, ← Nat.mul_assoc, ← Nat.mul_assoc]
          exact Nat.mul_le_mul_right _ hx
        have h4 : 2 * 2 ^ (q0 - min e q0).toNat ≤ 2 ^ (qb - min e q0).toNat := by
          rw [show 2 * 2 ^ (q0 - min e q0).toNat = 2 ^ ((q0 - min e q0).toNat + 1) by rw [Nat.pow_succ, Nat.mul_comm]]
          exact Nat.pow_le_pow_right (by omega) (by omega)
        have h5 : 2 ^ (f.p - 1) * (2 * 2 ^ (q0 - min e q0).toNat) ≤ 2 ^ (f.p - 1) * 2 ^ (qb - min e q0).toNat :=
          Nat.mul_le_mul_left _ h4
        have h6 : k * 2 ^ (q0 - min e q0).toNat < 2 * 2 ^ (f.p - 1) * 2 ^ (q0 - min e q0).toNat :=
          Nat.mul_lt_mul_of_pos_right hk2 (Nat.two_pow_pos _)
        have h7 : 2 ^ (f.p - 1) * (2 * 2 ^ (q0 - min e q0).toNat) = 2 * 2 ^ (f.p - 1) * 2 ^ (q0 - min e q0).toNat := by
          rw [← Nat.mul_assoc, Nat.mul_comm _ 2]
        omega
      · rcases Int.lt_or_eq_of_le hle0 with hlt | heq
        · exfalso
          have h1 : (qb - f.qmin).toNat + 1 ≤ D := by omega
          have h2 : ((qb - f.qmin).toNat + 1) * 2 ^ (f.p - 1) ≤ D * 2 ^ (f.p - 1) := Nat.mul_le_mul_right _ h1
          rw [Nat.add_mul] at h2
          omega
        · subst heq
          rcases Nat.lt_or_ge (k * 2 ^ (qb - min e qb).toNat) (n * 2 ^ (e - min e qb).toNat) with h | h
          · exact h
          · exfalso
            have h1 := hnear.le h
            have h2 : (qb - f.qmin).toNat = D := by omega
            rw [h2] at hmax
            omega
  · rename_i hmax
    left
    have hv := f.val_pat hf neg (qb - f.qmin).toNat b.1 hle hge (by omega)
    rw [hqm] at hv
    have hnx : ∀ c : Bool, (if b.2 = true then (if c = true then fUF ||| fNX else fNX) else (0 : BitVec 5)).getLsbD 2 = false ∧
        ((if b.2 = true then (if c = true then fUF ||| fNX else fNX) else (0 : BitVec 5)).getLsbD 4 = true ↔ b.2 = true) := by
      intro c; cases b.2 <;> cases c <;> decide
    have hc := hnear.cut
    by_cases h2 : b.1 = 2 * 2 ^ (f.p - 1)
    · rw [if_pos h2] at hv
      refine ⟨2 ^ (f.p - 1), qb + 1, hv, (hnx _).1, ?_⟩
      intro z x ulp y
      rw [h2] at hnear hc
      rcases Int.lt_or_le qb e with he | he
      · -- both are whole numbers of the unit: nothing is cut
        have hz : z = qb + 1 := by omega
        have hu : ulp = 1 := by simp [ulp, hz]
        have hm : min e qb = qb := by omega
        have hx : n * 2 ^ (e - qb).toNat = 2 * x := by
          rw [show (e - qb).toNat = (e - z).toNat + 1 by omega, Nat.pow_succ, ← Nat.mul_assoc, Nat.mul_comm]
        have ha := hnear.above
        have hb' := hnear.below
        simp only [hm, hx, Int.sub_self, Int.toNat_zero, Nat.pow_zero, Nat.mul_one] at ha hb' hc
        have hy : y = 2 ^ (f.p - 1) := by simp [y, hu]
        have hxy : x = y := by omega
        refine ⟨(hnx _).2.trans (hc.trans ⟨fun h => absurd ?_ h, fun h => absurd hxy h⟩), ?_, ?_, ?_, ?_, ?_, ?_⟩
        · omega
        all_goals intros
        all_goals (try split) <;> omega
      · have hz : z = e := by omega
        have hm : min e qb = e := by omega
        have hu : ulp = 2 * 2 ^ (qb - e).toNat := by
          simp only [ulp, hz]
          rw [show (qb + 1 - e).toNat = (qb - e).toNat + 1 by omega, Nat.pow_succ, Nat.mul_comm]
        have hx : x = n * 2 ^ (e - e).toNat := by simp only [x, hz]
        have hy : y = 2 * 2 ^ (f.p - 1) * 2 ^ (qb - e).toNat := by
          simp only [y]
          rw [hu, ← Nat.mul_assoc, Nat.mul_comm _ 2]
        obtain ⟨-, h3, h4, h5, h6, h7, h8⟩ := hnear
        simp only [hm, ← hx, ← hy] at hc h3 h4 h5 h6 h7 h8
        have hpu := Nat.two_pow_pos (qb - e).toNat
        refine ⟨(hnx _).2.trans hc, by omega, by omega, ?_, h6, h7, h8⟩
        intro h
        have h9 := h5 h
        refine ⟨by omega, by omega, fun h => ?_⟩
        omega
    · rw [if_neg h2] at hv
      exact ⟨b.1, qb, hv, (hnx _).1, (hnx _).2.trans hc, hnear.above, hnear.below, hnear.nearest, hnear.zero, hnear.down, hnear.up⟩

/-- The binary formats have infinities and do not saturate in a conversion. -/
theorem wide_of_mem {f : Fmt} (h : f ∈ binaryFmts) : f.narrow = false ∧ f.inf = true := by
  simp only [binaryFmts, List.mem_cons, List.not_mem_nil, or_false] at h
  obtain rfl | rfl | rfl | rfl := h <;> decide

/-- What `Fmt.roundInt` gives for an exact zero. -/
@[simp] theorem Fmt.roundInt_zero (f : Fmt) (rm : Nat) (e : Int) (z : Bool) : f.roundInt rm 0 e z = (f.signed z 0, 0) := by
  simp [Fmt.roundInt]

/-- What `Fmt.roundInt` gives for any other value. -/
theorem Fmt.roundInt_of_ne (f : Fmt) (rm : Nat) {t : Int} (h : t ≠ 0) (e : Int) (z : Bool) :
    f.roundInt rm t e z = f.round rm (decide (t < 0)) t.natAbs e := by simp [Fmt.roundInt, h]

/-- `Fmt.addVal` of finite values is their exact sum, rounded once (R257). -/
theorem Fmt.addVal_sums (f : Fmt) (h : f ∈ binaryFmts) (rm : Nat) (hr : rm < 4) (sx : Bool) (nx : Nat) (ex : Int) (sy : Bool) (ny : Nat)
    (ey : Int) : f.Sums rm sx nx ex sy ny ey (f.addVal rm (.fin sx nx ex) (.fin sy ny ey)) := by
  have hv : f.addVal rm (.fin sx nx ex) (.fin sy ny ey) = f.roundInt rm
      (sgn sx nx * 2 ^ (ex - min ex ey).toNat + sgn sy ny * 2 ^ (ey - min ex ey).toNat) (min ex ey) (zeroSign rm sx sy) := rfl
  rw [hv]
  constructor
  · intro ht
    rw [ht, Fmt.roundInt_zero]
    rfl
  · intro ht
    rw [f.roundInt_of_ne rm ht]
    exact f.round_spec (plain_of_mem h) (wide_of_mem h).1 rm hr _ _ (by omega) _

end Sys2Proof.Machine
end

