-- ==== Sys2Proof/Tests/Slice0.lean ====
section
/-! SUPPORT. The model's own tests: ill-formed instructions that the checks refuse, words written out from the manual's
encodings, one step of single instructions with results from the manual, and for every statement that has hypotheses a
state and operands that meet them. -/

namespace Sys2Proof.Tests

open Sys2Proof Sys2Proof.Machine

set_option maxRecDepth 20000
set_option linter.unusedVariables false
set_option Elab.async false

/-! ## Ill-formed instructions (R42, R43, R393), one or more for each check -/

/-- A warp with 8 registers per thread, a context, the front end and the handler. -/
def warp8 : DecEnv := { mode := .warp, lim := 8 }
def context : DecEnv := { mode := .vliw }
def frontEnd : DecEnv := { mode := .front }
def inHandler : DecEnv := { mode := .priv }

/-- Step 5: an undefined SUB, kind or condition, CLS = 0b000, and BFX with pos + len > W. -/
theorem test_refuses_undefined :
    Instr.check warp8 (.icmp { sub := 6, t := .n64 }) = some .illegalOp ∧
      Instr.check warp8 (.icmpi { d := 0x38, t := .n64 }) = some .illegalOp ∧
      Instr.check warp8 (.bra { off := 1 }) = some .illegalOp ∧
      Instr.check warp8 (.rel { d := 1 }) = some .illegalOp ∧
      Instr.check warp8 (.bfx { x := 28, c := 4, t := .i32 }) = some .illegalOp ∧
      Instr.check warp8 (.fadd { sub := 1, t := .f32 }) = some .illegalOp := by decide

/-- Step 6: fields that the entry does not use, MOD, RM and X where it takes none, and a predicate above p7. -/
theorem test_refuses_reserved :
    Instr.check warp8 (.mov { b := 1 }) = some .reservedBits ∧
      Instr.check warp8 (.iadd { rm := 1, t := .i32 }) = some .reservedBits ∧
      Instr.check warp8 (.icmp { mod := 8, t := .i32 }) = some .reservedBits ∧
      Instr.check warp8 (.lea { x := 8, t := .n64 }) = some .reservedBits ∧
      Instr.check warp8 (.icmp { d := 8, t := .i32 }) = some .reservedBits ∧
      Instr.check warp8 (.jmp { off := 1, joff := 1 }) = some .reservedBits := by decide

/-- Step 7: a v-register at the allocation, an s-register field with bit 6 set, and an SQPUSH that reaches k62. -/
theorem test_refuses_register :
    Instr.check warp8 (.iadd { d := 8, t := .i32 }) = some .badRegister ∧
      Instr.check warp8 (.iadd { d := 7, t := .i32 }) = none ∧
      Instr.check warp8 (.ldp { d := 7, t := .f64 }) = some .badRegister ∧
      Instr.check frontEnd (.iadd { a := 64, t := .i32 }) = some .badRegister ∧
      Instr.check context (.sqpush { site := .syl 0 true, a := 55 }) = some .badRegister ∧
      Instr.check context (.sqpush { site := .syl 0 true, a := 54 }) = none := by decide

/-- Step 8: a T that the entry does not accept, and byte access outside memory instructions. -/
theorem test_refuses_type :
    Instr.check warp8 (.iadd { t := .f32 }) = some .tagMismatch ∧
      Instr.check warp8 (.fmul { t := .i32 }) = some .tagMismatch ∧
      Instr.check warp8 (.retag { t := .byte }) = some .tagMismatch ∧
      Instr.check warp8 (.ld { t := .byte }) = none := by decide

/-- Step 9: SC of 0b110 or 0b111. -/
theorem test_refuses_scope :
    Instr.check warp8 (.ld { t := .i32, sc := 6 }) = some .badScope ∧
      Instr.check warp8 (.atom { t := .i32, sc := 7 }) = some .badScope ∧
      Instr.check context (.fence { site := .syl 0 true, d := 3, sc := 6 }) = some .badScope := by decide

/-- Step 10: WRITESR to EVP and DEN outside P, to a read-only register everywhere, and ICINV.dev (R39, R41). -/
theorem test_refuses_privilege :
    Instr.check warp8 (.writesr { d := 0x0D }) = some .privileged ∧
      Instr.check inHandler (.writesr { d := 0x0D }) = none ∧
      Instr.check inHandler (.writesr { d := 0x00 }) = some .privileged ∧
      Instr.check warp8 (.icinv { sub := 1 }) = some .privileged ∧
      Instr.check inHandler (.icinv { sub := 1 }) = none := by decide

/-- The first failing check is the one raised (R43). -/
theorem test_refuses_in_order :
    Instr.check warp8 (.icmp { sub := 6, mod := 1, d := 8, t := .f32 }) = some .illegalOp ∧
      Instr.check warp8 (.iadd { mod := 1, d := 8, t := .f32 }) = some .reservedBits ∧
      Instr.check warp8 (.iadd { d := 8, t := .f32 }) = some .badRegister ∧
      Instr.check warp8 (.ld { t := .i32, d := 8, sc := 6 }) = some .badRegister := by decide

/-! ## Decoding: words written out from the encodings of R20 to R30 -/

/-- The instruction that the decoder reads in a mode, where it reads one. -/
def reads (m : Mode) (w : Word) : Option Instr := (decode m w).toOption

/-- The arithmetic word of R20 above its opcode: X 0x81, MOD 5, RM 2, T 4, SUB 0x15, C 12, B 11, A 10, D 9, GM 0b01, PG 5. -/
def arithBits : Nat := 0x8159_2A30_58A1_2D00

/-- The same fields as a record. -/
def arithFields : ArithWord :=
  { g := { gm := .ifT, pg := 5 }, d := 9, a := 10, b := 11, c := 12, sub := 0x15, t := .n64, rm := 2, mod := 5, x := 0x81 }

/-- The syllable of R29 above its opcode: X6 0x21, MOD 5, RM 2, T 4, SUB 0x15, C 12, B 11, A 10, D 9, GM 0b01, PG 5, CL 19, S 1. -/
def sylBits : Nat := 0x8564_A985_944B_6700

/-- The same fields as a record. -/
def sylFields : ArithWord := { arithFields with site := .syl 19 true, x := 0x21 }

/-- The immediate word of R24: T 3, IMM32 0x8000_0005, A 10, D 9, GM 0b10, PG 5. -/
def immBits : Nat := 0x1C00_0000_28A1_3500

/-- The same fields as a record. -/
def immFields : ImmWord := { g := { gm := .ifF, pg := 5 }, d := 9, a := 10, imm := 0x80000005, t := .i64 }

/-- The immediate syllable of R30: T 3, IMM20 0x8_0005, A 10, D 9, GM 0b10, PG 5, CL 19, S 0. -/
def immSylBits : Nat := 0x001C_0002_944D_6600

/-- The same fields as a record. -/
def immSylFields : ImmWord := { immFields with site := .syl 19 false, imm := 0x80005 }

/-- The memory word of R25: CH 2, SC 5, T 0xE, OFF20 0x8_0001, B 11, A 10, D 9, GM 0b11, PG 5. -/
def memBits : Nat := 0x57A0_0004_58A1_3D00

/-- The same fields as a record. -/
def memFields : MemWord :=
  { g := { gm := .ifU, pg := 5 }, d := 9, a := 10, b := 11, off := 0x80001, t := .byte, sc := 5, ch := 2 }

/-- The atomic word of R26: CH 2, SC 5, T 4, SUB 0x13, C 12, B 11, A 10, D 9, GM 0b01, PG 5. -/
def atomBits : Nat := 0x0055_2630_58A1_2D00

/-- The same fields as a record. -/
def atomFields : AtomWord :=
  { g := { gm := .ifT, pg := 5 }, d := 9, a := 10, b := 11, c := 12, sub := 0x13, t := .n64, sc := 5, ch := 2 }

/-- The branch word of R27: JOFF16 0x8001, OFF20 0x8_0003, CLS 0b101, PB 3, GM 0b01, PG 5. -/
def branchBits : Nat := 0x0080_0180_0035_6D00

/-- The same fields as a record. -/
def branchFields : BranchWord := { g := { gm := .ifT, pg := 5 }, pb := 3, cls := 5, off := 0x80003, joff := 0x8001 }

/-- The branch syllable of R30: OFF20 0x8_0003, CLS 0b101, PB 3, GM 0b01, PG 5, CL 19, S 1. -/
def branchSylBits : Nat := 0x0004_0001_815B_6700

/-- The same fields as a record. -/
def branchSylFields : BranchWord := { branchFields with site := .syl 19 true, joff := 0 }

/-- Opcodes 0x00 to 0x1F in a warp or the front end (R38). -/
theorem test_decode_control_words :
    (∀ x ∈ ([(0x00, .nop), (0x04, .ret), (0x05, .jmpr), (0x07, .exit), (0x08, .regroup), (0x09, .vote), (0x0A, .bar),
        (0x0B, .bararr), (0x11, .evunbind), (0x12, .waitany), (0x13, .evmask), (0x14, .evpend), (0x15, .evclr), (0x16, .send),
        (0x17, .mbread), (0x18, .region), (0x19, .sleepuntil), (0x1A, .yield), (0x1B, .popd), (0x1D, .nexttile),
        (0x1E, .sqpush)] : List (Nat × (ArithWord → Instr))),
      reads .warp (.ofNat 64 (arithBits + x.1)) = some (x.2 arithFields)) ∧
    reads .front (.ofNat 64 (arithBits + 0x1C)) = some (.pushd arithFields) ∧
    (∀ x ∈ ([(0x01, .bra), (0x02, .jmp), (0x03, .call), (0x0C, .collapse)] : List (Nat × (BranchWord → Instr))),
      reads .warp (.ofNat 64 (branchBits + x.1)) = some (x.2 branchFields)) ∧
    (∀ x ∈ ([(0x06, .join), (0x1F, .trap)] : List (Nat × (ImmWord → Instr))),
      reads .warp (.ofNat 64 (immBits + x.1)) = some (x.2 immFields)) ∧
    reads .warp 0x81800180003D6D10 = some (.evbind (.word { gm := .ifT, pg := 5 } 3 5 0x80003 0x8001 true 0x81)) := by decide

/-- Opcodes 0x20 to 0x3B: the integer and logic groups (R38). -/
theorem test_decode_integer_words :
    ∀ x ∈ ([(0x20, .iadd), (0x21, .isub), (0x22, .imul), (0x23, .imulh), (0x24, .imad), (0x25, .idiv), (0x26, .irem),
        (0x27, .imin), (0x28, .imax), (0x29, .iabs), (0x2A, .ineg), (0x2B, .icmp), (0x2C, .popc), (0x2D, .clz), (0x2E, .brev),
        (0x2F, .ctz), (0x30, .and), (0x31, .or), (0x32, .xor), (0x33, .not), (0x34, .andn), (0x35, .shl), (0x36, .shr),
        (0x37, .sar), (0x38, .rotl), (0x39, .bfx), (0x3A, .bfi), (0x3B, .lea)] : List (Nat × (ArithWord → Instr))),
      reads .warp (.ofNat 64 (arithBits + x.1)) = some (x.2 arithFields) ∧
        reads .vliw (.ofNat 64 (sylBits + x.1)) = some (x.2 sylFields) := by decide

/-- Opcodes 0x40 to 0x5A: immediates, moves and the lane group (R38). -/
theorem test_decode_move_words :
    (∀ x ∈ ([(0x40, .movi), (0x41, .movhi), (0x42, .iaddi), (0x43, .imuli), (0x44, .andi), (0x45, .ori), (0x46, .xori),
        (0x47, .shli), (0x48, .shri), (0x49, .sari), (0x4A, .icmpi)] : List (Nat × (ImmWord → Instr))),
      reads .warp (.ofNat 64 (immBits + x.1)) = some (x.2 immFields) ∧
        reads .vliw (.ofNat 64 (immSylBits + x.1)) = some (x.2 immSylFields)) ∧
    (∀ x ∈ ([(0x4B, .mov), (0x4C, .retag), (0x4D, .sel), (0x4E, .readsr), (0x4F, .writesr), (0x50, .shfl), (0x51, .bcast),
        (0x52, .scan), (0x53, .reduce), (0x54, .compact), (0x55, .prset), (0x56, .prtoi), (0x57, .itopr),
        (0x58, .matchLanes)] : List (Nat × (ArithWord → Instr))),
      reads .warp (.ofNat 64 (arithBits + x.1)) = some (x.2 arithFields)) ∧
    reads .vliw (.ofNat 64 (sylBits + 0x59)) = some (.xmov sylFields) ∧
    reads .vliw (.ofNat 64 (sylBits + 0x5A)) = some (.xbcast sylFields) := by decide

/-- Opcodes 0x60 to 0x7F: floating point and intervals (R38). -/
theorem test_decode_float_words :
    ∀ x ∈ ([(0x60, .fadd), (0x61, .fsub), (0x62, .fmul), (0x63, .ffma), (0x64, .fmin), (0x65, .fmax), (0x66, .fdiv),
        (0x67, .fsqrt), (0x68, .frcp), (0x69, .frsq), (0x6A, .fexp2), (0x6B, .flog2), (0x6C, .fcmp), (0x6D, .fclass),
        (0x6E, .frnd), (0x6F, .fdot), (0x70, .cvt), (0x71, .ivmake), (0x72, .ivlo), (0x73, .ivhi), (0x74, .ivmid),
        (0x75, .ivwid), (0x76, .ivhull), (0x77, .ivisect), (0x78, .ivsplit), (0x79, .ivpop), (0x7A, .ivsqr), (0x7B, .ivabs),
        (0x7C, .ivcont), (0x7D, .fsinpi), (0x7E, .fcospi), (0x7F, .qnt)] : List (Nat × (ArithWord → Instr))),
      reads .warp (.ofNat 64 (arithBits + x.1)) = some (x.2 arithFields) := by decide

/-- Opcodes 0x80 to 0x9B: memory, synchronisation, the heap and tiles (R38). -/
theorem test_decode_memory_words :
    (∀ x ∈ ([(0x80, .ld), (0x81, .st), (0x82, .ldp), (0x83, .stp), (0x87, .pref), (0x88, .demote), (0x89, .fence), (0x8A, .acq),
        (0x8B, .rel)] : List (Nat × (MemWord → Instr))),
      reads .warp (.ofNat 64 (memBits + x.1)) = some (x.2 memFields)) ∧
    (∀ x ∈ ([(0x84, .atom), (0x85, .cas), (0x86, .amx), (0x8E, .signal), (0x8F, .swait)] : List (Nat × (AtomWord → Instr))),
      reads .warp (.ofNat 64 (atomBits + x.1)) = some (x.2 atomFields)) ∧
    (∀ x ∈ ([(0x8C, .bind), (0x8D, .unbind), (0x90, .alloc), (0x91, .free), (0x92, .talloc), (0x93, .tfree), (0x94, .tinfo),
        (0x95, .ldt), (0x96, .stt), (0x97, .atomt), (0x98, .tfill)] : List (Nat × (ArithWord → Instr))),
      reads .warp (.ofNat 64 (arithBits + x.1)) = some (x.2 arithFields)) := by decide

/-- Opcodes 0xA0 to 0xE9 outside contexts: engines, the matrix, debug and the privileged group (R38). -/
theorem test_decode_engine_words :
    (∀ x ∈ ([(0xA0, .copy), (0xA1, .gather), (0xA2, .scatter), (0xA4, .peerwr), (0xA5, .peerrd), (0xA6, .peersig),
        (0xA8, .cmdstat), (0xB0, .mma), (0xB3, .mloadb), (0xB4, .mamap), (0xB5, .mdrain), (0xB6, .mhad), (0xB7, .mzero),
        (0xB8, .mbmap), (0xC0, .bkpt), (0xC2, .pmread), (0xC3, .pmctl), (0xC4, .trmark), (0xC5, .lclk),
        (0xD3, .icinv)] : List (Nat × (ArithWord → Instr))),
      reads .warp (.ofNat 64 (arithBits + x.1)) = some (x.2 arithFields)) ∧
    (∀ x ∈ ([(0xA3, .coll), (0xC1, .pmcfg), (0xC6, .watch), (0xD2, .tret), (0xE0, .sread), (0xE1, .swrite), (0xE2, .tlbinv),
        (0xE3, .ctxsave), (0xE4, .ctxload), (0xE5, .lgdiv), (0xE6, .errread), (0xE7, .portreply), (0xE8, .preempt),
        (0xE9, .halt)] : List (Nat × (ArithWord → Instr))),
      reads .priv (.ofNat 64 (arithBits + x.1)) = some (x.2 arithFields)) := by decide

/-- Syllables (R29, R30, R38): the opcodes of contexts alone, and the forms of their own; MBEAT's operation stands in SUB[1:0]. -/
theorem test_decode_syllables :
    (∀ x ∈ ([(0x0E, .loop), (0x0F, .endloop), (0x9B, .qstat), (0xA7, .rqpop), (0xB2, .mscale), (0xB9, .mretire),
        (0xD0, .syssend), (0xD1, .sysrecv), (0x97, .atomt), (0x1E, .sqpush)] : List (Nat × (ArithWord → Instr))),
      reads .vliw (.ofNat 64 (sylBits + x.1)) = some (x.2 sylFields)) ∧
    (∀ x ∈ ([(0x01, .bra), (0x02, .jmp), (0x03, .call), (0x0D, .expand)] : List (Nat × (BranchWord → Instr))),
      reads .vliw (.ofNat 64 (branchSylBits + x.1)) = some (x.2 branchSylFields)) ∧
    reads .vliw (.ofNat 64 (immSylBits + 0x1F)) = some (.trap immSylFields) ∧
    (∀ x ∈ ([(0x89, .fence), (0x8A, .acq), (0x8B, .rel)] : List (Nat × (MemWord → Instr))),
      reads .vliw (.ofNat 64 (0x0004_A805_9403_6700 + x.1)) = some (x.2 {
        site := .syl 19 true, g := { gm := .ifT, pg := 5 }, a := 10, b := 11, t := .n64, sc := 5, d := 2 })) ∧
    (∀ x ∈ ([(0x8E, .signal), (0x8F, .swait)] : List (Nat × (AtomWord → Instr))),
      reads .vliw (.ofNat 64 (0x0004_A985_944B_6700 + x.1)) = some (x.2 {
        site := .syl 19 true, g := { gm := .ifT, pg := 5 }, d := 9, a := 10, b := 11, c := 12, sub := 2, t := .n64, sc := 5 })) ∧
    (∀ x ∈ ([(0x99, .pusha), (0x9A, .pushs)] : List (Nat × (AddrWord → Instr))),
      reads .vliw (.ofNat 64 (0x0024_0000_9403_6700 + x.1)) = some (x.2 {
        cl := 19, stop := true, g := { gm := .ifT, pg := 5 }, a := 10, t := .n64, off := 0x80001 }) ∧
      reads .vliw (.ofNat 64 (0x42A0_0005_9403_6600 + x.1)) = some (x.2 {
        cl := 19, g := { gm := .ifT, pg := 5 }, a := 10, t := .n64, tile := true, h := 0x21, col := 11 })) ∧
    reads .vliw (.ofNat 64 (sylBits + 0x10)) = some (.evbind (.syl sylFields)) ∧
    (∀ x ∈ ([(0, .mbeatPush), (1, .mbeatAcc), (2, .mbeatShift), (3, .mbeatDrain)] : List (Nat × (ArithWord → Instr))),
      reads .vliw (.ofNat 64 (0x0000_0000_0000_01B1 + x.1 * 2 ^ 43)) =
        some (x.2 { site := .syl 0 true, sub := .ofNat 5 x.1 })) := by decide

/-- Words of `filtsum` and its neighbours that the manual writes out (R24, R25, R27, R30, R79, R85, R90). -/
theorem test_decode_written_control :
    reads .warp 0x200000002810_6047 = some (.shli { d := 3, a := 1, imm := 5, t := .n64 }) ∧
      reads .warp 0x0000_0400_0031_2001 = some (.bra { pb := 1, cls := 1, off := 3, joff := 4 }) ∧
      reads .warp 0x0000_0000_0022_E001 = some (.bra { pb := 7, cls := 2, off := 2 }) ∧
      reads .warp 0x0100_0000_4020_6008 = some (.regroup { d := 3, a := 2, b := 8, x := 1 }) ∧
      reads .warp 0x0000_0000_00A0_200C = some (.collapse { pb := 1, off := 10 }) ∧
      reads .warp 0x0000_0000_10D0_0006 = some (.join { a := 0x0D, imm := 2 }) ∧
      reads .warp 0x0000_0000_0040_E009 = some (.vote { d := 7, a := 4 }) ∧
      reads .warp 0x0600_2200_0000_000A = some (.bar { sub := 17, x := 6 }) ∧
      reads .vliw 0x000F_FFFE_0208_0742 =
        some (.iaddi { site := .syl 3 true, d := 1, a := 1, imm := 0xFFFFC, t := .i32 }) ∧
      reads .vliw 0x0007_FFFC_0088_0501 = some (.bra { site := .syl 2 true, pb := 1, cls := 2, off := 0xFFFF8 }) ∧
      reads .vliw 0x0001_0800_1040_2059 =
        some (.xmov { site := .syl 16 false, d := 8, a := 8, sub := 1, t := .i32 }) := by decide

/-- Memory and synchronisation words that the manual writes out (R176, R183 to R191). -/
theorem test_decode_written_memory :
    reads .warp 0x2040_0000_0031_0880 = some (.ld { g := { gm := .ifT }, d := 8, a := 3, t := .i32, ch := 1 }) ∧
      reads .warp 0x0180_0040_0041_4082 = some (.ldp { d := 10, a := 4, off := 16, t := .f64 }) ∧
      reads .warp 0x000D_0028_4041_2085 = some (.cas { d := 9, a := 4, b := 8, c := 10, t := .n64, sc := 3 }) ∧
      reads .warp 0x1000_0000_0000_6089 = some (.fence { d := 3, sc := 4 }) ∧
      reads .warp 0x1000_0000_1820_208A = some (.acq { d := 1, a := 2, b := 3, sc := 4 }) ∧
      reads .warp 0x0000_0014_2020_408C = some (.bind { d := 2, a := 2, b := 4, c := 5 }) ∧
      reads .warp 0x0011_041C_0060_008F = some (.swait { a := 6, c := 7, sub := 2, t := .n64, sc := 4 }) ∧
      reads .vliw 0x0010_0002_0A00_0699 = some (.pusha { cl := 3, a := 5, t := .n32, off := 4 }) ∧
      reads .vliw 0x0488_0003_8C00_0099 = some (.pusha { a := 6, t := .i32, tile := true, h := 2, col := 7 }) ∧
      reads .warp 0x0000_4000_3860_0092 = some (.talloc { a := 6, b := 7, t := .i32 }) ∧
      reads .warp 0x0000_4000_0892_2C95 = some (.ldt { g := { gm := .ifT, pg := 4 }, d := 17, a := 9, b := 1, t := .i32 }) ∧
      reads .vliw 0x0001_07F9_8FF0_1297 =
        some (.atomt { site := .syl 9 false, d := 62, a := 7, b := 51, c := 63, t := .i32 }) := by decide

/-- Float and interval words that the manual writes out (R272, R277, R281, R284, R287). -/
theorem test_decode_written_float :
    reads .warp 0x0002_4000_3890_336C = some (.fcmp { g := { gm := .ifF, pg := 3 }, d := 1, a := 9, b := 7, t := .iv32 }) ∧
      reads .warp 0x0011_4044_E162_2063 =
        some (.ffma { g := {}, d := 17, a := 22, b := 28, c := 17, t := .f32, mod := 1 }) ∧
      reads .warp 0x0002_4200_4020_4077 = some (.ivisect { d := 2, a := 2, b := 8, sub := 1, t := .iv32 }) ∧
      reads .warp 0x0002_4200_2800_4078 = some (.ivsplit { d := 2, b := 5, sub := 1, t := .iv32 }) ∧
      reads .warp 0x0000_0800_2800_0079 = some (.ivpop { b := 5, sub := 4 }) := by decide

/-! ## States for the tests -/

/-- A register of each tag by its number: n < 14 has tag code n; 14 and 15 hold counts; from 16 on addresses, indexes and
values that the tests name. -/
def regsOf (k : Nat) : List Reg :=
  [mkReg 5 .b64, mkReg (-7) .i32, mkReg 7 .n32, mkReg (-3) .i64, mkReg 9 .n64, mkReg 0x3F800000 .f32,
    mkReg 0x3FF0000000000000 .f64, mkReg 0x3C003C003C003C00 .f16x4, mkReg 0x3F803F803F803F80 .bf16x4,
    mkReg 0x400000003F800000 .iv32, mkReg 0x3838383838383838 .f8x8, mkReg 0x3C3C3C3C3C3C3C3C .e5x8,
    mkReg 0x2222222222222222 .f4x16, mkReg 0x0101010101010101 .lg6x8, mkReg 2 .n64, mkReg 3 .n32,
    mkReg (.ofNat 64 (0x10000 + 16 * k)) .b64, mkReg 0x10040 .n64, mkReg (.ofNat 64 (5 + k)) .n32, mkReg (-3) .i64,
    mkReg 0x11000 .b64, mkReg 1 .n32, mkReg 0 .n64, mkReg 0x20010 .n64, mkReg 34 .n64, mkReg 0x30008 .n64, mkReg 0x12 .n64,
    mkReg 0x100 .n64, mkReg 1 .i64, mkReg 0 .i32, mkReg 0 .und, mkReg 0 .und]

/-- Lane k of the tests: predicates F, T, U and F, T, U, F. -/
def laneOf (k : Nat) : Lane := { regs := regsOf k, preds := [.f, .t, .u, .f, .t, .u, .f] }

/-- Core 0 with one unit of a mode at its first instruction, and the turn is its; n lanes or clusters, changed by f. -/
def stateOf (m : Mode) (n : Nat) (f : ProgUnit → ProgUnit := id) : State :=
  let s : State := State.reset.place m 0
  let u := (placeUnit m 0).1
  let s : State := { s with cur := { core := 0, unit := u, split := 0 }, agenda := [] }
  s.modUnit 0 u fun p => f { p with
    lanes := (List.range n).map laneOf
    k := if m = Mode.vliw then n else p.k
    splits := p.splits.map fun x => { x with mask := if m = Mode.warp then .ofNat 128 (2 ^ n - 1) else x.mask } }

/-- A warp of three lanes, a context of 16 clusters, the front end and the handler. -/
def warp3 : State := stateOf .warp 3
def context16 : State := stateOf .vliw 16
def front1 : State := stateOf .front 1
def handler1 : State := stateOf .priv 1

/-- Every lane's registers set. -/
def putRegs (l : Nat → List (Nat × Reg)) (p : ProgUnit) : ProgUnit :=
  { p with lanes := p.lanes.mapIdx fun k x => { x with regs := (l k).foldl (fun r e => r.set e.1 e.2) x.regs } }

/-- A warp of one lane with registers set. -/
def warpWith (l : List (Nat × Reg)) : State := stateOf .warp 1 (putRegs fun _ => l)

/-- A register's value and tag after a step. -/
def regAfter (r : Host.Outcome State Fault Refusal) (u k n : Nat) : Option (Word × Ty) :=
  match r with
  | .next t => (t.unit 0 u).map fun p => ((p.read k n).v, (p.read k n).tag)
  | _ => none

/-- What a unit of core 0 shows after a step. -/
def unitAfter (α : Type) (r : Host.Outcome State Fault Refusal) (u : Nat) (f : ProgUnit → α) : Option α :=
  match r with
  | .next t => (t.unit 0 u).map f
  | _ => none

/-! ## One step of single instructions -/

/-- R128: BFX.I32 of 0xF30 at 4, length 8. -/
theorem test_bfx_signed :
    regAfter (exec (.bfx { d := 2, a := 1, c := 7, x := 4, t := .i32 }) (warpWith [(1, mkReg 0xF30 .i32)])) 0 0 2 =
      some (0xFFFFFFFFFFFFFFF3, .i32) := by decide +kernel

/-- R127: SAR.N32 of 0x8000_0000 by 4, and SHL and ROTL by more than the width. -/
theorem test_shifts :
    regAfter (exec (.sar { d := 2, a := 1, b := 14, t := .n32 })
        (warpWith [(1, mkReg 0x80000000 .n32), (14, mkReg 4 .n64)])) 0 0 2 = some (0xF8000000, .n32) ∧
      regAfter (exec (.shl { d := 2, a := 1, b := 14, t := .n32 })
        (warpWith [(1, mkReg 0x80000001 .n32), (14, mkReg 32 .n64)])) 0 0 2 = some (0, .n32) ∧
      regAfter (exec (.rotl { d := 2, a := 1, b := 14, t := .n32 })
        (warpWith [(1, mkReg 0x80000001 .n32), (14, mkReg 33 .n64)])) 0 0 2 = some (3, .n32) := by decide +kernel

/-- R131: MOVHI above 0x89AB_CDEF. -/
theorem test_movhi :
    regAfter (exec (.movhi { d := 6, a := 6, imm := 0x01234567, t := .n64 }) (warpWith [(6, mkReg 0x89ABCDEF .n64)])) 0 0 6 =
      some (0x0123456789ABCDEF, .n64) := by decide +kernel

/-- R121, R122: an I32 sum wraps, and clamps with `.sat`. -/
theorem test_iadd_ends :
    regAfter (exec (.iadd { d := 2, a := 1, b := 29, t := .i32 })
        (warpWith [(1, mkReg 0x7FFFFFFF .i32), (29, mkReg 1 .i32)])) 0 0 2 = some (0xFFFFFFFF80000000, .i32) ∧
      regAfter (exec (.iadd { d := 2, a := 1, b := 29, t := .i32, mod := 8 })
        (warpWith [(1, mkReg 0x7FFFFFFF .i32), (29, mkReg 1 .i32)])) 0 0 2 = some (0x7FFFFFFF, .i32) := by decide +kernel

/-- R123: IMULH.N64 of 2^63 and 6, and CLZ of 0. -/
theorem test_imulh_clz :
    regAfter (exec (.imulh { d := 2, a := 4, b := 14, t := .n64 })
        (warpWith [(4, mkReg 0x8000000000000000 .n64), (14, mkReg 6 .n64)])) 0 0 2 = some (3, .n64) ∧
      regAfter (exec (.clz { d := 2, a := 29, t := .i32 }) (warpWith [])) 0 0 2 = some (32, .n32) := by decide +kernel

/-- R124: −7 by 2 is −3, remainder −1. -/
theorem test_divide :
    regAfter (exec (.idiv { d := 2, a := 1, b := 15, t := .i32 }) (warpWith [(15, mkReg 2 .i32)])) 0 0 2 =
        some (0xFFFFFFFFFFFFFFFD, .i32) ∧
      regAfter (exec (.irem { d := 2, a := 1, b := 15, t := .i32 }) (warpWith [(15, mkReg 2 .i32)])) 0 0 2 =
        some (0xFFFFFFFFFFFFFFFF, .i32) := by decide +kernel

/-- R124: a zero divisor stops the unit with INT_DIVZERO and writes nothing. -/
theorem test_divide_by_zero :
    unitAfter _ (exec (.idiv { d := 2, a := 1, b := 29, t := .i32 }) warp3) 0
      (fun p => (p.trap.map (·.cause), p.trap.map (·.mask), (p.read 0 2).v)) = some (some .intDivzero, some 7, 7) := by
  decide +kernel

/-- R125: −7 < 7 by I32, as N32 it is not. -/
theorem test_icmp_signedness :
    unitAfter _ (exec (.icmp { d := 0, a := 1, b := 29, sub := 2, t := .i32 }) warp3) 0 (fun p => (p.lane 0).pred 0) = some .t ∧
      unitAfter _ (exec (.icmp { d := 1, a := 1, b := 15, sub := 2, t := .n32 })
        (warpWith [(1, mkReg 0xFFFFFFF9 .n32)])) 0 (fun p => (p.lane 0).pred 1) = some .f := by decide +kernel

/-- R126: a logic result is tagged B64, whatever T and the sources' tags. -/
theorem test_and_tag :
    regAfter (exec (.and { d := 4, a := 1, b := 15, t := .n64 }) warp3) 0 0 4 = some (1, .b64) := by decide +kernel

/-- R88: SEL under U takes C. -/
theorem test_sel_unknown :
    regAfter (exec (.sel { d := 4, a := 1, b := 2, c := 3, sub := 2 }) warp3) 0 0 4 = some (-3, .i64) := by decide +kernel

/-- R86: U AND F is F, U XOR T is U. -/
theorem test_prset_unknown :
    unitAfter _ (exec (.prset { d := 6, a := 2, b := 0, sub := 1 }) warp3) 0 (fun p => (p.lane 0).pred 6) = some .f ∧
      unitAfter _ (exec (.prset { d := 6, a := 2, b := 1, sub := 4 }) warp3) 0 (fun p => (p.lane 0).pred 6) = some .u := by
  decide +kernel

/-- R40, R133: LANEID differs per lane. -/
theorem test_readsr_laneid :
    regAfter (exec (.readsr { d := 4, a := 1, t := .n32 }) warp3) 0 2 4 = some (2, .n32) := by decide +kernel

/-- R136: SHFL.down by one; the last lane has no source and keeps its own. -/
theorem test_shfl_down :
    regAfter (exec (.shfl { d := 4, a := 18, x := 1, sub := 6 }) warp3) 0 0 4 = some (6, .n32) ∧
      regAfter (exec (.shfl { d := 4, a := 18, x := 1, sub := 6 }) warp3) 0 2 4 = some (7, .n32) := by decide +kernel

/-- R139: the SCAN and the REDUCE of 1.0, 2^24, 1.0 and −2^24. -/
def scanState : State :=
  stateOf .warp 4 (putRegs fun k => [(4, mkReg (if k = 1 then 0x4B800000 else if k = 3 then 0xCB800000 else 0x3F800000) .f32)])

theorem test_scan_tree :
    (List.range 4).map (regAfter (exec (.scan { d := 5, a := 4, t := .f32 }) scanState) 0 · 5) =
        [some (0x3F800000, .f32), some (0x4B800000, .f32), some (0x4B800000, .f32), some (0x3F800000, .f32)] ∧
      unitAfter _ (exec (.scan { d := 5, a := 4, t := .f32 }) scanState) 0 (·.fpflags) = some 16 := by decide +kernel

theorem test_reduce_tree :
    (List.range 4).map (regAfter (exec (.reduce { d := 5, a := 4, t := .f32 }) scanState) 0 · 5) =
      List.replicate 4 (some (0x3F800000, .f32)) := by decide +kernel

/-- R113: XMOV.add by 16 of 32 clusters would leave the upper 16; here by 8 of 16. -/
theorem test_xmov_add :
    regAfter (exec (.xmov { site := .syl 8 true, d := 8, a := 18, sub := 1, t := .n32 }) context16) 16 0 8 =
        some (18, .n32) ∧
      regAfter (exec (.xmov { site := .syl 8 true, d := 8, a := 18, sub := 1, t := .n32 }) context16) 16 8 8 =
        some (0x3F803F803F803F80, .bf16x4) := by decide +kernel

/-- R274: FMUL.IV32 of [0.1, 0.1] and [3, 3], and the scalar product of its upper bound. -/
theorem test_fmul_interval :
    regAfter (exec (.fmul { d := 3, a := 1, b := 2, t := .iv32 })
        (warpWith [(1, mkReg 0x3DCCCCCD3DCCCCCC .iv32), (2, mkReg 0x4040000040400000 .iv32)])) 0 0 3 =
        some (0x3E99999A3E999999, .iv32) ∧
      regAfter (exec (.fmul { d := 3, a := 1, b := 2, t := .f32 })
        (warpWith [(1, mkReg 0x3DCCCCCD .f32), (2, mkReg 0x40400000 .f32)])) 0 0 3 = some (0x3E99999A, .f32) := by
  decide +kernel

/-- R275: [−1, −1] by [−4, 0] is [0.25, +∞]. -/
theorem test_fdiv_interval_zero :
    regAfter (exec (.fdiv { d := 3, a := 1, b := 2, t := .iv32 })
      (warpWith [(1, mkReg 0xBF800000BF800000 .iv32), (2, mkReg 0x00000000C0800000 .iv32)])) 0 0 3 =
      some (0x7F8000003E800000, .iv32) := by decide +kernel

/-- R273: FDIV by zero gives ∞ and DZ; 0 / 0 gives the default NaN and INV. -/
theorem test_fdiv_zero :
    unitAfter _ (exec (.fdiv { d := 3, a := 5, b := 2, t := .f32 }) (warpWith [(2, mkReg 0x80000000 .f32)])) 0
        (fun p => ((p.read 0 3).v, p.fpflags)) = some (0xFF800000, 2) ∧
      unitAfter _ (exec (.fdiv { d := 3, a := 2, b := 2, t := .f32 }) (warpWith [(2, mkReg 0 .f32)])) 0
        (fun p => ((p.read 0 3).v, p.fpflags)) = some (0x7FC00000, 1) := by decide +kernel

/-- R276: FRSQ of −0 is −∞ with DZ, FEXP2 of 10 is 1024, FLOG2 of 2^−3 is −3, FSINPI of 1/2 is 1, each exact. -/
theorem test_functions_exact :
    (rsqVal 0 (fmt32.val 0x80000000), exp2Val 0 (fmt32.val 0x41200000), log2Val 0 (fmt32.val 0x3E000000),
      sinpiVal 0 (fmt32.val 0x3F000000)) =
      ((0xFF800000, 2), (0x44800000, 0), (0xC0400000, 0), (0x3F800000, 0)) := by decide +kernel

/-- R277: [1, 2] and [2, 3] touch at 2: .le is T, .gt F, and .eq U. -/
def touching : State := warpWith [(1, mkReg 0x400000003F800000 .iv32), (2, mkReg 0x4040000040000000 .iv32)]

theorem test_fcmp_touching :
    (unitAfter _ (exec (.fcmp { d := 0, a := 1, b := 2, sub := 3, t := .iv32 }) touching) 0 (fun p => (p.lane 0).pred 0),
      unitAfter _ (exec (.fcmp { d := 0, a := 1, b := 2, sub := 4, t := .iv32 }) touching) 0 (fun p => (p.lane 0).pred 0),
      unitAfter _ (exec (.fcmp { d := 0, a := 1, b := 2, sub := 0, t := .iv32 }) touching) 0 (fun p => (p.lane 0).pred 0)) =
      (some .t, some .f, some .u) := by decide +kernel

/-- R278, R279: FCLASS of −0, and FRND of −0.3 to nearest gives −0. -/
theorem test_fclass_frnd :
    regAfter (exec (.fclass { d := 3, a := 5, t := .f32 }) (warpWith [(5, mkReg 0x80000000 .f32)])) 0 0 3 = some (8, .n32) ∧
      regAfter (exec (.frnd { d := 3, a := 5, t := .f32 }) (warpWith [(5, mkReg 0xBE99999A .f32)])) 0 0 3 =
        some (0x80000000, .f32) := by decide +kernel

/-- R282: 3.0 becomes the LG6 code 6, with NX. -/
theorem test_cvt_lg6 : toLg6 0x40400000 = (6, 16) := by decide +kernel

/-- R283: QNT of 1.0, 3.0, −10.0 and 0.4 to E4M3. -/
def qntState : State :=
  stateOf .warp 4 (putRegs fun k =>
    [(4, mkReg ([0x3F800000, 0x40400000, 0xC1200000, 0x3ECCCCCD][k]?.getD 0) .f32)])

theorem test_qnt_block :
    (List.range 4).map (regAfter (exec (.qnt { d := 6, a := 4, t := .f8x8 }) qntState) 0 · 6) =
        [some (0x7A60, .n32), some (0x7A6C, .n32), some (0x7AFA, .n32), some (0x7A55, .n32)] ∧
      unitAfter _ (exec (.qnt { d := 6, a := 4, t := .f8x8 }) qntState) 0 (·.fpflags) = some 16 := by decide +kernel

/-- R285: the midpoint of [−2, −1.25]. -/
theorem test_ivmid :
    regAfter (exec (.ivmid { d := 3, a := 1, t := .iv32 }) (warpWith [(1, mkReg 0xBFA00000C0000000 .iv32)])) 0 0 3 =
      some (0xBFD00000, .f32) := by decide +kernel

/-- R284: the meet of [1, 2] and [4, 5] is empty. -/
theorem test_ivisect_empty :
    regAfter (exec (.ivisect { d := 3, a := 9, b := 2, t := .iv32 }) (warpWith [(2, mkReg 0x40A0000040800000 .iv32)])) 0 0 3 =
      some (0xFF8000007F800000, .iv32) := by decide +kernel

/-- R76: BRA.t p1 with a join; all lanes take it, so none is deferred. -/
theorem test_bra_all_take :
    unitAfter _ (exec (.bra { pb := 1, cls := 2, off := 4, joff := 8 }) warp3) 0
      (fun p => ((p.split 0).pc, p.div.map fun e => (e.dmask, e.owed))) = some (.ofNat 64 (placeAt + 32), [(0, 7)]) := by
  decide +kernel

/-- R82: EXIT under p1.t retires the whole warp, under p0.t nobody. -/
theorem test_exit_guarded :
    (match exec (.exit { g := { gm := .ifT, pg := 1 } }) warp3 with | .next t => (t.unit 0 0).isNone | _ => false) = true ∧
      unitAfter _ (exec (.exit { g := { gm := .ifT, pg := 0 } }) warp3) 0 (fun p => (p.split 0).mask) = some 7 := by
  decide +kernel

/-- R112: LOOP with a count of 0 counts 1. -/
theorem test_loop_zero :
    unitAfter _ (exec (.loop { site := .syl 0 true, a := 15, t := .n32 }) (stateOf .vliw 16 (putRegs fun _ => [(15, mkReg 0 .n32)]))) 16
      (fun p => p.loops.map (·.count)) = some [1] := by decide +kernel

/-- R148, R174: ST holds the low four bytes of lane 0 in the pail, least significant first. -/
theorem test_st_held :
    unitAfter _ (exec (.st { a := 16, b := 18, t := .n32 }) (stateOf .warp 1)) 0
      (fun p => p.pail.map fun h => h.items.map fun i => (i.place, i.bytes)) =
      some [[(.phys 0x10000, [5, 0, 0, 0])]] := by decide +kernel

/-- R174: LD.I32 sign-extends what memory holds. -/
theorem test_ld_extends :
    regAfter (exec (.ld { d := 4, a := 16, t := .i32 })
      { stateOf .warp 1 with mem := cellWrite (stateOf .warp 1).mem 0x10000 [1, 2, 3, 0x84] }) 0 0 4 =
      some (0xFFFFFFFF84030201, .i32) := by decide +kernel

/-- R183: three lanes add 1 to one word, one after another in lane order. -/
theorem test_atom_order :
    (List.range 3).map (regAfter (exec (.atom { d := 4, a := 20, b := 21, t := .n32, sc := 4 }) warp3) 0 · 4) =
      [some (0, .n32), some (1, .n32), some (2, .n32)] := by decide +kernel

/-- R209: the shape and place words of `ring`'s h0, a handle of 2 rows and 64 columns of I32 at base 0. -/
theorem test_tinfo_words :
    let e : TileEntry := { newTile .block 0 .i32 2 64 0 with base := 0 }
    (e.shapeWord, e.placeWord 0 0) = (0x800000210001003F, 0x40000000) := by decide +kernel

/-- R358: the four updates of `mxacc`, elements 0 to 2 and the scale. -/
def mxUpdate (t : Ty) (r : List Byte) (a b c : Word) (scale : Word) : List Byte :=
  (amxRecord false t r ([a, b, c] ++ List.replicate 29 (scale * 0x100))).1

theorem test_amx_updates :
    let r0 : List Byte := List.replicate 32 0 ++ [127, 1, 0, 0] ++ List.replicate 28 0
    let r1 := mxUpdate .f8x8 r0 0x7970 0x797C 0x79E8 0x79
    let r2 := mxUpdate .f8x8 r1 0x7870 0x787C 0x78E8 0x78
    let r3 := mxUpdate .f4x16 r2 0x8104 0x8107 0x810A 0x81
    let r4 := mxUpdate .f4x16 r3 0x7C04 0x7C07 0x7C0A 0x7C
    [r1, r2, r3, r4].map (fun r => (r.take 3, r[32]?, r[34]?)) =
      [([0x70, 0x7C, 0xE8], some 0x79, some 1), ([0x6C, 0x79, 0xE4], some 0x7A, some 2),
        ([0x6B, 0x78, 0xE3], some 0x7C, some 3), ([0x6B, 0x78, 0xE3], some 0x7C, some 4)] := by decide +kernel

/-- R95: TRAP names its immediate and resumes at the next word. -/
theorem test_trap_frame :
    unitAfter _ (exec (.trap { imm := 0x2A }) warp3) 0
      (fun p => p.trap.map fun f => (f.cause, f.kind, f.rk, f.info1, f.resume)) =
      some (some (.softTrap, 1, 1, 0x2A, .ofNat 64 (placeAt + 8))) := by decide +kernel

/-- R39: a privileged instruction in a warp raises WRONG_MODE. -/
theorem test_privileged_in_warp :
    unitAfter _ (exec (.tret {}) warp3) 0 (fun p => p.trap.map (·.cause)) = some (some .wrongMode) := by decide +kernel

/-- R31, R43: the word placed at the PC is the one that a step runs. -/
theorem test_step_runs_placed :
    regAfter (step (State.reset.withFetchWord 64 0x0800_0007_F800_6040)) 0 0 3 = some (0xFF, .i32) := by decide +kernel

/-! ## Witnesses: for every statement with hypotheses, states and operands that meet them all -/

/-- What the unit whose turn it is sees. -/
def seen (s : State) (i : Instr) (h : Head) : View := (s.view i h).getD
  { core := 0, unit := 0, split := 0, u := { kind := .warp, lanes := [], splits := [] }, sp := { mask := 0, pc := 0, rpc := 0 },
    act := 0, sel := 0, cl := 0, slot := 0, addr := 0, next := 0 }

/-- The unit stands at the instruction, as a computation. -/
def standsB (s : State) (i : Instr) (h : Head) : Bool :=
  (s.view i h).isSome && (preCheck (seen s i h) i).isNone && s.bundle.isNone &&
    !(s.inst (s.instOf (seen s i h).core)).dbgctl.getLsbD 1 && !(seen s i h).sp.closed &&
    (s.slow || (seen s i h).u.q.loads.all (·.ans != .pending))

theorem quietLoads {s : State} {i : Instr} {h : Head} (hb : (s.slow || (seen s i h).u.q.loads.all (·.ans != .pending)) = true) :
    s.slow = true ∨ ∀ e ∈ (seen s i h).u.q.loads, e.ans ≠ .pending := by
  simpa using hb

theorem stands {s : State} {i : Instr} {h : Head} (hb : standsB s i h = true) : Stands s i h (seen s i h) := by
  simp only [standsB, Bool.and_eq_true, Option.isSome_iff_exists, Option.isNone_iff_eq_none, Bool.not_eq_true'] at hb
  obtain ⟨⟨⟨⟨⟨⟨v, hv⟩, h2⟩, h3⟩, h4⟩, h5⟩, h6⟩ := hb
  have hw : s.view i h = some (seen s i h) := by rw [seen, hv]; rfl
  exact ⟨hw, h2, h3, h4, h5, fun _ => answered_view hw h3 (quietLoads h6)⟩

/-- The unit faces the instruction, as a computation. -/
def facesB (s : State) (i : Instr) (h : Head) : Bool :=
  (s.view i h).isSome && s.bundle.isNone && !(s.inst (s.instOf (seen s i h).core)).dbgctl.getLsbD 1 &&
    (seen s i h).u.kind != .handler && decide ((seen s i h).unit < 21) &&
    (s.slow || (seen s i h).u.q.loads.all (·.ans != .pending))

theorem faces {s : State} {i : Instr} {h : Head} (hb : facesB s i h = true) : Faces s i h (seen s i h) := by
  simp only [facesB, Bool.and_eq_true, Option.isSome_iff_exists, Option.isNone_iff_eq_none, Bool.not_eq_true', bne_iff_ne,
    decide_eq_true_eq] at hb
  obtain ⟨⟨⟨⟨⟨⟨v, hv⟩, h2⟩, h3⟩, h4⟩, h5⟩, h6⟩ := hb
  have hw : s.view i h = some (seen s i h) := by rw [seen, hv]; rfl
  exact ⟨hw, h2, h3, ⟨h4, h5⟩, fun _ => answered_view hw h2 (quietLoads h6)⟩

/-- D names a register of every lane, as a computation. -/
def regB (v : View) (d : Nat) : Bool :=
  !(v.u.kind == .context && d == 63) && (v.u.kind == .context && d == 62 || (List.range v.u.lanes.length).all fun k =>
    decide ((if v.u.kind = .context then rotated v.u.base d else d) < (v.u.lane k).regs.length))

theorem hasReg {v : View} {d : Nat} (h : regB v d = true) : v.hasReg d := by
  simp only [regB, Bool.and_eq_true, Bool.or_eq_true, Bool.not_eq_true', Bool.and_eq_false_iff, beq_iff_eq, beq_eq_false_iff_ne,
    List.all_eq_true, List.mem_range, decide_eq_true_eq] at h
  refine ⟨fun hk => ?_, h.2.imp id fun h2 k _ hk => h2 k hk⟩
  rcases h.1 with h1 | h1
  · exact absurd hk h1
  · simpa using Ne.symm h1

/-- D names a predicate of every lane, as a computation. -/
def predB (v : View) (d : Nat) : Bool :=
  d == 7 || (List.range v.u.lanes.length).all fun k => decide (d < (v.u.lane k).preds.length)

theorem hasPred {v : View} {d : Nat} (h : predB v d = true) : v.hasPred d := by
  simp only [predB, Bool.or_eq_true, beq_iff_eq, List.all_eq_true, List.mem_range, decide_eq_true_eq] at h
  exact h.imp id fun h2 k _ hk => h2 k hk

/-- No source names the port, as a computation. -/
theorem noPort {v : View} {l : List Nat} (h : (v.u.kind == .context && l.contains 63) = false) : v.noPort l := by
  intro hk
  simpa [hk] using h

/-- No core pins a line. -/
theorem unpinned {s : State} {c : Nat} (h : s.cores.all (fun k => k.pins.isEmpty) = true) : s.unpinned c := by
  intro pa
  rw [State.pinHolder, List.find?_eq_none]
  intro k hk
  have hp : (s.core k).pins = [] := by
    have := List.all_eq_true.mp h (s.core k) (by
      rw [List.mem_range] at hk
      simp [State.core, hk])
    simpa using this
  simp [hp]

/-- A block without commands. -/
theorem acknowledged {s : State} {v : View} (h : ((s.blk v.core).all fun b => b.cmds.isEmpty) = true) : s.acknowledged v := by
  intro b hb k hk
  rw [hb] at h
  simp only [Option.all_some, List.isEmpty_iff] at h
  simp [h] at hk

/-- A unit of one split. -/
theorem alone {v : View} (h : v.u.splits.length = 1 ∧ v.split = 0) : v.alone := by
  intro j hj x hx
  rw [h.2] at hj
  have : v.u.splits[j]? = none := List.getElem?_eq_none (by omega)
  simp [ProgUnit.split, this] at hx

/-- A core with nothing under way. -/
theorem drained {s : State} {v : View} (h : (v.u.pail.isEmpty && (s.core v.core).travel.isEmpty &&
    (s.cores.all fun k => k.pins.isEmpty) && (s.blk v.core).all fun b => b.cmds.isEmpty) = true) : s.drained v := by
  simp only [Bool.and_eq_true, List.isEmpty_iff] at h
  exact ⟨h.1.1.1, h.1.1.2, unpinned h.1.2, acknowledged h.2⟩

/-- With no trap enabled no condition traps. -/
theorem untrapped {v : View} {fl : Nat → BitVec 5} (h : v.u.fpctl = 0) : v.untrapped fl := by
  intro k _
  rw [h]; exact BitVec.zero_and

/-- A step of the machine answers a next state. -/
theorem nextOf {r : Host.Outcome State Fault Refusal} (h : (match r with | .next _ => true | _ => false) = true) :
    ∃ t, r = .next t := by
  cases r <;> first | exact ⟨_, rfl⟩ | cases h

/-- The operands of an instruction with sources l and destination d are in place, some lane is selected, and no float trap is
enabled. -/
def readyB (s : State) (i : Instr) (h : Head) (l : List Nat) (d : Nat) : Bool :=
  let v := seen s i h
  standsB s i h && !(v.u.kind == .context && l.contains 63) && regB v d && !v.lanes.isEmpty && v.u.fpctl == 0

theorem ready {s : State} {i : Instr} {h : Head} {l : List Nat} {d : Nat} (hb : readyB s i h l d = true) :
    Stands s i h (seen s i h) ∧ (seen s i h).noPort l ∧ (seen s i h).hasReg d ∧ (seen s i h).lanes ≠ [] ∧
      ∀ fl, (seen s i h).untrapped fl := by
  simp only [readyB, Bool.and_eq_true, Bool.not_eq_true', beq_iff_eq, List.isEmpty_eq_false_iff] at hb
  exact ⟨stands hb.1.1.1.1, noPort hb.1.1.1.2, hasReg hb.1.1.2, hb.1.2, fun _ => untrapped hb.2⟩

/-- Some state and word meet the hypotheses of `Gives2 mk ok`, with a lane selected. -/
def Meets2 (mk : ArithWord → Instr) (ok : ArithWord → Reg → Reg → Prop) : Prop :=
  ∃ (s : State) (v : View) (w : ArithWord), Stands s (mk w) w.head v ∧ v.noPort [w.a.toNat, w.b.toNat] ∧ v.hasReg w.d.toNat ∧
    v.lanes ≠ [] ∧ (∀ k ∈ v.lanes, ok w (v.u.read k w.a.toNat) (v.u.read k w.b.toNat)) ∧ ∀ fl, v.untrapped fl

theorem meets2 {mk : ArithWord → Instr} {ok : ArithWord → Reg → Reg → Prop} (s : State) (w : ArithWord)
    (hb : readyB s (mk w) w.head [w.a.toNat, w.b.toNat] w.d.toNat = true)
    (hk : ∀ k ∈ (seen s (mk w) w.head).lanes,
      ok w ((seen s (mk w) w.head).u.read k w.a.toNat) ((seen s (mk w) w.head).u.read k w.b.toNat)) : Meets2 mk ok :=
  have h := ready hb
  ⟨s, _, w, h.1, h.2.1, h.2.2.1, h.2.2.2.1, hk, h.2.2.2.2⟩

/-- The same of `Gives1 mk ok`. -/
def Meets1 (mk : ArithWord → Instr) (ok : ArithWord → Reg → Prop) : Prop :=
  ∃ (s : State) (v : View) (w : ArithWord), Stands s (mk w) w.head v ∧ v.noPort [w.a.toNat] ∧ v.hasReg w.d.toNat ∧
    v.lanes ≠ [] ∧ (∀ k ∈ v.lanes, ok w (v.u.read k w.a.toNat)) ∧ ∀ fl, v.untrapped fl

theorem meets1 {mk : ArithWord → Instr} {ok : ArithWord → Reg → Prop} (s : State) (w : ArithWord)
    (hb : readyB s (mk w) w.head [w.a.toNat] w.d.toNat = true)
    (hk : ∀ k ∈ (seen s (mk w) w.head).lanes, ok w ((seen s (mk w) w.head).u.read k w.a.toNat)) : Meets1 mk ok :=
  have h := ready hb
  ⟨s, _, w, h.1, h.2.1, h.2.2.1, h.2.2.2.1, hk, h.2.2.2.2⟩

/-- The same of `Gives3 mk ok`. -/
def Meets3 (mk : ArithWord → Instr) (ok : ArithWord → Reg → Reg → Reg → Prop) : Prop :=
  ∃ (s : State) (v : View) (w : ArithWord), Stands s (mk w) w.head v ∧ v.noPort [w.a.toNat, w.b.toNat, w.c.toNat] ∧
    v.hasReg w.d.toNat ∧ v.lanes ≠ [] ∧
    (∀ k ∈ v.lanes, ok w (v.u.read k w.a.toNat) (v.u.read k w.b.toNat) (v.u.read k w.c.toNat)) ∧ ∀ fl, v.untrapped fl

theorem meets3 {mk : ArithWord → Instr} {ok : ArithWord → Reg → Reg → Reg → Prop} (s : State) (w : ArithWord)
    (hb : readyB s (mk w) w.head [w.a.toNat, w.b.toNat, w.c.toNat] w.d.toNat = true)
    (hk : ∀ k ∈ (seen s (mk w) w.head).lanes, ok w ((seen s (mk w) w.head).u.read k w.a.toNat)
      ((seen s (mk w) w.head).u.read k w.b.toNat) ((seen s (mk w) w.head).u.read k w.c.toNat)) : Meets3 mk ok :=
  have h := ready hb
  ⟨s, _, w, h.1, h.2.1, h.2.2.1, h.2.2.2.1, hk, h.2.2.2.2⟩

/-- The same of `GivesI mk ok`. -/
def MeetsI (mk : ImmWord → Instr) (ok : ImmWord → Reg → Prop) : Prop :=
  ∃ (s : State) (v : View) (w : ImmWord), Stands s (mk w) w.head v ∧ v.noPort [w.a.toNat] ∧ v.hasReg w.d.toNat ∧
    v.lanes ≠ [] ∧ ∀ k ∈ v.lanes, ok w (v.u.read k w.a.toNat)

theorem meetsI {mk : ImmWord → Instr} {ok : ImmWord → Reg → Prop} (s : State) (w : ImmWord)
    (hb : readyB s (mk w) w.head [w.a.toNat] w.d.toNat = true)
    (hk : ∀ k ∈ (seen s (mk w) w.head).lanes, ok w ((seen s (mk w) w.head).u.read k w.a.toNat)) : MeetsI mk ok :=
  have h := ready hb
  ⟨s, _, w, h.1, h.2.1, h.2.2.1, h.2.2.2.1, hk⟩

/-- The same of `Computes1 mk g`: the lanes compute, no cause and no trap. -/
def MeetsC1 (mk : ArithWord → Instr) (g : ArithWord → Reg → LaneRes) : Prop :=
  ∃ (s : State) (v : View) (w : ArithWord) (r : Nat → Reg) (fl : Nat → BitVec 5), Stands s (mk w) w.head v ∧
    v.noPort [w.a.toNat] ∧ v.hasReg w.d.toNat ∧ v.lanes ≠ [] ∧
    (∀ k ∈ v.lanes, g w (v.u.read k w.a.toNat) = .ok (r k, fl k)) ∧ v.untrapped fl

/-- The value of a lane that computes. -/
def laneVal (x : LaneRes) : Reg × BitVec 5 := match x with | .ok y => y | .error _ => (mkReg 0 .und, 0)

theorem laneVal_ok {x : LaneRes} (h : x.toOption.isSome = true) : x = .ok ((laneVal x).1, (laneVal x).2) := by
  cases x
  · cases h
  · rfl

theorem meetsC1 {mk : ArithWord → Instr} {g : ArithWord → Reg → LaneRes} (s : State) (w : ArithWord)
    (hb : readyB s (mk w) w.head [w.a.toNat] w.d.toNat = true)
    (hk : ∀ k ∈ (seen s (mk w) w.head).lanes, (g w ((seen s (mk w) w.head).u.read k w.a.toNat)).toOption.isSome = true) :
    MeetsC1 mk g :=
  have h := ready hb
  ⟨s, _, w, _, _, h.1, h.2.1, h.2.2.1, h.2.2.2.1, fun k m => laneVal_ok (hk k m), h.2.2.2.2 _⟩

/-- The same of `Computes2 mk g`. -/
def MeetsC2 (mk : ArithWord → Instr) (g : ArithWord → Reg → Reg → LaneRes) : Prop :=
  ∃ (s : State) (v : View) (w : ArithWord) (r : Nat → Reg) (fl : Nat → BitVec 5), Stands s (mk w) w.head v ∧
    v.noPort [w.a.toNat, w.b.toNat] ∧ v.hasReg w.d.toNat ∧ v.lanes ≠ [] ∧
    (∀ k ∈ v.lanes, g w (v.u.read k w.a.toNat) (v.u.read k w.b.toNat) = .ok (r k, fl k)) ∧ v.untrapped fl

theorem meetsC2 {mk : ArithWord → Instr} {g : ArithWord → Reg → Reg → LaneRes} (s : State) (w : ArithWord)
    (hb : readyB s (mk w) w.head [w.a.toNat, w.b.toNat] w.d.toNat = true)
    (hk : ∀ k ∈ (seen s (mk w) w.head).lanes, (g w ((seen s (mk w) w.head).u.read k w.a.toNat)
      ((seen s (mk w) w.head).u.read k w.b.toNat)).toOption.isSome = true) : MeetsC2 mk g :=
  have h := ready hb
  ⟨s, _, w, _, _, h.1, h.2.1, h.2.2.1, h.2.2.2.1, fun k m => laneVal_ok (hk k m), h.2.2.2.2 _⟩

/-- The same of `Computes3 mk g`. -/
def MeetsC3 (mk : ArithWord → Instr) (g : ArithWord → Reg → Reg → Reg → LaneRes) : Prop :=
  ∃ (s : State) (v : View) (w : ArithWord) (r : Nat → Reg) (fl : Nat → BitVec 5), Stands s (mk w) w.head v ∧
    v.noPort [w.a.toNat, w.b.toNat, w.c.toNat] ∧ v.hasReg w.d.toNat ∧ v.lanes ≠ [] ∧
    (∀ k ∈ v.lanes, g w (v.u.read k w.a.toNat) (v.u.read k w.b.toNat) (v.u.read k w.c.toNat) = .ok (r k, fl k)) ∧ v.untrapped fl

theorem meetsC3 {mk : ArithWord → Instr} {g : ArithWord → Reg → Reg → Reg → LaneRes} (s : State) (w : ArithWord)
    (hb : readyB s (mk w) w.head [w.a.toNat, w.b.toNat, w.c.toNat] w.d.toNat = true)
    (hk : ∀ k ∈ (seen s (mk w) w.head).lanes, (g w ((seen s (mk w) w.head).u.read k w.a.toNat)
      ((seen s (mk w) w.head).u.read k w.b.toNat) ((seen s (mk w) w.head).u.read k w.c.toNat)).toOption.isSome = true) :
    MeetsC3 mk g :=
  have h := ready hb
  ⟨s, _, w, _, _, h.1, h.2.1, h.2.2.1, h.2.2.2.1, fun k m => laneVal_ok (hk k m), h.2.2.2.2 _⟩

/-- The same of `Decides2 mk g`. -/
def MeetsD2 (mk : ArithWord → Instr) (g : ArithWord → Reg → Reg → PredRes) : Prop :=
  ∃ (s : State) (v : View) (w : ArithWord) (r : Nat → Pred) (fl : Nat → BitVec 5), Stands s (mk w) w.head v ∧
    v.noPort [w.a.toNat, w.b.toNat] ∧ v.hasPred w.d.toNat ∧ v.lanes ≠ [] ∧
    (∀ k ∈ v.lanes, g w (v.u.read k w.a.toNat) (v.u.read k w.b.toNat) = .ok (r k, fl k)) ∧ v.untrapped fl

/-- Sources match T, as the integer group wants. -/
abbrev ints2 (w : ArithWord) (a b : Reg) : Prop := tagMatches w.t a.tag = true ∧ tagMatches w.t b.tag = true
abbrev ints1 (w : ArithWord) (a : Reg) : Prop := tagMatches w.t a.tag = true
abbrev counts2 (w : ArithWord) (a b : Reg) : Prop := tagMatches w.t a.tag = true ∧ countTag b.tag = true
abbrev immOk (w : ImmWord) (a : Reg) : Prop := tagMatches w.t a.tag = true

/-- The least and the greatest I32. -/
def ends : State := stateOf .warp 2 (putRegs fun k =>
  [(1, mkReg (if k = 0 then 0xFFFFFFFF80000000 else 0x7FFFFFFF) .i32), (29, mkReg (-1) .i32)])

/-- States and operands that meet the hypotheses of every clause of `Obligations.IntegerArithmetic`. -/
theorem witness_IntegerArithmetic :
    Meets2 .iadd ints2 ∧ Meets2 .isub ints2 ∧ Meets2 .imul ints2 ∧ Meets2 .imulh ints2 ∧
      Meets3 .imad (fun w a b c => ints2 w a b ∧ tagMatches w.t c.tag = true) ∧ Meets2 .imin ints2 ∧ Meets2 .imax ints2 ∧
      Meets1 .iabs ints1 ∧ Meets1 .ineg ints1 ∧
      (∃ (t : Ty) (x : Int), t.isInt = true ∧ intMin t ≤ x ∧ x ≤ intMax t) ∧
      (∃ (t : Ty) (x : Int), t.isInt = true ∧ x < intMin t) ∧ (∃ (t : Ty) (x : Int), t.isInt = true ∧ intMax t < x) ∧
      Meets2 .idiv (fun w a b => ints2 w a b ∧ intVal w.t b.v ≠ 0) ∧
      Meets2 .irem (fun w a b => ints2 w a b ∧ intVal w.t b.v ≠ 0) :=
  ⟨meets2 ends { d := 4, a := 1, b := 29, t := .i32 } (by decide +kernel) (by decide +kernel),
    meets2 ends { d := 4, a := 1, b := 29, t := .i32, mod := 8 } (by decide +kernel) (by decide +kernel),
    meets2 context16 { site := .syl 15 true, d := 62, a := 1, b := 29, t := .i32 } (by decide +kernel) (by decide +kernel),
    meets2 front1 { d := 1, a := 4, b := 14, t := .n64 } (by decide +kernel) (by decide +kernel),
    meets3 ends { d := 1, a := 1, b := 29, c := 1, t := .i32 } (by decide +kernel) (by decide +kernel),
    meets2 ends { d := 4, a := 1, b := 29, t := .i32 } (by decide +kernel) (by decide +kernel),
    meets2 ends { d := 4, a := 1, b := 29, t := .i32 } (by decide +kernel) (by decide +kernel),
    meets1 ends { d := 4, a := 1, t := .i32, mod := 8 } (by decide +kernel) (by decide +kernel),
    meets1 ends { d := 4, a := 1, t := .i32 } (by decide +kernel) (by decide +kernel),
    ⟨.i32, -2147483648, by decide +kernel⟩, ⟨.n32, -1, by decide +kernel⟩, ⟨.i64, 2 ^ 63, by decide +kernel⟩,
    meets2 ends { d := 4, a := 1, b := 29, t := .i32 } (by decide +kernel) (by decide +kernel),
    meets2 ends { d := 4, a := 1, b := 29, t := .i32 } (by decide +kernel) (by decide +kernel)⟩

/-- States and operands that meet the hypotheses of every clause of `Obligations.BitCountsAndFields`. -/
theorem witness_BitCountsAndFields :
    Meets1 .popc ints1 ∧
      (∃ s v w, Stands s (.clz w) w.head v ∧ v.noPort [w.a.toNat] ∧ v.hasReg w.d.toNat ∧
        ∀ k ∈ v.lanes, tagMatches w.t (v.u.read k w.a.toNat).tag = true) ∧
      (∃ s v w, Stands s (.ctz w) w.head v ∧ v.noPort [w.a.toNat] ∧ v.hasReg w.d.toNat ∧
        ∀ k ∈ v.lanes, tagMatches w.t (v.u.read k w.a.toNat).tag = true) ∧
      (∃ s v w, Stands s (.brev w) w.head v ∧ v.noPort [w.a.toNat] ∧ v.hasReg w.d.toNat ∧
        ∀ k ∈ v.lanes, tagMatches w.t (v.u.read k w.a.toNat).tag = true) ∧
      Meets1 .bfx (fun w a => w.x.toNat % 64 + (w.c.toNat % 64 + 1) ≤ w.t.width ∧ tagMatches w.t a.tag = true) ∧
      Meets2 .bfi (fun w a b => w.x.toNat % 64 + (w.c.toNat % 64 + 1) ≤ w.t.width ∧ counts2 w a b) ∧
      Meets2 .lea counts2 :=
  ⟨meets1 ends { d := 4, a := 1, t := .i32 } (by decide +kernel) (by decide +kernel),
    ⟨ends, _, { d := 4, a := 1, t := .i32 }, stands (by decide +kernel), noPort (by decide +kernel), hasReg (by decide +kernel),
      by decide +kernel⟩,
    ⟨front1, _, { d := 4, a := 22, t := .n64 }, stands (by decide +kernel), noPort (by decide +kernel),
      hasReg (by decide +kernel), by decide +kernel⟩,
    ⟨ends, _, { d := 4, a := 1, t := .i32 }, stands (by decide +kernel), noPort (by decide +kernel), hasReg (by decide +kernel),
      by decide +kernel⟩,
    meets1 ends { d := 4, a := 1, c := 31, t := .i32 } (by decide +kernel) (by decide +kernel),
    meets2 warp3 { d := 4, a := 4, b := 15, x := 63, t := .n64 } (by decide +kernel) (by decide +kernel),
    meets2 warp3 { d := 4, a := 4, b := 15, x := 7, t := .n64 } (by decide +kernel) (by decide +kernel)⟩

/-- States and operands that meet the hypotheses of every clause of `Obligations.LogicInstructions`. -/
theorem witness_LogicInstructions :
    Meets2 .and (fun _ _ _ => True) ∧ Meets2 .or (fun _ _ _ => True) ∧ Meets2 .xor (fun _ _ _ => True) ∧
      Meets2 .andn (fun _ _ _ => True) ∧ Meets1 .not (fun _ _ => True) ∧
      (∃ v w, preCheck v (.and w) = none) ∧
      ∃ (s : State) (v : View) (w : ArithWord) (mk : ArithWord → Instr), mk ∈ [.and, .or, .xor, .andn, .not] ∧
        Faces s (mk w) w.head v ∧ preCheck v (mk { w with t := .b64 }) = none ∧
        w.t ≠ .b64 ∧ w.t ≠ .i32 ∧ w.t ≠ .n32 ∧ w.t ≠ .i64 ∧ w.t ≠ .n64 :=
  ⟨meets2 warp3 { d := 4, a := 30, b := 9 } (by decide +kernel) (by decide +kernel),
    meets2 context16 { site := .syl 0 true, d := 4, a := 1, b := 9, t := .n32 } (by decide +kernel) (by decide +kernel),
    meets2 front1 { d := 4, a := 4, b := 5 } (by decide +kernel) (by decide +kernel),
    meets2 handler1 { d := 4, a := 4, b := 5, t := .i64 } (by decide +kernel) (by decide +kernel),
    meets1 warp3 { d := 4, a := 30 } (by decide +kernel) (by decide +kernel),
    ⟨seen warp3 (.and {}) {}, { d := 31 }, by decide +kernel⟩,
    warp3, _, { d := 4, a := 1, b := 5, t := .f32 }, .and, by simp, faces (by decide +kernel), by decide +kernel,
    by decide, by decide, by decide, by decide, by decide⟩

/-- States and operands that meet the hypotheses of every clause of `Obligations.Shifts`. -/
theorem witness_Shifts :
    Meets2 .shl counts2 ∧ Meets2 .shr counts2 ∧ Meets2 .sar counts2 ∧ Meets2 .rotl counts2 ∧ MeetsI .shli immOk ∧
      MeetsI .shri immOk ∧ MeetsI .sari immOk ∧ MeetsI .andi (fun _ _ => True) ∧ MeetsI .ori (fun _ _ => True) ∧
      MeetsI .xori (fun _ _ => True) :=
  ⟨meets2 ends { d := 4, a := 1, b := 24, t := .i32 } (by decide +kernel) (by decide +kernel),
    meets2 ends { d := 4, a := 1, b := 22, t := .i32 } (by decide +kernel) (by decide +kernel),
    meets2 ends { d := 4, a := 1, b := 27, t := .i32 } (by decide +kernel) (by decide +kernel),
    meets2 ends { d := 4, a := 1, b := 24, t := .i32 } (by decide +kernel) (by decide +kernel),
    meetsI warp3 { d := 4, a := 4, imm := 63, t := .n64 } (by decide +kernel) (by decide +kernel),
    meetsI warp3 { d := 4, a := 4, imm := 64, t := .n64 } (by decide +kernel) (by decide +kernel),
    meetsI warp3 { d := 4, a := 1, imm := 32, t := .i32 } (by decide +kernel) (by decide +kernel),
    meetsI warp3 { d := 4, a := 30, imm := 0xFFFFFFFF, t := .i64 } (by decide +kernel) (by decide +kernel),
    meetsI front1 { d := 4, a := 3, imm := 0, t := .n64 } (by decide +kernel) (by decide +kernel),
    meetsI context16 { site := .syl 0 true, d := 4, a := 3, imm := 0xFFFFF } (by decide +kernel) (by decide +kernel)⟩

/-- States and operands that meet the hypotheses of every clause of `Obligations.ImmediatesAndMoves`. -/
theorem witness_ImmediatesAndMoves :
    (∃ s v w, Stands s (.movi w) w.head v ∧ v.hasReg w.d.toNat) ∧ MeetsI .movhi (fun _ _ => True) ∧ MeetsI .iaddi immOk ∧
      MeetsI .imuli immOk ∧ Meets1 .mov (fun _ _ => True) ∧ Meets1 .retag (fun w a => w.t = .iv32 → ivValid a.v = true) ∧
      ∃ s v w, Stands s (.sel w) w.head v ∧ v.noPort [w.a.toNat, w.b.toNat, w.c.toNat] ∧ v.hasReg w.d.toNat :=
  ⟨⟨warp3, _, { d := 31, imm := 0x3F800000, t := .f64 }, stands (by decide +kernel), hasReg (by decide +kernel)⟩,
    meetsI warp3 { d := 4, a := 30, imm := 1, t := .n64 } (by decide +kernel) (by decide +kernel),
    meetsI ends { d := 4, a := 1, imm := 0xFFFFFFFF, t := .i32 } (by decide +kernel) (by decide +kernel),
    meetsI ends { d := 4, a := 1, imm := 0x80000000, t := .i32 } (by decide +kernel) (by decide +kernel),
    meets1 warp3 { d := 4, a := 30 } (by decide +kernel) (by decide +kernel),
    meets1 warp3 { d := 4, a := 9, t := .iv32 } (by decide +kernel) (by decide +kernel),
    ⟨warp3, _, { d := 4, a := 1, b := 2, c := 3, sub := 7 }, stands (by decide +kernel), noPort (by decide +kernel),
      hasReg (by decide +kernel)⟩⟩

/-- The members of R272 on their own types. -/
theorem witness_FloatArithmetic :
    MeetsC2 .fadd (fun w => arith2 w Fmt.add ivalAdd 0) ∧ MeetsC2 .fsub (fun w => arith2 w Fmt.sub ivalSub 0) ∧
      MeetsC2 .fmul (fun w => arith2 w Fmt.mul ivalMul 0) ∧
      MeetsC2 .fmin (fun w => arith2 w (fun m _ x y => m.minmax false x y) (ivalMinmax minB) 0) ∧
      MeetsC2 .fmax (fun w => arith2 w (fun m _ x y => m.minmax true x y) (ivalMinmax maxB) 0) ∧
      MeetsC2 .fdiv (fun w => arith2 w Fmt.div ivalDiv 0) ∧
      MeetsC1 .fsqrt (fun w a => if w.t = .iv32 then ivalLane w (onOne ivalSqrt) [a]
        else arith1 w (fun m x => m.sqrt w.rm.toNat x) a) ∧
      MeetsC3 .ffma fun w a b c => if w.t = .iv32
        then ivalLane w (fun xs => match xs with | [some a, some b, some c] => ivalFma a b c | _ => none) [a, b, c]
        else floatLane w (fun m xs => match xs with | [x, y, z] => m.fma w.rm.toNat x y z | _ => m.invalid) [a, b, c] :=
  ⟨meetsC2 warp3 { d := 4, a := 5, b := 5, t := .f32 } (by decide +kernel) (by decide +kernel),
    meetsC2 warp3 { d := 4, a := 6, b := 6, t := .f64, rm := 3 } (by decide +kernel) (by decide +kernel),
    meetsC2 context16 { site := .syl 0 true, d := 4, a := 7, b := 7, t := .f16x4 } (by decide +kernel) (by decide +kernel),
    meetsC2 warp3 { d := 4, a := 8, b := 8, t := .bf16x4 } (by decide +kernel) (by decide +kernel),
    meetsC2 warp3 { d := 4, a := 9, b := 9, t := .iv32 } (by decide +kernel) (by decide +kernel),
    meetsC2 warp3 { d := 4, a := 9, b := 9, t := .iv32 } (by decide +kernel) (by decide +kernel),
    meetsC1 warp3 { d := 4, a := 5, t := .f32, mod := 1 } (by decide +kernel) (by decide +kernel),
    meetsC3 warp3 { d := 4, a := 9, b := 9, c := 9, t := .iv32 } (by decide +kernel) (by decide +kernel)⟩

/-- Lanes that compute, each by a decision. -/
theorem allOk {ε α β : Type} [DecidableEq α] {l : List β} {x : β → Except ε α} {y : β → α}
    (h : (l.all fun k => decide ((x k).toOption = some (y k))) = true) : ∀ k ∈ l, x k = .ok (y k) := by
  intro k hk
  have := of_decide_eq_true (List.all_eq_true.mp h k hk)
  cases hx : x k with
  | error e => rw [hx] at this; cases this
  | ok z => rw [hx] at this; cases this; rfl

/-- A fact of a list's places. -/
theorem byIndex {l : List Nat} {P : Nat → Nat → Prop} (h : ∀ j, j < l.length → ∀ k ∈ l, l[j]? = some k → P j k) :
    ∀ j k, l[j]? = some k → P j k := fun j k hj =>
  h j (by obtain ⟨hlt, _⟩ := List.getElem?_eq_some_iff.mp hj; exact hlt) k (List.mem_of_getElem? hj) hj

/-- A mask's bits, up to its width. -/
theorem maskIs {m : Mask} {l : List Nat} {P : Nat → Prop}
    (h : (∀ j ∈ l, j < 128) ∧ ∀ j, j < 128 → (m.getLsbD j = true ↔ j ∈ l ∧ P j)) : ∀ j, m.getLsbD j = true ↔ j ∈ l ∧ P j := by
  intro j
  by_cases hj : j < 128
  · exact h.2 j hj
  · rw [BitVec.getLsbD_of_ge m j (by omega)]
    simp only [Bool.false_eq_true, false_iff, not_and]
    exact fun hl => absurd (h.1 j hl) hj

theorem masksAre {m : Nat → Mask} {l : List Nat} {P : Nat → Nat → Prop}
    (h : (∀ j ∈ l, j < 128) ∧ ∀ k ∈ l, ∀ j, j < 128 → ((m k).getLsbD j = true ↔ j ∈ l ∧ P k j)) :
    ∀ k ∈ l, ∀ j, (m k).getLsbD j = true ↔ j ∈ l ∧ P k j :=
  fun k hk => maskIs ⟨h.1, h.2 k hk⟩

/-- A mask holds no lane that is not. -/
theorem maskBelow {m : Mask} {n : Nat} (h : ∀ k, k < 128 → n ≤ k → m.getLsbD k = false) : ∀ k, n ≤ k → m.getLsbD k = false := by
  intro k hk
  by_cases h2 : k < 128
  · exact h k h2 hk
  · exact BitVec.getLsbD_of_ge m k (by omega)

theorem meetsD2 {mk : ArithWord → Instr} {g : ArithWord → Reg → Reg → PredRes} (s : State) (w : ArithWord) (r : Nat → Pred)
    (fl : Nat → BitVec 5) (hb : (standsB s (mk w) w.head && !((seen s (mk w) w.head).u.kind == .context &&
      [w.a.toNat, w.b.toNat].contains 63) && predB (seen s (mk w) w.head) w.d.toNat &&
      !(seen s (mk w) w.head).lanes.isEmpty && (seen s (mk w) w.head).u.fpctl == 0) = true)
    (hk : ((seen s (mk w) w.head).lanes.all fun k => decide ((g w ((seen s (mk w) w.head).u.read k w.a.toNat)
      ((seen s (mk w) w.head).u.read k w.b.toNat)).toOption = some (r k, fl k))) = true) : MeetsD2 mk g := by
  simp only [Bool.and_eq_true, Bool.not_eq_true', beq_iff_eq, List.isEmpty_eq_false_iff] at hb
  exact ⟨s, _, w, r, fl, stands hb.1.1.1.1, noPort hb.1.1.1.2, hasPred hb.1.1.2, hb.1.2, allOk hk, untrapped hb.2⟩

/-- Loads whose places are there. -/
theorem places {l : List Nat} {x : Nat → LanePlace} (h : (l.all fun k => match x k with | .at _ => true | _ => false) = true) :
    ∀ k ∈ l, ∃ pa, x k = .at pa := by
  intro k hk
  have := List.all_eq_true.mp h k hk
  rcases hx : x k with pa | e | ⟨c, l⟩ | f
  · exact ⟨pa, rfl⟩
  all_goals rw [hx] at this; cases this

/-- A fact of the one lane of a warp. -/
theorem oneLane {l : List Nat} {P : Nat → Prop} (n : Nat) (hl : l = [n]) (h : P n) : ∀ k ∈ l, P k := by
  rw [hl]; simpa using h

/-- Eight lanes, of which 0 to 4 are in the split and 24 opens 1 and 5; lane 1 has p2 U. -/
def splitting : State := stateOf .warp 8 fun p =>
  { p with
    lanes := (List.range 8).map fun k => { laneOf k with
      regs := (regsOf k).set 24 (mkReg 0x22 .n64), preds := [.f, .f, if k = 1 then .u else .f, .f, .f, .f, .f] }
    splits := p.splits.map fun x => { x with mask := 0x1F } }

/-- Three lanes, none free; lane 1 has p1 T, and the den holds two entries. -/
def popping : State := stateOf .warp 3 fun p =>
  { p with
    lanes := (List.range 3).map fun k => { laneOf k with preds := [.f, if k = 1 then .t else .f, .f, .f, .f, .f, .f] }
    den := 2 }

theorem eqOk {ε α : Type} [DecidableEq α] {x : Except ε α} {y : α} (h : x.toOption = some y) : x = .ok y := by
  cases x with
  | error e => cases h
  | ok z => cases h; rfl

theorem ofNone {α : Type} {o : Option α} {P : α → Prop} (h : o.isNone = true) : ∀ x, o = some x → P x := by
  cases o with
  | none => intro x hx; cases hx
  | some y => cases h

theorem both {α : Type} {l : List α} {P Q : α → Prop} (hp : ∀ k ∈ l, P k) (hq : ∀ k ∈ l, Q k) : ∀ k ∈ l, P k ∧ Q k :=
  fun k hk => ⟨hp k hk, hq k hk⟩

/-! ### States changed in one place -/

def inBlock (f : Block → Block) (s : State) : State := s.modBlk 0 f
def inCore (f : Core → Core) (s : State) : State := s.modCore 0 f
def addUnit (k : Nat) (p : ProgUnit) (s : State) : State :=
  s.modBlk 0 fun b => { b with units := b.units.set k (some p) }
def launchRec : LaunchRec :=
  { code := .ofNat 64 placeAt, regs := 64, width := 32, warps := 2, trapArea := 0x100000, tileKiB := 64 }
def launched (f : Launch → Launch) (s : State) : State :=
  s.modInst 0 fun i => { i with launches := [f { rcd := launchRec, order := 0, gangs := [{ gidx := 0 }] }] }
def inMem (a : Nat) (bs : List Byte) (s : State) : State := { s with mem := cellWrite s.mem a bs }

/-- A warp as the placed one, of n lanes, changed. -/
def warpUnit (n : Nat) (f : ProgUnit → ProgUnit := id) : ProgUnit :=
  ((stateOf .warp n f).unit 0 0).getD { kind := .warp, lanes := [], splits := [] }

/-- A unit's only split holds the lanes m and waits for l. -/
def holding (m : Mask) (l : List Wait := []) (p : ProgUnit) : ProgUnit :=
  { p with splits := p.splits.map fun x => { x with mask := m, waits := l } }

def block0 (s : State) : Block := (s.blk 0).getD
  { inst := 0, launch := 0, index := 0, gidx := 0, bidx := 0, stage := 0, vgroups := 0, units := [] }
def launch0 (s : State) : Launch := (s.launch 0 0).getD { rcd := {} }

def slot3 : EventSlot := { kind := .timer, num := 5, handler := 0x80000300 }
def join7 : DivEntry := { dpc := 0x80000500, dmask := 4, jpc := .ofNat 64 placeAt, owed := 7 }
def joining (m : Mask) : State := stateOf .warp 3 fun p => { holding m [] p with div := [{ join7 with owed := 0 }, join7] }
def looping (n : Nat) : State :=
  stateOf .vliw 16 fun p => { p with loops := [{ start := 0x80000400, count := n, base := 11 }] }
def arriving (n : Nat) : State := inBlock (fun b => { b with bars := b.bars.set 3 { gen := 5, count := some n, arrived := [(0, 1)] } })
  (addUnit 1 (warpUnit 3) warp3)
def partner (m : Mask) : ProgUnit := warpUnit 4 (holding m [{ kind := .partner, a := 0, res := [3, 9, 2] }])
def queued (s : State) : State := inBlock (fun b => { b with dq := [11, 22, 33], dqBase := 4 }) s
def staged (s : State) : State := launched (fun l => { l with
  rcd := { l.rcd with range := 100, flags := 2, stages := 2 }, disp := [{ cell := 0, lo := 8, hi := 9 }],
  stages := [{ cap := 3, succ := 2 }, { cap := 3, recs := [([], 0), ([], 0)] }] }) s
def grid (r : Nat) (s : State) : State := launched (fun l => { l with rcd := { l.rcd with regs := r, width := 32, warps := 2 } }) s
def tileE : TileEntry := { newTile .block 0 .n32 8 4 0 with base := 3 }
def tiled (s : State) : State := launched id (inBlock (fun b => { b with tiles := b.tiles.set 3 (some tileE) }) s)
def someBind : Binding := { guard := 8, base := 0, len := 8 }

/-- One lane takes the one block that a cell's list holds, whichever choice is made. -/
theorem alloc_one {cell seed : Nat} {size : Nat → Nat} {lanes : List Nat} {hs : List (Nat × HeapCell)}
    (h : cell = 0 ∧ lanes = [0] ∧ size 0 = 16 ∧ hs = [(0, { free := [(0x100000, 4)] })]) :
    (allocLanes cell seed size lanes hs).2.2 = [] := by
  obtain ⟨rfl, rfl, hz, rfl⟩ := h
  have hc : heapClass 16 = 4 := by decide
  simp [allocLanes, hz, hc, heapTake, HeapCell.take, Nat.mod_one]

/-- The heap of cell 0 holds one block of 16 bytes, and lane 0 asks for 16. -/
def heaped : State := launched (fun l => { l with heaps := [(0, { free := [(0x100000, 4)] })] }) (warpWith [(21, mkReg 16 .n32)])

/-- An accumulator record of E4M3 at 0x11000. -/
def recorded : State := inMem 0x11021 [1] warp3

/-- A request of 2 MiB, more than the largest class. -/
def asking : State := launched id (warpWith [(21, mkReg 0x200000 .n32)])

/-- Lane 1 does not take a branch on p1 that lanes 0 and 2 take. -/
def partingWarp : State := stateOf .warp 3 fun p => { p with
  lanes := p.lanes.modify 1 fun l => { l with preds := l.preds.set 1 .f } }

/-- Lane 1 is nested as deep as a lane can be. -/
def nestedWarp : State := stateOf .warp 3 fun p => { p with lanes := p.lanes.modify 1 fun l => { l with nest := 255 } }

theorem fewResults {l : List (List Reg)} (h : (l.all fun x => decide (x.length ≤ 16)) = true) (n : Nat) :
    (l[n]?.getD []).length ≤ 16 := by
  cases hx : l[n]? with
  | none => simp
  | some x => exact of_decide_eq_true (List.all_eq_true.mp h x (List.mem_of_getElem? hx))

/-- The values of `ExactThenRounded` and `OutwardBounds`: 1 in F32, and [1, 2] with itself. -/
theorem witness_rounding :
    (fmt32 ∈ binaryFmts ∧ (0 : Nat) < 4 ∧ ∃ n e, fmt32.val 0x3F800000 = .fin false n e) ∧
      ∃ lo hi, ivalAdd (0x3F800000, 0x40000000) (0x3F800000, 0x40000000) = some (lo, hi) :=
  ⟨⟨by decide, by decide, 0x800000, -23, by decide +kernel⟩, 0x40000000, 0x40800000, by decide +kernel⟩

/-- A sound heap of two blocks, of which the first is allocated. -/
theorem witness_heapSound : ({ rcd := {}, heaps := [(0, { free := [(0x100010, 4)], used := [(0x100000, 4)] })] } : Launch).HeapSound := by
  unfold Launch.HeapSound apartBlocks; decide +kernel

theorem placesOk {s : State} {cs : List Nat} (h : ∀ c ∈ cs, c < s.cores.length) (hp : s.cores.all (fun k => k.pins.isEmpty) = true) :
    ∀ c ∈ cs, c < s.cores.length ∧ s.unpinned c := fun c hc => ⟨h c hc, unpinned hp⟩

theorem splitsLive {s : State} (h : (s.cores.all fun k => k.blk.all fun b => b.units.all fun u => u.all fun p =>
    p.kind != .warp || p.splits.all (·.mask != 0)) = true) : s.SplitsLive := by
  intro c u p hp hk t ht
  unfold State.unit State.blk Block.unit State.core at hp
  cases hc : s.cores[c]? with
  | none => simp [hc] at hp
  | some k =>
    simp only [hc, Option.getD_some, Option.bind_eq_some_iff] at hp
    obtain ⟨b, hb, hu⟩ := hp
    have h1 := List.all_eq_true.mp h k (List.mem_of_getElem? hc)
    rw [hb] at h1
    rw [Option.join_eq_some_iff] at hu
    have h2 := List.all_eq_true.mp (by simpa using h1 : (b.units.all fun u => u.all fun p =>
      p.kind != .warp || p.splits.all (·.mask != 0)) = true) _ (List.mem_of_getElem? hu)
    simp only [Option.all_some, hk, bne_self_eq_false, Bool.false_or] at h2
    simpa using List.all_eq_true.mp h2 t ht

theorem viewOf {s : State} {i : Instr} {h : Head} (hb : (s.view i h).isSome = true) : s.view i h = some (seen s i h) := by
  obtain ⟨v, hv⟩ := Option.isSome_iff_exists.mp hb
  rw [seen, hv]; rfl

/-! ### Queues, engines and handlers -/

def r77 : Reg := mkReg 77 .n32
def load1 : LoadEntry := { addr := .va 0x10000, t := .n32, after := 0, ans := .data r77 }
def queueing (q : AccessQueues) : State := stateOf .vliw 16 fun p => { p with q := q, results := [[r77], [], []] }
def gone : AccessQueues := { loads := List.replicate 63 { load1 with popped := true } }
def addrs31 : AccessQueues := { addrs := List.replicate 31 { addr := .va 0x10000, t := .n32 }, nAddrs := 31 }
def datum : AccessQueues := { datas := [mkReg 5 .n32], nDatas := 1 }
def datas31 : AccessQueues := { datas := List.replicate 31 (mkReg 5 .n32), nDatas := 31 }
def described (x : Word) : State := stateOf .front 1 (putRegs fun _ => [(14, mkReg x .n64)])

def tileA : TileEntry := { newTile .block 0 .f16x4 8 16 0 with base := 3 }
def tileF : TileEntry := { newTile .block 0 .f32 8 128 0 with base := 3 }
def tileB : TileEntry := { newTile .bstore 0 .f16x4 16 128 0 with base := 3 }
def tileM : TileEntry := { newTile .bstore 0 .n32 16 128 0 with base := 3 }
def tileC : TileEntry := { newTile .acc 0 .f32 8 128 0 with base := 3 }
def arrayed (f : Block → Block) (s : State) : State :=
  launched (fun l => { l with rcd := { launchRec with depth := 2 } }) (inBlock (fun b => f { b with
    tiles := [(2, tileA), (3, tileE), (5, tileF), (34, tileM), (35, tileB), (40, tileC)].foldl
      (fun x e => x.set e.1 (some e.2)) b.tiles }) s)
def cmd1 : Cmd := { seq := 4, unit := 0, pc := 0, engine := .matrix, op := 0, w := {} }
def beating (n : Nat) : State :=
  arrayed (fun b => { b with map := some (2, 0, .f16x4) }) (stateOf .vliw 16 fun p => { p with suppress := n })

def trapping (s : State) : State := s.modInst 0 fun i => { i with trapbase := 0x1000, svcen := 4 }
def served (r : Option (Option Word)) : State := trapping (launched id (stateOf .vliw 16 fun p =>
  { p with svc := some { port := 2, a := 3, b := 4, reply := r } }))

/-- The handler stands with unit 2, a warp that has trapped, as the unit it handles. -/
def handledUnit : ProgUnit := warpUnit 3 fun p => { p with trap := some { cause := .illegalOp } }
def handling (f : Handler → Handler) : State := launched id (addUnit 2 handledUnit
  (inCore (fun k => { k with hnd := k.hnd.map fun h => f { h with unit := 2, frameVa := 0x50000 } }) handler1))
def handles (f : Handler → Handler) : Handler :=
  (((handling f).core 0).hnd).getD { unit := 0, cause := 0, frame := { cause := .none } }

/-- A frame in memory that resumes at its start, and its bytes. -/
def frameBytes : List Byte := (List.range 64).map fun i => if i = 0x23 then 0x80 else 0

/-! ### States for the device events -/

/-- A commanded level, with every die and stack in service. -/
def atLevel (n : BitVec 2) (s : State) : State := { s with dev := { s.dev with level := n, dies := 15, hbm := 0xFFF } }
def commanding (c : BitVec 8) (a0 a1 : Word) (s : State) : State :=
  { s with dev := { s.dev with go := true, cmd := c, fwarg0 := a0, fwarg1 := a1 } }
def occupied : State := launched id (stateOf .warp 2)
def halted : Saved := { state := 3, cause := .debugHalt, blk := block0 occupied }
def savedBlock : State := launched (fun l => { l with saved := [halted] }) (stateOf .warp 2)
def replayed : Launch := { rcd := { code := .ofNat 64 placeAt, flags := 0xFFFF, raw := [1] }, order := 0, complete := true, nextG := 4 }
def finished : State := State.reset.modInst 0 fun i => { i with completed := [replayed] }

def queue3 (k : Queue) : Queue := { k with qbase := 0x30000, qseq := 0x20000, qcva := 0x40000, logs := 3 }
def headBytes (n : Nat) : List Byte := leBytes 8 n ++ leBytes 8 0x60000 ++ leBytes 8 4 ++ leBytes 8 0
def recBytes (magic : Nat) : List Byte :=
  leBytes 8 magic ++ leBytes 8 placeAt ++ leBytes 4 0 ++ leBytes 4 0x100 ++ leBytes 4 0 ++ leBytes 4 0 ++ leBytes 4 4 ++
    leBytes 4 1 ++ leBytes 4 1 ++ [1, 2, 0, 16, 0, 0, 64, 0, 1, 1, 0, 0] ++ leBytes 8 7 ++ leBytes 8 0x70000 ++ leBytes 8 0 ++
    leBytes 8 0x100000 ++ leBytes 8 0 ++ leBytes 8 0 ++ leBytes 8 100 ++ leBytes 4 4 ++ leBytes 4 0 ++
    leBytes 8 Config.deviceHash.toNat
/-- Queue 2 of instance 0 as f makes it, at cycle 100, with a page table. -/
def queueAt (f : Queue → Queue) : State :=
  { inMem 0x90000000 (leBytes 8 0x1F) (atLevel 2 (State.reset.modInst 0 fun i =>
      { i with queues := i.queues.modify 2 fun k => f (queue3 k), troot := 0x90000000 })) with cyc := 100 }
def reading : State := inMem 0x20000 (headBytes 0) (inMem 0x30000 (recBytes 0)
  (queueAt fun k => { k with en := true, doorbell := 1, reread := 100 }))
def headed (magic : Nat) : State := queueAt fun k =>
  { k with en := true, doorbell := 1, head := some (headBytes 0, recBytes magic), satisfied := true }
def nextState (r : Host.Outcome State Fault Refusal) : State := match r with | .next t => t | _ => {}
def startedAt : State := { nextState (exec (.launchStart 0) (headed 0x014C5034)) with cyc := 1000 }
def placing : List (Launch × Pending) × Option (Launch × Pending × List Nat) :=
  startedAt.firstPlaceable 0 [] (startedAt.pendingAll 0)
def crowded : State := startedAt.modInst 0 fun k =>
  { k with launches := k.launches.map fun l => { l with stages := [{ passes := List.replicate 70 100 }], rcd := { l.rcd with gang := 200 } } }
def crowd : List (Launch × Pending) := (crowded.firstPlaceable 0 [] (crowded.pendingAll 0)).1
def stageFull : Wait := { kind := .stageFull, a := 1, n := 1, b := 1, since := 1 }
def deadlocked : State :=
  let s := atLevel 2 (launched (fun l => { l with
    rcd := { launchRec with flags := 2, stages := 2 }, nextG := 1
    stages := [{ cap := 3, succ := 2 }, { cap := 3, recs := [([1, 2], 0), ([3], 0), ([4], 0)] }] })
    (stateOf .warp 2 (holding 3 [stageFull])))
  { s with cores := s.cores.mapIdx fun i k => if i = 0 then k else { k with on := false } }
def clearingCore : State := inCore (fun k => { k with clearing := true, clearDue := 5, blk := none }) { State.reset with cyc := 5 }
def tilesWaiting : State := launched (fun l => { l with
  disp := [{ cell := 0, lo := 3, hi := 9, waiting := [(0, 0)] }], rcd := { launchRec with range := 100 } })
  (stateOf .warp 2 (holding 3 [{ kind := .nextTile }]))
def unit0 (s : State) : ProgUnit := (s.unit 0 0).getD { kind := .warp, lanes := [], splits := [] }
def unit16 (s : State) : ProgUnit := (s.unit 0 16).getD { kind := .warp, lanes := [], splits := [] }
def split0 (s : State) : Split := (s.splitOf 0 0 0).getD { mask := 0, pc := 0, rpc := 0 }

def later (n : Nat) (s : State) : State := { s with cyc := n }
def slot1 (n : Word) (p : ProgUnit) : ProgUnit :=
  { p with slots := p.slots.set 1 (some { kind := .timer, num := n, handler := 0x80000040 }) }
def allJoined : State := stateOf .warp 3 fun p =>
  { p with div := [join7], splits := p.splits.map fun x => { x with joined := true, mask := 3 } }
def deadEntry : DivEntry :=
  { join7 with owed := 4, arrived := 3, deadline := some 50, flag := some 2, started := true }
def overdue : State := later 50 (stateOf .warp 3 fun p => { p with
  div := [deadEntry]
  splits := p.splits.map (fun x => { x with joined := true, mask := 3 }) ++ [{ mask := 4, pc := 0x80000500, rpc := 0x80000500 }]
  lanes := p.lanes.map fun l => { l with nest := 2 } })
def waitsFor (w : Wait) : State := later 2000 (stateOf .warp 3 (holding 7 [w]))

def words5 (s : State) : State := inMem 0x20000 (leBytes 8 5 ++ leBytes 8 (2 ^ 63 + 7)) s
def sliceReq : SliceReq :=
  { op := 0, t := .n32, items := [{ lane := 0, pa := 0x20000, b := 9 }, { lane := 1, pa := 0x20000, b := 3 }] }
def amxReq : SliceReq :=
  { op := 48, t := .f32, items := [{ lane := 0, pa := 0x11000, parts := List.replicate 32 0x3F800000 }] }
def pin5 : Pin := { line := 0x20000, unit := 0, guardVa := 0x20000, refusedAt := some 5 }
def mail63 : Mail := { dest := 1, box := 63, unit := 0, split := 0, msg := { value := 77 } }
def secondBlock (s : State) (k : Core) : Core :=
  { k with blk := (s.blk 0).map fun b => { b with bidx := 1, index := 1, units := List.replicate 22 none } }
def gangOf2 (s : State) : State :=
  launched (fun l => { l with rcd := { launchRec with gang := 2 } }) { s with cores := s.cores.modify 1 (secondBlock s) }
def pendingLoad : LoadEntry := { addr := .va 0x20000, t := .n32, after := 0 }

def copyCmd (va : Word) : Cmd :=
  { seq := 5, unit := 0, pc := .ofNat 64 placeAt, engine := .copy, op := 0, w := {},
    ops := [va, 16, 0], handles := [{ newTile .block 0 .n32 2 4 0 with base := 3 }] }
def collCmd : Cmd :=
  { copyCmd 0 with engine := .coll, ops := [0x20000, 0x30000, 0, .ofNat 64 (4 + 3 * 2 ^ 24 + 8 * 2 ^ 32 + 2 ^ 40)], handles := [] }
def peerCmd (dx : Nat) : Cmd :=
  { copyCmd 0 with engine := .peer, ops := [0x20000, 0x30000, 0, .ofNat 64 (16 + dx * 2 ^ 32)], handles := [] }
def commanded (k : Cmd) : State :=
  let s := inBlock (fun b => { b with cmds := [k], seq := 6, tiles := b.tiles.set 3 k.handles.head? }) occupied
  { s with dev := { s.dev with level := 2, dies := 15, x := 1, y := 1, rectW := 4, rectH := 4 } }

def matrixCmd (op : Nat) (h : TileEntry) : Cmd :=
  { copyCmd 0 with engine := .matrix, op := op, w := { t := h.t, sub := 1 }, ops := [0], handles := [h] }
def zeroed : TileEntry := { newTile .acc 0 .f32 2 128 0 with base := 3 }
def weights : TileEntry := newTile .bstore 0 .f8x8 128 16 0
def frame1 : Frame := { cause := .tagMismatch, pc := 0x80000008, mask := 3 }
def handler0 : Handler := { unit := 0, cause := 0x10, frame := frame1 }
def stopping : State := inBlock (fun b => { b with
  stop := some { cause := .preempt, state := 2 }, units := b.units.map fun _ => none }) occupied

/-- No core holds a block. -/
theorem emptyOf {s : State} (h : (s.cores.all fun k => k.blk.isNone) = true) : s.empty := by
  intro c
  by_cases hc : c < s.cores.length
  · have := List.all_eq_true.mp h (s.core c) (by simp [State.core, hc])
    simpa [State.blk] using this
  · have : s.core c = {} := by simp [State.core, hc]
    simp [State.blk, this]
def tilesAsked : State := launched (fun l => { l with rcd := { launchRec with range := 100, chunk := 4 } }) (stateOf .warp 2)

/-- A warp for which an asynchronous trap is recorded. -/
def recordedAsync : State := stateOf .warp 3 fun p => { p with asyncs := [{ cause := .engineFault }] }

/-- A patch block at 0x1000 that names the ROM version, whatever that is. -/
def patchBytes : List Byte := [0x4C, 0x50, 0x41, 0x54] ++ leBytes 4 Config.romVersion.toNat
def patching (bad : List Nat) : State :=
  { commanding 2 0x1000 400 (atLevel 1 State.reset) with
    mem := (List.range 8).zip patchBytes |>.map fun x => (0x1000 + x.1, x.2)
    poison := bad }

theorem patch_version (bad : List Nat) :
    leNat ((((patching bad).homeRead 0x1000 16).drop 4).take 4) = Config.romVersion.toNat := by
  have h : (((patching bad).homeRead 0x1000 16).drop 4).take 4 = leBytes 4 Config.romVersion.toNat := rfl
  rw [h]
  have hv : Config.romVersion.toNat < 2 ^ 32 := Config.romVersion.isLt
  generalize Config.romVersion.toNat = n at hv
  simp only [leBytes, leNat, BitVec.toNat_ofNat]
  omega

theorem okIs {ε α : Type} (d : α) {x : Except ε α} (h : x.toOption.isSome = true) : x = .ok (x.toOption.getD d) := by
  cases x with
  | error e => cases h
  | ok y => rfl

theorem errorIs {ε α : Type} (d : ε) {x : Except ε α} (h : x.toOption.isNone = true) :
    x = .error (match x with | .error e => e | .ok _ => d) := by
  cases x with
  | error e => rfl
  | ok y => cases h

theorem okPair {ε α : Type} {x : Except ε (State × α)} {w : α} (h : (x.toOption.map fun y => y.2) = some w) :
    x = .ok ((x.toOption.map fun y => y.1).getD {}, w) := by
  cases x with
  | error e => cases h
  | ok y => cases h; rfl

theorem nextIs {r : Host.Outcome State Fault Refusal} (h : (match r with | .next _ => true | _ => false) = true) :
    r = .next (nextState r) := by
  cases r <;> first | rfl | cases h

/-- The manual's AND word, placed; and a bundle of one, placed. -/
def placedWord : State := State.reset.withFetchWord 64 0x0800_0007_F800_6040
def placedBundle : State := State.reset.place .vliw (encode (.iadd { site := .syl 0 true, d := 4, a := 1, b := 2, t := .n32 }))
def turned : State := { placedBundle with agenda := [], cur := { core := 0, unit := 16, split := 0 } }
def bundleWords : List Word :=
  match (turned.modBlk 0 fun b => { b with ctxNow := 0 }).fetchBundle 0 (.ofNat 64 placeAt) ((unit16 placedBundle).k + 6) with
  | .ok (_, some ws) => ws
  | _ => []

/-- States and operands that meet the hypotheses of every clause of `Obligations.ArithmeticTraps`. -/
theorem witness_ArithmeticTraps :
    (∃ (s : State) (v : View) (w : ArithWord) (i : Instr), (i = .idiv w ∨ i = .irem w) ∧ Stands s i w.head v ∧
      (v.u.kind ≠ .handler) ∧ (v.unit < 21) ∧ v.noPort [w.a.toNat, w.b.toNat] ∧
      ((∀ k ∈ v.lanes, tagMatches w.t (v.u.read k w.a.toNat).tag = true ∧ tagMatches w.t (v.u.read k w.b.toNat).tag = true)) ∧
      ((∃ k ∈ v.lanes, intVal w.t (v.u.read k w.b.toNat).v = 0))) ∧
    (∃ (s : State) (v : View) (w : ArithWord) (i : Instr),
      (i = .iadd w ∨ i = .isub w ∨ i = .imul w ∨ i = .imin w ∨ i = .imax w ∨ i = .icmp w) ∧ Stands s i w.head v ∧
      (v.u.kind ≠ .handler) ∧ (v.unit < 21) ∧ v.noPort [w.a.toNat, w.b.toNat] ∧
      let bad : Nat → Bool := fun k => !(tagMatches w.t (v.u.read k w.a.toNat).tag && tagMatches w.t (v.u.read k w.b.toNat).tag)
      ((∃ k ∈ v.lanes, bad k = true))) ∧
    (∃ (s : State) (v : View) (w : ArithWord) (r : Nat → Reg) (fl : Nat → BitVec 5) (n : Nat),
      Stands s (.fadd w) w.head v ∧ (v.u.kind ≠ .handler) ∧ (v.unit < 21) ∧ v.noPort [w.a.toNat, w.b.toNat] ∧
      ((∀ k ∈ v.lanes, arith2 w Fmt.add ivalAdd k (v.u.read k w.a.toNat) (v.u.read k w.b.toNat) = .ok (r k, fl k))) ∧
      let meets := fun k => v.u.fpctl &&& fl k != 0
      let pass := ((v.byPass v.lanes).find? fun g => g.any meets).getD []
      ((∃ k ∈ v.lanes, meets k = true)) ∧ (v.u.fpctl.getLsbD n = true) ∧ ((∃ k ∈ pass, (fl k).getLsbD n = true)) ∧
      ((∀ m, m < n → v.u.fpctl.getLsbD m = true → ∀ k ∈ pass, (fl k).getLsbD m = false))) :=
  ⟨⟨warp3, _, { d := 4, a := 1, b := 29, t := .i32 }, .idiv { d := 4, a := 1, b := 29, t := .i32 }, by simp,
      stands (by decide +kernel), by decide +kernel, by decide +kernel, noPort (by decide +kernel), by decide +kernel,
      by decide +kernel⟩,
    ⟨warp3, _, { d := 4, a := 1, b := 6, t := .i32 }, .iadd { d := 4, a := 1, b := 6, t := .i32 }, by simp,
      stands (by decide +kernel), by decide +kernel, by decide +kernel, noPort (by decide +kernel), by decide +kernel⟩,
    ⟨stateOf .warp 3 fun p => { (putRegs (fun _ => [(5, mkReg 0x7F7FFFFF .f32)]) p) with fpctl := 0x14 }, _,
      { d := 4, a := 5, b := 5, t := .f32 }, fun _ => mkReg 0x7F800000 .f32, fun _ => 0x14, 2, stands (by decide +kernel),
      by decide +kernel, by decide +kernel, noPort (by decide +kernel), allOk (by decide +kernel), by decide +kernel,
      by decide +kernel, by decide +kernel, (by decide +kernel)⟩⟩

/-- States and operands that meet the hypotheses of every clause of `Obligations.IntegerComparisons`. -/
theorem witness_IntegerComparisons :
    (∃ (s : State) (v : View) (w : ArithWord), Stands s (.icmp w) w.head v ∧ v.noPort [w.a.toNat, w.b.toNat] ∧
      v.hasPred w.d.toNat ∧
      ((∀ k ∈ v.lanes, tagMatches w.t (v.u.read k w.a.toNat).tag = true ∧ tagMatches w.t (v.u.read k w.b.toNat).tag = true))) ∧
    (∃ (s : State) (v : View) (w : ImmWord), Stands s (.icmpi w) w.head v ∧ v.noPort [w.a.toNat] ∧
      v.hasPred (w.d.toNat % 8) ∧ ((∀ k ∈ v.lanes, tagMatches w.t (v.u.read k w.a.toNat).tag = true))) ∧
    (∃ (s : State) (v : View) (w : ArithWord), Faces s (.icmp w) w.head v ∧ ((v.u.kind = .context → v.cl < v.u.k)) ∧
      (6 ≤ w.sub.toNat)) ∧
    (∃ (s : State) (v : View) (w : ImmWord), Faces s (.icmpi w) w.head v ∧ ((v.u.kind = .context → v.cl < v.u.k)) ∧
      (6 ≤ w.d.toNat / 8 % 8)) :=
  ⟨⟨warp3, _, { d := 0, a := 1, b := 29, sub := 5, t := .i32 }, stands (by decide +kernel), noPort (by decide +kernel),
      hasPred (by decide +kernel), by decide +kernel⟩,
    ⟨ends, _, { d := 8, a := 1, imm := 0x80000000, t := .i32 }, stands (by decide +kernel), noPort (by decide +kernel),
      hasPred (by decide +kernel), by decide +kernel⟩,
    ⟨warp3, _, { d := 0, a := 1, b := 29, sub := 6, t := .i32 }, faces (by decide +kernel), by decide +kernel,
      by decide +kernel⟩,
    ⟨warp3, _, { d := 55, a := 1, t := .i32 }, faces (by decide +kernel), by decide +kernel, by decide +kernel⟩⟩

/-- States and operands that meet the hypotheses of every clause of `Obligations.SpecialRegisters`. -/
theorem witness_SpecialRegisters :
    (∃ (s : State) (v : View) (w : ArithWord), Stands s (.readsr w) w.head v ∧ v.hasReg w.d.toNat) ∧
    (∃ (v : View) (s : State) (k : Nat), (s.bundle = none)) ∧
    (∃ (v : View) (s : State) (k : Nat), ∃ n, (0x14 < n)) ∧
    (∃ (v : View) (s : State) (k : Nat), (v.u.kind = .warp)) ∧
    (∃ (v : View) (s : State) (k : Nat), (v.u.kind = .context)) ∧
    (∃ (v : View) (s : State) (k : Nat), (v.u.kind = .front ∨ v.u.kind = .handler)) ∧
    (∃ (v : View) (s : State) (k : Nat), (v.u.kind ≠ .handler)) ∧
    (∃ (v : View) (s : State) (k : Nat), (v.u.kind = .handler) ∧ ∃ (h : Handler) (p : ProgUnit),
      ((s.core v.core).hnd = some h) ∧ (h.unit ≠ v.unit) ∧ (s.unit v.core h.unit = some p)) ∧
    (∃ (s : State) (v : View) (w : ArithWord), Stands s (.writesr w) w.head v ∧ v.noPort [w.a.toNat] ∧
      (w.d = 0x0E ∨ w.d = 0x12 ∨ w.d = 0x13)) ∧
    (∃ (s : State) (v : View) (w : ArithWord) (h : Handler) (p : ProgUnit), Stands s (.writesr w) w.head v ∧
      (v.u.kind = .handler) ∧ ((s.core v.core).hnd = some h) ∧ (h.unit ≠ v.unit) ∧ (s.unit v.core h.unit = some p) ∧
      (w.d = 0x0D ∨ w.d = 0x14)) ∧
    (∃ (s : State) (v : View) (w : ArithWord), Faces s (.writesr w) w.head v ∧
      (preCheck v (.writesr { w with d := 0x0E }) = none) ∧ (w.d ≠ 0x0E) ∧ (w.d ≠ 0x12) ∧ (w.d ≠ 0x13)) ∧
    (∃ (v : View) (w : ArithWord), (v.u.kind = .handler) ∧ (preCheck v (.writesr { w with d := 0x0E }) = none) ∧
      (w.d ≠ 0x0D) ∧ (w.d ≠ 0x0E) ∧ (w.d ≠ 0x12) ∧ (w.d ≠ 0x13) ∧ (w.d ≠ 0x14)) :=
  ⟨⟨warp3, _, { d := 31, a := 0x14, t := .n32 }, stands (by decide +kernel), hasReg (by decide +kernel)⟩,
    ⟨seen warp3 (.nop {}) {}, warp3, 127, by decide +kernel⟩,
    ⟨seen warp3 (.nop {}) {}, warp3, 0, 0x15, by decide +kernel⟩,
    ⟨seen warp3 (.nop {}) {}, warp3, 0, by decide +kernel⟩,
    ⟨seen context16 (.nop {}) {}, context16, 0, by decide +kernel⟩,
    ⟨seen front1 (.nop {}) {}, front1, 0, by decide +kernel⟩,
    ⟨seen warp3 (.nop {}) {}, warp3, 0, by decide +kernel⟩,
    ⟨seen (handling id) (.nop {}) {}, handling id, 0, by decide +kernel, handles id, handledUnit, by decide +kernel,
      by decide +kernel, by decide +kernel⟩,
    ⟨warp3, _, { d := 0x13, a := 14 }, stands (by decide +kernel), noPort (by decide +kernel), by decide +kernel⟩,
    ⟨handling id, _, { d := 0x14, a := 20 }, handles id, handledUnit, stands (by decide +kernel), by decide +kernel,
      by decide +kernel, by decide +kernel, (by decide +kernel), by decide +kernel⟩,
    ⟨warp3, _, { d := 0x0D, a := 14 }, faces (by decide +kernel), by decide +kernel, by decide +kernel, by decide +kernel,
      (by decide +kernel)⟩,
    ⟨seen (handling id) (.nop {}) {}, { d := 0x15, a := 14 }, by decide +kernel, by decide +kernel, by decide +kernel,
      (by decide +kernel), by decide +kernel, by decide +kernel, by decide +kernel⟩⟩

/-- States and operands that meet the hypotheses of every clause of `Obligations.LaneExchange`. -/
theorem witness_LaneExchange :
    (∃ (s : State) (v : View) (w : ArithWord) (src : Nat → Nat), Stands s (.shfl w) w.head v ∧ v.hasReg w.d.toNat ∧
      ((w.sub.getLsbD 2 = false → ∀ k ∈ v.lanes, countTag (v.u.read k w.b.toNat).tag = true)) ∧
      ((∀ k ∈ v.lanes,
        let delta : Nat := if w.sub.getLsbD 2 then w.x.toNat % 128 else (v.u.read k w.b.toNat).v.toNat
        let from_ : Int := if w.sub.toNat % 4 = 0 then (delta : Int) else if w.sub.toNat % 4 = 1 then (k : Int) - delta
          else if w.sub.toNat % 4 = 2 then (k : Int) + delta else ((k ^^^ delta : Nat) : Int)
        src k = if 0 ≤ from_ ∧ Int.toNat from_ ∈ v.lanes then Int.toNat from_ else k))) ∧
    (∃ (s : State) (v : View) (w : ArithWord) (f n : Nat), Stands s (.bcast w) w.head v ∧ v.hasReg w.d.toNat ∧
      (v.first = some f) ∧
      (w.sub = 0 ∧ n = w.x.toNat % 128 ∨ w.sub = 2 ∧ n = f ∨
        w.sub = 1 ∧ n = (v.u.read f w.b.toNat).v.toNat ∧ countTag (v.u.read f w.b.toNat).tag = true)) ∧
    (∃ (s : State) (v : View) (w : ArithWord) (r : Nat → Reg), Stands s (.compact w) w.head v ∧ v.hasReg w.d.toNat ∧
      let send := v.lanes.filter fun k => (v.u.lane k).pred (w.sub.toNat % 8) == .t
      ((∀ j k : Nat, v.lanes[j]? = some k → r k = match send[j]? with
        | some n => mkReg (v.u.read n w.a.toNat).v (v.u.read n w.a.toNat).tag
        | none => mkReg 0 .und))) ∧
    (∃ (s : State) (v : View) (w : ArithWord) (m : Nat → Mask) (q : Nat → Pred), Stands s (.matchLanes w) w.head v ∧
      let x := fun k => (v.u.read k w.a.toNat).v
      (w.sub = 0) ∧ v.hasReg w.d.toNat ∧ ((v.u.lanes.length = 128 → v.hasReg (w.d.toNat + 1))) ∧
      ((∀ k ∈ v.lanes, ∀ j, (m k).getLsbD j = true ↔ j ∈ v.lanes ∧ x j = x k))) ∧
    (∃ (s : State) (v : View) (w : ArithWord) (m : Nat → Mask) (q : Nat → Pred), Stands s (.matchLanes w) w.head v ∧
      let x := fun k => (v.u.read k w.a.toNat).v
      (w.sub = 1) ∧ v.hasPred w.d.toNat ∧ ((∀ k ∈ v.lanes, q k ≠ .u ∧ (q k = .t ↔ ∀ j ∈ v.lanes, x j = x k)))) ∧
    (∃ (s : State) (v : View) (w : ArithWord), Stands s (.xmov w) w.head v ∧ (v.sel ≠ 0) ∧
      (v.u.lanes.length = v.u.k) ∧
      ((w.d = 62 ∨ ∀ k, k < v.u.k → rotated v.u.base w.d.toNat < (v.u.lane k).regs.length)) ∧ (w.sub = 0)) ∧
    (∃ (s : State) (v : View) (w : ArithWord), Stands s (.xmov w) w.head v ∧ (v.sel ≠ 0) ∧
      (v.u.lanes.length = v.u.k) ∧
      ((w.d = 62 ∨ ∀ k, k < v.u.k → rotated v.u.base w.d.toNat < (v.u.lane k).regs.length)) ∧
      let cs := (List.range v.u.k).filter fun c => c + v.cl < v.u.k
      let x := fun c => v.u.read c w.a.toNat
      let res := fun c => combine (w.sub.toNat - 1) w.t w.rm.toNat (x c).v (x (c + v.cl)).v
      (1 ≤ w.sub.toNat) ∧
      ((w.sub.toNat ≤ 3 → ∀ c ∈ cs, tagMatches w.t (x c).tag = true ∧ tagMatches w.t (x (c + v.cl)).tag = true)) ∧
      ((∀ c ∈ cs, v.u.fpctl &&& (res c).2 = 0))) ∧
    (∃ (s : State) (v : View) (w : ArithWord), Stands s (.xbcast w) w.head v ∧ (v.sel ≠ 0) ∧
      (v.u.lanes.length = v.u.k) ∧
      ((w.d = 62 ∨ ∀ k, k < v.u.k → rotated v.u.base w.d.toNat < (v.u.lane k).regs.length))) :=
  ⟨⟨warp3, _, { d := 4, a := 18, x := 1, sub := 6 }, fun k => if k < 2 then k + 1 else k, stands (by decide +kernel),
      hasReg (by decide +kernel), by decide +kernel, by decide +kernel⟩,
    ⟨warp3, _, { d := 4, a := 18, sub := 0, x := 2 }, 0, 2, stands (by decide +kernel), hasReg (by decide +kernel),
      by decide +kernel, by decide +kernel⟩,
    ⟨warp3, _, { d := 4, a := 18, sub := 1 }, fun k => mkReg (.ofNat 64 (5 + k)) .n32, stands (by decide +kernel),
      hasReg (by decide +kernel), byIndex (by decide +kernel)⟩,
    ⟨warp3, _, { d := 4, a := 1 }, fun _ => 7, fun _ => .u, stands (by decide +kernel), by decide +kernel,
      hasReg (by decide +kernel), fun _ => hasReg (by decide +kernel), masksAre (by decide +kernel)⟩,
    ⟨warp3, _, { d := 4, a := 18, sub := 1 }, fun _ => 0, fun _ => .f, stands (by decide +kernel), by decide +kernel,
      hasPred (by decide +kernel), by decide +kernel⟩,
    ⟨context16, _, { site := .syl 8 true, d := 8, a := 18 }, stands (by decide +kernel), by decide +kernel,
      by decide +kernel, by decide +kernel, (by decide +kernel)⟩,
    ⟨context16, _, { site := .syl 8 true, d := 8, a := 18, sub := 1, t := .n32 }, stands (by decide +kernel),
      by decide +kernel, by decide +kernel, by decide +kernel, (by decide +kernel), by decide +kernel, by decide +kernel⟩,
    ⟨context16, _, { site := .syl 15 true, d := 62, a := 18 }, stands (by decide +kernel), by decide +kernel,
      by decide +kernel, by decide +kernel⟩⟩

/-- States and operands that meet the hypotheses of every clause of `Obligations.ReduceAndScan`. -/
theorem witness_ReduceAndScan :
    (∃ (s : State) (v : View) (w : ArithWord), Stands s (.reduce w) w.head v ∧ v.hasReg w.d.toNat ∧
      ((∀ k ∈ v.lanes, tagMatches w.t (v.u.read k w.a.toNat).tag = true)) ∧
      let x := fun k => if k ∈ v.lanes then some (leafVal w.t (v.u.read k w.a.toNat).v, (0 : BitVec 5)) else none
      let r := treeNode (combine w.sub.toNat w.t w.rm.toNat) x 7 0
      ∃ y, (r = some y) ∧ (v.u.fpctl &&& y.2 = 0)) ∧
    (∃ (s : State) (v : View) (w : ArithWord), Stands s (.reduce w) w.head v ∧ v.hasReg w.d.toNat ∧
      ((∀ k ∈ v.lanes, tagMatches w.t (v.u.read k w.a.toNat).tag = true)) ∧ (w.sub = 0) ∧ (w.t.isInt = true)) ∧
    (∃ (s : State) (v : View) (w : ArithWord), Stands s (.scan w) w.head v ∧ v.hasReg w.d.toNat ∧
      ((∀ k ∈ v.lanes, tagMatches w.t (v.u.read k w.a.toNat).tag = true)) ∧
      let x := fun k => if k ∈ v.lanes then some (leafVal w.t (v.u.read k w.a.toNat).v, (0 : BitVec 5)) else none
      let upTo := fun k => treePrefix (combine (w.sub.toNat % 8) w.t w.rm.toNat) x (k + 1) 8 0 none
      let r := fun k => if w.sub.getLsbD 3 then (v.lanes.filter (· < k)).getLast?.bind upTo else upTo k
      (v.untrapped (fun k => ((r k).map (·.2)).getD 0))) ∧
    (∃ (s : State) (v : View) (w : ArithWord), Stands s (.scan w) w.head v ∧ v.hasReg w.d.toNat ∧
      ((∀ k ∈ v.lanes, tagMatches w.t (v.u.read k w.a.toNat).tag = true)) ∧ (w.sub = 0) ∧ (w.t.isInt = true)) :=
  ⟨⟨warp3, _, { d := 4, a := 5, t := .f32 }, stands (by decide +kernel), hasReg (by decide +kernel), by decide +kernel,
      (0x40400000, 0), by decide +kernel, by decide +kernel⟩,
    ⟨ends, _, { d := 4, a := 1, t := .i32 }, stands (by decide +kernel), hasReg (by decide +kernel), by decide +kernel,
      by decide +kernel, by decide +kernel⟩,
    ⟨scanState, _, { d := 5, a := 4, sub := 8, t := .f32 }, stands (by decide +kernel), hasReg (by decide +kernel),
      by decide +kernel, untrapped (by decide +kernel)⟩,
    ⟨warp3, _, { d := 4, a := 28, t := .i64 }, stands (by decide +kernel), hasReg (by decide +kernel), by decide +kernel,
      by decide +kernel, by decide +kernel⟩⟩

/-- States and operands that meet the hypotheses of every clause of `Obligations.PredicateInstructions`. -/
theorem witness_PredicateInstructions :
    (∃ (s : State) (v : View) (w : ArithWord) (q : Nat → Pred), Stands s (.prset w) w.head v ∧ v.hasPred w.d.toNat ∧
      let p := fun k => (v.u.lane k).pred (w.a.toNat % 8)
      let r := fun k => (v.u.lane k).pred (w.b.toNat % 8)
      ((∀ k ∈ v.lanes,
        w.sub.toNat = 0 ∧ q k = (match w.a.toNat % 4 with | 0 => .f | 1 => .t | _ => .u) ∨
        w.sub.toNat = 1 ∧ (q k = .f ↔ p k = .f ∨ r k = .f) ∧ (q k = .t ↔ p k = .t ∧ r k = .t) ∨
        w.sub.toNat = 2 ∧ (q k = .t ↔ p k = .t ∨ r k = .t) ∧ (q k = .f ↔ p k = .f ∧ r k = .f) ∨
        w.sub.toNat = 3 ∧ (q k = .t ↔ p k = .f) ∧ (q k = .f ↔ p k = .t) ∨
        w.sub.toNat = 4 ∧ (q k = .u ↔ p k = .u ∨ r k = .u) ∧ (q k = .f → p k = r k) ∧ (q k = .t → p k ≠ r k) ∨
        w.sub.toNat = 5 ∧ q k ≠ .u ∧ (q k = .t ↔ p k = .t) ∨
        w.sub.toNat = 6 ∧ q k ≠ .u ∧ (q k = .t ↔ p k = .f) ∨
        w.sub.toNat = 7 ∧ q k ≠ .u ∧ (q k = .t ↔ p k = .u) ∨
        w.sub.toNat = 8 ∧ q k = p k))) ∧
    (∃ (s : State) (v : View) (w : ArithWord) (x : Nat → Nat), Stands s (.prtoi w) w.head v ∧ v.hasReg w.d.toNat ∧
      ((∀ k ∈ v.lanes, x k < 2 ^ 16 ∧ ∀ n, n < 8 → x k / 4 ^ n % 4 = predCode ((v.u.lane k).pred n)))) ∧
    (∃ (s : State) (v : View) (w : ArithWord), Stands s (.itopr w) w.head v ∧ v.noPort [w.a.toNat] ∧
      ((∀ k ∈ v.lanes, (v.u.lane k).preds.length = 7))) ∧
    (∃ (s : State) (v : View) (w : ArithWord) (m : Mask) (q : Pred), Stands s (.vote w) w.head v ∧
      let p := fun k => (v.u.lane k).pred (w.a.toNat % 8)
      (w.sub.toNat < 3) ∧ v.hasReg w.d.toNat ∧ ((v.u.lanes.length = 128 → v.hasReg (w.d.toNat + 1))) ∧
      ((∀ j, m.getLsbD j = true ↔ j ∈ v.lanes ∧ predCode (p j) = (match w.sub.toNat with | 0 => 1 | 1 => 0 | _ => 2)))) ∧
    (∃ (s : State) (v : View) (w : ArithWord) (m : Mask) (q : Pred), Stands s (.vote w) w.head v ∧
      (w.sub.toNat = 3) ∧ v.hasReg w.d.toNat) ∧
    (∃ (s : State) (v : View) (w : ArithWord) (m : Mask) (q : Pred), Stands s (.vote w) w.head v ∧
      let p := fun k => (v.u.lane k).pred (w.a.toNat % 8)
      (w.sub.toNat = 4) ∧ v.hasPred w.d.toNat ∧ ((q = .f ↔ ∃ k ∈ v.lanes, p k = .f)) ∧
      ((q = .t ↔ ∀ k ∈ v.lanes, p k = .t))) ∧
    (∃ (s : State) (v : View) (w : ArithWord) (m : Mask) (q : Pred), Stands s (.vote w) w.head v ∧
      let p := fun k => (v.u.lane k).pred (w.a.toNat % 8)
      (w.sub.toNat = 5) ∧ v.hasPred w.d.toNat ∧ ((q = .t ↔ ∃ k ∈ v.lanes, p k = .t)) ∧
      ((q = .f ↔ ∀ k ∈ v.lanes, p k = .f))) :=
  ⟨⟨warp3, _, { d := 6, a := 2, b := 1, sub := 4 }, fun _ => .u, stands (by decide +kernel), hasPred (by decide +kernel),
      by decide +kernel⟩,
    ⟨warp3, _, { d := 4 }, fun k => 0x4000 + 0x0924, stands (by decide +kernel), hasReg (by decide +kernel),
      by decide +kernel⟩,
    ⟨warp3, _, { a := 26, x := 0x7F }, stands (by decide +kernel), noPort (by decide +kernel), by decide +kernel⟩,
    ⟨warp3, _, { d := 4, a := 1 }, 7, .u, stands (by decide +kernel), by decide +kernel, hasReg (by decide +kernel),
      fun _ => hasReg (by decide +kernel), maskIs (by decide +kernel)⟩,
    ⟨warp3, _, { d := 4, a := 1, sub := 3 }, 0, .u, stands (by decide +kernel), by decide +kernel,
      hasReg (by decide +kernel)⟩,
    ⟨warp3, _, { d := 4, a := 2, sub := 4 }, 0, .u, stands (by decide +kernel), by decide +kernel,
      hasPred (by decide +kernel), by decide +kernel, by decide +kernel⟩,
    ⟨warp3, _, { d := 4, a := 0, sub := 5 }, 0, .f, stands (by decide +kernel), by decide +kernel,
      hasPred (by decide +kernel), by decide +kernel, by decide +kernel⟩⟩

/-- States and operands that meet the hypotheses of every clause of `Obligations.FloatFunctions`. -/
theorem witness_FloatFunctions :
    MeetsC1 .frcp (fun w => fnLane w rcpVal 0) ∧
    MeetsC1 .frsq (fun w => fnLane w rsqVal 0) ∧
    MeetsC1 .fexp2 (fun w => fnLane w exp2Val 0) ∧
    MeetsC1 .flog2 (fun w => fnLane w log2Val 0) ∧
    MeetsC1 .fsinpi (fun w => fnLane w sinpiVal 0) ∧
    MeetsC1 .fcospi (fun w => fnLane w cospiVal 0) ∧
    MeetsD2 .fcmp (fun w a b =>
        if w.t = .iv32 then match ivalSources w [a, b] with
          | .error e => .error e
          | .ok [x, y] => .ok (intervalCmp w.sub.toNat x y, 0)
          | .ok _ => .ok (.f, 0)
        else if tagMatches w.t a.tag = false ∨ tagMatches w.t b.tag = false then .error { rank := 0, cause := .tagMismatch }
        else
          let x := (fmtOf w.t).val (srcElem w w.t 0 0 a)
          let y := (fmtOf w.t).val (srcElem w w.t 1 0 b)
          .ok (.of (scalarCmp w.sub.toNat x y), if x.isSnan || y.isSnan then fINV else 0)) ∧
    Meets1 .fclass (fun w a => if w.t = .iv32 then tagMatches .iv32 a.tag = true ∧ ivValid a.v = true else tagMatches w.t a.tag = true) ∧
    MeetsC1 .frnd (fun w => arith1 w (rndElem w.rm.toNat (w.sub == 1))) ∧
    MeetsC3 .fdot (fun w => dotLane w 0) ∧
    (∃ (f : Fmt) (rm n : Nat) (neg : Bool) (e : Int), (f ∈ binaryFmts) ∧ (rm < 4) ∧ (n ≠ 0)) ∧
    (∃ (s : State) (v : View) (w : ArithWord) (r : Nat → Reg) (fl : Nat → BitVec 5), Stands s (.cvt w) w.head v ∧
      v.noPort [w.a.toNat] ∧ v.hasReg w.d.toNat ∧
      ((∀ k ∈ v.lanes, cvtLane w (v.u.read k w.d.toNat) (v.u.read k w.a.toNat) = .ok (r k, fl k))) ∧ (v.untrapped fl)) ∧
    (∃ (s : State) (v : View) (w : ArithWord), Stands s (.qnt w) w.head v ∧ v.hasReg w.d.toNat ∧
      ((∀ k ∈ v.lanes, tagMatches .f32 (v.u.read k w.a.toNat).tag = true)) ∧
      let x := fun k => fmt32.val (elem .f32 0 (v.u.read k w.a.toNat).v)
      let res := fun k => qntLane w.t w.rm.toNat (qntScale w.t ((v.lanes.filter fun j => j / 32 == k / 32).map x)) (x k)
      (v.untrapped (fun k => (res k).2))) :=
  ⟨meetsC1 warp3 { d := 4, a := 5, t := .f32 } (by decide +kernel) (by decide +kernel),
    meetsC1 warp3 { d := 4, a := 5, t := .f32 } (by decide +kernel) (by decide +kernel),
    meetsC1 warp3 { d := 4, a := 5, t := .f32 } (by decide +kernel) (by decide +kernel),
    meetsC1 warp3 { d := 4, a := 5, t := .f32 } (by decide +kernel) (by decide +kernel),
    meetsC1 warp3 { d := 4, a := 5, t := .f32 } (by decide +kernel) (by decide +kernel),
    meetsC1 warp3 { d := 4, a := 5, t := .f32 } (by decide +kernel) (by decide +kernel),
    meetsD2 touching { d := 0, a := 1, b := 2, t := .iv32 } (fun _ => .u) (fun _ => 0) (by decide +kernel) (by decide +kernel),
    meets1 warp3 { d := 3, a := 9, t := .iv32 } (by decide +kernel) (by decide +kernel),
    meetsC1 warp3 { d := 4, a := 6, sub := 1, t := .f64 } (by decide +kernel) (by decide +kernel),
    meetsC3 warp3 { d := 4, a := 7, b := 7, c := 5, t := .f16x4 } (by decide +kernel) (by decide +kernel),
    ⟨fmt32, 1, 3, false, -1, by decide +kernel, by decide +kernel, by decide +kernel⟩,
    ⟨warp3, _, { d := 4, a := 5, sub := 5, t := .i32 }, fun _ => mkReg 1 .i32, fun _ => 0, stands (by decide +kernel),
      noPort (by decide +kernel), hasReg (by decide +kernel), allOk (by decide +kernel), untrapped (by decide +kernel)⟩,
    ⟨qntState, _, { d := 6, a := 4, t := .f8x8 }, stands (by decide +kernel), hasReg (by decide +kernel),
      by decide +kernel, untrapped (by decide +kernel)⟩⟩

/-- States and operands that meet the hypotheses of every clause of `Obligations.IntervalInstructions`. -/
theorem witness_IntervalInstructions :
    MeetsC2 .ivmake (fun w => ivmakeLane w 0) ∧
    MeetsC1 .ivmid (fun w => ivalBits w ivalMid 0) ∧
    MeetsC1 .ivwid (fun w => ivalBits w ivalWid 0) ∧
    MeetsC2 .ivhull (fun w => ivalTwo w ivalHull 0) ∧
    MeetsC2 .ivisect (fun w => ivalTwo w ivalMeet 0) ∧
    MeetsC1 .ivsqr (fun w a => ivalLane w (onOne ivalSqr) [a]) ∧
    MeetsC1 .ivabs (fun w a => ivalLane w (onOne ivalAbs) [a]) ∧
    Meets1 .ivlo (fun _ a => tagMatches .iv32 a.tag = true ∧ ivValid a.v = true) ∧
    Meets1 .ivhi (fun _ a => tagMatches .iv32 a.tag = true ∧ ivValid a.v = true) ∧
    MeetsD2 .ivcont (fun w a b =>
        if w.sub = 0 then
          if tagMatches .iv32 a.tag = true ∧ tagMatches .f32 b.tag = true ∧ ivValid a.v = true
          then .ok (.of (ivalHolds (if w.negA then ivalNeg (ivalOf a.v) else ivalOf a.v)
            (fmt32.modify w.negB false (b.v.toNat % 2 ^ 32))), 0)
          else .error { rank := 0, cause := .tagMismatch }
        else match ivalSources w [a, b] with
          | .ok [x, y] => .ok (.of (ivalRel w.sub.toNat x y), 0)
          | _ => .error { rank := 0, cause := .tagMismatch }) ∧
    (∃ (s : State) (v : View) (w : ArithWord) (i f : Nat) (rest : List Nat) (lo hi : Word),
      Stands s (.ivsplit w) w.head v ∧ (v.mayEnd) ∧ v.hasReg w.d.toNat ∧
      ((∀ k ∈ v.lanes, tagMatches .iv32 (v.u.read k w.d.toNat).tag = true ∧ ivValid (v.u.read k w.d.toNat).v = true)) ∧
      (openTag v w.b.toNat = true) ∧ (openFree v.u (openMask v w.b.toNat) = f :: rest) ∧
      ((v.lanes.filter fun k => (v.u.lane k).pred (w.sub.toNat % 8) == .u) = [i]) ∧
      (halves (v.u.read i w.d.toNat).v = some (lo, hi))) ∧
    (∃ (s : State) (v : View) (w : ArithWord) (i : Nat) (bs : List Byte), Stands s (.ivpop w) w.head v ∧
      (openTag v w.b.toNat = true) ∧ (openFree v.u (openMask v w.b.toNat) = []) ∧ (v.u.pail = []) ∧ (v.u.den ≠ 0) ∧
      ((v.lanes.filter fun k => (v.u.lane k).pred (w.sub.toNat % 8) == .t) = [i]) ∧
      (s.slotRead v.core (s.denVa (s.myBlk v) v.unit (v.u.den - 1)) 0x800 = some bs)) :=
  ⟨meetsC2 warp3 { d := 4, a := 5, b := 5, t := .f32 } (by decide +kernel) (by decide +kernel),
    meetsC1 warp3 { d := 4, a := 9, t := .iv32 } (by decide +kernel) (by decide +kernel),
    meetsC1 warp3 { d := 4, a := 9, t := .iv32 } (by decide +kernel) (by decide +kernel),
    meetsC2 warp3 { d := 4, a := 9, b := 9, t := .iv32 } (by decide +kernel) (by decide +kernel),
    meetsC2 warp3 { d := 4, a := 9, b := 9, t := .iv32 } (by decide +kernel) (by decide +kernel),
    meetsC1 warp3 { d := 4, a := 9, t := .iv32 } (by decide +kernel) (by decide +kernel),
    meetsC1 warp3 { d := 4, a := 9, t := .iv32 } (by decide +kernel) (by decide +kernel),
    meets1 warp3 { d := 4, a := 9, t := .iv32 } (by decide +kernel) (by decide +kernel),
    meets1 warp3 { d := 4, a := 9, t := .iv32 } (by decide +kernel) (by decide +kernel),
    meetsD2 warp3 { d := 0, a := 9, b := 5, t := .iv32 } (fun _ => .t) (fun _ => 0) (by decide +kernel) (by decide +kernel),
    ⟨splitting, _, { d := 9, b := 24, sub := 2, t := .iv32 }, 1, 5, [], 0x3FC000003F800000, 0x400000003FC00000,
      stands (by decide +kernel), (by unfold View.mayEnd; decide +kernel), hasReg (by decide +kernel), by decide +kernel,
      by decide +kernel, by decide +kernel, (by decide +kernel), by decide +kernel⟩,
    ⟨popping, _, { b := 24, sub := 1 }, 1, List.replicate 0x800 0, stands (by decide +kernel), by decide +kernel,
      by decide +kernel, by decide +kernel, (by decide +kernel), by decide +kernel, by decide +kernel⟩⟩

/-- States and operands that meet the hypotheses of every clause of `Obligations.IntervalMidpoint`. -/
theorem witness_IntervalMidpoint :
    (∃ (s : State) (v : View) (w : ArithWord) (m : Nat → Nat), Stands s (.ivmid w) w.head v ∧ v.noPort [w.a.toNat] ∧
      v.hasReg w.d.toNat ∧
      ((∀ k ∈ v.lanes, tagMatches .iv32 (v.u.read k w.a.toNat).tag = true ∧ ivValid (v.u.read k w.a.toNat).v = true)) ∧
      ((∀ k ∈ v.lanes,
        let x := if w.negA then ivalNeg (ivalOf (v.u.read k w.a.toNat).v) else ivalOf (v.u.read k w.a.toNat).v
        x = none ∧ m k = 0x7FC00000 ∨ ∃ a b, x = some (a, b) ∧
          (a = negInf ∧ b = posInf ∧ m k = 0 ∨ a = negInf ∧ b ≠ posInf ∧ m k = 0xFF7FFFFF ∨
            a ≠ negInf ∧ b = posInf ∧ m k = 0x7F7FFFFF ∨
            a ≠ negInf ∧ b ≠ posInf ∧ ∃ sa na ea sb nb eb, fmt32.val a = .fin sa na ea ∧ fmt32.val b = .fin sb nb eb ∧
              let sum := addDyadic sa na ea sb nb eb
              let mid := (fmt32.roundInt 0 sum.1 (sum.2 - 1) false).1
              m k = zeroPlus (if ordF32 mid < ordF32 a then a else if ordF32 b < ordF32 mid then b else mid))))) ∧
    (∃ x lo hi : Word, (halves x = some (lo, hi))) :=
  ⟨⟨stateOf .warp 1, _, { d := 4, a := 9, t := .iv32 }, fun _ => 0x3FC00000, stands (by decide +kernel),
      noPort (by decide +kernel), hasReg (by decide +kernel), by decide +kernel,
      oneLane 0 (by decide +kernel) (Or.inr ⟨0x3F800000, 0x40000000, by decide +kernel, Or.inr (Or.inr (Or.inr ⟨by decide, by decide, false, 0x800000, -23, false, 0x800000, -22, by decide +kernel, by decide +kernel, by decide +kernel⟩))⟩)⟩,
    ⟨0x400000003F800000, 0x3FC000003F800000, 0x400000003FC00000, by decide +kernel⟩⟩

/-- States and operands that meet the hypotheses of every clause of `Obligations.StraightLineAndLoops`. -/
theorem witness_StraightLineAndLoops :
    (∃ (s : State) (v : View) (w : ArithWord), Stands s (.nop w) w.head v) ∧
    (∃ (s : State) (v : View) (w : ArithWord), Stands s (.evpend w) w.head v ∧ v.hasPred w.d.toNat) ∧
    (∃ (s : State) (v : View) (w : ArithWord), Stands s (.yield w) w.head v ∧
      let s1 := s.begun (.yield w) v
      let others := s1.readyOthers v.core (s1.myBlk v) v.u.quarter v.unit v.split
      (v.u.kind ≠ .warp ∨ v.sel = 0 ∨ others = [])) ∧
    (∃ (s : State) (v : View) (w : ArithWord), Stands s (.yield w) w.head v ∧
      let s1 := s.begun (.yield w) v
      let others := s1.readyOthers v.core (s1.myBlk v) v.u.quarter v.unit v.split
      (v.u.kind = .warp) ∧ (v.sel ≠ 0) ∧ (others ≠ [])) ∧
    (∃ (s : State) (v : View) (w : ArithWord) (k : Nat), Stands s (.sleepuntil w) w.head v ∧ v.noPort [w.a.toNat] ∧
      (v.mayEnd) ∧ (v.first = some k) ∧ (v.sp.waits = []) ∧ (baseTag (v.u.read k w.a.toNat).tag = true) ∧
      ((v.u.read k w.a.toNat).v.toNat ≤ s.cyc) ∧ ((w.sub = 1 → s.copyLate v (w.x.toNat % 64) = false))) ∧
    (∃ (s : State) (v : View) (w : ArithWord), Stands s (.region w) w.head v ∧ (v.sel ≠ 0) ∧ (v.mayEnd) ∧
      (v.u.pending = []) ∧ (v.passesEntry s)) ∧
    (∃ (s : State) (v : View) (w : ArithWord), Stands s (.region w) w.head v ∧ (v.sel ≠ 0) ∧ (v.mayEnd) ∧
      (v.u.pending = []) ∧
      (v.u.asyncs ≠ [] ∧ (s.core v.core).hnd = none ∨
        v.u.kind = .warp ∧ (s.myBlk v).stop ≠ none ∧ (s.core v.core).arr.opened = [])) ∧
    (∃ (s : State) (v : View) (w : ImmWord), Stands s (.trap w) w.head v ∧ (v.sel ≠ 0) ∧ (v.mayEnd) ∧
      (v.u.kind ≠ .handler) ∧ (v.unit < 21)) ∧
    (∃ (s : State) (v : View) (w : ArithWord) (k : Nat), Stands s (.loop w) w.head v ∧ v.noPort [w.a.toNat] ∧
      (v.first = some k) ∧ (tagMatches .n32 (v.u.read k w.a.toNat).tag = true) ∧ (v.u.loops.length < 8)) ∧
    (∃ (s : State) (v : View) (w : ArithWord) (e : LoopEntry) (rest : List LoopEntry),
      Stands s (.endloop w) w.head v ∧ (v.sel ≠ 0) ∧ (v.u.loops = e :: rest) ∧ (1 < e.count)) ∧
    (∃ (s : State) (v : View) (w : ArithWord) (e : LoopEntry) (rest : List LoopEntry),
      Stands s (.endloop w) w.head v ∧ (v.sel ≠ 0) ∧ (v.u.loops = e :: rest) ∧ (e.count ≤ 1)) :=
  ⟨⟨warp3, _, { g := { gm := .ifT, pg := 0 } }, stands (by decide +kernel)⟩,
    ⟨warp3, _, { d := 7, x := 0xFF }, stands (by decide +kernel), hasPred (by decide +kernel)⟩,
    ⟨warp3, _, {}, stands (by decide +kernel), by decide +kernel⟩,
    ⟨addUnit 1 (warpUnit 3) warp3, _, {}, stands (by decide +kernel), by decide +kernel, by decide +kernel,
      by decide +kernel⟩,
    ⟨warp3, _, { a := 22, sub := 1, x := 63 }, 0, stands (by decide +kernel), noPort (by decide +kernel),
      (by unfold View.mayEnd; decide +kernel), by decide +kernel, by decide +kernel, by decide +kernel, (by decide +kernel),
      by decide +kernel⟩,
    ⟨warp3, _, {}, stands (by decide +kernel), by decide +kernel, (by unfold View.mayEnd; decide +kernel),
      by decide +kernel, (by unfold View.passesEntry; decide +kernel)⟩,
    ⟨recordedAsync, _, {}, stands (by decide +kernel), by decide +kernel, (by unfold View.mayEnd; decide +kernel),
      by decide +kernel, Or.inl (by decide +kernel)⟩,
    ⟨warp3, _, { imm := 0xFFFFFFFF }, stands (by decide +kernel), by decide +kernel,
      (by unfold View.mayEnd; decide +kernel), by decide +kernel, by decide +kernel⟩,
    ⟨stateOf .vliw 16 fun p => { p with loops := List.replicate 7 { start := 0, count := 2 } }, _,
      { site := .syl 0 true, a := 21, t := .n32 }, 0, stands (by decide +kernel), noPort (by decide +kernel),
      by decide +kernel, by decide +kernel, by decide +kernel⟩,
    ⟨looping 2, _, { site := .syl 0 true,  }, { start := 0x80000400, count := 2, base := 11 }, [],
      stands (by decide +kernel), by decide +kernel, by decide +kernel, by decide +kernel⟩,
    ⟨looping 1, _, { site := .syl 0 true,  }, { start := 0x80000400, count := 1, base := 11 }, [],
      stands (by decide +kernel), by decide +kernel, by decide +kernel, by decide +kernel⟩⟩

/-- States and operands that meet the hypotheses of every clause of `Obligations.Branches`. -/
theorem witness_Branches :
    (∃ (s : State) (v : View) (w : BranchWord), Stands s (.bra w) w.head v ∧ (v.u.kind ≠ .warp)) ∧
    (∃ (s : State) (v : View) (w : BranchWord) (take : Bool), Stands s (.bra w) w.head v ∧ (v.u.kind = .warp) ∧
      (w.joff = 0) ∧ ((∃ k, k < v.u.lanes.length ∧ v.act.getLsbD k = true)) ∧
      ((∀ k, v.u.lanes.length ≤ k → v.act.getLsbD k = false)) ∧
      ((∀ k, k < v.u.lanes.length → v.act.getLsbD k = true →
        (v.sel.getLsbD k && inClass w.cls ((v.u.lane k).pred w.pb.toNat)) = take))) ∧
    (∃ (s : State) (v : View) (w : BranchWord) (take : Mask), Stands s (.bra w) w.head v ∧ (v.u.kind = .warp) ∧
      (w.joff ≠ 0) ∧
      ((∀ k, take.getLsbD k = true ↔ k ∈ v.lanes ∧ inClass w.cls ((v.u.lane k).pred w.pb.toNat) = true)) ∧
      ((∀ k ∈ v.actives, (v.u.lane k).nest ≠ 255)) ∧ (v.u.div.length < 256)) ∧
    (∃ (s : State) (v : View) (w : BranchWord), Stands s (.bra w) w.head v ∧ (v.u.kind = .warp) ∧ (v.unit < 21) ∧
      let takes := fun k => v.sel.getLsbD k = true ∧ inClass w.cls ((v.u.lane k).pred w.pb.toNat) = true
      (w.joff = 0) ∧ ((∃ k ∈ v.actives, takes k)) ∧ ((∃ k ∈ v.actives, ¬takes k))) ∧
    (∃ (s : State) (v : View) (w : BranchWord), Stands s (.bra w) w.head v ∧ (v.u.kind = .warp) ∧ (v.unit < 21) ∧
      ∃ m : Mask, (w.joff ≠ 0) ∧ ((∀ k, m.getLsbD k = true ↔ k ∈ v.actives ∧ (v.u.lane k).nest = 255)) ∧ (m ≠ 0)) ∧
    (∃ (s : State) (v : View) (w : BranchWord), Stands s (.bra w) w.head v ∧ (v.u.kind = .warp) ∧ (v.unit < 21) ∧
      (w.joff ≠ 0) ∧ ((∀ k ∈ v.actives, (v.u.lane k).nest ≠ 255)) ∧ (256 ≤ v.u.div.length)) :=
  ⟨⟨front1, _, { pb := 1, cls := 2, off := 4 }, stands (by decide +kernel), by decide +kernel⟩,
    ⟨warp3, _, { pb := 1, cls := 2, off := 4 }, true, stands (by decide +kernel), by decide +kernel, by decide +kernel, ⟨0,
      by decide +kernel⟩, maskBelow (by decide +kernel), by decide +kernel⟩,
    ⟨warp3, _, { pb := 1, cls := 2, off := 4, joff := 8 }, 7, stands (by decide +kernel), by decide +kernel,
      by decide +kernel, maskIs (by decide +kernel), by decide +kernel, by decide +kernel⟩,
    ⟨partingWarp, _, { pb := 1, cls := 2, off := 4 }, stands (by decide +kernel), by decide +kernel, by decide +kernel,
      by decide +kernel, ⟨0, by decide +kernel, by decide +kernel⟩, ⟨1, by decide +kernel, by decide +kernel⟩⟩,
    ⟨nestedWarp, _, { pb := 1, cls := 2, off := 4, joff := 8 }, stands (by decide +kernel), by decide +kernel,
      by decide +kernel, 2, by decide +kernel, maskIs (by decide +kernel), by decide +kernel⟩,
    ⟨stateOf .warp 3 fun p => { p with div := List.replicate 256 join7 }, _, { pb := 1, cls := 2, off := 4, joff := 8 },
      stands (by decide +kernel), by decide +kernel, by decide +kernel, by decide +kernel, (by decide +kernel),
      by decide +kernel⟩⟩

/-- States and operands that meet the hypotheses of every clause of `Obligations.UniformTransfers`. -/
theorem witness_UniformTransfers :
    (∃ (s : State) (v : View) (w : BranchWord), Stands s (.jmp w) w.head v ∧ (v.uniform)) ∧
    (∃ (s : State) (v : View) (w : ArithWord) (a : Word), Stands s (.jmpr w) w.head v ∧ (v.uniform) ∧
      (v.lanes ≠ []) ∧
      ((∀ k ∈ v.lanes, (v.u.read k w.a.toNat).v = a ∧
        ((v.u.read k w.a.toNat).tag = .b64 ∨ (v.u.read k w.a.toNat).tag = .n64))) ∧
      (a.toNat % 8 = 0)) ∧
    (∃ (s : State) (v : View) (w : BranchWord), Stands s (.call w) w.head v ∧ (v.uniform) ∧ (v.mayEnd) ∧
      (v.u.rets.length < 32)) ∧
    (∃ (s : State) (v : View) (w : ArithWord) (a : Word) (rest : List Word), Stands s (.ret w) w.head v ∧
      (v.uniform) ∧ (v.mayEnd) ∧ (v.u.rets = a :: rest) ∧ (a.toNat % 8 = 0)) ∧
    (∃ (s : State) (v : View) (i : Instr) (h : Head),
      ((∃ w, i = .jmp w ∧ h = w.head) ∨ (∃ w, i = .call w ∧ h = w.head) ∨
        (∃ w, i = .ret w ∧ h = w.head) ∨ (∃ w, i = .jmpr w ∧ h = w.head)) ∧
      Stands s i h v ∧ (v.sel = 0)) ∧
    (∃ (s : State) (v : View) (i : Instr) (h : Head),
      ((∃ w, i = .jmp w ∧ h = w.head) ∨ (∃ w, i = .call w ∧ h = w.head) ∨
        (∃ w, i = .ret w ∧ h = w.head) ∨ (∃ w, i = .jmpr w ∧ h = w.head)) ∧
      Stands s i h v ∧ (v.u.kind = .warp) ∧ (v.sel ≠ 0) ∧ (¬(v.act = v.u.threads ∧ v.sel = v.act)) ∧ (v.unit < 21)) ∧
    (∃ (s : State) (v : View) (i : Instr) (h : Head),
      ((∃ w, i = .jmp w ∧ h = w.head) ∨ (∃ w, i = .call w ∧ h = w.head) ∨
        (∃ w, i = .ret w ∧ h = w.head) ∨ (∃ w, i = .jmpr w ∧ h = w.head)) ∧
      Stands s i h v ∧ (v.uniform) ∧ (v.u.kind ≠ .handler) ∧ (v.unit < 21) ∧
      ((∃ w, i = .call w) ∧ 32 ≤ v.u.rets.length ∨
        (∃ w, i = .ret w) ∧ v.u.rets = [])) :=
  ⟨⟨warp3, _, { off := 0x80000 }, stands (by decide +kernel), (by unfold View.uniform; decide +kernel)⟩,
    ⟨warp3, _, { a := 20 }, 0x11000, stands (by decide +kernel), (by unfold View.uniform; decide +kernel),
      by decide +kernel, by decide +kernel, by decide +kernel⟩,
    ⟨stateOf .warp 3 fun p => { p with rets := List.replicate 31 0x800 }, _, { off := 4 }, stands (by decide +kernel),
      (by unfold View.uniform; decide +kernel), (by unfold View.mayEnd; decide +kernel), by decide +kernel⟩,
    ⟨stateOf .warp 3 fun p => { p with rets := [0x800, 8] }, _, {}, 0x800, [8], stands (by decide +kernel),
      (by unfold View.uniform; decide +kernel), (by unfold View.mayEnd; decide +kernel), by decide +kernel,
      by decide +kernel⟩,
    ⟨warp3, _, .jmp { g := { gm := .ifT, pg := 0 }, off := 4 },
      ({ g := { gm := .ifT, pg := 0 }, off := 4 } : BranchWord).head, Or.inl ⟨_, rfl, rfl⟩, stands (by decide +kernel),
      by decide +kernel⟩,
    ⟨splitting, _, .jmp { g := { gm := .ifU, pg := 2 }, off := 4 },
      ({ g := { gm := .ifU, pg := 2 }, off := 4 } : BranchWord).head, Or.inl ⟨_, rfl, rfl⟩, stands (by decide +kernel),
      by decide +kernel, by decide +kernel, by decide +kernel, (by decide +kernel)⟩,
    ⟨stateOf .warp 3 fun p => { p with rets := List.replicate 32 0x800 }, _, .call { off := 4 },
      ({ off := 4 } : BranchWord).head, Or.inr (Or.inl ⟨_, rfl, rfl⟩), stands (by decide +kernel),
      (by unfold View.uniform; decide +kernel), by decide +kernel, by decide +kernel, Or.inl ⟨⟨_, rfl⟩, by decide +kernel⟩⟩⟩

/-- States and operands that meet the hypotheses of every clause of `Obligations.Joins`. -/
theorem witness_Joins :
    (∃ (s : State) (v : View) (w : ImmWord) (n : Nat) (e : DivEntry), Stands s (.join w) w.head v ∧
      (v.u.div.findIdx? (fun e => v.act &&& ~~~e.owed == 0) = some n) ∧ (v.u.div[n]? = some e) ∧ (e.jpc = v.addr) ∧
      ((∀ k ∈ List.range v.u.lanes.length, (v.u.lane k).preds.length = 7)) ∧ (e.owed &&& ~~~v.act = 0) ∧ (v.mayEnd)) ∧
    (∃ (s : State) (v : View) (w : ImmWord) (n : Nat) (e : DivEntry), Stands s (.join w) w.head v ∧
      (v.u.div.findIdx? (fun e => v.act &&& ~~~e.owed == 0) = some n) ∧ (v.u.div[n]? = some e) ∧ (e.jpc = v.addr) ∧
      ((∀ k ∈ List.range v.u.lanes.length, (v.u.lane k).preds.length = 7)) ∧ (e.owed &&& ~~~v.act ≠ 0)) :=
  ⟨⟨joining 7, _, {}, 1, join7, stands (by decide +kernel), by decide +kernel, by decide +kernel, by decide +kernel,
      (by decide +kernel), by decide +kernel, (by unfold View.mayEnd; decide +kernel)⟩,
    ⟨joining 1, _, {}, 1, join7, stands (by decide +kernel), by decide +kernel, by decide +kernel, by decide +kernel,
      (by decide +kernel), by decide +kernel⟩⟩

/-- States and operands that meet the hypotheses of every clause of `Obligations.Exits`. -/
theorem witness_Exits :
    (∃ (s : State) (v : View) (w : ArithWord), Stands s (.exit w) w.head v ∧
      let left := (v.u.modSplit v.split fun p => { p with mask := p.mask &&& ~~~v.sel }).dropLanes v.sel
      (v.u.kind = .warp) ∧ (v.mayEnd) ∧ (left.threads ≠ 0)) ∧
    (∃ (s : State) (v : View) (w : ArithWord), Stands s (.exit w) w.head v ∧
      let left := (v.u.modSplit v.split fun p => { p with mask := p.mask &&& ~~~v.sel }).dropLanes v.sel
      (v.u.kind = .warp) ∧ (v.mayEnd) ∧ (left.threads = 0)) ∧
    (∃ (s : State) (v : View) (w : ArithWord), Stands s (.exit w) w.head v ∧
      (v.u.kind = .front ∨ v.u.kind = .context) ∧ (v.sel ≠ 0) ∧ (v.mayEnd)) ∧
    (∃ (s : State) (v : View) (w : ArithWord), Stands s (.exit w) w.head v ∧
      (v.u.kind = .handler ∨ v.u.kind ≠ .warp ∧ v.sel = 0)) :=
  ⟨⟨splitting, _, { g := { gm := .ifU, pg := 2 } }, stands (by decide +kernel), by decide +kernel,
      (by unfold View.mayEnd; decide +kernel), by decide +kernel⟩,
    ⟨warp3, _, {}, stands (by decide +kernel), by decide +kernel, (by unfold View.mayEnd; decide +kernel),
      by decide +kernel⟩,
    ⟨front1, _, {}, stands (by decide +kernel), by decide +kernel, by decide +kernel,
      (by unfold View.mayEnd; decide +kernel)⟩,
    ⟨handler1, _, {}, stands (by decide +kernel), by decide +kernel⟩⟩

/-- States and operands that meet the hypotheses of every clause of `Obligations.Barriers`. -/
theorem witness_Barriers :
    (∃ (s : State) (v : View) (w : ArithWord) (i : Instr) (b : Block), (i = .bar w ∨ i = .bararr w) ∧
      Stands s i w.head v ∧ (v.sel ≠ 0) ∧ (v.mayEnd) ∧ (s.blk v.core = some b) ∧
      let id := w.sub.toNat
      let count := w.x.toNat
      let bar := s.barrier b id
      (s.hasBars b id) ∧ (count ≤ s.barLimit b id) ∧ (bar.count = none ∨ bar.count = some count) ∧
      ((b.bidx, v.unit) ∉ bar.arrived) ∧ ((16 ≤ id → s.unpinned v.core)) ∧
      ((v.u.kind = .warp → v.u.elsewhere id = false)) ∧
      ((i = .bar w → (v.sp.waits.find? fun x => x.kind == .barrier && x.a == id) = none ∧
        (v.u.kind = .warp → v.u.othersAt v.split id = true))) ∧
      let met := count ≠ 0 ∧ count ≤ bar.arrived.length + 1 ∨
        count = 0 ∧ ∀ x ∈ s.barUnits b id, x = (b.bidx, v.unit) ∨ x ∈ bar.arrived
      (met)) ∧
    (∃ (s : State) (v : View) (w : ArithWord) (i : Instr) (b : Block), (i = .bar w ∨ i = .bararr w) ∧
      Stands s i w.head v ∧ (v.sel ≠ 0) ∧ (v.mayEnd) ∧ (s.blk v.core = some b) ∧
      let id := w.sub.toNat
      let count := w.x.toNat
      let bar := s.barrier b id
      (s.hasBars b id) ∧ (count ≤ s.barLimit b id) ∧ (bar.count = none ∨ bar.count = some count) ∧
      ((b.bidx, v.unit) ∉ bar.arrived) ∧ ((16 ≤ id → s.unpinned v.core)) ∧
      ((v.u.kind = .warp → v.u.elsewhere id = false)) ∧
      ((i = .bar w → (v.sp.waits.find? fun x => x.kind == .barrier && x.a == id) = none ∧
        (v.u.kind = .warp → v.u.othersAt v.split id = true))) ∧
      let met := count ≠ 0 ∧ count ≤ bar.arrived.length + 1 ∨
        count = 0 ∧ ∀ x ∈ s.barUnits b id, x = (b.bidx, v.unit) ∨ x ∈ bar.arrived
      (¬met) ∧ (i = .bararr w)) :=
  ⟨⟨arriving 2, _, { sub := 3, x := 2 }, .bar { sub := 3, x := 2 }, block0 (arriving 2), by simp,
      stands (by decide +kernel), by decide +kernel, (by unfold View.mayEnd; decide +kernel), by decide +kernel,
      Or.inl ⟨by decide, by decide +kernel⟩, by decide +kernel, by decide +kernel, by decide +kernel,
      fun _ => unpinned (by decide +kernel), by decide +kernel, (fun _ => by decide +kernel), by decide +kernel⟩,
    ⟨arriving 3, _, { sub := 3, x := 3 }, .bararr { sub := 3, x := 3 }, block0 (arriving 3), by simp,
      stands (by decide +kernel), by decide +kernel, (by unfold View.mayEnd; decide +kernel), by decide +kernel,
      Or.inl ⟨by decide, by decide +kernel⟩, by decide +kernel, by decide +kernel, by decide +kernel,
      fun _ => unpinned (by decide +kernel), by decide +kernel, (fun h => by cases h), by decide +kernel, rfl⟩⟩

/-- States and operands that meet the hypotheses of every clause of `Obligations.Events`. -/
theorem witness_Events :
    (∃ (s : State) (v : View) (w : ArithWord), Stands s (.evmask w) w.head v ∧ (v.sel ≠ 0)) ∧
    (∃ (s : State) (v : View) (w : ArithWord), Stands s (.evclr w) w.head v ∧ (v.sel ≠ 0)) ∧
    (∃ (s : State) (v : View) (w : ArithWord), Stands s (.evunbind w) w.head v ∧ (v.sel ≠ 0)) ∧
    (∃ (s : State) (v : View) (w : EvBindWord) (r : BindReq) (now : Bool), Stands s (.evbind w) w.head v ∧
      (v.binds w r) ∧ (r.slot < v.u.slots.length) ∧ (r.kind ≤ 4) ∧ (s.handlerOk v r.handler = true) ∧
      (r.kind ≤ 1 ∧ now = false ∨
        r.kind = 2 ∧ (now = true ↔ ((s.core v.core).mail[r.num.toNat]?).getD [] ≠ []) ∨
        r.kind = 4 ∧ (now = true ↔ r.num.toNat ≤ s.cyc) ∨
        r.kind = 3 ∧ r.num.toNat % 8 = 0 ∧ (∃ pa, s.translate v.core .load r.num = .ok pa ∧ s.pinHolder v.core pa = none ∧
          (s.landLine v.core pa).poisonedIn pa 8 = false ∧
          (now = true ↔ ((s.landLine v.core pa).homeWord pa).toInt ≤ ((r.thresh.setWidth 32).signExtend 64).toInt)))) ∧
    (∃ (s : State) (v : View) (w : ArithWord) (n : Nat) (e : EventSlot), Stands s (.waitany w) w.head v ∧
      (v.uniform) ∧ (v.mayEnd) ∧ v.hasReg w.d.toNat ∧ (n < 8) ∧
      ((v.u.evp &&& v.u.evm &&& BitVec.ofNat 8 w.mask8).getLsbD n = true) ∧
      ((∀ m, m < n → (v.u.evp &&& v.u.evm &&& BitVec.ofNat 8 w.mask8).getLsbD m = false)) ∧
      (v.u.slots[n]? = some (some e))) :=
  ⟨⟨warp3, _, { sub := 2, x := 0xFF }, stands (by decide +kernel), by decide +kernel⟩,
    ⟨context16, _, { site := .syl 0 true, x := 63, c := 3 }, stands (by decide +kernel), by decide +kernel⟩,
    ⟨warp3, _, { x := 7 }, stands (by decide +kernel), by decide +kernel⟩,
    ⟨launched id warp3, _, .word {} 3 2 8 0 false 5,
      { slot := 3, kind := 2, num := 5, handler := 0x80000040, thresh := 0 }, false, stands (by decide +kernel), ⟨rfl, rfl,
      by decide +kernel, by decide +kernel, Or.inl ⟨by decide, rfl, rfl⟩⟩, by decide +kernel, by decide +kernel,
      by decide +kernel, Or.inr (Or.inl ⟨rfl, by decide +kernel⟩)⟩,
    ⟨stateOf .warp 3 fun p => { p with evp := 0x18, evm := 0xF8, slots := p.slots.set 3 (some slot3) }, _,
      { d := 4, x := 0xFF }, 3, slot3, stands (by decide +kernel), (by unfold View.uniform; decide +kernel),
      (by unfold View.mayEnd; decide +kernel), hasReg (by decide +kernel), by decide +kernel, by decide +kernel,
      by decide +kernel, (by decide +kernel)⟩⟩

/-- States and operands that meet the hypotheses of every clause of `Obligations.Mailboxes`. -/
theorem witness_Mailboxes :
    (∃ (s : State) (v : View) (w : ArithWord) (k c : Nat), Stands s (.send w) w.head v ∧ v.noPort [w.a.toNat] ∧
      (v.mayEnd) ∧ (v.first = some k) ∧ (v.sp.waits = []) ∧ (s.slow = false) ∧ (s.unpinned v.core) ∧
      (gridCore v.core ((w.sub.setWidth 2).toInt) (((w.sub >>> 2).setWidth 3).toInt) = some c) ∧
      (s.inGang (s.myBlk v) c = true) ∧ (c < s.cores.length) ∧ (c < Config.numCores) ∧
      let box := w.x.toNat % 64
      (box < (s.core c).mail.length) ∧ (((s.core c).mail[box]?.getD []).length < 4)) ∧
    (∃ (s : State) (v : View) (w : ArithWord), Stands s (.mbread w) w.head v ∧ (v.sel ≠ 0) ∧ (v.mayEnd) ∧
      v.hasReg w.d.toNat ∧
      let box := w.x.toNat % 64
      let held := (s.core v.core).mail[box]?.getD []
      ∃ m rest, (held = m :: rest)) ∧
    (∃ (s : State) (v : View) (w : ArithWord), Stands s (.mbread w) w.head v ∧ (v.sel ≠ 0) ∧ (v.mayEnd) ∧
      v.hasReg w.d.toNat ∧
      let box := w.x.toNat % 64
      let held := (s.core v.core).mail[box]?.getD []
      (held = [])) :=
  ⟨⟨launched id (inCore (fun k => { k with mail := k.mail.set 63 [{ value := 1 }, { value := 2 }, { value := 3 }] }) warp3),
      _, { a := 14, x := 63 }, 0, 0, stands (by decide +kernel), noPort (by decide +kernel),
      (by unfold View.mayEnd; decide +kernel), by decide +kernel, by decide +kernel, by decide +kernel,
      unpinned (by decide +kernel), by decide +kernel, by decide +kernel, by decide +kernel, (by decide +kernel),
      by decide +kernel, by decide +kernel⟩,
    ⟨inCore (fun k => { k with mail := k.mail.set 63 [{ value := 77 }] }) warp3, _, { d := 4, x := 63 },
      stands (by decide +kernel), by decide +kernel, (by unfold View.mayEnd; decide +kernel), hasReg (by decide +kernel),
      { value := 77 }, [], by decide +kernel⟩,
    ⟨warp3, _, { d := 4, x := 63 }, stands (by decide +kernel), by decide +kernel, (by unfold View.mayEnd; decide +kernel),
      hasReg (by decide +kernel), by decide +kernel⟩⟩

/-- States and operands that meet the hypotheses of every clause of `Obligations.WorkQueues`. -/
theorem witness_WorkQueues :
    (∃ (s : State) (v : View) (w : ArithWord) (b : Block) (x : Word), Stands s (.popd w) w.head v ∧ (v.sel ≠ 0) ∧
      (v.mayEnd) ∧ (badInterval w.t x = false) ∧ v.hasReg w.d.toNat ∧ (s.blk v.core = some b) ∧
      let pos := v.u.dqPos.getD b.dqBase
      (b.dq[pos - b.dqBase]? = some x)) ∧
    (∃ (s : State) (v : View) (w : ArithWord) (b : Block), Stands s (.pushd w) w.head v ∧ (v.sel ≠ 0) ∧
      (s.blk v.core = some b) ∧ (b.readers ≠ []) ∧ (b.dq.length < 64)) ∧
    (∃ (s : State) (v : View) (w : ArithWord) (b : Block), Stands s (.pushd w) w.head v ∧ (v.sel ≠ 0) ∧
      (s.blk v.core = some b) ∧ (b.readers = [])) ∧
    (∃ (s : State) (v : View) (w : ArithWord) (b : Block) (l : Launch), Stands s (.nexttile w) w.head v ∧
      (v.sel ≠ 0) ∧ (v.mayEnd) ∧ (s.slow = false) ∧ (v.sp.waits = []) ∧ (s.blk v.core = some b) ∧
      (s.launch b.inst b.launch = some l) ∧ (l.rcd.range ≠ 0) ∧
      let d := l.dispenser (cellOf v.core)
      (d.waiting = []) ∧ (d.lo < d.hi) ∧ (v.u.kind ≠ .context) ∧ v.hasReg w.d.toNat) ∧
    (∃ (s : State) (v : View) (w : ArithWord) (b : Block) (l : Launch), Stands s (.nexttile w) w.head v ∧
      (v.sel ≠ 0) ∧ (v.mayEnd) ∧ (s.slow = false) ∧ (v.sp.waits = []) ∧ (s.blk v.core = some b) ∧
      (s.launch b.inst b.launch = some l) ∧ (l.rcd.range ≠ 0) ∧
      let d := l.dispenser (cellOf v.core)
      (d.waiting = []) ∧ (d.lo < d.hi) ∧ (v.u.kind = .context) ∧ (v.cl = 0) ∧ (w.d = 60)) ∧
    (∃ (s : State) (v : View) (w : ArithWord) (k : Nat) (b : Block) (l : Launch) (here towards : Stage),
      Stands s (.sqpush w) w.head v ∧ (v.first = some k) ∧ (v.mayEnd) ∧ (s.unpinned v.core) ∧
      ((v.u.kind = .context → w.a.toNat + 8 ≤ 63)) ∧ (s.blk v.core = some b) ∧ (s.launch b.inst b.launch = some l) ∧
      (l.rcd.flags / 2 % 2 = 1) ∧
      let t := w.x.toNat % 8
      (t < l.rcd.stages) ∧ (l.stages[b.stage]? = some here) ∧ (here.succ.getLsbD t = true) ∧
      (l.stages[t]? = some towards) ∧ (towards.recs.length < towards.cap)) :=
  ⟨⟨queued (stateOf .warp 3 fun p => { p with dqPos := some 6 }), _, { d := 4, t := .n64 },
      block0 (queued (stateOf .warp 3 fun p => { p with dqPos := some 6 })), 33, stands (by decide +kernel),
      by decide +kernel, (by unfold View.mayEnd; decide +kernel), by decide +kernel, hasReg (by decide +kernel),
      by decide +kernel, by decide +kernel⟩,
    ⟨queued (addUnit 1 (warpUnit 3 fun p => { p with dqPos := some 5 }) front1), _, { a := 14 },
      block0 (queued (addUnit 1 (warpUnit 3 fun p => { p with dqPos := some 5 }) front1)), stands (by decide +kernel),
      by decide +kernel, by decide +kernel, by decide +kernel, (by decide +kernel)⟩,
    ⟨front1, _, { a := 14 }, block0 front1, stands (by decide +kernel), by decide +kernel, by decide +kernel,
      by decide +kernel⟩,
    ⟨staged warp3, _, { d := 4 }, block0 warp3, launch0 (staged warp3), stands (by decide +kernel), by decide +kernel,
      (by unfold View.mayEnd; decide +kernel), by decide +kernel, by decide +kernel, by decide +kernel, (by decide +kernel),
      by decide +kernel, by decide +kernel, by decide +kernel, (by decide +kernel), hasReg (by decide +kernel)⟩,
    ⟨staged context16, _, { site := .syl 0 true, d := 60 }, block0 context16, launch0 (staged context16),
      stands (by decide +kernel), by decide +kernel, (by unfold View.mayEnd; decide +kernel), by decide +kernel,
      by decide +kernel, by decide +kernel, (by decide +kernel), by decide +kernel, by decide +kernel, by decide +kernel,
      (by decide +kernel), by decide +kernel, by decide +kernel⟩,
    ⟨staged warp3, _, { a := 24, x := 1 }, 0, block0 warp3, launch0 (staged warp3), { cap := 3, succ := 2 },
      { cap := 3, recs := [([], 0), ([], 0)] }, stands (by decide +kernel), by decide +kernel,
      (by unfold View.mayEnd; decide +kernel), unpinned (by decide +kernel), by decide +kernel, by decide +kernel,
      by decide +kernel, (by decide +kernel), by decide +kernel, by decide +kernel, by decide +kernel, (by decide +kernel),
      by decide +kernel⟩⟩

/-- States and operands that meet the hypotheses of every clause of `Obligations.WarpChanges`. -/
theorem witness_WarpChanges :
    (∃ (s : State) (v : View) (w : ArithWord), Stands s (.regroup w) w.head v ∧ (v.sel ≠ 0) ∧ (v.sel = v.act) ∧
      (v.u.splits.length = 1) ∧ (v.u.div = []) ∧ (v.sp.waits = []) ∧ (w.x ≠ 0) ∧ (w.a.toNat ≤ w.b.toNat) ∧
      v.hasPred w.d.toNat ∧ (v.u.lanes.length ≤ 128) ∧
      let o : Int := (v.unit : Int) + w.x.toInt
      ((0 ≤ o → o < 16 → s.unit v.core o.toNat = none)) ∧ (v.mayEnd)) ∧
    (∃ (s : State) (v : View) (w : ArithWord), Stands s (.regroup w) w.head v ∧ (v.sel ≠ 0) ∧ (v.sel = v.act) ∧
      (v.u.splits.length = 1) ∧ (v.u.div = []) ∧ (v.sp.waits = []) ∧ (w.x ≠ 0) ∧ (w.a.toNat ≤ w.b.toNat) ∧
      v.hasPred w.d.toNat ∧ (v.u.lanes.length ≤ 128) ∧
      let o : Int := (v.unit : Int) + w.x.toInt
      ∃ (q : ProgUnit) (x : Wait), (0 ≤ o) ∧ (o < 16) ∧ (s.unit v.core o.toNat = some q) ∧ (q.trap = none) ∧
      (q.splits.length = 1) ∧ ((q.split 0).waits = [x]) ∧ (x.kind = .partner) ∧ (x.a = v.unit) ∧ (x.done = false) ∧
      (x.res = [.ofNat 64 w.a.toNat, .ofNat 64 w.b.toNat, .ofNat 64 w.d.toNat]) ∧ (q.lanes.length ≤ 128) ∧
      let mine := lanesOf v.sp.mask
      let theirs := lanesOf (q.split 0).mask
      let both := if v.unit < o.toNat then mine.map v.u.lane ++ theirs.map q.lane else theirs.map q.lane ++ mine.map v.u.lane
      let width := if v.unit < o.toNat then v.u.lanes.length else q.lanes.length
      (both.length ≤ width) ∧ ((∀ l ∈ both, w.d.toNat = 7 ∨ w.d.toNat < l.preds.length))) ∧
    (∃ (s : State) (v : View) (w : ArithWord), Stands s (.regroup w) w.head v ∧ (v.sel ≠ 0) ∧ (v.sel = v.act) ∧
      (v.u.splits.length = 1) ∧ (v.u.div = []) ∧ (v.sp.waits = []) ∧ (w.x ≠ 0) ∧ (w.a.toNat ≤ w.b.toNat) ∧
      v.hasPred w.d.toNat ∧ (v.u.lanes.length ≤ 128) ∧
      let o : Int := (v.unit : Int) + w.x.toInt
      ∃ (q : ProgUnit) (x : Wait), (0 ≤ o) ∧ (o < 16) ∧ (s.unit v.core o.toNat = some q) ∧ (q.trap = none) ∧
      (q.splits.length = 1) ∧ ((q.split 0).waits = [x]) ∧ (x.kind = .partner) ∧ (x.a = v.unit) ∧ (x.done = false) ∧
      (x.res = [.ofNat 64 w.a.toNat, .ofNat 64 w.b.toNat, .ofNat 64 w.d.toNat]) ∧ (q.lanes.length ≤ 128) ∧
      let mine := lanesOf v.sp.mask
      let theirs := lanesOf (q.split 0).mask
      let both := if v.unit < o.toNat then mine.map v.u.lane ++ theirs.map q.lane else theirs.map q.lane ++ mine.map v.u.lane
      let width := if v.unit < o.toNat then v.u.lanes.length else q.lanes.length
      (width < both.length)) ∧
    (∃ (s : State) (v : View) (w : BranchWord) (b : Block) (n : Nat), Stands s (.collapse w) w.head v ∧ (v.sel ≠ 0) ∧
      (v.sel = v.act) ∧ (v.u.splits.length = 1) ∧ (v.u.div = []) ∧ (s.blk v.core = some b) ∧
      (b.freeContext = some n) ∧ (16 + n < b.units.length) ∧
      (b.aheadOf .context v.unit (v.sp.firstIssue s.cyc) < b.freeContexts) ∧
      let k := if w.pb.getLsbD 0 then 32 else 16
      (v.actives.length ≤ k) ∧ (k ≤ 16 * b.vgroups)) ∧
    (∃ (s : State) (v : View) (w : BranchWord) (b : Block) (n q : Nat), Stands s (.expand w) w.head v ∧ (v.sel ≠ 0) ∧
      (v.mayEnd) ∧ (s.blk v.core = some b) ∧ (b.freeWarp = some n) ∧ (n < b.units.length) ∧
      (b.aheadOf .warpSlot v.unit (v.sp.firstIssue s.cyc) = 0) ∧ (v.u.loops = []) ∧
      (v.u.q.loads.all (·.popped) = true) ∧ (v.u.q.addrs = []) ∧ (v.u.q.datas = []) ∧
      (v.u.results.all (·.isEmpty) = true) ∧ (v.u.svc = none) ∧ (b.vgroups < (s.core v.core).nGroups) ∧
      let lanes := quarterLanes ((s.core v.core).nGroups - b.vgroups)
      (placeOne lanes ((List.range lanes.length).map b.demand) (s.rcd b).regs 32 = some q)) :=
  ⟨⟨warp3, _, { d := 7, a := 31, b := 31, x := 16 }, stands (by decide +kernel), by decide +kernel, by decide +kernel,
      by decide +kernel, (by decide +kernel), by decide +kernel, by decide +kernel, by decide +kernel,
      hasPred (by decide +kernel), by decide +kernel, by decide +kernel, (by unfold View.mayEnd; decide +kernel)⟩,
    ⟨addUnit 1 (partner 6) (stateOf .warp 4 (holding 3)), _, { d := 2, a := 3, b := 9, x := 1 },
      stands (by decide +kernel), by decide +kernel, by decide +kernel, by decide +kernel, (by decide +kernel),
      by decide +kernel, by decide +kernel, by decide +kernel, hasPred (by decide +kernel), by decide +kernel, partner 6,
      { kind := .partner, a := 0, res := [3, 9, 2] }, by decide +kernel, by decide +kernel, by decide +kernel,
      (by decide +kernel), by decide +kernel, by decide +kernel, by decide +kernel, (by decide +kernel), by decide +kernel,
      by decide +kernel, by decide +kernel, (by decide +kernel), by decide +kernel⟩,
    ⟨addUnit 1 (partner 7) (stateOf .warp 4 (holding 7)), _, { d := 2, a := 3, b := 9, x := 1 },
      stands (by decide +kernel), by decide +kernel, by decide +kernel, by decide +kernel, (by decide +kernel),
      by decide +kernel, by decide +kernel, by decide +kernel, hasPred (by decide +kernel), by decide +kernel, partner 7,
      { kind := .partner, a := 0, res := [3, 9, 2] }, by decide +kernel, by decide +kernel, by decide +kernel,
      (by decide +kernel), by decide +kernel, by decide +kernel, by decide +kernel, (by decide +kernel), by decide +kernel,
      by decide +kernel, by decide +kernel, (by decide +kernel)⟩,
    ⟨grid 64 (stateOf .warp 4), _, { off := 16 }, block0 (stateOf .warp 4), 0, stands (by decide +kernel),
      by decide +kernel, by decide +kernel, by decide +kernel, (by decide +kernel), by decide +kernel, by decide +kernel,
      by decide +kernel, (by decide +kernel), by decide +kernel, by decide +kernel⟩,
    ⟨grid 16 context16, _, { site := .syl 0 true, off := 16 }, block0 context16, 0, 0, stands (by decide +kernel),
      by decide +kernel, (by unfold View.mayEnd; decide +kernel), by decide +kernel, by decide +kernel, by decide +kernel,
      (by decide +kernel), by decide +kernel, by decide +kernel, by decide +kernel, (by decide +kernel), by decide +kernel,
      by decide +kernel, by decide +kernel, (by decide +kernel)⟩⟩

/-- States and operands that meet the hypotheses of every clause of `Obligations.Loads`. -/
theorem witness_Loads :
    (∃ (s : State) (v : View) (w : MemWord) (i : Instr) (n : Nat), (i = .ld w ∧ n = 1 ∨ i = .ldp w ∧ n = 2) ∧
      Stands s i w.head v ∧ v.hasReg w.d.toNat ∧ ((n = 2 → v.hasReg (w.d.toNat + 1))) ∧ (s.unwatched v) ∧
      (s.slow = false) ∧ (v.sp.waits = []) ∧ (v.alone) ∧
      ((∀ k ∈ v.lanes, baseTag (v.u.read k w.a.toNat).tag = true ∧ (v.va w k).toNat % (n * w.t.bytes) = 0 ∧
        ∃ pa, s.loadPlace v.core (v.va w k) = .at pa)) ∧
      let acc := v.groups.foldl (LoadAcc.pass w n v (v.va w) fun k => s.loadPlace v.core (v.va w k)) { s := s.begun i v }
      (acc.errs = [])) ∧
    (∃ (s : State) (v : View) (w : MemWord) (k pa : Nat), Stands s (.ld w) w.head v ∧ (v.lanes = [k]) ∧
      v.hasReg w.d.toNat ∧ (s.unwatched v) ∧ (s.slow = false) ∧ (v.sp.waits = []) ∧ (v.alone) ∧
      (baseTag (v.u.read k w.a.toNat).tag = true) ∧ ((v.va w k).toNat % w.t.bytes = 0) ∧
      (s.translate v.core .load (v.va w k) = .ok pa) ∧ (s.pinHolder v.core pa = none) ∧ (s.window pa = none) ∧
      ((s.core v.core).travel = []) ∧ (w.t ≠ .iv32) ∧ (s.poisonedIn pa w.t.bytes = false) ∧
      ((∀ l, s.l1Line v.core pa = some l → l.poisoned = []))) :=
  ⟨⟨warp3, _, { d := 30, a := 16, t := .n64 }, .ldp { d := 30, a := 16, t := .n64 }, 2, Or.inr ⟨rfl, rfl⟩,
      stands (by decide +kernel), hasReg (by decide +kernel), fun _ => hasReg (by decide +kernel),
      (by unfold State.unwatched; decide +kernel), by decide +kernel, by decide +kernel, alone (by decide +kernel),
      both (by decide +kernel) (both (by decide +kernel) (places (by decide +kernel))), by decide +kernel⟩,
    ⟨stateOf .warp 1, _, { d := 31, a := 16, t := .byte, off := 0xFFFFF }, 0, 0xFFFF, stands (by decide +kernel),
      by decide +kernel, hasReg (by decide +kernel), (by unfold State.unwatched; decide +kernel), by decide +kernel,
      by decide +kernel, alone (by decide +kernel), by decide +kernel, by decide +kernel, eqOk (by decide +kernel),
      by decide +kernel, by decide +kernel, by decide +kernel, (by decide +kernel), by decide +kernel,
      ofNone (by decide +kernel)⟩⟩

/-- States and operands that meet the hypotheses of every clause of `Obligations.Stores`. -/
theorem witness_Stores :
      ∃ (s : State) (v : View) (w : MemWord) (i : Instr) (n : Nat) (pa : Nat → Nat),
      (i = .st w ∧ n = 1 ∨ i = .stp w ∧ n = 2) ∧ Stands s i w.head v ∧ (s.unwatched v) ∧ (v.lanes ≠ []) ∧
      ((∀ k ∈ v.lanes, baseTag (v.u.read k w.a.toNat).tag = true ∧
        (∀ j, j < n → tagMatches w.t (v.u.read k (w.b.toNat + j)).tag = true ∧
          badInterval w.t (v.u.read k (w.b.toNat + j)).v = false) ∧
        s.storePlace v.core (v.va w k) (n * w.t.bytes) = .ok (pa k))) ∧
      (v.u.kind = .front ∨ v.u.kind = .handler) ∧ ((∀ k ∈ v.lanes, s.window (pa k) = none)) :=
  ⟨front1, _, { a := 20, b := 22, t := .n64 }, .stp { a := 20, b := 22, t := .n64 }, 2, fun _ => 0x11000, Or.inr ⟨rfl,
    rfl⟩, stands (by decide +kernel), (by unfold State.unwatched; decide +kernel), by decide +kernel,
    both (by decide +kernel) (both (by decide +kernel) (allOk (by decide +kernel))), by decide +kernel, by decide +kernel⟩

/-- States and operands that meet the hypotheses of every clause of `Obligations.Atomics`. -/
theorem witness_Atomics :
    (∃ (s : State) (v : View) (w : AtomWord) (i : Instr) (op : Nat) (pa : Nat → Nat),
      (i = .atom w ∧ op = w.sub.toNat ∨ i = .cas w ∧ op = opCas) ∧ Stands s i w.head v ∧ v.hasReg w.d.toNat ∧
      (s.drained v) ∧ (v.alone) ∧ (s.unwatched v) ∧ (s.slow = false) ∧ (v.sp.waits = []) ∧
      ((∀ k ∈ v.lanes, baseTag (v.u.read k w.a.toNat).tag = true ∧ tagMatches w.t (v.u.read k w.b.toNat).tag = true ∧
        (op = opCas → tagMatches w.t (v.u.read k w.c.toNat).tag = true) ∧
        s.storePlace v.core (v.u.read k w.a.toNat).v w.t.bytes = .ok (pa k) ∧ s.window (pa k) = none ∧
        s.poisonedIn (pa k) w.t.bytes = false))) ∧
    (∃ (s : State) (v : View) (w : AtomWord) (pa : List Nat → Nat), Stands s (.amx w) w.head v ∧ v.hasReg w.d.toNat ∧
      (s.drained v) ∧ (v.alone) ∧ (s.unwatched v) ∧ (s.slow = false) ∧ (v.sp.waits = []) ∧
      ((∀ g ∈ v.amxGroups, amxErr w v s g = .ok (pa g) ∧ s.recordErr (w.sub == 1) (pa g) = none))) :=
  ⟨⟨warp3, _, { d := 4, a := 20, b := 21, t := .n32, sc := 4 }, .atom { d := 4, a := 20, b := 21, t := .n32, sc := 4 }, 0,
      fun _ => 0x11000, Or.inl ⟨rfl, rfl⟩, stands (by decide +kernel), hasReg (by decide +kernel),
      drained (by decide +kernel), alone (by decide +kernel), (by unfold State.unwatched; decide +kernel),
      by decide +kernel, by decide +kernel,
      both (by decide +kernel) (both (by decide +kernel) (both (by decide +kernel) (both (allOk (by decide +kernel)) (by decide +kernel))))⟩,
    ⟨recorded, _, { d := 4, a := 20, b := 5, t := .f32 }, fun _ => 0x11000, stands (by decide +kernel),
      hasReg (by decide +kernel), drained (by decide +kernel), alone (by decide +kernel),
      (by unfold State.unwatched; decide +kernel), by decide +kernel, by decide +kernel,
      both (allOk (by decide +kernel)) (by decide +kernel)⟩⟩

/-- States and operands that meet the hypotheses of every clause of `Obligations.HintsAndFences`. -/
theorem witness_HintsAndFences :
    (∃ (s : State) (v : View) (w : MemWord) (i : Instr), (i = .pref w ∨ i = .demote w) ∧ Stands s i w.head v ∧
      ((∀ k ∈ v.lanes, baseTag (v.u.read k w.a.toNat).tag = true)) ∧ (s.unpinned v.core)) ∧
    (∃ (s : State) (v : View) (w : MemWord), Stands s (.fence w) w.head v ∧ (v.sel ≠ 0) ∧ (v.mayEnd) ∧
      (s.unpinned v.core) ∧ (s.acknowledged v) ∧ (v.alone)) :=
  ⟨⟨warp3, _, { a := 16 }, .pref { a := 16 }, by simp, stands (by decide +kernel), by decide +kernel,
      unpinned (by decide +kernel)⟩,
    ⟨warp3, _, { d := 3, sc := 4 }, stands (by decide +kernel), by decide +kernel, (by unfold View.mayEnd; decide +kernel),
      unpinned (by decide +kernel), acknowledged (by decide +kernel), alone (by decide +kernel)⟩⟩

/-- States and operands that meet the hypotheses of every clause of `Obligations.GuardsAndBindings`. -/
theorem witness_GuardsAndBindings :
    (∃ (s : State) (v : View) (w : MemWord) (k pa : Nat), Stands s (.acq w) w.head v ∧ (v.first = some k) ∧
      (v.mayEnd) ∧ (s.unwatched v) ∧
      let shared := w.d.getLsbD 0
      v.noPort (if shared then [w.a.toNat, w.b.toNat] else [w.a.toNat]) ∧
      (baseTag (v.u.read k w.a.toNat).tag = true) ∧ ((shared = true → countTag (v.u.read k w.b.toNat).tag = true)) ∧
      ((v.va w k).toNat % 8 = 0) ∧ (s.translate v.core (if shared then .load else .store) (v.va w k) = .ok pa) ∧
      (s.drained v) ∧ (v.sp.waits = []) ∧ (s.poisonedIn pa 8 = false) ∧
      let g := s.homeWord pa
      (shared = false) ∧ (guardHeld g = false)) ∧
    (∃ (s : State) (v : View) (w : MemWord) (k pa : Nat), Stands s (.acq w) w.head v ∧ (v.first = some k) ∧
      (v.mayEnd) ∧ (s.unwatched v) ∧
      let shared := w.d.getLsbD 0
      v.noPort (if shared then [w.a.toNat, w.b.toNat] else [w.a.toNat]) ∧
      (baseTag (v.u.read k w.a.toNat).tag = true) ∧ ((shared = true → countTag (v.u.read k w.b.toNat).tag = true)) ∧
      ((v.va w k).toNat % 8 = 0) ∧ (s.translate v.core (if shared then .load else .store) (v.va w k) = .ok pa) ∧
      (s.drained v) ∧ (v.sp.waits = []) ∧ (s.poisonedIn pa 8 = false) ∧
      let g := s.homeWord pa
      (shared = true) ∧ ((v.u.read k w.b.toNat).v.toNat % 2 ^ 63 ≤ guardCount g)) ∧
    (∃ (s : State) (v : View) (w : MemWord) (k pa : Nat) (b : Block), Stands s (.rel w) w.head v ∧
      (v.first = some k) ∧ (v.mayEnd) ∧ (s.unwatched v) ∧ v.noPort [w.a.toNat] ∧
      (baseTag (v.u.read k w.a.toNat).tag = true) ∧ ((v.va w k).toNat % 8 = 0) ∧
      (s.translate v.core .store (v.va w k) = .ok pa) ∧ (s.drained v) ∧ (s.slow = false) ∧ (v.sp.waits = []) ∧
      (s.poisonedIn pa 8 = false) ∧ (s.blk v.core = some b)) ∧
    (∃ (s : State) (v : View) (w : ArithWord) (k : Nat) (b : Block), Stands s (.bind w) w.head v ∧
      (v.first = some k) ∧ (s.blk v.core = some b) ∧ v.hasPred w.d.toNat ∧
      let g := v.u.read k w.a.toNat
      let base := v.u.read k w.b.toNat
      let len := v.u.read k w.c.toNat
      let x : Binding := { guard := g.v, base := base.v, len := len.v }
      (baseTag g.tag = true) ∧ (baseTag base.tag = true) ∧ (countTag len.tag = true) ∧ (g.v.toNat % 8 = 0) ∧
      (len.v.toNat ≤ 2 ^ 47) ∧ (base.v.toNat + len.v.toNat ≤ 2 ^ 64) ∧ (len.v = 0 ∨ some x ∈ b.binds)) ∧
    (∃ (s : State) (v : View) (w : ArithWord) (k : Nat) (b : Block), Stands s (.bind w) w.head v ∧
      (v.first = some k) ∧ (s.blk v.core = some b) ∧ v.hasPred w.d.toNat ∧
      let g := v.u.read k w.a.toNat
      let base := v.u.read k w.b.toNat
      let len := v.u.read k w.c.toNat
      let x : Binding := { guard := g.v, base := base.v, len := len.v }
      (baseTag g.tag = true) ∧ (baseTag base.tag = true) ∧ (countTag len.tag = true) ∧ (g.v.toNat % 8 = 0) ∧
      (len.v.toNat ≤ 2 ^ 47) ∧ (base.v.toNat + len.v.toNat ≤ 2 ^ 64) ∧ (len.v ≠ 0) ∧ (some x ∉ b.binds) ∧
      (none ∉ b.binds)) ∧
    (∃ (s : State) (v : View) (w : ArithWord) (k : Nat) (b : Block), Stands s (.bind w) w.head v ∧
      (v.first = some k) ∧ (s.blk v.core = some b) ∧ v.hasPred w.d.toNat ∧
      let g := v.u.read k w.a.toNat
      let base := v.u.read k w.b.toNat
      let len := v.u.read k w.c.toNat
      let x : Binding := { guard := g.v, base := base.v, len := len.v }
      (baseTag g.tag = true) ∧ (baseTag base.tag = true) ∧ (countTag len.tag = true) ∧ (g.v.toNat % 8 = 0) ∧
      (len.v.toNat ≤ 2 ^ 47) ∧ (base.v.toNat + len.v.toNat ≤ 2 ^ 64) ∧ ∃ n : Nat, (len.v ≠ 0) ∧ (some x ∉ b.binds) ∧
      (b.binds[n]? = some none) ∧ ((∀ m, m < n → b.binds[m]? ≠ some none))) ∧
    (∃ (s : State) (v : View) (w : ArithWord) (k : Nat) (b : Block), Stands s (.unbind w) w.head v ∧
      (v.first = some k) ∧ (s.blk v.core = some b) ∧ v.hasPred w.d.toNat ∧
      (bindErr v (v.u.read k w.a.toNat) (v.u.read k w.b.toNat) (v.u.read k w.c.toNat) (w.sub == 0) = none)) :=
  ⟨⟨warp3, _, { sc := 3, a := 20 }, 0, 0x11000, stands (by decide +kernel), by decide +kernel,
      (by unfold View.mayEnd; decide +kernel), (by unfold State.unwatched; decide +kernel), noPort (by decide +kernel),
      by decide +kernel, by decide +kernel, by decide +kernel, eqOk (by decide +kernel), drained (by decide +kernel),
      by decide +kernel, by decide +kernel, by decide +kernel, (by decide +kernel)⟩,
    ⟨warp3, _, { sc := 3, a := 20, b := 22, d := 1 }, 0, 0x11000, stands (by decide +kernel), by decide +kernel,
      (by unfold View.mayEnd; decide +kernel), (by unfold State.unwatched; decide +kernel), noPort (by decide +kernel),
      by decide +kernel, by decide +kernel, by decide +kernel, eqOk (by decide +kernel), drained (by decide +kernel),
      by decide +kernel, by decide +kernel, by decide +kernel, (by decide +kernel)⟩,
    ⟨warp3, _, { sc := 4, a := 20 }, 0, 0x11000, block0 warp3, stands (by decide +kernel), by decide +kernel,
      (by unfold View.mayEnd; decide +kernel), (by unfold State.unwatched; decide +kernel), noPort (by decide +kernel),
      by decide +kernel, by decide +kernel, eqOk (by decide +kernel), drained (by decide +kernel), by decide +kernel,
      by decide +kernel, by decide +kernel, (by decide +kernel)⟩,
    ⟨warp3, _, { d := 2, a := 20, b := 16, c := 22 }, 0, block0 warp3, stands (by decide +kernel), by decide +kernel,
      by decide +kernel, hasPred (by decide +kernel), by decide +kernel, by decide +kernel, by decide +kernel,
      (by decide +kernel), by decide +kernel, by decide +kernel, by decide +kernel⟩,
    ⟨inBlock (fun b => { b with binds := List.replicate 32 (some someBind) }) warp3, _,
      { d := 2, a := 20, b := 16, c := 27 }, 0,
      block0 (inBlock (fun b => { b with binds := List.replicate 32 (some someBind) }) warp3), stands (by decide +kernel),
      by decide +kernel, by decide +kernel, hasPred (by decide +kernel), by decide +kernel, by decide +kernel,
      by decide +kernel, (by decide +kernel), by decide +kernel, by decide +kernel, by decide +kernel, (by decide +kernel),
      by decide +kernel⟩,
    ⟨inBlock (fun b => { b with binds := List.replicate 31 (some someBind) ++ [none] }) warp3, _,
      { d := 2, a := 20, b := 16, c := 27 }, 0,
      block0 (inBlock (fun b => { b with binds := List.replicate 31 (some someBind) ++ [none] }) warp3),
      stands (by decide +kernel), by decide +kernel, by decide +kernel, hasPred (by decide +kernel), by decide +kernel,
      by decide +kernel, by decide +kernel, (by decide +kernel), by decide +kernel, by decide +kernel, 31, by decide +kernel,
      by decide +kernel, by decide +kernel, (by decide +kernel)⟩,
    ⟨warp3, _, { d := 2, a := 20, sub := 1 }, 0, block0 warp3, stands (by decide +kernel), by decide +kernel,
      by decide +kernel, hasPred (by decide +kernel), by decide +kernel⟩⟩

/-- States and operands that meet the hypotheses of every clause of `Obligations.Signals`. -/
theorem witness_Signals :
    (∃ (s : State) (v : View) (w : AtomWord) (k pa : Nat), Stands s (.signal w) w.head v ∧ (v.first = some k) ∧
      (v.mayEnd) ∧
      let a := v.u.read k w.a.toNat
      let b := v.u.read k w.b.toNat
      v.noPort [w.a.toNat, w.b.toNat] ∧ v.hasReg w.d.toNat ∧ (baseTag a.tag = true) ∧ (tagMatches w.t b.tag = true) ∧
      (s.storePlace v.core a.v 8 = .ok pa) ∧ (s.window pa = none) ∧ (s.drained v) ∧ (v.alone) ∧ (s.unwatched v) ∧
      (s.slow = false ∨ v.u.kind = .context) ∧ (v.sp.waits = []) ∧ (s.poisonedIn pa 8 = false) ∧
      let old := (extendLoad (cellRead s.mem pa w.t.bytes) w.t).v
      ∃ x, (signalNew w.sub.toNat w.t old b.v = some x)) ∧
    (∃ (s : State) (v : View) (w : AtomWord) (k pa : Nat), Stands s (.signal w) w.head v ∧ (v.first = some k) ∧
      (v.mayEnd) ∧
      let a := v.u.read k w.a.toNat
      let b := v.u.read k w.b.toNat
      v.noPort [w.a.toNat, w.b.toNat] ∧ v.hasReg w.d.toNat ∧ (baseTag a.tag = true) ∧ (tagMatches w.t b.tag = true) ∧
      (s.storePlace v.core a.v 8 = .ok pa) ∧ (s.window pa = none) ∧ (s.drained v) ∧ (v.alone) ∧ (s.unwatched v) ∧
      (s.slow = false ∨ v.u.kind = .context) ∧ (v.sp.waits = []) ∧ (s.poisonedIn pa 8 = false) ∧
      let old := (extendLoad (cellRead s.mem pa w.t.bytes) w.t).v
      (signalNew w.sub.toNat w.t old b.v = none) ∧ (v.u.kind ≠ .handler) ∧ (v.unit < 21)) ∧
    (∃ (s : State) (v : View) (w : AtomWord) (k pa : Nat), Stands s (.swait w) w.head v ∧ (v.first = some k) ∧
      (v.mayEnd) ∧
      let a := v.u.read k w.a.toNat
      let c := v.u.read k w.c.toNat
      v.noPort [w.a.toNat, w.c.toNat] ∧ (baseTag a.tag = true) ∧ (tagMatches w.t c.tag = true) ∧ (a.v.toNat % 8 = 0) ∧
      (s.translate v.core .load a.v = .ok pa) ∧ (s.drained v) ∧ (s.unwatched v) ∧ (v.sp.waits = []) ∧
      (s.poisonedIn pa 8 = false) ∧ (signalHolds w.sub.toNat w.t (s.homeWord pa) c.v = true)) ∧
    (∃ (s : State) (v : View) (w : AtomWord) (k pa : Nat), Stands s (.swait w) w.head v ∧ (v.first = some k) ∧
      (v.mayEnd) ∧
      let a := v.u.read k w.a.toNat
      let c := v.u.read k w.c.toNat
      v.noPort [w.a.toNat, w.c.toNat] ∧ (baseTag a.tag = true) ∧ (tagMatches w.t c.tag = true) ∧ (a.v.toNat % 8 = 0) ∧
      (s.translate v.core .load a.v = .ok pa) ∧ (s.drained v) ∧ (s.unwatched v) ∧ (v.sp.waits = []) ∧
      (s.poisonedIn pa 8 = false) ∧ (signalHolds w.sub.toNat w.t (s.homeWord pa) c.v = false) ∧ (v.u.kind ≠ .context)) :=
  ⟨⟨warp3, _, { sc := 3, d := 4, a := 20, b := 28, t := .i64 }, 0, 0x11000, stands (by decide +kernel), by decide +kernel,
      (by unfold View.mayEnd; decide +kernel), noPort (by decide +kernel), hasReg (by decide +kernel), by decide +kernel,
      by decide +kernel, eqOk (by decide +kernel), by decide +kernel, drained (by decide +kernel),
      alone (by decide +kernel), (by unfold State.unwatched; decide +kernel), by decide +kernel, by decide +kernel,
      by decide +kernel, 1, by decide +kernel⟩,
    ⟨inMem 0x11000 [255, 255, 255, 255, 255, 255, 255, 127] warp3, _, { sc := 3, d := 4, a := 20, b := 28, t := .i64 }, 0,
      0x11000, stands (by decide +kernel), by decide +kernel, (by unfold View.mayEnd; decide +kernel),
      noPort (by decide +kernel), hasReg (by decide +kernel), by decide +kernel, by decide +kernel,
      eqOk (by decide +kernel), by decide +kernel, drained (by decide +kernel), alone (by decide +kernel),
      (by unfold State.unwatched; decide +kernel), by decide +kernel, by decide +kernel, by decide +kernel,
      (by decide +kernel), by decide +kernel, by decide +kernel⟩,
    ⟨warp3, _, { sc := 3, a := 20, c := 22, t := .n64 }, 0, 0x11000, stands (by decide +kernel), by decide +kernel,
      (by unfold View.mayEnd; decide +kernel), noPort (by decide +kernel), by decide +kernel, by decide +kernel,
      by decide +kernel, eqOk (by decide +kernel), drained (by decide +kernel),
      (by unfold State.unwatched; decide +kernel), by decide +kernel, by decide +kernel, by decide +kernel⟩,
    ⟨warp3, _, { sc := 3, a := 20, c := 14, sub := 2, t := .n64 }, 0, 0x11000, stands (by decide +kernel),
      by decide +kernel, (by unfold View.mayEnd; decide +kernel), noPort (by decide +kernel), by decide +kernel,
      by decide +kernel, by decide +kernel, eqOk (by decide +kernel), drained (by decide +kernel),
      (by unfold State.unwatched; decide +kernel), by decide +kernel, by decide +kernel, by decide +kernel,
      (by decide +kernel)⟩⟩

/-- States and operands that meet the hypotheses of every clause of `Obligations.Heap`. -/
theorem witness_Heap :
    (∃ (s : State) (v : View) (w : ArithWord) (b : Block) (l : Launch), Stands s (.alloc w) w.head v ∧
      (v.lanes ≠ []) ∧ v.hasReg w.d.toNat ∧ (s.blk v.core = some b) ∧ (s.launch b.inst b.launch = some l) ∧
      ((∀ k ∈ v.lanes, countTag (v.u.read k w.a.toNat).tag = true)) ∧
      let size := fun i => (v.u.read i w.a.toNat).v.toNat
      let r := allocLanes (cellOf v.core) s.fresh size v.lanes l.heaps
      (v.mayEnd) ∧ (r.2.2 = [])) ∧
    (∃ (s : State) (v : View) (w : ArithWord) (b : Block) (l : Launch), Stands s (.alloc w) w.head v ∧
      (v.lanes ≠ []) ∧ v.hasReg w.d.toNat ∧ (s.blk v.core = some b) ∧ (s.launch b.inst b.launch = some l) ∧
      ((∀ k ∈ v.lanes, countTag (v.u.read k w.a.toNat).tag = true)) ∧
      let size := fun i => (v.u.read i w.a.toNat).v.toNat
      ∃ k, (k ∈ v.lanes) ∧ (2 ^ 20 < size k ∨ size k ≠ 0 ∧ (∀ h ∈ l.heaps, h.2.free = []))) ∧
    (∃ (s : State) (v : View) (w : ArithWord) (b : Block) (l : Launch), Stands s (.alloc w) w.head v ∧
      (v.lanes ≠ []) ∧ v.hasReg w.d.toNat ∧ (s.blk v.core = some b) ∧ (s.launch b.inst b.launch = some l) ∧
      ((∀ k ∈ v.lanes, countTag (v.u.read k w.a.toNat).tag = true)) ∧
      let size := fun i => (v.u.read i w.a.toNat).v.toNat
      let r := allocLanes (cellOf v.core) s.fresh size v.lanes l.heaps
      (r.2.2 ≠ []) ∧ (v.u.kind ≠ .handler) ∧ (v.unit < 21)) ∧
    (∃ (s : State) (v : View) (w : ArithWord) (b : Block) (l : Launch), Stands s (.free w) w.head v ∧
      (v.lanes ≠ []) ∧ (s.blk v.core = some b) ∧ (s.launch b.inst b.launch = some l) ∧
      let va := fun i => (v.u.read i w.a.toNat).v.toNat
      let r := freeLanes (cellOf v.core) va v.lanes l.heaps
      (v.mayEnd) ∧ (r.2.2 = [])) ∧
    (∃ (s : State) (v : View) (w : ArithWord) (b : Block) (l : Launch), Stands s (.free w) w.head v ∧
      (v.lanes ≠ []) ∧ (s.blk v.core = some b) ∧ (s.launch b.inst b.launch = some l) ∧
      let va := fun i => (v.u.read i w.a.toNat).v.toNat
      ∃ k, (k ∈ v.lanes) ∧ (va k ≠ 0) ∧ ((∀ h ∈ l.heaps, ∀ x ∈ h.2.used, x.1 ≠ va k))) ∧
    (∃ (s : State) (v : View) (w : ArithWord) (b : Block) (l : Launch), Stands s (.free w) w.head v ∧
      (v.lanes ≠ []) ∧ (s.blk v.core = some b) ∧ (s.launch b.inst b.launch = some l) ∧
      let va := fun i => (v.u.read i w.a.toNat).v.toNat
      let r := freeLanes (cellOf v.core) va v.lanes l.heaps
      (r.2.2 ≠ []) ∧ (v.u.kind ≠ .handler) ∧ (v.unit < 21)) :=
  ⟨⟨heaped, _, { d := 4, a := 21 }, block0 heaped, launch0 heaped, stands (by decide +kernel), by decide +kernel,
      hasReg (by decide +kernel), by decide +kernel, by decide +kernel, by decide +kernel,
      (by unfold View.mayEnd; decide +kernel), alloc_one (by decide +kernel)⟩,
    ⟨asking, _, { d := 4, a := 21 }, block0 asking, launch0 asking, stands (by decide +kernel), by decide +kernel,
      hasReg (by decide +kernel), by decide +kernel, by decide +kernel, by decide +kernel, 0, by decide +kernel,
      by decide +kernel⟩,
    ⟨asking, _, { d := 4, a := 21 }, block0 asking, launch0 asking, stands (by decide +kernel), by decide +kernel,
      hasReg (by decide +kernel), by decide +kernel, by decide +kernel, by decide +kernel, (by decide +kernel),
      by decide +kernel, by decide +kernel⟩,
    ⟨launched id warp3, _, { a := 22 }, block0 warp3, launch0 (launched id warp3), stands (by decide +kernel),
      by decide +kernel, by decide +kernel, by decide +kernel, (by unfold View.mayEnd; decide +kernel), by decide +kernel⟩,
    ⟨asking, _, { a := 21 }, block0 asking, launch0 asking, stands (by decide +kernel), by decide +kernel,
      by decide +kernel, by decide +kernel, 0, by decide +kernel, by decide +kernel, by decide +kernel⟩,
    ⟨asking, _, { a := 21 }, block0 asking, launch0 asking, stands (by decide +kernel), by decide +kernel,
      by decide +kernel, by decide +kernel, (by decide +kernel), by decide +kernel, by decide +kernel⟩⟩

/-- States and operands that meet the hypotheses of every clause of `Obligations.TileTable`. -/
theorem witness_TileTable :
    (∃ (taken : List (Nat × Nat)) (capacity n a : Nat), firstFit taken capacity n = some a) ∧
    (∃ (s : State) (v : View) (w : ArithWord) (k : Nat) (b : Block) (base : Nat), Stands s (.talloc w) w.head v ∧
      (v.mayEnd) ∧ (v.first = some k) ∧ (s.blk v.core = some b) ∧ ((b.tiles[w.handle]?).join = none) ∧
      let l := levelOf (w.sub.toNat / 4 % 4)
      let ra := v.u.read k w.a.toNat
      let rb := v.u.read k w.b.toNat
      let e := newTile l (.ofNat 2 (w.sub.toNat % 4)) w.t ra.v.toNat rb.v.toNat b.bidx
      (l.numbers w.handle = true) ∧ ((l = .acc → w.t = .f32)) ∧ (countTag ra.tag = true) ∧ (countTag rb.tag = true) ∧
      (l.shapeOk ra.v.toNat rb.v.toNat w.t.bytes = true) ∧ ((s.dev.level = 1 → l = .block ∨ l = .cell)) ∧
      (firstFit (b.ranges l) (l.capacity (s.rcd b).tileKiB) e.room = some base)) ∧
    (∃ (s : State) (v : View) (w : ArithWord) (b : Block) (e : TileEntry), Stands s (.tfree w) w.head v ∧
      (v.sel ≠ 0) ∧ (v.mayEnd) ∧ (s.blk v.core = some b) ∧ ((b.tiles[w.handle]?).join = some e) ∧
      ((e.level = .cell → e.owner = b.bidx)) ∧ ((∀ k ∈ b.cmds, k.finished = true)) ∧
      ((∀ c ∈ (if e.level = .cell then s.gangCores b else [v.core]), (s.core c).arr.drained = [] ∧
        ∀ o, s.blk c = some o → ∀ u ∈ o.units, ∀ p, u = some p → p.q.loads = [] ∧ p.pail = []))) ∧
    (∃ (s : State) (v : View) (w : ArithWord) (b : Block), Stands s (.tinfo w) w.head v ∧ v.hasReg w.d.toNat ∧
      (s.blk v.core = some b) ∧ ∃ x,
      ((b.tiles[w.handle]?).join = none ∧ x = 0 ∨ (∃ e, (b.tiles[w.handle]?).join = some e ∧
        x = if w.sub = 0 then e.shapeWord else e.placeWord v.core (s.coreOfBidx v.core b e.owner)))) :=
  ⟨⟨[(0, 5), (8, 12)], 12, 3, 5, by decide⟩,
    ⟨({ launched id warp3 with dev := { warp3.dev with level := 2 } } : State), _,
      { x := 15, a := 14, b := 14, t := .n32 }, 0, block0 warp3, 0, stands (by decide +kernel),
      (by unfold View.mayEnd; decide +kernel), by decide +kernel, by decide +kernel, by decide +kernel, (by decide +kernel),
      by decide +kernel, by decide +kernel, by decide +kernel, (by decide +kernel), by decide +kernel, by decide +kernel⟩,
    ⟨tiled warp3, _, { x := 3 }, block0 (tiled warp3), tileE, stands (by decide +kernel), by decide +kernel,
      (by unfold View.mayEnd; decide +kernel), by decide +kernel, by decide +kernel, by decide +kernel, (by decide +kernel),
      by decide +kernel⟩,
    ⟨warp3, _, { d := 4, x := 63 }, block0 warp3, stands (by decide +kernel), hasReg (by decide +kernel),
      by decide +kernel, 0, by decide +kernel⟩⟩

/-- States and operands that meet the hypotheses of every clause of `Obligations.TileElements`. -/
theorem witness_TileElements :
    (∃ (s : State) (v : View) (w : ArithWord) (e : TileEntry) (place : Nat → Nat × Nat), Stands s (.ldt w) w.head v ∧
      v.hasReg w.d.toNat ∧ ((s.myBlk v).tileHandle w.handle = some e) ∧
      ((∀ k ∈ v.lanes, elemReadErr s v w.handle w.t (v.u.read k w.a.toNat) (v.u.read k w.b.toNat) true = none ∧
        s.elemPlace v.core (s.myBlk v) e (coordVal (v.u.read k w.a.toNat)).toNat (coordVal (v.u.read k w.b.toNat)).toNat =
          .tile (place k).1 (place k).2))) ∧
    (∃ (s : State) (v : View) (w : ArithWord) (e : TileEntry), Stands s (.stt w) w.head v ∧ (v.lanes ≠ []) ∧
      ((s.myBlk v).tileHandle w.handle = some e) ∧
      ((∀ k ∈ v.lanes, elemWriteErr w.handle (some e) w.t (v.u.read k w.a.toNat) (v.u.read k w.b.toNat)
        (v.u.read k w.c.toNat) = none))) ∧
    (∃ (s : State) (v : View) (w : ArithWord) (e : TileEntry) (c : Nat) (addr : Nat → Nat),
      Stands s (.atomt w) w.head v ∧ v.noPort [w.a.toNat, w.b.toNat, w.c.toNat] ∧ v.hasReg w.d.toNat ∧ (v.mayEnd) ∧
      (v.lanes ≠ []) ∧ (v.u.pail = []) ∧ (c < s.cores.length) ∧ ((s.myBlk v).tileHandle w.handle = some e) ∧
      ((∀ k ∈ v.lanes, elemReadErr s v w.handle w.t (v.u.read k w.a.toNat) (v.u.read k w.b.toNat)
          (tagMatches w.t (v.u.read k w.c.toNat).tag) = none ∧
        s.elemPlace v.core (s.myBlk v) e (coordVal (v.u.read k w.a.toNat)).toNat (coordVal (v.u.read k w.b.toNat)).toNat =
          .tile c (addr k)))) ∧
    (∃ (s : State) (v : View) (w : ArithWord) (k : Nat) (b : Block) (e : TileEntry), Stands s (.tfill w) w.head v ∧
      (v.first = some k) ∧ (s.blk v.core = some b) ∧ ((b.tiles[w.handle]?).join = some e) ∧ (e.level ≠ .acc) ∧
      (e.t = w.t) ∧ (tagMatches w.t (v.u.read k w.c.toNat).tag = true) ∧
      (badInterval w.t (v.u.read k w.c.toNat).v = false)) :=
  ⟨⟨tiled warp3, _, { d := 4, a := 22, b := 14, x := 3, t := .n32 }, tileE, fun _ => (0, 20), stands (by decide +kernel),
      hasReg (by decide +kernel), by decide +kernel, both (by decide +kernel) (by decide +kernel)⟩,
    ⟨tiled warp3, _, { a := 22, b := 14, c := 15, x := 3, t := .n32 }, tileE, stands (by decide +kernel),
      by decide +kernel, by decide +kernel, by decide +kernel⟩,
    ⟨tiled warp3, _, { d := 4, a := 22, b := 14, c := 15, x := 3, t := .n32 }, tileE, 0, fun _ => 20,
      stands (by decide +kernel), noPort (by decide +kernel), hasReg (by decide +kernel),
      (by unfold View.mayEnd; decide +kernel), by decide +kernel, by decide +kernel, by decide +kernel, (by decide +kernel),
      by decide +kernel⟩,
    ⟨tiled warp3, _, { c := 15, x := 3, t := .n32 }, 0, block0 (tiled warp3), tileE, stands (by decide +kernel),
      by decide +kernel, by decide +kernel, by decide +kernel, (by decide +kernel), by decide +kernel, by decide +kernel,
      by decide +kernel⟩⟩

/-- States and operands that meet the hypotheses of every clause of `Obligations.AccessQueues`. -/
theorem witness_AccessQueues :
    (∃ (s : State) (v : View) (w : AddrWord) (addr : PushAddr), Stands s (.pusha w) w.head v ∧ (v.sel ≠ 0) ∧
      (s.unwatched v) ∧ (pushAddr w v s = .ok addr) ∧ (v.u.q.loads.length < 64)) ∧
    (∃ (s : State) (v : View) (w : AddrWord) (addr : PushAddr), Stands s (.pushs w) w.head v ∧ (v.sel ≠ 0) ∧
      (s.unwatched v) ∧ (pushAddr w v s = .ok addr) ∧ (v.u.q.addrs.length < 32) ∧ (v.u.q.datas = [])) ∧
    (∃ (s : State) (v : View) (w : AddrWord) (addr : PushAddr), Stands s (.pushs w) w.head v ∧ (v.sel ≠ 0) ∧
      (s.unwatched v) ∧ (pushAddr w v s = .ok addr) ∧ (v.u.q.addrs.length < 32) ∧
      ∃ (d : Reg) (rest : List Reg) (va : Word) (pa : Nat), (v.u.q.datas = d :: rest) ∧ (v.u.q.addrs = []) ∧
      (addr = .va va) ∧ (tagMatches w.t d.tag = true) ∧ (badInterval w.t d.v = false) ∧
      (s.storePlace v.core va w.t.bytes = .ok pa) ∧ (v.u.pail.length < 32)) ∧
    (∃ (s : State) (v : View) (w : ArithWord) (x : Word), Stands s (.qstat w) w.head v ∧ v.hasReg w.d.toNat ∧
      let unpopped := v.u.q.loads.filter fun e => !e.popped
      let results := fun n => (v.u.results[n]?.getD []).length
      let field := fun lo n => (x.extractLsb' lo n).toNat
      (unpopped.length ≤ 64) ∧ (v.u.q.addrs.length ≤ 32) ∧ (v.u.q.datas.length ≤ 32) ∧ ((∀ n, results n ≤ 16)) ∧
      (v.u.loops.length ≤ 8) ∧ (v.u.base ≤ 11) ∧ (field 0 7 = unpopped.length) ∧
      (field 7 7 = (unpopped.filter fun e => e.ans != .pending).length) ∧ (field 14 6 = v.u.q.addrs.length) ∧
      (field 20 6 = v.u.q.datas.length) ∧ (field 26 5 = results 0) ∧ (field 31 5 = results 1) ∧
      (field 36 5 = results 2) ∧ ((x.getLsbD 41 = true ↔ v.u.svc ≠ none)) ∧ (field 42 4 = v.u.loops.length) ∧
      (field 46 4 = v.u.base) ∧ (field 50 14 = 0)) ∧
    (∃ (s : State) (v : View) (w : ArithWord), Stands s (.rqpop w) w.head v ∧ (v.sel ≠ 0) ∧ v.hasReg w.d.toNat ∧
      v.hasPred 6 ∧
      let n := w.sub.toNat % 4
      ∃ r rest, (v.u.results[n]? = some (r :: rest))) ∧
    (∃ (s : State) (v : View) (w : ArithWord), Stands s (.rqpop w) w.head v ∧ (v.sel ≠ 0) ∧ v.hasReg w.d.toNat ∧
      v.hasPred 6 ∧
      let n := w.sub.toNat % 4
      let stall := w.sub.getLsbD 4
      (v.u.results[n]? = some []) ∧ (stall = false)) ∧
    (∃ (s : State) (v : View) (w : ArithWord), Stands s (.mov w) w.head v ∧ (v.u.kind = .context) ∧ (v.sel ≠ 0) ∧
      ∃ (e : LoadEntry) (rest : List LoadEntry) (r : Reg), (w.a.toNat = 63) ∧ v.hasReg w.d.toNat ∧
      (v.u.q.loads = e :: rest) ∧ ((∀ x ∈ rest, x.ans ≠ .pending)) ∧ (e.popped = false) ∧ (e.ans = .data r) ∧
      (s.loadBlocked v.core (s.myBlk v) v.u.q e = false)) ∧
    (∃ (s : State) (v : View) (w : ArithWord), Stands s (.mov w) w.head v ∧ (v.u.kind = .context) ∧ (v.sel ≠ 0) ∧
      (w.a.toNat = 63) ∧ ((∀ e ∈ v.u.q.loads, e.popped = true)) ∧ (v.unit < 21)) ∧
    (∃ (s : State) (v : View) (w : ArithWord), Stands s (.mov w) w.head v ∧ (v.u.kind = .context) ∧ (v.sel ≠ 0) ∧
      (w.a.toNat ≠ 63) ∧ (w.d.toNat = 63) ∧ (v.u.q.datas.length < 32) ∧ (v.u.q.addrs = [])) :=
  ⟨⟨queueing gone, _, { a := 20, t := .n32 }, .va 0x11000, stands (by decide +kernel), by decide +kernel,
      (by unfold State.unwatched; decide +kernel), eqOk (by decide +kernel), by decide +kernel⟩,
    ⟨queueing addrs31, _, { a := 20, t := .n32 }, .va 0x11000, stands (by decide +kernel), by decide +kernel,
      (by unfold State.unwatched; decide +kernel), eqOk (by decide +kernel), by decide +kernel, by decide +kernel⟩,
    ⟨queueing datum, _, { a := 20, t := .n32 }, .va 0x11000, stands (by decide +kernel), by decide +kernel,
      (by unfold State.unwatched; decide +kernel), eqOk (by decide +kernel), by decide +kernel, mkReg 5 .n32, [], 0x11000,
      0x11000, by decide +kernel, by decide +kernel, by decide +kernel, (by decide +kernel), by decide +kernel,
      eqOk (by decide +kernel), by decide +kernel⟩,
    ⟨queueing gone, _, { site := .syl 0 true, d := 4 }, 0x4000000, stands (by decide +kernel), hasReg (by decide +kernel),
      by decide +kernel, by decide +kernel, by decide +kernel, fewResults (by decide +kernel), by decide +kernel,
      by decide +kernel, by decide +kernel, (by decide +kernel), by decide +kernel, by decide +kernel, by decide +kernel,
      (by decide +kernel), by decide +kernel, by decide +kernel, by decide +kernel, (by decide +kernel), by decide +kernel⟩,
    ⟨queueing {}, _, { site := .syl 0 true, d := 4 }, stands (by decide +kernel), by decide +kernel,
      hasReg (by decide +kernel), hasPred (by decide +kernel), r77, [], by decide +kernel⟩,
    ⟨queueing {}, _, { site := .syl 0 true, d := 4, sub := 2 }, stands (by decide +kernel), by decide +kernel,
      hasReg (by decide +kernel), hasPred (by decide +kernel), by decide +kernel, by decide +kernel⟩,
    ⟨queueing { loads := [load1] }, _, { site := .syl 0 true, d := 4, a := 63 }, stands (by decide +kernel),
      by decide +kernel, by decide +kernel, load1, [], r77, by decide +kernel, hasReg (by decide +kernel),
      by decide +kernel, by decide +kernel, by decide +kernel, (by decide +kernel), by decide +kernel⟩,
    ⟨queueing gone, _, { site := .syl 0 true, d := 4, a := 63 }, stands (by decide +kernel), by decide +kernel,
      by decide +kernel, by decide +kernel, (by decide +kernel), by decide +kernel⟩,
    ⟨queueing datas31, _, { site := .syl 0 true, d := 63, a := 2 }, stands (by decide +kernel), by decide +kernel,
      by decide +kernel, by decide +kernel, (by decide +kernel), by decide +kernel, by decide +kernel⟩⟩

/-- States and operands that meet the hypotheses of every clause of `Obligations.EngineCommands`. -/
theorem witness_EngineCommands :
    (∃ (s : State) (v : View) (w : ArithWord) (i : Instr) (op k : Nat) (e : TileEntry),
      (i = .copy w ∧ op = 0 ∨ i = .gather w ∧ op = 1 ∨ i = .scatter w ∧ op = 2) ∧ Stands s i w.head v ∧
      (v.first = some k) ∧ (v.mayEnd) ∧ v.hasReg w.d.toNat ∧ ((s.myBlk v).entry w.handle = some e) ∧
      (e.level ≠ .acc) ∧
      let xr := if op = 0 then w.a.toNat else w.a.toNat + 1
      let a := v.u.read k w.a.toNat
      let x := v.u.read k xr
      let b := v.u.read k w.b.toNat
      v.noPort [w.a.toNat, xr, w.b.toNat] ∧ (a.names (if op = 0 then e.t.bytes else 1)) ∧ ((op ≠ 0 → x.names 4)) ∧
      ((w.tSig = true → b.names 8))) ∧
    (∃ (s : State) (v : View) (w : ArithWord) (k : Nat), (v.first = some k) ∧ (v.mayEnd) ∧ v.hasReg w.d.toNat ∧
      let a := v.u.read k w.a.toNat
      let b := v.u.read k w.b.toNat
      let g := v.u.read k (w.b.toNat + 1)
      let c := v.u.read k w.c.toNat
      Stands s (.coll w) w.head v ∧ ((collDesc c.v).legal c.v = true) ∧ (a.names (collDesc c.v).t.bytes) ∧
      (b.names (collDesc c.v).t.bytes) ∧ ((w.tSig = true → g.names 8))) ∧
    (∃ (s : State) (v : View) (w : ArithWord) (k : Nat), (v.first = some k) ∧ (v.mayEnd) ∧ v.hasReg w.d.toNat ∧
      let a := v.u.read k w.a.toNat
      let b := v.u.read k w.b.toNat
      let g := v.u.read k (w.b.toNat + 1)
      let c := v.u.read k w.c.toNat
      ∃ i op, (i = .peerwr w ∧ op = 0 ∨ i = .peerrd w ∧ op = 1) ∧ Stands s i w.head v ∧ (a.names 8) ∧ (b.names 8) ∧
      ((w.tSig = true → g.names 8)) ∧ (8 ≤ peerLen c.v) ∧ (peerLen c.v % 8 = 0) ∧ (bits c.v.toNat 31 30 = 0) ∧
      (bits c.v.toNat 63 48 = 0)) ∧
    (∃ (s : State) (v : View) (w : ArithWord) (k : Nat), (v.first = some k) ∧ (v.mayEnd) ∧ v.hasReg w.d.toNat ∧
      let a := v.u.read k w.a.toNat
      let b := v.u.read k w.b.toNat
      let c := v.u.read k w.c.toNat
      Stands s (.peersig w) w.head v ∧ v.noPort [w.a.toNat, w.b.toNat, w.c.toNat] ∧ (countTag a.tag = true) ∧
      (b.names 8) ∧ (peerLen c.v = 0) ∧ (bits c.v.toNat 31 30 = 0) ∧ (bits c.v.toNat 63 48 = 0)) ∧
    (∃ (s : State) (v : View) (w : ArithWord) (b : Block), Stands s (.cmdstat w) w.head v ∧ v.hasReg w.d.toNat ∧
      (s.blk v.core = some b) ∧ (w.sub = 1)) ∧
    (∃ (s : State) (v : View) (w : ArithWord) (b : Block), Stands s (.cmdstat w) w.head v ∧ v.hasReg w.d.toNat ∧
      (s.blk v.core = some b) ∧ (w.sub ≠ 1) ∧ v.noPort [w.a.toNat]) :=
  ⟨⟨tiled warp3, _, { d := 4, a := 20, x := 3 }, .copy { d := 4, a := 20, x := 3 }, 0, 0, tileE, Or.inl ⟨rfl, rfl⟩,
      stands (by decide +kernel), by decide +kernel, (by unfold View.mayEnd; decide +kernel), hasReg (by decide +kernel),
      by decide +kernel, by decide +kernel, noPort (by decide +kernel), (by unfold Reg.names; decide +kernel),
      (by unfold Reg.names; decide +kernel), (by unfold Reg.names; decide +kernel)⟩,
    ⟨described 0x10001000001, _, { d := 4, a := 20, b := 20, c := 14 }, 0, by decide +kernel,
      (by unfold View.mayEnd; decide +kernel), hasReg (by decide +kernel), stands (by decide +kernel), by decide +kernel,
      (by unfold Reg.names; decide +kernel), (by unfold Reg.names; decide +kernel), (by unfold Reg.names; decide +kernel)⟩,
    ⟨described 8, _, { d := 4, a := 20, b := 20, c := 14 }, 0, by decide +kernel, (by unfold View.mayEnd; decide +kernel),
      hasReg (by decide +kernel), .peerwr { d := 4, a := 20, b := 20, c := 14 }, 0, Or.inl ⟨rfl, rfl⟩,
      stands (by decide +kernel), (by unfold Reg.names; decide +kernel), (by unfold Reg.names; decide +kernel),
      (by unfold Reg.names; decide +kernel), by decide +kernel, by decide +kernel, by decide +kernel, (by decide +kernel)⟩,
    ⟨warp3, _, { d := 4, a := 21, b := 20, c := 22 }, 0, by decide +kernel, (by unfold View.mayEnd; decide +kernel),
      hasReg (by decide +kernel), stands (by decide +kernel), noPort (by decide +kernel), by decide +kernel,
      (by unfold Reg.names; decide +kernel), by decide +kernel, by decide +kernel, by decide +kernel⟩,
    ⟨warp3, _, { d := 4, sub := 1, x := 63 }, block0 warp3, stands (by decide +kernel), hasReg (by decide +kernel),
      by decide +kernel, by decide +kernel⟩,
    ⟨warp3, _, { d := 4, a := 22 }, block0 warp3, stands (by decide +kernel), hasReg (by decide +kernel),
      by decide +kernel, by decide +kernel, noPort (by decide +kernel)⟩⟩

/-- States and operands that meet the hypotheses of every clause of `Obligations.MatrixCommands`. -/
theorem witness_MatrixCommands :
    (∃ (s : State) (v : View) (w : ArithWord) (k : Nat) (b : Block) (e : TileEntry), Stands s (.mamap w) w.head v ∧
      (v.first = some k) ∧ v.noPort [w.a.toNat] ∧ (s.blk v.core = some b) ∧
      (b.atLevel w.handle [.block, .cell] = some e) ∧ (e.t = w.t) ∧ (countTag (v.u.read k w.a.toNat).tag = true)) ∧
    (∃ (s : State) (v : View) (w : ArithWord) (b : Block), Stands s (.mbmap w) w.head v ∧ (v.sel ≠ 0) ∧
      (s.blk v.core = some b) ∧ ((∀ m, b.map = some m → m.2.2 ≠ .lg6x8)) ∧ (w.sub = 1)) ∧
    (∃ (s : State) (v : View) (w : ArithWord) (b : Block), Stands s (.mbmap w) w.head v ∧ (v.sel ≠ 0) ∧
      (s.blk v.core = some b) ∧ ((∀ m, b.map = some m → m.2.2 ≠ .lg6x8)) ∧ ∃ ea eb, (w.sub ≠ 1) ∧
      (b.atLevel w.handle [.block, .cell] = some ea) ∧ (b.atLevel (w.b.toNat % 64) [.bstore] = some eb) ∧
      (ea.t = .n32) ∧ (eb.t = .n32)) ∧
    (∃ (s : State) (v : View) (w : ArithWord) (k : Nat) (b : Block), (v.first = some k) ∧ (v.mayEnd) ∧
      (s.blk v.core = some b) ∧ ∃ e hs, Stands s (.mloadb w) w.head v ∧ v.noPort [w.b.toNat] ∧
      (countTag (v.u.read k w.b.toNat).tag = true) ∧ (b.atLevel (w.a.toNat % 64) [.bstore] = some e) ∧ (e.t = w.t) ∧
      ((w.sub.getLsbD 1 = false ∧ hs = [] ∨
        w.sub.getLsbD 1 = true ∧ ∃ h, hs = [h] ∧ b.atLevel (w.d.toNat % 64) [.bstore] = some h ∧ h.t = .byte))) ∧
    (∃ (s : State) (v : View) (w : ArithWord) (k : Nat) (b : Block), (v.first = some k) ∧ (v.mayEnd) ∧
      (s.blk v.core = some b) ∧
      let c := v.u.read k w.c.toNat
      ∃ hc ha hb hs, Stands s (.mma w) w.head v ∧ (b.atLevel (w.d.toNat % 64) [.acc] = some hc) ∧
      (b.atLevel (w.a.toNat % 64) [.block, .cell] = some ha) ∧ (b.atLevel (w.b.toNat % 64) [.bstore] = some hb) ∧
      (ha.t = w.t) ∧ (hb.t = w.t) ∧ ((w.xSig = true → c.names 8)) ∧
      ((w.x.getLsbD 2 = false ∧ hs = none ∨ w.x.getLsbD 2 = true ∧ (v.u.read k (w.c.toNat + 1)).names 1 ∧
        bits (v.u.read k (w.c.toNat + 2)).v.toNat 31 6 = 0 ∧
        ∃ h, hs = some h ∧ b.atLevel ((v.u.read k (w.c.toNat + 2)).v.toNat % 64) [.bstore] = some h ∧ h.t = .byte)) ∧
      (mmaShape w.t hc ha hb hs (s.rcd b).depth = true)) ∧
    (∃ (s : State) (v : View) (w : ArithWord) (k : Nat) (b : Block), (v.first = some k) ∧ (v.mayEnd) ∧
      (s.blk v.core = some b) ∧
      let c := v.u.read k w.c.toNat
      v.noPort [w.c.toNat] ∧ ((w.xSig = true → c.names 8)) ∧ ∃ ha hd, Stands s (.mdrain w) w.head v ∧
      (b.atLevel (w.a.toNat % 64) [.acc] = some ha) ∧ (b.atLevel (w.d.toNat % 64) [.block, .cell] = some hd) ∧
      (hd.t = w.t) ∧ (ha.rows ≤ hd.rows) ∧ (drainCols w.t ≤ hd.cols)) ∧
    (∃ (s : State) (v : View) (w : ArithWord) (k : Nat) (b : Block), (v.first = some k) ∧ (v.mayEnd) ∧
      (s.blk v.core = some b) ∧
      let c := v.u.read k w.c.toNat
      v.noPort [w.c.toNat] ∧ ((w.xSig = true → c.names 8)) ∧ ∃ ha, Stands s (.mhad w) w.head v ∧
      (b.atLevel (w.a.toNat % 64) [.acc] = some ha)) ∧
    (∃ (s : State) (v : View) (w : ArithWord) (k : Nat) (b : Block), (v.first = some k) ∧ (v.mayEnd) ∧
      (s.blk v.core = some b) ∧
      let c := v.u.read k w.c.toNat
      v.noPort [w.c.toNat] ∧ ((w.xSig = true → c.names 8)) ∧ ∃ ha, Stands s (.mzero w) w.head v ∧
      (b.atLevel (w.a.toNat % 64) [.acc, .bstore] = some ha)) ∧
    (∃ (s : State) (v : View) (w : ArithWord) (b : Block) (k : Cmd) (rest : List Cmd), Stands s (.mbmap w) w.head v ∧
        v.u.kind ≠ .context ∧ s.blk v.core = some b ∧ b.mqueue = k :: rest ∧ k.op < 10 ∧ w.sub = 1) :=
  ⟨⟨arrayed id warp3, _, { a := 22, x := 2, t := .f16x4 }, 0, block0 (arrayed id warp3), tileA,
      stands (by decide +kernel), by decide +kernel, noPort (by decide +kernel), by decide +kernel, by decide +kernel,
      by decide +kernel, (by decide +kernel)⟩,
    ⟨arrayed id warp3, _, { sub := 1 }, block0 (arrayed id warp3), stands (by decide +kernel), by decide +kernel,
      by decide +kernel, ofNone (by decide +kernel), by decide +kernel⟩,
    ⟨arrayed id warp3, _, { b := 34, x := 3 }, block0 (arrayed id warp3), stands (by decide +kernel), by decide +kernel,
      by decide +kernel, ofNone (by decide +kernel), tileE, tileM, by decide +kernel, by decide +kernel, by decide +kernel,
      (by decide +kernel), by decide +kernel⟩,
    ⟨arrayed id warp3, _, { a := 35, b := 22, t := .f16x4 }, 0, block0 (arrayed id warp3), by decide +kernel,
      (by unfold View.mayEnd; decide +kernel), by decide +kernel, tileB, [], stands (by decide +kernel),
      noPort (by decide +kernel), by decide +kernel, by decide +kernel, by decide +kernel, Or.inl ⟨by decide, rfl⟩⟩,
    ⟨arrayed id warp3, _, { d := 40, a := 2, b := 35, t := .f16x4 }, 0, block0 (arrayed id warp3), by decide +kernel,
      (by unfold View.mayEnd; decide +kernel), by decide +kernel, tileC, tileA, tileB, none, stands (by decide +kernel),
      by decide +kernel, by decide +kernel, by decide +kernel, (by decide +kernel), by decide +kernel,
      (by unfold Reg.names; decide +kernel), Or.inl ⟨by decide, rfl⟩, by decide +kernel⟩,
    ⟨arrayed id warp3, _, { d := 5, a := 40, t := .f32 }, 0, block0 (arrayed id warp3), by decide +kernel,
      (by unfold View.mayEnd; decide +kernel), by decide +kernel, noPort (by decide +kernel),
      (by unfold Reg.names; decide +kernel), tileC, tileF, stands (by decide +kernel), by decide +kernel,
      by decide +kernel, by decide +kernel, (by decide +kernel), by decide +kernel⟩,
    ⟨arrayed id warp3, _, { a := 40 }, 0, block0 (arrayed id warp3), by decide +kernel,
      (by unfold View.mayEnd; decide +kernel), by decide +kernel, noPort (by decide +kernel),
      (by unfold Reg.names; decide +kernel), tileC, stands (by decide +kernel), by decide +kernel⟩,
    ⟨arrayed id warp3, _, { a := 34 }, 0, block0 (arrayed id warp3), by decide +kernel,
      (by unfold View.mayEnd; decide +kernel), by decide +kernel, noPort (by decide +kernel),
      (by unfold Reg.names; decide +kernel), tileM, stands (by decide +kernel), by decide +kernel⟩,
    ⟨arrayed (fun b => { b with mqueue := [cmd1] }) warp3, _, { sub := 1 },
      block0 (arrayed (fun b => { b with mqueue := [cmd1] }) warp3), cmd1, [], stands (by decide +kernel),
      by decide +kernel, by decide +kernel, by decide +kernel, (by decide +kernel), by decide +kernel⟩⟩

/-- States and operands that meet the hypotheses of every clause of `Obligations.MatrixSyllables`. -/
theorem witness_MatrixSyllables :
    (∃ (s : State) (v : View) (w : ArithWord) (i : Instr),
      (i ∈ [.mbeatPush w, .mbeatAcc w, .mbeatShift w, .mbeatDrain w, .mretire w]) ∧ Stands s i w.head v ∧
      (0 < v.u.suppress ∨ v.sel = 0)) ∧
    (∃ (s : State) (v : View) (w : ArithWord) (i : Instr) (replace : Bool) (b : Block) (h e : TileEntry) (m : Nat × Nat × Ty) (r j : Nat),
      (i = .mbeatPush w ∧ replace = true ∨ i = .mbeatAcc w ∧ replace = false) ∧ Stands s i w.head v ∧
      let set := w.sub.toNat / 4 % 2
      (v.u.suppress = 0) ∧ (v.sel ≠ 0) ∧ ((s.begun i v).arrayBusy v (some set) = false) ∧ (s.blk v.core = some b) ∧
      ((b.stop = none ∨ v.unit ∈ (s.core v.core).arr.opened)) ∧ (b.atLevel w.handle [.acc] = some h) ∧
      (b.map = some m) ∧ (b.entry m.1 = some e) ∧ (e.t = m.2.2) ∧ (countTag (v.u.read v.cl w.a.toNat).tag = true) ∧
      (countTag (v.u.read v.cl w.b.toNat).tag = true) ∧ (coordVal (v.u.read v.cl w.a.toNat) = r) ∧
      (coordVal (v.u.read v.cl w.b.toNat) = j) ∧ ((if e.t = .lg6x8 then r + 1 else r) < h.rows) ∧ (j < e.rows)) ∧
    (∃ (s : State) (v : View) (w : ArithWord) (b : Block), (v.u.suppress = 0) ∧ (v.sel ≠ 0) ∧
      ((s.core v.core).arr.running = none) ∧ (s.blk v.core = some b) ∧
      ((b.stop = none ∨ v.unit ∈ (s.core v.core).arr.opened)) ∧ Stands s (.mbeatShift w) w.head v) ∧
    (∃ (s : State) (v : View) (w : ArithWord) (b : Block), (v.u.suppress = 0) ∧ (v.sel ≠ 0) ∧
      ((s.core v.core).arr.running = none) ∧ (s.blk v.core = some b) ∧
      ((b.stop = none ∨ v.unit ∈ (s.core v.core).arr.opened)) ∧ ∃ h, (b.atLevel w.handle [.acc] = some h) ∧
      Stands s (.mretire w) w.head v) ∧
    (∃ (s : State) (v : View) (w : ArithWord) (b : Block), (v.u.suppress = 0) ∧ (v.sel ≠ 0) ∧
      ((s.core v.core).arr.running = none) ∧ (s.blk v.core = some b) ∧
      ((b.stop = none ∨ v.unit ∈ (s.core v.core).arr.opened)) ∧ ∃ h, (b.atLevel w.handle [.acc] = some h) ∧
      ∃ e, ∃ (r j : Nat), Stands s (.mbeatDrain w) w.head v ∧ (b.atLevel (w.c.toNat % 64) [.block, .cell] = some e) ∧
      (countTag (v.u.read v.cl w.a.toNat).tag = true) ∧ (countTag (v.u.read v.cl w.b.toNat).tag = true) ∧
      (coordVal (v.u.read v.cl w.a.toNat) = r) ∧ (coordVal (v.u.read v.cl w.b.toNat) = j) ∧ (e.t = w.t) ∧
      (r < h.rows) ∧ (j < e.rows) ∧ (drainCols w.t ≤ e.cols)) ∧
    (∃ (s : State) (v : View) (w : ArithWord), Stands s (.mscale w) w.head v ∧ (v.sel ≠ 0)) :=
  ⟨⟨beating 1, _, { site := .syl 0 true, sub := 2 }, .mbeatShift { site := .syl 0 true, sub := 2 }, by decide +kernel,
      stands (by decide +kernel), Or.inl (by decide +kernel)⟩,
    ⟨beating 0, _, { site := .syl 0 true, a := 14, b := 21, x := 40 },
      .mbeatPush { site := .syl 0 true, a := 14, b := 21, x := 40 }, true, block0 (beating 0), tileC, tileA,
      (2, 0, .f16x4), 2, 1, Or.inl ⟨rfl, rfl⟩, stands (by decide +kernel), by decide +kernel, by decide +kernel,
      by decide +kernel, (by decide +kernel), by decide +kernel, by decide +kernel, by decide +kernel, (by decide +kernel),
      by decide +kernel, by decide +kernel, by decide +kernel, (by decide +kernel), by decide +kernel, by decide +kernel,
      by decide +kernel⟩,
    ⟨beating 0, _, { site := .syl 0 true, sub := 2 }, block0 (beating 0), by decide +kernel, by decide +kernel,
      by decide +kernel, (by decide +kernel), by decide +kernel, stands (by decide +kernel)⟩,
    ⟨beating 0, _, { site := .syl 0 true, x := 40 }, block0 (beating 0), by decide +kernel, by decide +kernel,
      by decide +kernel, (by decide +kernel), by decide +kernel, tileC, by decide +kernel, stands (by decide +kernel)⟩,
    ⟨beating 0, _, { site := .syl 0 true, a := 14, b := 21, c := 5, t := .f32, x := 40, sub := 3 }, block0 (beating 0),
      by decide +kernel, by decide +kernel, by decide +kernel, (by decide +kernel), by decide +kernel, tileC,
      by decide +kernel, tileF, 2, 1, stands (by decide +kernel), by decide +kernel, by decide +kernel, by decide +kernel,
      (by decide +kernel), by decide +kernel, by decide +kernel, by decide +kernel, (by decide +kernel), by decide +kernel⟩,
    ⟨context16, _, { site := .syl 0 true, a := 16, b := 17 }, stands (by decide +kernel), by decide +kernel⟩⟩

/-- States and operands that meet the hypotheses of every clause of `Obligations.DebugInstructions`. -/
theorem witness_DebugInstructions :
    (∃ (s : State) (v : View) (w : ArithWord), Stands s (.bkpt w) w.head v ∧ (v.sel = 0 ∨ s.unwatched v)) ∧
    (∃ (s : State) (v : View) (w : ArithWord), Stands s (.bkpt w) w.head v ∧ (v.sel ≠ 0) ∧ (¬s.unwatched v) ∧
      (v.u.kind ≠ .handler) ∧ (v.unit < 21)) ∧
    (∃ (s : State) (v : View) (w : ArithWord) (k : Nat), Stands s (.pmcfg w) w.head v ∧ (v.first = some k) ∧
      let ev := (v.u.read k w.a.toNat).v.toNat % 128
      (ev < 96)) ∧
    (∃ (s : State) (v : View) (w : ArithWord), Stands s (.pmread w) w.head v ∧ v.hasReg w.d.toNat) ∧
    (∃ (s : State) (v : View) (w : ArithWord), Stands s (.pmctl w) w.head v ∧ (v.sel ≠ 0)) ∧
    (∃ (s : State) (v : View) (w : ArithWord) (k : Nat), Stands s (.trmark w) w.head v ∧ (v.first = some k) ∧
      v.noPort [w.a.toNat]) ∧
    (∃ (s : State) (v : View) (w : ArithWord), Stands s (.lclk w) w.head v ∧ (v.sel ≠ 0) ∧ v.hasReg w.d.toNat) ∧
    (∃ (s : State) (v : View) (w : ArithWord) (k : Nat), Stands s (.watch w) w.head v ∧ (v.first = some k) ∧
      let va := (v.u.read k w.a.toNat).v
      let ctl := (v.u.read k w.b.toNat).v
      (ctl = 0 ∨ watchOk va ctl = true)) :=
  ⟨⟨warp3, _, { x := 0xFF }, stands (by decide +kernel), Or.inr (by unfold State.unwatched; decide +kernel)⟩,
    ⟨warp3.modInst 0 fun i => { i with dbgctl := 1 }, _, {}, stands (by decide +kernel), by decide +kernel,
      (by unfold State.unwatched; decide +kernel), by decide +kernel, by decide +kernel⟩,
    ⟨handler1, _, { a := 14, x := 3 }, 0, stands (by decide +kernel), by decide +kernel, by decide +kernel⟩,
    ⟨warp3, _, { d := 4, x := 3 }, stands (by decide +kernel), hasReg (by decide +kernel)⟩,
    ⟨warp3, _, { x := 15, sub := 2 }, stands (by decide +kernel), by decide +kernel⟩,
    ⟨warp3, _, { a := 14 }, 0, stands (by decide +kernel), by decide +kernel, noPort (by decide +kernel)⟩,
    ⟨warp3, _, { d := 4, sub := 1 }, stands (by decide +kernel), by decide +kernel, hasReg (by decide +kernel)⟩,
    ⟨handler1, _, { a := 16, b := 22, x := 3 }, 0, stands (by decide +kernel), by decide +kernel, by decide +kernel⟩⟩

/-- States and operands that meet the hypotheses of every clause of `Obligations.Services`. -/
theorem witness_Services :
    (∃ (s : State) (v : View) (w : ArithWord), Stands s (.syssend w) w.head v ∧ (v.sel ≠ 0) ∧ (v.mayEnd) ∧
      (v.u.svc = none)) ∧
    (∃ (s : State) (v : View) (w : ArithWord) (q : Service), Stands s (.sysrecv w) w.head v ∧ (v.sel ≠ 0) ∧
      (v.mayEnd) ∧ v.hasReg w.d.toNat ∧ (v.u.svc = some q) ∧ ∃ x, (q.reply = some (some x))) ∧
    (∃ (s : State) (v : View) (w : ArithWord) (q : Service), Stands s (.sysrecv w) w.head v ∧ (v.sel ≠ 0) ∧
      (v.mayEnd) ∧ v.hasReg w.d.toNat ∧ (v.u.svc = some q) ∧ (q.reply = some none)) ∧
    (∃ (s : State) (v : View) (w : ArithWord) (k : Nat) (h : Handler) (p : ProgUnit),
      Stands s (.portreply w) w.head v ∧ (v.first = some k) ∧ ((s.core v.core).hnd = some h) ∧ (h.svc = true) ∧
      (h.replied = false) ∧ (h.unit ≠ v.unit) ∧ (s.unit v.core h.unit = some p)) ∧
    (∃ (s : State) (v : View) (w : ArithWord) (d : Die), Stands s (.errread w) w.head v ∧ (v.sel ≠ 0) ∧
      v.hasReg w.d.toNat ∧ (s.dies[dieOf v.core]? = some d) ∧ (d.log = [])) ∧
    (∃ (s : State) (v : View) (w : ArithWord) (d : Die), Stands s (.errread w) w.head v ∧ (v.sel ≠ 0) ∧
      v.hasReg w.d.toNat ∧ (s.dies[dieOf v.core]? = some d) ∧ ∃ r rest, (d.log = r :: rest) ∧ v.hasReg (w.d.toNat + 1)) :=
  ⟨⟨trapping (launched id context16), _, { site := .syl 0 true, a := 20, b := 14, sub := 2 }, stands (by decide +kernel),
      by decide +kernel, (by unfold View.mayEnd; decide +kernel), by decide +kernel⟩,
    ⟨served (some (some 77)), _, { site := .syl 0 true, d := 4 }, { port := 2, a := 3, b := 4, reply := some (some 77) },
      stands (by decide +kernel), by decide +kernel, (by unfold View.mayEnd; decide +kernel), hasReg (by decide +kernel),
      by decide +kernel, 77, by decide +kernel⟩,
    ⟨served (some none), _, { site := .syl 0 true, d := 4 }, { port := 2, a := 3, b := 4, reply := some none },
      stands (by decide +kernel), by decide +kernel, (by unfold View.mayEnd; decide +kernel), hasReg (by decide +kernel),
      by decide +kernel, by decide +kernel⟩,
    ⟨handling fun h => { h with svc := true }, _, { sub := 1 }, 0, handles fun h => { h with svc := true }, handledUnit,
      stands (by decide +kernel), by decide +kernel, by decide +kernel, by decide +kernel, (by decide +kernel),
      by decide +kernel, by decide +kernel⟩,
    ⟨handler1, _, { d := 4 }, {}, stands (by decide +kernel), by decide +kernel, hasReg (by decide +kernel),
      by decide +kernel, by decide +kernel⟩,
    ⟨{ handler1 with dies := [{ log := [(5, 6)] }] }, _, { d := 30 }, { log := [(5, 6)] }, stands (by decide +kernel),
      by decide +kernel, hasReg (by decide +kernel), by decide +kernel, (5, 6), [], by decide +kernel,
      hasReg (by decide +kernel)⟩⟩

/-- States and operands that meet the hypotheses of every clause of `Obligations.SystemRegisters`. -/
theorem witness_SystemRegisters :
    (∃ (s : State) (v : View) (w : ArithWord) (k : Nat) (h : Handler) (p : ProgUnit), (v.first = some k) ∧
      (v.u.kind = .handler) ∧ ((s.core v.core).hnd = some h) ∧ (h.unit ≠ v.unit) ∧ (s.unit v.core h.unit = some p) ∧
      Stands s (.sread w) w.head v ∧ v.hasReg w.d.toNat ∧ (w.sub = 0)) ∧
    (∃ (s : State) (v : View) (w : ArithWord) (k : Nat) (h : Handler) (p : ProgUnit), (v.first = some k) ∧
      (v.u.kind = .handler) ∧ ((s.core v.core).hnd = some h) ∧ (h.unit ≠ v.unit) ∧ (s.unit v.core h.unit = some p) ∧
      let lane := (v.u.read k w.b.toNat).v.toNat
      Stands s (.sread w) w.head v ∧ v.hasReg w.d.toNat ∧ (w.sub = 3) ∧ (lane < p.lanes.length)) ∧
    (∃ (s : State) (v : View) (w : ArithWord) (k : Nat) (h : Handler) (p : ProgUnit), (v.first = some k) ∧
      (v.u.kind = .handler) ∧ ((s.core v.core).hnd = some h) ∧ (h.unit ≠ v.unit) ∧ (s.unit v.core h.unit = some p) ∧
      let lane := (v.u.read k w.b.toNat).v.toNat
      Stands s (.sread w) w.head v ∧ v.hasReg w.d.toNat ∧ ∃ r, (p.handledReg lane w.a.toNat = some r) ∧ (w.sub = 1)) ∧
    (∃ (s : State) (v : View) (w : ArithWord) (k : Nat) (h : Handler) (p : ProgUnit), (v.first = some k) ∧
      (v.u.kind = .handler) ∧ ((s.core v.core).hnd = some h) ∧ (h.unit ≠ v.unit) ∧ (s.unit v.core h.unit = some p) ∧
      let lane := (v.u.read k w.b.toNat).v.toNat
      Stands s (.sread w) w.head v ∧ v.hasReg w.d.toNat ∧ ∃ r, (p.handledReg lane w.a.toNat = some r) ∧ (w.sub = 2)) ∧
    (∃ (s : State) (v : View) (w : ArithWord) (k : Nat) (h : Handler) (p : ProgUnit), (v.first = some k) ∧
      (v.u.kind = .handler) ∧ ((s.core v.core).hnd = some h) ∧ (h.unit ≠ v.unit) ∧ (s.unit v.core h.unit = some p) ∧
      Stands s (.swrite w) w.head v ∧
      let x := (v.u.read k w.a.toNat).v
      (w.sub = 0) ∧ (w.x = 1)) ∧
    (∃ (s : State) (v : View) (w : ArithWord) (k : Nat) (h : Handler) (p : ProgUnit), (v.first = some k) ∧
      (v.u.kind = .handler) ∧ ((s.core v.core).hnd = some h) ∧ (h.unit ≠ v.unit) ∧ (s.unit v.core h.unit = some p) ∧
      Stands s (.swrite w) w.head v ∧
      let x := (v.u.read k w.a.toNat).v
      ∃ i, (w.sub = 0) ∧ (w.x = 0 ∨ w.x = 5 ∨ w.x = 7 ∨ w.x = 8) ∧ (s.instOf v.core < s.insts.length) ∧
      ((s.inst (s.instOf v.core)).sysWrite w.x.toNat x = some i)) ∧
    (∃ (s : State) (v : View) (w : ArithWord) (k : Nat) (h : Handler) (p : ProgUnit), (v.first = some k) ∧
      (v.u.kind = .handler) ∧ ((s.core v.core).hnd = some h) ∧ (h.unit ≠ v.unit) ∧ (s.unit v.core h.unit = some p) ∧
      let lane := (v.u.read k w.b.toNat).v.toNat
      Stands s (.swrite w) w.head v ∧ (w.sub = 3) ∧ (lane < p.lanes.length)) ∧
    (∃ (s : State) (v : View) (w : ArithWord) (k : Nat) (h : Handler) (p : ProgUnit), (v.first = some k) ∧
      (v.u.kind = .handler) ∧ ((s.core v.core).hnd = some h) ∧ (h.unit ≠ v.unit) ∧ (s.unit v.core h.unit = some p) ∧
      let lane := (v.u.read k w.b.toNat).v.toNat
      Stands s (.swrite w) w.head v ∧
      let x := (v.u.read k w.a.toNat).v
      ∃ r, (p.handledReg lane w.d.toNat = some r) ∧ (w.sub = 1) ∧ (r.tag ≠ .iv32 ∨ ivValid x = true)) ∧
    (∃ (s : State) (v : View) (w : ArithWord) (k : Nat) (h : Handler) (p : ProgUnit), (v.first = some k) ∧
      (v.u.kind = .handler) ∧ ((s.core v.core).hnd = some h) ∧ (h.unit ≠ v.unit) ∧ (s.unit v.core h.unit = some p) ∧
      let lane := (v.u.read k w.b.toNat).v.toNat
      Stands s (.swrite w) w.head v ∧
      let x := (v.u.read k w.a.toNat).v
      ∃ r, (p.handledReg lane w.d.toNat = some r) ∧ (w.sub = 2) ∧ (x.toNat % 16 ≠ 14) ∧
      (Ty.ofCode (x.toNat % 16) ≠ .iv32 ∨ ivValid r.v = true)) :=
  ⟨⟨handling id, _, { d := 4, x := 1 }, 0, handles id, handledUnit, by decide +kernel, by decide +kernel,
      by decide +kernel, (by decide +kernel), by decide +kernel, stands (by decide +kernel), hasReg (by decide +kernel),
      by decide +kernel⟩,
    ⟨handling id, _, { d := 4, b := 14, sub := 3 }, 0, handles id, handledUnit, by decide +kernel, by decide +kernel,
      by decide +kernel, (by decide +kernel), by decide +kernel, stands (by decide +kernel), hasReg (by decide +kernel),
      by decide +kernel, by decide +kernel⟩,
    ⟨handling id, _, { d := 4, a := 7, b := 14, sub := 1 }, 0, handles id, handledUnit, by decide +kernel,
      by decide +kernel, by decide +kernel, (by decide +kernel), by decide +kernel, stands (by decide +kernel),
      hasReg (by decide +kernel), mkReg 0x3C003C003C003C00 .f16x4, by decide +kernel, by decide +kernel⟩,
    ⟨handling id, _, { d := 4, a := 7, b := 14, sub := 2 }, 0, handles id, handledUnit, by decide +kernel,
      by decide +kernel, by decide +kernel, (by decide +kernel), by decide +kernel, stands (by decide +kernel),
      hasReg (by decide +kernel), mkReg 0x3C003C003C003C00 .f16x4, by decide +kernel, by decide +kernel⟩,
    ⟨handling id, _, { a := 20, x := 1 }, 0, handles id, handledUnit, by decide +kernel, by decide +kernel,
      by decide +kernel, (by decide +kernel), by decide +kernel, stands (by decide +kernel), by decide +kernel,
      by decide +kernel⟩,
    ⟨handling id, _, { a := 20 }, 0, handles id, handledUnit, by decide +kernel, by decide +kernel, by decide +kernel,
      (by decide +kernel), by decide +kernel, stands (by decide +kernel), { (handling id).inst 0 with trapbase := 0x11000 },
      by decide +kernel, by decide +kernel, by decide +kernel, (by decide +kernel)⟩,
    ⟨handling id, _, { a := 20, b := 14, sub := 3 }, 0, handles id, handledUnit, by decide +kernel, by decide +kernel,
      by decide +kernel, (by decide +kernel), by decide +kernel, stands (by decide +kernel), by decide +kernel,
      by decide +kernel⟩,
    ⟨handling id, _, { d := 2, a := 20, b := 14, sub := 1 }, 0, handles id, handledUnit, by decide +kernel,
      by decide +kernel, by decide +kernel, (by decide +kernel), by decide +kernel, stands (by decide +kernel), mkReg 7 .n32,
      by decide +kernel, by decide +kernel, by decide +kernel⟩,
    ⟨handling id, _, { d := 2, a := 28, b := 14, sub := 2 }, 0, handles id, handledUnit, by decide +kernel,
      by decide +kernel, by decide +kernel, (by decide +kernel), by decide +kernel, stands (by decide +kernel), mkReg 7 .n32,
      by decide +kernel, by decide +kernel, by decide +kernel, (by decide +kernel)⟩⟩

/-- States and operands that meet the hypotheses of every clause of `Obligations.HandlerControl`. -/
theorem witness_HandlerControl :
    (∃ (s : State) (v : View) (w : ArithWord) (i : Instr) (b : Block), (i = .preempt w ∨ i = .halt w) ∧
      Stands s i w.head v ∧ (v.sel ≠ 0) ∧ (s.blk v.core = some b)) ∧
    (∃ (s : State) (v : View) (w : ArithWord) (k : Nat) (b : Block), Stands s (.lgdiv w) w.head v ∧
      (v.first = some k) ∧ v.hasReg w.d.toNat ∧ (s.blk v.core = some b) ∧
      let groups := (v.u.read k w.a.toNat).v.toNat
      (s.division v.core b groups = none)) ∧
    (∃ (s : State) (v : View) (w : ArithWord) (k : Nat) (b : Block), Stands s (.lgdiv w) w.head v ∧
      (v.first = some k) ∧ v.hasReg w.d.toNat ∧ (s.blk v.core = some b) ∧
      let groups := (v.u.read k w.a.toNat).v.toNat
      ∃ qs, (s.division v.core b groups = some qs) ∧ (b.unitsStopped (some (s.handled v)) = true) ∧
      (s.enginesStopped v.core b = true) ∧
      let s1 := (s.begun (.lgdiv w) v).quiesce v.core
      ((s1.core v.core).travel = []) ∧ (s1.unpinned v.core) ∧
      ((s1.saveChunks v.core (s1.myBlk v) .preempt).all (s1.chunkOk v.core .store (s1.slotVa (s1.myBlk v))) = true)) ∧
    (∃ (s : State) (v : View) (w : ArithWord) (b : Block) (h : Handler) (p : ProgUnit),
      Stands s (.ctxsave w) w.head v ∧ (v.sel ≠ 0) ∧ (v.u.kind = .handler) ∧ (s.blk v.core = some b) ∧
      ((s.core v.core).hnd = some h) ∧ (h.unit ≠ v.unit) ∧ (b.unit h.unit = some p) ∧
      let parts := p.record (s.rcd b).code h.unit s.cyc .none none ++
        (if h.unit < 20 then p.regChunks (imageBase b.regLayout h.unit) true ++ [b.tagChunk] ++ p.areas h.unit s.cyc else [])
      (s.unpinned v.core) ∧ (parts.all (s.chunkOk v.core .store (s.slotVa b)) = true)) ∧
    (∃ (s : State) (v : View) (w : ArithWord) (b : Block) (h : Handler) (p0 : ProgUnit),
      Stands s (.ctxload w) w.head v ∧ (v.sel ≠ 0) ∧ (v.u.kind = .handler) ∧ (s.blk v.core = some b) ∧
      ((s.core v.core).hnd = some h) ∧ (h.unit ≠ v.unit) ∧ (b.unit h.unit = some p0) ∧ (s.unpinned v.core) ∧
      (b.restorePages.all (s.chunkOk v.core .load (s.slotVa b)) = true) ∧
      let p := b.recordOf h.unit p0
      ((∀ x ∈ b.loadSpans h.unit p, x.2 ≠ 0 → s.slotPoison v.core (s.slotVa b + .ofNat 64 x.1) x.2 = false)) ∧
      let pc := s.slotWord v.core (s.slotVa b) (0x4000 + 0x1000 * h.unit) 8
      (pc % 8 = 0)) ∧
    (∃ (s : State) (v : View) (w : ArithWord) (b : Block) (h : Handler) (p0 : ProgUnit),
      Stands s (.ctxload w) w.head v ∧ (v.sel ≠ 0) ∧ (v.u.kind = .handler) ∧ (s.blk v.core = some b) ∧
      ((s.core v.core).hnd = some h) ∧ (h.unit ≠ v.unit) ∧ (b.unit h.unit = some p0) ∧ (s.unpinned v.core) ∧
      (b.restorePages.all (s.chunkOk v.core .load (s.slotVa b)) = true) ∧
      let p := b.recordOf h.unit p0
      ((∀ x ∈ b.loadSpans h.unit p, x.2 ≠ 0 → s.slotPoison v.core (s.slotVa b + .ofNat 64 x.1) x.2 = false)) ∧
      let pc := s.slotWord v.core (s.slotVa b) (0x4000 + 0x1000 * h.unit) 8
      (pc % 8 ≠ 0) ∧ (v.unit = 21)) ∧
    (∃ (s : State) (v : View) (w : ArithWord), Stands s (.icinv w) w.head v ∧ (v.sel ≠ 0) ∧ (s.slow = false) ∧
      (v.sp.waits = [])) ∧
    (∃ (s : State) (v : View) (w : ArithWord) (k : Nat), Stands s (.tlbinv w) w.head v ∧ (v.first = some k) ∧
      (s.slow = false) ∧ (v.sp.waits = [])) :=
  ⟨⟨handler1, _, {}, .preempt {}, block0 handler1, by simp, stands (by decide +kernel), by decide +kernel,
      by decide +kernel⟩,
    ⟨handling id, _, { d := 4, a := 24 }, 0, block0 (handling id), stands (by decide +kernel), by decide +kernel,
      hasReg (by decide +kernel), by decide +kernel, by decide +kernel⟩,
    ⟨handling id, _, { d := 4, a := 14 }, 0, block0 (handling id), stands (by decide +kernel), by decide +kernel,
      hasReg (by decide +kernel), by decide +kernel, [0], by decide +kernel, by decide +kernel, by decide +kernel,
      (by decide +kernel), unpinned (by decide +kernel), by decide +kernel⟩,
    ⟨handling id, _, {}, block0 (handling id), handles id, handledUnit, stands (by decide +kernel), by decide +kernel,
      by decide +kernel, by decide +kernel, (by decide +kernel), by decide +kernel, by decide +kernel,
      unpinned (by decide +kernel), by decide +kernel⟩,
    ⟨handling id, _, {}, block0 (handling id), handles id, handledUnit, stands (by decide +kernel), by decide +kernel,
      by decide +kernel, by decide +kernel, (by decide +kernel), by decide +kernel, by decide +kernel,
      unpinned (by decide +kernel), by decide +kernel, by decide +kernel, by decide +kernel⟩,
    ⟨inMem 0x106000 [4] (handling id), _, {}, block0 (handling id), handles id, handledUnit, stands (by decide +kernel),
      by decide +kernel, by decide +kernel, by decide +kernel, (by decide +kernel), by decide +kernel, by decide +kernel,
      unpinned (by decide +kernel), by decide +kernel, by decide +kernel, by decide +kernel, (by decide +kernel)⟩,
    ⟨handler1, _, { sub := 1 }, stands (by decide +kernel), by decide +kernel, by decide +kernel, by decide +kernel⟩,
    ⟨handler1, _, { a := 20, sub := 1 }, 0, stands (by decide +kernel), by decide +kernel, by decide +kernel,
      by decide +kernel⟩⟩

/-- States and operands that meet the hypotheses of every clause of `Obligations.HandlerReturn`. -/
theorem witness_HandlerReturn :
    (∃ (s : State) (v : View) (w : ArithWord) (h : Handler) (p : ProgUnit), Stands s (.tret w) w.head v ∧
      (v.sel ≠ 0) ∧ ((s.core v.core).hnd = some h) ∧ (h.unit < 21) ∧ (v.unit = 21) ∧ (s.unit v.core h.unit = some p) ∧
      (h.svc = true)) ∧
    (∃ (s : State) (v : View) (w : ArithWord) (h : Handler) (p : ProgUnit), Stands s (.tret w) w.head v ∧
      (v.sel ≠ 0) ∧ ((s.core v.core).hnd = some h) ∧ (h.unit < 21) ∧ (v.unit = 21) ∧ (s.unit v.core h.unit = some p) ∧
      ∃ bs, (h.svc = false) ∧ (s.slotRead v.core h.frameVa 0x40 = some bs) ∧
      let resume := BitVec.ofNat 64 (leNat ((bs.drop 0x20).take 8))
      (resume.toNat % 8 = 0) ∧ ((s.core v.core).travel = []) ∧ (s.unpinned v.core) ∧ (p.stepped = false) ∧
      (p.trapSplit < p.splits.length)) ∧
    (∃ (s : State) (v : View) (w : ImmWord) (b : Block) (h : Handler), Stands s (.trap w) w.head v ∧ (v.sel ≠ 0) ∧
      (v.u.kind = .handler) ∧ (v.unit = 21) ∧ (s.blk v.core = some b) ∧ (b.stop = none) ∧
      ((s.core v.core).hnd = some h)) :=
  ⟨⟨handling fun h => { h with svc := true }, _, {}, handles fun h => { h with svc := true }, handledUnit,
      stands (by decide +kernel), by decide +kernel, by decide +kernel, by decide +kernel, (by decide +kernel),
      by decide +kernel, by decide +kernel⟩,
    ⟨inMem 0x50000 frameBytes (handling id), _, {}, handles id, handledUnit, stands (by decide +kernel), by decide +kernel,
      by decide +kernel, by decide +kernel, (by decide +kernel), by decide +kernel, frameBytes, by decide +kernel,
      by decide +kernel, by decide +kernel, (by decide +kernel), unpinned (by decide +kernel), by decide +kernel,
      by decide +kernel⟩,
    ⟨handling id, _, { imm := 4 }, block0 (handling id), handles id, stands (by decide +kernel), by decide +kernel,
      by decide +kernel, by decide +kernel, (by decide +kernel), by decide +kernel, by decide +kernel⟩⟩

/-- States and operands that meet the hypotheses of every clause of `Obligations.PrivilegeTraps`. -/
theorem witness_PrivilegeTraps :
      ∃ (s : State) (v : View) (w : ArithWord) (i : Instr),
      (i ∈ [.pmcfg w, .watch w, .tret w, .sread w, .swrite w, .tlbinv w, .ctxsave w, .ctxload w, .lgdiv w, .errread w, .portreply w,
        .preempt w, .halt w]) ∧
      (s.view i w.head = some v) ∧ (s.bundle = none) ∧ (v.u.kind ≠ .handler) ∧ (v.unit < 21) ∧
      ((s.inst (s.instOf v.core)).dbgctl.getLsbD 1 = false) ∧ ∃ (b : Block) (pa : Nat), (s.blk v.core = some b) ∧
      (b.units.length = 22) ∧ ((s.core v.core).hnd = none) ∧ ((s.core v.core).trapQ = []) ∧
      (2 ≤ (s.core v.core).hbank.length) ∧ (b.stop = none) ∧ (s.unpinned v.core) ∧ ((s.core v.core).travel = []) ∧
      ((s.inst b.inst).trapbase ≠ 0) ∧ (s.translate v.core .store (s.frameVa b v.unit) = .ok pa) ∧
      ((s.frameVa b v.unit).toNat % 65536 ≤ 65280) :=
  ⟨trapping (launched id warp3), _, {}, .halt {}, by simp, viewOf (by decide +kernel), by decide +kernel,
    by decide +kernel, by decide +kernel, (by decide +kernel), block0 warp3, 0x101000, by decide +kernel, by decide +kernel,
    by decide +kernel, (by decide +kernel), by decide +kernel, by decide +kernel, unpinned (by decide +kernel),
    by decide +kernel, by decide +kernel, eqOk (by decide +kernel), by decide +kernel⟩

/-- States and operands that meet the hypotheses of every clause of `Obligations.StartsAndManagement`. The
signature check is a free value, so the two patch clauses are met up to it: a patch that fits and reads
poison, and one that fits and reads none (log 14). -/
theorem witness_StartsAndManagement :
    (∃ (s : State) (trained : BitVec 12) (tests : StartTests), (s.dev.level = 0) ∧
      (trained.getLsbD 0 = true)) ∧
    (∃ (s : State) (trained : BitVec 12) (tests : StartTests), (s.dev.level = 0) ∧
      (trained.getLsbD 0 = false)) ∧
    (∃ (s : State) (trained : BitVec 12) (tests : StartTests), (s.dev.level = 1) ∧
      ((∀ k ∈ s.insts, k.launches = []))) ∧
    (∃ (s : State), (s.commanded 4 [1, 2]) ∧ (s.dev.rst = false)) ∧
    (∃ (s : State), (s.commanded 3 [2]) ∧ (s.dev.rst = false) ∧ (s.insts.any Inst.busy = true)) ∧
    (∃ (s : State), (s.commanded 3 [2]) ∧ (s.dev.rst = false) ∧ (s.insts.any Inst.busy = false) ∧
      (2 ≤ s.dev.fwarg0.toNat)) ∧
    (∃ (s : State), (s.commanded 3 [2]) ∧ (s.dev.rst = false) ∧ (s.insts.any Inst.busy = false) ∧
      (s.dev.fwarg0.toNat < 2)) ∧
    (∃ (s : State), (s.commanded 1 [1, 2])) ∧
    (∃ (s : State), (s.commanded 2 [1]) ∧
      let pa := s.dev.fwarg0.toNat
      let len := s.dev.fwarg1.toNat
      let body := leNat ((s.homeRead pa 16).drop 8)
      let fits := paExists pa = true ∧ s.poisonedIn pa 16 = false ∧ leNat ((s.homeRead pa 16).take 4) = 0x5441504C ∧
        leNat (((s.homeRead pa 16).drop 4).take 4) = Config.romVersion.toNat ∧ body % 8 = 0 ∧ body ≤ 2 ^ 20 ∧ len = 16 + body + 384
      (¬fits)) ∧
    (∃ s : State, s.commanded 2 [1] ∧ paExists s.dev.fwarg0.toNat = true ∧ s.poisonedIn s.dev.fwarg0.toNat 16 = false ∧
        leNat ((s.homeRead s.dev.fwarg0.toNat 16).take 4) = 0x5441504C ∧
        leNat (((s.homeRead s.dev.fwarg0.toNat 16).drop 4).take 4) = Config.romVersion.toNat ∧
        leNat ((s.homeRead s.dev.fwarg0.toNat 16).drop 8) % 8 = 0 ∧ leNat ((s.homeRead s.dev.fwarg0.toNat 16).drop 8) ≤ 2 ^ 20 ∧
        s.dev.fwarg1.toNat = 16 + leNat ((s.homeRead s.dev.fwarg0.toNat 16).drop 8) + 384 ∧
        s.poisonedIn s.dev.fwarg0.toNat s.dev.fwarg1.toNat = true) ∧
    (∃ s : State, s.commanded 2 [1] ∧ paExists s.dev.fwarg0.toNat = true ∧ s.poisonedIn s.dev.fwarg0.toNat 16 = false ∧
        leNat ((s.homeRead s.dev.fwarg0.toNat 16).take 4) = 0x5441504C ∧
        leNat (((s.homeRead s.dev.fwarg0.toNat 16).drop 4).take 4) = Config.romVersion.toNat ∧
        leNat ((s.homeRead s.dev.fwarg0.toNat 16).drop 8) % 8 = 0 ∧ leNat ((s.homeRead s.dev.fwarg0.toNat 16).drop 8) ≤ 2 ^ 20 ∧
        s.dev.fwarg1.toNat = 16 + leNat ((s.homeRead s.dev.fwarg0.toNat 16).drop 8) + 384 ∧
        s.poisonedIn s.dev.fwarg0.toNat s.dev.fwarg1.toNat = false) ∧
    (∃ (s : State) (x y w h : Nat), (s.commanded 5 [1, 2]) ∧
      (s.dev.fwarg0.toNat = x + 2 ^ 8 * y + 2 ^ 16 * w + 2 ^ 24 * h) ∧ (x < 256) ∧ (y < 256) ∧ (w < 256) ∧ (h < 256) ∧
      (w < 128 ∧ h < 128 ∧ x ≤ w ∧ y ≤ h)) ∧
    (∃ (s : State) (x y w h : Nat), (s.commanded 5 [1, 2]) ∧
      (s.dev.fwarg0.toNat = x + 2 ^ 8 * y + 2 ^ 16 * w + 2 ^ 24 * h) ∧ (x < 256) ∧ (y < 256) ∧ (w < 256) ∧ (h < 256) ∧
      (¬(w < 128 ∧ h < 128 ∧ x ≤ w ∧ y ≤ h))) ∧
    (∃ (s : State), (s.commanded 6 [2]) ∧ (s.dev.rst = false) ∧ (s.dev.fwarg0.toNat < 2) ∧
      ((s.dev.fwarg0 = 1 → ∀ i, i < 4 → ∀ l ∈ s.heldLaunches i, s.abandonPinned l = none))) ∧
    (∃ (s : State), (s.commanded 7 [1, 2]) ∧
      let n := s.dev.fwarg0.toNat % 256
      let i := s.dev.fwarg0.toNat / 256 % 256
      (s.instExists i = true) ∧ (i < s.insts.length) ∧ (n = 3) ∧ (s.dev.fwarg1.toNat % 2 ^ 16 = 0) ∧
      ((s.inst i).launches = [])) ∧
    (∃ (s : State), (s.commanded 7 [1, 2]) ∧
      let n := s.dev.fwarg0.toNat % 256
      let i := s.dev.fwarg0.toNat / 256 % 256
      (s.instExists i = true) ∧ (i < s.insts.length) ∧ ∃ k,
      (n = 0 ∧ s.dev.fwarg1.toNat % 8 = 0 ∨ n = 5 ∨ n = 7 ∨ n = 8) ∧ ((s.inst i).sysWrite n s.dev.fwarg1 = some k)) ∧
    (∃ (s : State) (l : Launch), (s.commanded 8 [2]) ∧ (s.dev.rst = false) ∧
      let a := s.dev.blockArgs
      let i := a.2.2.1
      let idx := a.2.2.2.1
      (s.instExists i = true) ∧ (i < s.insts.length) ∧ ((s.inst i).named a.1 s.dev.fwarg1.toNat = some l) ∧ ∃ c b,
      (a.2.1 = 0) ∧ (s.runningBlock i l idx = some c) ∧ (s.blk c = some b)) ∧
    (∃ (s : State) (l : Launch), (s.commanded 8 [2]) ∧ (s.dev.rst = false) ∧
      let a := s.dev.blockArgs
      let i := a.2.2.1
      let idx := a.2.2.2.1
      (s.instExists i = true) ∧ (i < s.insts.length) ∧ ((s.inst i).named a.1 s.dev.fwarg1.toNat = some l) ∧ ∃ x,
      (a.2.1 = 1) ∧ (a.2.2.2.2.1 = 0) ∧ (l.abandoned = false ∨ l.complete = true) ∧
      (l.saved.find? (fun x => x.blk.index == idx && x.state == 3) = some x)) ∧
    (∃ (s : State) (l : Launch), (s.commanded 8 [2]) ∧ (s.dev.rst = false) ∧
      let a := s.dev.blockArgs
      let i := a.2.2.1
      let idx := a.2.2.2.1
      (s.instExists i = true) ∧ (i < s.insts.length) ∧ ((s.inst i).named a.1 s.dev.fwarg1.toNat = some l) ∧
      (a.2.1 = 2) ∧ ((s.runningBlock i l idx).isSome = true ∨ (l.saved.any fun x => x.blk.index == idx) = true) ∧
      ((s.revive i l).abandonPinned l = none)) ∧
    (∃ (s : State) (l : Launch), (s.commanded 9 [2]) ∧ (s.dev.rst = false) ∧
      let q := s.dev.fwarg0.toNat % 64
      let i := s.dev.fwarg0.toNat / 256 % 256
      (s.instExists i = true) ∧ (i < s.insts.length) ∧
      ((s.inst i).completed.find? (fun l => l.queue == q && l.index == s.dev.fwarg1.toNat && !l.later) = some l) ∧
      (l.rcd.replays = true) ∧ (s.replayPinned i l = none)) :=
  ⟨⟨State.reset, 0xFFF, { store := true }, by decide +kernel, by decide +kernel⟩,
    ⟨State.reset, 0xFFE, {}, by decide +kernel, by decide +kernel⟩,
    ⟨atLevel 1 State.reset, 0xFFF, {}, by decide +kernel, by decide +kernel⟩,
    ⟨commanding 4 0 0 (atLevel 1 State.reset), (by unfold State.commanded; decide +kernel), by decide +kernel⟩,
    ⟨commanding 3 2 0 (atLevel 2 occupied), (by unfold State.commanded; decide +kernel), by decide +kernel,
      by decide +kernel⟩,
    ⟨commanding 3 2 0 (atLevel 2 State.reset), (by unfold State.commanded; decide +kernel), by decide +kernel,
      by decide +kernel, by decide +kernel⟩,
    ⟨commanding 3 1 0 (atLevel 2 State.reset), (by unfold State.commanded; decide +kernel), by decide +kernel,
      by decide +kernel, by decide +kernel⟩,
    ⟨commanding 1 0 0 (atLevel 2 State.reset), (by unfold State.commanded; decide +kernel)⟩,
    ⟨commanding 2 0x1000 400 (atLevel 1 State.reset), (by unfold State.commanded; decide +kernel), by decide +kernel⟩,
    ⟨patching [0x1100], (by unfold State.commanded; decide +kernel), by decide +kernel, by decide +kernel, rfl,
      patch_version _, rfl, Nat.le_trans (Nat.le_of_eq (show _ = 0 from rfl)) (by decide), rfl, by decide +kernel⟩,
    ⟨patching [], (by unfold State.commanded; decide +kernel), by decide +kernel, by decide +kernel, rfl, patch_version _,
      rfl, Nat.le_trans (Nat.le_of_eq (show _ = 0 from rfl)) (by decide), rfl, by decide +kernel⟩,
    ⟨commanding 5 0x7F7F7F7F 0 (atLevel 1 State.reset), 127, 127, 127, 127, (by unfold State.commanded; decide +kernel),
      by decide +kernel, by decide +kernel, by decide +kernel, (by decide +kernel), by decide +kernel, by decide +kernel⟩,
    ⟨commanding 5 0x03800101 0 (atLevel 2 State.reset), 1, 1, 128, 3, (by unfold State.commanded; decide +kernel),
      by decide +kernel, by decide +kernel, by decide +kernel, (by decide +kernel), by decide +kernel, by decide +kernel⟩,
    ⟨commanding 6 1 0 (atLevel 2 occupied), (by unfold State.commanded; decide +kernel), by decide +kernel,
      by decide +kernel, by decide +kernel⟩,
    ⟨commanding 7 3 0x40000 (atLevel 1 State.reset), (by unfold State.commanded; decide +kernel), by decide +kernel,
      by decide +kernel, by decide +kernel, (by decide +kernel), by decide +kernel⟩,
    ⟨commanding 7 0 8 (atLevel 2 occupied), (by unfold State.commanded; decide +kernel), by decide +kernel,
      by decide +kernel, { (commanding 7 0 8 (atLevel 2 occupied)).inst 0 with trapbase := 8 }, by decide +kernel,
      by decide +kernel⟩,
    ⟨commanding 8 0 0 (atLevel 2 occupied), launch0 occupied, (by unfold State.commanded; decide +kernel),
      by decide +kernel, by decide +kernel, by decide +kernel, (by decide +kernel), 0, block0 occupied, by decide +kernel,
      by decide +kernel, by decide +kernel⟩,
    ⟨commanding 8 64 0 (atLevel 2 savedBlock), launch0 savedBlock, (by unfold State.commanded; decide +kernel),
      by decide +kernel, by decide +kernel, by decide +kernel, (by decide +kernel), halted, by decide +kernel,
      by decide +kernel, by decide +kernel, (by decide +kernel)⟩,
    ⟨commanding 8 128 0 (atLevel 2 savedBlock), launch0 savedBlock, (by unfold State.commanded; decide +kernel),
      by decide +kernel, by decide +kernel, by decide +kernel, (by decide +kernel), by decide +kernel, by decide +kernel,
      by decide +kernel⟩,
    ⟨commanding 9 0 0 (atLevel 2 finished), replayed, (by unfold State.commanded; decide +kernel), by decide +kernel,
      by decide +kernel, by decide +kernel, (by decide +kernel), by decide +kernel, by decide +kernel⟩⟩

/-- States and operands that meet the hypotheses of every clause of `Obligations.QueueEvents`. -/
theorem witness_QueueEvents :
    (∃ (s : State) (i q : Nat), (s.hasQueue i q) ∧
      let k := s.queue i q
      ∃ (x : Word), (k.en = false) ∧ (x.getLsbD 15 = true) ∧ (k.stop = false) ∧
      let k1 := { k with logs := x.toNat % 32 }
      (k1.valid = true)) ∧
    (∃ (s : State) (i q : Nat), (s.hasQueue i q) ∧
      let k := s.queue i q
      ∃ (x : Word), (k.en = false) ∧ (x.getLsbD 15 = true) ∧ (k.stop = false) ∧
      let k1 := { k with logs := x.toNat % 32 }
      (k1.valid = false)) ∧
    (∃ (s : State) (i q : Nat), (s.hasQueue i q) ∧
      let k := s.queue i q
      ∃ (x : Word), (k.en = true)) ∧
    (∃ (s : State) (i q : Nat), (s.hasQueue i q) ∧
      let k := s.queue i q
      (k.stop = true) ∧ (k.copyFault = false)) ∧
    (∃ (s : State) (i q : Nat), (s.hasQueue i q) ∧
      let k := s.queue i q
      ∃ e n seq, (k.wants = true) ∧ (k.owed = false) ∧ (k.copyFault = false) ∧
      (e = Instr.seqRead i q ∧ k.reread = 0 ∨ e = Instr.seqReread i q ∧ k.reread ≠ 0 ∧ k.reread ≤ s.cyc) ∧
      (n = k.consumed % k.size) ∧ ((k.qseq + .ofNat 64 (32 * n)).toNat % 32 = 0) ∧
      (s.devRead i (k.qseq + .ofNat 64 (32 * n)) 8 = .ok seq) ∧ (leNat seq ≠ k.consumed)) ∧
    (∃ (s : State) (i q : Nat), (s.hasQueue i q) ∧
      let k := s.queue i q
      ∃ e n seq, (k.wants = true) ∧ (k.owed = false) ∧ (k.copyFault = false) ∧
      (e = Instr.seqRead i q ∧ k.reread = 0 ∨ e = Instr.seqReread i q ∧ k.reread ≠ 0 ∧ k.reread ≤ s.cyc) ∧
      (n = k.consumed % k.size) ∧ ((k.qseq + .ofNat 64 (32 * n)).toNat % 32 = 0) ∧
      (s.devRead i (k.qseq + .ofNat 64 (32 * n)) 8 = .ok seq) ∧ ∃ hdr rec, (leNat seq = k.consumed) ∧
      ((k.qbase + .ofNat 64 (128 * n)).toNat % 128 = 0) ∧ (s.devRead i (k.qseq + .ofNat 64 (32 * n)) 32 = .ok hdr) ∧
      (s.devRead i (k.qbase + .ofNat 64 (128 * n)) 128 = .ok rec)) ∧
    (∃ (s : State) (i q : Nat), (s.hasQueue i q) ∧
      let k := s.queue i q
      ∃ hdr rec bs, (k.head = some (hdr, rec)) ∧ (k.satisfied = false) ∧
      let va := BitVec.ofNat 64 (leNat ((hdr.drop 8).take 8))
      (va.toNat % 8 = 0) ∧ (s.devRead i va 8 = .ok bs)) ∧
    (∃ (s : State) (r : BitVec 8), (s.dev.go = true) ∧
      (s.dev.cmdDone = some r ∨ s.dev.cmdDone = none ∧ r = 1 ∧ 9 < s.dev.cmd.toNat)) ∧
    (∃ (s : State) (x : Word), (s.dev.go = false)) ∧
    (∃ (s : State) (x : Word) (off : Nat), (s.dev.go = true) ∧ (off ∈ [0x08, 0x10, 0x18])) :=
  ⟨⟨queueAt id, 0, 2, (by unfold State.hasQueue; decide +kernel), 0x8103, by decide +kernel, by decide +kernel,
      by decide +kernel, (by decide +kernel)⟩,
    ⟨queueAt id, 0, 2, (by unfold State.hasQueue; decide +kernel), 0x801F, by decide +kernel, by decide +kernel,
      by decide +kernel, (by decide +kernel)⟩,
    ⟨queueAt fun k => { k with en := true }, 0, 2, (by unfold State.hasQueue; decide +kernel), 0x801F, by decide +kernel⟩,
    ⟨queueAt fun k => { k with stop := true, code := 5 }, 0, 2, (by unfold State.hasQueue; decide +kernel),
      by decide +kernel, by decide +kernel⟩,
    ⟨queueAt fun k => { k with en := true, doorbell := 2, consumed := 1 }, 0, 2,
      (by unfold State.hasQueue; decide +kernel), .seqRead 0 2, 1, leBytes 8 0, by decide +kernel, by decide +kernel,
      by decide +kernel, Or.inl ⟨rfl, by decide +kernel⟩, by decide +kernel, by decide +kernel, eqOk (by decide +kernel),
      by decide +kernel⟩,
    ⟨reading, 0, 2, (by unfold State.hasQueue; decide +kernel), .seqReread 0 2, 0, leBytes 8 0, by decide +kernel,
      by decide +kernel, by decide +kernel, Or.inr ⟨rfl, by decide +kernel⟩, by decide +kernel, by decide +kernel,
      eqOk (by decide +kernel), headBytes 0, recBytes 0, by decide +kernel, by decide +kernel, eqOk (by decide +kernel),
      eqOk (by decide +kernel)⟩,
    ⟨queueAt fun k => { k with en := true, head := some (headBytes 0, recBytes 0) }, 0, 2,
      (by unfold State.hasQueue; decide +kernel), headBytes 0, recBytes 0, leBytes 8 0, by decide +kernel,
      by decide +kernel, by decide +kernel, eqOk (by decide +kernel)⟩,
    ⟨commanding 33 0 0 State.reset, 1, by decide +kernel, by decide +kernel⟩,
    ⟨State.reset, 0x1FF, by decide +kernel⟩,
    ⟨commanding 1 0 0 State.reset, 0x1FF, 0x18, by decide +kernel, by decide +kernel⟩⟩

/-- States and operands that meet the hypotheses of every clause of `Obligations.LaunchEvents`. -/
theorem witness_LaunchEvents :
    (∃ (s : State) (i q : Nat) (hdr bs : List Byte), (s.hasQueue i 0) ∧ (s.hasQueue i q) ∧
      ((s.inst i).nextStart ≤ s.cyc) ∧ (s.dev.level ≠ 0) ∧
      (((s.inst i).launches.filter fun l => !l.abandoned).length < 32) ∧ ((s.inst i).chooseQueue = some q) ∧
      ((s.queue i q).head = some (hdr, bs)) ∧
      let v := s.validate i (readRecord bs)
      (v.1 = 0)) ∧
    (∃ (s : State) (i q : Nat) (hdr bs : List Byte), (s.hasQueue i 0) ∧ (s.hasQueue i q) ∧
      ((s.inst i).nextStart ≤ s.cyc) ∧ (s.dev.level ≠ 0) ∧
      (((s.inst i).launches.filter fun l => !l.abandoned).length < 32) ∧ ((s.inst i).chooseQueue = some q) ∧
      ((s.queue i q).head = some (hdr, bs)) ∧
      let v := s.validate i (readRecord bs)
      (v.1 ≠ 0) ∧ ((v.1 = 8 → s.stagesPinned i (readRecord bs) = none))) ∧
    (∃ (s : State) (i g n : Nat) (l : Launch) (words : List Word) (seen : List (Launch × Pending)) (cs : List Nat),
      (s.hasQueue i 0) ∧ ((s.inst i).nextPlace ≤ s.cyc) ∧ (s.dev.level ≠ 0) ∧ (s.dev.rst = false) ∧
      (s.firstPlaceable i [] (s.pendingAll i) = (seen, some (l, .fresh n g words, cs))) ∧
      ((∀ c ∈ cs, c < s.cores.length ∧ s.unpinned c)) ∧ (s.launch i l.order = some l)) ∧
    (∃ (s : State) (i : Nat) (seen : List (Launch × Pending)) (x : Launch × Pending), (s.hasQueue i 0) ∧
      ((s.inst i).nextPlace ≤ s.cyc) ∧ (s.firstPlaceable i [] (s.pendingAll i) = (seen, none)) ∧
      (seen.getLast? = some x) ∧ (64 ≤ x.2.passed x.1)) ∧
    (∃ (s : State) (i n t0 c : Nat) (b : Block), (s.hasQueue i 0) ∧
      (((s.inst i).launches.findSome? fun l => (s.stageBreak i l).map fun x => (l.order, x)) = some (n, t0, c)) ∧
      (s.blk c = some b)) ∧
    (∃ (s : State) (c : Nat), (c < Config.numCores) ∧ (c < s.cores.length) ∧ ((s.core c).clearing = true) ∧
      ((s.core c).clearDue ≤ s.cyc)) ∧
    (∃ (s : State) (i n cell : Nat) (l : Launch), (i < 4) ∧ (cell < Config.numCells) ∧ (s.launch i n = some l) ∧
      let d := l.dispenser cell
      (d.hi ≤ d.lo)) ∧
    (∃ (s : State) (c u : Nat) (b : Block) (p : ProgUnit), (c < Config.numCores) ∧ (s.blk c = some b) ∧
      (s.unit c u = some p) ∧ (p.kind = .context)) ∧
    (∃ (s : State) (c u : Nat) (b : Block) (p : ProgUnit), (c < Config.numCores) ∧ (s.blk c = some b) ∧
      (s.unit c u = some p) ∧ ∃ (l : Launch) (r : State × Word) (rest : List (Nat × Nat)) (k : Nat),
      (p.kind ≠ .context) ∧ (s.launch b.inst b.launch = some l) ∧ (s.tileQueue b (cellOf c) = (c, u) :: rest) ∧
      (s.takeTile b.inst b.launch (cellOf c) = some r) ∧ (p.tileSplit = some k)) :=
  ⟨⟨headed 0x014C5034, 0, 2, headBytes 0, recBytes 0x014C5034, (by unfold State.hasQueue; decide +kernel),
      (by unfold State.hasQueue; decide +kernel), by decide +kernel, by decide +kernel, by decide +kernel,
      (by decide +kernel), by decide +kernel, by decide +kernel⟩,
    ⟨headed 0, 0, 2, headBytes 0, recBytes 0, (by unfold State.hasQueue; decide +kernel),
      (by unfold State.hasQueue; decide +kernel), by decide +kernel, by decide +kernel, by decide +kernel,
      (by decide +kernel), by decide +kernel, by decide +kernel, by decide +kernel⟩,
    ⟨startedAt, 0, 0, 0, launch0 startedAt, [], placing.1, [0], (by unfold State.hasQueue; decide +kernel),
      by decide +kernel, by decide +kernel, by decide +kernel, (by decide +kernel),
      placesOk (by decide +kernel) (by decide +kernel), by decide +kernel⟩,
    ⟨crowded, 0, crowd, crowd[0]?.getD (launch0 crowded, .fresh 0 0 []), (by unfold State.hasQueue; decide +kernel),
      by decide +kernel, by decide +kernel, by decide +kernel, (by decide +kernel)⟩,
    ⟨deadlocked, 0, 0, 1, 0, block0 deadlocked, (by unfold State.hasQueue; decide +kernel), by decide +kernel,
      by decide +kernel⟩,
    ⟨clearingCore, 0, by decide +kernel, by decide +kernel, by decide +kernel, (by decide +kernel)⟩,
    ⟨tilesAsked, 0, 0, 23, launch0 tilesAsked, by decide +kernel, by decide +kernel, by decide +kernel, (by decide +kernel)⟩,
    ⟨context16, 0, 16, block0 context16, unit16 context16, by decide +kernel, by decide +kernel, by decide +kernel,
      (by decide +kernel)⟩,
    ⟨tilesWaiting, 0, 0, block0 tilesWaiting, unit0 tilesWaiting, by decide +kernel, by decide +kernel, by decide +kernel,
      launch0 tilesWaiting, (tilesWaiting.takeTile 0 0 0).getD (tilesWaiting, 0), [], 0, by decide +kernel,
      by decide +kernel, by decide +kernel, (by decide +kernel), by decide +kernel⟩⟩

/-- States and operands that meet the hypotheses of every clause of `Obligations.SplitEvents`. -/
theorem witness_SplitEvents :
    (∃ (s : State) (c u k : Nat) (x : Split), (c < Config.numCores) ∧ (s.splitOf c u k = some x) ∧
      (s.starved c u k = true)) ∧
    (∃ (s : State) (c u n : Nat) (b : Block) (p : ProgUnit) (e : DivEntry), (c < Config.numCores) ∧
      (s.blk c = some b) ∧ (s.unit c u = some p) ∧ (p.div[n]? = some e) ∧ (p.kind = .warp) ∧
      (s.mayStart c u b p e = true) ∧ (b.lets p = true)) ∧
    (∃ (s : State) (c u n : Nat) (b : Block) (p : ProgUnit) (e : DivEntry), (c < Config.numCores) ∧
      (s.blk c = some b) ∧ (s.unit c u = some p) ∧ (p.div[n]? = some e) ∧ (p.kind = .warp) ∧ ∃ d, (p.trap = none) ∧
      (e.owed ≠ 0) ∧ (e.deadline = some d) ∧ (d ≤ s.cyc) ∧ (¬(e.started = true ∧ p.lateStore none = true)) ∧
      (p.joinedIn e.arrived < p.splits.length)) ∧
    (∃ (s : State) (c u k : Nat) (p : ProgUnit), (c < Config.numCores) ∧ (s.unit c u = some p) ∧
      ((s.splitOf c u k).isSome = true) ∧ (p.trap = none) ∧
      (p.kind = .warp ∨ p.kind = .context ∧ (∀ e ∈ p.q.loads, e.ans ≠ .pending)) ∧ (1024 ≤ p.since) ∧
      (p.pending = []) ∧ (p.lateStore none = false)) ∧
    (∃ (s : State) (c u n : Nat) (p : ProgUnit) (e : EventSlot), (c < Config.numCores) ∧ (s.unit c u = some p) ∧
      (n < 8) ∧ (p.slots[n]? = some (some e)) ∧ (e.kind = .timer) ∧ (e.fired = false) ∧ (e.num.toNat ≤ s.cyc)) ∧
    (∃ (s : State) (c u k : Nat) (p : ProgUnit) (x : Split) (w : Wait) (i : Instr), (c < Config.numCores) ∧
      (s.unit c u = some p) ∧ (p.splits[k]? = some x) ∧ (p.trap = none) ∧ (w ∈ x.waits) ∧
      (i = .waitanyWake c u k ∧ w.kind = .event ∧ (p.chosen w.n).isSome = true ∨
        i = .sleepWake c u k ∧ w.kind = .sleep ∧ w.a ≤ s.cyc ∨ i = .pinRetry c u k ∧ w.kind = .pinned ∧ w.since + 256 ≤ s.cyc)) ∧
    (∃ (s : State) (c u k n : Nat) (p : ProgUnit) (x : Split) (i : Instr), (c < Config.numCores) ∧
      (s.unit c u = some p) ∧ (p.splits[k]? = some x) ∧
      (i = .icinvDevComplete c u k ∧ n = 1 ∨ i = .tlbinvComplete c u k ∧ n = 0)) ∧
    (∃ (s : State) (c u m n : Nat) (p : ProgUnit) (i : Instr), (c < Config.numCores) ∧ (s.unit c u = some p) ∧
      (i = .bankPromote c u ∧ m = 0 ∧ n = 16 ∨ i = .l1PortPromote c u ∧ m = 1 ∧ n = 16 ∨
        i = .sliceAgePromote c u ∧ m = 2 ∧ n = 128 ∨ i = .hbmAgePromote c u ∧ m = 3 ∧ n = 256) ∧
      ((∃ x ∈ p.splits, ∃ w ∈ x.waits, w.kind.requests = true ∧ w.since + n ≤ s.cyc))) :=
  ⟨⟨later 1024 warp3, 0, 0, 0, split0 (later 1024 warp3), by decide +kernel, by decide +kernel, by decide +kernel⟩,
    ⟨allJoined, 0, 0, 0, block0 allJoined, unit0 allJoined, join7, by decide +kernel, by decide +kernel, by decide +kernel,
      (by decide +kernel), by decide +kernel, by decide +kernel, by decide +kernel⟩,
    ⟨overdue, 0, 0, 0, block0 overdue, unit0 overdue, deadEntry, by decide +kernel, by decide +kernel, by decide +kernel,
      (by decide +kernel), by decide +kernel, 50, by decide +kernel, by decide +kernel, by decide +kernel, (by decide +kernel),
      by decide +kernel, by decide +kernel⟩,
    ⟨stateOf .warp 3 fun p => { p with since := 1024 }, 0, 0, 0, unit0 (stateOf .warp 3 fun p => { p with since := 1024 }),
      by decide +kernel, by decide +kernel, by decide +kernel, (by decide +kernel), by decide +kernel, by decide +kernel,
      by decide +kernel, (by decide +kernel)⟩,
    ⟨later 500 (stateOf .warp 3 (slot1 500)), 0, 0, 1, unit0 (stateOf .warp 3 (slot1 500)),
      { kind := .timer, num := 500, handler := 0x80000040 }, by decide +kernel, by decide +kernel, by decide +kernel,
      (by decide +kernel), by decide +kernel, by decide +kernel, by decide +kernel⟩,
    ⟨waitsFor { kind := .sleep, a := 2000 }, 0, 0, 0, unit0 (waitsFor { kind := .sleep, a := 2000 }),
      split0 (waitsFor { kind := .sleep, a := 2000 }), { kind := .sleep, a := 2000 }, .sleepWake 0 0 0, by decide +kernel,
      by decide +kernel, by decide +kernel, (by decide +kernel), by decide +kernel, Or.inr (Or.inl ⟨rfl, by decide +kernel⟩)⟩,
    ⟨waitsFor { kind := .invalidate, n := 1 }, 0, 0, 0, 1, unit0 (waitsFor { kind := .invalidate, n := 1 }),
      split0 (waitsFor { kind := .invalidate, n := 1 }), .icinvDevComplete 0 0 0, by decide +kernel, by decide +kernel,
      by decide +kernel, Or.inl ⟨rfl, rfl⟩⟩,
    ⟨waitsFor { kind := .slice, since := 1984 }, 0, 0, 0, 16, unit0 (waitsFor { kind := .slice, since := 1984 }),
      .bankPromote 0 0, by decide +kernel, by decide +kernel, Or.inl ⟨rfl, rfl, rfl⟩, by decide +kernel⟩⟩

/-- States and operands that meet the hypotheses of every clause of `Obligations.MemoriesStayCanonical`. -/
theorem witness_MemoriesStayCanonical :
      ∃ s t : State, (s.MemoriesCanonical) ∧ (step s = .next t) :=
  ⟨placedWord, _, (by unfold State.MemoriesCanonical; decide +kernel), nextIs (by decide +kernel)⟩

/-- States and operands that meet the hypotheses of every clause of `Obligations.SplitsStayLive`. -/
theorem witness_SplitsStayLive :
      ∃ s t : State, (s.SplitsLive) ∧ (step s = .next t) :=
  ⟨placedWord, _, splitsLive (by decide +kernel), nextIs (by decide +kernel)⟩

/-- States and operands that meet the hypotheses of every clause of `Obligations.DecodeEncode`. -/
theorem witness_DecodeEncode :
      ∀ m : Mode, ∃ (e : DecEnv) (i : Instr), e.mode = m ∧ i.fits m = true ∧ i.allowed m = true ∧ i.WellFormed e :=
  fun m => match m with
    | .warp => ⟨{ mode := .warp }, .shfl { d := 63, a := 63, x := 127, sub := 7 },
    by unfold Instr.WellFormed; decide +kernel⟩
    | .vliw => ⟨{ mode := .vliw },
    .xmov { site := .syl 31 true, d := 62, a := 61 },
    by unfold Instr.WellFormed; decide +kernel⟩
    | .front => ⟨{ mode := .front },
    .movi { d := 63, imm := 0xFFFFFFFF, t := .n32 },
    by unfold Instr.WellFormed; decide +kernel⟩
    | .priv => ⟨{ mode := .priv }, .swrite { a := 63, x := 8 },
    by unfold Instr.WellFormed; decide +kernel⟩

/-- States and operands that meet the hypotheses of every clause of `Obligations.StepRunsDecoded`. -/
theorem witness_StepRunsDecoded :
    (∃ (s t : State) (c u k : Nat) (slow : Bool) (rest : List Turn) (p : ProgUnit), (s.due = none) ∧
      (s.agenda = .issue c u k slow :: rest) ∧
      let turn : Turn := .issue c u k slow
      let s1 : State := { s with agenda := rest, cur := { core := c, unit := u, split := k }, slow := slow, bundle := none }
      (s1.mayIssue c u k = true) ∧ (s1.unit c u = some p) ∧ ((p.kind = .warp ∨ p.kind = .context → p.since < 1024)) ∧
      (s1.asyncDue c p k = none) ∧ ∃ (w : Word) (i : Instr), (p.kind ≠ .context) ∧
      (s1.fetchWord c (p.split k).pc = .ok (t, w)) ∧ (decode p.kind.mode w = .ok i) ∧ ∃ r, (exec i t = .next r) ∧
      ((actor s (some turn)).bind (r.copiesPinned s) = none)) ∧
    (∃ (s t : State) (c u k : Nat) (slow : Bool) (rest : List Turn) (p : ProgUnit), (s.due = none) ∧
      (s.agenda = .issue c u k slow :: rest) ∧
      let s1 : State := { s with agenda := rest, cur := { core := c, unit := u, split := k }, slow := slow, bundle := none }
      (s1.mayIssue c u k = true) ∧ (s1.unit c u = some p) ∧ ((p.kind = .warp ∨ p.kind = .context → p.since < 1024)) ∧
      (s1.asyncDue c p k = none) ∧ ∃ ws : List Word, (p.kind = .context) ∧
      ((s1.modBlk c fun b => { b with ctxNow := u - 16 }).fetchBundle c (p.split k).pc (p.k + 6) = .ok (t, some ws)) ∧
      (badGroup p.k (syls 0 ws) = false) ∧ (firstBad p.env (inSlots (syls 0 ws)) = none)) :=
  ⟨⟨placedWord, _, 0, 0, 0, false, [], unit0 placedWord, by decide +kernel, by decide +kernel, by decide +kernel,
      (by decide +kernel), by decide +kernel, by decide +kernel, 0x08000007F8006040,
      .movi { d := 3, imm := 0xFF, t := .i32 }, by decide +kernel, okPair (by decide +kernel), rfl,
      nextState (exec (.movi { d := 3, imm := 0xFF, t := .i32 }) _), nextIs (by decide +kernel), by decide +kernel⟩,
    ⟨placedBundle, _, 0, 16, 0, false, [], unit16 placedBundle, by decide +kernel, by decide +kernel, by decide +kernel,
      (by decide +kernel), by decide +kernel, by decide +kernel, bundleWords, by decide +kernel, okPair (by decide +kernel),
      by decide +kernel, by decide +kernel⟩⟩

/-- States and operands that meet the hypotheses of every clause of `Obligations.RequestEvents`. -/
theorem witness_RequestEvents :
    (∃ (s : State) (c u n : Nat) (b : Block) (p : ProgUnit) (e : LoadEntry), (c < Config.numCores) ∧
      (s.blk c = some b) ∧ (s.unit c u = some p) ∧ (p.q.base ≤ n) ∧ (p.q.loads[n - p.q.base]? = some e) ∧
      (e.ans = .pending) ∧ ((∀ x ∈ p.q.loads.take (n - p.q.base), x.ans ≠ .pending)) ∧
      (s.loadBlocked c b p.q e = false)) ∧
    (∃ (s : State) (c u k : Nat) (p : ProgUnit) (x : Split) (w : Wait) (r : SliceReq) (it : SliceItem) (rest : List SliceItem) (i : Instr),
      (c < Config.numCores) ∧ (s.unit c u = some p) ∧ (p.splits[k]? = some x) ∧ (x.waits = [w]) ∧ (w.kind = .slice) ∧
      (w.done = false) ∧ (w.req = some r) ∧ (r.items = it :: rest) ∧ (s.pinHolder c it.pa = none) ∧
      (i = .sliceAtomic c u k) ∧ (r.op < 48) ∧ ((w.res = [] → ∀ j ∈ r.items, s.poisonedIn j.pa r.t.bytes = false))) ∧
    (∃ (s : State) (c u k : Nat) (p : ProgUnit) (x : Split) (w : Wait) (r : SliceReq) (it : SliceItem) (rest : List SliceItem) (i : Instr),
      (c < Config.numCores) ∧ (s.unit c u = some p) ∧ (p.splits[k]? = some x) ∧ (x.waits = [w]) ∧ (w.kind = .slice) ∧
      (w.done = false) ∧ (w.req = some r) ∧ (r.items = it :: rest) ∧ (s.pinHolder c it.pa = none) ∧
      (i = .sliceAmx c u k) ∧ (48 ≤ r.op) ∧ ((w.res = [] → ∀ j ∈ r.items, s.recordErr (r.op == 49) j.pa = none))) ∧
    (∃ (s : State) (c u k pa : Nat) (b : Block) (x : Split) (w : Wait), (c < Config.numCores) ∧ (s.blk c = some b) ∧
      (s.splitOf c u k = some x) ∧ (x.waits = [w]) ∧ (w.done = false) ∧ ((s.core c).travel = []) ∧
      (s.pinHolder c pa = none) ∧ (s.poisonedIn pa 8 = false) ∧
      let g := s.homeWord pa
      ∃ va, (w.kind = .guard) ∧ (s.isContext c u = false) ∧ (s.bundle = none) ∧ (pa % 8 = 0) ∧
      (w.res.head? = some va) ∧ (s.translate c (if w.n = 1 then .load else .store) va = .ok pa) ∧ (w.n ≠ 1) ∧
      (guardHeld g = false)) ∧
    (∃ (s : State) (c u k pa : Nat) (b : Block) (x : Split) (w : Wait), (c < Config.numCores) ∧ (s.blk c = some b) ∧
      (s.splitOf c u k = some x) ∧ (x.waits = [w]) ∧ (w.done = false) ∧ ((s.core c).travel = []) ∧
      (s.pinHolder c pa = none) ∧ (s.poisonedIn pa 8 = false) ∧
      let g := s.homeWord pa
      ∃ va, (w.kind = .guard) ∧ (s.isContext c u = false) ∧ (s.bundle = none) ∧ (pa % 8 = 0) ∧
      (w.res.head? = some va) ∧ (s.translate c (if w.n = 1 then .load else .store) va = .ok pa) ∧ (w.n = 1) ∧
      (w.b ≤ guardCount g)) ∧
    (∃ (s : State) (c u k pa : Nat) (b : Block) (x : Split) (w : Wait), (c < Config.numCores) ∧ (s.blk c = some b) ∧
      (s.splitOf c u k = some x) ∧ (x.waits = [w]) ∧ (w.done = false) ∧ ((s.core c).travel = []) ∧
      (s.pinHolder c pa = none) ∧ (s.poisonedIn pa 8 = false) ∧ (w.kind = .release) ∧ (w.n = 1) ∧ (w.b = pa)) ∧
    (∃ (s : State) (c u k pa : Nat) (b : Block) (x : Split) (w : Wait), (c < Config.numCores) ∧ (s.blk c = some b) ∧
      (s.splitOf c u k = some x) ∧ (x.waits = [w]) ∧ (w.done = false) ∧ ((s.core c).travel = []) ∧
      (s.pinHolder c pa = none) ∧ (s.poisonedIn pa 8 = false) ∧ (w.kind = .signal) ∧ (s.swaitHolds w = true)) ∧
    (∃ (s : State) (c n d : Nat) (p : Pin) (q : ProgUnit), (c < Config.numCores) ∧ ((s.core c).pins[n]? = some p) ∧
      (p.refusedAt = some d) ∧ (d + 65536 ≤ s.cyc) ∧ (s.pinStuck c p = false) ∧ (s.unit c p.unit = some q)) ∧
    (∃ (s : State) (c n : Nat) (b : Block) (m : Mail), (c < Config.numCores) ∧ (m.dest < s.cores.length) ∧
      (s.blk c = some b) ∧ ((s.core c).sent[n]? = some m) ∧ (s.inGang b m.dest = true) ∧
      (m.box < (s.core m.dest).mail.length) ∧ (s.mailFull m.dest m.box = false)) :=
  ⟨⟨queueing { loads := [pendingLoad], base := 3 }, 0, 16, 3, block0 (queueing { loads := [pendingLoad], base := 3 }),
      unit16 (queueing { loads := [pendingLoad], base := 3 }), pendingLoad, by decide +kernel, by decide +kernel,
      by decide +kernel, (by decide +kernel), by decide +kernel, by decide +kernel, by decide +kernel, (by decide +kernel)⟩,
    ⟨waitsFor { kind := .slice, req := some sliceReq }, 0, 0, 0, unit0 (waitsFor { kind := .slice, req := some sliceReq }),
      split0 (waitsFor { kind := .slice, req := some sliceReq }), { kind := .slice, req := some sliceReq }, sliceReq,
      { lane := 0, pa := 0x20000, b := 9 }, [{ lane := 1, pa := 0x20000, b := 3 }], .sliceAtomic 0 0 0, by decide +kernel,
      by decide +kernel, by decide +kernel, (by decide +kernel), by decide +kernel, by decide +kernel, by decide +kernel,
      (by decide +kernel), by decide +kernel, rfl, by decide +kernel, by decide +kernel⟩,
    ⟨inMem 0x11021 [1] (waitsFor { kind := .slice, req := some amxReq }), 0, 0, 0,
      unit0 (inMem 0x11021 [1] (waitsFor { kind := .slice, req := some amxReq })),
      split0 (inMem 0x11021 [1] (waitsFor { kind := .slice, req := some amxReq })), { kind := .slice, req := some amxReq },
      amxReq, { lane := 0, pa := 0x11000, parts := List.replicate 32 0x3F800000 }, [], .sliceAmx 0 0 0, by decide +kernel,
      by decide +kernel, by decide +kernel, (by decide +kernel), by decide +kernel, by decide +kernel, by decide +kernel,
      (by decide +kernel), by decide +kernel, rfl, by decide +kernel, by decide +kernel⟩,
    ⟨words5 (waitsFor { kind := .guard, res := [0x20000] }), 0, 0, 0, 0x20000,
      block0 (words5 (waitsFor { kind := .guard, res := [0x20000] })),
      split0 (words5 (waitsFor { kind := .guard, res := [0x20000] })), { kind := .guard, res := [0x20000] },
      by decide +kernel, by decide +kernel, by decide +kernel, (by decide +kernel), by decide +kernel, by decide +kernel,
      by decide +kernel, (by decide +kernel), 0x20000, by decide +kernel, by decide +kernel, by decide +kernel,
      (by decide +kernel), by decide +kernel, eqOk (by decide +kernel), by decide +kernel, by decide +kernel⟩,
    ⟨words5 (waitsFor { kind := .guard, n := 1, b := 5, res := [0x20000] }), 0, 0, 0, 0x20000,
      block0 (words5 (waitsFor { kind := .guard, n := 1, b := 5, res := [0x20000] })),
      split0 (words5 (waitsFor { kind := .guard, n := 1, b := 5, res := [0x20000] })),
      { kind := .guard, n := 1, b := 5, res := [0x20000] }, by decide +kernel, by decide +kernel, by decide +kernel,
      (by decide +kernel), by decide +kernel, by decide +kernel, by decide +kernel, (by decide +kernel), 0x20000,
      by decide +kernel, by decide +kernel, by decide +kernel, (by decide +kernel), by decide +kernel,
      eqOk (by decide +kernel), by decide +kernel, by decide +kernel⟩,
    ⟨words5 (waitsFor { kind := .release, n := 1, b := 0x20008 }), 0, 0, 0, 0x20008,
      block0 (words5 (waitsFor { kind := .release, n := 1, b := 0x20008 })),
      split0 (words5 (waitsFor { kind := .release, n := 1, b := 0x20008 })), { kind := .release, n := 1, b := 0x20008 },
      by decide +kernel, by decide +kernel, by decide +kernel, (by decide +kernel), by decide +kernel, by decide +kernel,
      by decide +kernel, (by decide +kernel), by decide +kernel, by decide +kernel, by decide +kernel⟩,
    ⟨words5 (waitsFor { kind := .signal, a := 0x20000, b := 5 }), 0, 0, 0, 0x20000,
      block0 (words5 (waitsFor { kind := .signal, a := 0x20000, b := 5 })),
      split0 (words5 (waitsFor { kind := .signal, a := 0x20000, b := 5 })), { kind := .signal, a := 0x20000, b := 5 },
      by decide +kernel, by decide +kernel, by decide +kernel, (by decide +kernel), by decide +kernel, by decide +kernel,
      by decide +kernel, (by decide +kernel), by decide +kernel, by decide +kernel⟩,
    ⟨later 65541 (inCore (fun k => { k with pins := [pin5] }) warp3), 0, 0, 5, pin5, unit0 warp3, by decide +kernel,
      by decide +kernel, by decide +kernel, (by decide +kernel), by decide +kernel, by decide +kernel⟩,
    ⟨inCore (fun k => { k with sent := [mail63] }) (gangOf2 warp3), 0, 0, block0 warp3, mail63, by decide +kernel,
      by decide +kernel, by decide +kernel, (by decide +kernel), by decide +kernel, by decide +kernel, by decide +kernel⟩⟩

/-- States and operands that meet the hypotheses of every clause of `Obligations.MemoryEvents`. -/
theorem witness_MemoryEvents :
    (∃ (s : State) (c n : Nat) (x : Travel), (c < Config.numCores) ∧ ((s.core c).travel[n]? = some x) ∧
      (s.stuck c x = false) ∧ ((∀ o ∈ (s.core c).travel.take n, o.touches x.pa = false ∧ x.touches o.pa = false))) ∧
    (∃ (s : State) (c line : Nat) (ch : BitVec 2), (c < Config.numCores) ∧ (c < s.cores.length) ∧
      ((s.core c).fills.lookup line = some ch) ∧ (s.pinHolder c line = none)) ∧
    (∃ (s : State) (line : Nat) (victim : Option Nat), (paExists line = true)) ∧
    (∃ (s : State) (i n m own a k : Nat) (l : Launch), (s.hasQueue i 0) ∧ (s.launch i n = some l) ∧
      (l.exchange[m]? = some (own, a, k))) ∧
    (∃ (s : State) (n : Nat), (n < 768)) ∧
    (∃ (s : State) (line : Nat) (bad : List Nat) (corrected : Bool), (line < Config.deviceTop)) ∧
    (∃ (s : State) (c : Nat) (b : Block) (bad : List Nat), (c < Config.numCores) ∧ (s.blk c = some b) ∧
      (b.stop = none)) ∧
    (∃ (s : State) (c : Nat) (va : Word), (c < Config.numCores) ∧ (c < s.cores.length) ∧ ∃ e,
      (s.findPage c va = .ok e)) ∧
    (∃ (s : State) (c : Nat) (va : Word), (c < Config.numCores) ∧ (c < s.cores.length) ∧ ∃ e,
      (s.findPage c va = .error e)) ∧
    (∃ (s : State) (c line : Nat) (bad : Bool), (c < Config.numCores) ∧ (c < s.cores.length) ∧
      (paExists line = true) ∧ (s.pinHolder c line = none)) ∧
    (∃ (s : State) (pa : Nat) (bs : List Byte), (pa < Config.deviceTop) ∧ (s.pinHolder Config.numCores pa = none)) :=
  ⟨⟨inCore (fun k => { k with travel := [{ pa := 0x20010, bytes := [1, 2] }, { pa := 0x20080, bytes := [9] }] }) occupied,
      0, 1, { pa := 0x20080, bytes := [9] }, by decide +kernel, by decide +kernel, by decide +kernel, (by decide +kernel)⟩,
    ⟨inCore (fun k => { k with fills := [(0x20000, 1)] }) occupied, 0, 0x20000, 1, by decide +kernel, by decide +kernel,
      by decide +kernel, (by decide +kernel)⟩,
    ⟨State.reset, 0xBFFFFFFFFF, none, by decide +kernel⟩,
    ⟨launched (fun l => { l with exchange := [(3, 0x400000, 8)] }) (atLevel 2 occupied), 0, 0, 0, 3, 0x400000, 8,
      launch0 (launched (fun l => { l with exchange := [(3, 0x400000, 8)] }) (atLevel 2 occupied)),
      (by unfold State.hasQueue; decide +kernel), by decide +kernel, by decide +kernel⟩,
    ⟨State.reset, 767, by decide +kernel⟩,
    ⟨State.reset, 0xBFFFFFFFFF, [], false, by decide +kernel⟩,
    ⟨occupied, 0, block0 occupied, [], by decide +kernel, by decide +kernel, by decide +kernel⟩,
    ⟨warp3, 0, 0x3FFFFFFFFFF, by decide +kernel, by decide +kernel, _,
      okIs { va := 0, size := 0, pa := 0 } (by decide +kernel)⟩,
    ⟨warp3, 0, 0x3000000000000, by decide +kernel, by decide +kernel, _, errorIs (.cause .pageAbsent) (by decide +kernel)⟩,
    ⟨warp3, 0, 0x20000, true, by decide +kernel, by decide +kernel, by decide +kernel, unpinned (by decide +kernel) _⟩,
    ⟨State.reset, 0xBFFFFFFFFF, [], by decide +kernel, unpinned (by decide +kernel) _⟩⟩

/-- States and operands that meet the hypotheses of every clause of `Obligations.EngineEvents`. -/
theorem witness_EngineEvents :
    (∃ (s : State) (c : Nat) (b : Block) (k : Cmd) (e : TileEntry) (rest : List TileEntry), (c < Config.numCores) ∧
      (s.blk c = some b) ∧ (b.oldest .copy = some k) ∧ (k.handles = e :: rest) ∧ (b.liveEntry k.w.handle e = some e) ∧
      ((s.core c).travel = []) ∧ (s.resultRoom c k 0 = true) ∧ (k.w.flagAcq = false) ∧ (k.w.flagRel = false) ∧
      let m := s.copyMoves c b k e
      (m.fault = none) ∧ (m.pin = none) ∧ (m.bad = [])) ∧
    (∃ (s : State) (c : Nat) (b : Block) (k : Cmd) (e : TileEntry) (rest : List TileEntry), (c < Config.numCores) ∧
      (s.blk c = some b) ∧ (b.oldest .copy = some k) ∧ (k.handles = e :: rest) ∧ (b.liveEntry k.w.handle e = some e) ∧
      ((s.core c).travel = []) ∧ (s.resultRoom c k 0 = true) ∧ (k.w.flagAcq = false) ∧ (k.w.flagRel = false) ∧
      let m := s.copyMoves c b k e
      (m.fault = none) ∧ (m.pin = none) ∧ ∃ p, (m.bad ≠ []) ∧ (k.orphan = false) ∧ (s.unit c k.unit = some p)) ∧
    (∃ (s : State) (c : Nat) (b : Block) (k : Cmd) (xs : List Word), (c < Config.numCores) ∧ (s.blk c = some b) ∧
      ((b.cmds.filter fun k => k.engine == .coll && k.state == .waiting).getLast? = some k) ∧
      ((s.core c).travel = []) ∧ (k.w.flagAcq = false) ∧
      let d := collDesc ((k.ops[3]?).getD 0)
      (s.engElems b.inst ((k.ops[0]?).getD 0) d.t d.n = .ok xs) ∧ (1 < d.parts) ∧ (s.colls = [])) ∧
    (∃ (s : State) (die : Nat) (va : Word) (bs : List Byte) (op : BitVec 2) (x : Word), (die < Config.numDies) ∧
      let m := s.portWrites (s.instOfDie die) va bs
      (m.fault = none) ∧ (m.pin = none) ∧ (m.bad = [])) ∧
    (∃ (s : State) (c seq : Nat) (b : Block) (k : Cmd) (payload bs : List Byte), (c < Config.numCores) ∧
      (s.blk c = some b) ∧ (b.peerHead seq = some k) ∧ (s.resultRoom c k 2 = true) ∧ ((s.core c).travel = []) ∧
      let off := peerOff ((k.ops[3]?).getD 0)
      (s.offRectangle off = true)) ∧
    (∃ (s : State) (c seq : Nat) (b : Block) (k : Cmd) (payload bs : List Byte), (c < Config.numCores) ∧
      (s.blk c = some b) ∧ (b.peerHead seq = some k) ∧ (s.resultRoom c k 2 = true) ∧ ((s.core c).travel = []) ∧
      let off := peerOff ((k.ops[3]?).getD 0)
      (s.offRectangle off = false) ∧ (s.closed.contains off = false) ∧ (off = (0, 0)) ∧
      ∃ (st : PeerStatus) (s1 : State), (s.peerSelf c b.inst k = .ok s1)) ∧
    (∃ (s : State) (c seq : Nat) (b : Block) (k : Cmd) (payload bs : List Byte), (c < Config.numCores) ∧
      (s.blk c = some b) ∧ (b.peerHead seq = some k) ∧ (s.resultRoom c k 2 = true) ∧ ((s.core c).travel = []) ∧
      let off := peerOff ((k.ops[3]?).getD 0)
      (s.offRectangle off = false) ∧ (s.closed.contains off = false) ∧ (off ≠ (0, 0)) ∧ (k.op = 0) ∧
      (s.peerPayload b.inst k = .ok bs)) ∧
    (∃ (s : State) (c seq : Nat) (b : Block) (k : Cmd), (c < Config.numCores) ∧ (s.blk c = some b) ∧
      (b.peerHead seq = some k) ∧ (s.resultRoom c k 2 = true)) ∧
    (∃ (s : State) (die len : Nat) (va : Word) (bs : List Byte), (die < Config.numDies) ∧
      (s.portRead (s.instOfDie die) va len = .ok bs)) ∧
    (∃ (s : State) (n : Nat) (p : Port), (n < 16) ∧ (s.ports[n]? = some p)) ∧
    (∃ (s : State) (n : Nat) (p : Port), (n < 16) ∧ (s.ports[n]? = some p)) :=
  ⟨⟨commanded (copyCmd 0x20000), 0, block0 (commanded (copyCmd 0x20000)), copyCmd 0x20000,
      { newTile .block 0 .n32 2 4 0 with base := 3 }, [], by decide +kernel, by decide +kernel, by decide +kernel,
      (by decide +kernel), by decide +kernel, by decide +kernel, by decide +kernel, (by decide +kernel), by decide +kernel,
      by decide +kernel, by decide +kernel, (by decide +kernel)⟩,
    ⟨(commanded (copyCmd 0x3000000000000)), 0, block0 ((commanded (copyCmd 0x3000000000000))), copyCmd 0x3000000000000,
      { newTile .block 0 .n32 2 4 0 with base := 3 }, [], by decide +kernel, by decide +kernel, by decide +kernel,
      (by decide +kernel), by decide +kernel, by decide +kernel, by decide +kernel, (by decide +kernel), by decide +kernel,
      by decide +kernel, by decide +kernel, unit0 occupied, by decide +kernel, by decide +kernel, by decide +kernel⟩,
    ⟨commanded collCmd, 0, block0 (commanded collCmd), collCmd, [0, 0, 0, 0], by decide +kernel, by decide +kernel,
      by decide +kernel, (by decide +kernel), by decide +kernel, eqOk (by decide +kernel), by decide +kernel,
      by decide +kernel⟩,
    ⟨commanded (copyCmd 0x20000), 3, 0x20000, [1, 2, 3], 0, 0, by decide +kernel, by decide +kernel, by decide +kernel,
      (by decide +kernel)⟩,
    ⟨commanded (peerCmd 9), 0, 5, block0 (commanded (peerCmd 9)), peerCmd 9, [], [], by decide +kernel, by decide +kernel,
      by decide +kernel, (by decide +kernel), by decide +kernel, by decide +kernel⟩,
    ⟨commanded (peerCmd 0), 0, 5, block0 (commanded (peerCmd 0)), peerCmd 0, [], [], by decide +kernel, by decide +kernel,
      by decide +kernel, (by decide +kernel), by decide +kernel, by decide +kernel, by decide +kernel, (by decide +kernel),
      .done, _, okIs {} (by decide +kernel)⟩,
    ⟨commanded (peerCmd 1), 0, 5, block0 (commanded (peerCmd 1)), peerCmd 1, [], _, by decide +kernel, by decide +kernel,
      by decide +kernel, (by decide +kernel), by decide +kernel, by decide +kernel, by decide +kernel, (by decide +kernel),
      by decide +kernel, okIs [] (by decide +kernel)⟩,
    ⟨commanded (peerCmd 9), 0, 5, block0 (commanded (peerCmd 9)), peerCmd 9, by decide +kernel, by decide +kernel,
      by decide +kernel, (by decide +kernel)⟩,
    ⟨warp3, 0, 5, 0x20000, _, by decide +kernel, okIs [] (by decide +kernel)⟩,
    ⟨State.reset, 15, (State.reset.ports[15]?).getD {}, by decide +kernel, by decide +kernel⟩,
    ⟨State.reset, 15, (State.reset.ports[15]?).getD {}, by decide +kernel, by decide +kernel⟩⟩

/-- States and operands that meet the hypotheses of every clause of `Obligations.ArrayEvents`. -/
theorem witness_ArrayEvents :
    (∃ (s : State) (c : Nat) (b : Block) (k : Cmd) (rest : List Cmd), (c < Config.numCores) ∧ (s.blk c = some b) ∧
      (b.mqueue = k :: rest) ∧ (b.stop = none) ∧ ((s.core c).arr.opened = []) ∧ ((s.core c).arr.running = none) ∧
      ((∃ x ∈ b.cmds, x.seq = k.seq))) ∧
    (∃ (s : State) (c : Nat) (b : Block) (k : Cmd) (e : TileEntry), (c < Config.numCores) ∧ (s.blk c = some b) ∧
      (s.runningCmd c b = some k) ∧ (k.op = 3) ∧ (k.handles = [e]) ∧ (e.level = .acc) ∧ ((s.core c).travel = []) ∧
      (k.w.flagAcq = false) ∧ (k.w.flagRel = false) ∧ (s.resultRoom c k 1 = true)) ∧
    (∃ (s : State) (c : Nat) (b : Block) (k : Cmd) (e : TileEntry) (hs : List TileEntry), (c < Config.numCores) ∧
      (s.blk c = some b) ∧ (s.readyLoad c b = some k) ∧ (k.op = 4) ∧ (k.handles = e :: hs) ∧
      ((s.core c).travel = []) ∧ (k.w.flagAcq = false) ∧ (k.w.flagRel = false) ∧ (s.resultRoom c k 1 = true)) ∧
    (∃ (s : State) (c u : Nat) (p : ProgUnit), (c < Config.numCores) ∧ (u < 22) ∧ (s.unit c u = some p)) ∧
    (∃ (s : State) (c : Nat), (c < Config.numCores) ∧ (c < s.cores.length)) :=
  ⟨⟨inBlock (fun b => { b with mqueue := [matrixCmd 3 zeroed] }) (commanded (matrixCmd 3 zeroed)), 0,
      block0 (inBlock (fun b => { b with mqueue := [matrixCmd 3 zeroed] }) (commanded (matrixCmd 3 zeroed))),
      matrixCmd 3 zeroed, [], by decide +kernel, by decide +kernel, by decide +kernel, (by decide +kernel),
      by decide +kernel, by decide +kernel, by decide +kernel⟩,
    ⟨inCore (fun k => { k with arr := { k.arr with running := some 5 } }) (commanded (matrixCmd 3 zeroed)), 0,
      block0 (inCore (fun k => { k with arr := { k.arr with running := some 5 } }) (commanded (matrixCmd 3 zeroed))),
      matrixCmd 3 zeroed, zeroed, by decide +kernel, by decide +kernel, by decide +kernel, (by decide +kernel),
      by decide +kernel, by decide +kernel, by decide +kernel, (by decide +kernel), by decide +kernel, by decide +kernel⟩,
    ⟨inCore (fun k => { k with arr := { k.arr with running := some 5 } }) (commanded (matrixCmd 4 weights)), 0,
      block0 (inCore (fun k => { k with arr := { k.arr with running := some 5 } }) (commanded (matrixCmd 4 weights))),
      matrixCmd 4 weights, weights, [], by decide +kernel, by decide +kernel, by decide +kernel, (by decide +kernel),
      by decide +kernel, by decide +kernel, by decide +kernel, (by decide +kernel), by decide +kernel⟩,
    ⟨warp3, 0, 0, unit0 warp3, by decide +kernel, by decide +kernel, by decide +kernel⟩,
    ⟨warp3, 0, by decide +kernel, by decide +kernel⟩⟩

/-- States and operands that meet the hypotheses of every clause of `Obligations.SaveEvents`. -/
theorem witness_SaveEvents :
    (∃ (s : State) (c : Nat) (b : Block) (f : Frame) (rest : List Frame), (c < Config.numCores) ∧
      (s.blk c = some b) ∧ (21 < b.units.length) ∧ ((s.core c).hnd = none) ∧ ((s.core c).trapQ = f :: rest) ∧
      (f.unwritten = false) ∧ (b.dying = false) ∧ ((s.inst b.inst).trapbase ≠ 0)) ∧
    (∃ (s : State) (c : Nat) (b : Block) (h : Handler), (c < Config.numCores) ∧ (s.blk c = some b) ∧
      ((s.core c).hnd = some h) ∧ (b.stop = none) ∧ (2 ^ 20 ≤ s.cyc - h.start)) ∧
    (∃ (s : State) (c : Nat) (b : Block), (c < Config.numCores) ∧ (s.blk c = some b)) ∧
    (∃ (s : State) (c : Nat) (b : Block) (r : StopReq) (l : Launch) (i : Instr), (c < Config.numCores) ∧
      (s.blk c = some b) ∧ (b.stop = some r) ∧ (s.gangStopped c b r = true) ∧ (s.launch b.inst b.launch = some l) ∧
      (((s.quiesce c).core c).travel = []) ∧ ((s.quiesce c).unpinned c) ∧
      ((∀ f ∈ ((s.quiesce c).core c).trapQ, f.unwritten = false)) ∧
      (i = .blockSave c ∨ i = .forcedSave c ∧ (s.core c).hnd.isSome = true)) ∧
    (∃ (s : State), (s.dev.level ≠ 0)) ∧
    (∃ (s : State), (s.dev.rst = true) ∧ (s.empty)) :=
  ⟨⟨trapping (inCore (fun k => { k with trapQ := [frame1] }) occupied), 0, block0 occupied, frame1, [], by decide +kernel,
      by decide +kernel, by decide +kernel, (by decide +kernel), by decide +kernel, by decide +kernel, by decide +kernel,
      (by decide +kernel)⟩,
    ⟨later 1048576 (inCore (fun k => { k with hnd := some handler0 }) occupied), 0, block0 occupied, handler0,
      by decide +kernel, by decide +kernel, by decide +kernel, (by decide +kernel), by decide +kernel⟩,
    ⟨occupied, 0, block0 occupied, by decide +kernel, by decide +kernel⟩,
    ⟨stopping, 0, block0 stopping, { cause := .preempt, state := 2 }, launch0 stopping, .blockSave 0, by decide +kernel,
      by decide +kernel, by decide +kernel, (by decide +kernel), by decide +kernel, by decide +kernel,
      unpinned (by decide +kernel), by decide +kernel, Or.inl rfl⟩,
    ⟨atLevel 2 State.reset, by decide +kernel⟩,
    ⟨{ State.reset with dev := { State.reset.dev with rst := true } }, by decide +kernel, emptyOf (by decide +kernel)⟩⟩

end Sys2Proof.Tests
end

/-! PROOFS. Launch queues: what each update of a queue leaves in the state, and what the events of R295, R296, R299, R365 and R366
leave by them. -/

namespace Sys2Proof.Machine

/-! ## The place of a queue -/

/-- Queue q of device i has its place in the state: the part of `State.hasQueue` that no update of a queue or of the device
takes away. -/
def State.QueueStands (s : State) (i q : Nat) : Prop := i < s.insts.length ∧ q < (s.inst i).queues.length

theorem State.hasQueue.stands {s : State} {i q : Nat} (h : s.hasQueue i q) : s.QueueStands i q := h.2

theorem State.queue_of_insts {s t : State} (h : t.insts = s.insts) (i q : Nat) : t.queue i q = s.queue i q := by
  simp [State.queue, State.inst, h]

theorem State.QueueStands.of_insts {s t : State} {i q : Nat} (hs : s.QueueStands i q) (h : t.insts = s.insts) :
    t.QueueStands i q := by
  simpa [State.QueueStands, State.inst, h] using hs

@[simp] theorem State.modQueue_mem (s : State) (i q : Nat) (f : Queue → Queue) : (s.modQueue i q f).mem = s.mem := rfl

/-- The device i after one of its queues is changed. -/
theorem State.inst_modQueue {s : State} {i : Nat} (hi : i < s.insts.length) (q : Nat) (f : Queue → Queue) :
    (s.modQueue i q f).inst i = { s.inst i with queues := (s.inst i).queues.modify q f } := by
  simp [State.modQueue, State.modInst, State.inst, hi]

theorem State.QueueStands.modQueue {s : State} {i q : Nat} (h : s.QueueStands i q) (f : Queue → Queue) :
    (s.modQueue i q f).QueueStands i q := by
  refine ⟨by simpa [State.modQueue, State.modInst] using h.1, ?_⟩
  rw [State.inst_modQueue h.1]
  simpa using h.2

/-- A queue after its change. -/
theorem State.queue_modQueue {s : State} {i q : Nat} (h : s.QueueStands i q) (f : Queue → Queue) :
    (s.modQueue i q f).queue i q = f (s.queue i q) := by
  rw [State.queue, State.inst_modQueue h.1, State.queue]
  simp [h.2]

/-! ## Home slices and the event ring -/

@[simp] theorem State.homeWrite_insts (s : State) (pa : Nat) (bs : List Byte) (ch : BitVec 2) (n : Nat) :
    (s.homeWrite pa bs ch n).insts = s.insts := by
  unfold State.homeWrite
  simp only [State.touchL2_insts]
  split <;> simp

@[simp] theorem State.homeWrite_dev (s : State) (pa : Nat) (bs : List Byte) (ch : BitVec 2) (n : Nat) :
    (s.homeWrite pa bs ch n).dev = s.dev := by
  unfold State.homeWrite
  simp only [State.touchL2_dev]
  split <;> simp

/-- A record at the event ring changes no queue (R367). -/
@[simp] theorem State.tryRecord_insts (s : State) (bs : List Byte) : (s.tryRecord bs).insts = s.insts := by
  unfold State.tryRecord
  dsimp only
  split
  · rfl
  · split
    · simp
    · simp only [State.raiseMsix]
      split <;> simp

/-- A record at the event ring leaves EVTAIL to the driver (R365, R367). -/
theorem State.tryRecord_evtail (s : State) (bs : List Byte) : (s.tryRecord bs).dev.evtail = s.dev.evtail := by
  unfold State.tryRecord
  dsimp only
  split
  · rfl
  · split
    · simp
    · simp only [State.raiseMsix]
      split <;> simp

@[simp] theorem State.ringRecord_insts (s : State) (kind inst q launch blk cause : Nat) :
    (s.ringRecord kind inst q launch blk cause).insts = s.insts := by
  unfold State.ringRecord
  split
  · rfl
  · split
    · rfl
    · exact State.tryRecord_insts _ _

/-- No record is made while EVBASE is 0 (R367). -/
theorem State.ringRecord_unset {s : State} (h : s.dev.evbase = 0) (kind inst q launch blk cause : Nat) :
    s.ringRecord kind inst q launch blk cause = s := if_pos h

/-- The report of lost records leaves EVTAIL to the driver (R365, R367). -/
theorem State.reportLost_evtail (s : State) : s.reportLost.dev.evtail = s.dev.evtail := by
  unfold State.reportLost
  split
  · rfl
  · exact State.tryRecord_evtail _ _

/-! ## What the dispatcher's own accesses depend on -/

/-- The accesses of the dispatcher for device i meet the same memory, tables, pins and marks in two states. -/
structure State.SeesAlike (i : Nat) (s t : State) : Prop where
  mem : t.mem = s.mem
  poison : t.poison = s.poison
  cores : t.cores = s.cores
  dev : t.dev = s.dev
  gone : t.gone = s.gone
  troot : (t.inst i).troot = (s.inst i).troot

namespace State.SeesAlike

variable {i : Nat} {s t r : State}

theorem trans (h : SeesAlike i s t) (k : SeesAlike i t r) : SeesAlike i s r :=
  ⟨k.mem.trans h.mem, k.poison.trans h.poison, k.cores.trans h.cores, k.dev.trans h.dev, k.gone.trans h.gone,
    k.troot.trans h.troot⟩

theorem pinHolder (h : SeesAlike i s t) (c pa : Nat) : t.pinHolder c pa = s.pinHolder c pa := by
  simp [State.pinHolder, State.core, h.cores]

theorem poisonedIn (h : SeesAlike i s t) (pa n : Nat) : t.poisonedIn pa n = s.poisonedIn pa n := by
  simp [State.poisonedIn, State.served, h.poison, h.dev]

theorem pte (h : SeesAlike i s t) (who pa : Nat) : t.pte who pa = s.pte who pa := by
  simp only [State.pte, h.pinHolder, h.poisonedIn, h.mem]

theorem walkFrom (h : SeesAlike i s t) (who va fuel lvl table : Nat) :
    t.walkFrom who va fuel lvl table = s.walkFrom who va fuel lvl table := by
  induction fuel generalizing lvl table with
  | zero => rfl
  | succ fuel ih => simp only [State.walkFrom, h.pte, ih]

theorem walk (h : SeesAlike i s t) (va : Word) (who : Nat) : t.walk i va who = s.walk i va who := by
  simp only [State.walk, h.walkFrom, h.troot]

theorem window (h : SeesAlike i s t) (pa : Nat) : t.window pa = s.window pa := by simp only [State.window, h.dev]

theorem permit (h : SeesAlike i s t) (e : TlbEntry) (k : Access) (va : Word) : t.permit e k va = s.permit e k va := by
  unfold State.permit
  rw [h.dev, h.gone]
  simp only [h.window]

theorem devPlace (h : SeesAlike i s t) (k : Access) (va : Word) : t.devPlace i k va = s.devPlace i k va := by
  simp only [State.devPlace, h.walk, h.permit, h.pinHolder]

theorem devRead (h : SeesAlike i s t) (va : Word) (n : Nat) : t.devRead i va n = s.devRead i va n := by
  simp only [State.devRead, h.devPlace, h.poisonedIn, State.homeRead, h.mem]

end State.SeesAlike

/-- The registers of a queue are nothing that a walk depends on. -/
theorem State.seesAlike_modQueue {s : State} {i : Nat} (hi : i < s.insts.length) (q : Nat) (f : Queue → Queue) :
    SeesAlike i s (s.modQueue i q f) :=
  ⟨rfl, rfl, rfl, rfl, rfl, by rw [State.inst_modQueue hi]⟩

@[simp] theorem State.touchDev_mem (s : State) (i : Nat) (va : Word) : (s.touchDev i va).mem = s.mem := by
  unfold State.touchDev; split <;> simp

@[simp] theorem State.touchDev_insts (s : State) (i : Nat) (va : Word) : (s.touchDev i va).insts = s.insts := by
  unfold State.touchDev; split <;> simp

/-- The lines that a read of the dispatcher touches change no later access of it. -/
theorem State.seesAlike_touchDev (s : State) (i : Nat) (va : Word) : SeesAlike i s (s.touchDev i va) := by
  unfold State.touchDev
  split
  · exact ⟨rfl, rfl, rfl, rfl, rfl, rfl⟩
  · constructor <;> simp [State.inst]

/-! ## Stops, and the copy of QCONSUMED -/

/-- A queue stopped with a code (R296). -/
def Queue.stopped (k : Queue) (code : Nat) : Queue :=
  { k with
    stop := true, code := .ofNat 8 code, slot := .ofNat 32 k.consumed, head := none, satisfied := false, reread := 0 }

/-- A stop of the device's own is reported; one that the driver asks for is not (R367). -/
theorem State.stopQueue_eq (s : State) (i q code : Nat) :
    s.stopQueue i q code = if code = 0 then s.modQueue i q (·.stopped code)
      else (s.modQueue i q (·.stopped code)).ringRecord 2 i q (s.queue i q).consumed 0 code := rfl

theorem State.stopQueue_insts (s : State) (i q code : Nat) :
    (s.stopQueue i q code).insts = (s.modQueue i q (·.stopped code)).insts := by
  rw [State.stopQueue_eq]
  split
  · rfl
  · exact State.ringRecord_insts ..

theorem State.queue_stopQueue {s : State} {i q : Nat} (h : s.QueueStands i q) (code : Nat) :
    (s.stopQueue i q code).queue i q = (s.queue i q).stopped code := by
  rw [State.queue_of_insts (s.stopQueue_insts i q code), State.queue_modQueue h]

theorem State.QueueStands.stopQueue {s : State} {i q : Nat} (h : s.QueueStands i q) (code : Nat) :
    (s.stopQueue i q code).QueueStands i q := (h.modQueue _).of_insts (s.stopQueue_insts i q code)

/-- A stop writes no memory where it makes no record. -/
theorem State.stopQueue_mem {s : State} {code : Nat} (h : code = 0 ∨ s.dev.evbase = 0) (i q : Nat) :
    (s.stopQueue i q code).mem = s.mem := by
  rw [State.stopQueue_eq]
  split
  · rfl
  · next hcode => rw [State.ringRecord_unset (s := s.modQueue ..) (h.resolve_left hcode), State.modQueue_mem]

theorem State.queue_oweCopy {s : State} {i q : Nat} (h : s.QueueStands i q) (fault pinned : Bool) :
    (s.oweCopy i q fault pinned).queue i q = { s.queue i q with copyFault := fault, owed := pinned } :=
  State.queue_modQueue h _

theorem State.QueueStands.oweCopy {s : State} {i q : Nat} (h : s.QueueStands i q) (fault pinned : Bool) :
    (s.oweCopy i q fault pinned).QueueStands i q := h.modQueue _

/-- The copy where the word at QCVA can be written (R299). -/
theorem State.copyConsumed_placed {s : State} {i q pa : Nat} (h : s.devPlace i .store (s.queue i q).qcva = .ok pa) :
    s.copyConsumed i q = (s.homeWrite pa (leBytes 8 (s.queue i q).consumed) 0 i).oweCopy i q false false := by
  simp only [State.copyConsumed, h]

/-- QCTL and the two counts of a queue are those of another. -/
structure Queue.CountsAlike (k k' : Queue) : Prop where
  en : k'.en = k.en
  pri : k'.pri = k.pri
  logs : k'.logs = k.logs
  doorbell : k'.doorbell = k.doorbell
  consumed : k'.consumed = k.consumed

/-- Whatever becomes of the copy, QCTL and the counts stay. -/
theorem State.queue_copyConsumed {s : State} {i q : Nat} (h : s.QueueStands i q) :
    (s.queue i q).CountsAlike ((s.copyConsumed i q).queue i q) := by
  unfold State.copyConsumed
  dsimp only
  split
  · rw [State.queue_oweCopy (h.of_insts (State.homeWrite_insts ..)), State.queue_of_insts (State.homeWrite_insts ..)]
    exact ⟨rfl, rfl, rfl, rfl, rfl⟩
  · rw [State.queue_oweCopy (h.of_insts (State.markRefused_insts ..)), State.queue_of_insts (State.markRefused_insts ..)]
    exact ⟨rfl, rfl, rfl, rfl, rfl⟩
  · rw [State.queue_oweCopy (h.stopQueue _), State.queue_stopQueue h]
    exact ⟨rfl, rfl, rfl, rfl, rfl⟩

/-- A copy that can be made writes the count and leaves the stop as it was. -/
theorem State.copyConsumed_copies {s : State} {i q pa : Nat} (hs : s.QueueStands i q)
    (h : s.devPlace i .store (s.queue i q).qcva = .ok pa) :
    (s.copyConsumed i q).mem = cellWrite s.mem pa (leBytes 8 (s.queue i q).consumed) ∧
      ((s.copyConsumed i q).queue i q).stop = (s.queue i q).stop := by
  rw [State.copyConsumed_placed h, State.queue_oweCopy (hs.of_insts (State.homeWrite_insts ..)),
    State.queue_of_insts (State.homeWrite_insts ..)]
  exact ⟨State.homeWrite_mem .., rfl⟩

/-! ## QCTL (R295) -/

/-- A queue with QCTL written. -/
def Queue.controlled (x : Word) (k : Queue) : Queue :=
  { k with
    irq := x.getLsbD 16, en := x.getLsbD 15, pri := x.toNat / 2 ^ 8 % 4, logs := if k.en then k.logs else x.toNat % 32
    head := if x.getLsbD 15 then k.head else none }

/-- A queue that EN rising starts anew. -/
def Queue.anew (k : Queue) : Queue :=
  { k with doorbell := 0, consumed := 0, head := none, satisfied := false, reread := 0, copyFault := false, owed := false }

/-- Whether EN rising finds a descriptor turns on the registers and on the LOGS written with it. -/
theorem Queue.valid_anew {k : Queue} (h : k.en = false) (x : Word) :
    (k.controlled x).anew.valid = { k with logs := x.toNat % 32 }.valid := by
  simp [Queue.valid, Queue.controlled, Queue.anew, h]

/-- The state with a queue started anew, before 0 goes to the word at QCVA. -/
def State.startQueue (s : State) (i q : Nat) (x : Word) : State :=
  (s.modQueue i q (Queue.controlled x)).modQueue i q Queue.anew

theorem State.QueueStands.startQueue {s : State} {i q : Nat} (h : s.QueueStands i q) (x : Word) :
    (s.startQueue i q x).QueueStands i q := (h.modQueue _).modQueue _

theorem State.queue_startQueue {s : State} {i q : Nat} (h : s.QueueStands i q) (x : Word) :
    (s.startQueue i q x).queue i q = ((s.queue i q).controlled x).anew := by
  rw [State.startQueue, State.queue_modQueue (h.modQueue _), State.queue_modQueue h]

theorem State.devPlace_startQueue {s : State} {i q : Nat} (h : s.QueueStands i q) (x : Word) (k : Access) (va : Word) :
    (s.startQueue i q x).devPlace i k va = s.devPlace i k va :=
  ((State.seesAlike_modQueue h.1 q _).trans (State.seesAlike_modQueue (h.modQueue _).1 q _)).devPlace k va

/-- QCTL of a queue that is enabled. -/
theorem State.writeQctl_enabled {s : State} {i q : Nat} (h : (s.queue i q).en = true) (x : Word) :
    s.writeQctl i q x = s.modQueue i q (Queue.controlled x) := by
  simp only [State.writeQctl, h, Bool.true_or, if_true]; rfl

/-- A queue started anew over no descriptor: 0 goes to the word at QCVA where that can be written, and the queue stops. -/
def State.refuseStart (s : State) (i q : Nat) : State :=
  match (if (s.queue i q).qcva.toNat % 8 = 0 then s.devPlace i .store (s.queue i q).qcva else .error (.fault .noMemory)) with
  | .ok pa => (s.homeWrite pa (leBytes 8 0) 0 i).stopQueue i q 0x0A
  | .error (.pinned c pa) => ((s.markRefused c pa).oweCopy i q false true).stopQueue i q 0x0A
  | .error _ => s.stopQueue i q 0x0A

/-- EN rising starts the queue anew, and goes on by what the descriptor is. -/
theorem State.writeQctl_rising {s : State} {i q : Nat} {x : Word} (hen : (s.queue i q).en = false) (hx : x.getLsbD 15 = true) :
    s.writeQctl i q x = if ((s.startQueue i q x).queue i q).valid then (s.startQueue i q x).copyConsumed i q
      else (s.startQueue i q x).refuseStart i q :=
  if_neg (by simp [hen, hx])

/-- Whatever becomes of the write, the queue ends stopped with 0x0A. -/
theorem State.refuseStart_stops {s : State} {i q : Nat} (hs : s.QueueStands i q) :
    ∃ r : State, s.refuseStart i q = r.stopQueue i q 0x0A ∧ r.QueueStands i q ∧
      ∀ pa, (s.queue i q).qcva.toNat % 8 = 0 → s.devPlace i .store (s.queue i q).qcva = .ok pa →
        r = s.homeWrite pa (leBytes 8 0) 0 i := by
  unfold State.refuseStart
  by_cases ha : (s.queue i q).qcva.toNat % 8 = 0
  · rw [if_pos ha]
    cases s.devPlace i .store (s.queue i q).qcva with
    | ok pa => exact ⟨_, rfl, hs.of_insts (State.homeWrite_insts ..), fun _ _ h => by cases h; rfl⟩
    | error e =>
      cases e with
      | pinned c pa => exact ⟨_, rfl, (hs.of_insts (State.markRefused_insts ..)).oweCopy _ _, nofun⟩
      | cause c => exact ⟨_, rfl, hs, nofun⟩
      | fault f => exact ⟨_, rfl, hs, nofun⟩
  · rw [if_neg ha]
    exact ⟨_, rfl, hs, fun _ h => absurd h ha⟩

/-! ## QSTATUS (R296) -/

/-- A queue whose stop is cleared. -/
def Queue.cleared (k : Queue) : Queue :=
  { k with stop := false, code := 0, head := none, satisfied := false, reread := 0 }

/-- A queue that has passed over a slot. -/
def Queue.passedOver (k : Queue) : Queue := { k with consumed := k.consumed + 1 }

/-- A stop cleared where no copy has failed. -/
theorem State.clearStop_held {s : State} {i q : Nat} (hstop : (s.queue i q).stop = true)
    (hcopy : (s.queue i q).copyFault = false) (skip : Bool) :
    s.clearStop i q skip = if skip then ((s.modQueue i q Queue.cleared).modQueue i q Queue.passedOver).copyConsumed i q
      else s.modQueue i q Queue.cleared := by
  simp only [State.clearStop, hstop, hcopy, Bool.not_true, Bool.false_eq_true, if_false]
  rfl

/-! ## Slots and waits (R299) -/

/-- Where the header of a queue's next slot stands. -/
def Queue.headerVa (k : Queue) : Word := k.qseq + .ofNat 64 (32 * (k.consumed % k.size))

/-- Where the record of a queue's next slot stands. -/
def Queue.recordVa (k : Queue) : Word := k.qbase + .ofNat 64 (128 * (k.consumed % k.size))

/-- A slot whose SEQ is not the index at hand is read again 512 cycles later. -/
theorem State.readSlot_mismatch {s : State} {i q : Nat} {seq : List Byte} (hcopy : (s.queue i q).copyFault = false)
    (howed : (s.queue i q).owed = false) (halign : (s.queue i q).headerVa.toNat % 32 = 0)
    (hseq : s.devRead i (s.queue i q).headerVa 8 = .ok seq) (hne : leNat seq ≠ (s.queue i q).consumed) :
    s.readSlot i q = (s.touchDev i (s.queue i q).headerVa).modQueue i q fun k => { k with reread := s.cyc + 512 } := by
  unfold Queue.headerVa at *
  simp only [State.readSlot, hcopy, howed, halign, hseq, hne, Bool.or_self, Bool.false_eq_true, if_false, if_true, ne_eq,
    not_true_eq_false, not_false_eq_true]

/-- A slot whose SEQ is the index at hand gives the queue its head. -/
theorem State.readSlot_match {s : State} {i q : Nat} {seq hdr rec : List Byte} (hcopy : (s.queue i q).copyFault = false)
    (howed : (s.queue i q).owed = false) (halign : (s.queue i q).headerVa.toNat % 32 = 0)
    (hseq : s.devRead i (s.queue i q).headerVa 8 = .ok seq) (heq : leNat seq = (s.queue i q).consumed)
    (hralign : (s.queue i q).recordVa.toNat % 128 = 0) (hhdr : s.devRead i (s.queue i q).headerVa 32 = .ok hdr)
    (hrec : s.devRead i (s.queue i q).recordVa 128 = .ok rec) :
    s.readSlot i q = ((s.touchDev i (s.queue i q).headerVa).touchDev i (s.queue i q).recordVa).modQueue i q fun k =>
      { k with head := some (hdr, rec), reread := 0, satisfied := leNat ((hdr.drop 8).take 8) == 0 } := by
  have hsee := State.seesAlike_touchDev s i (s.queue i q).headerVa
  rw [← hsee.devRead] at hhdr hrec
  unfold Queue.headerVa Queue.recordVa at *
  simp only [State.readSlot, hcopy, howed, halign, hseq, heq, hralign, hhdr, hrec, Bool.or_self, Bool.false_eq_true, if_false,
    ne_eq, not_true_eq_false]

/-- A head's wait that can be read is satisfied at or below WAITVAL, read as I64. -/
theorem State.lookWait_read {s : State} {i q : Nat} {hdr rec bs : List Byte} (hhead : (s.queue i q).head = some (hdr, rec))
    (hsat : (s.queue i q).satisfied = false) (halign : (BitVec.ofNat 64 (leNat ((hdr.drop 8).take 8))).toNat % 8 = 0)
    (hread : s.devRead i (.ofNat 64 (leNat ((hdr.drop 8).take 8))) 8 = .ok bs) :
    s.lookWait i q =
      let s1 := s.touchDev i (.ofNat 64 (leNat ((hdr.drop 8).take 8)))
      if (BitVec.ofNat 64 (leNat bs)).toInt ≤ (BitVec.ofNat 64 (leNat ((hdr.drop 16).take 8))).toInt then
        s1.modQueue i q fun k => { k with satisfied := true } else s1 := by
  simp only [State.lookWait, hhead, hsat, halign, hread, Bool.false_eq_true, if_false, ne_eq, not_true_eq_false]

/-- A queue that waits for its next slot, and owes no copy, has no head. -/
theorem Queue.head_of_wants {k : Queue} (hwants : k.wants = true) (howed : k.owed = false) : k.head = none := by
  simp only [Queue.wants, howed, Bool.false_or, Bool.and_eq_true, Option.isNone_iff_eq_none] at hwants
  exact hwants.1.2

/-! ## The events of a queue -/

/-- The event is the read that a queue's next slot is due for: the first, or one that repeats it once its cycle has come (R299). -/
def State.SlotDue (s : State) (i q : Nat) (e : Instr) : Prop :=
  e = .seqRead i q ∧ (s.queue i q).reread = 0 ∨
    e = .seqReread i q ∧ (s.queue i q).reread ≠ 0 ∧ (s.queue i q).reread ≤ s.cyc

/-- An event of a queue that exists completes with what it makes of the state. -/
theorem completes_onQueue {s : State} {i q : Nat} {e : Instr} {f : State → State} {P : State → Prop} (h : s.hasQueue i q)
    (he : exec e s = onQueue i q s f) (hP : P (f s)) : Completes s e P :=
  ⟨f s, by rw [he, onQueue, if_pos h.1], hP⟩

section Events

variable {s : State} {i q : Nat} (h : s.hasQueue i q)
include h

/-- QUEUE_ENABLE over a descriptor starts the queue anew and copies 0 (R295). -/
theorem completes_queueEnable_valid {x : Word} (hen : (s.queue i q).en = false) (hx : x.getLsbD 15 = true)
    (hstop : (s.queue i q).stop = false) (hv : { s.queue i q with logs := x.toNat % 32 }.valid = true) :
    Completes s (.queueEnable i q x) fun t => (t.queue i q).en = true ∧ (t.queue i q).doorbell = 0 ∧
      (t.queue i q).consumed = 0 ∧ (t.queue i q).pri = x.toNat / 2 ^ 8 % 4 ∧ (t.queue i q).logs = x.toNat % 32 ∧
      ∀ pa, s.devPlace i .store (s.queue i q).qcva = .ok pa →
        t.mem = cellWrite s.mem pa (leBytes 8 0) ∧ (t.queue i q).stop = false := by
  refine completes_onQueue (f := (·.writeQctl i q x)) h rfl ?_
  have hs := h.stands.startQueue x
  have hk := State.queue_startQueue h.stands x
  rw [State.writeQctl_rising hen hx, if_pos (by rw [hk, Queue.valid_anew hen, hv])]
  have hcounts := State.queue_copyConsumed hs
  rw [hk] at hcounts
  refine ⟨hcounts.en.trans hx, hcounts.doorbell, hcounts.consumed, hcounts.pri,
    hcounts.logs.trans (if_neg (ne_true_of_eq_false hen)), fun pa hpa => ?_⟩
  have hcopy := State.copyConsumed_copies hs (pa := pa) (by rw [hk]; exact (State.devPlace_startQueue h.stands ..).trans hpa)
  rw [hk] at hcopy
  exact ⟨hcopy.1, hcopy.2.trans hstop⟩

/-- QUEUE_ENABLE over no descriptor stops the queue with 0x0A (R295). -/
theorem completes_queueEnable_invalid {x : Word} (hen : (s.queue i q).en = false) (hx : x.getLsbD 15 = true)
    (hv : { s.queue i q with logs := x.toNat % 32 }.valid = false) :
    Completes s (.queueEnable i q x) fun t => (t.queue i q).stop = true ∧ (t.queue i q).code = 0x0A ∧
      ∀ pa, (s.queue i q).qcva.toNat % 8 = 0 → s.devPlace i .store (s.queue i q).qcva = .ok pa → s.dev.evbase = 0 →
        t.mem = cellWrite s.mem pa (leBytes 8 0) := by
  refine completes_onQueue (f := (·.writeQctl i q x)) h rfl ?_
  have hk := State.queue_startQueue h.stands x
  obtain ⟨r, hr, hstands, hwrite⟩ := State.refuseStart_stops (h.stands.startQueue x)
  rw [State.writeQctl_rising hen hx, if_neg (by rw [hk, Queue.valid_anew hen, hv]; exact Bool.false_ne_true), hr,
    State.queue_stopQueue hstands]
  refine ⟨rfl, rfl, fun pa ha hp hev => ?_⟩
  rw [hk] at hwrite
  rw [hwrite pa ha ((State.devPlace_startQueue h.stands ..).trans hp), State.stopQueue_mem, State.homeWrite_mem]
  · rfl
  · exact .inr ((congrArg Dev.evbase (State.homeWrite_dev ..)).trans hev)

/-- QUEUE_ENABLE of a queue that is enabled keeps LOGS and the counts (R295). -/
theorem completes_queueEnable_enabled (x : Word) (hen : (s.queue i q).en = true) :
    Completes s (.queueEnable i q x) fun t => (t.queue i q).logs = (s.queue i q).logs ∧ (t.queue i q).en = x.getLsbD 15 ∧
      (t.queue i q).doorbell = (s.queue i q).doorbell ∧ (t.queue i q).consumed = (s.queue i q).consumed := by
  refine completes_onQueue (f := (·.writeQctl i q x)) h rfl ?_
  rw [State.writeQctl_enabled hen, State.queue_modQueue h.stands]
  exact ⟨if_pos hen, rfl, rfl, rfl⟩

/-- QDOORBELL raises the tail (R299). -/
theorem completes_qdoorbell (x : Word) : Completes s (.qdoorbell i q x) fun t =>
    (t.queue i q).doorbell = max (s.queue i q).doorbell x.toNat ∧ t.mem = s.mem := by
  refine completes_onQueue (f := (·.ringDoorbell i q x)) h rfl ?_
  rw [State.ringDoorbell, State.queue_modQueue h.stands]
  exact ⟨rfl, rfl⟩

/-- QUEUE_STOP stops the queue with code 0 at the index at hand (R296). -/
theorem completes_queueStop : Completes s (.queueStop i q) fun t => (t.queue i q).stop = true ∧ (t.queue i q).code = 0 ∧
    (t.queue i q).slot = .ofNat 32 (s.queue i q).consumed ∧ (t.queue i q).consumed = (s.queue i q).consumed ∧
    t.mem = s.mem := by
  refine completes_onQueue (f := (·.stopQueue i q 0)) h rfl ?_
  rw [State.queue_stopQueue h.stands, State.stopQueue_mem (.inl rfl)]
  exact ⟨rfl, rfl, rfl, rfl, rfl⟩

/-- QUEUE_CLEAR_STOP clears the stop where no copy has failed (R296). -/
theorem completes_queueClearStop (hstop : (s.queue i q).stop = true) (hcopy : (s.queue i q).copyFault = false) :
    Completes s (.queueClearStop i q) fun t => (t.queue i q).stop = false ∧ (t.queue i q).code = 0 ∧
      (t.queue i q).consumed = (s.queue i q).consumed ∧ t.mem = s.mem := by
  refine completes_onQueue (f := (·.clearStop i q false)) h rfl ?_
  rw [State.clearStop_held hstop hcopy, if_neg Bool.false_ne_true, State.queue_modQueue h.stands]
  exact ⟨rfl, rfl, rfl, rfl⟩

/-- QUEUE_SKIP passes over the slot and copies the count (R296). -/
theorem completes_queueSkip (hstop : (s.queue i q).stop = true) (hcopy : (s.queue i q).copyFault = false) :
    Completes s (.queueSkip i q) fun t => (t.queue i q).consumed = (s.queue i q).consumed + 1 ∧
      ∀ pa, s.devPlace i .store (s.queue i q).qcva = .ok pa →
        t.mem = cellWrite s.mem pa (leBytes 8 ((s.queue i q).consumed + 1)) ∧ (t.queue i q).stop = false := by
  refine completes_onQueue (f := (·.clearStop i q true)) h rfl ?_
  rw [State.clearStop_held hstop hcopy, if_pos rfl]
  have hs1 := h.stands.modQueue Queue.cleared
  have hs2 := hs1.modQueue Queue.passedOver
  have hsee := (State.seesAlike_modQueue h.stands.1 q Queue.cleared).trans
    (State.seesAlike_modQueue hs1.1 q Queue.passedOver)
  have hk : ((s.modQueue i q Queue.cleared).modQueue i q Queue.passedOver).queue i q = (s.queue i q).cleared.passedOver := by
    rw [State.queue_modQueue hs1, State.queue_modQueue h.stands]
  have hcounts := State.queue_copyConsumed hs2
  rw [hk] at hcounts
  refine ⟨hcounts.consumed, fun pa hpa => ?_⟩
  have hcopies := State.copyConsumed_copies hs2 (pa := pa) (by rw [hk]; exact (hsee.devPlace ..).trans hpa)
  rw [hk] at hcopies
  exact hcopies

/-- SEQ_READ, and SEQ_REREAD once its cycle has come, read the next slot of a queue that waits for it (R299). -/
theorem completes_readSlot {e : Instr} {P : State → Prop} (hwants : (s.queue i q).wants = true)
    (he : s.SlotDue i q e)
    (hP : P (s.readSlot i q)) : Completes s e P := by
  obtain ⟨rfl, hzero⟩ | ⟨rfl, hne, hle⟩ := he
  · refine completes_onQueue (f := fun s =>
      if (s.queue i q).wants && (s.queue i q).reread == 0 then s.readSlot i q else s) h rfl ?_
    rwa [if_pos (by simp [hwants, hzero])]
  · refine completes_onQueue (f := fun s =>
      if (s.queue i q).wants && (s.queue i q).reread != 0 && decide ((s.queue i q).reread ≤ s.cyc) then s.readSlot i q
      else s) h rfl ?_
    rwa [if_pos (by simp [hwants, hne, hle])]

/-- A read of the slot that finds another SEQ waits 512 cycles (R299). -/
theorem completes_slotMismatch {e : Instr} {seq : List Byte} (hwants : (s.queue i q).wants = true)
    (howed : (s.queue i q).owed = false) (hcopy : (s.queue i q).copyFault = false)
    (he : s.SlotDue i q e)
    (halign : (s.queue i q).headerVa.toNat % 32 = 0) (hseq : s.devRead i (s.queue i q).headerVa 8 = .ok seq)
    (hne : leNat seq ≠ (s.queue i q).consumed) :
    Completes s e fun t => (t.queue i q).head = none ∧ (t.queue i q).reread = s.cyc + 512 := by
  refine completes_readSlot h hwants he ?_
  rw [State.readSlot_mismatch hcopy howed halign hseq hne,
    State.queue_modQueue (h.stands.of_insts (State.touchDev_insts ..)), State.queue_of_insts (State.touchDev_insts ..)]
  exact ⟨Queue.head_of_wants hwants howed, rfl⟩

/-- A read of the slot that finds the index at hand takes header and record (R299). -/
theorem completes_slotMatch {e : Instr} {seq hdr rec : List Byte} (hwants : (s.queue i q).wants = true)
    (howed : (s.queue i q).owed = false) (hcopy : (s.queue i q).copyFault = false)
    (he : s.SlotDue i q e)
    (halign : (s.queue i q).headerVa.toNat % 32 = 0) (hseq : s.devRead i (s.queue i q).headerVa 8 = .ok seq)
    (heq : leNat seq = (s.queue i q).consumed) (hralign : (s.queue i q).recordVa.toNat % 128 = 0)
    (hhdr : s.devRead i (s.queue i q).headerVa 32 = .ok hdr) (hrec : s.devRead i (s.queue i q).recordVa 128 = .ok rec) :
    Completes s e fun t => (t.queue i q).head = some (hdr, rec) ∧ t.mem = s.mem := by
  refine completes_readSlot h hwants he ?_
  rw [State.readSlot_match hcopy howed halign hseq heq hralign hhdr hrec,
    State.queue_modQueue ((h.stands.of_insts (State.touchDev_insts ..)).of_insts (State.touchDev_insts ..))]
  exact ⟨rfl, (State.touchDev_mem ..).trans (State.touchDev_mem ..)⟩

/-- HEAD_WAIT_SATISFIED at a wait that can be read (R299). -/
theorem completes_headWaitSatisfied {hdr rec bs : List Byte} (hhead : (s.queue i q).head = some (hdr, rec))
    (hsat : (s.queue i q).satisfied = false) (halign : (BitVec.ofNat 64 (leNat ((hdr.drop 8).take 8))).toNat % 8 = 0)
    (hread : s.devRead i (.ofNat 64 (leNat ((hdr.drop 8).take 8))) 8 = .ok bs) :
    Completes s (.headWaitSatisfied i q) fun t => ((t.queue i q).satisfied = true ↔
      (BitVec.ofNat 64 (leNat bs)).toInt ≤ (BitVec.ofNat 64 (leNat ((hdr.drop 16).take 8))).toInt) ∧ t.mem = s.mem := by
  refine completes_onQueue (f := (·.lookWait i q)) h rfl ?_
  rw [State.lookWait_read hhead hsat halign hread]
  dsimp only
  split
  · next hle =>
    rw [State.queue_modQueue (h.stands.of_insts (State.touchDev_insts ..))]
    exact ⟨iff_of_true rfl hle, State.touchDev_mem ..⟩
  · next hgt =>
    rw [State.queue_of_insts (State.touchDev_insts ..), hsat]
    exact ⟨iff_of_false Bool.false_ne_true hgt, State.touchDev_mem ..⟩

end Events

/-! ## Management registers (R365, R366) -/

/-- COMMAND_END with the result at hand: firmware's, or 1 for a code that names no command. -/
theorem completes_commandEnd {s : State} {r : BitVec 8} (hgo : s.dev.go = true)
    (hr : s.dev.cmdDone = some r ∨ s.dev.cmdDone = none ∧ r = 1 ∧ 9 < s.dev.cmd.toNat) :
    Completes s .commandEnd fun t => t.dev.go = false ∧ t.dev.result = r ∧ t.dev.cmdDone = none ∧
      t.dev.msix = s.dev.msix ++ [0] ∧ t.mem = s.mem := by
  refine ⟨{ s with dev := { s.dev with go := false, result := r, cmdDone := none } }.raiseMsix 0, ?_, rfl, rfl, rfl, rfl, rfl⟩
  change execCommandEnd s = _
  obtain hdone | ⟨hnone, rfl, hcode⟩ := hr
  · simp [execCommandEnd, hgo, hdone]
  · simp [execCommandEnd, hgo, hnone, hcode]

/-- EVTAIL takes a value from EVTAIL to EVHEAD. -/
theorem State.writeEvtail_evtail (s : State) (x : Word) : (s.writeEvtail x).dev.evtail =
    if s.dev.evtail ≤ x.toNat ∧ x.toNat ≤ s.dev.evhead then x.toNat else s.dev.evtail := by
  unfold State.writeEvtail
  split
  · exact State.reportLost_evtail _
  · rfl

/-- CMD and its two arguments are locked while a command runs. -/
theorem State.writeRegister_locked {s : State} {off : Nat} (hgo : s.dev.go = true) (hoff : off ∈ [0x08, 0x10, 0x18])
    (x : Word) :
    s.writeRegister off x = s := by
  simp only [List.mem_cons, List.not_mem_nil, or_false] at hoff
  obtain rfl | rfl | rfl := hoff <;> exact if_pos hgo

/-- CMD is written, and GO with it, while no command runs. -/
theorem State.writeRegister_cmd {s : State} (hgo : s.dev.go = false) (x : Word) :
    s.writeRegister 0x08 x = { s with dev := { s.dev with cmd := .ofNat 8 x.toNat, go := x.getLsbD 8 } } :=
  if_neg (ne_true_of_eq_false hgo)

theorem State.writeRegister_fwarg0 {s : State} (hgo : s.dev.go = false) (x : Word) :
    s.writeRegister 0x10 x = { s with dev := { s.dev with fwarg0 := x } } := if_neg (ne_true_of_eq_false hgo)

theorem State.writeRegister_fwarg1 {s : State} (hgo : s.dev.go = false) (x : Word) :
    s.writeRegister 0x18 x = { s with dev := { s.dev with fwarg1 := x } } := if_neg (ne_true_of_eq_false hgo)

/-- REGISTER_WRITE completes with the register written. -/
theorem completes_registerWrite {s t : State} {off : Nat} {x : Word} {P : State → Prop} (h : s.writeRegister off x = t)
    (hP : P t) : Completes s (.registerWrite off x) P := ⟨t, congrArg Host.Outcome.next h, hP⟩

/-- Settles O53: each event by the lemma that says what its update leaves of the queue or of the management registers. -/
theorem queueEvents : Obligations.QueueEvents := by
  refine ⟨fun s i q h => ⟨fun x hen hx hstop => ?enable, completes_queueEnable_enabled h, completes_qdoorbell h,
      completes_queueStop h, fun hstop hcopy => ?clear, ?slot, fun _ _ _ => completes_headWaitSatisfied h⟩,
    fun _ _ => completes_commandEnd, fun s x => ⟨_, rfl, s.writeEvtail_evtail x⟩, fun s x hgo => ?registers,
    fun s x off hgo hoff => completes_registerWrite (State.writeRegister_locked hgo hoff x) rfl,
    fun s slow => ⟨_, rfl, rfl, rfl, rfl⟩⟩
  case enable => exact ⟨completes_queueEnable_valid h hen hx hstop, completes_queueEnable_invalid h hen hx⟩
  case clear => exact ⟨completes_queueClearStop h hstop hcopy, completes_queueSkip h hstop hcopy⟩
  case slot =>
    rintro e n seq hwants howed hcopy he rfl halign hseq
    exact ⟨completes_slotMismatch h hwants howed hcopy he halign hseq,
      fun hdr rec => completes_slotMatch h hwants howed hcopy he halign hseq⟩
  case registers =>
    exact ⟨completes_registerWrite (State.writeRegister_cmd hgo x) ⟨rfl, rfl⟩,
      completes_registerWrite (State.writeRegister_fwarg0 hgo x) rfl,
      completes_registerWrite (State.writeRegister_fwarg1 hgo x) rfl⟩

end Sys2Proof.Machine

/-! PROOFS. Traps: what taking one leaves of the units, what an instruction that raises one leaves of its own, which trap the
lanes of an instruction raise, and from the three the traps of the arithmetic instructions (R17, R120, R124, R263). -/

namespace Sys2Proof.Machine

/-! ## Updates that leave the units -/

/-- The units stand in the cores. -/
theorem State.unit_of_cores {s t : State} (h : t.cores = s.cores) (c u : Nat) : t.unit c u = s.unit c u := by
  simp [State.unit, State.blk, State.core, h]

/-- A change of a core beside its block leaves the units. -/
theorem State.unit_modCore {f : Core → Core} (hf : ∀ k, (f k).blk = k.blk) (s : State) (c d u : Nat) :
    (s.modCore c f).unit d u = s.unit d u := by
  have hblk : (s.modCore c f).blk d = s.blk d := by
    by_cases hd : c = d
    · subst hd
      by_cases hc : c < s.cores.length
      · rw [State.blk, State.core_modCore_self s hc, hf, State.blk]
      · rw [State.modCore_beyond s hc]
    · rw [State.blk, State.core_modCore_ne s hd, State.blk]
  rw [State.unit, hblk, State.unit]

/-- A change of a block that leaves a unit of it leaves that unit in the state. -/
theorem State.unit_modBlk {f : Block → Block} {u : Nat} (hf : ∀ b, (f b).unit u = b.unit u) (s : State) (c d : Nat) :
    (s.modBlk c f).unit d u = s.unit d u := by
  unfold State.modBlk
  split
  · rfl
  · next b hb =>
    by_cases hd : c = d
    · subst hd
      rw [State.unit, State.blk_setBlk_self s (State.lt_of_blk hb), State.unit, hb]
      exact hf b
    · rw [State.unit, State.blk_setBlk_ne s hd, State.unit]

@[simp] theorem State.unit_trace (s : State) (c k : Nat) (pc : Word) (ty : Nat) (ws : List Word) (d u : Nat) :
    (s.trace c k pc ty ws).unit d u = s.unit d u := State.unit_of_cores (State.trace_cores ..) d u

@[simp] theorem State.unit_touchSpan (s : State) (pa n : Nat) (w : Bool) (i d u : Nat) :
    (s.touchSpan pa n w i).unit d u = s.unit d u := State.unit_of_cores (State.touchSpan_cores ..) d u

@[simp] theorem State.unit_touchWalk (s : State) (i : Nat) (va : Word) (who d u : Nat) :
    (s.touchWalk i va who).unit d u = s.unit d u := State.unit_of_cores (State.touchWalk_cores ..) d u

@[simp] theorem State.unit_markRefused (s : State) (k pa d u : Nat) : (s.markRefused k pa).unit d u = s.unit d u :=
  State.unit_modCore (fun _ => by rfl) s k d u

@[simp] theorem State.unit_stopBlk (s : State) (c : Nat) (r : StopReq) (d u : Nat) : (s.stopBlk c r).unit d u = s.unit d u :=
  State.unit_modBlk (fun _ => by rfl) s c d

@[simp] theorem State.unit_noteDigest (s : State) (c : Nat) (x : Word) (d u : Nat) :
    (s.noteDigest c x).unit d u = s.unit d u := State.unit_modBlk (fun _ => by rfl) s c d

/-- A translation leaves the units: it fills the TLBs and the lines that its walk reads (R240, R395). -/
@[simp] theorem State.unit_fillTlb (s : State) (c : Nat) (va : Word) (d u : Nat) : (s.fillTlb c va).unit d u = s.unit d u := by
  unfold State.fillTlb
  split
  · exact State.unit_touchWalk ..
  · next e _ =>
    refine (State.unit_modCore (f := fun k => { k with tlb := tlbTouch 128 k.tlb e }) (fun _ => rfl) _ c d u).trans ?_
    split
    · rfl
    · exact State.unit_touchWalk ..

/-! ## The device's own stores leave the units -/

@[simp] theorem State.homeWrite_cores (s : State) (pa : Nat) (bs : List Byte) (ch : BitVec 2) (n : Nat) :
    (s.homeWrite pa bs ch n).cores = s.cores := by
  unfold State.homeWrite
  simp only [State.touchL2_cores]
  split <;> simp

@[simp] theorem State.unit_homeWrite (s : State) (pa : Nat) (bs : List Byte) (ch : BitVec 2) (n d u : Nat) :
    (s.homeWrite pa bs ch n).unit d u = s.unit d u := State.unit_of_cores (State.homeWrite_cores ..) d u

@[simp] theorem State.unit_land (s : State) (c : Nat) (t : Travel) (d u : Nat) : (s.land c t).unit d u = s.unit d u := by
  rw [State.land, State.unit_homeWrite, State.countL2, State.unit_count]

@[simp] theorem State.unit_refuse (s : State) (c : Nat) (t : Travel) (d u : Nat) : (s.refuse c t).unit d u = s.unit d u := by
  unfold State.refuse
  split
  · exact State.unit_markRefused ..
  · rfl

/-- Stores that land, and pins that refuse some of them, leave the units (R146, R159). -/
@[simp] theorem State.unit_landSome (s : State) (c : Nat) (f : Travel → Bool) (d u : Nat) :
    (s.landSome c f).unit d u = s.unit d u := by
  unfold State.landSome
  refine (State.unit_modCore (fun _ => by rfl) _ c d u).trans ?_
  rw [foldl_keeps (State.unit · d u) _ fun _ _ => State.unit_refuse ..,
    foldl_keeps (State.unit · d u) _ fun _ _ => State.unit_land ..]

@[simp] theorem State.unit_sliceWrite (s : State) (c pa : Nat) (bs : List Byte) (ch : BitVec 2) (d u : Nat) :
    (s.sliceWrite c pa bs ch).unit d u = s.unit d u := by
  refine (State.unit_modCore (fun _ => by rfl) _ c d u).trans ?_
  rw [State.unit_homeWrite]
  exact State.unit_of_cores rfl d u

@[simp] theorem State.unit_ownWrite (s : State) (c pa : Nat) (bs : List Byte) (d u : Nat) :
    (s.ownWrite c pa bs).unit d u = s.unit d u := by
  rw [State.ownWrite, State.unit_touchSpan, State.unit_sliceWrite, State.landAll, State.unit_landSome]

theorem State.unit_tryWrite {s t : State} {c : Nat} {va : Word} {bs : List Byte} (h : s.tryWrite c va bs = some t)
    (d u : Nat) : t.unit d u = s.unit d u := by
  unfold State.tryWrite at h
  dsimp only at h
  split at h
  · cases h
  · split at h
    · cases h; exact State.unit_ownWrite ..
    · split at h
      · cases h
      · cases h; simp

/-- A store to a save slot leaves the units, whether or not its page translates (R228). -/
@[simp] theorem State.unit_slotWrite (s : State) (c : Nat) (va : Word) (bs : List Byte) (d u : Nat) :
    (s.slotWrite c va bs).unit d u = s.unit d u := by
  unfold State.slotWrite
  cases h : s.tryWrite c va bs with
  | none => exact State.unit_stopBlk ..
  | some t => exact State.unit_tryWrite h d u

/-! ## Taking a trap -/

@[simp] theorem State.unit_putFrame (s : State) (c : Nat) (b : Block) (f : Frame) (d u : Nat) :
    (s.putFrame c b f).unit d u = s.unit d u := State.unit_slotWrite ..

/-- The handler starts as unit 21 and leaves the others (R218). -/
theorem State.unit_startHandler (s : State) (c : Nat) (f : Frame) (d : Nat) {u : Nat} (hu : u < 21) :
    (s.startHandler c f).unit d u = s.unit d u := by
  unfold State.startHandler
  split
  · rfl
  · next b hb =>
    have hset : ∀ p, (s.setBlk c (b.setUnit 21 p)).unit d u = s.unit d u := fun p => by
      simpa [State.modBlk, hb] using State.unit_modBlk (fun b => Block.unit_setUnit_ne b (Nat.ne_of_gt hu) p) s c d
    rw [State.unit_trace]
    exact (State.unit_modCore (fun _ => by rfl) _ c d u).trans (hset _)

/-- A frame that is delivered, held back by a pin or put in the queue leaves every unit but the handler's (R159, R218). -/
theorem State.unit_deliver (s : State) (c : Nat) (f : Frame) (d : Nat) {u : Nat} (hu : u < 21) :
    (s.deliver c f).unit d u = s.unit d u := by
  have hqueue : ∀ (t : State) (f : Frame), (t.modCore c fun k => { k with trapQ := k.trapQ ++ [f] }).unit d u = t.unit d u :=
    fun t _ => State.unit_modCore (fun _ => by rfl) t c d u
  unfold State.deliver
  split
  · rfl
  · next b _ =>
    split
    · dsimp only
      split <;> simp [hqueue]
    · dsimp only
      split
      · simp [hqueue]
      · split
        · simp [hqueue]
        · split
          · rw [State.unit_startHandler _ c f d hu, State.unit_putFrame]
          · simp [hqueue]

/-- A unit that is set. -/
theorem State.unit_setUnit_self {s : State} {c u : Nat} {p : ProgUnit} (h : s.unit c u = some p) (q : ProgUnit) :
    (s.setUnit c u q).unit c u = some q := by
  simpa [State.modUnit, h] using State.unit_modUnit_self h fun _ => q

/-- The unit that takes a trap stops with its frame, and is otherwise as it was (R218). -/
theorem State.unit_takeTrap {s : State} {c u : Nat} {p : ProgUnit} (h : s.unit c u = some p) (hk : p.kind ≠ .handler)
    (hu : u < 21) (k : Nat) (f : Frame) :
    (s.takeTrap c u k f).unit c u = some { p with trap := some f, trapSplit := k } := by
  unfold State.takeTrap
  have hfill : (if f.kind = 0 && translationCause f.cause then s.fillTlb c f.info1 else s).unit c u = some p := by
    split
    · rw [State.unit_fillTlb, h]
    · exact h
  simp only [hfill, beq_eq_false_iff_ne.mpr hk, Bool.false_eq_true, if_false, State.unit_deliver _ _ _ _ hu,
    State.unit_noteDigest, State.unit_trace, State.unit_setUnit_self hfill]

/-! ## The frame of a fault -/

/-- A request for a trap of kind 0 that resumes where R219 says. -/
def TrapReq.plain (r : TrapReq) : Prop := r.kind = 0 ∧ r.resume = none

/-- A frame of kind 0 as R219 fills it for a request of the instruction that v shows: it resumes at the region entry. -/
structure Frame.Faults (f : Frame) (v : View) (r : TrapReq) : Prop where
  cause : f.cause = r.cause
  kind : f.kind = 0
  unit : f.unit = v.unit
  mask : f.mask = r.lanes
  pc : f.pc = v.addr
  rk : f.rk = 0
  resume : f.resume = f.rpc

/-- The two-level name of a place changes nothing else of a frame (R380). -/
theorem Frame.Faults.named {f : Frame} {v : View} {r : TrapReq} (h : f.Faults v r) (s : State) (c : Nat) :
    (f.named s c).Faults v r := by
  unfold Frame.named
  split
  · exact ⟨h.cause, h.kind, h.unit, h.mask, h.pc, h.rk, h.resume⟩
  · exact h

/-- The frame of a word's fault. -/
theorem View.frame_faults (v : View) (s : State) {r : TrapReq} (hr : r.plain) : (v.frame s r).Faults v r := by
  obtain ⟨hkind, hresume⟩ := hr
  refine Frame.Faults.named ⟨rfl, hkind, rfl, rfl, rfl, ?_, ?_⟩ s v.core
  · simp [hkind]
  · simp [hkind, hresume]

/-- The frame of a syllable's fault. -/
theorem View.bundleFrame_faults (v : View) (s : State) {r : TrapReq} (hr : r.plain) : (v.bundleFrame s r).Faults v r := by
  obtain ⟨hcause, hkind, hunit, hmask, hpc, hrk, -⟩ := v.frame_faults s hr
  exact ⟨hcause, hkind, hunit, hmask, hpc, hrk, rfl⟩

/-! ## An instruction that raises a trap -/

/-- A word's trap, taken from the state at hand: its unit stops with the frame, having issued (R306). -/
theorem State.unit_trapNow {s : State} {v : View} {p : ProgUnit} (h : s.unit v.core v.unit = some p) (hk : p.kind ≠ .handler)
    (hu : v.unit < 21) (r : TrapReq) : ∃ stepped, (s.trapNow v r).unit v.core v.unit = some
      { p.modSplit v.split fun t => { t with last := s.cyc, promoted := false } with
        stepped := stepped, issued := s.cyc, trap := some (v.frame s r), trapSplit := v.split } :=
  ⟨_, State.unit_takeTrap (State.unit_modU h _) hk hu _ _⟩

/-- The close of a bundle of one syllable that has faulted: the context takes the trap in the state before the bundle (R107). -/
theorem closeBundle_faulted {s t : State} {v : View} {f : Frame}
    (h : t.bundle = some { s.newBundle v v.next with fault := some f }) : closeBundle s v t =
      (s.trace v.core v.unit f.pc 8 [f.pc, .ofNat 64 f.slot, .ofNat 64 f.cause.code]).takeTrap v.core v.unit v.split f := by
  unfold closeBundle
  rw [h]
  simp [State.newBundle, State.popsPending, Bundle.firstFault, State.firstFull]

/-- A change of a split that keeps all but the cycle and the mark of its last issue, read back. -/
theorem ProgUnit.split_modSplit_issued (p : ProgUnit) (j k cyc : Nat) :
    (p.modSplit j fun t => { t with last := cyc, promoted := false }).split k =
      { p.split k with
        last := ((p.modSplit j fun t => { t with last := cyc, promoted := false }).split k).last
        promoted := ((p.modSplit j fun t => { t with last := cyc, promoted := false }).split k).promoted } := by
  simp only [ProgUnit.split, ProgUnit.modSplit, List.getElem?_modify]
  cases p.splits[k]? with
  | none => rfl
  | some t => by_cases hj : j = k <;> simp [hj]

/-- The state once the context has taken the trap of a syllable, its frame noted in the trace, in the state before the bundle. -/
def State.bundleTrap (s : State) (i : Instr) (v : View) (r : TrapReq) : State :=
  let f := v.bundleFrame (openOne i s v).1 r
  (s.trace v.core v.unit f.pc 8 [f.pc, .ofNat 64 f.slot, .ofNat 64 f.cause.code]).takeTrap v.core v.unit v.split f

/-- A syllable's trap: its context stops with the frame and is otherwise as it was before the bundle (R107). -/
theorem State.unit_bundleTrap {s : State} {v : View} {p : ProgUnit} (h : s.unit v.core v.unit = some p)
    (hk : p.kind ≠ .handler) (hu : v.unit < 21) (i : Instr) (r : TrapReq) : (s.bundleTrap i v r).unit v.core v.unit =
      some { p with trap := some (v.bundleFrame (openOne i s v).1 r), trapSplit := v.split } :=
  State.unit_takeTrap (by rw [State.unit_trace, h]) hk hu _ _

section Raises

variable {s : State} {i : Instr} {h : Head} {v : View} {body : View → State → Eff} {r : TrapReq}

/-- A word of a warp, the front end or the handler that raises a trap takes it in the state before it (R17). -/
theorem Stands.word_raises (hs : Stands s i h v) (hc : v.u.kind ≠ .context)
    (hb : body v (s.advance v) = .error (.raise r)) : issue i h s body = .next (s.trapNow v r) := by
  have hword : issue i h s body = issueWord i s v body := by
    unfold issue
    rw [hs.view]
    cases hk : v.u.kind <;> simp_all
  rw [hword, issueWord, hs.check]
  simp only [hb]

/-- A syllable without a queue port that is a bundle of its own and raises a trap takes it in the state before the bundle
(R17, R107). -/
theorem Stands.syllable_raises (hs : Stands s i h v) (hc : v.u.kind = .context) (hq : 63 ∉ i.sources)
    (hb : body v (openOne i s v).1 = .error (.raise r)) : issue i h s body = .next (s.bundleTrap i v r) := by
  unfold issue
  rw [hs.view]
  simp only [hc, hs.closed, hs.answered hc, hs.view, issueSyl, hs.check, hb]
  exact congrArg _ (closeBundle_faulted (by simp [openOne_eq s hq, State.newBundle]))

/-- An instruction whose body raises a trap, whatever state it starts from, traps. -/
theorem Stands.traps (hs : Stands s i h v) (hq : v.noPort i.sources) (hk : v.u.kind ≠ .handler) (hu : v.unit < 21)
    (hx : exec i s = issue i h s body) (hb : ∀ s0, body v s0 = .error (.raise r)) (hr : r.plain) :
    Traps s i v r.cause r.lanes := by
  have hunit := hs.unit.1
  by_cases hc : v.u.kind = .context
  · obtain ⟨hcause, hkind, hfu, hmask, hpc, hrk, hresume⟩ := v.bundleFrame_faults (openOne i s v).1 hr
    exact ⟨_, _, _, hx.trans (hs.syllable_raises hc (hq hc) (hb _)), State.unit_bundleTrap hunit hk hu i r, rfl,
      hcause, hkind, hfu, hmask, hpc, hrk, hresume, rfl, rfl, rfl, fun _ => rfl, rfl, rfl⟩
  · obtain ⟨hcause, hkind, hfu, hmask, hpc, hrk, hresume⟩ := v.frame_faults s hr
    obtain ⟨_, hp⟩ := State.unit_trapNow hunit hk hu r
    exact ⟨_, _, _, hx.trans (hs.word_raises hc (hb _)), hp, rfl, hcause, hkind, hfu, hmask, hpc, hrk, hresume,
      rfl, rfl, List.length_modify .., fun k => v.u.split_modSplit_issued v.split k s.cyc, rfl, rfl⟩

end Raises

/-! ## Which trap the lanes raise -/

/-- The search for a first value stops where a search for a first element does, if both pass over the same elements. -/
theorem findSome?_eq_of_find? {α β : Type} {l : List α} {f : α → Option β} {p : α → Bool} {a : α} {b : β}
    (ha : l.find? p = some a) (hf : f a = some b) (hnone : ∀ x ∈ l, p x = false → f x = none) : l.findSome? f = some b := by
  obtain ⟨-, before, after, rfl, hbefore⟩ := List.find?_eq_some_iff_append.mp ha
  have hskip : before.findSome? f = none := List.findSome?_eq_none_iff.mpr fun x hx =>
    hnone x (List.mem_append_left _ hx) (by simpa using hbefore x hx)
  simp [List.findSome?_append, hskip, hf]

/-- Lanes that meet no cause raise none. -/
theorem passErr_none {g : List Nat} {e : Nat → Option LaneErr} (h : ∀ k ∈ g, e k = none) : passErr g e = none := by
  have herrs : (g.filterMap fun k => (e k).map (k, ·)) = [] :=
    List.filterMap_eq_nil_iff.mpr fun k hk => by rw [h k hk]; rfl
  simp [passErr, herrs]

/-- The least rank of lanes that meet one cause. -/
theorem leastRank_uniform {x : LaneErr} (hx : x.rank ≤ 1000) {l : List Nat} (hl : l ≠ []) :
    leastRank (l.map (·, x)) = x.rank := by
  obtain ⟨k, l, rfl⟩ := List.exists_cons_of_ne_nil hl
  clear hl
  induction l generalizing k with
  | nil => exact Nat.min_eq_left hx
  | cons j l ih =>
    change min x.rank (leastRank ((j :: l).map (·, x))) = x.rank
    rw [ih, Nat.min_self]

/-- The lanes of a pass with what they meet, where every lane meets one cause or none. -/
theorem filterMap_uniform {g : List Nat} {e : Nat → Option LaneErr} {x : LaneErr} {bad : Nat → Bool}
    (he : ∀ k ∈ g, e k = if bad k then some x else none) :
    (g.filterMap fun k => (e k).map (k, ·)) = (g.filter bad).map (·, x) := by
  induction g with
  | nil => rfl
  | cons k g ih =>
    have htail := ih fun j hj => he j (List.mem_cons_of_mem _ hj)
    have hhead := he k List.mem_cons_self
    cases hb : bad k with
    | false =>
      rw [List.filterMap_cons_none (by rw [hhead, hb]; rfl), List.filter_cons_of_neg (by rw [hb]; decide), htail]
    | true => rw [List.filterMap_cons_some (by rw [hhead, hb]; rfl), List.filter_cons_of_pos hb, List.map_cons, htail]

/-- A pass in which every lane meets one cause or none names the lanes that meet it. -/
theorem passErr_uniform {g : List Nat} {e : Nat → Option LaneErr} {x : LaneErr} {bad : Nat → Bool} (hx : x.rank ≤ 1000)
    (he : ∀ k ∈ g, e k = if bad k then some x else none) (hbad : g.any bad = true) : passErr g e =
      some { cause := x.cause, lanes := maskOfList (g.filter bad), info1 := x.info1, info2 := x.info2 } := by
  have hne : g.filter bad ≠ [] := by
    obtain ⟨k, hk, hb⟩ := List.any_eq_true.mp hbad
    exact List.ne_nil_of_mem (List.mem_filter.mpr ⟨hk, hb⟩)
  have hall : ((g.filter bad).map (·, x)).filter (fun y => y.2.rank == x.rank) = (g.filter bad).map (·, x) :=
    List.filter_eq_self.mpr fun y hy => by obtain ⟨k, -, rfl⟩ := List.mem_map.mp hy; exact beq_self_eq_true _
  unfold passErr
  simp only [filterMap_uniform he, leastRank_uniform hx hne, hall]
  obtain ⟨k, l, hl⟩ := List.exists_cons_of_ne_nil hne
  simp [hl, Function.comp_def]

/-- A pass whose lanes meet no enabled condition raises none (R263). -/
theorem flagErr_none {ctl : BitVec 5} {g : List Nat} {fl : Nat → BitVec 5} (h : ∀ k ∈ g, ctl &&& fl k = 0) :
    flagErr ctl g fl = none := by
  have hfind : (List.range 5).find? (fun n => ctl.getLsbD n && g.any fun k => (fl k).getLsbD n) = none := by
    rw [List.find?_eq_none]
    intro n _ hn
    obtain ⟨hctl, hany⟩ := Bool.and_eq_true_iff.mp hn
    obtain ⟨k, hk, hfl⟩ := List.any_eq_true.mp hany
    have hbit := congrArg (·.getLsbD n) (h k hk)
    simp [hctl, hfl] at hbit
  rw [flagErr, hfind]

/-- The trap of a pass for the lowest condition that is enabled and met in it (R263). -/
theorem flagErr_lowest {ctl : BitVec 5} {g : List Nat} {fl : Nat → BitVec 5} {n : Nat} (hctl : ctl.getLsbD n = true)
    (hmet : ∃ k ∈ g, (fl k).getLsbD n = true)
    (hlow : ∀ m, m < n → ctl.getLsbD m = true → ∀ k ∈ g, (fl k).getLsbD m = false) : flagErr ctl g fl = some
      { cause := fpCause n, lanes := maskOfList (g.filter fun k => (fl k).getLsbD n)
        info1 := (orFlags g fl).setWidth 64 } := by
  have hlt : n < 5 := BitVec.lt_of_getLsbD hctl
  have hfind : (List.range 5).find? (fun n => ctl.getLsbD n && g.any fun k => (fl k).getLsbD n) = some n := by
    rw [List.find?_range_eq_some]
    refine ⟨?_, List.mem_range.mpr hlt, fun m hm => ?_⟩
    · rw [hctl, Bool.true_and]; exact List.any_eq_true.mpr hmet
    · cases hc : ctl.getLsbD m with
      | false => rfl
      | true => simpa using hlow m hm hc
  rw [flagErr, hfind]

/-- What the lanes of an instruction raise is a plain request. -/
theorem firstTrap_plain {ctl : BitVec 5} {gs : List (List Nat)} {e : Nat → Option LaneErr} {fl : Nat → BitVec 5} {r : TrapReq}
    (h : firstTrap ctl gs e fl = some r) : r.plain := by
  obtain ⟨g, -, hg⟩ := List.exists_of_findSome?_eq_some h
  cases hp : passErr g e with
  | some t =>
    rw [hp] at hg
    cases hg
    unfold passErr at hp
    dsimp only at hp
    split at hp <;> cases hp
    exact ⟨rfl, rfl⟩
  | none =>
    rw [hp] at hg
    change flagErr ctl g fl = some r at hg
    unfold flagErr at hg
    split at hg <;> cases hg
    exact ⟨rfl, rfl⟩

/-- The first group with a lane that meets something, where a selected lane does. -/
theorem View.find_group {v : View} {bad : Nat → Bool} (h : ∃ k ∈ v.lanes, bad k = true) :
    ∃ g, v.groups.find? (fun g => g.any bad) = some g := by
  obtain ⟨k, hk, hbad⟩ := h
  obtain ⟨g, hg, hkg⟩ := List.mem_flatten.mp ((v.mem_groups k).mpr hk)
  exact Option.isSome_iff_exists.mp
    (List.find?_isSome.mpr ⟨g, hg, List.any_eq_true.mpr ⟨k, hkg, hbad⟩⟩)

/-- A lane of a group is selected. -/
theorem View.mem_lanes_of_group {v : View} {g : List Nat} (hg : g ∈ v.groups) {k : Nat} (hk : k ∈ g) : k ∈ v.lanes :=
  (v.mem_groups k).mp (List.mem_flatten.mpr ⟨g, hg, hk⟩)

/-- Lanes that meet one cause or none, and no condition, raise that cause for the lanes of `View.meeting`. -/
theorem View.firstTrap_cause {v : View} {ctl : BitVec 5} {e : Nat → Option LaneErr} {fl : Nat → BitVec 5} {x : LaneErr}
    {bad : Nat → Bool} (hx : x.rank ≤ 1000) (he : ∀ k ∈ v.lanes, e k = if bad k then some x else none)
    (hfl : ∀ k ∈ v.lanes, fl k = 0) (hbad : ∃ k ∈ v.lanes, bad k = true) : firstTrap ctl v.groups e fl =
      some { cause := x.cause, lanes := v.meeting bad, info1 := x.info1, info2 := x.info2 } := by
  obtain ⟨g, hg⟩ := View.find_group hbad
  refine findSome?_eq_of_find? hg ?_ fun g' hg' hno => ?_
  · have hmem : ∀ k ∈ g, k ∈ v.lanes := fun _ => View.mem_lanes_of_group (List.mem_of_find?_eq_some hg)
    rw [passErr_uniform hx (fun k hk => he k (hmem k hk)) (by simpa using List.find?_some hg), View.meeting, hg]
    rfl
  · have hmem : ∀ k ∈ g', k ∈ v.lanes := fun _ => View.mem_lanes_of_group hg'
    have hnone : ∀ k ∈ g', bad k = false := by simpa using hno
    rw [passErr_none fun k hk => by rw [he k (hmem k hk), hnone k hk]; rfl]
    exact flagErr_none fun k hk => by rw [hfl k (hmem k hk)]; exact BitVec.and_zero

/-- Lanes that meet no cause raise the lowest condition that is enabled and met in the first group that meets an enabled
one, for its lanes that meet it (R263). -/
theorem View.firstTrap_condition {v : View} {ctl : BitVec 5} {res : Nat → LaneRes} {x : Nat → Reg} {fl : Nat → BitVec 5}
    {n : Nat} {g : List Nat} (hok : ∀ k ∈ v.lanes, res k = .ok (x k, fl k))
    (hg : v.groups.find? (fun g => g.any fun k => ctl &&& fl k != 0) = some g) (hctl : ctl.getLsbD n = true)
    (hmet : ∃ k ∈ g, (fl k).getLsbD n = true)
    (hlow : ∀ m, m < n → ctl.getLsbD m = true → ∀ k ∈ g, (fl k).getLsbD m = false) :
    ∃ info, firstTrap ctl v.groups (fun k => errOf (res k)) (fun k => flagsOf (res k)) =
      some { cause := fpCause n, lanes := maskOfList (g.filter fun k => (fl k).getLsbD n), info1 := info } := by
  have hcauseless : ∀ g' ∈ v.groups, passErr g' (fun k => errOf (res k)) = none := fun _ hg' =>
    passErr_none fun k hk => by rw [hok k (View.mem_lanes_of_group hg' hk)]; rfl
  have hflags : ∀ g' ∈ v.groups, ∀ k ∈ g', flagsOf (res k) = fl k := fun _ hg' k hk => by
    rw [hok k (View.mem_lanes_of_group hg' hk)]; rfl
  have hgmem := List.mem_of_find?_eq_some hg
  refine ⟨(orFlags g fun k => flagsOf (res k)).setWidth 64, findSome?_eq_of_find? hg ?_ fun g' hg' hno => ?_⟩
  · obtain ⟨k, hk, hbit⟩ := hmet
    have hlanes : g.filter (fun k => (fl k).getLsbD n) = g.filter fun k => (flagsOf (res k)).getLsbD n :=
      List.filter_congr fun k hk => by rw [hflags g hgmem k hk]
    rw [hcauseless g hgmem, hlanes]
    exact flagErr_lowest hctl ⟨k, hk, by rw [hflags g hgmem k hk, hbit]⟩
      fun m hm hc k hk => by rw [hflags g hgmem k hk]; exact hlow m hm hc k hk
  · have hno : ∀ k ∈ g', ctl &&& fl k = 0 := by simpa using hno
    rw [hcauseless g' hg']
    exact flagErr_none fun k hk => by rw [hflags g' hg' k hk, hno k hk]

/-! ## The shapes of lane instructions trap -/

section Shapes

variable {s : State} {i : Instr} {h : Head} {v : View} {d a b : Nat} {r : TrapReq}

/-- An instruction of two sources traps where its lanes raise something, and writes nothing. -/
theorem Stands.lane2_traps (hs : Stands s i h v) (hk : v.u.kind ≠ .handler) (hu : v.unit < 21) (hq : v.noPort i.sources)
    {f : Nat → Reg → Reg → LaneRes} (hx : exec i s = issue i h s (Machine.lane2 d a b f)) (hp : v.noPort [a, b])
    (hr : firstTrap v.u.fpctl v.groups (fun k => errOf (f k (v.u.read k a) (v.u.read k b)))
      (fun k => flagsOf (f k (v.u.read k a) (v.u.read k b))) = some r) : Traps s i v r.cause r.lanes := by
  refine hs.traps hq hk hu hx (fun s0 => ?_) (firstTrap_plain hr)
  rw [Machine.lane2, fetch_plain v s0 _ hp]
  change finishReg v s0 d (fun k => f k (v.u.read k a) (v.u.read k b)) = _
  rw [finishReg, settle, hr]

/-- An instruction that compares two sources traps where its lanes raise something, and writes nothing. -/
theorem Stands.pred2_traps (hs : Stands s i h v) (hk : v.u.kind ≠ .handler) (hu : v.unit < 21) (hq : v.noPort i.sources)
    {f : Nat → Reg → Reg → PredRes} (hx : exec i s = issue i h s (Machine.pred2 d a b f)) (hp : v.noPort [a, b])
    (hr : firstTrap v.u.fpctl v.groups (fun k => errOf (f k (v.u.read k a) (v.u.read k b)))
      (fun k => flagsOf (f k (v.u.read k a) (v.u.read k b))) = some r) : Traps s i v r.cause r.lanes := by
  refine hs.traps hq hk hu hx (fun s0 => ?_) (firstTrap_plain hr)
  rw [Machine.pred2, fetch_plain v s0 _ hp]
  change finishPred v s0 d (fun k => f k (v.u.read k a) (v.u.read k b)) = _
  rw [finishPred, settle, hr]

/-- The view of an instruction that is a bundle of its own, or a word, checks its lanes as the instruction's entry says. -/
theorem Stands.passes (hs : Stands s i h v) : v.passes = i.byPass := by
  have hv := hs.view
  unfold State.view at hv
  rw [hs.closed] at hv
  split at hv
  · cases hv
  · split at hv
    · cases hv
    · split at hv <;> cases hv
      rfl

end Shapes

/-! ## The lanes of the integer instructions -/

/-- A quotient or remainder of sources that match T meets INT_DIVZERO where the divisor is 0, and no other cause (R124). -/
theorem errOf_intDiv {t : Ty} {a b : Reg} (ha : tagMatches t a.tag = true) (hb : tagMatches t b.tag = true) (sat : Bool)
    (f : Int → Int → Int) (k : Nat) : errOf (intDiv t sat f k a b) =
      if intVal t b.v == 0 then some { rank := 1, cause := .intDivzero } else none := by
  by_cases h0 : intVal t b.v = 0 <;> simp [intDiv, ha, hb, h0, errOf, intRes, okReg]

/-- Integer division sets no flag. -/
theorem flagsOf_intDiv (t : Ty) (sat : Bool) (f : Int → Int → Int) (k : Nat) (a b : Reg) :
    flagsOf (intDiv t sat f k a b) = 0 := by
  unfold intDiv
  split
  · rfl
  · split <;> rfl

/-- An integer operation of two sources meets TAG_MISMATCH where one does not match T, and no other cause (R120). -/
theorem errOf_int2 (t : Ty) (sat : Bool) (f : Int → Int → Int) (k : Nat) (a b : Reg) : errOf (int2 t sat f k a b) =
    if !(tagMatches t a.tag && tagMatches t b.tag) then some { rank := 0, cause := .tagMismatch } else none := by
  unfold int2
  cases tagMatches t a.tag && tagMatches t b.tag <;> rfl

/-- An integer operation sets no flag. -/
theorem flagsOf_int2 (t : Ty) (sat : Bool) (f : Int → Int → Int) (k : Nat) (a b : Reg) :
    flagsOf (int2 t sat f k a b) = 0 := by
  unfold int2
  split <;> rfl

/-- An integer comparison meets TAG_MISMATCH where a source does not match T, and no other cause (R120). -/
theorem errOf_intCmp (t : Ty) (cc k : Nat) (a b : Reg) : errOf (intCmp t cc k a b) =
    if !(tagMatches t a.tag && tagMatches t b.tag) then some { rank := 0, cause := .tagMismatch } else none := by
  unfold intCmp
  cases tagMatches t a.tag && tagMatches t b.tag <;> rfl

/-- An integer comparison sets no flag. -/
theorem flagsOf_intCmp (t : Ty) (cc k : Nat) (a b : Reg) : flagsOf (intCmp t cc k a b) = 0 := by
  unfold intCmp
  split <;> rfl

/-! ## The arithmetic instructions trap -/

/-- Whether A or B of a lane does not match T (R120). -/
def View.mismatch (v : View) (w : ArithWord) (k : Nat) : Bool :=
  !(tagMatches w.t (v.u.read k w.a.toNat).tag && tagMatches w.t (v.u.read k w.b.toNat).tag)

section Arithmetic

variable {s : State} {v : View} {w : ArithWord} {i : Instr}

/-- An integer division whose sources match T traps on a zero divisor (R124). -/
theorem Stands.intDiv_traps (hs : Stands s i w.head v) (hk : v.u.kind ≠ .handler) (hu : v.unit < 21)
    (hq : v.noPort i.sources) {sat : Bool} {f : Int → Int → Int}
    (hx : exec i s = issue i w.head s (Machine.lane2 w.d.toNat w.a.toNat w.b.toNat (intDiv w.t sat f)))
    (hp : v.noPort [w.a.toNat, w.b.toNat])
    (htags : ∀ k ∈ v.lanes, tagMatches w.t (v.u.read k w.a.toNat).tag = true ∧ tagMatches w.t (v.u.read k w.b.toNat).tag = true)
    (hzero : ∃ k ∈ v.lanes, intVal w.t (v.u.read k w.b.toNat).v = 0) :
    Traps s i v .intDivzero (v.meeting fun k => intVal w.t (v.u.read k w.b.toNat).v == 0) :=
  hs.lane2_traps hk hu hq hx hp (View.firstTrap_cause (by decide)
    (fun k hk => errOf_intDiv (htags k hk).1 (htags k hk).2 sat f k) (fun _ _ => flagsOf_intDiv ..) (by simpa using hzero))

/-- An integer operation of two sources traps on a source that does not match T (R120). -/
theorem Stands.int2_traps (hs : Stands s i w.head v) (hk : v.u.kind ≠ .handler) (hu : v.unit < 21)
    (hq : v.noPort i.sources) {sat : Bool} {f : Int → Int → Int}
    (hx : exec i s = issue i w.head s (Machine.lane2 w.d.toNat w.a.toNat w.b.toNat (int2 w.t sat f)))
    (hp : v.noPort [w.a.toNat, w.b.toNat])
    (hbad : ∃ k ∈ v.lanes, v.mismatch w k = true) :
    Traps s i v .tagMismatch (v.meeting (v.mismatch w)) :=
  hs.lane2_traps hk hu hq hx hp
    (View.firstTrap_cause (by decide) (fun _ _ => errOf_int2 ..) (fun _ _ => flagsOf_int2 ..) hbad)

/-- ICMP traps on a source that does not match T (R120). -/
theorem Stands.icmp_traps (hs : Stands s (.icmp w) w.head v) (hk : v.u.kind ≠ .handler) (hu : v.unit < 21)
    (hp : v.noPort [w.a.toNat, w.b.toNat])
    (hbad : ∃ k ∈ v.lanes, v.mismatch w k = true) :
    Traps s (.icmp w) v .tagMismatch (v.meeting (v.mismatch w)) :=
  hs.pred2_traps hk hu hp rfl hp
    (View.firstTrap_cause (by decide) (fun _ _ => errOf_intCmp ..) (fun _ _ => flagsOf_intCmp ..) hbad)

end Arithmetic

/-- Settles O9: an instruction whose lanes raise a trap takes it and writes nothing (`Stands.lane2_traps`, `Stands.pred2_traps`);
what they raise is the one integer cause of `View.firstTrap_cause`, or the lowest condition of `View.firstTrap_condition`. -/
theorem arithmeticTraps : Obligations.ArithmeticTraps := by
  refine ⟨?division, ?mismatch, ?condition⟩
  case division =>
    rintro s v w i (rfl | rfl) hs hk hu hp htags hzero
    all_goals exact hs.intDiv_traps hk hu hp rfl hp htags hzero
  case mismatch =>
    rintro s v w i (rfl | rfl | rfl | rfl | rfl | rfl) hs hk hu hp bad hbad
    case inr.inr.inr.inr.inr => exact hs.icmp_traps hk hu hp hbad
    all_goals exact hs.int2_traps hk hu hp rfl hp hbad
  case condition =>
    intro s v w r fl n hs hk hu hp hok meets pass hmeets hctl hmet hlow
    have hgroups : v.groups = v.byPass v.lanes := by rw [View.groups, hs.passes]; rfl
    obtain ⟨g, hg⟩ := View.find_group hmeets
    have hpass : pass = g := by rw [hgroups] at hg; simp [pass, hg]
    rw [hpass] at hmet hlow ⊢
    obtain ⟨info, hr⟩ := View.firstTrap_condition hok hg hctl hmet hlow
    exact hs.lane2_traps hk hu hp rfl hp hr

end Sys2Proof.Machine
